-- ==== Sys2Proof/Word.lean ====
section
/-! DEFINITION. The words of the HTW-7232: bytes, 32- and 64-bit words and the sparse tables that hold indexed state. -/
namespace Sys2Proof

/-- One byte of memory, of a command, of a message. -/
abbrev Byte := BitVec 8
/-- A 32-bit pattern, such as a binary32 value (R54) or a wait word (R210). -/
abbrev W32 := BitVec 32
/-- A 64-bit pattern: every register is one (R440). -/
abbrev W64 := BitVec 64
/-- Indexed state in one canonical form: keys strictly rising, no entry equal to the table's default. -/
abbrev Tab (β : Type) := List (Nat × β)

end Sys2Proof
end

