-- ==== Sys2Proof/Syntax.lean ====
section
/-! DEFINITION. The commands the module takes: one constructor per row of spec/opcode_table.json, with the row's operands. -/
namespace Sys2Proof

/-- Who performs a register access: RDMA from an H-class port, or CPC firmware (R446). -/
inductive Path where
  | rdma | firmware
  deriving DecidableEq, Repr

/-- Origin of an arriving RoCEv2 packet (R291): port, breakout half, destination QPN and source IP address (16 bytes). -/
structure PktSrc where
  port : Fin 64
  half : Bool
  qpn : Nat
  ip : List Byte
  deriving DecidableEq, Repr

/-- What a port sees of a frame (R286-R290): FCS, MACsec association and packet number, PCP, DSCP, CE mark, whether its ICRC checks
(R293), whether the packet inside is a request that R293 does not support, its origin, its bytes, and the bytes that left its class's
buffer since the last frame. -/
structure Frame where
  fcsOk : Bool
  sec : Option (Fin 4 × Nat)
  pcp : Option (Fin 8)
  dscp : Nat
  ce : Bool
  icrcOk : Bool
  unsupported : Bool := false
  src : PktSrc
  bytes : List Byte
  drained : Nat
  deriving DecidableEq, Repr

/-- Answer of a responder to one of the module's own requests (R297, R249). -/
inductive AckResult where
  | ok (data : List Byte)
  | nakAccess
  | nakOther
  | rnr
  deriving DecidableEq, Repr

/-- One sample of a region's monitors (R346, R204): 16 temperatures in 1/16 °C, 8 rails in mV, 4 oscillators in MHz, 4 stack sensors in °C. -/
structure Readings where
  temps : List (BitVec 16)
  volts : List (BitVec 16)
  freqs : List (BitVec 16)
  stack : List (BitVec 8)
  deriving DecidableEq, Repr

/-- Measured power in watts: each region at its stage-2 inputs, each segment at 12 V with its 1 ms peak, and the input with its 1 ms peak
(R337, R339). -/
structure Draws where
  regions : List Nat
  segs : List Nat
  segPeaks : List Nat
  input : Nat
  inputPeak : Nat := input
  deriving DecidableEq, Repr

/-- A receive key of a port: its half and its association number (R395). -/
structure SecAssoc where
  half : Fin 2
  an : Fin 4
  deriving DecidableEq, Repr

/-- What a meter brings that takes the place of another (R418): it has never had a billing key, so all its energy is idle. Energy in mJ; the
log by `L_SEQ`. -/
structure NewMeter where
  serial : Nat
  /-- of its certificate (R405): the date of manufacture, the public modulus, the vendor's signature -/
  mfgDate : W32
  pubkey : List Byte
  certSig : List Byte
  lrDigest : List Byte
  paramDigest : List Byte
  version : Nat
  taNumber : List Byte
  epoch : Nat
  utc : Nat
  total : Nat
  log : List (Nat × List Byte)
  logNext : Nat
  deriving DecidableEq, Repr

/-- How power returns to the meter: how long it was away, the service switch's position (R411), and a meter put in the place of the one
that was there (R409, R418). -/
structure MeterReturn where
  elapsedMs : Nat
  serviceOpen : Bool
  incoming : Option NewMeter
  deriving DecidableEq, Repr

/-- What the start-up steps find in the hardware (R419-R424). -/
structure BootReport where
  /-- rings whose links fail CRC training (step 5) -/
  ringsFailed : List (Fin 16) := []
  /-- port dies that fail step 6 of themselves -/
  pdFailed : List (Fin 4) := []
  /-- ports of 00-03 whose links come up (step 8) -/
  linksUp : List (Fin 64) := []
  /-- regions that trip during their ramp -/
  rampTrip : List (Fin 32) := []
  /-- regions whose stack fails training -/
  stackFail : List (Fin 32) := []
  /-- regions whose hubs both fail, or an LLM slice, a DMA engine or a UPE -/
  testFail : List (Fin 32) := []
  /-- regions where only die a's hub fails (R206) -/
  hubAFail : List (Fin 32) := []
  /-- failed physical clusters of each die, by die index -/
  clusters : List (Fin 64 × List (Fin 50)) := []
  /-- whether the primary root and its mirror pass self-test (step 3) -/
  primaryOk : Bool := true
  mirrorOk : Bool := true
  /-- milliseconds from step 1 to the end of step 14 -/
  elapsedMs : Nat := 0
  deriving DecidableEq, Repr, Inhabited

/-- A command of CPC firmware, a register access or a marker that travels as an MGMT message (R255, R349, R446). -/
inductive MgmtMsg where
  | regWrite (addr value : W64)
  | regRead (addr : W64)
  | marker (region : Fin 32)
  deriving DecidableEq, Repr

/-- What an authenticating cassette presents (R317): does the bus answer, its certificate, and its signature over the challenge. -/
structure CassetteReply where
  answers : Bool
  cert : List Byte
  lifeCh : Nat
  response : List Byte
  deriving DecidableEq, Repr

/-- The commands. Register writes carry their path and value, events carry what the hardware observed. -/
inductive Instr where
  -- bitstream
  | load
  | partialApply
  -- hub
  | doorbell (path : Path) (r : Fin 32) (q : Fin 8) (tail : BitVec 11)
  | qCtrlWrite (path : Path) (r : Fin 32) (q : Fin 8) (enable : Bool)
  | qBaseWrite (path : Path) (r : Fin 32) (q : Fin 8) (value : W64)
  | cqCtrlWrite (r : Fin 32) (c : Fin 16) (value : W64)
  | cqBaseWrite (r : Fin 32) (c : Fin 16) (value : W64)
  | cqHeadWrite (r : Fin 32) (c : Fin 16) (value : W64)
  | commandFetch (r : Fin 32) (q : Fin 8)
  | dispatch (r : Fin 32)
  | hubNop (r : Fin 32)
  | hubToken (r : Fin 32)
  | hubStep (r : Fin 32)
  | hubAbort (r : Fin 32)
  | dmaSubmit (r : Fin 32)
  -- engines
  | mxeMm (r : Fin 32) (cl : Fin 96)
  | mxeMmSparse (r : Fin 32) (cl : Fin 96)
  | mxeMmSelect (r : Fin 32) (cl : Fin 96)
  | finishedTilePush (r : Fin 32) (cl : Fin 96)
  | veExec (r : Fin 32) (cl : Fin 96)
  | primeRelease (r : Fin 32) (cl : Fin 96)
  | upeUpdate (r : Fin 32) (die : Fin 2)
  | panPut (r : Fin 32)
  | panGet (r : Fin 32)
  | panFree (r : Fin 32)
  | predRun (r : Fin 32) (cl : Fin 96)
  | predExpand (r : Fin 32) (cl : Fin 96)
  -- retirement, timeouts, steps
  | retireGrant (r : Fin 32)
  | recordVisible (r : Fin 32)
  | waitTimeout (r : Fin 32) (q : Fin 8)
  | stepIncrement (r : Fin 32)
  -- DMA
  | chPost (path : Path) (r : Fin 32) (ch : Fin 64) (value : W64)
  | chShareWrite (r : Fin 32) (ch : Fin 64) (value : W64)
  | dmaDescStart (r : Fin 32) (ch : Fin 64)
  | dmaBurst (r : Fin 32) (ch : Fin 64)
  | dmaLastWriteLeft (r : Fin 32) (ch : Fin 64)
  | dmaBarrierAck (r : Fin 32) (ch : Fin 64)
  | dmaBarrierTimeout (r : Fin 32) (ch : Fin 64)
  -- rings
  | flitReceive (stop : Fin 36) (ring : Fin 16) (descending : Bool) (flit : List Byte) (sideband : W64)
  | memWr (i : Nat)
  | memRd (i : Nat)
  | memRsp (i : Nat)
  | atomic (i : Nat)
  | redAdd (i : Nat)
  | redAck (i : Nat)
  | signal (i : Nat)
  | signalResend (r : Fin 32)
  | heldRequestResend (stop : Fin 36)
  | notice (i : Nat)
  | sliceScan (r : Fin 32) (index : Nat)
  | voteCast (r : Fin 32)
  | vote (i : Nat)
  | gateTimeout
  | verdict (i : Nat)
  | derail (i : Nat)
  | mgmt (stop : Fin 36) (msg : MgmtMsg)
  | go (table : BitVec 16)
  | arm (table : BitVec 16) (set : Bool)
  | derailDone
  | targetLost (r : Fin 32)
  -- memory
  | scrubPass (r : Fin 32)
  | scrubNow (r : Fin 32)
  | wb (r : Fin 32)
  | inv (r : Fin 32)
  -- clocks and heat
  | monitorSample (r : Fin 32) (readings : Readings)
  | thermalTargetStep (r : Fin 32)
  | dvfsStep (r : Fin 32)
  | park (r : Fin 32) (thermal : Bool)
  | resumeRegion (r : Fin 32) (draws : Draws)
  | parkLimitExpiry (r : Fin 32)
  | hwTrip (r : Fin 32) (sensor : Fin 16)
  | reqModeWrite (mode : BitVec 2)
  -- power
  | inputVoltageChange (milliVolts : Nat) (reversed : Bool) (draws : Draws)
  | convFail (n : Fin 8)
  | segShort (n : Fin 8)
  | cellFail (r : Fin 32) (group : Fin 4)
  | s2Fail (r : Fin 32) (i : Fin 2)
  | s2Trip (r : Fin 32) (cause : Fin 3)
  | tripProbe (r : Fin 32) (tripsAgain : Bool)
  | admissionRetest (seg : Fin 8) (draws : Draws)
  | quarter (seg : Fin 8) (draws : Draws)
  | rampEnd (r : Fin 32)
  | cuffEnforce (draws : Draws)
  | unpark (draws : Draws)
  | pwrCuffWrite (value : W64)
  | pwrRcuffWrite (r : Fin 32) (value : W64)
  -- resilience
  | fence (r : Fin 32) (code : BitVec 16)
  | drained (r : Fin 32)
  | rerunStart
  | resume (r : Fin 32)
  | fold (seam : Fin 16)
  | foldDone (seam : Fin 16)
  | backgroundRebuildChunk
  | seamRefresh (seam : Fin 16)
  | refreshNow
  | snapshot
  | snapNow
  | journalRecord (r : Fin 32)
  | rsGo (objects : List (List Byte))
  | ckptGo
  | ckptRestore (objects : List (List Byte)) (manifest : List Byte)
  -- security
  | enroll
  | ownerSeal
  | rotate
  | setSlice
  | keyInstall
  | attGo
  | ktReq
  | seqCommit
  | svnCommit (targets : BitVec 3)
  | rootFailover (primaryOk mirrorOk : Bool)
  | txSwitch (port : Fin 64) (key : SecAssoc)
  | rxKeyErase (port : Fin 64) (key : SecAssoc)
  -- network
  | frameReceive (port : Fin 64) (half : Fin 2) (frame : Frame)
  | pfcPause (port : Fin 64) (half : Fin 2) (prio : Fin 8) (quanta : BitVec 16)
  | cnp (peer : Fin 4096)
  | rateIncrease (peer : Fin 4096)
  | rdmaWrite (src : PktSrc) (rkey : W32) (addr : W64) (data : List Byte)
  | rdmaWriteWithImmediate (src : PktSrc) (rkey : W32) (addr : W64) (data : List Byte) (imm : W32)
  | rdmaRead (src : PktSrc) (rkey : W32) (addr : W64) (len : Nat)
  | send (src : PktSrc) (data : List Byte)
  | rdmaAck (peer : Fin 4096) (result : AckResult)
  | ackTimeout (peer : Fin 4096)
  | peerEntryWrite (peer : Fin 4096) (offset : Nat) (data : List Byte)
  | streamEntryWrite (pd : Fin 4) (index : Fin 1024) (offset : Nat) (data : List Byte)
  | evtCfgWrite (value : W64)
  | eventWrite
  | ptpMessage (port : Fin 64) (domain : BitVec 8) (offsetNs : Int)
  -- Skojo
  | stepOpen (peer : Fin 4096) (hdr : List Byte)
  | wtPush (peer : Fin 4096) (hdr payload : List Byte)
  | wtDone (peer : Fin 4096) (hdr : List Byte)
  | credit (peer : Fin 4096) (hdr : List Byte)
  | replicaDrop (peer : Fin 4096) (hdr : List Byte)
  | grPush (pd : Fin 4) (index : Fin 1024)
  -- cassettes
  | cassetteDetect (bay : Fin 8)
  | cassetteAuthenticated (bay : Fin 8) (reply : CassetteReply)
  | lasersLocked (bay : Fin 8)
  | driveRampEnd (bay : Fin 8)
  | laserFail (bay : Fin 8) (laser : Fin 16)
  | casOvertemp (bay : Fin 8) (celsius : Nat)
  | release (bay : Fin 8) (force : Bool)
  | reauth (bay : Fin 8)
  | casRemoved (bay : Fin 8)
  | lifeIncrement (bay : Fin 8) (centiHours : Nat)
  -- meter
  | epochBoundary (milliJoules : Nat) (outOfRange : Bool)
  | meterOpen (cmd : List Byte)
  | meterClose (cmd : List Byte)
  | logAck (cmd : List Byte)
  | setTime (cmd : List Byte)
  | meterRotate (cmd : List Byte)
  | enrol (cmd : List Byte)
  | meterRead (nonce : List Byte)
  | logRead (first : Nat) (count : Nat)
  | swid
  | cert
  | tamper (event : Fin 4)
  | tamperClear
  | powerDown
  | powerUp (back : MeterReturn)
  | buttonPress
  | pageReturn
  | meterTransmission (arrived : Bool)
  | mLinkLoss
  -- start-up and resets
  | coldStart (report : BootReport)
  | coldReset (report : BootReport)
  | moduleWarmReset (report : BootReport)
  | regionReset (r : Fin 32)
  | portReset (port : Fin 64) (half : Fin 2)
  | quiesce
  | fwWrite (target : Fin 3)
  | fwActivate
  -- errors and injection
  | errorRecord (stop : Fin 36) (code : BitVec 16) (unit : BitVec 16) (step detail0 detail1 : W64)
  | errorRecordMove
  | errPop
  | injArm (value : W64)
  | injWindowEnd
  -- housekeeping and plain registers
  | regRead (offset : W64)
  | provWrite (count : Nat) (entries : List (List Byte))
  | registerWrite (path : Path) (addr value : W64)
  -- later rows
  | portLinkChange (port : Fin 64) (half : Fin 2) (up : Bool)
  | pfcPauseExpiry (port : Fin 64) (half : Fin 2) (prio : Fin 8)
  | cassetteWithdrawn (bay : Fin 8)
  | meterFault
  | swChange (lrDigest paramDigest : List Byte) (version : W64)
  | subnormalPathDown (r : Fin 32) (unit : Fin 98)
  deriving DecidableEq, Repr

end Sys2Proof
end

