-- ==== Sys2Proof/Decode.lean ====
section
/-! DEFINITION. The command that a word of the opcode table spells: no row of spec/opcode_table.json gives bits (log 2). -/
namespace Sys2Proof

/-- The command that a word of `nbits` bits spells by the table's bits. Every row's `fields` is empty, so no word spells one. -/
def decodeTableWord (_nbits _w : Nat) : Option Instr := none

end Sys2Proof
end

