-- ==== Sys2Proof/Config.lean ====
section
/-! DEFINITION. What the spec leaves open: free values with no body, and the standard ciphers of keys no one can read. -/
namespace Sys2Proof

/-- FREE VALUE (log 5). Cycles that stalls add to a command's `CYCLES` (R100, R110, R135, R242): the `k`-th such amount. -/
opaque Config.stallCycles : Nat → Nat
/-- FREE VALUE (log 5). The PTP time word of the `k`-th timestamp taken (R222, R300). -/
opaque Config.timeStamp : Nat → W64
/-- FREE VALUE (log 5). The `k`-th choice that the spec leaves to timing or to the implementation. -/
opaque Config.freeBool : Nat → Bool
/-- FREE VALUE (log 5). The `k`-th 64-bit value that the spec leaves undefined. -/
opaque Config.freeWord : Nat → W64
/-- FREE VALUE (log 5). The `i`-th byte of the `k`-th piece of memory the spec leaves undefined (R179, R249). -/
opaque Config.freeByte : Nat → Nat → Byte
/-- FREE VALUE (log 6). Byte `i` of the `k`-th draw of the root's random source (R294, R391, R393, R396). -/
opaque Config.drawn : Nat → Nat → Byte

/-- FREE VALUE (log 38). Does the `k`-th fuse burn complete: in the primary root, in the mirror (R383, R391)? -/
opaque Config.burns : Nat → Bool × Bool
/-- FREE VALUE (log 12). Of the two neighbours that R122 allows, does function `f` at format code `c` take the upper one for
the operand pattern `x`? -/
opaque Config.faithfulUp : (f c x : Nat) → Bool
/-- FREE VALUE (log 19). Where the binary tree of R121 splits `n` leaves from leaf `lo` of a reduction of `n0` elements. -/
opaque Config.treeSplit : (n0 lo n : Nat) → Nat
/-- FREE VALUE (log 20). Cache hits and misses of the `k`-th access to a stack: R191 fixes neither indexing nor victim. -/
opaque Config.cacheHits : Nat → Nat
/-- FREE VALUE (log 20). See `Config.cacheHits`. -/
opaque Config.cacheMisses : Nat → Nat
/-- FREE VALUE (log 20). The set, before it is cut to the number of sets, of a die's cache that a line goes to: R191 fixes no indexing. -/
opaque Config.cacheSet : (die sets line : Nat) → Nat
/-- FREE VALUE (log 7). The identity key's signature over a message (R384, R393, R397): the key is never readable. -/
opaque Config.identitySign : List Byte → List Byte
/-- FREE VALUE (log 7). The identity key's public modulus (R386). -/
opaque Config.identityModulus : List Byte
/-- FREE VALUE (log 7). The public modulus of the meter with a serial number (R405). -/
opaque Config.meterModulus : (serial : Nat) → List Byte
/-- FREE VALUE (log 7). The vendor's signature over a certificate made at manufacture (R386, R405). -/
opaque Config.vendorSign : List Byte → List Byte
/-- FREE VALUE (log 7). `MFG_DATE` of the certificate with a magic and a serial number (R316). -/
opaque Config.mfgDate : (magic : List Byte) → (serial : Nat) → BitVec 32
/-- FREE VALUE (log 7). The meter key's signature over a message (R405). -/
opaque Config.meterSign : List Byte → List Byte
/-- FREE VALUE (log 7). The public modulus of the `k`-th transport key the root generates (R393). -/
opaque Config.transportModulus : Nat → List Byte
/-- FREE VALUE (log 7). The private exponent of the `k`-th transport key (R393, R394): the key is never readable. -/
opaque Config.transportExponent : Nat → Nat
/-- FREE VALUE (log 37). Bytes of the receive buffer of priorities other than the two lossless ones (R288): the spec gives no size. -/
opaque Config.otherBuffer : Nat
/-- FREE VALUE (log 38). The modulus of the key with a given hash: the module is given hashes only (R28, R384, R387). -/
opaque Config.keyOf : (hash : List Byte) → List Byte
/-- FREE VALUE (log 38). The header of the firmware image that a target leaves manufacture with. -/
opaque Config.factoryHeader : (target : Nat) → List Byte

/-- FREE VALUE (log 23). Remote base and size of the space that a spill peer lends to panniers: R141 names it, nothing configures it. -/
opaque Config.spillBase : (peer : Nat) → Nat
/-- FREE VALUE (log 23). See `Config.spillBase`. -/
opaque Config.spillBytes : (peer : Nat) → Nat

/-- FREE VALUE (log 26). `REPLICA` and `N_REPL` of the Skojo headers that the module sends: nothing configures them. -/
opaque Config.replica : BitVec 16
/-- FREE VALUE (log 26). See `Config.replica`. -/
opaque Config.replicas : BitVec 16

/-- FREE VALUE (log 45). What the start-up steps find in the hardware, at the `k`-th reset that a register write asks for. -/
opaque Config.bootReport : Nat → BootReport
/-- FREE VALUE (log 45). What the host's storage returns, at the `k`-th restore that a register write asks for. -/
opaque Config.stored : Nat → List (List Byte)
/-- FREE VALUE (log 45). See `Config.stored`: the manifest. -/
opaque Config.storedManifest : Nat → List Byte

end Sys2Proof
end

