-- ==== Sys2Proof/Machine/Bits.lean ====
section
/-! DEFINITION. Bit fields, byte order (R8) and sparse tables: the helpers every later file uses. -/
namespace Sys2Proof.Machine

/-- Bits `[lo + w - 1 : lo]` of `n` (the manual's bit ranges, 00_scope). -/
def field (n lo w : Nat) : Nat := (n / 2 ^ lo) % 2 ^ w

/-- Bit `i` of `n`. -/
def bitAt (n i : Nat) : Bool := (n / 2 ^ i) % 2 = 1

/-- 1 for true, as a register shows a flag. -/
def b2n (b : Bool) : Nat := if b then 1 else 0

/-- `n` with bit `i` set to `b`. -/
def setBit (n i : Nat) (b : Bool) : Nat :=
  if bitAt n i = b then n else if b then n + 2 ^ i else n - 2 ^ i

/-- The little-endian value of a byte list (R8). -/
def leNat : List Byte → Nat
  | [] => 0
  | b :: t => b.toNat + 256 * leNat t

/-- The `k` little-endian bytes of `n` (R8). -/
def natLe : Nat → Nat → List Byte
  | 0, _ => []
  | k + 1, n => BitVec.ofNat 8 n :: natLe k (n / 256)

/-- The big-endian value of a byte list, for moduli and signatures (R31, R405). -/
def beNat (l : List Byte) : Nat := leNat l.reverse

/-- The `k` big-endian bytes of `n`. -/
def natBe (k n : Nat) : List Byte := (natLe k n).reverse

/-- The `n` bytes of `l` from offset `o`, zeros where `l` is shorter. -/
def slice (l : List Byte) (o n : Nat) : List Byte :=
  let t := (l.drop o).take n
  t ++ List.replicate (n - t.length) 0

/-- The little-endian field of `n` bytes at offset `o`. -/
def getLe (l : List Byte) (o n : Nat) : Nat := leNat (slice l o n)

/-- `l` with the bytes `v` laid over it from offset `o`. -/
def patch (l : List Byte) (o : Nat) (v : List Byte) : List Byte :=
  slice l 0 o ++ v ++ l.drop (o + v.length)

/-- `l` cut or padded with zeros to `n` bytes. -/
def padTo (n : Nat) (l : List Byte) : List Byte := slice l 0 n

/-- The bytes of an ASCII string of the manual. -/
def ascii (s : String) : List Byte := s.toList.map (fun c => BitVec.ofNat 8 c.toNat)

/-- A certificate in the layout of R316, which R386 and R405 share: 832 bytes. -/
def certBytes (magic : List Byte) (kh serial date : Nat) (issuer pubkey sig : List Byte) : List Byte :=
  padTo 4 magic ++ natLe 2 1 ++ natLe 2 kh ++ natLe 8 serial ++ natLe 4 date ++ natLe 12 0 ++ padTo 32 issuer ++ padTo 384 pubkey ++ padTo 384 sig

/-- Two's-complement value of the low `w` bits of `n`. -/
def signed (w n : Nat) : Int :=
  let m := n % 2 ^ w
  if m < 2 ^ (w - 1) then (m : Int) else (m : Int) - (2 ^ w : Nat)

/-- The low `w` bits of an integer in two's complement. -/
def unsigned (w : Nat) (i : Int) : Nat := (i % ((2 ^ w : Nat) : Int)).toNat

/-- A counter that stops at its maximum (R216, the counters of the register tables). -/
def satAdd (w a b : Nat) : Nat := min (a + b) (2 ^ w - 1)

/-- `⌈a / b⌉`. -/
def ceilDiv (a b : Nat) : Nat := (a + b - 1) / b

/-- `a` rounded up to a multiple of `b`. -/
def alignUp (a b : Nat) : Nat := ceilDiv a b * b

/-- Do the ranges `[a, a + m)` and `[b, b + n)` share a byte? -/
def overlaps (a m b n : Nat) : Bool := decide (0 < m ∧ 0 < n ∧ a < b + n ∧ b < a + m)

/-- Does `[a, a + m)` lie inside `[b, b + n)`? -/
def inside (a m b n : Nat) : Bool := decide (b ≤ a ∧ a + m ≤ b + n)

/-- The 64-bit word of a register's value. -/
def w64 (n : Nat) : W64 := BitVec.ofNat 64 n

/-- The entry of a table at key `k`, its default where none is listed. -/
def tabGet {β : Type} (d : β) (k : Nat) : Tab β → β
  | [] => d
  | (k', v) :: t => if k = k' then v else tabGet d k t

/-- The table with `v` at key `k`, keys kept rising. -/
def tabPut {β : Type} (k : Nat) (v : β) : Tab β → Tab β
  | [] => [(k, v)]
  | (k', v') :: t =>
    if k < k' then (k, v) :: (k', v') :: t
    else if k = k' then (k, v) :: t
    else (k', v') :: tabPut k v t

/-- The table without an entry at key `k`. -/
def tabErase {β : Type} (k : Nat) : Tab β → Tab β
  | [] => []
  | (k', v') :: t => if k = k' then tabErase k t else (k', v') :: tabErase k t

/-- The table with `v` at key `k`, kept in canonical form: a default removes the entry. -/
def tabSet {β : Type} [DecidableEq β] (d : β) (k : Nat) (v : β) (t : Tab β) : Tab β :=
  if v = d then tabErase k t else tabPut k v t

/-- The canonical form: keys strictly rising, no entry equal to the default. -/
def tabWf {β : Type} [DecidableEq β] (d : β) : Tab β → Bool
  | [] => true
  | [(_, v)] => decide (v ≠ d)
  | (k, v) :: (k', v') :: t => decide (v ≠ d) && decide (k < k') && tabWf d ((k', v') :: t)

/-- The entry at `k` changed by `f`. -/
def tabUpd {β : Type} (d : β) (k : Nat) (f : β → β) (t : Tab β) : Tab β :=
  tabPut k (f (tabGet d k t)) t

/-- The entry at `k`, if one is listed. -/
def tabFind {β : Type} (k : Nat) : Tab β → Option β
  | [] => none
  | (k', v) :: t => if k = k' then some v else tabFind k t

/-- Successive entries from key `k`. -/
def tabSetMany {β : Type} [DecidableEq β] (d : β) : Nat → List β → Tab β → Tab β
  | _, [], t => t
  | k, v :: vs, t => tabSetMany d (k + 1) vs (tabSet d k v t)

/-- The table without the keys that `p` names. -/
def tabDrop {β : Type} (p : Nat → Bool) (t : Tab β) : Tab β := t.filter (fun e => !p e.1)

/-- `n` successive entries from key `k`. -/
def tabRange {β : Type} (d : β) (t : Tab β) (k : Nat) : Nat → List β
  | 0 => []
  | n + 1 => tabGet d k t :: tabRange d t (k + 1) n

/-- Insert a number into a strictly rising list. -/
def setIns (k : Nat) : List Nat → List Nat
  | [] => [k]
  | x :: t => if k < x then k :: x :: t else if k = x then x :: t else x :: setIns k t

/-- Remove a number from a list. -/
def setDel (k : Nat) (l : List Nat) : List Nat := l.filter (fun x => decide (x ≠ k))

/-- The numbers `a .. a + n - 1`. -/
def range' (a n : Nat) : List Nat := (List.range n).map (a + ·)

/-- A bit mask of a list of numbers. -/
def maskOf (l : List Nat) : Nat := l.foldl (fun m i => setBit m i true) 0

/-- The numbers below `n` whose bit is set in `m`, ascending. -/
def bitsOf (n m : Nat) : List Nat := (List.range n).filter (bitAt m)

/-- Fold over the numbers `0 .. n - 1` in ascending order. -/
def forN {σ : Type} (n : Nat) (f : Nat → σ → σ) (s : σ) : σ := (List.range n).foldl (fun s i => f i s) s

/-- The `n`-byte pieces of a list, in order. -/
def chunksOf {α : Type} (n : Nat) : Nat → List α → List (List α)
  | 0, _ => []
  | k + 1, l => l.take n :: chunksOf n k (l.drop n)

/-- `a xor b`, byte by byte. -/
def xorBytes (a b : List Byte) : List Byte := List.zipWith (· ^^^ ·) a b

end Sys2Proof.Machine
end

