-- ==== Sys2Proof/Machine/Crypto.lean ====
section
/-! DEFINITION. The standard algorithms the spec names: SHA-256, RSASSA-PSS verification (R31), CRC-32C (R252), GF(2^8) (R359), AES-256 in
GCM (R372) and XTS (R201). -/
namespace Sys2Proof.Machine

/-! ## SHA-256 -/

/-- The `k`-th root of `p` to 32 fractional bits, found bit by bit. -/
def rootBits (k p : Nat) : Nat := forN 36 (fun i x => if (x + 2 ^ (35 - i)) ^ k ≤ p * 2 ^ (32 * k) then x + 2 ^ (35 - i) else x) 0

/-- The primes below 312: there are 64. -/
def smallPrimes : List Nat := (range' 2 310).filter (fun n => [2, 3, 5, 7, 11, 13, 17].all (fun d => decide (n = d ∨ n % d ≠ 0)))

/-- Round constants: fractional parts of the cube roots of the first 64 primes. -/
def shaK : List W32 := smallPrimes.map (fun p => BitVec.ofNat 32 (rootBits 3 p))

/-- Exclusive or of the rotations of a word by several amounts. -/
def spin (x : W32) (by' : List Nat) : W32 := by'.foldl (fun v n => v ^^^ x.rotateRight n) 0

/-- The words of the two sequences that the rounds extend, newest first: each round adds one word to each and looks four back. -/
structure ShaVars where
  a : List W32
  e : List W32
  deriving DecidableEq, Repr

/-- The starting words: fractional parts of the square roots of the first eight primes. -/
def shaInit : ShaVars :=
  let h := (smallPrimes.take 8).map (fun p => BitVec.ofNat 32 (rootBits 2 p))
  { a := h.take 4, e := h.drop 4 }

/-- The next word of the schedule before the ones so far, newest first. -/
def shaNext (w : List W32) : W32 :=
  let back := fun n => w.getD (n - 1) 0
  [back 16, back 7, spin (back 15) [7, 18] ^^^ (back 15 >>> 3), spin (back 2) [17, 19] ^^^ (back 2 >>> 10)].sum

/-- One round with the sum of its constant and its schedule word. -/
def shaRound (v : ShaVars) (kw : W32) : ShaVars :=
  match v.a, v.e with
  | a :: b :: c :: d :: _, e :: f :: g :: h :: _ =>
    let t := kw + h + spin e [6, 11, 25] + (g ^^^ (e &&& (f ^^^ g)))
    { a := (t + spin a [2, 13, 22] + ((a ||| b) &&& (c ||| (a &&& b)))) :: [a, b, c], e := (d + t) :: [e, f, g] }
  | _, _ => v

/-- One 64-byte block. -/
def shaBlock (v : ShaVars) (blk : List Byte) : ShaVars :=
  let w := forN 48 (fun _ w => shaNext w :: w) (((chunksOf 4 16 blk).map (fun b => BitVec.ofNat 32 (beNat b))).reverse)
  let x := (List.zipWith (fun k y => k + y) shaK w.reverse).foldl shaRound v
  { a := List.zipWith (fun p q => p + q) v.a x.a, e := List.zipWith (fun p q => p + q) v.e x.e }

/-- The padded message. -/
def shaPad (m : List Byte) : List Byte :=
  let n := m.length
  m ++ (0x80 :: List.replicate ((119 - n % 64) % 64) 0) ++ natBe 8 (8 * n)

/-- SHA-256. -/
def sha256 (m : List Byte) : List Byte :=
  let p := shaPad m
  let v := (chunksOf 64 (p.length / 64) p).foldl shaBlock shaInit
  (v.a ++ v.e).flatMap (fun w => natBe 4 w.toNat)

/-- `b ^ e mod m` for an exponent of `n` bits. -/
def modPow (m b : Nat) : Nat → Nat → Nat
  | 0, _ => 1 % m
  | n + 1, e => let r := modPow m (b * b % m) n (e / 2); if e % 2 = 1 then b * r % m else r

/-- MGF1 with SHA-256: `n` bytes from a seed. -/
def mgf1 (seed : List Byte) (n : Nat) : List Byte :=
  ((List.range (ceilDiv n 32)).flatMap (fun c => sha256 (seed ++ natBe 4 c))).take n

/-- RSASSA-PSS verification under RSA-3072 with SHA-256, MGF1-SHA-256 and a 32-byte salt (R31, R405). -/
def pssVerify (modulus msg sig : List Byte) : Bool :=
  let n := beNat modulus
  let s := beNat sig
  if n < 2 ∨ sig.length ≠ 384 ∨ n ≤ s then false
  else
    let em := natBe 384 (modPow n s 17 65537)
    let masked := em.take 351
    let h := slice em 351 32
    let db0 := xorBytes masked (mgf1 h 351)
    let db := match db0 with
      | b :: t => (b &&& 0x7F) :: t
      | [] => []
    let salt := db.drop 319
    em.getLastD 0 == 0xBC && (masked.headD 0) &&& 0x80 == 0 &&
      (db.take 318).all (· == 0) && db.getD 318 0 == 1 &&
      sha256 (List.replicate 8 0 ++ sha256 msg ++ salt) == h

/-- What RSAES-OAEP with SHA-256, MGF1-SHA-256 and label `HTW-KT` decodes an encoded message to (R394): none where it is not one. -/
def oaepDecode (em : List Byte) : Option (List Byte) :=
  let masked := em.drop 33
  let seed := xorBytes (slice em 1 32) (mgf1 masked 32)
  let db := xorBytes masked (mgf1 seed masked.length)
  match (db.drop 32).dropWhile (· == 0) with
  | 1 :: m => if em.length = 384 ∧ em.headD 1 = 0 ∧ db.take 32 = sha256 (ascii "HTW-KT") then some m else none
  | _ => none

/-- RSAES-OAEP decryption under a modulus and a private exponent of up to 3072 bits (R394). -/
def oaepOpen (modulus : List Byte) (d : Nat) (c : List Byte) : Option (List Byte) :=
  let n := beNat modulus
  if n < 2 ∨ c.length ≠ 384 ∨ n ≤ beNat c then none else oaepDecode (natBe 384 (modPow n (beNat c) 3072 d))

/-- Hash of a key: SHA-256 of its big-endian modulus (R28, R384). -/
def keyHash (modulus : List Byte) : List Byte := sha256 modulus

/-- A certificate that the vendor signs at manufacture. -/
def vendorCert (magic : List Byte) (kh serial : Nat) (issuer pubkey : List Byte) : List Byte :=
  let b := certBytes magic kh serial (Config.mfgDate magic serial).toNat issuer pubkey
  b (Config.vendorSign ((b []).take 0x1C0))

/-- The module's identity certificate (R386), and a meter's certificate (R405): the issuer is the vendor. -/
def idCertOf (part serial : Nat) (vendor : List Byte) : List Byte := vendorCert (ascii "HMID") part serial vendor Config.identityModulus
def meterCertOf (serial : Nat) (vendor : List Byte) : List Byte := vendorCert (ascii "HMTR") 0 serial vendor (Config.meterModulus serial)

/-- One bit step of CRC-32C, reflected. -/
def crcBit (c : Nat) : Nat := if c % 2 = 1 then Nat.xor (c / 2) 0x82F63B78 else c / 2

def crcByte (c : Nat) (b : Byte) : Nat := forN 8 (fun _ c => crcBit c) (Nat.xor c b.toNat)

/-- CRC-32C of a byte list (R252). -/
def crc32c (l : List Byte) : Nat := Nat.xor (l.foldl crcByte 0xFFFFFFFF) 0xFFFFFFFF

/-- Multiply by g = 0x02 in GF(2^8) with polynomial 0x11d (R359). -/
def gfDouble (b : Byte) : Byte := if b.msb then (b <<< 1) ^^^ 0x1d else b <<< 1

/-- `g^i · b` in GF(2^8). -/
def gfScale (i : Nat) (b : Byte) : Byte := forN i (fun _ b => gfDouble b) b

/-- `a · b` in GF(2^8). -/
def gfMul (a b : Byte) : Byte := forN 8 (fun i r => if bitAt b.toNat i then r ^^^ gfScale i a else r) 0

/-- The inverse in GF(2^8): `a^254`. -/
def gfInv (a : Byte) : Byte := forN 254 (fun _ r => gfMul r a) 1

/-! ## AES-256-GCM (R372) -/

def aesDouble (b : Byte) : Byte := if b.msb then (b <<< 1) ^^^ 0x1b else b <<< 1
def aesMul (a b : Byte) : Byte := forN 8 (fun i r => if bitAt b.toNat i then r ^^^ forN i (fun _ x => aesDouble x) a else r) 0

/-- The S-box: inverse in the field of AES, then the affine map. -/
def aesSub (b : Byte) : Byte :=
  let i := forN 254 (fun _ r => aesMul r b) 1
  i ^^^ i.rotateLeft 1 ^^^ i.rotateLeft 2 ^^^ i.rotateLeft 3 ^^^ i.rotateLeft 4 ^^^ 0x63

/-- The sixty key words. -/
def aesExpand (key : List Byte) : List (List Byte) :=
  (range' 8 52).foldl (fun w i =>
    let t := w.getD (i - 1) []
    let t := if i % 8 = 0 then xorBytes ((t.drop 1 ++ t.take 1).map aesSub) [forN (i / 8 - 1) (fun _ x => aesDouble x) 1, 0, 0, 0]
      else if i % 8 = 4 then t.map aesSub else t
    w ++ [xorBytes (w.getD (i - 8) []) t]) (chunksOf 4 8 (padTo 32 key))

def aesShift (s : List Byte) : List Byte := (List.range 16).map (fun k => s.getD (k % 4 + 4 * ((k / 4 + k % 4) % 4)) 0)

def aesMix (s : List Byte) : List Byte :=
  (List.range 16).map (fun k =>
    let at' := fun j => s.getD (k / 4 * 4 + (k + j) % 4) 0
    aesMul 2 (at' 0) ^^^ aesMul 3 (at' 1) ^^^ at' 2 ^^^ at' 3)

/-- One block under the expanded key. -/
def aesBlock (w : List (List Byte)) (b : List Byte) : List Byte :=
  let key := fun (n : Nat) => ((w.drop (4 * n)).take 4).flatten
  let s := (range' 1 13).foldl (fun s n => xorBytes (aesMix (aesShift (s.map aesSub))) (key n)) (xorBytes (padTo 16 b) (key 0))
  xorBytes (aesShift (s.map aesSub)) (key 14)

/-- Product in the field of GHASH, whose bit order is reflected. -/
def ghashMul (x y : BitVec 128) : BitVec 128 :=
  (forN 128 (fun i (acc : BitVec 128 × BitVec 128) =>
    let z := if x.getLsbD (127 - i) then acc.1 ^^^ acc.2 else acc.1
    let v := if acc.2.getLsbD 0 then (acc.2 >>> 1) ^^^ (0xE1#128 <<< 120) else acc.2 >>> 1
    (z, v)) (0, y)).1

def block128 (b : List Byte) : BitVec 128 := BitVec.ofNat 128 (beNat (padTo 16 b))

def ghash (h : BitVec 128) (aad ct : List Byte) : BitVec 128 :=
  let blocks := fun (l : List Byte) => chunksOf 16 ((l.length + 15) / 16) l
  let y := (blocks aad ++ blocks ct).foldl (fun y b => ghashMul (y ^^^ block128 b) h) 0
  ghashMul (y ^^^ block128 (natBe 8 (8 * aad.length) ++ natBe 8 (8 * ct.length))) h

/-- The key stream of counter mode from counter 2, laid over the body. -/
def gcmCrypt (w : List (List Byte)) (nonce body : List Byte) : List Byte :=
  xorBytes body (((List.range ((body.length + 15) / 16)).map (fun i => aesBlock w (padTo 12 nonce ++ natBe 4 (i + 2)))).flatten)

def gcmTag (w : List (List Byte)) (nonce aad ct : List Byte) : List Byte :=
  xorBytes (natBe 16 (ghash (block128 (aesBlock w [])) aad ct).toNat) (aesBlock w (padTo 12 nonce ++ natBe 4 1))

/-- AES-256-GCM: the ciphertext with its 16-byte tag. -/
def gcmSeal (key nonce aad body : List Byte) : List Byte :=
  let w := aesExpand key
  let ct := gcmCrypt w nonce body
  ct ++ gcmTag w nonce aad ct

/-- AES-256-GCM decryption: none where the tag fails. -/
def gcmOpen (key nonce aad sealed : List Byte) : Option (List Byte) :=
  let w := aesExpand key
  let n := sealed.length - 16
  let ct := sealed.take n
  if 16 ≤ sealed.length ∧ sealed.drop n = gcmTag w nonce aad ct then some (gcmCrypt w nonce ct) else none

/-- A frame of IEEE 802.1AE under GCM-AES-XPN-256 with confidentiality on (R290): addresses, the SecTAG of EtherType 0x88E5, with
E and C set, the association and the low half of the packet number, and an SCI where bit SC is set, then secure data and ICV. The key is
that of R394: 32 bytes, the salt, and the SSCI of what is received last; the nonce is salt ⊕ (SSCI ‖ packet number) (log 7). None where
it fails its integrity check. -/
def macsecOpen (key : List Byte) (an : Fin 4) (pn : Nat) (b : List Byte) : Option (List Byte) :=
  let tci := getLe b 14 1
  let h := if bitAt tci 5 then 28 else 20
  let nonce := xorBytes (slice key 32 12) (natBe 4 (getLe key 48 4) ++ natBe 8 pn)
  if slice b 12 2 = [0x88, 0xE5] ∧ tci % 16 = 12 + an.val ∧ slice b 16 4 = natBe 4 (pn % 2 ^ 32) then gcmOpen (key.take 32) nonce (b.take h) (b.drop h)
  else none

/-! ## AES-XTS-256 (R201) -/

/-- The next block's tweak: times `α` in the field of XTS, byte 0 the lowest. -/
def xtsDouble (t : List Byte) : List Byte :=
  let n := 2 * leNat t
  natLe 16 (if n < 2 ^ 128 then n else Nat.xor (n - 2 ^ 128) 0x87)

/-- AES-XTS-256 encryption of a data unit of whole blocks: two 32-byte keys and the unit's number. -/
def xtsSeal (key : List Byte) (unit : Nat) (b : List Byte) : List Byte :=
  let w := aesExpand (key.take 32)
  let t := aesBlock (aesExpand (key.drop 32)) (natLe 16 unit)
  ((chunksOf 16 (b.length / 16) b).foldl (fun (out, t) x => (out ++ xorBytes (aesBlock w (xorBytes x t)) t, xtsDouble t)) ([], t)).1

end Sys2Proof.Machine
end

