-- ==== Sys2Proof/Machine/Float.lean ====
section
/-! DEFINITION. The seven number formats (03_number_formats): exact values, one rounding, IEEE 754-2019 operations and flags. -/
namespace Sys2Proof.Machine

/-- The formats of 03_number_formats. -/
inductive Fmt where
  | pw16 | pw8 | pn8 | pq4 | b16 | b32 | b64
  deriving DecidableEq, Repr

/-- The rounding attributes of R54, in the codes of R111. -/
inductive Rm where
  | rne | rna | rup | rdn | rtz
  deriving DecidableEq, Repr

/-- The five exception flags of R54. -/
structure Fl where
  inv : Bool := false
  divz : Bool := false
  ovf : Bool := false
  /-- a finite result became an infinity (R64) -/
  big : Bool := false
  unf : Bool := false
  inx : Bool := false
  deriving DecidableEq, Repr

/-- An exact value: a NaN with its sign and its fraction aligned to 52 bits, an infinity, or `±m × 2^e`. -/
inductive Num where
  | nan (s : Bool) (pay : Nat)
  | inf (s : Bool)
  | fin (s : Bool) (m : Nat) (e : Int)
  deriving DecidableEq, Repr

def flOr (a b : Fl) : Fl :=
  { inv := a.inv || b.inv, divz := a.divz || b.divz, ovf := a.ovf || b.ovf, big := a.big || b.big, unf := a.unf || b.unf, inx := a.inx || b.inx }

/-- Width of an element in bits. -/
def fmtBits : Fmt → Nat
  | .pw16 => 16 | .pw8 => 8 | .pn8 => 8 | .pq4 => 4 | .b16 => 16 | .b32 => 32 | .b64 => 64

/-- Fraction bits. -/
def fmtFrac : Fmt → Nat
  | .pw16 => 7 | .pw8 => 3 | .pn8 => 2 | .pq4 => 1 | .b16 => 10 | .b32 => 23 | .b64 => 52

/-- Exponent bias. -/
def fmtBias : Fmt → Nat
  | .pw16 => 127 | .pw8 => 7 | .pn8 => 15 | .pq4 => 1 | .b16 => 15 | .b32 => 127 | .b64 => 1023

/-- Exponent bits. -/
def fmtExp (f : Fmt) : Nat := fmtBits f - 1 - fmtFrac f

/-- The formats with tensor and block scales: PW8, PN8, PQ4. -/
def fmtScaled : Fmt → Bool
  | .pw8 | .pn8 | .pq4 => true
  | _ => false

/-- The IEEE formats, which distinguish signalling NaNs (R57). -/
def fmtLong : Fmt → Bool
  | .b16 | .b32 | .b64 => true
  | _ => false

/-- Canonical NaN (R56, R58, R59); PQ4 has none and takes 0 (R64). -/
def fmtNan : Fmt → Nat
  | .pw16 => 0x7FC0 | .pw8 => 0x7C | .pn8 => 0x7F | .pq4 => 0 | .b16 => 0x7E00 | .b32 => 0x7FC00000 | .b64 => 0x7FF8000000000000

/-- Pattern of the largest finite magnitude (R56, R58-R60). -/
def fmtMax : Fmt → Nat
  | .pw16 => 0x7F7F | .pw8 => 0x77 | .pn8 => 0x7E | .pq4 => 7 | .b16 => 0x7BFF | .b32 => 0x7F7FFFFF | .b64 => 0x7FEFFFFFFFFFFFFF

/-- Pattern of +∞; PN8 and PQ4 take the largest finite magnitude (R64). -/
def fmtInf : Fmt → Nat
  | .pw16 => 0x7F80 | .pw8 => 0x78 | .pn8 => 0x7E | .pq4 => 7 | .b16 => 0x7C00 | .b32 => 0x7F800000 | .b64 => 0x7FF0000000000000

/-- Sign bit of a format as a number. -/
def signBit (f : Fmt) (s : Bool) : Nat := if s then 2 ^ (fmtBits f - 1) else 0

/-- The value of a finite encoding (R57). -/
def finOf (f : Fmt) (x : Nat) : Num :=
  let fr := field x 0 (fmtFrac f)
  let ex := field x (fmtFrac f) (fmtExp f)
  let s := bitAt x (fmtBits f - 1)
  if ex = 0 then .fin s fr (1 - (fmtBias f : Int) - fmtFrac f)
  else .fin s (2 ^ fmtFrac f + fr) ((ex : Int) - fmtBias f - fmtFrac f)

/-- The value of an encoding (R57-R60). A short-format NaN is quiet; one of PW16 loses its sign (R61), one of PW8 or
PN8 keeps it (log 11). -/
def decNum (f : Fmt) (x : Nat) : Num :=
  let fr := field x 0 (fmtFrac f)
  let ex := field x (fmtFrac f) (fmtExp f)
  let s := bitAt x (fmtBits f - 1)
  match f with
  | .pq4 => finOf f x
  | .pn8 => if ex = 31 ∧ fr = 3 then .nan s (2 ^ 51) else finOf f x
  | .pw16 | .pw8 =>
    if ex = 2 ^ fmtExp f - 1 then (if fr = 0 then .inf s else .nan (s && decide (f = .pw8)) (2 ^ 51)) else finOf f x
  | .b16 | .b32 | .b64 =>
    if ex = 2 ^ fmtExp f - 1 then (if fr = 0 then .inf s else .nan s (fr * 2 ^ (52 - fmtFrac f))) else finOf f x

/-- A signalling NaN: the quiet bit, bit 51 of the aligned fraction, is clear. -/
def isSig : Num → Bool
  | .nan _ p => !bitAt p 51
  | _ => false

def isNan : Num → Bool
  | .nan _ _ => true
  | _ => false

def isInf : Num → Bool
  | .inf _ => true
  | _ => false

/-- Zero of either sign. -/
def isZero : Num → Bool
  | .fin _ 0 _ => true
  | _ => false

def isFinite : Num → Bool
  | .fin _ _ _ => true
  | _ => false

def numSign : Num → Bool
  | .nan s _ => s
  | .inf s => s
  | .fin s _ _ => s

/-- The pattern of a NaN in a format: quieted, the fraction's upper bits kept in a long format (log 11), canonical elsewhere. -/
def encNan (f : Fmt) (s : Bool) (p : Nat) : Nat :=
  if fmtLong f then
    signBit f s + (2 ^ fmtExp f - 1) * 2 ^ fmtFrac f + (setBit (p % 2 ^ 52) 51 true) / 2 ^ (52 - fmtFrac f)
  else fmtNan f

/-- Exact shift of a magnitude to a smaller exponent. -/
def alignTo (m : Nat) (e e' : Int) : Nat := m * 2 ^ (e - e').toNat

/-- Exact order of `m × 2^e` and `n × 2^d`. -/
def cmpMag (m : Nat) (e : Int) (n : Nat) (d : Int) : Ordering :=
  let q := min e d
  compare (alignTo m e q) (alignTo n d q)

/-- Does a magnitude with a dropped part round away from zero? `low` compares that part with half a unit. -/
def roundsUp (rm : Rm) (s odd inexact : Bool) (low : Ordering) : Bool :=
  match rm with
  | .rne => decide (low = .gt) || (decide (low = .eq) && odd)
  | .rna => decide (low ≠ .lt)
  | .rup => !s && inexact
  | .rdn => s && inexact
  | .rtz => false

/-- `m × 2^e`, plus a non-zero part below its last bit when `st`, as an integer multiple of `2^q`, rounded; and whether inexact. -/
def quantum (rm : Rm) (s : Bool) (m : Nat) (e : Int) (st : Bool) (q : Int) : Nat × Bool :=
  if q ≤ e then
    let k := alignTo m e q
    (if roundsUp rm s (decide (k % 2 = 1)) st .lt then k + 1 else k, st)
  else
    let h := (q - e).toNat
    let k := m / 2 ^ h
    let r := m % 2 ^ h
    let low := match compare (2 * r) (2 ^ h) with
      | .eq => if st then .gt else .eq
      | o => o
    let inx := decide (r ≠ 0) || st
    (if roundsUp rm s (decide (k % 2 = 1)) inx low then k + 1 else k, inx)

/-- Round a magnitude into a format once under an attribute, with IEEE overflow and underflow, tininess after rounding (R54, R62). -/
def roundMag (f : Fmt) (rm : Rm) (s : Bool) (m : Nat) (e : Int) (st : Bool) : Nat × Fl :=
  if m = 0 then (signBit f s, {})
  else
    let p : Int := fmtFrac f
    let emin : Int := 1 - (fmtBias f : Int)
    let ev : Int := e + (Nat.log2 m : Int)
    let q := max ev emin - p
    let (k, inx) := quantum rm s m e st q
    match finOf f (fmtMax f) with
    | .fin _ xm xe =>
      if cmpMag k q xm xe = .gt then
        let toInf := match rm with
          | .rne | .rna => true
          | .rup => !s
          | .rdn => s
          | .rtz => false
        (signBit f s + (if toInf then fmtInf f else fmtMax f), { ovf := true, big := toInf, inx := true })
      else
        let (ku, _) := quantum rm s m e st (ev - p)
        let tiny := decide (cmpMag ku (ev - p) 1 emin = .lt)
        let bits :=
          if k < 2 ^ fmtFrac f then k
          else if k = 2 ^ (fmtFrac f + 1) then (q + 1 + p + fmtBias f).toNat * 2 ^ fmtFrac f
          else (q + p + fmtBias f).toNat * 2 ^ fmtFrac f + (k - 2 ^ fmtFrac f)
        (signBit f s + bits, { unf := tiny && inx, inx := inx })
    | _ => (fmtNan f, {})

/-- An exact value in a format, rounded once. -/
def encNum (f : Fmt) (rm : Rm) (v : Num) : Nat × Fl :=
  match v with
  | .nan s p => (encNan f s p, { inv := isSig (.nan s p) })
  | .inf s => (signBit f s + fmtInf f, {})
  | .fin s m e => roundMag f rm s m e false

/-- The default NaN as a value. -/
def qnan : Num := .nan false (2 ^ 51)

/-- The NaN that an operation on NaN operands returns: the first, quieted (R56). -/
def firstNan : List Num → Option Num
  | [] => none
  | .nan s p :: _ => some (.nan s (setBit p 51 true))
  | _ :: t => firstNan t

/-- An operation on operands: R56 first, then the exact rule `k`. -/
def withNan (f : Fmt) (xs : List Num) (k : Nat × Fl) : Nat × Fl :=
  match firstNan xs with
  | some n => ((encNum f .rne n).1, { inv := xs.any isSig })
  | none => k

def invalidNan (f : Fmt) : Nat × Fl := (fmtNan f, { inv := true })

/-- Exact sum of two finite values, with IEEE's sign of an exact zero under the attribute. -/
def addFin (rm : Rm) (s : Bool) (m : Nat) (e : Int) (t : Bool) (n : Nat) (d : Int) : Num :=
  let q := min e d
  let a : Int := (if s then -1 else 1) * (alignTo m e q : Int)
  let b : Int := (if t then -1 else 1) * (alignTo n d q : Int)
  let c := a + b
  if c = 0 then .fin (if s = t then s else decide (rm = .rdn)) 0 q
  else .fin (decide (c < 0)) c.natAbs q

/-- `-v`. -/
def negNum : Num → Num
  | .nan s p => .nan (!s) p
  | .inf s => .inf (!s)
  | .fin s m e => .fin (!s) m e

/-- `x + y` exactly; none for +∞ + −∞. -/
def addNum (rm : Rm) : Num → Num → Option Num
  | .inf s, .inf t => if s = t then some (.inf s) else none
  | .inf s, _ => some (.inf s)
  | _, .inf t => some (.inf t)
  | .fin s m e, .fin t n d => some (addFin rm s m e t n d)
  | _, _ => some qnan

/-- `x × y` exactly; none for 0 × ∞. -/
def mulNum : Num → Num → Option Num
  | .inf s, .inf t => some (.inf (s != t))
  | .inf s, .fin t m _ => if m = 0 then none else some (.inf (s != t))
  | .fin s m _, .inf t => if m = 0 then none else some (.inf (s != t))
  | .fin s m e, .fin t n d => some (.fin (s != t) (m * n) (e + d))
  | _, _ => some qnan

def encOpt (f : Fmt) (rm : Rm) : Option Num → Nat × Fl
  | none => invalidNan f
  | some v => encNum f rm v

def addV (f : Fmt) (rm : Rm) (x y : Num) : Nat × Fl := withNan f [x, y] (encOpt f rm (addNum rm x y))

/-- `x − y`; a NaN operand is returned with its own sign (R56). -/
def subV (f : Fmt) (rm : Rm) (x y : Num) : Nat × Fl := addV f rm x (if isNan y then y else negNum y)

def mulV (f : Fmt) (rm : Rm) (x y : Num) : Nat × Fl := withNan f [x, y] (encOpt f rm (mulNum x y))

/-- `x × y + z` with one rounding. With a quiet NaN `z`, `0 × ∞` raises no invalid: DESIGN CHOICE (log 61), IEEE 754-2019 leaves it open. -/
def fmaV (f : Fmt) (rm : Rm) (x y z : Num) : Nat × Fl :=
  withNan f [x, y, z] (encOpt f rm ((mulNum x y).bind (fun p => addNum rm p z)))

/-- `x / y` rounded once; the quotient is formed to more bits than any format holds, with a sticky part. -/
def divV (f : Fmt) (rm : Rm) (x y : Num) : Nat × Fl :=
  withNan f [x, y] (match x, y with
    | .inf _, .inf _ => invalidNan f
    | .inf s, v => (signBit f (s != numSign v) + fmtInf f, {})
    | v, .inf t => (signBit f (numSign v != t), {})
    | .fin s m e, .fin t n d =>
      if n = 0 then
        if m = 0 then invalidNan f else (signBit f (s != t) + fmtInf f, { divz := true })
      else
        let k := 130 + Nat.log2 n
        roundMag f rm (s != t) (m * 2 ^ k / n) (e - d - k) (decide (m * 2 ^ k % n ≠ 0))
    | _, _ => invalidNan f)

/-- Integer square root of `n`, bit `b` downwards. -/
def isqrtFrom (n : Nat) : Nat → Nat → Nat
  | 0, r => r
  | b + 1, r => if (r + 2 ^ b) * (r + 2 ^ b) ≤ n then isqrtFrom n b (r + 2 ^ b) else isqrtFrom n b r

def isqrt (n : Nat) : Nat := isqrtFrom n (Nat.log2 n / 2 + 1) 0

/-- `√x`, correctly rounded. -/
def sqrtV (f : Fmt) (rm : Rm) (x : Num) : Nat × Fl :=
  withNan f [x] (match x with
    | .inf s => if s then invalidNan f else (fmtInf f, {})
    | .fin s m e =>
      if m = 0 then (signBit f s, {})
      else if s then invalidNan f
      else
        let (m, e) := if e % 2 = 0 then (m, e) else (m * 2, e - 1)
        let r := isqrt (m * 2 ^ 240)
        roundMag f rm false r (e / 2 - 120) (decide (r * r ≠ m * 2 ^ 240))
    | _ => invalidNan f)

/-- Exact order of two values that are not NaN; −0 and +0 are equal. -/
def cmpNum : Num → Num → Ordering
  | .inf s, .inf t => if s = t then .eq else if s then .lt else .gt
  | .inf s, _ => if s then .lt else .gt
  | _, .inf t => if t then .gt else .lt
  | .fin s m e, .fin t n d =>
    let q := min e d
    compare ((if s then -1 else 1) * (alignTo m e q : Int)) ((if t then -1 else 1) * (alignTo n d q : Int))
  | _, _ => .eq

/-- minimumNumber and maximumNumber of IEEE 754-2019, with −0 below +0 (R118, R195): `gt` asks for the greater. -/
def pickNum (gt : Bool) (x y : Num) : Num :=
  match x, y with
  | .nan s p, .nan _ _ => .nan s (setBit p 51 true)
  | .nan _ _, v => v
  | v, .nan _ _ => v
  | a, b =>
    match cmpNum a b with
    | .lt => if gt then b else a
    | .gt => if gt then a else b
    | .eq => if numSign a = gt then b else a

def pickV (f : Fmt) (gt : Bool) (x y : Num) : Nat × Fl :=
  ((encNum f .rne (pickNum gt x y)).1, { inv := isSig x || isSig y })

/-- Conversion of a pattern between formats: exact when it widens, rounded once otherwise (R61, R62). A signalling NaN is quieted
and raises invalid (R56, R461); a pattern whose format does not change passes untouched. -/
def convFmt (src dst : Fmt) (rm : Rm) (x : Nat) : Nat × Fl :=
  if src = dst then (x, {}) else encNum dst rm (decNum src x)

/-- A 32-bit two's-complement integer as a value. -/
def intNum (x : Nat) : Num :=
  let i := signed 32 x
  .fin (decide (i < 0)) i.natAbs 0

/-- convertToInteger of R459: the pattern, invalid, and whether R134 counts an infinity or NaN. -/
def toInt32 (rm : Rm) (v : Num) : Nat × Bool × Bool :=
  match v with
  | .nan _ _ => (0, true, true)
  | .inf s => (if s then 0x80000000 else 0x7FFFFFFF, true, true)
  | .fin s m e =>
    let k := (quantum rm s m e false 0).1
    let i : Int := if s then -(k : Int) else k
    if i < -2147483648 then (0x80000000, true, false)
    else if i > 2147483647 then (0x7FFFFFFF, true, false)
    else (unsigned 32 i, false, false)

/-- Format code of MXE and VE descriptors (R91, R113). -/
def fmtOfCode : Nat → Option Fmt
  | 0 => some .pw16 | 1 => some .pw8 | 2 => some .pn8 | 3 => some .pq4
  | 8 => some .b16 | 9 => some .b32 | 10 => some .b64
  | _ => none

/-- Code of a format. -/
def codeOfFmt : Fmt → Nat
  | .pw16 => 0 | .pw8 => 1 | .pn8 => 2 | .pq4 => 3 | .b16 => 8 | .b32 => 9 | .b64 => 10

/-- binary32 add, multiply, divide, square root to nearest even, on patterns. -/
def f32 (x : Nat) : Num := decNum .b32 x
def add32 (x y : Nat) : Nat := (addV .b32 .rne (f32 x) (f32 y)).1
def sub32 (x y : Nat) : Nat := (subV .b32 .rne (f32 x) (f32 y)).1
def mul32 (x y : Nat) : Nat := (mulV .b32 .rne (f32 x) (f32 y)).1
def div32 (x y : Nat) : Nat := (divV .b32 .rne (f32 x) (f32 y)).1
def sqrt32 (x : Nat) : Nat := (sqrtV .b32 .rne (f32 x)).1
def fin32 (x : Nat) : Bool := isFinite (f32 x)
def gt32 (x y : Nat) : Bool := !isNan (f32 x) && !isNan (f32 y) && decide (cmpNum (f32 x) (f32 y) = .gt)
def max32 (x y : Nat) : Nat := (pickV .b32 true (f32 x) (f32 y)).1
def min32 (x y : Nat) : Nat := (pickV .b32 false (f32 x) (f32 y)).1
/-- binary32 1.0. -/
def one32 : Nat := 0x3F800000
/-- The binary32 pattern of `2^(be − 127)` for a biased exponent. -/
def pow2of (be : Nat) : Nat := be * 2 ^ 23
/-- A positive normal binary32 value (R76, R468). -/
def posNormal32 (x : Nat) : Bool := decide (0x00800000 ≤ x ∧ x ≤ 0x7F7FFFFF)

/-- Conversion of binary32 to PW16 under R62, nearest even. -/
def toPw16 (x : Nat) : Nat := (convFmt .b32 .pw16 .rne x).1

end Sys2Proof.Machine
end

