-- ==== Sys2Proof/Machine/RegMap.lean ====
section
/-! DEFINITION. The register map: every field of every register table of the spec, by block, offset and bit range, with its type
code and reset value. Read-only fields whose value other state determines are computed by the register reader (Regs.lean). -/
namespace Sys2Proof.Machine

/-- The type codes of registers (R9). -/
inductive Access where
  | ro | rw | wo | w1c | rwk | rws
  deriving DecidableEq, Repr

/-- A register field: byte address of its 64-bit word, lowest bit, width, type code and reset value. -/
structure Fld where
  addr : Nat
  lo : Nat
  w : Nat
  ty : Access
  reset : Nat
  deriving DecidableEq, Repr

/-- The name under which the register file keeps a field: its bit address. -/
def Fld.key (f : Fld) : Nat := f.addr * 8 + f.lo

/-- Blocks of register space (R20). -/
def regSpace : Nat := 0x0E0000000000
def gAddr (off : Nat) : Nat := regSpace + off
def rAddr (r off : Nat) : Nat := regSpace + 0x01000000 + r * 0x01000000 + off
def dAddr (k off : Nat) : Nat := regSpace + 0x40000000 + k * 0x01000000 + off
def mAddr (off : Nat) : Nat := regSpace + 0x7F000000 + off
/-- The block that holds the registers of a ring stop: a region's, or port die `st - 32`'s. -/
def sAddr (st off : Nat) : Nat := if st < 32 then rAddr st off else dAddr (st - 32) off

/-! `DEV_ID` (R23). -/
def devIdVendor : Fld := ⟨gAddr 0x0000, 0, 16, .ro, 0x504C⟩
def devIdPart : Fld := ⟨gAddr 0x0000, 16, 16, .ro, 1⟩
def devIdStepping : Fld := ⟨gAddr 0x0000, 32, 8, .ro, 0x10⟩
def fieldsOfDevId : List Fld := [devIdVendor, devIdPart, devIdStepping]
/-! `CAP` (R23). -/
def capUnits : Fld := ⟨gAddr 0x0008, 0, 6, .ro, 0x3F⟩
def capVersion : Fld := ⟨gAddr 0x0008, 8, 8, .ro, 0⟩
def capRegionsBuilt : Fld := ⟨gAddr 0x0008, 16, 8, .ro, 32⟩
def capPortDies : Fld := ⟨gAddr 0x0008, 24, 8, .ro, 4⟩
def fieldsOfCap : List Fld := [capUnits, capVersion, capRegionsBuilt, capPortDies]
/-! `REGION_PRESENT` (R23). -/
def regionPresentPresent : Fld := ⟨gAddr 0x0010, 0, 32, .ro, 0xFFFFFFFF⟩
def fieldsOfRegionPresent : List Fld := [regionPresentPresent]
/-! `REGION_DEGRADED` (R23). -/
def regionDegradedDegraded : Fld := ⟨gAddr 0x0018, 0, 32, .ro, 0⟩
def fieldsOfRegionDegraded : List Fld := [regionDegradedDegraded]
/-! `BS_STAGE` (R47). -/
def bsStageStageAddr : Fld := ⟨gAddr 0x0400, 0, 48, .ro, 0⟩
def fieldsOfBsStage : List Fld := [bsStageStageAddr]
/-! `BS_LEN` (R47). -/
def bsLenLen : Fld := ⟨gAddr 0x0408, 0, 31, .rw, 0⟩
def fieldsOfBsLen : List Fld := [bsLenLen]
/-! `BS_CTRL` (R47). -/
def bsCtrlLoad : Fld := ⟨gAddr 0x0410, 0, 1, .wo, 0⟩
def fieldsOfBsCtrl : List Fld := [bsCtrlLoad]
/-! `BS_STATUS` (R47). -/
def bsStatusCode : Fld := ⟨gAddr 0x0418, 0, 8, .ro, 0⟩
def bsStatusBusy : Fld := ⟨gAddr 0x0418, 8, 1, .ro, 0⟩
def bsStatusPending : Fld := ⟨gAddr 0x0418, 9, 1, .ro, 0⟩
def bsStatusSection : Fld := ⟨gAddr 0x0418, 16, 8, .ro, 0xFF⟩
def bsStatusFaultOff : Fld := ⟨gAddr 0x0418, 32, 32, .ro, 0⟩
def fieldsOfBsStatus : List Fld := [bsStatusCode, bsStatusBusy, bsStatusPending, bsStatusSection, bsStatusFaultOff]
/-! `BS_DIGEST` (R47). -/
def bsDigestDigest (i : Nat) : Fld := ⟨gAddr (0x0420 + 8 * i), 0, 64, .ro, 0⟩
def fieldsOfBsDigest (i : Nat) : List Fld := [bsDigestDigest i]
/-! `BS_SEQ_FLOOR` (R389). -/
def bsSeqFloorFloor : Fld := ⟨gAddr 0x0440, 0, 64, .ro, 0⟩
def fieldsOfBsSeqFloor : List Fld := [bsSeqFloorFloor]
/-! `GATE_CTRL` (R161). -/
def gateCtrlTimeoutUs : Fld := ⟨gAddr 0x0800, 0, 24, .rw, 8000⟩
def fieldsOfGateCtrl : List Fld := [gateCtrlTimeoutUs]
/-! `GATE_VOTERS` (R161). -/
def gateVotersVoters : Fld := ⟨gAddr 0x0808, 0, 32, .ro, 0⟩
def fieldsOfGateVoters : List Fld := [gateVotersVoters]
/-! `GATE_STATUS` (R161). -/
def gateStatusLastStep : Fld := ⟨gAddr 0x0810, 0, 48, .ro, 0⟩
def gateStatusLastVerdict : Fld := ⟨gAddr 0x0810, 48, 2, .ro, 0⟩
def gateStatusWaiting : Fld := ⟨gAddr 0x0810, 50, 1, .ro, 0⟩
def gateStatusTimedOut : Fld := ⟨gAddr 0x0810, 51, 1, .w1c, 0⟩
def fieldsOfGateStatus : List Fld := [gateStatusLastStep, gateStatusLastVerdict, gateStatusWaiting, gateStatusTimedOut]
/-! `LS_CTRL` (R161). -/
def lsCtrlLsInit : Fld := ⟨gAddr 0x0818, 0, 32, .rw, 0x47800000⟩
def lsCtrlGrowSteps : Fld := ⟨gAddr 0x0818, 32, 16, .rw, 0x07D0⟩
def lsCtrlBackoffLog2 : Fld := ⟨gAddr 0x0818, 48, 4, .rw, 1⟩
def lsCtrlGrowLog2 : Fld := ⟨gAddr 0x0818, 52, 4, .rw, 1⟩
def lsCtrlLsOff : Fld := ⟨gAddr 0x0818, 56, 1, .rw, 0⟩
def fieldsOfLsCtrl : List Fld := [lsCtrlLsInit, lsCtrlGrowSteps, lsCtrlBackoffLog2, lsCtrlGrowLog2, lsCtrlLsOff]
/-! `LS_LIMITS` (R161). -/
def lsLimitsMinBe : Fld := ⟨gAddr 0x0820, 0, 8, .rw, 0x7F⟩
def lsLimitsMaxBe : Fld := ⟨gAddr 0x0820, 8, 8, .rw, 0x97⟩
def fieldsOfLsLimits : List Fld := [lsLimitsMinBe, lsLimitsMaxBe]
/-! `LS_CUR` (R161). -/
def lsCurScale : Fld := ⟨gAddr 0x0828, 0, 32, .ro, 0⟩
def lsCurClean : Fld := ⟨gAddr 0x0828, 32, 32, .ro, 0⟩
def fieldsOfLsCur : List Fld := [lsCurScale, lsCurClean]
/-! `CLIP_NORM` (R161). -/
def clipNormNorm : Fld := ⟨gAddr 0x0830, 0, 32, .rw, 0⟩
def fieldsOfClipNorm : List Fld := [clipNormNorm]
/-! `STEP_COUNTS` (R161). -/
def stepCountsSkipped : Fld := ⟨gAddr 0x0838, 0, 32, .ro, 0⟩
def stepCountsFailed : Fld := ⟨gAddr 0x0838, 32, 32, .ro, 0⟩
def fieldsOfStepCounts : List Fld := [stepCountsSkipped, stepCountsFailed]
/-! `RING_STATUS` (R272). -/
def ringStatusRingUp : Fld := ⟨gAddr 0x0C00, 0, 16, .ro, 0xFFFF⟩
def ringStatusRingEn : Fld := ⟨gAddr 0x0C00, 16, 16, .ro, 0xFFFF⟩
def fieldsOfRingStatus : List Fld := [ringStatusRingUp, ringStatusRingEn]
/-! `DRL_CTRL` (R272). -/
def drlCtrlTableId : Fld := ⟨gAddr 0x0C08, 0, 16, .rw, 0⟩
def drlCtrlGo : Fld := ⟨gAddr 0x0C08, 16, 1, .wo, 0⟩
def drlCtrlArm : Fld := ⟨gAddr 0x0C08, 17, 1, .rw, 0⟩
def fieldsOfDrlCtrl : List Fld := [drlCtrlTableId, drlCtrlGo, drlCtrlArm]
/-! `DRL_STATUS` (R272). -/
def drlStatusCode : Fld := ⟨gAddr 0x0C10, 0, 8, .ro, 0⟩
def drlStatusBusy : Fld := ⟨gAddr 0x0C10, 8, 1, .ro, 0⟩
def drlStatusHeld : Fld := ⟨gAddr 0x0C10, 9, 1, .ro, 0⟩
def drlStatusEntriesDone : Fld := ⟨gAddr 0x0C10, 16, 17, .ro, 0⟩
def fieldsOfDrlStatus : List Fld := [drlStatusCode, drlStatusBusy, drlStatusHeld, drlStatusEntriesDone]
/-! `DRL_BYTES` (R272). -/
def drlBytesBytes : Fld := ⟨gAddr 0x0C18, 0, 64, .ro, 0⟩
def fieldsOfDrlBytes : List Fld := [drlBytesBytes]
/-! `MAP_STATUS` (R277). -/
def mapStatusStages : Fld := ⟨gAddr 0x1000, 0, 6, .ro, 0⟩
def mapStatusAf : Fld := ⟨gAddr 0x1000, 8, 1, .ro, 0⟩
def mapStatusAfRejects : Fld := ⟨gAddr 0x1000, 32, 32, .ro, 0⟩
def fieldsOfMapStatus : List Fld := [mapStatusStages, mapStatusAf, mapStatusAfRejects]
/-! `EVT_CFG` (R311). -/
def evtCfgEvtPeer : Fld := ⟨gAddr 0x1400, 0, 12, .rw, 0⟩
def evtCfgSendEn : Fld := ⟨gAddr 0x1400, 12, 1, .rw, 0⟩
def evtCfgEvtEn : Fld := ⟨gAddr 0x1400, 13, 1, .rw, 0⟩
def evtCfgLog2N : Fld := ⟨gAddr 0x1400, 14, 5, .rw, 10⟩
def fieldsOfEvtCfg : List Fld := [evtCfgEvtPeer, evtCfgSendEn, evtCfgEvtEn, evtCfgLog2N]
/-! `EVT_ADDR` (R311). -/
def evtAddrAddr : Fld := ⟨gAddr 0x1408, 0, 64, .rw, 0⟩
def fieldsOfEvtAddr : List Fld := [evtAddrAddr]
/-! `EVT_TAIL` (R311). -/
def evtTailTail : Fld := ⟨gAddr 0x1410, 0, 21, .ro, 0⟩
def fieldsOfEvtTail : List Fld := [evtTailTail]
/-! `EVT_HEAD` (R311). -/
def evtHeadHead : Fld := ⟨gAddr 0x1418, 0, 21, .rw, 0⟩
def fieldsOfEvtHead : List Fld := [evtHeadHead]
/-! `EVT_LOST` (R299). -/
def evtLostLost : Fld := ⟨gAddr 0x1420, 0, 64, .ro, 0⟩
def fieldsOfEvtLost : List Fld := [evtLostLost]
/-! `PTP_CTRL` (R311). -/
def ptpCtrlPtpPort : Fld := ⟨gAddr 0x1480, 0, 6, .rw, 0⟩
def ptpCtrlPtpEn : Fld := ⟨gAddr 0x1480, 6, 1, .rw, 0⟩
def ptpCtrlDomain : Fld := ⟨gAddr 0x1480, 8, 8, .rw, 0⟩
def fieldsOfPtpCtrl : List Fld := [ptpCtrlPtpPort, ptpCtrlPtpEn, ptpCtrlDomain]
/-! `PTP_STAT` (R311). -/
def ptpStatLocked : Fld := ⟨gAddr 0x1488, 0, 1, .ro, 0⟩
def ptpStatOffsetNs : Fld := ⟨gAddr 0x1488, 32, 32, .ro, 0⟩
def fieldsOfPtpStat : List Fld := [ptpStatLocked, ptpStatOffsetNs]
/-! `SLICE` (R311). -/
def sliceSliceId : Fld := ⟨gAddr 0x1500, 0, 32, .rwk, 0⟩
def sliceHMacsec : Fld := ⟨gAddr 0x1500, 32, 1, .rwk, 0⟩
def fieldsOfSlice : List Fld := [sliceSliceId, sliceHMacsec]
/-! `RDMA_KEYS` (R294). -/
def rdmaKeysKeyNonce : Fld := ⟨gAddr 0x1508, 0, 21, .ro, 0⟩
def fieldsOfRdmaKeys : List Fld := [rdmaKeysKeyNonce]
/-! `PWR_IN` (R342). -/
def pwrInVinCv : Fld := ⟨gAddr 0x1800, 0, 16, .ro, 0⟩
def pwrInIinDa : Fld := ⟨gAddr 0x1800, 16, 16, .ro, 0⟩
def pwrInPinW : Fld := ⟨gAddr 0x1800, 32, 32, .ro, 0⟩
def fieldsOfPwrIn : List Fld := [pwrInVinCv, pwrInIinDa, pwrInPinW]
/-! `PWR_CUFF` (R342). -/
def pwrCuffModuleCuffW : Fld := ⟨gAddr 0x1808, 0, 16, .rw, 0⟩
def pwrCuffEffCuffW : Fld := ⟨gAddr 0x1808, 32, 16, .ro, 0⟩
def fieldsOfPwrCuff : List Fld := [pwrCuffModuleCuffW, pwrCuffEffCuffW]
/-! `PWR_CONV` (R342). -/
def pwrConvConvUp : Fld := ⟨gAddr 0x1810, 0, 8, .ro, 0⟩
def pwrConvConvFail : Fld := ⟨gAddr 0x1810, 8, 8, .w1c, 0⟩
def pwrConvTieOpen : Fld := ⟨gAddr 0x1810, 16, 8, .ro, 0⟩
def pwrConvInputAbn : Fld := ⟨gAddr 0x1810, 24, 1, .ro, 0⟩
def fieldsOfPwrConv : List Fld := [pwrConvConvUp, pwrConvConvFail, pwrConvTieOpen, pwrConvInputAbn]
/-! `PWR_PARKED` (R342). -/
def pwrParkedParked : Fld := ⟨gAddr 0x1818, 0, 32, .ro, 0⟩
def pwrParkedParkEvents : Fld := ⟨gAddr 0x1818, 32, 32, .ro, 0⟩
def fieldsOfPwrParked : List Fld := [pwrParkedParked, pwrParkedParkEvents]
/-! `FENCE_NV` (R335). -/
def fenceNvPerm : Fld := ⟨gAddr 0x1820, 0, 32, .rw, 0⟩
def fieldsOfFenceNv : List Fld := [fenceNvPerm]
/-! `PWR_SEG` (R337). -/
def pwrSegSegW (i : Nat) : Fld := ⟨gAddr (0x1840 + 8 * i), 0, 16, .ro, 0⟩
def pwrSegSegPeakW (i : Nat) : Fld := ⟨gAddr (0x1840 + 8 * i), 16, 16, .ro, 0⟩
def fieldsOfPwrSeg (i : Nat) : List Fld := [pwrSegSegW i, pwrSegSegPeakW i]
/-! `MODE_CTRL` (R357). -/
def modeCtrlReqMode : Fld := ⟨gAddr 0x1C00, 0, 2, .rw, 0⟩
def modeCtrlCurMode : Fld := ⟨gAddr 0x1C00, 2, 2, .ro, 0⟩
def modeCtrlSwitching : Fld := ⟨gAddr 0x1C00, 4, 1, .ro, 0⟩
def fieldsOfModeCtrl : List Fld := [modeCtrlReqMode, modeCtrlCurMode, modeCtrlSwitching]
/-! `REGION_STATE` (R357). -/
def regionStateRstate : Fld := ⟨gAddr 0x1C08, 0, 64, .ro, 0⟩
def fieldsOfRegionState : List Fld := [regionStateRstate]
/-! `SEAM_CTRL` (R381). -/
def seamCtrlRefreshH : Fld := ⟨gAddr 0x2000, 0, 8, .rw, 0⟩
def seamCtrlRefreshNow : Fld := ⟨gAddr 0x2000, 8, 1, .wo, 0⟩
def seamCtrlRbEn : Fld := ⟨gAddr 0x2000, 14, 1, .rw, 0⟩
def seamCtrlRbTarget : Fld := ⟨gAddr 0x2000, 16, 5, .rw, 0⟩
def seamCtrlFoldSeam : Fld := ⟨gAddr 0x2000, 24, 4, .wo, 0⟩
def seamCtrlFold : Fld := ⟨gAddr 0x2000, 28, 1, .wo, 0⟩
def fieldsOfSeamCtrl : List Fld := [seamCtrlRefreshH, seamCtrlRefreshNow, seamCtrlRbEn, seamCtrlRbTarget, seamCtrlFoldSeam, seamCtrlFold]
/-! `SEAM_STATE` (R381). -/
def seamStateState : Fld := ⟨gAddr 0x2008, 0, 64, .ro, 0⟩
def fieldsOfSeamState : List Fld := [seamStateState]
/-! `FENCED` (R364). -/
def fencedMask : Fld := ⟨gAddr 0x2010, 0, 32, .ro, 0⟩
def fencedRbChunks : Fld := ⟨gAddr 0x2010, 32, 32, .ro, 0⟩
def fieldsOfFenced : List Fld := [fencedMask, fencedRbChunks]
/-! `SNAP_CTRL` (R381). -/
def snapCtrlSnapK : Fld := ⟨gAddr 0x2018, 0, 16, .rw, 500⟩
def snapCtrlSnapPeer : Fld := ⟨gAddr 0x2018, 16, 12, .rw, 0⟩
def snapCtrlSnapEn : Fld := ⟨gAddr 0x2018, 28, 1, .rw, 0⟩
def snapCtrlSnapNow : Fld := ⟨gAddr 0x2018, 29, 1, .wo, 0⟩
def snapCtrlCkptGo : Fld := ⟨gAddr 0x2018, 30, 1, .wo, 0⟩
def snapCtrlCkptRestore : Fld := ⟨gAddr 0x2018, 31, 1, .wo, 0⟩
def fieldsOfSnapCtrl : List Fld := [snapCtrlSnapK, snapCtrlSnapPeer, snapCtrlSnapEn, snapCtrlSnapNow, snapCtrlCkptGo, snapCtrlCkptRestore]
/-! `SNAP_ADDR` (R381). -/
def snapAddrAddr : Fld := ⟨gAddr 0x2020, 0, 64, .rw, 0⟩
def fieldsOfSnapAddr : List Fld := [snapAddrAddr]
/-! `SNAP_LEN` (R381). -/
def snapLenLen : Fld := ⟨gAddr 0x2028, 0, 64, .rw, 0⟩
def fieldsOfSnapLen : List Fld := [snapLenLen]
/-! `SNAP_STATUS` (R381). -/
def snapStatusDurableStep : Fld := ⟨gAddr 0x2030, 0, 48, .ro, 0⟩
def snapStatusBusy : Fld := ⟨gAddr 0x2030, 48, 1, .ro, 0⟩
def snapStatusCkptCode : Fld := ⟨gAddr 0x2030, 56, 8, .ro, 0⟩
def fieldsOfSnapStatus : List Fld := [snapStatusDurableStep, snapStatusBusy, snapStatusCkptCode]
/-! `RS_CTRL` (R381). -/
def rsCtrlRsRegion : Fld := ⟨gAddr 0x2038, 0, 5, .rw, 0⟩
def rsCtrlRsGo : Fld := ⟨gAddr 0x2038, 5, 1, .wo, 0⟩
def fieldsOfRsCtrl : List Fld := [rsCtrlRsRegion, rsCtrlRsGo]
/-! `RS_DEST` (R381). -/
def rsDestDest : Fld := ⟨gAddr 0x2040, 0, 48, .rw, 0⟩
def fieldsOfRsDest : List Fld := [rsDestDest]
/-! `RS_LEN` (R381). -/
def rsLenLen : Fld := ⟨gAddr 0x2048, 0, 64, .rw, 0⟩
def fieldsOfRsLen : List Fld := [rsLenLen]
/-! `RS_STATUS` (R381). -/
def rsStatusRsCode : Fld := ⟨gAddr 0x2050, 0, 8, .ro, 0⟩
def rsStatusRsStep : Fld := ⟨gAddr 0x2050, 16, 48, .ro, 0⟩
def fieldsOfRsStatus : List Fld := [rsStatusRsCode, rsStatusRsStep]
/-! `SEC_STATE` (R398). -/
def secStateOwnState : Fld := ⟨gAddr 0x2400, 0, 2, .ro, 0⟩
def secStateOwnerSlot : Fld := ⟨gAddr 0x2400, 2, 2, .ro, 0⟩
def secStateRootOnMirror : Fld := ⟨gAddr 0x2400, 4, 1, .ro, 0⟩
def secStateBootBank : Fld := ⟨gAddr 0x2400, 5, 1, .rwk, 0⟩
def secStateIssuerEn : Fld := ⟨gAddr 0x2400, 8, 4, .rwk, 0x1⟩
def fieldsOfSecState : List Fld := [secStateOwnState, secStateOwnerSlot, secStateRootOnMirror, secStateBootBank, secStateIssuerEn]
/-! `SEC_CMD` (R398). -/
def secCmdExec : Fld := ⟨gAddr 0x2408, 0, 1, .wo, 0⟩
def secCmdAttGo : Fld := ⟨gAddr 0x2408, 1, 1, .wo, 0⟩
def secCmdKtReq : Fld := ⟨gAddr 0x2408, 2, 1, .wo, 0⟩
def secCmdSeqCommit : Fld := ⟨gAddr 0x2408, 3, 1, .wo, 0⟩
def secCmdSvnCommit : Fld := ⟨gAddr 0x2408, 4, 3, .wo, 0⟩
def fieldsOfSecCmd : List Fld := [secCmdExec, secCmdAttGo, secCmdKtReq, secCmdSeqCommit, secCmdSvnCommit]
/-! `SEC_STATUS` (R398). -/
def secStatusCode : Fld := ⟨gAddr 0x2410, 0, 8, .ro, 0⟩
def secStatusBusy : Fld := ⟨gAddr 0x2410, 8, 1, .ro, 0⟩
def secStatusAttDone : Fld := ⟨gAddr 0x2410, 9, 1, .ro, 0⟩
def secStatusKtReady : Fld := ⟨gAddr 0x2410, 10, 1, .ro, 0⟩
def fieldsOfSecStatus : List Fld := [secStatusCode, secStatusBusy, secStatusAttDone, secStatusKtReady]
/-! `SVN` (R398). -/
def svnSvnFloor : Fld := ⟨gAddr 0x2418, 0, 24, .ro, 0⟩
def svnSvnRun : Fld := ⟨gAddr 0x2418, 24, 24, .ro, 0⟩
def fieldsOfSvn : List Fld := [svnSvnFloor, svnSvnRun]
/-! `OWN_NONCE` (R391). -/
def ownNonceNonce (i : Nat) : Fld := ⟨gAddr (0x2420 + 8 * i), 0, 64, .ro, 0⟩
def fieldsOfOwnNonce (i : Nat) : List Fld := [ownNonceNonce i]
/-! `ATT_NONCE` (R398). -/
def attNonceNonce (i : Nat) : Fld := ⟨gAddr (0x2440 + 8 * i), 0, 64, .rw, 0⟩
def fieldsOfAttNonce (i : Nat) : List Fld := [attNonceNonce i]
/-! `KEY_SEQ` (R398). -/
def keySeq : Fld := ⟨gAddr 0x2460, 0, 64, .ro, 0⟩
def fieldsOfKeySeq : List Fld := [keySeq]
/-! `KT_ID` (R393). -/
def ktId : Fld := ⟨gAddr 0x2468, 0, 64, .ro, 0⟩
def fieldsOfKtId : List Fld := [ktId]
/-! `ISSUER` (R398). -/
def issuerHash (i : Nat) : Fld := ⟨gAddr (0x2480 + 8 * i), 0, 64, .rwk, 0⟩
def fieldsOfIssuer (i : Nat) : List Fld := [issuerHash i]
/-! `BOOT_STATUS` (R430). -/
def bootStatusStep : Fld := ⟨gAddr 0x4000, 0, 5, .ro, 0⟩
def bootStatusLoaded : Fld := ⟨gAddr 0x4000, 5, 1, .ro, 0⟩
def bootStatusCpcHeld : Fld := ⟨gAddr 0x4000, 6, 1, .ro, 0⟩
def bootStatusFailStep : Fld := ⟨gAddr 0x4000, 8, 8, .ro, 0⟩
def bootStatusElapsedMs : Fld := ⟨gAddr 0x4000, 32, 32, .ro, 0⟩
def fieldsOfBootStatus : List Fld := [bootStatusStep, bootStatusLoaded, bootStatusCpcHeld, bootStatusFailStep, bootStatusElapsedMs]
/-! `BOOT_DARK` (R430). -/
def bootDarkRegions : Fld := ⟨gAddr 0x4008, 0, 32, .ro, 0⟩
def bootDarkPortDies : Fld := ⟨gAddr 0x4008, 32, 4, .ro, 0⟩
def fieldsOfBootDark : List Fld := [bootDarkRegions, bootDarkPortDies]
/-! `RESET_CTRL` (R430). -/
def resetCtrlKind : Fld := ⟨gAddr 0x4010, 0, 2, .rw, 0⟩
def resetCtrlTarget : Fld := ⟨gAddr 0x4010, 2, 6, .rw, 0⟩
def resetCtrlHalf : Fld := ⟨gAddr 0x4010, 8, 1, .rw, 0⟩
def resetCtrlGo : Fld := ⟨gAddr 0x4010, 9, 1, .wo, 0⟩
def resetCtrlQuiesce : Fld := ⟨gAddr 0x4010, 10, 1, .wo, 0⟩
def resetCtrlQuiesced : Fld := ⟨gAddr 0x4010, 11, 1, .ro, 0⟩
def fieldsOfResetCtrl : List Fld := [resetCtrlKind, resetCtrlTarget, resetCtrlHalf, resetCtrlGo, resetCtrlQuiesce, resetCtrlQuiesced]
/-! `RESET_CAUSE` (R430). -/
def resetCauseLast : Fld := ⟨gAddr 0x4018, 0, 3, .rws, 0⟩
def fieldsOfResetCause : List Fld := [resetCauseLast]
/-! `FW_UPDATE` (R430). -/
def fwUpdateFwTgt : Fld := ⟨gAddr 0x4020, 0, 2, .rw, 0⟩
def fwUpdateFwWrite : Fld := ⟨gAddr 0x4020, 2, 1, .wo, 0⟩
def fwUpdateFwActivate : Fld := ⟨gAddr 0x4020, 3, 1, .wo, 0⟩
def fwUpdateFwBusy : Fld := ⟨gAddr 0x4020, 4, 1, .ro, 0⟩
def fwUpdateFwCode : Fld := ⟨gAddr 0x4020, 8, 8, .ro, 0⟩
def fieldsOfFwUpdate : List Fld := [fwUpdateFwTgt, fwUpdateFwWrite, fwUpdateFwActivate, fwUpdateFwBusy, fwUpdateFwCode]
/-! `ERR_STATUS` (R439). -/
def errStatusFill : Fld := ⟨gAddr 0x4400, 0, 13, .ro, 0⟩
def errStatusOvf : Fld := ⟨gAddr 0x4400, 13, 1, .w1c, 0⟩
def errStatusLostCe : Fld := ⟨gAddr 0x4400, 32, 32, .ro, 0⟩
def fieldsOfErrStatus : List Fld := [errStatusFill, errStatusOvf, errStatusLostCe]
/-! `ERR_POP` (R439). -/
def errPopPop : Fld := ⟨gAddr 0x4408, 0, 1, .wo, 0⟩
def fieldsOfErrPop : List Fld := [errPopPop]
/-! `ERR_COUNTS` (R439). -/
def errCountsRaised0 : Fld := ⟨gAddr 0x4410, 0, 16, .ro, 0⟩
def errCountsRaised1 : Fld := ⟨gAddr 0x4410, 16, 16, .ro, 0⟩
def errCountsRaised2 : Fld := ⟨gAddr 0x4410, 32, 16, .ro, 0⟩
def errCountsRaised3 : Fld := ⟨gAddr 0x4410, 48, 16, .ro, 0⟩
def fieldsOfErrCounts : List Fld := [errCountsRaised0, errCountsRaised1, errCountsRaised2, errCountsRaised3]
/-! `ERR_THRESH` (R439). -/
def errThreshReplayStep : Fld := ⟨gAddr 0x4418, 0, 16, .rw, 1024⟩
def fieldsOfErrThresh : List Fld := [errThreshReplayStep]
/-! `INJ_CTRL` (R439). -/
def injCtrlCode : Fld := ⟨gAddr 0x4480, 0, 16, .rw, 0⟩
def injCtrlMode : Fld := ⟨gAddr 0x4480, 16, 2, .rw, 0⟩
def injCtrlArm : Fld := ⟨gAddr 0x4480, 18, 1, .rw, 0⟩
def injCtrlCount : Fld := ⟨gAddr 0x4480, 32, 16, .rw, 1⟩
def injCtrlInjEn : Fld := ⟨gAddr 0x4480, 63, 1, .rwk, 0⟩
def fieldsOfInjCtrl : List Fld := [injCtrlCode, injCtrlMode, injCtrlArm, injCtrlCount, injCtrlInjEn]
/-! `INJ_TARGET` (R439). -/
def injTargetStop : Fld := ⟨gAddr 0x4488, 0, 8, .rw, 0⟩
def injTargetUnit : Fld := ⟨gAddr 0x4488, 8, 16, .rw, 0⟩
def fieldsOfInjTarget : List Fld := [injTargetStop, injTargetUnit]
/-! `INJ_VALUE` (R439). -/
def injValueValue : Fld := ⟨gAddr 0x4490, 0, 64, .rw, 0⟩
def fieldsOfInjValue : List Fld := [injValueValue]
/-! `INJ_STATUS` (R439). -/
def injStatusArmed : Fld := ⟨gAddr 0x4498, 0, 1, .ro, 0⟩
def injStatusFired : Fld := ⟨gAddr 0x4498, 1, 1, .w1c, 0⟩
def injStatusRejected : Fld := ⟨gAddr 0x4498, 2, 1, .w1c, 0⟩
def injStatusFiredN : Fld := ⟨gAddr 0x4498, 32, 16, .ro, 0⟩
def fieldsOfInjStatus : List Fld := [injStatusArmed, injStatusFired, injStatusRejected, injStatusFiredN]
/-! `Q_BASE` (R207). -/
def qBaseBase (r q : Nat) : Fld := ⟨rAddr r (0x100000 + 0x40 * q), 0, 48, .rw, 0⟩
def fieldsOfQBase (r q : Nat) : List Fld := [qBaseBase r q]
/-! `Q_TAIL` (R208). -/
def qTailTail (r q : Nat) : Fld := ⟨rAddr r (0x100008 + 0x40 * q), 0, 11, .rw, 0⟩
def fieldsOfQTail (r q : Nat) : List Fld := [qTailTail r q]
/-! `Q_HEAD` (R230). -/
def qHeadHead (r q : Nat) : Fld := ⟨rAddr r (0x100010 + 0x40 * q), 0, 11, .ro, 0⟩
def fieldsOfQHead (r q : Nat) : List Fld := [qHeadHead r q]
/-! `Q_CTRL` (R230). -/
def qCtrlEnable (r q : Nat) : Fld := ⟨rAddr r (0x100018 + 0x40 * q), 0, 1, .rw, 0⟩
def qCtrlProg (r q : Nat) : Fld := ⟨rAddr r (0x100018 + 0x40 * q), 1, 1, .ro, 0⟩
def qCtrlLoop (r q : Nat) : Fld := ⟨rAddr r (0x100018 + 0x40 * q), 2, 1, .ro, 0⟩
def fieldsOfQCtrl (r q : Nat) : List Fld := [qCtrlEnable r q, qCtrlProg r q, qCtrlLoop r q]
/-! `Q_STATUS` (R230). -/
def qStatusWaiting (r q : Nat) : Fld := ⟨rAddr r (0x100020 + 0x40 * q), 0, 1, .ro, 0⟩
def qStatusDoorbellErr (r q : Nat) : Fld := ⟨rAddr r (0x100020 + 0x40 * q), 1, 1, .w1c, 0⟩
def qStatusCfgErr (r q : Nat) : Fld := ⟨rAddr r (0x100020 + 0x40 * q), 2, 1, .w1c, 0⟩
def qStatusProgDone (r q : Nat) : Fld := ⟨rAddr r (0x100020 + 0x40 * q), 3, 1, .ro, 0⟩
def qStatusProgStopped (r q : Nat) : Fld := ⟨rAddr r (0x100020 + 0x40 * q), 4, 1, .ro, 0⟩
def qStatusFetchErr (r q : Nat) : Fld := ⟨rAddr r (0x100020 + 0x40 * q), 5, 1, .w1c, 0⟩
def qStatusLive (r q : Nat) : Fld := ⟨rAddr r (0x100020 + 0x40 * q), 32, 11, .ro, 0⟩
def fieldsOfQStatus (r q : Nat) : List Fld := [qStatusWaiting r q, qStatusDoorbellErr r q, qStatusCfgErr r q, qStatusProgDone r q, qStatusProgStopped r q, qStatusFetchErr r q, qStatusLive r q]
/-! `Q_PASSES` (R230). -/
def qPassesPasses (r q : Nat) : Fld := ⟨rAddr r (0x100028 + 0x40 * q), 0, 64, .ro, 0⟩
def fieldsOfQPasses (r q : Nat) : List Fld := [qPassesPasses r q]
/-! `HUB_STEP_CNT` (R230). -/
def hubStepCntStep (r : Nat) : Fld := ⟨rAddr r 0x100800, 0, 48, .ro, 0⟩
def fieldsOfHubStepCnt (r : Nat) : List Fld := [hubStepCntStep r]
/-! `HUB_CTRL` (R218). -/
def hubCtrlWaitTimeoutUs (r : Nat) : Fld := ⟨rAddr r 0x100808, 0, 24, .rw, 100000⟩
def fieldsOfHubCtrl (r : Nat) : List Fld := [hubCtrlWaitTimeoutUs r]
/-! `HUB_STAT` (R230). -/
def hubStatHubOnB (r : Nat) : Fld := ⟨rAddr r 0x100810, 0, 1, .ro, 0⟩
def hubStatWaitTo (r : Nat) : Fld := ⟨rAddr r 0x100810, 1, 1, .w1c, 0⟩
def hubStatTokSat (r : Nat) : Fld := ⟨rAddr r 0x100810, 2, 1, .w1c, 0⟩
def hubStatSigDrop (r : Nat) : Fld := ⟨rAddr r 0x100810, 32, 32, .ro, 0⟩
def fieldsOfHubStat (r : Nat) : List Fld := [hubStatHubOnB r, hubStatWaitTo r, hubStatTokSat r, hubStatSigDrop r]
/-! `CQ_BASE` (R224). -/
def cqBaseBase (r c : Nat) : Fld := ⟨rAddr r (0x101000 + 0x40 * c), 0, 48, .rw, 0⟩
def fieldsOfCqBase (r c : Nat) : List Fld := [cqBaseBase r c]
/-! `CQ_CTRL` (R224). -/
def cqCtrlEnable (r c : Nat) : Fld := ⟨rAddr r (0x101008 + 0x40 * c), 0, 1, .rw, 0⟩
def cqCtrlEvent (r c : Nat) : Fld := ⟨rAddr r (0x101008 + 0x40 * c), 1, 1, .rw, 0⟩
def cqCtrlLog2N (r c : Nat) : Fld := ⟨rAddr r (0x101008 + 0x40 * c), 8, 5, .rw, 6⟩
def fieldsOfCqCtrl (r c : Nat) : List Fld := [cqCtrlEnable r c, cqCtrlEvent r c, cqCtrlLog2N r c]
/-! `CQ_TAIL` (R224). -/
def cqTailTail (r c : Nat) : Fld := ⟨rAddr r (0x101010 + 0x40 * c), 0, 17, .ro, 0⟩
def fieldsOfCqTail (r c : Nat) : List Fld := [cqTailTail r c]
/-! `CQ_HEAD` (R224). -/
def cqHeadHead (r c : Nat) : Fld := ⟨rAddr r (0x101018 + 0x40 * c), 0, 17, .rw, 0⟩
def fieldsOfCqHead (r c : Nat) : List Fld := [cqHeadHead r c]
/-! `CQ_STATUS` (R230). -/
def cqStatusFullStall (r c : Nat) : Fld := ⟨rAddr r (0x101020 + 0x40 * c), 0, 1, .ro, 0⟩
def cqStatusHeadErr (r c : Nat) : Fld := ⟨rAddr r (0x101020 + 0x40 * c), 1, 1, .w1c, 0⟩
def cqStatusCfgErr (r c : Nat) : Fld := ⟨rAddr r (0x101020 + 0x40 * c), 2, 1, .w1c, 0⟩
def cqStatusWrErr (r c : Nat) : Fld := ⟨rAddr r (0x101020 + 0x40 * c), 3, 1, .w1c, 0⟩
def cqStatusFullEvents (r c : Nat) : Fld := ⟨rAddr r (0x101020 + 0x40 * c), 32, 32, .ro, 0⟩
def fieldsOfCqStatus (r c : Nat) : List Fld := [cqStatusFullStall r c, cqStatusHeadErr r c, cqStatusCfgErr r c, cqStatusWrErr r c, cqStatusFullEvents r c]
/-! `TOKEN` (R215). -/
def tokenValue (r t : Nat) : Fld := ⟨rAddr r (0x110000 + 8 * t), 0, 32, .ro, 0⟩
def fieldsOfToken (r t : Nat) : List Fld := [tokenValue r t]
/-! `MXE_XSTAT` (R110). -/
def mxeXstatFlushIn (r x : Nat) : Fld := ⟨rAddr r (0x200000 + 8 * x), 0, 1, .w1c, 0⟩
def mxeXstatNfIn (r x : Nat) : Fld := ⟨rAddr r (0x200000 + 8 * x), 1, 1, .w1c, 0⟩
def mxeXstatNfAcc (r x : Nat) : Fld := ⟨rAddr r (0x200000 + 8 * x), 2, 1, .w1c, 0⟩
def mxeXstatBeRsvd (r x : Nat) : Fld := ⟨rAddr r (0x200000 + 8 * x), 3, 1, .w1c, 0⟩
def mxeXstatDenseFb (r x : Nat) : Fld := ⟨rAddr r (0x200000 + 8 * x), 4, 1, .w1c, 0⟩
def mxeXstatTqFill (r x : Nat) : Fld := ⟨rAddr r (0x200000 + 8 * x), 8, 5, .ro, 0⟩
def mxeXstatBusy (r x : Nat) : Fld := ⟨rAddr r (0x200000 + 8 * x), 16, 1, .ro, 0⟩
def mxeXstatHeld (r x : Nat) : Fld := ⟨rAddr r (0x200000 + 8 * x), 17, 1, .ro, 0⟩
def mxeXstatFlushCount (r x : Nat) : Fld := ⟨rAddr r (0x200000 + 8 * x), 32, 32, .rw, 0⟩
def fieldsOfMxeXstat (r x : Nat) : List Fld := [mxeXstatFlushIn r x, mxeXstatNfIn r x, mxeXstatNfAcc r x, mxeXstatBeRsvd r x, mxeXstatDenseFb r x, mxeXstatTqFill r x, mxeXstatBusy r x, mxeXstatHeld r x, mxeXstatFlushCount r x]
/-! `VE_XSTAT` (R135). -/
def veXstatInv (r x : Nat) : Fld := ⟨rAddr r (0x201000 + 8 * x), 0, 1, .w1c, 0⟩
def veXstatDivz (r x : Nat) : Fld := ⟨rAddr r (0x201000 + 8 * x), 1, 1, .w1c, 0⟩
def veXstatOvf (r x : Nat) : Fld := ⟨rAddr r (0x201000 + 8 * x), 2, 1, .w1c, 0⟩
def veXstatUnf (r x : Nat) : Fld := ⟨rAddr r (0x201000 + 8 * x), 3, 1, .w1c, 0⟩
def veXstatInx (r x : Nat) : Fld := ⟨rAddr r (0x201000 + 8 * x), 4, 1, .w1c, 0⟩
def veXstatNfOut (r x : Nat) : Fld := ⟨rAddr r (0x201000 + 8 * x), 5, 1, .w1c, 0⟩
def veXstatIdxOor (r x : Nat) : Fld := ⟨rAddr r (0x201000 + 8 * x), 6, 1, .w1c, 0⟩
def veXstatMaskedRow (r x : Nat) : Fld := ⟨rAddr r (0x201000 + 8 * x), 7, 1, .w1c, 0⟩
def veXstatSat (r x : Nat) : Fld := ⟨rAddr r (0x201000 + 8 * x), 8, 1, .w1c, 0⟩
def veXstatBusy (r x : Nat) : Fld := ⟨rAddr r (0x201000 + 8 * x), 16, 1, .ro, 0⟩
def veXstatPrimeWait (r x : Nat) : Fld := ⟨rAddr r (0x201000 + 8 * x), 17, 1, .ro, 0⟩
def veXstatNfCount (r x : Nat) : Fld := ⟨rAddr r (0x201000 + 8 * x), 32, 32, .rw, 0⟩
def fieldsOfVeXstat (r x : Nat) : List Fld := [veXstatInv r x, veXstatDivz r x, veXstatOvf r x, veXstatUnf r x, veXstatInx r x, veXstatNfOut r x, veXstatIdxOor r x, veXstatMaskedRow r x, veXstatSat r x, veXstatBusy r x, veXstatPrimeWait r x, veXstatNfCount r x]
/-! `DF_CTRL` (R161). -/
def dfCtrlVerdictToken (r : Nat) : Fld := ⟨rAddr r 0x300000, 0, 12, .rw, 0⟩
def dfCtrlTokenEn (r : Nat) : Fld := ⟨rAddr r 0x300000, 12, 1, .rw, 0⟩
def fieldsOfDfCtrl (r : Nat) : List Fld := [dfCtrlVerdictToken r, dfCtrlTokenEn r]
/-! `DF_SREC` (R161). -/
def dfSrecListAddr (r : Nat) : Fld := ⟨rAddr r 0x300008, 0, 48, .rw, 0⟩
def dfSrecListN (r : Nat) : Fld := ⟨rAddr r 0x300008, 48, 16, .rw, 0⟩
def fieldsOfDfSrec (r : Nat) : List Fld := [dfSrecListAddr r, dfSrecListN r]
/-! `DF_SLICE` (R161). -/
def dfSliceTableAddr (r : Nat) : Fld := ⟨rAddr r 0x300010, 0, 48, .rw, 0⟩
def dfSliceTableN (r : Nat) : Fld := ⟨rAddr r 0x300010, 48, 16, .rw, 0⟩
def fieldsOfDfSlice (r : Nat) : List Fld := [dfSliceTableAddr r, dfSliceTableN r]
/-! `DF_STATUS` (R161). -/
def dfStatusVotedStep (r : Nat) : Fld := ⟨rAddr r 0x300018, 0, 48, .ro, 0⟩
def dfStatusNfEven (r : Nat) : Fld := ⟨rAddr r 0x300018, 48, 1, .ro, 0⟩
def dfStatusNfOdd (r : Nat) : Fld := ⟨rAddr r 0x300018, 49, 1, .ro, 0⟩
def dfStatusFailPend (r : Nat) : Fld := ⟨rAddr r 0x300018, 50, 1, .ro, 0⟩
def dfStatusAheadStall (r : Nat) : Fld := ⟨rAddr r 0x300018, 51, 1, .ro, 0⟩
def fieldsOfDfStatus (r : Nat) : List Fld := [dfStatusVotedStep r, dfStatusNfEven r, dfStatusNfOdd r, dfStatusFailPend r, dfStatusAheadStall r]
/-! `PAN_STATUS` (R161). -/
def panStatusOccupancy (r : Nat) : Fld := ⟨rAddr r 0x300020, 0, 40, .ro, 0⟩
def panStatusEntries (r : Nat) : Fld := ⟨rAddr r 0x300020, 40, 13, .ro, 0⟩
def panStatusPolicy (r : Nat) : Fld := ⟨rAddr r 0x300020, 53, 2, .ro, 0⟩
def panStatusHalted (r : Nat) : Fld := ⟨rAddr r 0x300020, 55, 1, .ro, 0⟩
def fieldsOfPanStatus (r : Nat) : List Fld := [panStatusOccupancy r, panStatusEntries r, panStatusPolicy r, panStatusHalted r]
/-! `PAN_BUDGET` (R161). -/
def panBudgetBudget (r : Nat) : Fld := ⟨rAddr r 0x300028, 0, 40, .ro, 0⟩
def fieldsOfPanBudget (r : Nat) : List Fld := [panBudgetBudget r]
/-! `PAN_COUNTS` (R161). -/
def panCountsDropped (r : Nat) : Fld := ⟨rAddr r 0x300030, 0, 32, .ro, 0⟩
def panCountsSpilled (r : Nat) : Fld := ⟨rAddr r 0x300030, 32, 32, .ro, 0⟩
def fieldsOfPanCounts (r : Nat) : List Fld := [panCountsDropped r, panCountsSpilled r]
/-! `PAN_RECOMP` (R161). -/
def panRecompRecomputed (r : Nat) : Fld := ⟨rAddr r 0x300038, 0, 32, .ro, 0⟩
def panRecompEvicted (r : Nat) : Fld := ⟨rAddr r 0x300038, 32, 32, .ro, 0⟩
def fieldsOfPanRecomp (r : Nat) : List Fld := [panRecompRecomputed r, panRecompEvicted r]
/-! `UPE_STAT` (R161). -/
def upeStatNfElems (r d : Nat) : Fld := ⟨rAddr r (0x300040 + 8 * d), 0, 32, .ro, 0⟩
def upeStatBusy (r d : Nat) : Fld := ⟨rAddr r (0x300040 + 8 * d), 32, 1, .ro, 0⟩
def upeStatWaitVerdict (r d : Nat) : Fld := ⟨rAddr r (0x300040 + 8 * d), 33, 1, .ro, 0⟩
def fieldsOfUpeStat (r d : Nat) : List Fld := [upeStatNfElems r d, upeStatBusy r d, upeStatWaitVerdict r d]
/-! `SP_STAT` (R169). -/
def spStatDenseFb (r : Nat) : Fld := ⟨rAddr r 0x340000, 0, 32, .ro, 0⟩
def spStatFbDenied (r : Nat) : Fld := ⟨rAddr r 0x340000, 32, 32, .ro, 0⟩
def fieldsOfSpStat (r : Nat) : List Fld := [spStatDenseFb r, spStatFbDenied r]
/-! `SP_MASKNZ` (R171). -/
def spMasknzMaskNz (r : Nat) : Fld := ⟨rAddr r 0x340008, 0, 32, .ro, 0⟩
def fieldsOfSpMasknz (r : Nat) : List Fld := [spMasknzMaskNz r]
/-! `PRED_LIST` (R184). -/
def predListListAddr (r : Nat) : Fld := ⟨rAddr r 0x340010, 0, 48, .rw, 0⟩
def predListListN (r : Nat) : Fld := ⟨rAddr r 0x340010, 48, 16, .rw, 0⟩
def fieldsOfPredList (r : Nat) : List Fld := [predListListAddr r, predListListN r]
/-! `PRED_STAT` (R184). -/
def predStatPredMissRuns (r : Nat) : Fld := ⟨rAddr r 0x340018, 0, 32, .ro, 0⟩
def predStatDisengaged (r : Nat) : Fld := ⟨rAddr r 0x340018, 32, 8, .ro, 0⟩
def predStatPredBusy (r : Nat) : Fld := ⟨rAddr r 0x340018, 40, 1, .ro, 0⟩
def fieldsOfPredStat (r : Nat) : List Fld := [predStatPredMissRuns r, predStatDisengaged r, predStatPredBusy r]
/-! `LLM_LAYOUT` (R205). -/
def llmLayoutParts (r d : Nat) : Fld := ⟨rAddr r (0x380000 + 8 * d), 0, 32, .ro, 0⟩
def llmLayoutRetMask (r d : Nat) : Fld := ⟨rAddr r (0x380000 + 8 * d), 32, 16, .ro, 0⟩
def llmLayoutRetAcc (r d : Nat) : Fld := ⟨rAddr r (0x380000 + 8 * d), 48, 16, .ro, 0⟩
def fieldsOfLlmLayout (r d : Nat) : List Fld := [llmLayoutParts r d, llmLayoutRetMask r d, llmLayoutRetAcc r d]
/-! `LLM_CTRL` (R205). -/
def llmCtrlWb (r : Nat) : Fld := ⟨rAddr r 0x380010, 0, 1, .wo, 0⟩
def llmCtrlInv (r : Nat) : Fld := ⟨rAddr r 0x380010, 1, 1, .wo, 0⟩
def fieldsOfLlmCtrl (r : Nat) : List Fld := [llmCtrlWb r, llmCtrlInv r]
/-! `LLM_STAT` (R205). -/
def llmStatWbBusy (r : Nat) : Fld := ⟨rAddr r 0x380018, 0, 1, .ro, 0⟩
def fieldsOfLlmStat (r : Nat) : List Fld := [llmStatWbBusy r]
/-! `LLM_HITS` (R205). -/
def llmHitsHits (r : Nat) : Fld := ⟨rAddr r 0x380020, 0, 64, .ro, 0⟩
def fieldsOfLlmHits (r : Nat) : List Fld := [llmHitsHits r]
/-! `LLM_MISSES` (R205). -/
def llmMissesMisses (r : Nat) : Fld := ⟨rAddr r 0x380028, 0, 64, .ro, 0⟩
def fieldsOfLlmMisses (r : Nat) : List Fld := [llmMissesMisses r]
/-! `SRAM_ECC` (R189). -/
def sramEccCorrected (r d : Nat) : Fld := ⟨rAddr r (0x380030 + 8 * d), 0, 32, .ro, 0⟩
def sramEccUncorr (r d : Nat) : Fld := ⟨rAddr r (0x380030 + 8 * d), 32, 16, .ro, 0⟩
def fieldsOfSramEcc (r d : Nat) : List Fld := [sramEccCorrected r d, sramEccUncorr r d]
/-! `STK_ECC` (R202). -/
def stkEccCorrected (r : Nat) : Fld := ⟨rAddr r 0x380040, 0, 32, .ro, 0⟩
def stkEccUncorr (r : Nat) : Fld := ⟨rAddr r 0x380040, 32, 16, .ro, 0⟩
def stkEccSuspectDev (r : Nat) : Fld := ⟨rAddr r 0x380040, 48, 5, .ro, 0x1F⟩
def fieldsOfStkEcc (r : Nat) : List Fld := [stkEccCorrected r, stkEccUncorr r, stkEccSuspectDev r]
/-! `STK_SCRUB` (R203). -/
def stkScrubPeriodH (r : Nat) : Fld := ⟨rAddr r 0x380048, 0, 8, .rw, 12⟩
def stkScrubScrubNow (r : Nat) : Fld := ⟨rAddr r 0x380048, 8, 1, .wo, 0⟩
def stkScrubScrubBusy (r : Nat) : Fld := ⟨rAddr r 0x380048, 9, 1, .ro, 0⟩
def stkScrubPasses (r : Nat) : Fld := ⟨rAddr r 0x380048, 32, 32, .ro, 0⟩
def fieldsOfStkScrub (r : Nat) : List Fld := [stkScrubPeriodH r, stkScrubScrubNow r, stkScrubScrubBusy r, stkScrubPasses r]
/-! `STK_THERM` (R204). -/
def stkThermTemp (r : Nat) : Fld := ⟨rAddr r 0x380050, 0, 8, .ro, 0⟩
def stkThermTempMax (r : Nat) : Fld := ⟨rAddr r 0x380050, 8, 8, .rw, 0⟩
def stkThermLimit (r : Nat) : Fld := ⟨rAddr r 0x380050, 16, 8, .rw, 95⟩
def stkThermHot (r : Nat) : Fld := ⟨rAddr r 0x380050, 24, 1, .ro, 0⟩
def stkThermThrottle (r : Nat) : Fld := ⟨rAddr r 0x380050, 25, 1, .ro, 0⟩
def stkThermTripped (r : Nat) : Fld := ⟨rAddr r 0x380050, 26, 1, .w1c, 0⟩
def fieldsOfStkTherm (r : Nat) : List Fld := [stkThermTemp r, stkThermTempMax r, stkThermLimit r, stkThermHot r, stkThermThrottle r, stkThermTripped r]
/-! `CH_POST` (R231). -/
def chPostDescAddr (r h : Nat) : Fld := ⟨rAddr r (0x400000 + 0x100 * h), 0, 48, .wo, 0⟩
def fieldsOfChPost (r h : Nat) : List Fld := [chPostDescAddr r h]
/-! `CH_SHARE` (R243). -/
def chShareShareCap (r h : Nat) : Fld := ⟨rAddr r (0x400008 + 0x100 * h), 0, 9, .rw, 256⟩
def fieldsOfChShare (r h : Nat) : List Fld := [chShareShareCap r h]
/-! `CH_STATUS` (R249). -/
def chStatusBusy (r h : Nat) : Fld := ⟨rAddr r (0x400010 + 0x100 * h), 0, 1, .ro, 0⟩
def chStatusPaused (r h : Nat) : Fld := ⟨rAddr r (0x400010 + 0x100 * h), 1, 1, .ro, 0⟩
def chStatusBarWait (r h : Nat) : Fld := ⟨rAddr r (0x400010 + 0x100 * h), 2, 1, .ro, 0⟩
def chStatusPostErr (r h : Nat) : Fld := ⟨rAddr r (0x400010 + 0x100 * h), 3, 1, .w1c, 0⟩
def chStatusFifoFill (r h : Nat) : Fld := ⟨rAddr r (0x400010 + 0x100 * h), 8, 3, .ro, 0⟩
def chStatusErrCount (r h : Nat) : Fld := ⟨rAddr r (0x400010 + 0x100 * h), 32, 32, .ro, 0⟩
def fieldsOfChStatus (r h : Nat) : List Fld := [chStatusBusy r h, chStatusPaused r h, chStatusBarWait r h, chStatusPostErr r h, chStatusFifoFill r h, chStatusErrCount r h]
/-! `CH_OFFSET` (R249). -/
def chOffsetNextOff (r h : Nat) : Fld := ⟨rAddr r (0x400018 + 0x100 * h), 0, 41, .ro, 0⟩
def fieldsOfChOffset (r h : Nat) : List Fld := [chOffsetNextOff r h]
/-! `CH_BYTES` (R249). -/
def chBytesBytes (r h : Nat) : Fld := ⟨rAddr r (0x400020 + 0x100 * h), 0, 64, .ro, 0⟩
def fieldsOfChBytes (r h : Nat) : List Fld := [chBytesBytes r h]
/-! `DMA_CTRL` (R246). -/
def dmaCtrlBarTimeoutUs (r : Nat) : Fld := ⟨rAddr r 0x404000, 0, 24, .rw, 10000⟩
def fieldsOfDmaCtrl (r : Nat) : List Fld := [dmaCtrlBarTimeoutUs r]
/-! `STOP_STAT` (R272). -/
def stopStatFreewheel (st : Nat) : Fld := ⟨sAddr st 0x480000, 0, 1, .ro, 0⟩
def stopStatDraining (st : Nat) : Fld := ⟨sAddr st 0x480000, 1, 1, .ro, 0⟩
def stopStatPosition (st : Nat) : Fld := ⟨sAddr st 0x480000, 8, 8, .ro, 0⟩
def stopStatHeldSig (st : Nat) : Fld := ⟨sAddr st 0x480000, 16, 9, .ro, 0⟩
def fieldsOfStopStat (st : Nat) : List Fld := [stopStatFreewheel st, stopStatDraining st, stopStatPosition st, stopStatHeldSig st]
/-! `STOP_COMBINE` (R272). -/
def stopCombineRedComb (st : Nat) : Fld := ⟨sAddr st 0x480008, 0, 32, .ro, 0⟩
def stopCombineVoteComb (st : Nat) : Fld := ⟨sAddr st 0x480008, 32, 32, .ro, 0⟩
def fieldsOfStopCombine (st : Nat) : List Fld := [stopCombineRedComb st, stopCombineVoteComb st]
/-! `STOP_LINK` (R272). -/
def stopLinkCrcErr (st i : Nat) : Fld := ⟨sAddr st (0x480010 + 8 * i), 0, 32, .ro, 0⟩
def stopLinkAscFailed (st i : Nat) : Fld := ⟨sAddr st (0x480010 + 8 * i), 32, 1, .ro, 0⟩
def stopLinkDescFailed (st i : Nat) : Fld := ⟨sAddr st (0x480010 + 8 * i), 33, 1, .ro, 0⟩
def fieldsOfStopLink (st i : Nat) : List Fld := [stopLinkCrcErr st i, stopLinkAscFailed st i, stopLinkDescFailed st i]
/-! `STOP_TX` (R272). -/
def stopTxTxBytes (st : Nat) : Fld := ⟨sAddr st 0x480090, 0, 64, .ro, 0⟩
def fieldsOfStopTx (st : Nat) : List Fld := [stopTxTxBytes st]
/-! `STOP_RX` (R272). -/
def stopRxRxBytes (st : Nat) : Fld := ⟨sAddr st 0x480098, 0, 64, .ro, 0⟩
def fieldsOfStopRx (st : Nat) : List Fld := [stopRxRxBytes st]
/-! `STOP_UNDELIV` (R267). -/
def stopUndelivUndeliv (st : Nat) : Fld := ⟨sAddr st 0x4800A0, 0, 32, .ro, 0⟩
def fieldsOfStopUndeliv (st : Nat) : List Fld := [stopUndelivUndeliv st]
/-! `PWR_STAT` (R342). -/
def pwrStatPstate (r : Nat) : Fld := ⟨rAddr r 0x500000, 0, 3, .ro, 0⟩
def pwrStatQuarter (r : Nat) : Fld := ⟨rAddr r 0x500000, 3, 1, .ro, 0⟩
def pwrStatDerated (r : Nat) : Fld := ⟨rAddr r 0x500000, 4, 1, .ro, 0⟩
def pwrStatOcTrip (r : Nat) : Fld := ⟨rAddr r 0x500000, 5, 1, .w1c, 0⟩
def pwrStatPW (r : Nat) : Fld := ⟨rAddr r 0x500000, 32, 16, .ro, 0⟩
def fieldsOfPwrStat (r : Nat) : List Fld := [pwrStatPstate r, pwrStatQuarter r, pwrStatDerated r, pwrStatOcTrip r, pwrStatPW r]
/-! `PWR_RCUFF` (R339). -/
def pwrRcuffRegionCuffW (r : Nat) : Fld := ⟨rAddr r 0x500008, 0, 16, .rw, 0⟩
def pwrRcuffEffRcuffW (r : Nat) : Fld := ⟨rAddr r 0x500008, 16, 16, .ro, 0⟩
def fieldsOfPwrRcuff (r : Nat) : List Fld := [pwrRcuffRegionCuffW r, pwrRcuffEffRcuffW r]
/-! `PWR_CELLS` (R330). -/
def pwrCellsFailed (r : Nat) : Fld := ⟨rAddr r 0x500010, 0, 32, .ro, 0⟩
def pwrCellsS2Fail (r : Nat) : Fld := ⟨rAddr r 0x500010, 32, 2, .ro, 0⟩
def fieldsOfPwrCells (r : Nat) : List Fld := [pwrCellsFailed r, pwrCellsS2Fail r]
/-! `PWR_ADMIT` (R336). -/
def pwrAdmitInrushW (r : Nat) : Fld := ⟨rAddr r 0x500018, 0, 16, .ro, 0⟩
def pwrAdmitDeferMs (r : Nat) : Fld := ⟨rAddr r 0x500018, 16, 16, .ro, 0⟩
def fieldsOfPwrAdmit (r : Nat) : List Fld := [pwrAdmitInrushW r, pwrAdmitDeferMs r]
/-! `CLK_STAT` (R357). -/
def clkStatRootMhz (r : Nat) : Fld := ⟨rAddr r 0x580000, 0, 12, .ro, 0⟩
def clkStatTargetMhz (r : Nat) : Fld := ⟨rAddr r 0x580000, 12, 12, .ro, 0⟩
def clkStatLimiter (r : Nat) : Fld := ⟨rAddr r 0x580000, 24, 2, .ro, 0⟩
def clkStatRstate (r : Nat) : Fld := ⟨rAddr r 0x580000, 26, 3, .ro, 0⟩
def clkStatParkTherm (r : Nat) : Fld := ⟨rAddr r 0x580000, 29, 1, .ro, 0⟩
def clkStatParkCuff (r : Nat) : Fld := ⟨rAddr r 0x580000, 30, 1, .ro, 0⟩
def fieldsOfClkStat (r : Nat) : List Fld := [clkStatRootMhz r, clkStatTargetMhz r, clkStatLimiter r, clkStatRstate r, clkStatParkTherm r, clkStatParkCuff r]
/-! `THERM_CTRL` (R357). -/
def thermCtrlTjThrottle (r : Nat) : Fld := ⟨rAddr r 0x580008, 0, 8, .rw, 105⟩
def thermCtrlParkLimit (r : Nat) : Fld := ⟨rAddr r 0x580008, 8, 8, .rw, 20⟩
def fieldsOfThermCtrl (r : Nat) : List Fld := [thermCtrlTjThrottle r, thermCtrlParkLimit r]
/-! `THERM_STAT` (R357). -/
def thermStatTj (r : Nat) : Fld := ⟨rAddr r 0x580010, 0, 8, .ro, 0⟩
def thermStatTjMax (r : Nat) : Fld := ⟨rAddr r 0x580010, 8, 8, .rw, 0⟩
def thermStatThrottled (r : Nat) : Fld := ⟨rAddr r 0x580010, 16, 1, .ro, 0⟩
def thermStatParkedT (r : Nat) : Fld := ⟨rAddr r 0x580010, 17, 1, .w1c, 0⟩
def thermStatOffThermal (r : Nat) : Fld := ⟨rAddr r 0x580010, 18, 1, .w1c, 0⟩
def thermStatHwTrip (r : Nat) : Fld := ⟨rAddr r 0x580010, 19, 1, .w1c, 0⟩
def thermStatThrottleEvents (r : Nat) : Fld := ⟨rAddr r 0x580010, 32, 32, .ro, 0⟩
def fieldsOfThermStat (r : Nat) : List Fld := [thermStatTj r, thermStatTjMax r, thermStatThrottled r, thermStatParkedT r, thermStatOffThermal r, thermStatHwTrip r, thermStatThrottleEvents r]
/-! `TMON` (R346). -/
def tmonT (r i : Nat) : Fld := ⟨rAddr r (0x580100 + 8 * i), 0, 16, .ro, 0⟩
def tmonTAlert (r i : Nat) : Fld := ⟨rAddr r (0x580100 + 8 * i), 16, 16, .rw, 0x0640⟩
def tmonAlert (r i : Nat) : Fld := ⟨rAddr r (0x580100 + 8 * i), 32, 1, .w1c, 0⟩
def fieldsOfTmon (r i : Nat) : List Fld := [tmonT r i, tmonTAlert r i, tmonAlert r i]
/-! `VMON` (R346). -/
def vmonV (r i : Nat) : Fld := ⟨rAddr r (0x580180 + 8 * i), 0, 16, .ro, 0⟩
def vmonVLo (r i : Nat) : Fld := ⟨rAddr r (0x580180 + 8 * i), 16, 16, .rw, 0⟩
def vmonVHi (r i : Nat) : Fld := ⟨rAddr r (0x580180 + 8 * i), 32, 16, .rw, 0xFFFF⟩
def vmonAlert (r i : Nat) : Fld := ⟨rAddr r (0x580180 + 8 * i), 48, 1, .w1c, 0⟩
def fieldsOfVmon (r i : Nat) : List Fld := [vmonV r i, vmonVLo r i, vmonVHi r i, vmonAlert r i]
/-! `PMON` (R346). -/
def pmonFRo (r i : Nat) : Fld := ⟨rAddr r (0x5801C0 + 8 * i), 0, 16, .ro, 0⟩
def pmonFRef (r i : Nat) : Fld := ⟨rAddr r (0x5801C0 + 8 * i), 16, 16, .ro, 0⟩
def fieldsOfPmon (r i : Nat) : List Fld := [pmonFRo r i, pmonFRef r i]
/-! `SNAP_LIST` (R371). -/
def snapListListAddr (r : Nat) : Fld := ⟨rAddr r 0x600000, 0, 48, .rw, 0⟩
def snapListListN (r : Nat) : Fld := ⟨rAddr r 0x600000, 48, 16, .rw, 0⟩
def fieldsOfSnapList (r : Nat) : List Fld := [snapListListAddr r, snapListListN r]
/-! `RES_STAT` (R381). -/
def resStatRerunHold (r : Nat) : Fld := ⟨rAddr r 0x600008, 0, 1, .ro, 0⟩
def resStatResume (r : Nat) : Fld := ⟨rAddr r 0x600008, 1, 1, .wo, 0⟩
def resStatDrained (r : Nat) : Fld := ⟨rAddr r 0x600008, 2, 1, .ro, 0⟩
def resStatRestoredUnits (r : Nat) : Fld := ⟨rAddr r 0x600008, 32, 32, .ro, 0⟩
def fieldsOfResStat (r : Nat) : List Fld := [resStatRerunHold r, resStatResume r, resStatDrained r, resStatRestoredUnits r]
/-! `REPAIR` (R423). -/
def repairFailedPhys (r d : Nat) : Fld := ⟨rAddr r (0x680000 + 8 * d), 0, 50, .ro, 0⟩
def repairFailedN (r d : Nat) : Fld := ⟨rAddr r (0x680000 + 8 * d), 50, 6, .ro, 0⟩
def fieldsOfRepair (r d : Nat) : List Fld := [repairFailedPhys r d, repairFailedN r d]
/-! `RGN_BOOT` (R424). -/
def rgnBootDark (r : Nat) : Fld := ⟨rAddr r 0x680010, 0, 1, .ro, 0⟩
def rgnBootDarkCause (r : Nat) : Fld := ⟨rAddr r 0x680010, 1, 3, .ro, 0⟩
def rgnBootRstBusy (r : Nat) : Fld := ⟨rAddr r 0x680010, 4, 1, .ro, 0⟩
def fieldsOfRgnBoot (r : Nat) : List Fld := [rgnBootDark r, rgnBootDarkCause r, rgnBootRstBusy r]
/-! `PORT_CFG` (R311). -/
def portCfgClass (k p : Nat) : Fld := ⟨dAddr k (0x100000 + 0x100 * p), 0, 2, .ro, 0⟩
def portCfgBreakout (k p : Nat) : Fld := ⟨dAddr k (0x100000 + 0x100 * p), 2, 1, .ro, 0⟩
def portCfgVid (k p : Nat) : Fld := ⟨dAddr k (0x100000 + 0x100 * p), 16, 12, .rw, 0⟩
def portCfgPrioBulk (k p : Nat) : Fld := ⟨dAddr k (0x100000 + 0x100 * p), 28, 3, .rw, 3⟩
def portCfgPrioCtrl (k p : Nat) : Fld := ⟨dAddr k (0x100000 + 0x100 * p), 31, 3, .rw, 4⟩
def fieldsOfPortCfg (k p : Nat) : List Fld := [portCfgClass k p, portCfgBreakout k p, portCfgVid k p, portCfgPrioBulk k p, portCfgPrioCtrl k p]
/-! `PORT_STAT` (R311). -/
def portStatLink (k p : Nat) : Fld := ⟨dAddr k (0x100008 + 0x100 * p), 0, 2, .ro, 0⟩
def portStatMacsecUp (k p : Nat) : Fld := ⟨dAddr k (0x100008 + 0x100 * p), 2, 2, .ro, 0⟩
def portStatHeld (k p : Nat) : Fld := ⟨dAddr k (0x100008 + 0x100 * p), 4, 1, .ro, 0⟩
def portStatCfgErr (k p : Nat) : Fld := ⟨dAddr k (0x100008 + 0x100 * p), 5, 1, .w1c, 0⟩
def portStatFcsErr (k p : Nat) : Fld := ⟨dAddr k (0x100008 + 0x100 * p), 32, 32, .ro, 0⟩
def fieldsOfPortStat (k p : Nat) : List Fld := [portStatLink k p, portStatMacsecUp k p, portStatHeld k p, portStatCfgErr k p, portStatFcsErr k p]
/-! `PORT_MAC` (R311). -/
def portMacMac (k p : Nat) : Fld := ⟨dAddr k (0x100010 + 0x100 * p), 0, 48, .ro, 0⟩
def fieldsOfPortMac (k p : Nat) : List Fld := [portMacMac k p]
/-! `PORT_IPV4` (R311). -/
def portIpv4Ipv40 (k p : Nat) : Fld := ⟨dAddr k (0x100018 + 0x100 * p), 0, 32, .rw, 0⟩
def portIpv4Ipv41 (k p : Nat) : Fld := ⟨dAddr k (0x100018 + 0x100 * p), 32, 32, .rw, 0⟩
def fieldsOfPortIpv4 (k p : Nat) : List Fld := [portIpv4Ipv40 k p, portIpv4Ipv41 k p]
/-! `PORT_IPV6` (R311). -/
def portIpv6Ipv6 (k i p : Nat) : Fld := ⟨dAddr k (0x100020 + 0x100 * p + 8 * i), 0, 64, .rw, 0⟩
def fieldsOfPortIpv6 (k i p : Nat) : List Fld := [portIpv6Ipv6 k i p]
/-! `PORT_DROP` (R311). -/
def portDropSliceDrop (k p : Nat) : Fld := ⟨dAddr k (0x100040 + 0x100 * p), 0, 32, .ro, 0⟩
def portDropMacsecFail (k p : Nat) : Fld := ⟨dAddr k (0x100040 + 0x100 * p), 32, 32, .ro, 0⟩
def fieldsOfPortDrop (k p : Nat) : List Fld := [portDropSliceDrop k p, portDropMacsecFail k p]
/-! `PORT_PFC` (R311). -/
def portPfcPauseRx (k p : Nat) : Fld := ⟨dAddr k (0x100048 + 0x100 * p), 0, 32, .ro, 0⟩
def portPfcPauseTx (k p : Nat) : Fld := ⟨dAddr k (0x100048 + 0x100 * p), 32, 32, .ro, 0⟩
def fieldsOfPortPfc (k p : Nat) : List Fld := [portPfcPauseRx k p, portPfcPauseTx k p]
/-! `PORT_ECN` (R311). -/
def portEcnCnpRx (k p : Nat) : Fld := ⟨dAddr k (0x100050 + 0x100 * p), 0, 32, .ro, 0⟩
def portEcnCnpTx (k p : Nat) : Fld := ⟨dAddr k (0x100050 + 0x100 * p), 32, 32, .ro, 0⟩
def fieldsOfPortEcn (k p : Nat) : List Fld := [portEcnCnpRx k p, portEcnCnpTx k p]
/-! `PORT_RDMA` (R311). -/
def portRdmaAccErr (k p : Nat) : Fld := ⟨dAddr k (0x100058 + 0x100 * p), 0, 32, .ro, 0⟩
def portRdmaSkProtoErr (k p : Nat) : Fld := ⟨dAddr k (0x100058 + 0x100 * p), 32, 32, .ro, 0⟩
def fieldsOfPortRdma (k p : Nat) : List Fld := [portRdmaAccErr k p, portRdmaSkProtoErr k p]
/-! `CAS_STAT` (R323). -/
def casStatPresent (k b : Nat) : Fld := ⟨dAddr k (0x400000 + 0x1000 * b), 0, 1, .ro, 0⟩
def casStatState (k b : Nat) : Fld := ⟨dAddr k (0x400000 + 0x1000 * b), 1, 2, .ro, 0⟩
def casStatReleased (k b : Nat) : Fld := ⟨dAddr k (0x400000 + 0x1000 * b), 3, 1, .ro, 0⟩
def casStatDarkReason (k b : Nat) : Fld := ⟨dAddr k (0x400000 + 0x1000 * b), 4, 4, .ro, 0⟩
def casStatEolWarn (k b : Nat) : Fld := ⟨dAddr k (0x400000 + 0x1000 * b), 8, 1, .ro, 0⟩
def casStatEol (k b : Nat) : Fld := ⟨dAddr k (0x400000 + 0x1000 * b), 9, 1, .ro, 0⟩
def casStatRelDenied (k b : Nat) : Fld := ⟨dAddr k (0x400000 + 0x1000 * b), 10, 1, .w1c, 0⟩
def casStatLaserFail (k b : Nat) : Fld := ⟨dAddr k (0x400000 + 0x1000 * b), 16, 16, .ro, 0⟩
def casStatTemp (k b : Nat) : Fld := ⟨dAddr k (0x400000 + 0x1000 * b), 32, 8, .ro, 0⟩
def fieldsOfCasStat (k b : Nat) : List Fld := [casStatPresent k b, casStatState k b, casStatReleased k b, casStatDarkReason k b, casStatEolWarn k b, casStatEol k b, casStatRelDenied k b, casStatLaserFail k b, casStatTemp k b]
/-! `CAS_CTRL` (R323). -/
def casCtrlRelease (k b : Nat) : Fld := ⟨dAddr k (0x400008 + 0x1000 * b), 0, 1, .wo, 0⟩
def casCtrlForce (k b : Nat) : Fld := ⟨dAddr k (0x400008 + 0x1000 * b), 1, 1, .wo, 0⟩
def casCtrlReauth (k b : Nat) : Fld := ⟨dAddr k (0x400008 + 0x1000 * b), 2, 1, .wo, 0⟩
def fieldsOfCasCtrl (k b : Nat) : List Fld := [casCtrlRelease k b, casCtrlForce k b, casCtrlReauth k b]
/-! `CAS_DRIVE` (R323). -/
def casDriveDrive (k b : Nat) : Fld := ⟨dAddr k (0x400010 + 0x1000 * b), 0, 7, .ro, 0⟩
def fieldsOfCasDrive (k b : Nat) : List Fld := [casDriveDrive k b]
/-! `CAS_LIFE` (R323). -/
def casLifeLifeCh (k b : Nat) : Fld := ⟨dAddr k (0x400018 + 0x1000 * b), 0, 32, .ro, 0⟩
def casLifeRatedCh (k b : Nat) : Fld := ⟨dAddr k (0x400018 + 0x1000 * b), 32, 32, .ro, 0⟩
def fieldsOfCasLife (k b : Nat) : List Fld := [casLifeLifeCh k b, casLifeRatedCh k b]
/-! `CAS_SERIAL` (R323). -/
def casSerialSerial (k b : Nat) : Fld := ⟨dAddr k (0x400020 + 0x1000 * b), 0, 64, .ro, 0⟩
def fieldsOfCasSerial (k b : Nat) : List Fld := [casSerialSerial k b]
/-! `MIRROR_STAT` (R417). -/
def mirrorStatMLink : Fld := ⟨mAddr 0x1000, 0, 1, .ro, 0⟩
def mirrorStatMSigOk : Fld := ⟨mAddr 0x1000, 1, 1, .ro, 0⟩
def mirrorStatMGaps : Fld := ⟨mAddr 0x1000, 32, 32, .ro, 0⟩
def fieldsOfMirrorStat : List Fld := [mirrorStatMLink, mirrorStatMSigOk, mirrorStatMGaps]
/-! `MIRROR_TIME` (R417). -/
def mirrorTimeRxTime : Fld := ⟨mAddr 0x1008, 0, 64, .ro, 0⟩
def fieldsOfMirrorTime : List Fld := [mirrorTimeRxTime]

/-- Fields of the global block's word at an offset. -/
def globalFields (off : Nat) : List Fld :=
  if 0x0420 ≤ off ∧ off < 0x0440 then fieldsOfBsDigest ((off - 0x0420) / 8)
  else if 0x1840 ≤ off ∧ off < 0x1880 then fieldsOfPwrSeg ((off - 0x1840) / 8)
  else if 0x2420 ≤ off ∧ off < 0x2440 then fieldsOfOwnNonce ((off - 0x2420) / 8)
  else if 0x2440 ≤ off ∧ off < 0x2460 then fieldsOfAttNonce ((off - 0x2440) / 8)
  else if 0x2480 ≤ off ∧ off < 0x24E0 then fieldsOfIssuer ((off - 0x2480) / 8)
  else match off with
  | 0x0000 => fieldsOfDevId
  | 0x0008 => fieldsOfCap
  | 0x0010 => fieldsOfRegionPresent
  | 0x0018 => fieldsOfRegionDegraded
  | 0x0400 => fieldsOfBsStage
  | 0x0408 => fieldsOfBsLen
  | 0x0410 => fieldsOfBsCtrl
  | 0x0418 => fieldsOfBsStatus
  | 0x0440 => fieldsOfBsSeqFloor
  | 0x0800 => fieldsOfGateCtrl
  | 0x0808 => fieldsOfGateVoters
  | 0x0810 => fieldsOfGateStatus
  | 0x0818 => fieldsOfLsCtrl
  | 0x0820 => fieldsOfLsLimits
  | 0x0828 => fieldsOfLsCur
  | 0x0830 => fieldsOfClipNorm
  | 0x0838 => fieldsOfStepCounts
  | 0x0C00 => fieldsOfRingStatus
  | 0x0C08 => fieldsOfDrlCtrl
  | 0x0C10 => fieldsOfDrlStatus
  | 0x0C18 => fieldsOfDrlBytes
  | 0x1000 => fieldsOfMapStatus
  | 0x1400 => fieldsOfEvtCfg
  | 0x1408 => fieldsOfEvtAddr
  | 0x1410 => fieldsOfEvtTail
  | 0x1418 => fieldsOfEvtHead
  | 0x1420 => fieldsOfEvtLost
  | 0x1480 => fieldsOfPtpCtrl
  | 0x1488 => fieldsOfPtpStat
  | 0x1500 => fieldsOfSlice
  | 0x1508 => fieldsOfRdmaKeys
  | 0x1800 => fieldsOfPwrIn
  | 0x1808 => fieldsOfPwrCuff
  | 0x1810 => fieldsOfPwrConv
  | 0x1818 => fieldsOfPwrParked
  | 0x1820 => fieldsOfFenceNv
  | 0x1C00 => fieldsOfModeCtrl
  | 0x1C08 => fieldsOfRegionState
  | 0x2000 => fieldsOfSeamCtrl
  | 0x2008 => fieldsOfSeamState
  | 0x2010 => fieldsOfFenced
  | 0x2018 => fieldsOfSnapCtrl
  | 0x2020 => fieldsOfSnapAddr
  | 0x2028 => fieldsOfSnapLen
  | 0x2030 => fieldsOfSnapStatus
  | 0x2038 => fieldsOfRsCtrl
  | 0x2040 => fieldsOfRsDest
  | 0x2048 => fieldsOfRsLen
  | 0x2050 => fieldsOfRsStatus
  | 0x2400 => fieldsOfSecState
  | 0x2408 => fieldsOfSecCmd
  | 0x2410 => fieldsOfSecStatus
  | 0x2418 => fieldsOfSvn
  | 0x2460 => fieldsOfKeySeq
  | 0x2468 => fieldsOfKtId
  | 0x4000 => fieldsOfBootStatus
  | 0x4008 => fieldsOfBootDark
  | 0x4010 => fieldsOfResetCtrl
  | 0x4018 => fieldsOfResetCause
  | 0x4020 => fieldsOfFwUpdate
  | 0x4400 => fieldsOfErrStatus
  | 0x4408 => fieldsOfErrPop
  | 0x4410 => fieldsOfErrCounts
  | 0x4418 => fieldsOfErrThresh
  | 0x4480 => fieldsOfInjCtrl
  | 0x4488 => fieldsOfInjTarget
  | 0x4490 => fieldsOfInjValue
  | 0x4498 => fieldsOfInjStatus
  | _ => []

/-- Fields of a ring stop's word at an offset from 0x0048_0000. -/
def stopFields (st off : Nat) : List Fld :=
  if 0x10 ≤ off ∧ off < 0x90 then fieldsOfStopLink st ((off - 0x10) / 8)
  else match off with
  | 0x0 => fieldsOfStopStat st
  | 0x8 => fieldsOfStopCombine st
  | 0x90 => fieldsOfStopTx st
  | 0x98 => fieldsOfStopRx st
  | 0xa0 => fieldsOfStopUndeliv st
  | _ => []

/-- Fields of region block `r`'s word at an offset (22_register_summary). -/
def regionFields (r off : Nat) : List Fld :=
  if 0x100000 ≤ off ∧ off < 0x100200 then
    let q := (off - 0x100000) / 0x40
    match (off - 0x100000) % 0x40 with
    | 0x00 => fieldsOfQBase r q
    | 0x08 => fieldsOfQTail r q
    | 0x10 => fieldsOfQHead r q
    | 0x18 => fieldsOfQCtrl r q
    | 0x20 => fieldsOfQStatus r q
    | 0x28 => fieldsOfQPasses r q
    | _ => []
  else if 0x101000 ≤ off ∧ off < 0x101400 then
    let c := (off - 0x101000) / 0x40
    match (off - 0x101000) % 0x40 with
    | 0x00 => fieldsOfCqBase r c
    | 0x08 => fieldsOfCqCtrl r c
    | 0x10 => fieldsOfCqTail r c
    | 0x18 => fieldsOfCqHead r c
    | 0x20 => fieldsOfCqStatus r c
    | _ => []
  else if 0x110000 ≤ off ∧ off < 0x118000 then fieldsOfToken r ((off - 0x110000) / 8)
  else if 0x200000 ≤ off ∧ off < 0x200300 then fieldsOfMxeXstat r ((off - 0x200000) / 8)
  else if 0x201000 ≤ off ∧ off < 0x201300 then fieldsOfVeXstat r ((off - 0x201000) / 8)
  else if 0x300040 ≤ off ∧ off < 0x300050 then fieldsOfUpeStat r ((off - 0x300040) / 8)
  else if 0x380000 ≤ off ∧ off < 0x380010 then fieldsOfLlmLayout r ((off - 0x380000) / 8)
  else if 0x380030 ≤ off ∧ off < 0x380040 then fieldsOfSramEcc r ((off - 0x380030) / 8)
  else if 0x400000 ≤ off ∧ off < 0x404000 then
    let h := (off - 0x400000) / 0x100
    match (off - 0x400000) % 0x100 with
    | 0x00 => fieldsOfChPost r h
    | 0x08 => fieldsOfChShare r h
    | 0x10 => fieldsOfChStatus r h
    | 0x18 => fieldsOfChOffset r h
    | 0x20 => fieldsOfChBytes r h
    | _ => []
  else if 0x480000 ≤ off ∧ off < 0x4800A8 then stopFields r (off - 0x480000)
  else if 0x580100 ≤ off ∧ off < 0x580180 then fieldsOfTmon r ((off - 0x580100) / 8)
  else if 0x580180 ≤ off ∧ off < 0x5801C0 then fieldsOfVmon r ((off - 0x580180) / 8)
  else if 0x5801C0 ≤ off ∧ off < 0x5801E0 then fieldsOfPmon r ((off - 0x5801C0) / 8)
  else if 0x680000 ≤ off ∧ off < 0x680010 then fieldsOfRepair r ((off - 0x680000) / 8)
  else match off with
  | 0x100800 => fieldsOfHubStepCnt r
  | 0x100808 => fieldsOfHubCtrl r
  | 0x100810 => fieldsOfHubStat r
  | 0x300000 => fieldsOfDfCtrl r
  | 0x300008 => fieldsOfDfSrec r
  | 0x300010 => fieldsOfDfSlice r
  | 0x300018 => fieldsOfDfStatus r
  | 0x300020 => fieldsOfPanStatus r
  | 0x300028 => fieldsOfPanBudget r
  | 0x300030 => fieldsOfPanCounts r
  | 0x300038 => fieldsOfPanRecomp r
  | 0x340000 => fieldsOfSpStat r
  | 0x340008 => fieldsOfSpMasknz r
  | 0x340010 => fieldsOfPredList r
  | 0x340018 => fieldsOfPredStat r
  | 0x380010 => fieldsOfLlmCtrl r
  | 0x380018 => fieldsOfLlmStat r
  | 0x380020 => fieldsOfLlmHits r
  | 0x380028 => fieldsOfLlmMisses r
  | 0x380040 => fieldsOfStkEcc r
  | 0x380048 => fieldsOfStkScrub r
  | 0x380050 => fieldsOfStkTherm r
  | 0x404000 => fieldsOfDmaCtrl r
  | 0x500000 => fieldsOfPwrStat r
  | 0x500008 => fieldsOfPwrRcuff r
  | 0x500010 => fieldsOfPwrCells r
  | 0x500018 => fieldsOfPwrAdmit r
  | 0x580000 => fieldsOfClkStat r
  | 0x580008 => fieldsOfThermCtrl r
  | 0x580010 => fieldsOfThermStat r
  | 0x600000 => fieldsOfSnapList r
  | 0x600008 => fieldsOfResStat r
  | 0x680010 => fieldsOfRgnBoot r
  | _ => []

/-- Fields of port-die block `k`'s word at an offset; tables and certificates are kept as bytes elsewhere. -/
def dieFields (k off : Nat) : List Fld :=
  if 0x100000 ≤ off ∧ off < 0x101000 then
    let p := (off - 0x100000) / 0x100
    let o := (off - 0x100000) % 0x100
    if 0x20 ≤ o ∧ o < 0x40 then fieldsOfPortIpv6 k ((o - 0x20) / 8) p
    else match o with
    | 0x00 => fieldsOfPortCfg k p
    | 0x08 => fieldsOfPortStat k p
    | 0x10 => fieldsOfPortMac k p
    | 0x18 => fieldsOfPortIpv4 k p
    | 0x40 => fieldsOfPortDrop k p
    | 0x48 => fieldsOfPortPfc k p
    | 0x50 => fieldsOfPortEcn k p
    | 0x58 => fieldsOfPortRdma k p
    | _ => []
  else if 0x480000 ≤ off ∧ off < 0x4800A8 then stopFields (32 + k) (off - 0x480000)
  else if 0x400000 ≤ off ∧ off < 0x402000 then
    let b := (off - 0x400000) / 0x1000
    match (off - 0x400000) % 0x1000 with
    | 0x00 => fieldsOfCasStat k b
    | 0x08 => fieldsOfCasCtrl k b
    | 0x10 => fieldsOfCasDrive k b
    | 0x18 => fieldsOfCasLife k b
    | 0x20 => fieldsOfCasSerial k b
    | _ => []
  else []

/-- A place in register space (R20): a block and an offset; none outside every block. -/
inductive RegPlace where
  | global (off : Nat)
  | region (r off : Nat)
  | die (k off : Nat)
  | mirror (off : Nat)
  deriving DecidableEq, Repr

def regPlace (a : Nat) : Option RegPlace :=
  if a < regSpace ∨ regSpace + 0x80000000 ≤ a then none
  else
    let o := a - regSpace
    if o < 0x01000000 then some (.global o)
    else if o < 0x21000000 then some (.region (o / 0x01000000 - 1) (o % 0x01000000))
    else if 0x40000000 ≤ o ∧ o < 0x44000000 then some (.die ((o - 0x40000000) / 0x01000000) (o % 0x01000000))
    else if 0x7F000000 ≤ o then some (.mirror (o - 0x7F000000))
    else none

/-- Fields of the word at a place. -/
def placeFields : RegPlace → List Fld
  | .global off => globalFields off
  | .region r off => regionFields r off
  | .die k off => dieFields k off
  | .mirror off => if off = 0x1000 then fieldsOfMirrorStat else if off = 0x1008 then fieldsOfMirrorTime else []

end Sys2Proof.Machine
end

