-- ==== Sys2Proof/Machine/State.lean ====
section
/-! DEFINITION. The state of the module: the register file, the stores, and every piece of state that the prose of the spec names. -/
namespace Sys2Proof.Machine

/-- Why the machine stops. -/
inductive Fault where
  /-- Raised by INPUT_VOLTAGE_CHANGE for a magnitude beyond the absolute maximum ratings (R454), for which the spec gives no
  behaviour. Safe: no statement about a next state covers it. -/
  | beyondRatings
  deriving DecidableEq, Repr

/-- Why the model gives no meaning. -/
inductive Refusal where
  /-- Raised by Dispatch.lean alone, for a command that has no meaning yet. Safe. -/
  | notModelled (mnemonic : String)
  deriving DecidableEq, Repr

/-! ## Stores (08_memory_hierarchy) -/

/-- ECC trouble of one 64-byte stack unit or 64-bit SRAM word (R189, R202, R462): a correctable flip and its device, an
uncorrectable one, and whether an injection took part (R439). -/
structure Mark where
  ce : Option Nat := none
  ue : Bool := false
  inj : Bool := false
  deriving DecidableEq, Repr

/-- A cached line of a region's stack (R191-R193): the step in which it was last written, its uncorrectable 64-bit words, when it was last
used, and, while it is dirty, the 256 bytes that the stack still holds under it. -/
structure Line where
  dirty : Bool := false
  step : Option Nat := none
  bad : List Nat := []
  inj : Bool := false
  used : Nat := 0
  under : List Byte := []
  deriving DecidableEq, Repr

/-! ## The hub (09_hub_scheduler) -/

/-- The states of a live command (R213). -/
inductive LiveSt where
  | waiting | dispatched | retiring
  deriving DecidableEq, Repr

/-- What a unit reports of a finished command (R222). -/
structure Res where
  status : Nat := 0
  flags : Nat := 0
  progress : Nat := 0
  cycles : Nat := 0
  bytes : Nat := 0
  /-- the `PROGRESS` of the record, should the command end `ABORTED` (R229) -/
  work : Nat := 0
  deriving DecidableEq, Repr

/-- A live command: fetched and not done. -/
structure Live where
  id : Nat
  q : Nat
  bytes : List Byte
  st : LiveSt := .waiting
  /-- the step counter at dispatch (R214) -/
  step : Nat := 0
  /-- dispatch order -/
  disp : Nat := 0
  /-- the unit has started it -/
  started : Bool := false
  /-- struck while dispatched at a unit that can stop (R228) -/
  struck : Bool := false
  /-- `ABORT_LATE` is due (R230) -/
  late : Bool := false
  /-- the timeout record of R218 was raised -/
  timedOut : Bool := false
  /-- an MXE command that ended with its tile held (R98) -/
  holds : Bool := false
  /-- a queue-fed VE command that has started and has not popped the entry marked `LAST` of its stream (R109) -/
  unread : Bool := false
  /-- struck by the drain before a rerun: it signals nothing (R380) -/
  drained : Bool := false
  /-- a `PAN_PUT` dispatched after a `PAN_GET` of its step in an all-forward job (R277) -/
  barred : Bool := false
  /-- commands that this abort hit, late ones too, which must complete before its grant (R223, R230) -/
  waitFor : List Nat := []
  deriving DecidableEq, Repr

/-- A pending retire request (R221), of a live command or of a posted descriptor (R231). -/
structure Req where
  cmd : Option Nat
  q : Nat
  disp : Nat
  cq : Nat
  tag : Nat
  ts : Bool
  noCq : Bool
  res : Res
  deriving DecidableEq, Repr

/-- A completion record on its way to its ring (R221, R224): queue, slot address, its 32 bytes; the command, which has left the live set,
and whether its write is known to be issued, so that no strike finds the command RETIRING any more (R230). -/
structure RecWrite where
  cmd : Option Nat
  q : Nat
  cq : Option Nat
  addr : Nat
  bytes : List Byte
  status : Nat
  event : Bool
  live : Option Live := none
  issued : Bool := false
  deriving DecidableEq, Repr

/-- A remote signal that a full store refused (R217), with the command it belongs to. -/
structure Refused where
  cmd : Nat
  q : Nat
  region : Nat
  token : Nat
  count : Nat
  step : Nat := 0
  tag : Nat := 0
  deriving DecidableEq, Repr

/-- One region's hub. -/
structure Hub where
  live : List Live := []
  nextId : Nat := 0
  nextDisp : Nat := 1
  /-- queues that stopped fetching on an error until they are enabled again (R208) -/
  noFetch : List Nat := []
  /-- the queue dispatched from last (R214) -/
  lastQ : Nat := 7
  /-- input FIFOs, by unit (R214) -/
  fifo : Tab (List Nat) := []
  reqs : List Req := []
  writes : List RecWrite := []
  /-- retire history: the tags of the last 32 retirements, by queue, newest first, none for a `HUB_ABORT`, which no strike hits (R227,
  R228) -/
  hist : Tab (List (Option Nat)) := []
  /-- program store: slot `s` of queue `q` at `q × 1024 + s` (R207) -/
  store : Tab (List Byte) := []
  /-- `CMD_N` by queue -/
  progN : Tab Nat := []
  /-- looping programs at their wrap point (R219) -/
  atWrap : List Nat := []
  stepLimit : Nat := 0
  /-- no command of q4-q7 has been dispatched since the counter last advanced: the present step has not started (R282) -/
  fresh : Bool := true
  /-- advances since the program was loaded (R219) -/
  advanced : Nat := 0
  /-- reasons to stall at the next step increment, and reasons that stall the programs now: 1 a partial (R52), 2 a derailleur run
  (R268), 3 a fatal-module error (R433), 4 a checkpoint (R378), 5 a quiesce (R428) -/
  asks : List Nat := []
  stalled : List Nat := []
  /-- draining for a rerun (R380) -/
  draining : Bool := false
  unsettled : List Refused := []
  /-- how commands that a unit submitted itself have ended, by number (R145, R179); they are live under queue number 8 -/
  subs : Tab Res := []
  /-- the drain of R380 has struck the commands of q4-q7 -/
  drainStruck : Bool := false
  /-- token images latched at the starts of steps, newest first (R380, R371) -/
  images : List (Nat × Tab Nat) := []
  deriving DecidableEq, Repr

/-! ## Engines -/

/-- An entry of the finished-tile queue (R106): 64-byte header fields and the tile's binary32 values, row-major. -/
structure TqEntry where
  stream : Nat
  last : Bool := false
  term : Bool := false
  nonfinite : Bool := false
  flushed : Bool := false
  denseFb : Bool := false
  rows : Nat := 0
  cols : Nat := 0
  row0 : Nat := 0
  col0 : Nat := 0
  sA : Nat := 0x3F800000
  sB : Nat := 0x3F800000
  seq : Nat := 0
  selBase : Nat := 0
  /-- of a command over selected columns (R105, R126) -/
  select : Bool := false
  present : Nat := 0xFFFFFFFFFFFFFFFF
  vals : List Nat := []
  /-- the product's `N`, which a queue-fed row kernel's rows must have (R133); not a field of the header -/
  n : Nat := 0
  /-- `TM` of its command, the rows of a strip (R133); not a field of the header either -/
  tm : Nat := 0
  /-- a terminator carries the status of its command (R108) -/
  status : Nat := 0
  deriving DecidableEq, Repr

/-- The held tile of a cluster (R98). -/
structure Held where
  row0 : Nat
  col0 : Nat
  rows : Nat
  cols : Nat
  flags : Nat
  vals : List Nat
  /-- what R98 compares a continuing command with -/
  key : List Nat
  /-- the command that holds it -/
  cmd : Nat
  deriving DecidableEq, Repr

/-- What a tile, or the tiles so far, add to an MXE command's record and to `MXE_XSTAT` (R100, R110). -/
structure MxeStat where
  flushes : Nat := 0
  nfIn : Bool := false
  nfAcc : Bool := false
  rsvd : Bool := false
  dense : Bool := false
  cycles : Nat := 0
  bytes : Nat := 0
  deriving DecidableEq, Repr

/-- A running MXE command: the entries it has still to push (R107), each with what its tile adds to the counts; what the tiles pushed so
far have added; what the command's record holds beside that. -/
structure MxeRun where
  /-- none for the replay that a prime epilogue submits (R130) -/
  cmd : Option Nat
  stream : Nat
  drain : List TqEntry
  stats : List MxeStat := []
  seen : MxeStat := {}
  pushed : Nat := 0
  res : Res
  deriving DecidableEq, Repr

/-- A VE command in progress: its phase, 0 consuming queue entries, 1 waiting for acknowledgements (R149), 2 waiting under R74,
3 waiting for its scale record; whether it is in its prime pass, or consumes a replay (R130). -/
structure VeRun where
  cmd : Nat
  /-- its descriptor as read at the start, and whether it takes entries of the queue -/
  desc : List Byte := []
  qfed : Bool := false
  phase : Nat := 0
  prime : Bool := false
  replay : Bool := false
  /-- its scale record could not be had: nothing of the scaled output is written (R464) -/
  noRec : Bool := false
  /-- it popped a terminator (R108, R150) -/
  term : Bool := false
  /-- the product that feeds it is of selected columns (R105, R130) -/
  sel : Bool := false
  /-- `SCALE` as read at the start (R72), and `PRODUCERS` (R74) -/
  scale : Nat := 0
  producers : Nat := 0
  /-- rows completed, or entries consumed -/
  progress : Nat := 0
  /-- bits of the flag word raised so far (R135), and bit 8 for a masked row -/
  flags : Nat := 0
  status : Nat := 0
  cycles : Nat := 0
  bytes : Nat := 0
  outstanding : Nat := 0
  amax : Nat := 0
  sat : Nat := 0
  /-- home region and range of its adds (R149) -/
  ranges : List (Nat × Nat × Nat) := []
  deriving DecidableEq, Repr

/-- A `PRED_RUN` in progress (R177): its descriptor, the step it is in, the command it has submitted; F and S, k, the misses. -/
structure PredRun where
  cmd : Nat
  prd : List Byte
  full : Bool := false
  useList : Bool := false
  stage : Nat := 0
  sub : Option Nat := none
  /-- the step counter at the start (R177) -/
  t : Nat := 0
  f : List Nat := []
  k : Nat := 0
  miss : List Nat := []
  steps : Nat := 0
  res : Res := {}
  deriving DecidableEq, Repr

/-- One cluster's engines. -/
structure Cluster where
  tq : List TqEntry := []
  held : Option Held := none
  mxe : Option MxeRun := none
  /-- commands that have started behind it: the one whose first tile accumulates in the free bank while the last tile of `mxe` drains
  (R99), and a replay behind that (R130) -/
  mxeNext : List MxeRun := []
  ve : Option VeRun := none
  pred : Option PredRun := none
  /-- streams whose entries are still discarded (R109) -/
  discard : List Nat := []
  /-- terminators of commands that never started (R108), each with the dispatch number that it stands before: it enters the queue after
  the entries of every command dispatched earlier (R99) -/
  owed : List (Nat × TqEntry) := []
  /-- the VE's subnormal path is powered down (R356) -/
  subDown : Bool := false
  deriving DecidableEq, Repr

/-- One die's update engine: the update in progress, its descriptor as read at the start, and its phase: 0 waiting for SCANNED and the
verdict, 2 waiting for the other producers of its working copy under R74. -/
structure UpeRun where
  cmd : Nat
  ud : List Byte
  phase : Nat := 0
  nf : Nat := 0
  flags : Nat := 0
  cycles : Nat := 0
  bytes : Nat := 0
  deriving DecidableEq, Repr

structure Upe where
  run : Option UpeRun := none
  subDown : Bool := false
  deriving DecidableEq, Repr

/-- States of a pannier entry (R139). -/
inductive PanSt where
  | stored (off : Nat) | spilled (peer addr : Nat) | dropped
  deriving DecidableEq, Repr

/-- A live pannier entry (R139, R140). -/
structure PanEntry where
  layer : Nat
  mb : Nat
  seg : Nat
  bytes : Nat
  st : PanSt
  anchor : Bool
  rprog : Nat
  rprogN : Nat
  anchorPatch : Nat
  destPatch : Nat
  deriving DecidableEq, Repr

/-- A pannier command that waits: for its spill transfer (R141, R465), or for a command of its recompute list (R145). -/
structure PanRun where
  cmd : Nat
  /-- the descriptor and the micro-batch -/
  pd : List Byte := []
  mb : Nat := 0
  /-- how the transfer on the pannier channel ended (R232) -/
  done : Option Res := none
  /-- the entry that a put makes live, or that a get rebuilds -/
  entry : Option PanEntry := none
  /-- a recompute list is due or runs: what is left of it, the command that runs, the range its anchor was read back to -/
  listed : Bool := false
  list : List (List Byte) := []
  sub : Option Nat := none
  back : Option (Nat × Nat) := none
  res : Res := {}
  deriving DecidableEq, Repr

structure Pannier where
  entries : List PanEntry := []
  /-- the lowest stack offset still reserved after a cut (R147) -/
  reservedLo : Option Nat := none
  run : Option PanRun := none
  deriving DecidableEq, Repr

/-! ## DMA (10_dma_engine) -/

/-- A descriptor in a channel's FIFO: its address and the command that submitted it, none for a posted one (R231). -/
structure DmaJob where
  addr : Nat
  cmd : Option Nat
  /-- a transfer of the pannier engine, on account of the pannier command `cmd` (R232) -/
  pan : Bool := false
  deriving DecidableEq, Repr

/-- A contiguous piece of a burst: stream offset, address, length, whether it supplies zeros. -/
structure Piece where
  off : Nat
  addr : Nat
  len : Nat
  zero : Bool := false
  deriving DecidableEq, Repr

/-- A burst in flight: its stream offset and length, the bytes gathered, and the reads still out. -/
structure Burst where
  off : Nat
  len : Nat
  buf : List Byte
  reads : Nat
  deriving DecidableEq, Repr

/-- A transfer in progress; its number tells its answers from those of an earlier transfer. -/
structure Xfer where
  id : Nat
  job : DmaJob
  desc : List Byte
  list : List Piece
  total : Nat
  /-- the entries of the list, and how many of them have been read a second time (R239) -/
  raw : List (List Byte) := []
  reread : Nat := 0
  next : Nat := 0
  started : Nat := 0
  bursts : List Burst := []
  moved : Nat := 0
  /-- acknowledgements still out (R246) -/
  acks : Nat := 0
  status : Nat := 0
  flags : Nat := 0
  struck : Bool := false
  barWait : Bool := false
  /-- of a compressing store: the source bytes gathered; how far it is (0 gathering, 1 all but `COMPLETE` written, 2 that too, 3 refused under
  R172); whether its mask has element bitmaps (R171-R173) -/
  src : List Byte := []
  stage : Nat := 0
  elem : Bool := false
  deriving DecidableEq, Repr

structure Chan where
  fifo : List DmaJob := []
  xfer : Option Xfer := none
  deriving DecidableEq, Repr

/-! ## Chainrings (11_chainrings_and_collectives) -/

/-- A message on a ring, or delivered inside its stop (R254, R255, R463). -/
structure Msg where
  cls : Nat
  src : Nat
  dst : Nat
  ring : Nat := 0
  ackReq : Bool := false
  mfmt : Nat := 0
  len : Nat := 0
  addr : Nat := 0
  mtag : Nat := 0
  step : Nat := 0
  count : Nat := 0
  data : List Byte := []
  /-- of a posted descriptor, which fails no step (R231): model's own -/
  posted : Bool := false
  /-- `RED_ADD`: `SRC_MAP` with each stop's `ACK_SLOT` -/
  srcMap : Tab Nat := []
  rstatus : Nat := 0
  ackSlot : Nat := 0
  anf : Bool := false
  token : Nat := 0
  scount : Nat := 0
  nkind : Nat := 0
  rangeLen : Nat := 0
  vnf : Nat := 0
  sumsq : Nat := 0
  verdict : Nat := 0
  clip : Nat := 0
  lossScale : Nat := 0
  /-- MODEL'S OWN: the step and tag of the command behind a `SIGNAL` or an `ATOMIC`, which its header has no field for (log 58) -/
  acct : Option (Nat × Nat) := none
  /-- the stop where adds or votes were combined into it, from which it goes on (R262), or the last that copied a verdict (R265) -/
  via : Option Nat := none
  deriving DecidableEq, Repr

/-- Who waits for a response or an acknowledgement that carries a tag. -/
inductive Waiter where
  | dmaRead (r ch id off pos : Nat)
  | dmaAck (r ch id : Nat)
  | veAdd (r cl : Nat)
  /-- the reads and atomics of a scale record that lies in another region (R464): 0 the record, 1 an amax, 2 `SAT_COUNT`, 3 `PRIME_DONE`,
  with the value that a compare-and-swap expects -/
  | veRec (r cl what old : Nat)
  | slice (r index : Nat)
  /-- a signal of a command, with its step (R216) -/
  | signal (r cmd q step : Nat)
  /-- a page of weights on its way to its landing area (R304): peer, stream, page -/
  | wt (p stream off : Nat)
  /-- a derailleur message: table entry, offset in the entry, bytes (R270) -/
  | derail (entry off len : Nat)
  | nobody
  deriving DecidableEq, Repr

/-- One stop's links: the next sequence number and the failed checks of the flit in hand, by ring × 2 + direction (R252, R253). -/
structure Stop where
  lseq : Tab Nat := []
  fails : Tab Nat := []
  /-- replays since the last record, and links whose failed checks were injected (R253, R439) -/
  replays : Tab Nat := []
  tainted : List Nat := []
  /-- flits so far of the message that each link and virtual channel brings, by (ring × 2 + direction) × 2 + `VC` (R252, R256) -/
  frames : Tab (List Byte) := []
  /-- the retry buffer of each outgoing link, oldest first, sideband bits [15:0] with each flit; its next sequence number (R253) -/
  sent : Tab (List (Nat × List Byte)) := []
  sseq : Tab Nat := []
  /-- flits of the retry buffer that a replay sends again on an outgoing link, and that the next stop has not accepted yet (R253) -/
  again : Tab (List (Nat × List Byte)) := []
  /-- signals held for a parked or dark region (R267) -/
  signals : List Msg := []
  /-- requests held at their issuing stop (R350) -/
  held : List Msg := []
  deriving DecidableEq, Repr

/-! ## The gate (06_training_dataflow) -/

/-- Votes counted for a step (R152, R153). -/
structure Tally where
  count : Nat := 0
  nf : Bool := false
  fail : Bool := false
  sumsq : Nat := 0
  voters : List Nat := []
  deriving DecidableEq, Repr

structure Gate where
  tally : Tab Tally := []
  /-- the next step to decide: verdicts leave in step order -/
  next : Nat := 0
  /-- steps failed under R154, R259 or R433 before their votes were in -/
  forced : List Nat := []
  /-- voters whose drained report is in (R380) -/
  drained : List Nat := []
  /-- steps failed by a fence (R154, R380) -/
  byFence : List Nat := []
  /-- the failed step whose rerun is prepared -/
  rerun : Option Nat := none
  /-- its FAIL, or that of a later step, came from a fence (R380) -/
  fenceFail : Bool := false
  clip : Nat := 0x3F800000
  /-- steps whose timeout has been raised (R154) -/
  warned : List Nat := []
  deriving DecidableEq, Repr

/-- A verdict as a hub received it (R155): 1 COMMIT, 2 SKIP, 3 FAIL; its clip factor, the loss scale it carries, and the one that was in
force for its step. -/
structure Verd where
  v : Nat
  clip : Nat
  scale : Nat
  used : Nat
  deriving DecidableEq, Repr

/-- A region's part in the dataflow: NONFINITE and contained faults by step (R152, R155). -/
structure Flow where
  nf : List Nat := []
  fail : List Nat := []
  sumsq : Tab Nat := []
  /-- steps below this one have their verdict -/
  done : Nat := 0
  /-- steps below this one have been voted on -/
  voted : Nat := 0
  /-- step of the last journal record made durable, plus one (R370, R374) -/
  durable : Nat := 0
  /-- what the votes cast so far said of a step: 1 `NF`, 2 `FAIL` -/
  told : Tab Nat := []
  /-- slices released and scanned: the step, plus one, by index (R151) -/
  released : Tab Nat := []
  scanned : Tab Nat := []
  /-- pages of outbound slices not yet acknowledged, by index -/
  acks : Tab Nat := []
  /-- verdicts received, by step -/
  verds : Tab Verd := []
  /-- loss scale in effect for the next step, and the clip factor of the last COMMIT (R137) -/
  ls : Nat := 0
  clip : Nat := 0x3F800000
  /-- steps under which a `PAN_GET` was dispatched (R277), and the first step to which R277 applies (R282) -/
  gets : List Nat := []
  afFrom : Nat := 0
  /-- steps below this one have their journal record written, acknowledged or not (R371) -/
  journaled : Nat := 0
  /-- ranges that updates wrote, with their step (R371) -/
  updated : List (Nat × Nat × Nat) := []
  deriving DecidableEq, Repr

/-! ## The bitstream in force (02_configuration_bitstream) and seams (17) -/

/-- A seam: members in rank order, parity regions, covered range, members folded away and members that a fold in progress removes (R369), pb validity (R363) and state (R366):
0 unused, 1 INTACT, 2 DEGRADED, 3 FOLDING, 4 UNPROTECTED, 5 LOST. -/
structure Seam where
  members : List Nat := []
  pa : Nat := 0
  pb : Nat := 0
  off : Nat := 0
  len : Nat := 0
  folded : List Nat := []
  leaving : List Nat := []
  pbValid : Bool := false
  st : Nat := 0
  deriving DecidableEq, Repr

/-- A verified partial that waits for its hubs (R52): the sections it carries, its digest and sequence number. -/
structure Partial where
  secs : Tab (List Byte)
  digest : List Byte
  seq : Nat
  affected : List Nat
  deriving DecidableEq, Repr

/-- The bitstream in force: section contents by type, region uses resolved under R33 (0 excluded, 1 runs, 2 spare, 3 runs degraded). -/
structure Chezil where
  loaded : Bool := false
  secs : Tab (List Byte) := []
  use : Tab Nat := []
  /-- highest BS_SEQ applied (R389), JOB_ID and signer of the bitstream in force (R397) -/
  seq : Nat := 0
  jobId : List Byte := List.replicate 16 0
  /-- `BASE` of each tensor of the last full load, by number (R358) -/
  placed : Tab Nat := []
  signer : List Byte := List.replicate 32 0
  part : Option Partial := none
  deriving DecidableEq, Repr

/-! ## The derailleur (11_chainrings_and_collectives) -/

/-- One table entry of a run (R44, R270): its ranges, the entry that names its cycle (its own number in a chain), and how far it
is: 0 waiting, 1 moving, 2 finished, 3 stopped by a loss; its chunk or round, the messages of it still out, and what has landed in staging. -/
structure DrlEntry where
  src : Nat
  srcOff : Nat
  dst : Nat
  dstOff : Nat
  len : Nat
  group : Nat
  cycle : Bool
  st : Nat := 0
  round : Nat := 0
  out : Nat := 0
  buf : Tab (List Byte) := []
  deriving DecidableEq, Repr

/-- A derailleur run: the regions its table names, those fenced at its start, whether its data moves yet, and whether it has lost a
region and finishes the rounds already begun (R271). -/
structure DrlRun where
  table : Nat
  armed : Bool
  named : List Nat
  fencedAt : List Nat
  entries : List DrlEntry
  moving : Bool := false
  lost : Bool := false
  deriving DecidableEq, Repr


/-! ## Errors and injection (21_errors_and_injection) -/

/-- An error record (R431). -/
structure ErrRec where
  code : Nat
  sev : Nat
  injected : Bool := false
  merged : Bool := false
  source : Nat
  unit : Nat := 0
  seq : Nat := 0
  count : Nat := 1
  step : Option Nat := none
  d0 : Nat := 0
  d1 : Nat := 0
  time : Nat := 0
  timeValid : Bool := false
  deriving DecidableEq, Repr

/-- An armed injection (R437, R471): firings left, none for a MODE 2 window. -/
structure Inj where
  code : Nat
  mode : Nat
  stop : Nat
  unit : Nat
  value : Nat
  left : Option Nat
  deriving DecidableEq, Repr

/-- An event that waits for the event ring (R298, R299). -/
structure Event where
  kind : Nat
  src : Nat
  time : Nat
  timeValid : Bool
  payload : List Byte
  deriving DecidableEq, Repr

/-! ## Queue pairs (13_ethernet_and_skojo) -/

/-- What a request of the module's own serves. -/
inductive QpUse where
  | dmaWrite (r ch id : Nat)
  | dmaRead (r ch id off : Nat)
  | event
  | tail
  | key
  | snapshot (r : Nat)
  | journal (r : Nat)
  | manifest
  | gradient (stream off par : Nat)
  /-- a Skojo message that waits for nothing: GR_DONE, STEP_CLOSE, NONFINITE, REPLICA_DROP -/
  | skojo (stream : Nat)
  deriving DecidableEq, Repr

/-- A request of the module's own: 0 WRITE, 1 READ, 2 SEND. -/
structure QpReq where
  op : Nat
  addr : Nat := 0
  len : Nat := 0
  data : List Byte := []
  use : QpUse
  /-- retries made, and RNR retries made (R297) -/
  tries : Nat := 0
  rnr : Nat := 0
  deriving DecidableEq, Repr

/-- A request held at the port die for a parked region (R351). -/
inductive HeldReq where
  | write (src : PktSrc) (rkey : W32) (addr : W64) (data : List Byte)
  | writeImm (src : PktSrc) (rkey : W32) (addr : W64) (data : List Byte) (imm : W32)
  | read (src : PktSrc) (rkey : W32) (addr : W64) (len : Nat)
  deriving DecidableEq, Repr

/-- A peer entry (R292) with the state of its queue pair: sequence numbers, requests out, sending rate as `num / (100 × 2^log)` of the
line rate (R289), requests held under R351. -/
structure Peer where
  entry : List Byte := List.replicate 64 0
  err : Bool := false
  sqPsn : Nat := 0
  rqPsn : Nat := 0
  out : List QpReq := []
  rateNum : Nat := 100
  rateLog : Nat := 0
  held : List HeldReq := []
  /-- weight writes out, by tag, and WT_DONEs that wait for some of them (R304): stream and tags -/
  wt : List Nat := []
  wtDone : List (Nat × List Nat) := []
  deriving DecidableEq, Repr

/-- The RoCEv2 packets of a queue pair that leave: answers, the module's own requests, CNPs. -/
inductive Pkt where
  | ack (peer : Nat)
  | nak (peer : Nat) (syndrome : Nat)
  | data (peer : Nat) (bytes : List Byte)
  | request (peer op addr len : Nat) (bytes : List Byte)
  | cnp (peer : Nat)
  deriving DecidableEq, Repr

/-- What the frames of a packet carry outside it: port and half, the 802.1Q tag, the IP DSCP and the ECN field (R287, R289), and the
SecTAG: the association and the packet number of the first frame (R290). -/
structure FrameHdr where
  port : Nat
  half : Nat
  vid : Nat
  pcp : Nat
  dscp : Nat
  ecn : Nat
  sec : Option (Nat × Nat) := none
  deriving DecidableEq, Repr

/-- What leaves the module: packets in their frames, PFC frames, the housekeeping port's and the meter's answers. -/
inductive Out where
  | roce (hdr : FrameHdr) (pkt : Pkt)
  | pfc (port half prio : Nat) (pause : Bool)
  | housekeeping (bytes : List Byte)
  | meter (bytes : List Byte)
  /-- pulses of the meter's test output (R399) -/
  | pulses (n : Nat)
  deriving DecidableEq, Repr
/-- One entry of a stream table (R303) with its state: whether it waits for STEP_OPEN (R307), whether a first STEP_OPEN has set
`CUR_STEP`, the module step whose pages carry `CUR_STEP` once one has been sent, pages sent, GR_DONE sent, the closes it owes after
GR_DONE by module step, a push that failed to land (R304), whether it awaits a rerun, and the module step whose pages a drop has
discarded (R310). -/
structure Stream where
  entry : List Byte := List.replicate 32 0
  waitOpen : Bool := true
  curSet : Bool := false
  mstep : Option Nat := none
  pushed : Nat := 0
  done : Bool := false
  closes : List (Nat × Nat) := []
  wtFail : Bool := false
  afterFail : Bool := false
  gone : Option Nat := none
  deriving DecidableEq, Repr

/-- A page of a port die's outbound accumulator (R305, R306): 0 collecting, 1 complete and waiting for its loss scale, 2 scaled and
unsent, 3 sent and not yet acknowledged. -/
structure Page where
  pd : Nat
  tensor : Nat
  off : Nat
  step : Nat
  pw16 : Bool
  data : List Byte
  count : Nat
  /-- stops that wait for their `RED_ACK`, with their `ACK_SLOT` -/
  acks : Tab Nat := []
  ring : Nat := 0
  st : Nat := 0
  deriving DecidableEq, Repr

/-- One port's or half's MACsec (R290, R395): receive keys by association number with their salts and SSCIs (52 bytes), the packet number
last accepted under each, the association that transmits, those to switch to, those whose 10 s run, the next packet number to send under
each where it is not 1, and whether an association has used its last packet number. -/
structure MacSec where
  rx : Tab (List Byte) := []
  pns : Tab Nat := []
  tx : Option Nat := none
  next : List Nat := []
  old : List Nat := []
  sent : Tab Nat := []
  spent : Bool := false
  deriving DecidableEq, Repr

/-! ## Cassettes and the meter (14_optics_and_laser_cassettes, 19_tvedot_meter) -/

/-- A laser bay beside its registers: 0 nothing in progress, 1 authenticating, 2 warming, 3 ramping in, 4 its partner ramps up for its
release, 5 it goes down (R319, R322); the certificate as read, and the nonce of the challenge in progress; the temperature last measured,
which an injected reading covers for its time (R437); `LASER_FAIL` before the cassette overheated (R315); whether the bay indicator shows
green (R322); and the lowest and the highest sum of the squares of its lasers' drives since its last life increment (R320). -/
structure Bay where
  phase : Nat := 0
  cert : List Byte := []
  nonce : List Byte := []
  temp : Nat := 0
  fails : Nat := 0
  green : Bool := false
  low : Option Nat := none
  high : Nat := 0
  deriving DecidableEq, Repr

/-- A scheduled `OPEN` or `CLOSE` (R409): the epoch whose start it takes effect at, and the new account, 0 for idle. -/
structure Sched where
  epoch : Nat
  account : Nat
  deriving DecidableEq, Repr

/-- The Tvedot meter. Energies are in mJ; the log by `L_SEQ`; `tx` holds what its transmitter has still to send: 0 a reading, 1 a log
entry, 2 the identification record, 3 the certificate (R417); `shown` is what its window shows (R402). -/
structure Meter where
  on : Bool := true
  serial : Nat := 0
  cert : List Byte := meterCertOf 0 (List.replicate 32 0)
  lrDigest : List Byte := List.replicate 32 0
  paramDigest : List Byte := List.replicate 32 0
  version : Nat := 0
  taNumber : List Byte := List.replicate 32 0
  epoch : Nat := 0
  utc : Nat := 0
  total : Nat := 0
  idle : Nat := 0
  acct : Nat := 0
  account : Nat := 0
  openEpoch : Nat := 0
  key : Option (List Byte) := none
  cSeq : Option Nat := none
  sched : Option Sched := none
  cover : Bool := false
  housing : Bool := false
  magnetic : Bool := false
  service : Bool := false
  fault : Bool := false
  range : Bool := false
  log : Tab (List Byte) := []
  logNext : Nat := 0
  logAcked : Nat := 0
  lost : Nat := 0
  page : Nat := 1
  downShown : Bool := false
  shown : List Byte := ascii "0.0000"
  tx : List (Nat × List Byte) := []
  deriving DecidableEq, Repr

/-- The mirror (R417). -/
structure Mirror where
  reading : List Byte := []
  swid : List Byte := []
  cert : List Byte := []
  log : Tab (List Byte) := []
  deriving DecidableEq, Repr


/-! ## Power and heat (15_power_delivery, 16_clocks_thermal_and_modes) -/

/-- What the sequencer and the controllers hold of a region beside its registers: the cuff target (R340, R342) and the thermal target
(R347), `none` where they set no limit; the temporary cut of R338 in W; its draw before it was parked, and whether its own cuff parked it (R341, R342); unparked and on its way
through admission; a fatal detector on its way to the CPC: code, `UNIT`, `DETAIL1`, injected (R364); a trip that R335 has still to probe, and
whether it was injected; whether an injected condition took part in its fence, or in its thermal park (R439); a committed step whose update the loss interrupted (R370); the deferral of its power-on request in units of
100 µs (R338); a probe on its way through admission, and whether it trips (R335). -/
structure Plant where
  cuffMhz : Option Nat := none
  thermMhz : Option Nat := none
  cut : Nat := 0
  draw0 : Nat := 0
  ownPark : Bool := false
  unparked : Bool := false
  due : Option (Nat × Nat × Nat × Bool) := none
  probe : Option Bool := none
  lostInj : Bool := false
  parkInj : Bool := false
  interrupted : Option Nat := none
  deferred : Nat := 0
  probing : Option Bool := none
  deriving DecidableEq, Repr

/-! ## Snapshots and checkpoints (17_resilience_and_checkpoints) -/

/-- A body entry (R373): kind, address, data. -/
structure SnapEntry where
  kind : Nat
  addr : Nat
  data : List Byte
  deriving DecidableEq, Repr

/-- An object of a chain (R372) as written: kind, `SN_STEP`, digest, offset from `SNAP_ADDR` and `SN_BYTES`, entries, and the step whose
verdict it follows. -/
structure SnapObj where
  kind : Nat
  step : Nat
  digest : List Byte
  off : Nat
  entries : List SnapEntry
  len : Nat := 0
  upto : Nat := 0
  deriving DecidableEq, Repr

/-- What the image that `RS_GO` last made at `RS_DEST` brings back beside memory (R376, R377): the region it stands in, its `SN_STEP`, its
token image and its step record. -/
structure RsImage where
  region : Nat
  step : Nat
  tokens : Tab Nat
  record : List Byte
  deriving DecidableEq, Repr

/-- A region's chain (R374, R375): durable objects, the newest snapshot first of all, and objects whose writes are not yet acknowledged. -/
structure Chain where
  objs : List SnapObj := []
  out : List SnapObj := []
  deriving DecidableEq, Repr

/-- The CPC's snapshot state: committed steps since the last snapshot, a snapshot asked for (`SNAP_NOW`, a new checkpoint key) or due,
snapshots begun, bytes used of the half in use, snapshot objects still out, the checkpoint in progress (1 the hubs stall, 2 its objects
are out, 3 so, and one is lost), and the writes of it still out. -/
structure Snaps where
  commits : Nat := 0
  asked : Bool := false
  due : Bool := false
  begun : Nat := 0
  fill : Nat := 0
  out : Nat := 0
  ckpt : Nat := 0
  ckptOut : Nat := 0
  /-- steps below this one had their verdict before `SNAP_EN` was set: they owe no journal record (R374) -/
  since : Nat := 0
  deriving DecidableEq, Repr

/-! ## The module -/

/-- The state of the module. Registers live in `regs`, each field under its bit address (RegMap.lean); an unlisted field holds its
reset value. -/
structure State where
  regs : Tab Nat := []
  /-- bytes of every store by home device address; an unlisted byte reads 0 (R189, R201) -/
  mem : Tab Byte := []
  /-- ECC trouble by home address of the unit -/
  marks : Tab Mark := []
  /-- cached lines by home address / 256 -/
  lines : Tab Line := []
  bs : Chezil := {}
  seams : Tab Seam := []
  /-- 8 MiB LLM units: mode by die × 16 + unit (R190), and the mode a retained unit is to take (R199) -/
  units : Tab Nat := []
  retained : Tab Nat := []
  hubs : Tab Hub := []
  clusters : Tab Cluster := []
  upes : Tab Upe := []
  pans : Tab Pannier := []
  chans : Tab Chan := []
  ring : List Msg := []
  stops : Tab Stop := []
  waiters : Tab Waiter := []
  /-- requests whose answers are out, by tag: the issuing stop keeps them to send them again (R350) -/
  asked : Tab Msg := []
  nextTag : Nat := 0
  peers : Tab Peer := []
  /-- stream tables, by port die × 1024 + index; outbound accumulators; the loss scale each port die holds for each step (R306) -/
  streams : Tab Stream := []
  pages : List Page := []
  pdScale : Tab (Tab Nat) := []
  /-- the derailleur run in progress (R270) -/
  drl : Option DrlRun := none
  /-- chunks of fenced members that the background rebuild has written: member, stack offset and target (R368) -/
  rebuilt : List (Nat × Nat × Nat) := []
  /-- what has left the module, oldest first -/
  outbox : List Out := []
  gate : Gate := {}
  flows : Tab Flow := []
  errq : List ErrRec := []
  errSeq : Nat := 0
  inj : Option Inj := none
  evbuf : List Event := []
  evSeq : Nat := 0
  /-- records at the head of the event buffer that are written and not yet acknowledged, and those of them written before `EVT_EN` was last set (R298) -/
  evOut : Nat := 0
  evPre : Nat := 0
  /-- events lost since the last overflow record (R299) -/
  evLost : Nat := 0
  plants : Tab Plant := []
  /-- regions parked for a cuff, last parked first (R342) -/
  parkOrder : List Nat := []
  /-- stage 1 stands still: 0 no, 1 for an input above 60 V, 2 for one below 36 V or reversed (R324) -/
  inputStop : Nat := 0
  /-- the voltage at the lugs in mV and whether it is reversed, which an injected reading covers for its time (R437); segments with a short
  (R327) -/
  inputMv : Nat := 0
  inputRev : Bool := false
  shorted : List Nat := []
  /-- converters that have failed (R325) -/
  convDead : List Nat := []
  /-- corrections by region, pass (patrol, extra) and device within the scrub passes in progress (R202) -/
  scrubDevs : Tab Nat := []
  /-- units found uncorrectable and not yet restored or rewritten (R379) -/
  found : List Nat := []
  /-- 1 GiB stretches of stacks that have lost their zero-baseline mark, by region × 128 + index (R422) -/
  unzeroed : List Nat := []
  /-- the two AES-XTS keys of each region that has power (R201, R396): 64 bytes -/
  stkKeys : Tab (List Byte) := []
  /-- port dies that have lost their power (R327, R424) -/
  pdOff : List Nat := []
  /-- seams with a refresh pass in progress (R362), regions whose Seams step is due (R364) -/
  refreshing : List Nat := []
  seamsDue : List Nat := []
  chains : Tab Chain := []
  snaps : Snaps := {}
  /-- the image of the last `RS_GO`, until a partial or a full load takes it up (R377) -/
  rsImage : Option RsImage := none
  /-- the checkpoint key in use, one installed for the next snapshot, and the previous one while chains in use need it (R395) -/
  ckptKey : Option (List Byte) := none
  ckptNew : Option (List Byte) := none
  ckptOld : Option (List Byte) := none
  /-- MACsec by port × 2 + half (R290) -/
  macsec : Tab MacSec := []
  /-- bytes in the receive buffers and classes under XOFF, by port × 8 + half × 4 + class (2 for other priorities); transmission paused, by port × 16 + half × 8 +
  priority, and what waits for it (R288) -/
  buffers : Tab Nat := []
  xoffs : List Nat := []
  paused : List Nat := []
  txWait : List (Nat × FrameHdr × Pkt) := []
  /-- fused: the vendor key's hash, the module's serial number, the identity certificate; hashes burnt into owner slots (R383-R386) -/
  vendorHash : List Byte := List.replicate 32 0
  serial : Nat := 0
  idCert : List Byte := idCertOf devIdPart.reset 0 (List.replicate 32 0)
  owners : Tab (List Byte) := []
  /-- housekeeping flash: firmware banks by target × 2 + bank, an unlisted bank holding the image of manufacture (R388), and the
  provisioning list (R447) -/
  flash : Tab (List Byte) := []
  prov : List (List Byte) := []
  /-- measurements M0-M3 (R388) -/
  meas : Tab (List Byte) := []
  /-- both roots have failed (R382) -/
  rootLost : Bool := false
  /-- the transport key: its draw and the installs made under it (R393) -/
  kt : Option (Nat × Nat) := none
  /-- buffers of register space (R390, R393, R397) -/
  cmdBuf : List Byte := []
  quote : List Byte := []
  ktCert : List Byte := []
  /-- a `LOAD` written before step 13, or an activation or quiesce in progress: 1 stall, 2 flush (R421, R428, R430) -/
  loadHeld : Bool := false
  quiescing : Nat := 0
  activating : Bool := false
  /-- detectors forced at the next reset that R436 names, by code and stop (R437, R471) -/
  bootInj : List (Nat × Nat) := []
  /-- ports of 00-03 whose links come up once step 7 has brought them light (R419) -/
  linkUps : List Nat := []
  bays : Tab Bay := []
  meter : Meter := {}
  mirror : Mirror := {}
  /-- the mode whose per-command settings each region applies (R357) -/
  cmdMode : Tab Nat := []
  /-- MODEL'S OWN: index of the free values of Config (log 5) -/
  tick : Nat := 0
  /-- the commands that wait, first in, first out -/
  pending : List Instr := []
  deriving DecidableEq, Repr

/-- The module right after a cold reset, before COLD_START runs its steps (R419): every register at its reset value, empty stores. -/
def State.reset : State := {}

end Sys2Proof.Machine
end

