-- ==== Sys2Proof/Machine/Ops.lean ====
section
/-! DEFINITION. Shared operations: the register file, free values, error records (R431-R436), faults against steps (R226), the address
map (R15-R22), and reads and writes of the stores with their ECC, cache and seam effects (R188-R193, R202, R360, R462). -/
namespace Sys2Proof.Machine

/-! ## Registers -/

/-- The value of a register field. -/
def State.get (s : State) (f : Fld) : Nat := (tabFind f.key s.regs).getD f.reset

/-- A register field set to a value, cut to its width. -/
def State.put (s : State) (f : Fld) (v : Nat) : State := { s with regs := tabPut f.key (v % 2 ^ f.w) s.regs }

/-- Is a one-bit field set? -/
def State.on (s : State) (f : Fld) : Bool := decide (s.get f = 1)

/-- A flag set or cleared. -/
def State.putB (s : State) (f : Fld) (b : Bool) : State := s.put f (b2n b)

/-- A counter that stops at its maximum. -/
def State.bump (s : State) (f : Fld) (n : Nat) : State := s.put f (satAdd f.w (s.get f) n)

/-- A field or register back at its reset value. -/
def State.clear (s : State) (f : Fld) : State := s.put f f.reset

/-- Fields put to values, in order. -/
def State.puts (s : State) (l : List (Fld × Nat)) : State := l.foldl (fun s e => s.put e.1 e.2) s

/-- `QUIESCED`: nothing starts any more (R428). -/
def quiesced (s : State) : Bool := s.on resetCtrlQuiesced

/-! ## Units by number -/

/-- The hub of a region. -/
def State.hub (s : State) (r : Nat) : Hub := tabGet {} r s.hubs
def State.setHub (s : State) (r : Nat) (h : Hub) : State := { s with hubs := tabPut r h s.hubs }
def State.updHub (s : State) (r : Nat) (f : Hub → Hub) : State := s.setHub r (f (s.hub r))
def State.cluster (s : State) (r cl : Nat) : Cluster := tabGet {} (r * 96 + cl) s.clusters
def State.setCluster (s : State) (r cl : Nat) (c : Cluster) : State := { s with clusters := tabPut (r * 96 + cl) c s.clusters }
def State.upe (s : State) (r d : Nat) : Upe := tabGet {} (r * 2 + d) s.upes
def State.setUpe (s : State) (r d : Nat) (u : Upe) : State := { s with upes := tabPut (r * 2 + d) u s.upes }
def State.pan (s : State) (r : Nat) : Pannier := tabGet {} r s.pans
def State.setPan (s : State) (r : Nat) (p : Pannier) : State := { s with pans := tabPut r p s.pans }
def State.chan (s : State) (r ch : Nat) : Chan := tabGet {} (r * 64 + ch) s.chans
def State.setChan (s : State) (r ch : Nat) (c : Chan) : State := { s with chans := tabPut (r * 64 + ch) c s.chans }
def State.stop (s : State) (st : Nat) : Stop := tabGet {} st s.stops
def State.setStop (s : State) (st : Nat) (x : Stop) : State := { s with stops := tabPut st x s.stops }
def State.flow (s : State) (r : Nat) : Flow := tabGet {} r s.flows
def State.setFlow (s : State) (r : Nat) (f : Flow) : State := { s with flows := tabPut r f s.flows }
def State.seam (s : State) (i : Nat) : Seam := tabGet {} i s.seams
def State.setSeam (s : State) (i : Nat) (m : Seam) : State := { s with seams := tabPut i m s.seams }

/-! ## Free values -/

/-- The step to the next index of the free values (log 5). -/
def State.tock (s : State) : State := { s with tick := s.tick + 1 }

/-- A free choice and the state after it. -/
def State.choose (s : State) : Bool × State := (Config.freeBool s.tick, s.tock)

/-- One of `n` possibilities, freely chosen. -/
def State.pick (s : State) (n : Nat) : Nat × State := ((Config.freeWord s.tick).toNat % n, s.tock)

/-- A timestamp (R222, R300) and the state after it. -/
def State.stamp (s : State) : Nat × State := ((Config.timeStamp s.tick).toNat, s.tock)

/-- Stall cycles and the state after them. -/
def State.stalls (s : State) : Nat × State := (Config.stallCycles s.tick, s.tock)

/-- `n` bytes of the root's random source (R391). -/
def State.draw (s : State) (n : Nat) : List Byte × State := ((List.range n).map (Config.drawn s.tick), s.tock)

/-! ## Regions -/

/-- Is region `n` built (R6)? -/
def built (s : State) (n : Nat) : Bool := bitAt (s.get regionPresentPresent) n

/-- The use of region `n` resolved under R33; before the first load every built region counts as running (log 13). -/
def useOf (s : State) (n : Nat) : Nat := if s.bs.loaded then tabGet 0 n s.bs.use else b2n (built s n)

/-- Excluded or absent (R33). -/
def excluded (s : State) (n : Nat) : Bool := decide (n ≥ 32) || !built s n || decide (useOf s n = 0)

/-- Fenced (R364). -/
def fenced (s : State) (n : Nat) : Bool := bitAt (s.get fencedMask) n

/-- States of a region as the stops' maps show them (R350). -/
inductive MapSt where
  | running | parked | off
  deriving DecidableEq, Repr

/-- The map entry of region `n` (R349, R350): a fenced, excluded or dark region counts as off; a region counts as parked from the
markers of its park to its rejoin, and as running while it is parking. -/
def mapSt (s : State) (n : Nat) : MapSt :=
  if fenced s n || excluded s n then .off
  else match s.get (clkStatRstate n) with
    | 1 | 2 => .running
    | 0 => .off
    | _ => .parked

/-- The region takes part: powered, not fenced, its units not frozen by a park (R349). -/
def running (s : State) (n : Nat) : Bool := decide (mapSt s n = .running) && decide (s.get (clkStatRstate n) = 1)

/-- Voters (R153): uses that run, not fenced. -/
def voters (s : State) : List Nat :=
  if s.bs.loaded then (List.range 32).filter (fun n => decide (useOf s n = 1 ∨ useOf s n = 3) && !fenced s n) else []

/-! ## Errors -/

/-- A contained fault recorded against step `t` in region `r` (R226, R433). -/
def faultStep (s : State) (r t : Nat) : State :=
  let f := s.flow r
  s.setFlow r { f with fail := setIns t f.fail }

/-- Steps that have votes or can have them and no verdict: those the gate has heard of from `next` on, and the present step of every
voter (R154). -/
def openSteps (s : State) : List Nat :=
  let heard := s.gate.tally.map (fun e => e.1)
  let present := (voters s).flatMap (fun r => range' s.gate.next (s.get (hubStepCntStep r) + 1 - s.gate.next))
  (heard ++ present).foldl (fun l k => if s.gate.next ≤ k then setIns k l else l) []

/-- The gate issues FAIL for every step without a verdict (R154, R259, R433). -/
def forceFail (s : State) : State :=
  let g := s.gate
  { s with gate := { g with forced := (openSteps s).foldl (fun l k => setIns k l) g.forced } }

/-- The `ERR_COUNTS` field of a severity. -/
def raisedField : Nat → Fld
  | 0 => errCountsRaised0 | 1 => errCountsRaised1 | 2 => errCountsRaised2 | _ => errCountsRaised3

/-- Index of the last element that satisfies `p`. -/
def lastIdx {α : Type} (p : α → Bool) (l : List α) : Option Nat :=
  ((List.range l.length).filter (fun i => (l[i]?.map p).getD false)).getLast?

/-- The record under which a full queue hides an arriving one (R434). -/
def mergeTarget (q : List ErrRec) (sev : Nat) : Option Nat :=
  match lastIdx (fun r => decide (r.sev = sev)) q with
  | some i => some i
  | none =>
    match lastIdx (fun r => decide (r.sev > sev)) q with
    | some i => some i
    | none =>
      let top := q.foldl (fun m r => max m r.sev) 0
      lastIdx (fun r => decide (r.sev = top)) q

/-- A record arrives at the CPC's queue (R434). -/
def enqueueErr (s : State) (e : ErrRec) : State :=
  let s := s.bump (raisedField e.sev) 1
  let same := fun (r : ErrRec) => decide (r.code = e.code ∧ r.source = e.source ∧ r.unit = e.unit ∧ r.step = e.step)
  match s.errq.findIdx? same with
  | some i =>
    { s with errq := s.errq.modify i (fun r => { r with count := satAdd 32 r.count 1, d1 := e.d1, injected := r.injected || e.injected }) }
  | none =>
    if e.sev = 0 ∧ 3584 ≤ s.errq.length then s.bump errStatusLostCe 1
    else
      let e := { e with seq := s.errSeq }
      let s := { s with errSeq := s.errSeq + 1 }
      if s.errq.length < 4096 then { s with errq := s.errq ++ [e] }
      else
        match mergeTarget s.errq e.sev with
        | some i =>
          let s := s.put errStatusOvf 1
          { s with errq := s.errq.modify i (fun r => { r with
              count := satAdd 32 r.count 1, merged := true, sev := max r.sev e.sev,
              d1 := e.code % 65536 + e.source % 256 * 65536 + e.unit % 65536 * 16777216 }) }
        | none => s

/-- Queues of region `r` that hold a looping program. -/
def loopQueues (s : State) (r : Nat) : List Nat := [4, 5, 6, 7].filter (fun q => s.on (qCtrlProg r q) && s.on (qCtrlLoop r q))

/-- Those whose program runs: one that is done (R219) or stopped (R227) makes no further pass. -/
def loopers (s : State) (r : Nat) : List Nat :=
  (loopQueues s r).filter (fun q => !s.on (qStatusProgDone r q) && !s.on (qStatusProgStopped r q))

/-- Does region `r` run a looping program (R52, R219)? -/
def hasLoop (s : State) (r : Nat) : Bool := !(loopers s r).isEmpty

/-- Hubs that count as stalled at once, since their counter does not advance by itself (R52): parked or off, without a looping program,
halted, or in `RERUN_HOLD`. -/
def standsStill (s : State) (r : Nat) : Bool :=
  !running s r || !hasLoop s r || s.on (panStatusHalted r) || s.on (resStatRerunHold r)

/-- Ask a hub to stall its programs at its next step increment, or at once (R52). -/
def askStall (s : State) (reason r : Nat) : State :=
  s.updHub r (fun h => if standsStill s r then { h with stalled := setIns reason h.stalled } else { h with asks := setIns reason h.asks })

/-- Does the hub of region `r` count as stalled for a reason (R52)? -/
def stalledFor (s : State) (reason r : Nat) : Bool := (s.hub r).stalled.contains reason || standsStill s r

/-- Release a hub from one reason to stall. -/
def releaseStall (s : State) (reason r : Nat) : State :=
  s.updHub r (fun h => { h with stalled := setDel reason h.stalled, asks := setDel reason h.asks })

/-- A detector raises a record (R431, R433): its consequence takes effect at the detector, and the record reaches the queue. The
journey over the rings is not a step of its own (log 14). -/
def raiseErr (s : State) (code sev source unit : Nat) (step : Option Nat) (d0 d1 : Nat) (inj : Bool := false) : State :=
  let (t, s) := s.stamp
  let s := enqueueErr s { code := code, sev := sev, injected := inj, source := source, unit := unit, step := step, d0 := d0, d1 := d1,
                          time := t, timeValid := s.on ptpStatLocked }
  match sev, step with
  | 1, some t => if source < 32 then faultStep s source t else s
  | 3, _ =>
    let s := forceFail s
    (List.range 32).foldl (fun s r => if running s r then askStall s 3 r else s) s
  | _, _ => s

/-- `UNIT` of a kind and an index (R432). -/
def unitOf (kind idx : Nat) : Nat := kind * 4096 + idx % 4096

/-! ## The address map (R15-R22) -/

def spBase : Nat := 0x080000000000
def llmBase : Nat := 0x0C0000000000

/-- First address of region `n`'s stack (R17). -/
def stackBase (n : Nat) : Nat := n * 0x2000000000

/-- Scratchpad of logical cluster `cl` (0-95) of region `r` (R18). -/
def scratchBase (r cl : Nat) : Nat := spBase + (2 * r + cl / 48) * 0x20000000 + (cl % 48) * 0x800000

/-- First address of die `d`'s slice (R19). -/
def sliceBase (d : Nat) : Nat := llmBase + d * 0x8000000

/-- The mode of an 8 MiB unit: the old mode while it is retained (R199). -/
def unitMode (s : State) (d u : Nat) : Nat := tabGet 0 (d * 16 + u) s.units

/-- Region-map section of the bitstream in force (R32). -/
def mapSec (s : State) : List Byte := tabGet [] 1 s.bs.secs

/-- The pool: base and end as stack offsets and the participating regions; none when there is no pool (R32). -/
def pool (s : State) : Option (Nat × Nat × List Nat) :=
  let m := mapSec s
  let b := getLe m 0 1
  if b = 0 then none else some (b * 0x40000000, getLe m 1 1 * 0x40000000, bitsOf 32 (getLe m 4 4))

/-- R22: where the byte at stack-window address `a` is stored. -/
def interleave (s : State) (a : Nat) : Nat :=
  match pool s with
  | none => a
  | some (base, fin, set) =>
    let n := a / 0x2000000000
    let o := a % 0x2000000000
    if set.contains n ∧ base ≤ o ∧ o < fin then
      let l := fin - base
      let j := (set.filter (fun x => decide (x < n))).length
      let p := j * l + (o - base)
      let page := p / 4096
      let home := set.getD (page % set.length) 0
      stackBase home + base + page / set.length * 4096 + p % 4096
    else a

/-- The home of an address (R15-R19, R22, R448); none is an address fault. -/
def homeOf (s : State) (a : Nat) : Option Nat :=
  if a < 0x040000000000 then
    if built s (a / 0x2000000000) then some (interleave s a) else none
  else if spBase ≤ a ∧ a < spBase + 0x800000000 then
    let d := (a - spBase) / 0x20000000
    if built s (d / 2) ∧ (a - spBase) % 0x20000000 < 0x18000000 then some a else none
  else if llmBase ≤ a ∧ a < llmBase + 0x200000000 then
    let d := (a - llmBase) / 0x8000000
    let m := unitMode s d ((a - llmBase) % 0x8000000 / 0x800000)
    if built s (d / 2) ∧ (m = 2 ∨ m = 3) then some a else none
  else none

/-- The region whose store holds a home address. -/
def regionOf (h : Nat) : Nat :=
  if h < spBase then h / 0x2000000000
  else if h < llmBase then (h - spBase) / 0x20000000 / 2
  else (h - llmBase) / 0x8000000 / 2

/-- The die of an SRAM home address. -/
def dieOf (h : Nat) : Nat := if h < llmBase then (h - spBase) / 0x20000000 else (h - llmBase) / 0x8000000

/-- Is the home address in a stack? -/
def inStack (h : Nat) : Bool := decide (h < 0x040000000000)

/-- Bytes of an ECC unit: 64 in a stack, 8 in an SRAM (R189, R202). -/
def unitBytes (h : Nat) : Nat := if inStack h then 64 else 8

/-- Homes of a range, page by page: the map is constant within 4 KiB. -/
def homes (s : State) : Nat → Nat → Nat → Option (List (Nat × Nat))
  | 0, _, _ => some []
  | k + 1, a, n =>
    if n = 0 then some []
    else
      let m := min n (4096 - a % 4096)
      match homeOf s a, homes s k (a + m) (n - m) with
      | some h, some t => some ((h, m) :: t)
      | _, _ => none

/-- Home pieces of the `n` bytes from `a`; none where any is an address fault. -/
def homesOf (s : State) (a n : Nat) : Option (List (Nat × Nat)) := homes s (n / 4096 + 2) a n

/-- Does the whole range lie in windows (R15, R236)? -/
def addrOk (s : State) (a n : Nat) : Bool := (homesOf s a n).isSome

/-- Every region that a range touches. -/
def regionsOf (s : State) (a n : Nat) : List Nat :=
  ((homesOf s a n).getD []).foldl (fun l e => setIns (regionOf e.1) l) []

/-- What becomes of a request whose checks pass: it is refused for a region that is off, waits for one that is parked or that a run of the
derailleur names, or is served (R270, R351). -/
inductive Fate where
  | off | wait | serve
  deriving DecidableEq, Repr

def fateOf (s : State) (addr len : Nat) : Fate :=
  let rs := regionsOf s addr len
  let named := s.drl.any (fun d => ((homesOf s addr len).getD []).any (fun e => inStack e.1 && d.named.contains (regionOf e.1)))
  if rs.any (fun r => decide (mapSt s r = .off)) then .off
  else if named || rs.any (fun r => decide (mapSt s r = .parked)) then .wait
  else .serve

/-- What becomes of a request of region `r`'s units for memory that may lie elsewhere: in the own region it is served (R350, R464). -/
def reach (s : State) (r a n : Nat) : Fate := if (regionsOf s a n).all (fun x => decide (x = r)) then .serve else fateOf s a n

/-- The range lies in windows and in no excluded or absent region (R236). -/
def dmaOk (s : State) (a n : Nat) : Bool := addrOk s a n && (regionsOf s a n).all (fun r => !excluded s r)

/-- LLM modes 2 or 3 of region `r`'s own dies, whole range (R207, R148). -/
def inOwnLlm (s : State) (r a n : Nat) : Bool :=
  decide (sliceBase (2 * r) ≤ a ∧ a + n ≤ sliceBase (2 * r + 2)) && addrOk s a n

/-- Accumulator-buffer partitions only (R263). -/
def inAccum (s : State) (a n : Nat) : Bool :=
  addrOk s a n && ((homesOf s a n).getD []).all (fun e =>
    decide (llmBase ≤ e.1) && decide (unitMode s (dieOf e.1) ((e.1 - llmBase) % 0x8000000 / 0x800000) = 3))

/-- A window of region `r`: its stack window, its dies' scratchpads, its dies' LLM (R140, R158). -/
def inRegion (s : State) (r a n : Nat) : Bool :=
  addrOk s a n &&
  (inside a n (stackBase r) 0x2000000000 || inside a n (spBase + 2 * r * 0x20000000) 0x40000000 ||
   inside a n (sliceBase (2 * r)) 0x10000000)

/-! ## Seams -/

/-- Seams in which region `n` is an unfolded member covering stack offset `o` (R43, R369): number and rank. -/
def seamsOver (s : State) (n o : Nat) : List (Nat × Nat) :=
  s.seams.filterMap (fun (i, m) =>
    if m.st ≠ 0 ∧ m.members.contains n ∧ !m.folded.contains n ∧ m.off ≤ o ∧ o < m.off + m.len then
      some (i, m.members.idxOf n) else none)

/-- Is stack offset `o` of region `n` in a parity range (R360)? -/
def inParity (s : State) (n o : Nat) : Bool :=
  s.seams.any (fun (_, m) => decide (m.st ≠ 0 ∧ m.off ≤ o ∧ o < m.off + m.len ∧ (n = m.pa ∨ n = m.pb)))

/-- Endurance, the mode that keeps pb (R355). -/
def endurance (s : State) : Bool := decide (s.get modeCtrlCurMode = 2)

/-- `g^i` (R359). -/
def gPow : Nat → Byte
  | 0 => 1
  | i + 1 => gfDouble (gPow i)

/-- One byte of the plain store. -/
def peek (s : State) (h : Nat) : Byte := tabGet 0 h s.mem

/-- One byte stored without any effect. -/
def poke (s : State) (h : Nat) (b : Byte) : State := { s with mem := tabSet 0 h b s.mem }

/-- One byte stored in a stack: its 1 GiB loses its zero-baseline mark (R422). -/
def pokeStack (s : State) (h : Nat) (b : Byte) : State := { poke s h b with unzeroed := setIns (h / 0x40000000) s.unzeroed }

/-- Store one byte where it is at home. -/
def storeByte (s : State) (h : Nat) (b : Byte) : State := if inStack h then pokeStack s h b else poke s h b

def storeBytes (s : State) : Nat → List Byte → State
  | _, [] => s
  | h, b :: t => storeBytes (storeByte s h b) (h + 1) t

/-! ## ECC -/

/-- On whose account an access runs: the region and step of its command, none for an access of no step (R189); a posted descriptor's
fails no step at all (R231). -/
structure Acct where
  region : Nat
  step : Option Nat
  posted : Bool := false
  deriving DecidableEq, Repr

/-- How an access ends short. -/
inductive MemErr where
  | fault | uncorrectable
  deriving DecidableEq, Repr

/-- The step that a memory fault at home `h` fails: the command's, else the present step of the home region (log 15); none for a posted
descriptor. -/
def chargedStep (s : State) (c : Acct) (h : Nat) : Option Nat :=
  match c.step with
  | some t => some t
  | none => if c.posted then none else some (s.get (hubStepCntStep (regionOf h)))

/-- A contained memory record: `SOURCE` is the home region, and the step fails in the region of the command as well (R189, R202, R226). -/
def raiseMem (s : State) (c : Acct) (code h unit d1 : Nat) (inj : Bool) : State :=
  let st := chargedStep s c h
  let s := raiseErr s code 1 (regionOf h) unit st h d1 inj
  match c.step with
  | some t => faultStep s c.region t
  | none => s

/-- Marks of the ECC units that `[h, h + n)` touches. -/
def marksIn (s : State) (h n : Nat) : List (Nat × Mark) :=
  s.marks.filter (fun e => decide (h < e.1 + unitBytes h ∧ e.1 < h + n))

/-- The unit kind of an SRAM record: the die. -/
def sramUnit (h : Nat) : Nat := unitOf 2 (dieOf h % 2)

/-- A correction in device `dev` of region `r`'s stack counts within the scrub passes in progress; the sixteenth within one flags the
device (R202). -/
def countDevice (s : State) (r dev : Nat) (inj : Bool) : State :=
  let kp := (r * 2) * 32 + dev
  let kx := (r * 2 + 1) * 32 + dev
  let s := { s with scrubDevs := tabUpd 0 kp (· + 1) s.scrubDevs }
  let s := if s.on (stkScrubScrubBusy r) then { s with scrubDevs := tabUpd 0 kx (· + 1) s.scrubDevs } else s
  if tabGet 0 kp s.scrubDevs = 16 ∨ (s.on (stkScrubScrubBusy r) ∧ tabGet 0 kx s.scrubDevs = 16) then
    raiseErr (s.put (stkEccSuspectDev r) dev) 0x0106 0 r (unitOf 11 dev) none 0 dev inj
  else s

/-- A correctable unit is read: corrected in place, written back, counted and recorded (R189, R202). -/
def correctUnit (s : State) (h : Nat) (m : Mark) : State :=
  if m.ce.isNone then s
  else
  let s := { s with marks := tabErase h s.marks }
  if inStack h then
    let s := raiseErr (s.bump (stkEccCorrected (regionOf h)) 1) 0x0105 0 (regionOf h) (unitOf 11 (m.ce.getD 0)) none h (m.ce.getD 0) m.inj
    countDevice s (regionOf h) (m.ce.getD 0) m.inj
  else
    raiseErr (s.bump (sramEccCorrected (regionOf h) (dieOf h % 2)) 1) 0x0101 0 (regionOf h) (sramUnit h) none h (m.ce.getD 0) m.inj

/-- An uncorrectable unit is met: counted and recorded, and it stays so, to be restored before the rerun (R189, R202, R379, R462). -/
def meetUe (s : State) (c : Acct) (h : Nat) (m : Mark) : State :=
  let s := { s with found := setIns h s.found }
  if inStack h then raiseMem (s.bump (stkEccUncorr (regionOf h)) 1) c 0x0107 h 0 0 m.inj
  else raiseMem (s.bump (sramEccUncorr (regionOf h) (dieOf h % 2)) 1) c 0x0102 h (sramUnit h) 0 m.inj

/-- Units that are read, as their marks show. -/
def meetUnits (s : State) (c : Acct) (ms : List (Nat × Mark)) : State :=
  ms.foldl (fun s e => if e.2.ue then meetUe s c e.1 e.2 else correctUnit s e.1 e.2) s

/-! ## The cache (R191-R193) -/

/-- Cache-mode units of die `d` (R191, R199). -/
def cacheUnitsOf (s : State) (d : Nat) : Nat := (List.range 16).countP (fun u => decide (unitMode s d u = 1))

/-- Does region `n`'s stack have a cache? -/
def hasCache (s : State) (n : Nat) : Bool := decide (cacheUnitsOf s (2 * n) + cacheUnitsOf s (2 * n + 1) ≠ 0)

/-- The die, 0 or 1, that holds the line at stack offset `o`. -/
def lineDie (s : State) (n o : Nat) : Nat :=
  if cacheUnitsOf s (2 * n) = 0 then 1 else if cacheUnitsOf s (2 * n + 1) = 0 then 0 else b2n (bitAt o 8)

/-- The die that holds line `k`. -/
def dieOfLine (s : State) (k : Nat) : Nat := regionOf (k * 256) * 2 + lineDie s (regionOf (k * 256)) (k * 256 % 0x2000000000)

/-- Sets of a die's cache: 16 ways of 256-byte lines over its units. -/
def cacheSets (s : State) (d : Nat) : Nat := cacheUnitsOf s d * 2048

/-- The set of line `k` on die `d`; the indexing is a free value (log 20). -/
def setOfLine (s : State) (d k : Nat) : Nat := Config.cacheSet d (cacheSets s d) k % max 1 (cacheSets s d)

/-- Numbers of the four stack units of line `k`. -/
def lineUnits (k : Nat) : List Nat := [k * 256, k * 256 + 64, k * 256 + 128, k * 256 + 192]

/-- A line with an uncorrectable word is met (R193): a clean one is invalidated and its event counts as corrected; a dirty one is
lost with the step that wrote it, and the stack's own bytes stand again, until they are restored or written over (R379): a seam's parity
still stands for the lost ones. -/
def badLine (s : State) (k : Nat) (l : Line) : State :=
  let h := k * 256
  let n := regionOf h
  let d := lineDie s n (h % 0x2000000000)
  let s := { s with lines := tabErase k s.lines }
  if l.dirty then
    let s := { s with mem := tabSetMany 0 h (padTo 256 l.under) s.mem, found := (lineUnits k).foldl (fun f u => setIns u f) s.found }
    let s := s.bump (sramEccUncorr n d) 1
    raiseErr s 0x0104 1 n (unitOf 2 d) l.step h 0 l.inj
  else raiseErr (s.bump (sramEccCorrected n d) 1) 0x0103 0 n (unitOf 2 d) none h 0 l.inj

/-- A line is written to the stack, its four units whole: an error in one is gone (R192, R462), but not the loss of an earlier line's bytes
there. A dirty line with an uncorrectable word is lost instead (R193). -/
def flushLine (s : State) (k : Nat) (l : Line) : State :=
  if !l.dirty then s
  else if !l.bad.isEmpty then badLine s k l
  else { s with
    lines := tabPut k { l with dirty := false, under := [] } s.lines
    marks := s.marks.filter (fun e => !(lineUnits k).contains e.1)
    found := s.found.filter (fun u => !((lineUnits k).contains u && (tabFind u s.marks).isSome)) }

/-- A line leaves the cache, written back first where it is dirty. -/
def dropLine (s : State) (k : Nat) (l : Line) : State :=
  let s := flushLine s k l
  { s with lines := tabErase k s.lines }

/-- Every dirty line of region `r` is written back (R192). -/
def writeBack (s : State) (r : Nat) : State :=
  (s.lines.filter (fun e => decide (regionOf (e.1 * 256) = r))).foldl (fun s e => flushLine s e.1 e.2) s

/-- Write back, then invalidate, region `r`'s cache (R192). -/
def writeBackInv (s : State) (r : Nat) : State :=
  let s := writeBack s r
  { s with lines := s.lines.filter (fun e => decide (regionOf (e.1 * 256) ≠ r)) }

/-- Line numbers of a stack range. -/
def linesOf (h n : Nat) : List Nat := if n = 0 then [] else range' (h / 256) ((h + n - 1) / 256 + 1 - h / 256)

/-- Room for line `k`: with all 16 ways of its set in use one leaves, by pseudo-LRU never the one used last; which of the others is a free
choice (R191, log 20). -/
def makeRoom (s : State) (k : Nat) : State :=
  let d := dieOfLine s k
  let mine := s.lines.filter (fun e => decide (dieOfLine s e.1 = d))
  if mine.length < 16 then s
  else
    let ways := mine.filter (fun e => decide (setOfLine s d e.1 = setOfLine s d k))
    if ways.length < 16 then s
    else
      let last := ways.foldl (fun m e => max m e.2.used) 0
      let old := ways.eraseP (fun e => decide (e.2.used = last))
      let (i, s) := s.pick (max 1 old.length)
      match old[i]? with
      | some (j, l) => dropLine s j l
      | none => s

/-- Line `k` is in use: a write makes it dirty, keeping the stack's bytes under it. -/
def useLine (s : State) (c : Acct) (k : Nat) (write : Bool) : State :=
  let l : Line := tabGet {} k s.lines
  let l := { l with used := s.tick }
  let l := if write then
      { l with dirty := true, step := some (c.step.getD (s.get (hubStepCntStep (regionOf (k * 256))))),
               under := if l.dirty then l.under else tabRange 0 s.mem (k * 256) 256 }
    else l
  { s.tock with lines := tabPut k l s.lines }

/-- 64-bit words of a line, 0-31, that `[h, h + n)` inside it touches. -/
def wordsOf (h n : Nat) : List Nat := range' (h % 256 / 8) ((h % 256 + n - 1) / 8 + 1 - h % 256 / 8)

/-- An access to `[h, h + n)` inside one line (R191-R193, R462). `whole`: a write that replaces the units and words that it covers. True
where it meets an uncorrectable error. A clean line with a bad word is served from the stack; a line that is not resident is filled, its
other units being read as usual; one that cannot be filled whole does not stay (log 20). -/
def touchLine (s : State) (c : Acct) (h n : Nat) (write whole : Bool) : Bool × State :=
  let k := h / 256
  let (lost, s) := match tabFind k s.lines with
    | none => (false, s)
    | some l =>
      let hit := l.bad.filter (fun w => (wordsOf h n).contains w)
      if hit.isEmpty then (false, s)
      else if whole && hit.all (fun w => inside (8 * w) 8 (h % 256) n) then
        (false, { s with lines := tabPut k { l with bad := l.bad.filter (fun w => !hit.contains w) } s.lines })
      else (l.dirty, badLine s k l)
  if lost then (true, s)
  else if (tabFind k s.lines).isSome then (false, useLine s c k write)
  else
    let ms := (marksIn s (k * 256) 256).filter (fun e => !(whole && inside e.1 64 h n))
    let s := meetUnits s c ms
    let ue := ms.filter (fun e => e.2.ue)
    if ue.isEmpty then (false, useLine (makeRoom s k) c k write)
    else (ue.any (fun e => overlaps e.1 64 h n), s)

/-- An access to a home range: through its region's cache where it has one (R192), else the units that it touches (R189, R202). Hits and
misses count by free amounts (log 20). True where it meets an uncorrectable error. -/
def touch (s : State) (c : Acct) (h n : Nat) (write whole : Bool) : Bool × State :=
  if !inStack h || !hasCache s (regionOf h) then
    let ms := (marksIn s h n).filter (fun e => !(whole && inside e.1 (unitBytes h) h n))
    match ms.find? (fun e => e.2.ue) with
    | some (k, m) => (true, meetUe s c k m)
    | none => (false, ms.foldl (fun s e => correctUnit s e.1 e.2) s)
  else
    let r := regionOf h
    let (bad, s) := (linesOf h n).foldl (fun (bad, s) k =>
      let a := max h (k * 256)
      if bad then (bad, s) else touchLine s c a (min (h + n) (k * 256 + 256) - a) write whole) (false, s)
    let s := s.bump (llmHitsHits r) (Config.cacheHits s.tick)
    (bad, (s.bump (llmMissesMisses r) (Config.cacheMisses s.tick)).tock)

/-- Addresses in `[h, h + n)` at which a read meets an uncorrectable error: units of the store that no resident line stands for, and bad
words of dirty lines. -/
def badSpots (s : State) (h n : Nat) : List Nat :=
  ((marksIn s h n).filter (fun e => e.2.ue && !(inStack h && (tabFind (e.1 / 256) s.lines).isSome))).map (·.1) ++
  (if inStack h then
    (linesOf h n).flatMap (fun k => match tabFind k s.lines with
      | some l => if l.dirty then (l.bad.map (fun w => k * 256 + 8 * w)).filter (fun a => overlaps a 8 h n) else []
      | none => [])
   else [])

/-- Bytes of `[h, h + n)` before the first such address. -/
def goodPart (s : State) (h n : Nat) : Nat := (badSpots s h n).foldl (fun m a => min m (a - h)) n

/-! ## Parity (R359-R361, R367) -/

/-- An account of no step. -/
def noStep (r : Nat) : Acct := { region := r, step := none }

/-- The account of a pass or a restore of the module's own, which fails no step (R203, R379). -/
def ownAcct (r : Nat) : Acct := { region := r, step := none, posted := true }

/-- A delta is merged into a parity range at home `h`, through its region's cache; an uncorrectable unit takes none and stays to be
recomputed (R360, R462). -/
def addParity (s : State) (h : Nat) (d : List Byte) : State :=
  let (bad, s) := touch s (noStep (regionOf h)) h d.length true false
  if bad then s else storeBytes s h (List.zipWith (fun x y => x ^^^ y) (tabRange 0 s.mem h d.length) d)

/-- The delta to pa, or in endurance to pb, of a change `d` of the bytes from stack offset `o` of region `n` on, within one unit (R360). A
fenced parity region takes none. -/
def deltaTo (pb : Bool) (s : State) (n o : Nat) (d : List Byte) : State :=
  if d.all (fun x => decide (x = 0)) then s
  else
    (seamsOver s n o).foldl (fun s (i, rank) =>
      let m := s.seam i
      if pb then
        if endurance s && !fenced s m.pb then addParity s (stackBase m.pb + o) (d.map (gfMul (gPow rank))) else s
      else if fenced s m.pa then s else addParity s (stackBase m.pa + o) d) s

/-- Both deltas of such a change. -/
def parityDelta (s : State) (n o : Nat) (d : List Byte) : State := deltaTo true (deltaTo false s n o d) n o d

/-- The changes that a write of `b` over `a` at home `h` makes, unit by unit. -/
def eachUnit (f : State → Nat → Nat → List Byte → State) (s : State) (h : Nat) (a b : List Byte) : Nat → State
  | 0 => s
  | k + 1 =>
    if b.isEmpty then s
    else
      let n := min b.length (64 - h % 64)
      let s := f s (h / 0x2000000000) (h % 0x2000000000) (List.zipWith (fun x y => x ^^^ y) (a.take n) (b.take n))
      eachUnit f s (h + n) (a.drop n) (b.drop n) k

/-- Can the unit of region `r` at stack offset `o` be read, and does it hold what it should: no dirty line over it was lost (R193)? -/
def standing (s : State) (r o : Nat) : Bool :=
  (badSpots s (stackBase r + o) 1).isEmpty && !s.found.contains ((stackBase r + o) / 64 * 64)

/-- Members of a seam whose data still stands: unfolded and not fenced. -/
def survivors (s : State) (m : Seam) : List Nat := m.members.filter (fun n => !m.folded.contains n && !fenced s n)

/-- Unfolded members that are fenced. -/
def lostMembers (s : State) (m : Seam) : List Nat := m.members.filter (fun n => !m.folded.contains n && fenced s n)

/-- pb can serve: endurance, valid and its region not fenced (R363). -/
def pbServes (s : State) (m : Seam) : Bool := endurance s && m.pbValid && !fenced s m.pb

/-- The byte of member `n` at stack offset `o` formed from parity and the other members (R367); `lost` are the members whose data does
not count, `n` among them, and every unit that cannot be read counts as lost too; none where the seam cannot rebuild. -/
def rebuildByte (s : State) (m : Seam) (lost : List Nat) (n o : Nat) : Option Byte :=
  let lost := (m.members.filter (fun x => !m.folded.contains x && !standing s x o)).foldl (fun l x => setIns x l) lost
  let others := m.members.filter (fun x => !m.folded.contains x && !lost.contains x)
  let at' := fun r => peek s (stackBase r + o)
  let xa := others.foldl (fun v r => v ^^^ at' r) (at' m.pa)
  let xb := others.foldl (fun v r => v ^^^ gfMul (gPow (m.members.idxOf r)) (at' r)) (at' m.pb)
  let paOk := !fenced s m.pa && standing s m.pa o
  let pbOk := pbServes s m && standing s m.pb o
  match lost.filter (fun x => decide (x ≠ n)) with
  | [] =>
    if paOk then some xa
    else if pbOk then some (gfMul (gfInv (gPow (m.members.idxOf n))) xb)
    else none
  | [k] =>
    if paOk && pbOk then
      let gi := gPow (m.members.idxOf n)
      let gk := gPow (m.members.idxOf k)
      some (gfMul (gfInv (gi ^^^ gk)) (xb ^^^ gfMul gk xa))
    else none
  | _ => none

/-- The byte of region `n` at stack offset `o` as the seams over it rebuild it (R367). -/
def rebuiltByte (s : State) (n o : Nat) : Option Byte :=
  (seamsOver s n o).findSome? (fun (i, _) => rebuildByte s (s.seam i) (setIns n (lostMembers s (s.seam i))) n o)

/-- A rebuild of `k` bytes from stack offset `o` of region `n` reads parity and the other members through their caches (R192, R367), on the
accounts `c`. -/
def rebuildReads (s : State) (c : Nat → Acct) (n o k : Nat) : State :=
  (seamsOver s n o).foldl (fun s (i, _) =>
    let m := s.seam i
    ((survivors s m).filter (fun x => decide (x ≠ n)) ++ [m.pa, m.pb].filter (fun p => !fenced s p)).foldl (fun s x =>
      (touch s (c x) (stackBase x + o) k false false).2) s) s

/-- Can some seam rebuild the unit at home `h` of a region that still runs (R462)? -/
def canRebuild (s : State) (h : Nat) : Bool := inStack h && (rebuiltByte s (h / 0x2000000000) (h % 0x2000000000)).isSome

/-- Is the home address covered by a seam? -/
def covered (s : State) (h : Nat) : Bool := inStack h && !(seamsOver s (h / 0x2000000000) (h % 0x2000000000)).isEmpty

/-! ## Reads and writes -/

/-- Read one home piece. -/
def readPiece (s : State) (c : Acct) (h n : Nat) : Except MemErr (List Byte) × State :=
  match touch s c h n false false with
  | (true, s) => (.error .uncorrectable, s)
  | (false, s) => (.ok (tabRange 0 s.mem h n), s)

def readPieces (s : State) (c : Acct) : List (Nat × Nat) → List Byte → Except MemErr (List Byte) × State
  | [], acc => (.ok acc, s)
  | (h, n) :: t, acc =>
    match readPiece s c h n with
    | (.ok b, s) => readPieces s c t (acc ++ b)
    | (.error e, s) => (.error e, s)

/-- Read `n` bytes at device address `a`. -/
def readMem (s : State) (c : Acct) (a n : Nat) : Except MemErr (List Byte) × State :=
  match homesOf s a n with
  | none => (.error .fault, s)
  | some ps => readPieces s c ps []

/-- The first uncorrectable unit that a write of `[h, h + n)` cannot replace (R462), no resident line standing for it: covered in part, or
wholly inside a seam that cannot rebuild its old contents. -/
def blockedUnit (s : State) (h n : Nat) : Option (Nat × Mark) :=
  (marksIn s h n).find? (fun e => e.2.ue && !(inStack h && (tabFind (e.1 / 256) s.lines).isSome) &&
    (!inside e.1 (unitBytes h) h n || (covered s e.1 && !canRebuild s e.1)))

/-- The first dirty line with an uncorrectable word that the write covers in part (R193, R462). -/
def blockedLine (s : State) (h n : Nat) : Option (Nat × Line) :=
  if !inStack h then none
  else (linesOf h n).findSome? (fun k =>
    (tabFind k s.lines).bind (fun l =>
      if l.dirty && l.bad.any (fun w => overlaps (k * 256 + 8 * w) 8 h n && !inside (k * 256 + 8 * w) 8 h n) then some (k, l) else none))

/-- The bytes that a delta takes for the old ones (R360): those that stand, but where the unit is uncorrectable, or a line over it was lost,
those that its seam rebuilds (R462). -/
def oldBytes (s : State) (h n : Nat) : List Byte :=
  let bytes := tabRange 0 s.mem h n
  let bad := fun (u : Nat) => covered s u && (s.found.contains u || (tabFind u s.marks).any (·.ue))
  if (range' (h / 64) ((h + n - 1) / 64 + 1 - h / 64)).any (fun u => bad (u * 64)) then
    bytes.mapIdx (fun i b => if bad ((h + i) / 64 * 64) then (rebuiltByte s ((h + i) / 0x2000000000) ((h + i) % 0x2000000000)).getD b else b)
  else bytes

/-- The units that a write of `[h, h + n)` covers whole hold no error any more (R462). -/
def freshUnits (s : State) (h n : Nat) : State :=
  let own := (marksIn s h n).filter (fun e => inside e.1 (unitBytes h) h n)
  { s with marks := s.marks.filter (fun e => !own.contains e), found := s.found.filter (fun k => !inside k (unitBytes k) h n) }

/-- Write one home piece (R192, R360, R462): through the cache, the units that it covers whole being replaced, their old contents rebuilt
where they are uncorrectable; its parity deltas follow. False where it meets an error after all, and writes nothing. -/
def writePiece (s : State) (c : Acct) (h : Nat) (b : List Byte) : Bool × State :=
  let n := b.length
  let own := (marksIn s h n).filter (fun e => inside e.1 (unitBytes h) h n)
  let s := own.foldl (fun s e => if e.2.ue && covered s e.1 then rebuildReads s noStep (e.1 / 0x2000000000) (e.1 % 0x2000000000) 64 else s) s
  match touch s c h n true true with
  | (true, s) => (false, s)
  | (false, s) =>
    let old := oldBytes s h n
    let s := storeBytes (freshUnits s h n) h b
    (true, if inStack h then eachUnit parityDelta s h old b (n / 64 + 2) else s)

def writePieces (s : State) (c : Acct) : List (Nat × Nat) → List Byte → Bool × State
  | [], _ => (true, s)
  | (h, n) :: t, b =>
    match writePiece s c h (b.take n) with
    | (true, s) => writePieces s c t (b.drop n)
    | (false, s) => (false, s)

/-- What keeps a write of home pieces from being made, and its effect: an address fault in a parity range (R360), an uncorrectable unit or
line (R462). -/
def writeBlocked (s : State) (c : Acct) (ps : List (Nat × Nat)) : Option (MemErr × State) :=
  if ps.any (fun e => inStack e.1 && inParity s (regionOf e.1) (e.1 % 0x2000000000)) then some (.fault, s)
  else
    match ps.findSome? (fun e => blockedUnit s e.1 e.2), ps.findSome? (fun e => blockedLine s e.1 e.2) with
    | some (k, m), _ => some (.uncorrectable, meetUe s c k m)
    | none, some (k, l) => some (.uncorrectable, badLine s k l)
    | none, none => none

/-- Write bytes at device address `a`: an address fault in an absent place or a parity range (R15, R360), else the bytes, or an
uncorrectable error that writes nothing (R462). -/
def writeMem (s : State) (c : Acct) (a : Nat) (b : List Byte) : Option MemErr × State :=
  match homesOf s a b.length with
  | none => (some .fault, s)
  | some ps =>
    match writeBlocked s c ps with
    | some (e, s) => (some e, s)
    | none =>
      match writePieces s c ps b with
      | (true, s) => (none, s)
      | (false, s) => (some .uncorrectable, s)

/-- Home pieces of several writes, each with its bytes; none where any is an address fault. -/
def splitWrites (s : State) : List (Nat × List Byte) → Option (List (Nat × List Byte))
  | [] => some []
  | (a, b) :: t =>
    match homesOf s a b.length, splitWrites s t with
    | some ps, some l =>
      some ((ps.foldl (fun (acc : List (Nat × List Byte) × List Byte) e => (acc.1 ++ [(e.1, acc.2.take e.2)], acc.2.drop e.2)) ([], b)).1 ++ l)
    | _, _ => none

/-- The writes of one group of a `SEAM`-set update (R361): the deltas of every array go to pb and then to pa before the own stack takes any
of them. -/
def writeGroup (s : State) (c : Acct) (wr : List (Nat × List Byte)) : Option MemErr × State :=
  match splitWrites s wr with
  | none => (some .fault, s)
  | some ps =>
    match writeBlocked s c (ps.map (fun e => (e.1, e.2.length))) with
    | some (e, s) => (some e, s)
    | none =>
      let olds := ps.map (fun e => (e, oldBytes s e.1 e.2.length))
      let send := fun (pb : Bool) (s : State) => olds.foldl (fun s x =>
        if inStack x.1.1 then eachUnit (deltaTo pb) s x.1.1 x.2 x.1.2 (x.2.length / 64 + 2) else s) s
      (none, ps.foldl (fun s e => storeBytes (freshUnits (touch s c e.1 e.2.length true true).2 e.1 e.2.length) e.1 e.2) (send false (send true s)))

/-- Bytes of a unit put back whole, without a delta: the error is gone (R379, R462). They go into the line over the unit where one is
resident, and bring none in (log 20). -/
def replaceUnit (s : State) (h : Nat) (b : List Byte) : State :=
  let s := { s with marks := tabErase h s.marks, found := setDel h s.found }
  let s := if inStack h && (tabFind (h / 256) s.lines).isSome then (touch s (ownAcct (regionOf h)) h b.length true true).2 else s
  storeBytes s h b

/-- The status of R225 for a memory error. -/
def memStatus : MemErr → Nat
  | .fault => 0x09
  | .uncorrectable => 0x0C

/-- Bytes of `n` from device address `a` on before the first uncorrectable unit: a read ends there (R249). -/
def goodBytes (s : State) (a n : Nat) : Nat :=
  (((homesOf s a n).getD []).foldl (fun (acc : Nat × Bool) e =>
    if acc.2 then acc
    else
      let k := goodPart s e.1 e.2
      (acc.1 + k, decide (k < e.2))) (0, false)).1

/-- Has an injection taken part in an error of the `n` bytes from device address `a` (R439)? -/
def injectedIn (s : State) (a n : Nat) : Bool := ((homesOf s a n).getD []).any (fun e => (marksIn s e.1 e.2).any (fun m => m.2.ue && m.2.inj))

/-- Read little-endian. -/
def readNat (s : State) (c : Acct) (a n : Nat) : Except MemErr Nat × State :=
  match readMem s c a n with
  | (.ok b, s) => (.ok (leNat b), s)
  | (.error e, s) => (.error e, s)

/-- Write little-endian. -/
def writeNat (s : State) (c : Acct) (a n v : Nat) : Option MemErr × State := writeMem s c a (natLe n v)

/-- Set the bytes of a home range to zero, with no trace of old trouble (R189, R197, R201, R380). -/
def zeroRange (s : State) (h n : Nat) : State :=
  { s with mem := tabDrop (fun k => decide (h ≤ k ∧ k < h + n)) s.mem,
           marks := tabDrop (fun k => decide (h ≤ k ∧ k < h + n)) s.marks
           found := s.found.filter (fun k => !decide (h ≤ k ∧ k < h + n)) }

/-! ## Atomics (R195) -/

/-- Operation codes of R254's `MFMT`. -/
def atomicBytes (op : Nat) : Nat := if op = 1 then 2 else if op = 2 ∨ op = 5 then 8 else 4

/-- The value an atomic stores, and whether `NF` is returned. -/
def atomicVal (op old v cmp : Nat) : Nat × Bool :=
  match op with
  | 0 => let z := add32 old v; (z, !fin32 z)
  | 1 => let z := (addV .pw16 .rne (decNum .pw16 old) (decNum .pw16 v)).1; (z, !isFinite (decNum .pw16 z))
  | 2 => ((old + v) % 2 ^ 64, false)
  | 3 => (max32 old v, false)
  | 4 => (min32 old v, false)
  | _ => (if old = cmp then v else old, false)

/-- How an atomic ends. -/
inductive AtomicRes where
  | done (old : Nat) (nf : Bool) | fault | misaligned | uncorrectable
  deriving DecidableEq, Repr

/-- One atomic at an LLM address in scratchpad or accumulator-buffer mode (R194, R195). -/
def doAtomic (s : State) (c : Acct) (op a v cmp : Nat) : AtomicRes × State :=
  let n := atomicBytes op
  if a % n ≠ 0 then (.misaligned, s)
  else if a < llmBase ∨ !addrOk s a n then (.fault, s)
  else
    match readNat s c a n with
    | (.error .fault, s) => (.fault, s)
    | (.error .uncorrectable, s) => (.uncorrectable, s)
    | (.ok old, s) =>
      let (z, nf) := atomicVal op old v cmp
      let (_, s) := writeNat s c a n z
      (.done old nf, s)

/-- What the sequencer holds of a region beside its registers. -/
def State.plant (s : State) (r : Nat) : Plant := tabGet {} r s.plants
/-- That record replaced. -/
def State.setPlant (s : State) (r : Nat) (p : Plant) : State := { s with plants := tabPut r p s.plants }
/-- That record changed. -/
def updPlant (s : State) (r : Nat) (f : Plant → Plant) : State := s.setPlant r (f (s.plant r))

end Sys2Proof.Machine
end

