-- ==== Sys2Proof/Machine/RingOps.lean ====
section
/-! DEFINITION. Chainring operations that other units use: stop order, ring choice, injection, answers (R250-R267, R350, R463). -/
namespace Sys2Proof.Machine

/-- Stops in ascending order of position (R250). -/
def stopOrder : List Nat :=
  [0, 1, 32, 2, 3, 7, 6, 5, 4, 8, 9, 10, 11, 15, 14, 13, 12, 16, 17, 18, 19, 33, 23, 22, 21, 20, 24, 25, 26, 27, 31, 30, 34, 29, 28, 35]

/-- Wire delay in ns of the link from each position to the next (R250). -/
def wireDelay : List Nat :=
  [6, 4, 4, 6, 4, 6, 6, 6, 4, 6, 6, 6, 4, 6, 6, 6, 4, 6, 6, 6, 3, 3, 6, 6, 6, 4, 6, 6, 6, 4, 6, 4, 4, 6, 13, 13]

/-- Position of a stop. -/
def posOf (st : Nat) : Nat := stopOrder.idxOf st

/-- Latency of the ascending way over `k` links from position `p`, all stops running, one flit (R260). -/
def ascLatency (p k : Nat) : Nat :=
  12 + ((range' p k).map (fun i => wireDelay.getD (i % 36) 0)).sum + 6 * (k - 1)

/-- Does traffic from `src` to `dst` travel in the descending direction? Fixed at manufacture, ascending on a tie (R257). -/
def descending (src dst : Nat) : Bool :=
  let k := (posOf dst + 36 - posOf src) % 36
  decide (ascLatency (posOf dst) (36 - k) < ascLatency (posOf src) k)

/-- Is the stop freewheeled (R266)? A port die never is. -/
def freewheels (s : State) (st : Nat) : Bool := decide (st < 32) && decide (mapSt s st ≠ .running)

/-- Unloaded latency of a message in half nanoseconds (R260, R463). -/
def latency (s : State) (src dst flits : Nat) : Nat :=
  if src = dst then 24 + (flits - 1)
  else
    let k := (posOf dst + 36 - posOf src) % 36
    let (p, n) := if descending src dst then (posOf dst, 36 - k) else (posOf src, k)
    let mids := (range' (p + 1) (n - 1)).map (fun i => stopOrder.getD (i % 36) 0)
    let fw := (mids.filter (freewheels s)).length
    24 + 2 * ((range' p n).map (fun i => wireDelay.getD (i % 36) 0)).sum + 12 * (mids.length - fw) + 4 * fw + (flits - 1)

/-- Ring-routes section in force (R34). -/
def routeSec (s : State) : List Byte := tabGet [] 2 s.bs.secs

/-- The ring set that the routes give a source, destination and class (R34, R257). DESIGN CHOICE (log 57): of two entries for one triple the
first serves. -/
def routeSet (s : State) (src dst cls : Nat) : Nat :=
  if !s.bs.loaded then 0xFFFF
  else
    let m := routeSec s
    let hit := (List.range (getLe m 4 4)).find? (fun i =>
      decide (getLe m (8 + 8 * i) 1 = src ∧ getLe m (9 + 8 * i) 1 = dst ∧ getLe m (10 + 8 * i) 1 = cls))
    match hit with
    | some i => getLe m (12 + 8 * i) 2
    | none => getLe m 2 2

/-- Rings in service (R259). -/
def upRings (s : State) : List Nat := bitsOf 16 (s.get ringStatusRingUp)

/-- The rings of a set that are up; a set left empty uses the lowest ring that is up (R259). -/
def liveSet (s : State) (set : Nat) : List Nat :=
  match (upRings s).filter (bitAt set) with
  | [] => (upRings s).take 1
  | l => l

/-- The ring of a message (R257): derailleur data uses every ring that is up (R270); answers keep the ring of their request while it is up. -/
def pickRing (s : State) (m : Msg) : Nat :=
  let l := if m.cls = 0xA then upRings s else liveSet s (routeSet s m.src m.dst m.cls)
  match m.cls with
  | 0x0 | 0x1 | 0x3 | 0x4 | 0xA =>
    let g := if m.cls = 4 ∧ m.dst ≥ 32 then m.addr / 2 ^ 32 else m.addr / 4096
    l.getD (g % l.length) 0
  | 0x8 | 0x9 => (liveSet s (s.get ringStatusRingEn)).headD 0
  | 0x2 | 0x5 => (liveSet s (2 ^ m.ring)).headD 0
  | _ => l.headD 0

/-- Payload bytes of a message. -/
def payloadLen (m : Msg) : Nat := m.data.length

/-- Is the answer of a message one that the issuing stop waits for (R267)? -/
def answered (m : Msg) : Bool :=
  match m.cls with
  | 0x0 => m.ackReq
  | 0x1 | 0x3 | 0x4 | 0xA => true
  | _ => false

/-- The answer to tag `t` is in. -/
def settleTag (s : State) (t : Nat) : State := { s with waiters := tabErase t s.waiters, asked := tabErase t s.asked }

/-- A message is lost (R259): a signal, or its refusal, is awaited no longer. -/
def lostMsg (s : State) (m : Msg) : State :=
  match m.cls, tabFind m.mtag s.waiters with
  | 6, _ => settleTag s m.mtag
  | 2, some (.signal _ _ _ _) => settleTag s m.mtag
  | _, _ => s

/-! ## Wire form (R252, R254-R256) -/

/-- Header bytes, those of the `RED_ADD` extension included. -/
def headBytes (cls : Nat) : Nat := if cls = 4 then 256 else 64

/-- `FLITS`; a `MEM_RD` has no payload whatever its `LEN` says. -/
def flitsOf (m : Msg) : Nat := ceilDiv (headBytes m.cls + m.data.length) 512

/-- Classes that carry a step. -/
def stepped (cls : Nat) : Bool := decide (cls = 4 ∨ cls = 7 ∨ cls = 8 ∨ cls = 9)

/-- The class fields at 0x28. -/
def classFields (m : Msg) : List Byte :=
  padTo 24 (match m.cls with
    | 2 => natLe 1 m.rstatus
    | 4 => natLe 8 (maskOf (m.srcMap.map (·.1)))
    | 5 => natLe 2 m.ackSlot ++ natLe 1 (b2n m.anf) ++ natLe 1 m.rstatus
    | 6 => natLe 2 m.token ++ natLe 1 m.scount
    | 7 => natLe 4 m.nkind ++ natLe 4 m.rangeLen
    | 8 => natLe 4 m.vnf ++ natLe 4 m.sumsq
    | 9 => natLe 4 m.verdict ++ natLe 4 m.clip ++ natLe 4 m.lossScale
    | _ => [])

/-- A message as its flits carry it. -/
def msgWire (m : Msg) : List Byte :=
  natLe 1 m.cls ++ natLe 1 (b2n m.ackReq + 2 * b2n (descending m.src m.dst)) ++ natLe 1 m.src ++ natLe 1 m.dst ++ natLe 1 (flitsOf m) ++
  natLe 1 (if m.cls = 3 ∨ m.cls = 4 then m.mfmt else 0) ++ natLe 2 (if m.cls = 1 then m.len else m.data.length) ++ natLe 8 m.addr ++ natLe 8 m.mtag ++
  natLe 8 (if stepped m.cls then m.step % 2 ^ 48 else 0) ++ natLe 4 (if m.cls = 4 ∨ m.cls = 8 then m.count else 0) ++ natLe 4 0 ++ classFields m ++
  (if m.cls = 4 then padTo 192 ((List.range 36).flatMap (fun x => natLe 2 (tabGet 0 x m.srcMap))) else []) ++ m.data

/-- The message that flits have brought over a ring. -/
def readMsg (ring : Nat) (b : List Byte) : Msg :=
  let cls := getLe b 0 1
  let len := getLe b 6 2
  let map := bitsOf 36 (getLe b 0x28 8)
  { cls := cls, src := getLe b 2 1, dst := getLe b 3 1, ring := ring, ackReq := bitAt (getLe b 1 1) 0, mfmt := getLe b 5 1, len := len, addr := getLe b 8 8
    mtag := getLe b 0x10 8, step := getLe b 0x18 6, count := getLe b 0x20 4, data := if cls = 1 then [] else slice b (headBytes cls) len
    srcMap := if cls = 4 then map.map (fun x => (x, getLe b (0x40 + 2 * x) 2)) else []
    rstatus := if cls = 5 then getLe b 0x2B 1 else getLe b 0x28 1, ackSlot := getLe b 0x28 2, anf := bitAt (getLe b 0x2A 1) 0
    token := getLe b 0x28 2, scount := getLe b 0x2A 1, nkind := getLe b 0x28 1, rangeLen := getLe b 0x2C 4, vnf := getLe b 0x28 1
    sumsq := getLe b 0x2C 4, verdict := getLe b 0x28 1, clip := getLe b 0x2C 4, lossScale := getLe b 0x30 4 }

/-- `VC`: requests travel on channel 0, the other classes on channel 1 (R256). -/
def vcOf (cls : Nat) : Nat := if cls = 0 ∨ cls = 1 ∨ cls = 3 ∨ cls = 4 ∨ cls = 0xA ∨ cls = 0xB then 0 else 1

/-- `KIND` of flit `i` of `n`. -/
def kindOf (i n : Nat) : Nat := if n = 1 then 3 else if i = 0 then 0 else if i + 1 = n then 2 else 1

/-- A flit leaves a stop on its outgoing link `k` = ring × 2 + direction, whose retry buffer keeps the last 64 (R253). -/
def sendFlit (s : State) (st k side : Nat) (flit : List Byte) : State :=
  let x := s.stop st
  let n := tabGet 0 k x.sseq
  let l := tabGet [] k x.sent ++ [(side % 256 + 256 * n, flit)]
  s.setStop st { x with sent := tabPut k (l.drop (l.length - 64)) x.sent, sseq := tabPut k ((n + 1) % 256) x.sseq }

/-- The stop whose outgoing link in a direction ends at a stop. -/
def stopBefore (st dir : Nat) : Nat := stopOrder.getD ((posOf st + (if dir = 0 then 35 else 1)) % 36) 0

/-- A stop asks for a replay from `LSEQ` onwards on incoming link `k` = ring × 2 + direction: the sender sends what its retry buffer holds
from there on again (R253). -/
def askReplay (s : State) (st k lseq : Nat) : State :=
  let o := stopBefore st (k % 2)
  let x := s.stop o
  s.setStop o { x with again := tabPut k ((tabGet [] k x.sent).dropWhile (fun e => decide (e.1 / 256 ≠ lseq))) x.again }

/-- The flit of a sequence number has been accepted: it is no longer sent again. -/
def endReplay (s : State) (st k lseq : Nat) : State :=
  let o := stopBefore st (k % 2)
  let x := s.stop o
  match tabGet [] k x.again with
  | e :: l => if e.1 / 256 = lseq then s.setStop o { x with again := if l.isEmpty then tabErase k x.again else tabPut k l x.again } else s
  | [] => s

/-- The flits of a message leave its source. -/
def sendFlits (s : State) (m : Msg) : State :=
  let n := flitsOf m
  (chunksOf 512 n (padTo (512 * n) (msgWire m))).zipIdx.foldl (fun s (b, i) =>
    sendFlit s m.src (m.ring * 2 + b2n (descending m.src m.dst)) (kindOf i n + 4 * vcOf m.cls) b) s

/-- Put a message on its ring. A message that takes no answer waits at the issuing stop while its destination is parked (R350); with no ring
up, what is not for the stop itself is lost (R259). -/
def inject (s : State) (m : Msg) : State :=
  let m := { m with ring := pickRing s m }
  let silent := decide (m.cls = 0x0 ∧ !m.ackReq ∨ m.cls = 0x7 ∨ m.cls = 0x8 ∨ m.cls = 0xB)
  if silent && decide (m.dst < 32) && decide (mapSt s m.dst = .parked) then
    s.setStop m.src { s.stop m.src with held := (s.stop m.src).held ++ [m] }
  else
    if m.src = m.dst then { s with ring := s.ring ++ [m] }
    else if !(upRings s).contains m.ring then lostMsg s m
    else
      let s := sendFlits (s.bump (stopTxTxBytes m.src) (payloadLen m)) m
      { s with ring := s.ring ++ [m] }

/-- A fresh tag for a request, and who waits for its answer. -/
def newTag (s : State) (w : Waiter) : Nat × State :=
  (s.nextTag, { s with nextTag := s.nextTag + 1, waiters := tabPut s.nextTag w s.waiters })

/-- Issue a request that takes an answer: it carries a fresh tag and is kept until its answer comes (R350). -/
def ask (s : State) (w : Waiter) (m : Msg) : State :=
  let (t, s) := newTag s w
  let m := { m with mtag := t }
  inject { s with asked := tabPut t m s.asked } m

/-- Acknowledgement slots stand apart from the other tags: slot `k` of stop `st` (R254). -/
def slotTag (st k : Nat) : Nat := 2 ^ 64 + st * 65536 + k

/-- The lowest slot from `k` on that stop `st` has not in use, among `n`. -/
def freeSlot (s : State) (st : Nat) : Nat → Nat → Nat
  | 0, k => k % 65536
  | n + 1, k => if (tabFind (slotTag st k) s.waiters).isNone then k % 65536 else freeSlot s st n (k + 1)

/-- A range of device addresses cut at pages, with the home of each part; none where any is an address fault. -/
def atHomes (s : State) (a n : Nat) : Option (List (Nat × Nat × Nat)) :=
  (homesOf s a n).map (fun hs => (hs.foldl (fun (acc : List (Nat × Nat × Nat) × Nat) e => (acc.1 ++ [(acc.2, e.1, e.2)], acc.2 + e.2)) ([], a)).1)

/-- The message at index `i`, when it is the first of its source, destination and ring; a `RED_ADD` is bound by no order (R261). -/
def arriving (s : State) (i cls : Nat) : Option Msg :=
  match s.ring[i]? with
  | some m =>
    if m.cls = cls ∧ (cls = 4 ∨ !(s.ring.take i).any (fun x => decide (x.src = m.src ∧ x.dst = m.dst ∧ x.ring = m.ring ∧ x.cls ≠ 4))) then some m
    else none
  | none => none

/-- Take the message at index `i` off its ring: its payload counts as delivered. -/
def deliver (s : State) (i : Nat) (m : Msg) : State :=
  let s := { s with ring := s.ring.eraseIdx i }
  if m.src = m.dst then s else s.bump (stopRxRxBytes m.dst) (payloadLen m)

/-- The `MEM_RSP` to a request (R255). -/
def respond (s : State) (m : Msg) (rstatus : Nat) (data : List Byte) : State :=
  inject s { cls := 2, src := m.dst, dst := m.src, ring := m.ring, mtag := m.mtag, rstatus := rstatus, data := data, addr := m.addr, len := m.len }

/-- The account of a posted descriptor (R231). -/
def postedAcct (r : Nat) : Acct := { region := r, step := none, posted := true }

/-- A step-counted account. -/
def inStep (r t : Nat) : Acct := { region := r, step := some t }

/-! ## Combining (R262, R264) -/

/-- The stops whose output buffers a message passes, from where it set out or was last combined. -/
def wayOf (m : Msg) : List Nat :=
  let d := descending m.src m.dst
  let p := posOf (m.via.getD m.src)
  let n := if d then (p + 36 - posOf m.dst) % 36 else (posOf m.dst + 36 - p) % 36
  (List.range n).map (fun i => stopOrder.getD ((if d then p + 36 - i else p + i) % 36) 0)

/-- Stops that a verdict still passes, in order, to the one where it ends (R265). -/
def verdictWay (m : Msg) : List Nat := if m.src = m.dst then [m.dst] else (wayOf m).drop 1 ++ [m.dst]

/-- Stops that do not freewheel where two messages of one ring, direction and destination can wait together. -/
def meetStops (s : State) (x y : Msg) : List Nat :=
  if x.ring = y.ring ∧ x.dst = y.dst ∧ x.src ≠ x.dst ∧ y.src ≠ y.dst ∧ descending x.src x.dst = descending y.src y.dst then
    (wayOf x).filter (fun st => (wayOf y).contains st && !freewheels s st)
  else []

/-- One chance of two messages on the rings to become one: which two, and at which stop, are free choices (log 28). The result stands in the
older one's place; `t`, the place of a message of interest, is followed. -/
def combineOnce (fits : Msg → Msg → Bool) (merge : Msg → Msg → Msg) (count : Nat → Fld) (t : Nat) (s : State) : Nat × State :=
  let (a, s) := s.pick s.ring.length
  let (b, s) := s.pick s.ring.length
  let i := min a b
  let j := max a b
  match s.ring[i]?, s.ring[j]? with
  | some x, some y =>
    let l := meetStops s x y
    let (k, s) := s.pick l.length
    if i = j ∨ !fits x y then (t, s)
    else match l[k]? with
      | none => (t, s)
      | some st =>
        (if t = j then i else if j < t then t - 1 else t,
         { s with ring := (s.ring.set i { merge x y with via := some st }).eraseIdx j }.bump (count st) 1)
  | _, _ => (t, s)

/-- Any number of such chances, so that any number of messages may meet before the one in place `t` arrives. -/
def combineAll (fits : Msg → Msg → Bool) (merge : Msg → Msg → Msg) (count : Nat → Fld) : Nat → Nat → State → Nat × State
  | 0, t, s => (t, s)
  | n + 1, t, s =>
    let (t, s) := combineOnce fits merge count t s
    combineAll fits merge count n t s

/-! ## Injected checks (R437, R471) -/

/-- One firing of the armed injection; it is over when none is left. -/
def fired (s : State) : State :=
  let s := (s.put injStatusFired 1).bump injStatusFiredN 1
  match s.inj with
  | none => s
  | some j =>
    match j.left with
    | some n =>
      if n ≤ 1 then ({ s with inj := none }.put injCtrlArm 0).put injStatusArmed 0 else { s with inj := some { j with left := some (n - 1) } }
    | none => s

/-- Does an armed X injection make this check of a receiver fail? -/
def injectedFail (s : State) (codes : List Nat) (st unit : Nat) (value : Option Nat) : Bool × State :=
  match s.inj with
  | none => (false, s)
  | some j =>
    if codes.contains j.code && decide (j.stop = st ∧ j.unit = unit) && value.all (fun v => decide (j.value % 2 = v)) then (true, fired s) else (false, s)

end Sys2Proof.Machine
end

