-- ==== Sys2Proof/Machine/Operands.lean ====
section
/-! DEFINITION. The fields of a 64-byte hub command (R210-R212) and of the operand areas of every opcode (R90, R111, R141, R158, R176, R183). -/
namespace Sys2Proof.Machine

/-! ## Header (R210) -/

def cmdOpcode (b : List Byte) : Nat := getLe b 0 1
def cmdHflags (b : List Byte) : Nat := getLe b 1 1
/-- `FENCE`: not dispatched until every earlier command of its queue has completed. -/
def cmdFence (b : List Byte) : Bool := bitAt (cmdHflags b) 0
/-- `NO_CQ`: an `OK` writes no record (R222). -/
def cmdNoCq (b : List Byte) : Bool := bitAt (cmdHflags b) 1
/-- `TS`: the record carries a timestamp (R222). -/
def cmdTs (b : List Byte) : Bool := bitAt (cmdHflags b) 2
/-- `CQ`; of a value above 15, which R213 refuses, the low four bits name the queue of its record (log 16). -/
def cmdCq (b : List Byte) : Nat := getLe b 2 1 % 16
def cmdTag (b : List Byte) : Nat := getLe b 8 8

/-- A wait word: token, consume, threshold. -/
structure Wait where
  token : Nat
  consume : Bool
  threshold : Nat
  deriving DecidableEq, Repr

def waitWord (b : List Byte) (i : Nat) : Nat := getLe b (0x10 + 4 * i) 4

def waitOf (w : Nat) : Wait := { token := field w 0 12, consume := bitAt w 12, threshold := field w 14 18 }

/-- The valid waits of a command. -/
def cmdWaits (b : List Byte) : List Wait := (([0, 1, 2, 3].map (waitWord b)).filter (fun w => bitAt w 13)).map waitOf

/-- A signal word: token, region, count. -/
structure Sig where
  token : Nat
  region : Nat
  count : Nat
  deriving DecidableEq, Repr

def sigWord (b : List Byte) (i : Nat) : Nat := getLe b (0x20 + 4 * i) 4

def sigOf (w : Nat) : Sig := { token := field w 0 12, region := field w 12 5, count := field w 24 8 }

/-- The valid signals of a command. -/
def cmdSigs (b : List Byte) : List Sig := (([0, 1].map (sigWord b)).filter (fun w => bitAt w 17)).map sigOf

/-! ## Operand areas -/

/-- First operand address: `DESC_ADDR`, `MXD_ADDR`, `VD_ADDR`, `UD_ADDR`, `PD_ADDR`, `PRD_ADDR` or `ATAG`. -/
def opAddr (b : List Byte) : Nat := getLe b 0x28 8
/-- `TARGET` (R90). -/
def opTarget (b : List Byte) : Nat := getLe b 0x30 1
/-- A valid `TARGET`: logical cluster 0-47; its reserved bit 7 is ignored (R9). -/
def targetOk (t : Nat) : Bool := decide (t % 64 < 48)
/-- Cluster number 48 × D + MM of a valid `TARGET`. -/
def targetCl (t : Nat) : Nat := t / 64 % 2 * 48 + t % 64
/-- `TQ_STREAM` (R90, R111). -/
def opStream (b : List Byte) : Nat := getLe b 0x32 2
/-- Channel number 32 × D + 16 × E + C of a `DMA_SUBMIT` (R212). -/
def opChannel (b : List Byte) : Nat := getLe b 0x30 1 % 2 * 32 + getLe b 0x30 1 / 2 % 2 * 16 + getLe b 0x31 1
/-- The pannier's channel: channel 15 of engine 1 on die `a` (R232). -/
def panChannel : Nat := 31

/-- The executing unit's FIFO (R211, R214): 0 the hub, 1 its aborts, which strike in the cycle after their dispatch (R228), 100 + cl an MXE, 200 + cl a VE, 300 + d a UPE, 310 the pannier engine,
400 + cl the predictor unit, 1000 + ch a DMA channel. -/
def unitKey (b : List Byte) : Nat :=
  match cmdOpcode b with
  | 0x01 | 0x02 | 0x03 => 0
  | 0x04 => 1
  | 0x10 => 1000 + opChannel b
  | 0x20 | 0x21 | 0x22 => 100 + targetCl (opTarget b)
  | 0x30 => 200 + targetCl (opTarget b)
  | 0x40 => 300 + opTarget b % 2
  | 0x50 | 0x51 | 0x52 => 310
  | _ => 400 + targetCl (opTarget b)

/-- Opcodes of R211. -/
def opcodes : List Nat := [0x01, 0x02, 0x03, 0x04, 0x10, 0x20, 0x21, 0x22, 0x30, 0x40, 0x50, 0x51, 0x52, 0x60, 0x61]

/-- Opcodes with a `TARGET`. -/
def hasTarget (op : Nat) : Bool := [0x20, 0x21, 0x22, 0x30, 0x60, 0x61].contains op

/-- The `CAP` bit of the optional unit that an opcode belongs to (R211). -/
def opUnit (op : Nat) : Option Nat :=
  match op with
  | 0x21 => some 1
  | 0x22 | 0x60 | 0x61 => some 0
  | 0x40 => some 3
  | _ => none

/-- Are the bytes from `o` to `o + n - 1` zero? -/
def zeros (b : List Byte) (o n : Nat) : Bool := decide (getLe b o n = 0)

end Sys2Proof.Machine
end

