-- ==== Sys2Proof/Machine/Flags.lean ====
section
/-! DEFINITION. Completion statuses (R225), record flags (R222), and what a status means for signals, faults and records (R226). -/
namespace Sys2Proof.Machine

def stOk : Nat := 0x00
def stAborted : Nat := 0x01
def stAlreadyDone : Nat := 0x02
def stNotFound : Nat := 0x03
def stStepFailed : Nat := 0x04
def stInvalidField : Nat := 0x08
def stAddressFault : Nat := 0x09
def stAbsentUnit : Nat := 0x0A
def stClusterFailed : Nat := 0x0B
def stMemUncorrectable : Nat := 0x0C
def stPanKeyLive : Nat := 0x20
def stPanExhausted : Nat := 0x21
def stPanFull : Nat := 0x22
def stPanNoEntry : Nat := 0x23
def stPanAnchorBusy : Nat := 0x24
def stDmaTargetLost : Nat := 0x40
def stDmaRdmaRemote : Nat := 0x41
def stDmaRdmaRetry : Nat := 0x42
def stDmaPeerInvalid : Nat := 0x43
def stDmaBarrierTimeout : Nat := 0x44
def stDmaOverlap : Nat := 0x45

/-- `FLAGS` bits of a completion record (R222). -/
def flAbortLate : Nat := 1
def flNonfinite : Nat := 2
def flSpilled : Nat := 4
def flDenseFallback : Nat := 8
def flPredMiss : Nat := 16
def flRecomputed : Nat := 32

/-- Union of flag sets. -/
def flagsOr (a b : Nat) : Nat := a ||| b

/-- Does a command that ends with this status signal its tokens (R226)? -/
def signalsOn (status : Nat) : Bool := !([stInvalidField, stAddressFault, stAbsentUnit, stClusterFailed].contains status)

/-- Does a command of q4-q7 that ends with this status record a contained fault (R226)? -/
def faultsOn (status : Nat) : Bool := !([stOk, stStepFailed].contains status)

/-- Does this status raise a `CMD_FAIL` record (R226, R436)? -/
def failsOn (status : Nat) : Bool := !([stOk, stAborted, stStepFailed, stMemUncorrectable].contains status)

/-- The 32-byte completion record (R222). -/
def recordBytes (tag status q : Nat) (posted phase : Bool) (flags progress cycles bytes : Nat) : List Byte :=
  natLe 8 tag ++ natLe 1 status ++ natLe 1 (q % 8 + 8 * b2n posted + 128 * b2n phase) ++ natLe 2 flags ++ natLe 4 progress ++
  natLe 8 cycles ++ natLe 8 bytes

end Sys2Proof.Machine
end

