-- ==== Sys2Proof/Machine/Hub.lean ====
section
/-! DEFINITION. The hub (09_hub_scheduler): queues, fetch, dispatch, the scoreboard, the step counter, retirement. The abort stands in
Abort.lean, after the units that it stops. -/
namespace Sys2Proof.Machine

/-! ## Rings and queue registers -/

/-- R207: a ring of `n` bytes at `a` is 4 KiB aligned and lies in the region's own stack window or in an LLM partition of its own
dies in scratchpad or accumulator-buffer mode. -/
def ringPlaceOk (s : State) (r a n : Nat) : Bool :=
  decide (a % 4096 = 0) && (inside a n (stackBase r) 0x2000000000 && built s r || inOwnLlm s r a n)

/-- Commands of a queue that are fetched and not done (R230). -/
def liveOf (h : Hub) (q : Nat) : Nat := (h.live.filter (fun l => decide (l.q = q))).length

/-- A doorbell (R208). -/
def doorbell (s : State) (r q tail : Nat) : State :=
  let head := s.get (qHeadHead r q)
  let old := (s.get (qTailTail r q) + 2048 - head) % 2048
  let new := (tail + 2048 - head) % 2048
  if s.on (qCtrlProg r q) then s.put (qStatusDoorbellErr r q) 1
  else if old ≤ new ∧ new ≤ 1024 then s.put (qTailTail r q) tail
  else s.put (qStatusDoorbellErr r q) 1

/-- A write of `ENABLE` (R208, R230): setting resets head and tail and ends an error stop; clearing is ignored while commands live. -/
def queueEnable (s : State) (r q : Nat) (on : Bool) : State :=
  if on then
    if s.on (qCtrlEnable r q) then s
    else (((s.put (qCtrlEnable r q) 1).put (qHeadHead r q) 0).put (qTailTail r q) 0).updHub r (fun h => { h with noFetch := setDel q h.noFetch })
  else if liveOf (s.hub r) q = 0 then s.put (qCtrlEnable r q) 0
  else s

/-- A write of `Q_BASE` (R207). -/
def queueBase (s : State) (r q v : Nat) : State :=
  if s.on (qCtrlEnable r q) then s
  else if ringPlaceOk s r (v % 2 ^ 48) 65536 then s.put (qBaseBase r q) v
  else s.put (qStatusCfgErr r q) 1

/-- Does a region's block take writes: its region is neither parked nor off (R351)? -/
def blockUp (s : State) (r : Nat) : Bool := decide (mapSt s r = .running)

/-- Over RDMA the registers of q4-q7 are read-only (R446); those of a parked or off region ignore writes (R351). -/
def queueWritable (s : State) (p : Path) (r q : Nat) : Bool := (decide (p = .firmware) || decide (q < 4)) && blockUp s r

/-- A write of `CQ_CTRL` (R224): `EVENT` and `LOG2_N` first, then `ENABLE`, which resets head and tail. -/
def cqCtrl (s : State) (r c v : Nat) : State :=
  let n := field v 8 5
  if n < 6 ∨ 16 < n then s
  else
    let was := s.on (cqCtrlEnable r c)
    let s := ((s.put (cqCtrlEvent r c) (field v 1 1)).put (cqCtrlLog2N r c) n).put (cqCtrlEnable r c) (field v 0 1)
    if bitAt v 0 && !was then (s.put (cqTailTail r c) 0).put (cqHeadHead r c) 0 else s

/-- A write of `CQ_BASE` (R224). -/
def cqBase (s : State) (r c v : Nat) : State :=
  if s.on (cqCtrlEnable r c) then s
  else if ringPlaceOk s r (v % 2 ^ 48) (32 * 2 ^ s.get (cqCtrlLog2N r c)) then s.put (cqBaseBase r c) v
  else s.put (cqStatusCfgErr r c) 1

/-- Records between head and tail, modulo twice the ring. -/
def cqFill (s : State) (r c : Nat) : Nat :=
  let m := 2 ^ (s.get (cqCtrlLog2N r c) + 1)
  (s.get (cqTailTail r c) + m - s.get (cqHeadHead r c) % m) % m

/-- A write of `CQ_HEAD` (R224): ignored where it would pass the tail. -/
def cqHead (s : State) (r c v : Nat) : State :=
  let m := 2 ^ (s.get (cqCtrlLog2N r c) + 1)
  let h := s.get (cqHeadHead r c)
  let adv := (v % 2 ^ 17 + m - h % m) % m
  if v % 2 ^ 17 < m ∧ adv ≤ cqFill s r c then s.put (cqHeadHead r c) v else s.put (cqStatusHeadErr r c) 1

/-- Is the completion queue full? -/
def cqFull (s : State) (r c : Nat) : Bool := decide (2 ^ s.get (cqCtrlLog2N r c) ≤ cqFill s r c)

/-! ## The live set -/

def findLive (h : Hub) (id : Nat) : Option Live := h.live.find? (fun l => decide (l.id = id))

/-- Change one live command. -/
def updLive (s : State) (r id : Nat) (f : Live → Live) : State :=
  s.updHub r (fun h => { h with live := h.live.map (fun l => if l.id = id then f l else l) })

/-- Commands waiting in a unit's FIFO, oldest first. -/
def fifoOf (s : State) (r key : Nat) : List Nat := tabGet [] key (s.hub r).fifo

/-- Commands that have not completed: the live ones, and those whose record is not visible yet (R221). -/
def unfinished (h : Hub) : List Live := h.live ++ h.writes.filterMap (·.live)

/-- The live command at the front of a unit's FIFO. -/
def fifoHead (s : State) (r key : Nat) : Option Live := (fifoOf s r key).head?.bind (findLive (s.hub r))

/-- The unit takes the command at the front of its FIFO. -/
def fifoPop (s : State) (r key : Nat) : State :=
  s.updHub r (fun h => { h with fifo := tabPut key (tabGet [] key h.fifo).tail h.fifo })

/-- A command leaves a unit's FIFO unexecuted. -/
def fifoDrop (s : State) (r key id : Nat) : State :=
  s.updHub r (fun h => { h with fifo := tabPut key (setDel id (tabGet [] key h.fifo)) h.fifo })

/-- The account of a command's accesses. -/
def acctOf (r : Nat) (l : Live) : Acct := inStep r l.step

/-- A unit's retire request (R221); a struck command asks to retire `ABORTED` (R228). A command that a unit submitted itself writes no
record and reports to that unit (R145, R179). -/
def requestRetire (s : State) (r : Nat) (l : Live) (res : Res) : State :=
  let res := if l.struck ∨ res.status = stAborted then { res with status := stAborted, progress := res.work } else res
  if l.q = 8 then s.updHub r (fun h => { h with live := h.live.filter (fun x => decide (x.id ≠ l.id)), subs := tabPut l.id res h.subs })
  else s.updHub r (fun h => { h with reqs := h.reqs ++ [{
    cmd := some l.id, q := l.q, disp := l.disp, cq := cmdCq l.bytes, tag := cmdTag l.bytes, ts := cmdTs l.bytes,
    noCq := cmdNoCq l.bytes, res := { res with flags := if l.late then flagsOr res.flags flAbortLate else res.flags } }] })

/-- A command finishes with a status and a unit's free number of stall cycles added to its least. -/
def finish (s : State) (r : Nat) (l : Live) (res : Res) : State :=
  let (k, s) := s.stalls
  requestRetire s r l { res with cycles := res.cycles + k }

/-! ## Fetch (R207, R208) -/

/-- Does the queue's program stand at or past its last command? -/
def progEnd (s : State) (r q : Nat) : Bool := decide (tabGet 0 q (s.hub r).progN ≤ s.get (qHeadHead r q))

/-- Has the queue a slot that is not fetched, and does it fetch? -/
def slotLeft (s : State) (r q : Nat) : Bool :=
  running s r && !(s.hub r).noFetch.contains q &&
  (if s.on (qCtrlProg r q) then
    !progEnd s r q && !s.on (qStatusProgDone r q) && !s.on (qStatusProgStopped r q) && !s.on (resStatRerunHold r) && !(s.hub r).draining
  else s.on (qCtrlEnable r q) && decide (s.get (qHeadHead r q) ≠ s.get (qTailTail r q)))

/-- May the hub read the queue's next slot? At most 1024 of its commands live at a time (R230). -/
def canFetch (s : State) (r q : Nat) : Bool := slotLeft s r q && decide (liveOf (s.hub r) q < 1024)

/-- A fetched command joins the live set, waiting. -/
def pushLive (s : State) (r q : Nat) (b : List Byte) : State :=
  s.updHub r (fun h => { h with live := h.live ++ [{ id := h.nextId, q := q, bytes := padTo 64 b }], nextId := h.nextId + 1 })

/-- The hub reads the next slot of a queue (R207, R208). -/
def fetchOne (s : State) (r q : Nat) : State :=
  if s.on (qCtrlProg r q) then
    let slot := s.get (qHeadHead r q)
    (pushLive s r q (tabGet [] (q * 1024 + slot) (s.hub r).store)).put (qHeadHead r q) (slot + 1)
  else
    let head := s.get (qHeadHead r q)
    let a := s.get (qBaseBase r q) + 64 * (head % 1024)
    let step := if 4 ≤ q then some (s.get (hubStepCntStep r)) else none
    match readMem s { region := r, step := none } a 64 with
    | (.ok b, s) => (pushLive s r q b).put (qHeadHead r q) ((head + 1) % 2048)
    | (.error _, s) =>
      let s := s.updHub r (fun h => { h with noFetch := setIns q h.noFetch })
      raiseErr (s.put (qStatusFetchErr r q) 1) 0x060C (if 4 ≤ q then 1 else 0) r (unitOf 6 q) step a q (injectedIn s a 64)

/-- COMMAND_FETCH. -/
def execCommandFetch (r : Fin 32) (q : Fin 8) (s : State) : Host.Outcome State Fault Refusal :=
  if canFetch s r q then .next (fetchOne s r q) else .next s

/-! ## Checks of R213 -/

/-- The logical name has no passing physical cluster (R13, R423). -/
def failedLogical (s : State) (r cl : Nat) : Bool :=
  let f := (bitsOf 50 (s.get (repairFailedPhys r (cl / 48)))).length
  decide (2 < f) && decide (48 - (f - 2) ≤ cl % 48)

/-- No token is named twice among the waits. -/
def distinctWaits (b : List Byte) : Bool := ((cmdWaits b).map (·.token)).Nodup

/-- Order 1 of R213. -/
def headerOk (s : State) (b : List Byte) : Bool :=
  opcodes.contains (cmdOpcode b) && decide (cmdHflags b < 8) && decide (getLe b 2 1 < 16) && zeros b 3 5 &&
  decide (field (sigWord b 0) 18 6 = 0) && decide (field (sigWord b 1) 18 6 = 0) && distinctWaits b &&
  (cmdSigs b).all (fun g => !excluded s g.region && decide (1 ≤ g.count))

/-- Order 4 of R213: the fields that the hub reads. Reserved bits outside the header are ignored (R9). -/
def operandOk (b : List Byte) : Bool :=
  match cmdOpcode b with
  | 0x01 | 0x03 | 0x40 => true
  | 0x02 => decide (getLe b 0x28 1 ≤ 2) && decide (getLe b 0x2A 2 < 4096)
  | 0x04 => decide (getLe b 0x31 1 ≤ 1)
  | 0x10 => decide (getLe b 0x31 1 < 16) && decide (opChannel b ≠ panChannel)
  | op => !hasTarget op || targetOk (opTarget b)

/-- The checks in their order: the status of the first that fails. -/
def dispatchCheck (s : State) (r : Nat) (b : List Byte) : Option Nat :=
  let op := cmdOpcode b
  if !headerOk s b then some stInvalidField
  else if (opUnit op).any (fun u => !bitAt (s.get capUnits) u) then some stAbsentUnit
  else if hasTarget op && targetOk (opTarget b) && failedLogical s r (targetCl (opTarget b)) then some stClusterFailed
  else if !operandOk b then some stInvalidField
  else none

/-! ## Dispatch (R214) -/

/-- Are the programs of the region stalled (R52, R136, R144, R219, R380)? A hub that is asked to stall and has come to stand still counts as
stalled from that moment. -/
def progStalled (s : State) (r : Nat) : Bool :=
  !(s.hub r).stalled.isEmpty || (!(s.hub r).asks.isEmpty && standsStill s r) || s.on (dfStatusAheadStall r) || s.on (panStatusHalted r) || s.on (resStatRerunHold r) || (s.hub r).draining

/-- The oldest waiting command of a queue. -/
def headCmd (h : Hub) (q : Nat) : Option Live := h.live.find? (fun l => decide (l.q = q) && decide (l.st = .waiting))

/-- Every valid wait is met. -/
def waitsMet (s : State) (r : Nat) (b : List Byte) : Bool :=
  (cmdWaits b).all (fun w => decide (w.threshold ≤ s.get (tokenValue r w.token)))

/-- Has a command of region `r` that satisfies `p` (its queue, its number) a signal that is not yet accepted (R217)? -/
def owesSignal (s : State) (r : Nat) (p : Nat → Nat → Bool) : Bool :=
  (s.hub r).unsettled.any (fun u => p u.q u.cmd) ||
  s.waiters.any (fun w => match w.2 with | .signal x c q _ => decide (x = r) && p q c | _ => false)

/-- `FENCE` holds: every earlier command of the queue has completed, which it does once its signals are accepted (R210, R217). -/
def fenceMet (s : State) (r : Nat) (l : Live) : Bool :=
  !cmdFence l.bytes ||
  (!(unfinished (s.hub r)).any (fun x => decide (x.q = l.q) && decide (x.id < l.id)) && !owesSignal s r (fun q c => decide (q = l.q) && decide (c < l.id)))

/-- The unit's FIFO has room (R214, R231); a channel's counts the commands that the hub is about to hand over, and the hub's own its aborts. -/
def hasRoom (s : State) (r : Nat) (b : List Byte) : Bool :=
  let k := unitKey b
  let posted := if 1000 ≤ k then (s.chan r (k - 1000)).fifo.length else if k < 2 then (fifoOf s r (1 - k)).length else 0
  decide ((fifoOf s r k).length + posted < 4)

/-- Queues may dispatch: q4-q7 stop for a stall (R52), every queue once the module is quiesced (R428). -/
def queueOpen (s : State) (r q : Nat) : Bool := running s r && !quiesced s && (decide (q < 4) || !progStalled s r)

/-- Is the head command of a queue ready? One that fails a check of R213 is, whatever stalls its queue: it retires at once. -/
def ready (s : State) (r q : Nat) : Option Live :=
  match headCmd (s.hub r) q with
  | none => none
  | some l =>
    if running s r && (dispatchCheck s r l.bytes).isSome then some l
    else if queueOpen s r q && waitsMet s r l.bytes && fenceMet s r l && hasRoom s r l.bytes then some l
    else none

/-- Queues in the order of R214: after the one dispatched from last, wrapping. -/
def queueTurn (lastQ : Nat) : List Nat := (List.range 8).map (fun i => (lastQ + 1 + i) % 8)

/-- Consume the waits of a command (R214). -/
def consumeWaits (s : State) (r : Nat) (b : List Byte) : State :=
  (cmdWaits b).foldl (fun s w =>
    if w.consume then s.put (tokenValue r w.token) (s.get (tokenValue r w.token) - w.threshold) else s) s

/-- A terminator entry (R108). It carries no tile, so `PRESENT` is 0 (log 56). -/
def terminator (stream status pushed : Nat) (flags : Nat) : TqEntry :=
  { stream := stream, last := true, term := true, nonfinite := bitAt flags 1, denseFb := bitAt flags 3, seq := pushed, status := status, present := 0 }

/-- Push an entry unless its stream is being discarded (R109): the discard ends with an entry marked `LAST`. -/
def pushEntry (c : Cluster) (e : TqEntry) : Cluster :=
  if c.discard.contains e.stream then (if e.last then { c with discard := setDel e.stream c.discard } else c)
  else { c with tq := c.tq ++ [e] }

/-- The terminator of an MXE command that never started is due, after the entries of the commands dispatched before number `k` (R99,
R108). -/
def oweTerm (s : State) (r : Nat) (b : List Byte) (status k : Nat) : State :=
  let c := s.cluster r (targetCl (opTarget b))
  let before := c.owed.filter (fun e => decide (e.1 ≤ k))
  s.setCluster r (targetCl (opTarget b)) { c with
    owed := before ++ (k, terminator (opStream b) status 0 0) :: c.owed.filter (fun e => decide (k < e.1)) }

/-- The terminator of an MXE command that fails order 2 or 4 of R213 at a valid `TARGET`, pushed by the hub (R108); a command that fails
order 1 pushes none (log 56), and order 4 has no other check of an MXE command than that of `TARGET`. -/
def hubTerminator (s : State) (r : Nat) (b : List Byte) (status : Nat) : State :=
  if (cmdOpcode b = 0x21 ∨ cmdOpcode b = 0x22) ∧ status = stAbsentUnit ∧ targetOk (opTarget b) ∧ !failedLogical s r (targetCl (opTarget b)) then
    oweTerm s r b status (s.hub r).nextDisp
  else s

/-- The last command of a program has been dispatched: a looping program stands at its wrap point, another is done (R219). -/
def programEnd (s : State) (r q : Nat) : State :=
  if s.on (qCtrlProg r q) && progEnd s r q && (headCmd (s.hub r) q).isNone && !s.on (qStatusProgDone r q) then
    if s.on (qCtrlLoop r q) then s.updHub r (fun h => { h with atWrap := setIns q h.atWrap })
    else (s.put (qStatusProgDone r q) 1).put (qPassesPasses r q) (s.get (qPassesPasses r q) + 1)
  else s

/-! ## Hub opcodes (R212, R220) -/

/-- The live command at the front of the hub's own FIFO, or of its aborts, when it has the opcode and the region's units run. -/
def hubTurn (s : State) (r op : Nat) : Option Live :=
  match fifoHead s r (b2n (decide (op = 0x04))) with
  | some l => if running s r ∧ cmdOpcode l.bytes = op then some l else none
  | none => none

/-- HUB_NOP. -/
def execHubNop (r : Fin 32) (s : State) : Host.Outcome State Fault Refusal :=
  match hubTurn s r 0x01 with
  | none => .next s
  | some l => .next (finish (fifoPop s r 0) r l {})

/-- A token under `TOP` (R212). -/
def tokenOp (top old v : Nat) : Nat :=
  match top with
  | 0 => v
  | 1 => satAdd 32 old v
  | _ => old - v

/-- HUB_TOKEN. -/
def execHubToken (r : Fin 32) (s : State) : Host.Outcome State Fault Refusal :=
  match hubTurn s r 0x02 with
  | none => .next s
  | some l =>
    let t := getLe l.bytes 0x2A 2
    let s := s.put (tokenValue r t) (tokenOp (getLe l.bytes 0x28 1) (s.get (tokenValue r t)) (getLe l.bytes 0x2C 4))
    .next (finish (fifoPop s r 0) r l {})

/-- Tokens of a region, as an image (R371). -/
def tokenImage (s : State) (r : Nat) : Tab Nat :=
  (s.regs.filter (fun e => decide ((tokenValue r 0).key ≤ e.1 ∧ e.1 < (tokenValue r 0).key + 4096 * 64))).map
    (fun e => ((e.1 - (tokenValue r 0).key) / 64, e.2))

/-- Is the counter kept from advancing by a missing verdict (R136)? -/
def aheadOf (s : State) (r : Nat) : Bool := decide ((s.flow r).done < s.get (hubStepCntStep r))

/-- Does a mode switch end: every region has applied the per-command settings, a parked one too, and every root that runs has reached its
target (R357)? -/
def settleMode (s : State) : State :=
  let ok := (List.range 32).all (fun r => decide (mapSt s r = .off) || (decide (tabGet 0 r s.cmdMode = s.get modeCtrlCurMode) &&
    (decide (mapSt s r = .parked) || decide (s.get (clkStatRootMhz r) = s.get (clkStatTargetMhz r)))))
  if ok then s.put modeCtrlSwitching 0 else s

/-- Entry of the ride-mode table for the mode whose per-command settings region `r` applies (R38, R357). -/
def modeByte (s : State) (r off : Nat) : Nat := getLe (tabGet [] 5 s.bs.secs) (16 + 16 * tabGet 0 r s.cmdMode + off) 1

/-- Under `SUBNORMAL` 0 the subnormal paths of the region's VEs and UPEs have power at all times (R356). -/
def settlePaths (s : State) (r : Nat) : State :=
  if modeByte s r 10 = 1 then s
  else { s with clusters := s.clusters.map (fun e => if e.1 / 96 = r then (e.1, { e.2 with subDown := false }) else e)
                upes := s.upes.map (fun e => if e.1 / 2 = r then (e.1, { e.2 with subDown := false }) else e) }

/-- Region `r` applies the per-command settings of mode `m` (R357). -/
def applyMode (s : State) (r m : Nat) : State := settlePaths { s with cmdMode := tabPut r m s.cmdMode } r

/-- The step counter advances by 1 (R219): stalls that were asked for begin, the mode's per-command settings apply (R357), and the
image of the tokens is latched for the new step, the two newest being kept (R371). -/
def advanceStep (s : State) (r : Nat) : State :=
  let t := s.get (hubStepCntStep r) + 1
  let s := s.put (hubStepCntStep r) t
  let s := applyMode s r (s.get modeCtrlCurMode)
  let s := s.updHub r (fun h => { h with
    stalled := h.asks.foldl (fun l k => setIns k l) h.stalled, asks := [], advanced := h.advanced + 1, fresh := true,
    images := ((t, tokenImage s r) :: h.images).take 2 })
  settleMode s

/-- HUB_STEP (R220): it waits under R136 like any advance. -/
def execHubStep (r : Fin 32) (s : State) : Host.Outcome State Fault Refusal :=
  match hubTurn s r 0x03 with
  | none => .next s
  | some l =>
    if !(loopQueues s r).isEmpty then .next (finish (fifoPop s r 0) r l { status := stInvalidField })
    else if aheadOf s r then .next (s.put (dfStatusAheadStall r) 1)
    else .next (finish (advanceStep (fifoPop s r 0) r) r l {})

/-- STEP_INCREMENT (R219). -/
def execStepIncrement (r : Fin 32) (s : State) : Host.Outcome State Fault Refusal :=
  let qs := loopers s r
  if !running s r || qs.isEmpty || !qs.all (fun q => (s.hub r).atWrap.contains q) || (s.hub r).draining || s.on (resStatRerunHold r) then .next s
  else if aheadOf s r then .next (s.put (dfStatusAheadStall r) 1)
  else
    let s := advanceStep (s.put (dfStatusAheadStall r) 0) r
    let h := s.hub r
    let s := qs.foldl (fun s q => s.put (qPassesPasses r q) (s.get (qPassesPasses r q) + 1)) s
    let s := s.updHub r (fun h => { h with atWrap := [] })
    if h.stepLimit ≠ 0 ∧ h.stepLimit ≤ h.advanced then
      .next (qs.foldl (fun s q => s.put (qStatusProgDone r q) 1) s)
    else .next (qs.foldl (fun s q => s.put (qHeadHead r q) 0) s)

/-! ## Scoreboard (R216, R217) -/

/-- A signal adds to a token of region `r`: a sum beyond the maximum stops there and is a contained fault (R216). -/
def signalToken (s : State) (r token count : Nat) (step : Option Nat) (tag : Nat) : State :=
  let v := s.get (tokenValue r token) + count
  if v < 2 ^ 32 then s.put (tokenValue r token) v
  else raiseErr ((s.put (tokenValue r token) (2 ^ 32 - 1)).put (hubStatTokSat r) 1) 0x0602 1 r 0 step tag token

/-- A signal message is applied. -/
def signalArrives (s : State) (r : Nat) (m : Msg) : State :=
  signalToken s r m.token m.scount (m.acct.map (·.1)) ((m.acct.map (·.2)).getD 0)

/-- One signal of a command: local at once, remote as a ring message (R216). -/
def sendSignal (s : State) (r id q tag step : Nat) (g : Sig) : State :=
  if g.region = r then signalToken s r g.token g.count (some step) tag
  else
    let (t, s) := newTag s (.signal r id q step)
    inject s { cls := 6, src := r, dst := g.region, token := g.token, scount := g.count, mtag := t, acct := some (step, tag) }

/-! ## Retirement (R221-R224) -/

/-- Does the completion of a request write a record? -/
def writesRecord (s : State) (r : Nat) (x : Req) : Bool :=
  s.on (cqCtrlEnable r x.cq) && !(x.noCq && decide (x.res.status = stOk))

/-- Can the arbiter grant this request now (R223, R224)? -/
def grantable (s : State) (r : Nat) (x : Req) : Bool :=
  !(writesRecord s r x && cqFull s r x.cq) &&
  (match x.cmd.bind (findLive (s.hub r)) with
   | some l => l.waitFor.all (fun id => !(unfinished (s.hub r)).any (fun x => decide (x.id = id)) && !owesSignal s r (fun _ c => decide (c = id)))
   | none => true)

/-- The faults and records of a command's end (R226, R222, R249). -/
def endEffects (s : State) (r : Nat) (x : Req) (step : Nat) (dma : Bool) : State :=
  let st := x.res.status
  let own := decide (4 ≤ x.q) && x.cmd.isSome
  -- PAN_EXHAUSTED is a contained fault on any queue (R143)
  let s := if own && faultsOn st || x.cmd.isSome && decide (st = stPanExhausted) then faultStep s r step else s
  let s := if bitAt x.res.flags 1 && x.cmd.isSome then
      let f := s.flow r
      s.setFlow r { f with nf := setIns step f.nf }
    else s
  if failsOn st && (own || dma || !s.on (cqCtrlEnable r x.cq)) then
    raiseErr s 0x0603 (b2n own) r (unitOf 6 x.q) (if own then some step else none) x.tag st
  else s

/-- The write of a granted command's record is issued (R221): the command leaves the live set and enters its queue's history. Of the records
in flight the grant before this one may still be in its first two cycles, every earlier one is issued. -/
def issueWrite (s : State) (r : Nat) (w : RecWrite) : State :=
  s.updHub r (fun h =>
    let n := h.writes.length
    let h := { h with writes := h.writes.zipIdx.map (fun (x, i) => if i + 1 < n then { x with issued := true } else x) ++ [w] }
    match w.live with
    | none => h
    | some l => { h with
        live := h.live.filter (fun x => decide (x.id ≠ l.id))
        hist := tabPut l.q (((if cmdOpcode l.bytes = 0x04 then none else some (cmdTag l.bytes)) :: tabGet [] l.q h.hist).take 32) h.hist })

/-- RETIRE_GRANT: the oldest grantable request becomes RETIRING and its record is on its way. -/
def execRetireGrant (r : Fin 32) (s : State) : Host.Outcome State Fault Refusal :=
  match (s.hub r).reqs.findIdx? (fun x => running s r && grantable s r x) with
  | none => .next s
  | some i =>
    match (s.hub r).reqs[i]? with
    | none => .next s
    | some x =>
      let s := s.updHub r (fun h => { h with reqs := h.reqs.eraseIdx i })
      let l := x.cmd.bind (findLive (s.hub r))
      let step := match l with
        | some l => if l.disp ≠ 0 then l.step else s.get (hubStepCntStep r)
        | none => s.get (hubStepCntStep r)
      let dma := match l with
        | some l => decide (cmdOpcode l.bytes = 0x10)
        | none => true
      let rec? := writesRecord s r x
      let s := endEffects s r x step dma
      let (cyc, s) := if x.ts then s.stamp else (x.res.cycles, s)
      let n := s.get (cqCtrlLog2N r x.cq)
      let tail := s.get (cqTailTail r x.cq)
      let phase := !bitAt tail n
      let flags := match l with
        | some l => if l.late then flagsOr x.res.flags flAbortLate else x.res.flags
        | none => x.res.flags
      let w : RecWrite := {
        cmd := x.cmd, q := x.q, cq := if rec? then some x.cq else none
        addr := s.get (cqBaseBase r x.cq) + 32 * (tail % 2 ^ n)
        bytes := recordBytes x.tag x.res.status x.q x.cmd.isNone phase flags x.res.progress cyc x.res.bytes
        status := x.res.status, event := s.on (cqCtrlEvent r x.cq), live := l.map (fun l => { l with st := .retiring, step := step }) }
      let s := issueWrite s r w
      if rec? then
        let s := s.put (cqTailTail r x.cq) ((tail + 1) % 2 ^ (n + 1))
        .next (if cqFull s r x.cq then s.bump (cqStatusFullEvents r x.cq) 1 else s)
      else .next s

/-- An event joins the buffer, or is counted as lost (R299). -/
def pushEvent (s : State) (kind src : Nat) (payload : List Byte) : State :=
  if s.evbuf.length < 4096 then
    let (t, s) := s.stamp
    { s with evbuf := s.evbuf ++ [{ kind := kind, src := src, time := t, timeValid := s.on ptpStatLocked, payload := padTo 48 payload }] }
  else { s.bump evtLostLost 1 with evLost := s.evLost + 1 }

/-- The record write itself: second half, then first (R221); a failure disables the queue (R224). -/
def writeRecord (s : State) (r c : Nat) (w : RecWrite) (step : Option Nat) (tag : Nat) : State :=
  let fail := fun (s : State) =>
    raiseErr ((s.put (cqCtrlEnable r c) 0).put (cqStatusWrErr r c) 1) 0x060B (b2n step.isSome) r (unitOf 6 (8 + c)) step tag c (injectedIn s w.addr 32)
  match writeMem s { region := r, step := none } (w.addr + 16) (w.bytes.drop 16) with
  | (some _, s) => fail s
  | (none, s) =>
    match writeMem s { region := r, step := none } w.addr (w.bytes.take 16) with
    | (some _, s) => fail s
    | (none, s) => if w.event then pushEvent s 1 (r + 256 * c) w.bytes else s

/-- Records in flight that may become visible next, by place: within one completion queue they do so in grant order, and in no other (R223). -/
def nextWrites (l : List RecWrite) : List Nat :=
  (List.range l.length).filter (fun i => (l[i]?.map (fun w => w.cq.isNone || !(l.take i).any (fun x => x.cq == w.cq))).getD false)

/-- One of the records that may become visible next, a free choice, and its place. -/
def pickWrite (s : State) (r : Nat) : Option (Nat × RecWrite) × State :=
  let l := (s.hub r).writes
  let next := nextWrites l
  let (k, s) := s.pick next.length
  (next[k]?.bind (fun i => l[i]?.map (fun w => (i, w))), s)

/-- RECORD_VISIBLE: a record in flight is visible, then the command's signals apply and it is done. Commands that the drain struck signal
nothing (R380). -/
def execRecordVisible (r : Fin 32) (s : State) : Host.Outcome State Fault Refusal :=
  if !running s r then .next s else
  match pickWrite s r with
  | (none, _) => .next s
  | (some (i, w), s) =>
    let s := s.updHub r (fun h => { h with writes := h.writes.eraseIdx i })
    let l := w.live
    let step := match l with
      | some l => if 4 ≤ l.q then some l.step else none
      | none => none
    let tag := getLe w.bytes 0 8
    let s := match w.cq with
      | some c => writeRecord s r c w step tag
      | none => s
    match l with
    | none => .next s
    | some l =>
      if signalsOn w.status && !(l.drained && decide (w.status = stAborted)) then
        .next ((cmdSigs l.bytes).foldl (fun s g => sendSignal s r l.id l.q (cmdTag l.bytes) l.step g) s)
      else .next s

/-- WAIT_TIMEOUT (R218): once per command, while its waits are the reason. -/
def execWaitTimeout (r : Fin 32) (q : Fin 8) (s : State) : Host.Outcome State Fault Refusal :=
  match headCmd (s.hub r) q with
  | none => .next s
  | some l =>
    match ([0, 1, 2, 3].map (waitWord l.bytes)).find? (fun w => bitAt w 13 && decide (s.get (tokenValue r (waitOf w).token) < (waitOf w).threshold)) with
    | none => .next s
    | some w =>
      if l.timedOut || !queueOpen s r q || (dispatchCheck s r l.bytes).isSome then .next s
      else
        let s := updLive (s.put (hubStatWaitTo r) 1) r l.id (fun l => { l with timedOut := true })
        .next (raiseErr s 0x0601 0 r (unitOf 6 q) none (cmdTag l.bytes) w)

/-! ## Register rows -/

/-- DOORBELL. -/
def execDoorbell (p : Path) (r : Fin 32) (q : Fin 8) (tail : BitVec 11) (s : State) : Host.Outcome State Fault Refusal :=
  if queueWritable s p r q then .next (doorbell s r q tail.toNat) else .next s

/-- Q_CTRL_WRITE. -/
def execQCtrlWrite (p : Path) (r : Fin 32) (q : Fin 8) (enable : Bool) (s : State) : Host.Outcome State Fault Refusal :=
  if queueWritable s p r q then .next (queueEnable s r q enable) else .next s

/-- Q_BASE_WRITE. -/
def execQBaseWrite (p : Path) (r : Fin 32) (q : Fin 8) (value : W64) (s : State) : Host.Outcome State Fault Refusal :=
  if queueWritable s p r q then .next (queueBase s r q value.toNat) else .next s

/-- CQ_CTRL_WRITE. -/
def execCqCtrlWrite (r : Fin 32) (c : Fin 16) (value : W64) (s : State) : Host.Outcome State Fault Refusal :=
  if blockUp s r then .next (cqCtrl s r c value.toNat) else .next s

/-- CQ_BASE_WRITE. -/
def execCqBaseWrite (r : Fin 32) (c : Fin 16) (value : W64) (s : State) : Host.Outcome State Fault Refusal :=
  if blockUp s r then .next (cqBase s r c value.toNat) else .next s

/-- CQ_HEAD_WRITE. -/
def execCqHeadWrite (r : Fin 32) (c : Fin 16) (value : W64) (s : State) : Host.Outcome State Fault Refusal :=
  if blockUp s r then .next (cqHead s r c value.toNat) else .next s

end Sys2Proof.Machine
end

