-- ==== Sys2Proof/Machine/NetOps.lean ====
section
/-! DEFINITION. Ports and queue pairs as other units use them: what a port passes, peer entries, the module's own requests (R284-R297). -/
namespace Sys2Proof.Machine

/-! ## Bays and their light (R312) -/

def State.bay (s : State) (b : Nat) : Bay := tabGet {} b s.bays
def State.setBay (s : State) (b : Nat) (x : Bay) : State := { s with bays := tabPut b x s.bays }
def setPhase (s : State) (b phase : Nat) : State := s.setBay b { s.bay b with phase := phase }

def bayStateF (b : Nat) : Fld := casStatState (b / 2) (b % 2)
def bayState (s : State) (b : Nat) : Nat := s.get (bayStateF b)
def laserFails (s : State) (b : Nat) : Nat := s.get (casStatLaserFail (b / 2) (b % 2))
def isLit (s : State) (b : Nat) : Bool := decide (bayState s b = 2)
def setDrive (s : State) (b d : Nat) : State := s.put (casDriveDrive (b / 2) (b % 2)) d

/-- The laser supply of a bay is off: the cassette is held dark for a reason (R318). -/
def holdDark (s : State) (b reason : Nat) : State :=
  setPhase (setDrive (s.puts [(bayStateF b, 3), (casStatDarkReason (b / 2) (b % 2), reason)]) b 0) b 0

/-- Laser indices with light on port die `k`: one of the two partners is lit and its laser has not failed. -/
def litIndices (s : State) (k : Nat) : List Nat :=
  (List.range 16).filter (fun j => [2 * k, 2 * k + 1].any (fun b => isLit s b && !bitAt (laserFails s b) j))

/-- Have the transmit lanes of a port light (R312, R314)? -/
def hasLight (s : State) (port : Nat) : Bool := (litIndices s (port / 16)).contains (port % 16)

/-! ## Ports -/

def portClass (s : State) (port : Nat) : Nat := s.get (portCfgClass (port / 16) (port % 16))
def breakout (s : State) (port : Nat) : Bool := s.on (portCfgBreakout (port / 16) (port % 16))
def State.sec (s : State) (port half : Nat) : MacSec := tabGet {} (port * 2 + half) s.macsec
def State.setSec (s : State) (port half : Nat) (m : MacSec) : State := { s with macsec := tabPut (port * 2 + half) m s.macsec }

/-- Sealed (R392). -/
def sealed (s : State) : Bool := decide (s.get secStateOwnState = 2)

/-- Held down: sealed, of class S or W, or H under `H_MACSEC`, and without keys; or an association is used up (R290, R395). -/
def heldHalf (s : State) (port half : Nat) : Bool :=
  let m := s.sec port half
  m.spent || (sealed s && (decide (2 ≤ portClass s port) || (decide (portClass s port = 1) && s.on sliceHMacsec)) && m.rx.isEmpty)

/-- Does a port or half exist, with its link up and passing frames, and its die powered (R284, R290, R424)? -/
def portPasses (s : State) (port half : Nat) : Bool :=
  decide (portClass s port ≠ 0) && (decide (half = 0) || breakout s port) && bitAt (s.get (portStatLink (port / 16) (port % 16))) half &&
  !heldHalf s port half && !s.pdOff.contains (port / 16)

/-! ## Peer entries -/

def State.peer (s : State) (p : Nat) : Peer := tabGet {} p s.peers
def State.setPeer (s : State) (p : Nat) (x : Peer) : State := { s with peers := tabPut p x s.peers }

/-- `VALID`, `PCLASS`, the port and half of a peer entry (R292). -/
def peerValid (x : Peer) : Bool := bitAt (getLe x.entry 0 1) 0
def peerClass (x : Peer) : Nat := getLe x.entry 1 1
def peerPort (p : Nat) (x : Peer) : Nat := p / 1024 * 16 + getLe x.entry 2 1 % 16
def peerHalf (x : Peer) : Nat := getLe x.entry 2 1 / 16 % 2
def peerSlice (x : Peer) : Nat := getLe x.entry 4 4
def peerRetry (x : Peer) : Nat := getLe x.entry 0x14 1 % 8
def peerRnr (x : Peer) : Nat := getLe x.entry 0x14 1 / 16 % 8
def peerRkey (x : Peer) : Nat := getLe x.entry 0x18 4

/-- A valid, connected entry whose peer belongs to the module's slice (R239, R291). -/
def peerUsable (s : State) (p : Nat) : Bool :=
  decide (p < 4096) && peerValid (s.peer p) && !(s.peer p).err && decide (peerSlice (s.peer p) = s.get sliceSliceId)

/-- The entry's port passes its frames. -/
def peerLinked (s : State) (p : Nat) : Bool := portPasses s (peerPort p (s.peer p)) (peerHalf (s.peer p))

/-! ## Sending -/

/-- Something leaves the module. -/
def emit (s : State) (o : Out) : State := { s with outbox := s.outbox ++ [o] }

/-- Packets of a request at the path MTU of 4096 bytes (R293): as many sequence numbers pass. -/
def packets (n : Nat) : Nat := max 1 (ceilDiv n 4096)

/-- Frames that a packet of the module's takes: those of its payload. -/
def pktFrames : Pkt → Nat
  | .data _ b => packets b.length
  | .request _ op _ len _ => if op = 1 then 1 else packets len
  | .ack _ | .nak .. | .cnp _ => 1

/-- The frames of a packet leave their port or half: under the association that transmits, each takes the next packet number, the first
of them 1, and the last packet number of an association holds the port down (R290, R395). Before the first switch of a port to an
association, and without keys, they leave in the clear (log 35). -/
def leave (s : State) (h : FrameHdr) (o : Pkt) : State :=
  let m := s.sec h.port h.half
  match m.tx with
  | none => emit s (.roce h o)
  | some an =>
    let pn := tabGet 1 an m.sent
    let n := pn + pktFrames o
    emit (s.setSec h.port h.half { m with sent := tabPut an n m.sent, spent := m.spent || decide (2 ^ 64 ≤ n) }) (.roce { h with sec := some (an, pn) } o)

/-- The priority of a traffic class at a port (R287). -/
def prioOf (s : State) (port cls : Nat) : Nat :=
  if cls = 1 then s.get (portCfgPrioCtrl (port / 16) (port % 16)) else s.get (portCfgPrioBulk (port / 16) (port % 16))

/-- The tag and the IP fields of a frame of traffic class `cls`: DSCP 26 or 48, ECT(0) (R287, R289). -/
def frameHdr (s : State) (port half cls : Nat) : FrameHdr :=
  { port := port, half := half, vid := s.get (portCfgVid (port / 16) (port % 16)), pcp := prioOf s port cls,
    dscp := if cls = 1 then 48 else 26, ecn := 2 }

/-- A packet of traffic class `cls` leaves on the port of peer `p`: it waits while its priority is paused (R288); a port that passes
nothing drops it. -/
def sendOn (s : State) (p cls : Nat) (o : Pkt) : State :=
  let port := peerPort p (s.peer p)
  let half := peerHalf (s.peer p)
  let key := port * 16 + half * 8 + prioOf s port cls
  let h := frameHdr s port half cls
  if !portPasses s port half then s
  else if s.paused.contains key then { s with txWait := s.txWait ++ [(key, h, o)] } else leave s h o

/-- The traffic class of a request of the module's own (R287): Skojo messages other than pushes, event-ring writes and their SENDs. -/
def useClass : QpUse → Nat
  | .event | .tail | .skojo _ => 1
  | _ => 0

def reqOut (p : Nat) (q : QpReq) : Pkt := .request p q.op q.addr q.len q.data

/-- Classes of port that originate a request (R284): the event ring and the register key on H, snapshots and checkpoints on S, Skojo on W,
the DMA opcodes on S and W. -/
def useOn : QpUse → List Nat
  | .event | .tail | .key => [1]
  | .snapshot _ | .journal _ | .manifest => [2]
  | .gradient .. | .skojo _ => [3]
  | .dmaWrite .. | .dmaRead .. => [2, 3]

/-- A request leaves, where the class of its peer and of the peer's port carries it (R284). -/
def sendReq (s : State) (p : Nat) (q : QpReq) : State :=
  let c := portClass s (peerPort p (s.peer p))
  if c = peerClass (s.peer p) ∧ (useOn q.use).contains c then sendOn s p (useClass q.use) (reqOut p q) else s

/-- Post a request on a queue pair: it leaves in order and waits for its acknowledgement (R297). -/
def qpPost (s : State) (p : Nat) (q : QpReq) : State :=
  let x := s.peer p
  sendReq (s.setPeer p { x with out := x.out ++ [q], sqPsn := (x.sqPsn + packets q.len) % 2 ^ 24 }) p q

/-! ## Refusals -/

/-- Syndromes of a NAK (log 35). -/
def nakInvalid : Nat := 1
def nakAccess : Nat := 2
def nakOperational : Nat := 3

/-- A refused request: counted in `ACC_ERR`, and in the queue pair's answers (R295, R296). -/
def refuse (s : State) (p cls syndrome : Nat) : State :=
  let port := peerPort p (s.peer p)
  sendOn (s.bump (portRdmaAccErr (port / 16) (port % 16)) 1) p cls (.nak p syndrome)

end Sys2Proof.Machine
end

