-- ==== Sys2Proof/Machine/Tensor.lean ====
section
/-! DEFINITION. Tensors in memory: packed elements (R60), scaled tensors and their scale headers (R65-R67), block grids. -/
namespace Sys2Proof.Machine

/-- Bytes of `n` packed elements (R60: two PQ4 elements share a byte). -/
def packedBytes (f : Fmt) (n : Nat) : Nat := (n * fmtBits f + 7) / 8

/-- Element `i` of packed bytes. -/
def elemAt (f : Fmt) (b : List Byte) (i : Nat) : Nat :=
  match f with
  | .pq4 => field (getLe b (i / 2) 1) (4 * (i % 2)) 4
  | _ => getLe b (i * (fmtBits f / 8)) (fmtBits f / 8)

/-- Packed elements, each taken to its width, as bytes. -/
def unpackBytes (f : Fmt) (n : Nat) (b : List Byte) : List Nat :=
  match f with
  | .pq4 => ((b.flatMap (fun x => [x.toNat % 16, x.toNat / 16])).take n)
  | _ => (chunksOf (fmtBits f / 8) n b).map leNat

/-- Two nibbles to a byte, the lower index in bits [3:0]. -/
def packNibbles : List Nat → List Byte
  | [] => []
  | [a] => [BitVec.ofNat 8 (a % 16)]
  | a :: b :: t => BitVec.ofNat 8 (a % 16 + 16 * (b % 16)) :: packNibbles t

/-- Bytes of a list of elements. -/
def packElems (f : Fmt) (l : List Nat) : List Byte :=
  match f with
  | .pq4 => packNibbles l
  | _ => l.flatMap (natLe (fmtBits f / 8))

/-- Layout of a scaled tensor at `base` (R65): padded dimensions, where its parts start, and where it ends. -/
structure Scaled where
  padRows : Nat
  padCols : Nat
  scales : Nat
  header : Nat
  fin : Nat
  deriving DecidableEq, Repr

def scaledAt (f : Fmt) (base rows cols : Nat) : Scaled :=
  let pr := alignUp rows 16
  let pc := alignUp cols 16
  let sc := alignUp (base + packedBytes f (pr * pc)) 4096
  let hd := alignUp (sc + pr / 16 * (pc / 16)) 64
  { padRows := pr, padCols := pc, scales := sc, header := hd, fin := hd + 64 }

/-- The scale header of R66. -/
def scaleHeader (f : Fmt) (sUsed qstep rows cols : Nat) : List Byte :=
  natLe 4 sUsed ++ natLe 1 (codeOfFmt f) ++ natLe 3 0 ++ natLe 8 qstep ++ natLe 4 rows ++ natLe 4 cols ++ List.replicate 40 0

/-- The first error of several reads and writes is the one that counts: read, then go on. -/
def thenRead {α : Type} (x : Except MemErr (List Byte) × State) (k : List Byte → State → Except MemErr α × State) : Except MemErr α × State :=
  match x with
  | (.ok b, s) => k b s
  | (.error e, s) => (.error e, s)

/-- Write, then go on. -/
def thenWrite {α : Type} (x : Option MemErr × State) (k : State → Except MemErr α × State) : Except MemErr α × State :=
  match x with
  | (none, s) => k s
  | (some e, s) => (.error e, s)

/-- Write pieces at addresses, in order. -/
def writeAll (s : State) (c : Acct) : List (Nat × List Byte) → Option MemErr × State
  | [] => (none, s)
  | (a, b) :: t =>
    match writeMem s c a b with
    | (none, s) => writeAll s c t
    | r => r

/-- Read the rows of a region of memory: `n` pieces of `len` bytes, `stride` apart. -/
def readRows (s : State) (c : Acct) (len stride : Nat) : Nat → Nat → Except MemErr (List (List Byte)) × State
  | _, 0 => (.ok [], s)
  | a, n + 1 =>
    match readMem s c a len with
    | (.error e, s) => (.error e, s)
    | (.ok b, s) =>
      match readRows s c len stride (a + stride) n with
      | (.ok t, s) => (.ok (b :: t), s)
      | (.error e, s) => (.error e, s)

end Sys2Proof.Machine
end

