-- ==== Sys2Proof/Machine/Sparse.lean ====
section
/-! DEFINITION. The block-bitmap compressed form (R164-R170) and the compressing store (R171-R173). -/
namespace Sys2Proof.Machine

/-- A BBC header (R164). -/
structure Bbc where
  rows : Nat
  cols : Nat
  fmt : Nat
  elemMask : Bool
  complete : Bool
  nPresent : Nat
  valCap : Nat
  mask : Nat
  bm : Nat
  rank : Nat
  vals : Nat
  bs : Nat
  eb : Nat
  rst : Nat
  cst : Nat
  sUsed : Nat
  deriving DecidableEq, Repr

def bbcOf (b : List Byte) : Bbc :=
  { rows := getLe b 0 4, cols := getLe b 4 4, fmt := getLe b 8 1, elemMask := bitAt (getLe b 9 1) 0, complete := bitAt (getLe b 9 1) 1,
    nPresent := getLe b 0xC 4, valCap := getLe b 0x10 4, mask := getLe b 0x18 8, bm := getLe b 0x20 8, rank := getLe b 0x28 8,
    vals := getLe b 0x30 8, bs := getLe b 0x38 8, eb := getLe b 0x40 8, rst := getLe b 0x48 8, cst := getLe b 0x50 8, sUsed := getLe b 0x58 4 }

/-- Block rows and columns of the grid. -/
def Bbc.br (o : Bbc) : Nat := ceilDiv o.rows 16
def Bbc.bc (o : Bbc) : Nat := ceilDiv o.cols 16
/-- Bytes of a bitmap row (R165). -/
def Bbc.bmRow (o : Bbc) : Nat := 8 * ceilDiv (o.bc) 64

/-- A block bitmap: one list of flags per block row. -/
abbrev Grid := List (List Bool)

/-- The bitmap from its bytes. -/
def gridOf (o : Bbc) (b : List Byte) : Grid :=
  (List.range o.br).map (fun i => (List.range o.bc).map (fun j => bitAt (getLe b (i * o.bmRow + 8 * (j / 64)) 8) (j % 64)))

def gridAt (g : Grid) (i j : Nat) : Bool := ((g[i]?).getD []).getD j false

/-- The bytes of a bitmap. -/
def gridBytes (o : Bbc) (g : Grid) : List Byte := g.flatMap (fun row => natLe o.bmRow (maskOf ((List.range row.length).filter (fun j => row.getD j false))))

/-- Stored blocks in row-major order. -/
def storedBlocks (g : Grid) : List (Nat × Nat) :=
  (List.range g.length).flatMap (fun i => ((List.range ((g[i]?).getD []).length).filter (fun j => gridAt g i j)).map (fun j => (i, j)))

/-- The rank table: stored blocks in all earlier rows. -/
def rankTable (g : Grid) : List Nat :=
  (List.range g.length).map (fun i => ((g.take i).map (fun row => row.count true)).sum)

/-- G of R88 for a format code of a BBC object. -/
def bbcG (fmt : Nat) : Nat := if fmt = 1 ∨ fmt = 2 then 64 else if fmt = 3 then 128 else 32

/-- Stored blocks of each row-block of a row strip or a column strip (R167). -/
def stripCounts (g : Grid) (col : Bool) (strip : Nat) : List Nat :=
  (List.range 8).map (fun k =>
    let i := 8 * strip + k
    if col then (g.map (fun row => b2n (row.getD i false))).sum else ((g[i]?).getD []).count true)

/-- The part of a chunk that falls in each row-block: row-block, first rank within it, number (R167, R168). -/
def chunkParts (counts : List Nat) (lo hi : Nat) : List (Nat × Nat × Nat) :=
  (List.range 8).filterMap (fun k =>
    let a := (counts.take k).sum
    let b := a + counts.getD k 0
    let l := max a lo
    let h := min b hi
    if l < h then some (k, l - a, h - l) else none)

/-- One strip's spread: np, share, cost, the parts of each lane group, merges (R167). -/
structure Spread where
  np : Nat
  share : Nat
  cost : Nat
  merges : Nat
  parts : List (List (Nat × Nat × Nat))
  deriving DecidableEq, Repr

def spreadOf (counts : List Nat) (k gPos : Nat) : Spread :=
  let np := counts.sum
  if np = 0 then { np := 0, share := 0, cost := ceilDiv k gPos, merges := 0, parts := List.replicate 8 [] }
  else
    let share := ceilDiv np 8
    let parts := (List.range 8).map (fun l => chunkParts counts (l * share) (min ((l + 1) * share) np))
    let touch := fun (rb : Nat) => (parts.filter (fun p => p.any (fun x => decide (x.1 = rb)))).length
    let merges := ((List.range 8).map (fun rb => touch rb - 1)).sum
    { np := np, share := share, cost := max (share * (128 / gPos)) (ceilDiv k gPos) + merges, merges := merges, parts := parts }

/-- R169: must the strip be stored dense? -/
def wantsDense (sp : Spread) (k gPos : Nat) : Bool := sp.parts.any (fun p => decide (2 < p.length)) || decide (8 * ceilDiv k gPos ≤ sp.cost)

/-- The 256 bytes of a spread table (R168). -/
def spreadBytes (sp : Spread) (dense : Bool) : List Byte :=
  let lane := fun (p : List (Nat × Nat × Nat)) =>
    match p with
    | [] => natLe 1 0xFF ++ natLe 1 0xFF ++ natLe 14 0
    | [(a, s, n)] => natLe 1 a ++ natLe 1 0xFF ++ natLe 2 0 ++ natLe 4 s ++ natLe 4 n ++ natLe 4 0
    | (a, s, n) :: (b, _, m) :: _ => natLe 1 a ++ natLe 1 b ++ natLe 2 0 ++ natLe 4 s ++ natLe 4 n ++ natLe 4 m
  natLe 4 sp.np ++ natLe 4 sp.share ++ natLe 4 sp.cost ++ natLe 1 (b2n dense) ++ natLe 3 0 ++ sp.parts.flatMap lane ++ List.replicate 112 0

/-- The grid with every block of a strip stored. -/
def fillStrip (g : Grid) (col : Bool) (strip : Nat) : Grid :=
  (List.range g.length).map (fun i =>
    let row := (g[i]?).getD []
    (List.range row.length).map (fun j => row.getD j false || (if col then decide (j / 8 = strip) else decide (i / 8 = strip))))

/-- The fallback decisions in their order (R170): final grid, strips stored dense as (column?, strip), refused fallbacks. -/
def decideStrips (o : Bbc) (g0 : Grid) : Grid × List (Bool × Nat) × Nat :=
  let rowStrips := (List.range (ceilDiv o.br 8)).map (fun s => (false, s))
  let colStrips := (List.range (ceilDiv o.bc 8)).map (fun s => (true, s))
  (rowStrips ++ colStrips).foldl (fun (g, dense, denied) (col, strip) =>
    let k := if col then o.rows else o.cols
    if wantsDense (spreadOf (stripCounts g col strip) k (bbcG o.fmt)) k (bbcG o.fmt) then
      let g' := fillStrip g col strip
      if (storedBlocks g').length ≤ o.valCap then (g', dense ++ [(col, strip)], denied) else (g, dense, denied + 1)
    else (g, dense, denied)) (g0, [], 0)

/-- Element (r, c) of block (i, j) present under a mask (R165): within the tensor, in a stored block, and set in its bitmap. -/
def elemPresent (o : Bbc) (mask : Grid) (eb : Option (List Byte)) (i j r c : Nat) : Bool :=
  decide (16 * i + r < o.rows) && decide (16 * j + c < o.cols) && gridAt mask i j &&
  (match eb with
   | none => true
   | some b =>
     let k := (rankTable mask).getD i 0 + (((mask[i]?).getD []).take j).count true
     bitAt (getLe b (32 * k) 32) (16 * r + c))

/-- Bytes of a BBC value block. -/
def blockBytes (f : Fmt) : Nat := 32 * fmtBits f

/-- The extents of a BBC object's areas with `n` blocks stored (R165). -/
def bbcAreas (o : Bbc) (f : Option Fmt) (n : Nat) (elem : Bool) : List (Nat × Nat) :=
  [(o.bm, o.br * o.bmRow), (o.rank, 4 * o.br)] ++ (if elem then [(o.eb, 32 * n)] else []) ++
  (match f with
   | none => []
   | some f => [(o.vals, n * blockBytes f), (o.rst, 256 * ceilDiv o.br 8), (o.cst, 256 * ceilDiv o.bc 8)] ++
     (if fmtScaled f then [(o.bs, n)] else []))

/-- Is every area of an object aligned (R164, R466)? -/
def bbcAligned (o : Bbc) (f : Option Fmt) (elem : Bool) : Bool := (bbcAreas o f 0 elem).all (fun e => decide (e.1 % 64 = 0))

/-- Which window an address lies in: 1 stack, 2 scratchpad, 3 LLM, 0 none (R15). -/
def windowOf (a : Nat) : Nat :=
  if a < 0x040000000000 then 1 else if spBase ≤ a ∧ a < spBase + 0x800000000 then 2 else if llmBase ≤ a ∧ a < llmBase + 0x200000000 then 3 else 0

/-- Does an extent lie in one window with `h`, inside one die's populated part for a scratchpad (R21)? -/
def sameWindow (s : State) (h a n : Nat) : Bool :=
  addrOk s a n && decide (windowOf a = windowOf h) && decide (windowOf (a + n - 1) = windowOf h) &&
  (decide (windowOf h ≠ 2) || decide ((a - spBase) / 0x20000000 = (h - spBase) / 0x20000000))

/-- The block at (i, j) of a dense source as element codes. -/
def srcBlock (f : Fmt) (src : List Byte) (rowLen i j : Nat) (rows cols : Nat) : List Nat :=
  (List.range 256).map (fun e =>
    let r := 16 * i + e / 16
    let c := 16 * j + e % 16
    if r < rows ∧ c < cols then elemAt f src (r * rowLen + c) else 0)

/-- Is a code a zero of either sign? -/
def zeroCode (f : Fmt) (x : Nat) : Bool := isZero (decNum f x)

/-- What the store writes, address and bytes, in order, and the non-zero elements that the mask drops (R171). The source is `sb`, its header
`sh`, its layout `lay`; the object `o` at `h` is to hold the blocks of `g`; the mask `m` has the blocks of `mg` and the element masks
`meb`. -/
def bbcPieces (f : Fmt) (lay : Scaled) (src : Nat) (sb sh meb : List Byte) (o m : Bbc) (mg g : Grid) (dense : List (Bool × Nat))
    (h : Nat) : List (Nat × List Byte) × Nat :=
  let eb := if m.elemMask then some meb else none
  let n := (storedBlocks g).length
  let rowLen := if fmtScaled f then lay.padCols else o.cols
  let blocks := storedBlocks g
  let cell := fun (i j e : Nat) => elemPresent o mg eb i j (e / 16) (e % 16)
  let vals := blocks.map (fun (i, j) =>
    let b := srcBlock f sb rowLen i j (if fmtScaled f then lay.padRows else o.rows) rowLen
    (List.range 256).map (fun e => if cell i j e then b.getD e 0 else 0))
  let lost := (storedBlocks mg).map (fun (i, j) =>
    let b := srcBlock f sb rowLen i j o.rows o.cols
    ((List.range 256).filter (fun e => !cell i j e && !zeroCode f (b.getD e 0))).length)
  let ebs := blocks.flatMap (fun (i, j) =>
    natLe 32 (if gridAt mg i j then
      getLe meb (32 * ((rankTable mg).getD i 0 + (((mg[i]?).getD []).take j).count true)) 32 else 0))
  let table := fun (col : Bool) (strip : Nat) =>
    spreadBytes (spreadOf (stripCounts g col strip) (if col then o.rows else o.cols) (bbcG o.fmt)) (dense.contains (col, strip))
  let writes : List (Nat × List Byte) :=
    [(h + o.bm, gridBytes o g), (h + o.rank, (rankTable g).flatMap (natLe 4)), (h + o.vals, vals.flatMap (packElems f))] ++
    (if m.elemMask then [(h + o.eb, ebs)] else []) ++
    (if fmtScaled f then
      [(h + o.bs, blocks.map (fun (i, j) => (slice sb (lay.scales - src + i * o.bc + j) 1).headD 0)),
       (h + 0x58, slice sh 0 4), (h + 0x60, slice sh 8 8)] else []) ++
    [(h + o.rst, (List.range (ceilDiv o.br 8)).flatMap (table false)), (h + o.cst, (List.range (ceilDiv o.bc 8)).flatMap (table true)),
     (h + 0xC, natLe 4 n)]
  (writes, lost.sum)

/-- `LEN` of the one entry of a compressing store, from the header of its object (R238); none where the header has no shape or format that
can be stored. -/
def bbcWant (o : Bbc) (src : Nat) : Option Nat :=
  match (if o.fmt = 0xF then none else fmtOfCode o.fmt) with
  | none => none
  | some f =>
    if f = .b32 ∨ f = .b64 ∨ o.rows = 0 ∨ o.cols = 0 ∨ 1048576 < o.rows ∨ 1048576 < o.cols then none
    else some (if fmtScaled f then (scaledAt f src o.rows o.cols).fin - src else o.rows * o.cols * (fmtBits f / 8))

/-- What a compressing store works from, once R172 is met: its format, header, mask, and the decisions of R170. -/
structure BbcPlan where
  f : Fmt
  o : Bbc
  m : Bbc
  mg : Grid
  meb : List Byte
  sh : List Byte
  g : Grid
  dense : List (Bool × Nat)
  denied : Nat
  deriving DecidableEq, Repr

/-- The source of a compressing store; a `ZERO` entry supplies zeros. -/
def bbcSource (s : State) (c : Acct) (zero : Bool) (a n : Nat) : Except MemErr (List Byte) × State :=
  if zero then (.ok (List.replicate n 0), s) else readMem s c a n

/-- The checks of R172: those that the headers of object, source and mask show, then those of the blocks stored and the areas. None: one of
them fails. A mask that lies in no window is an address fault (R236). -/
def bbcCheck (s : State) (c : Acct) (src len : Nat) (zero : Bool) (h : Nat) : Except MemErr (Option BbcPlan) × State :=
  thenRead (readMem s c h 128) fun hb s =>
  let o := bbcOf hb
  match (if o.fmt = 0xF then none else fmtOfCode o.fmt) with
  | none => (.ok none, s)
  | some f =>
  let lay := scaledAt f src o.rows o.cols
  if bbcWant o src ≠ some len ∨ h % 4096 ≠ 0 ∨ o.mask % 4096 ≠ 0 then (.ok none, s)
  else
  thenRead (if fmtScaled f then bbcSource s c zero lay.header 64 else (.ok [], s)) fun sh s =>
  if fmtScaled f ∧ getLe sh 4 1 ≠ o.fmt then (.ok none, s)
  else
  thenRead (readMem s c o.mask 128) fun mb s =>
  let m := bbcOf mb
  if m.rows ≠ o.rows ∨ m.cols ≠ o.cols ∨ !m.complete ∨ m.fmt ≠ 0xF ∨ !bbcAligned m none m.elemMask ∨ !bbcAligned o (some f) m.elemMask then
    (.ok none, s)
  else
  thenRead (readMem s c (o.mask + m.bm) (m.br * m.bmRow)) fun mbm s =>
  let mg := gridOf m mbm
  let n0 := (storedBlocks mg).length
  let (g, denseStrips, denied) := decideStrips o mg
  let n := (storedBlocks g).length
  if o.valCap < n0 ∨ (bbcAreas o (some f) (max n n0) m.elemMask).any (fun e => !sameWindow s h (h + e.1) e.2) then (.ok none, s)
  else
  thenRead (if m.elemMask then readMem s c (o.mask + m.eb) (32 * n0) else (.ok [], s)) fun meb s =>
  (.ok (some { f := f, o := o, m := m, mg := mg, meb := meb, sh := sh, g := g, dense := denseStrips, denied := denied }), s)

end Sys2Proof.Machine
end

