-- ==== Sys2Proof/Machine/Dma.lean ====
section
/-! DEFINITION. The DMA engine (10_dma_engine): submission, the checks of R239, bursts, visibility and completion. -/
namespace Sys2Proof.Machine

/-! ## Descriptor fields (R233, R234) -/

def dDop (b : List Byte) : Nat := getLe b 0 1
def dBarrier (b : List Byte) : Bool := bitAt (getLe b 1 1) 0
def dScatter (b : List Byte) : Bool := bitAt (getLe b 1 1) 1
def dSwap (b : List Byte) : Nat := getLe b 2 1
def dCompress (b : List Byte) : Bool := decide (getLe b 3 1 = 1)
def dPeer (b : List Byte) : Nat := getLe b 6 2
def dSgAddr (b : List Byte) : Nat := getLe b 0x10 8
def dSgN (b : List Byte) : Nat := getLe b 0x18 4
def dDst (b : List Byte) : Nat := getLe b 0x20 8

/-- RDMA opcodes. -/
def dRdma (b : List Byte) : Bool := decide (dDop b = 2 ∨ dDop b = 3)

/-- The list is read from (R235). -/
def dGathers (b : List Byte) : Bool := decide (dDop b = 2) || (decide (dDop b = 0) && !dScatter b)

/-- The contiguous side lies in the wafer: a `COPY`. -/
def dCopies (b : List Byte) : Bool := decide (dDop b = 0)

/-- The unit of a swap mode (R237). -/
def swapUnit : Nat → Nat
  | 0 => 1 | 1 => 2 | _ => 4

/-- The list's entries as pieces of the stream. -/
def sgPieces : Nat → List (List Byte) → List Piece
  | _, [] => []
  | o, e :: t => { off := o, addr := getLe e 0 8, len := getLe e 8 4, zero := bitAt (getLe e 0xC 4) 0 } :: sgPieces (o + getLe e 8 4) t

/-! ## Checks (R239) -/

/-- Check 3: encodings, roles and limits that the descriptor alone shows. -/
def descOk (s : State) (b : List Byte) : Bool :=
  decide (dDop b ≤ 3) && decide (getLe b 1 1 < 4) && decide (dSwap b < 4) && decide (getLe b 3 1 ≤ 1) && decide (getLe b 5 1 < 16) &&
  (dRdma b || zeros b 6 2) && decide (1 ≤ dSgN b ∧ dSgN b ≤ 65536) && zeros b 0x1C 4 && zeros b 0x30 16 &&
  decide (dSgAddr b % 16 = 0) && dmaOk s (dSgAddr b) (16 * dSgN b) && (dCopies b || !dScatter b) &&
  (decide (dDop b = 1) || zeros b 0x28 8) && (decide (dDop b ≠ 1) || (zeros b 0x20 8 && decide (dSwap b = 0))) &&
  decide (dDst b % swapUnit (dSwap b) = 0) &&
  (!dCompress b || (dCopies b && !dScatter b && decide (dSgN b = 1) && decide (dSwap b = 0)))

/-- Check 5 of one entry. -/
def entryOk (b e : List Byte) : Bool :=
  let zero := bitAt (getLe e 0xC 4) 0
  decide (1 ≤ getLe e 8 4) && decide (getLe e 0xC 4 ≤ 1) && (!zero || (dGathers b && zeros e 0 8)) &&
  decide (getLe e 0 8 % swapUnit (dSwap b) = 0) && decide (getLe e 8 4 % swapUnit (dSwap b) = 0)

/-- Areas of the BBC object at `h`, its header included, with as many blocks as it can hold. -/
def objectAreas (s : State) (c : Acct) (h : Nat) : Except MemErr (List (Nat × Nat)) × State :=
  match readMem s c h 128 with
  | (.error e, s) => (.error e, s)
  | (.ok b, s) =>
    let o := bbcOf b
    let f := if o.fmt = 0xF then none else fmtOfCode o.fmt
    (.ok ((h, 128) :: (bbcAreas o f o.valCap o.elemMask).map (fun e => (h + e.1, e.2))), s)

/-- Local extents that a transfer reads and writes. -/
def extentsOf (b : List Byte) (list : List Piece) (total : Nat) (object : List (Nat × Nat)) : List (Nat × Nat) × List (Nat × Nat) :=
  let l := (list.filter (fun p => !p.zero)).map (fun p => (p.addr, p.len))
  if dCompress b then (l, object)
  else match dDop b, dScatter b with
    | 0, false => (l, [(dDst b, total)])
    | 0, true => ([(dDst b, total)], l)
    | 2, _ => (l, [])
    | _, _ => ([], l)

/-- What the checks leave: a status, or the list and its length. -/
structure Checked where
  status : Nat
  desc : List Byte := []
  raw : List (List Byte) := []
  list : List Piece := []
  total : Nat := 0
  deriving DecidableEq, Repr

/-- `LEN` under R238, a limit of check 3: the header of the object at `DST` gives it, where it can be read and has a shape. -/
def lenOk (s : State) (c : Acct) (b : List Byte) : Bool × State :=
  if !dCompress b || !dmaOk s (dDst b) 128 then (true, s)
  else
    match readMem s c (dDst b) 128, readMem s c (dSgAddr b) 16 with
    | (.ok h, _), (.ok e, s) => ((bbcWant (bbcOf h) (getLe e 0 8)).all (fun n => decide (getLe e 8 4 = n)), s)
    | _, _ => (true, s)

/-- Checks 1-7 in their order. -/
def checkDesc (s : State) (c : Acct) (addr : Nat) : Checked × State :=
  if addr % 64 ≠ 0 ∨ !dmaOk s addr 64 then ({ status := stAddressFault }, s)
  else
    match readMem s c addr 64 with
    | (.error e, s) => ({ status := memStatus e }, s)
    | (.ok b, s) =>
      if dCompress b && !bitAt (s.get capUnits) 1 then ({ status := stAbsentUnit, desc := b }, s)
      else if !descOk s b then ({ status := stInvalidField, desc := b }, s)
      else match lenOk s c b with
      | (fits, s) =>
      if !fits then ({ status := stInvalidField, desc := b }, s)
      else if dRdma b && !peerUsable s (dPeer b) then ({ status := stDmaPeerInvalid, desc := b }, s)
      else
        match readMem s c (dSgAddr b) (16 * dSgN b) with
        | (.error e, s) => ({ status := memStatus e, desc := b }, s)
        | (.ok l, s) =>
          let es := chunksOf 16 (dSgN b) l
          let list := sgPieces 0 es
          let total := (es.map (fun e => getLe e 8 4)).sum
          if !es.all (entryOk b) || decide (2 ^ 40 < total) then ({ status := stInvalidField, desc := b }, s)
          else
            let head := if dCompress b then [(dDst b, 128)] else []
            if !((extentsOf b list total head).1 ++ (extentsOf b list total head).2).all (fun e => dmaOk s e.1 e.2) then
              ({ status := stAddressFault, desc := b }, s)
            else
              match (if dCompress b then objectAreas s c (dDst b) else (.ok [], s)) with
              | (.error e, s) => ({ status := memStatus e, desc := b }, s)
              | (.ok object, s) =>
                let (rd, wr) := extentsOf b list total object
                if !wr.all (fun e => dmaOk s e.1 e.2) then ({ status := stAddressFault, desc := b }, s)
                else if rd.any (fun x => wr.any (fun y => overlaps x.1 x.2 y.1 y.2)) then ({ status := stDmaOverlap, desc := b }, s)
                else ({ status := stOk, desc := b, raw := es, list := list, total := total }, s)

/-! ## Completion -/

/-- The least cost of R242. -/
def dmaCost (list : List Piece) : Nat :=
  32 + ceilDiv list.length 32 + (list.map (fun p => max 1 (ceilDiv p.len 512))).sum

/-- Cycles of a transfer that ends after `n` bytes of its stream: no more than the list so far. -/
def costSoFar (list : List Piece) (n : Nat) : Nat :=
  32 + ceilDiv list.length 32 + ((list.filter (fun p => decide (p.off < n))).map (fun p => max 1 (ceilDiv (min p.len (n - p.off)) 512))).sum

/-- The channel requests retirement for a descriptor: through the command header, or through the descriptor's own `CQ` and `TAG`
(R231); a transfer of the pannier engine reports to it (R232). Of a posted descriptor that could not be read, the tag and the queue are free values (log 5). -/
def dmaRetire (s : State) (r ch : Nat) (job : DmaJob) (desc : List Byte) (res : Res) : State :=
  let (k, s) := s.stalls
  let res := { res with cycles := res.cycles + k }
  let s := if res.status = stOk ∨ res.status = stAborted then s else s.bump (chStatusErrCount r ch) 1
  if job.pan then s.setPan r { s.pan r with run := (s.pan r).run.map (fun x => { x with done := some res }) }
  else
  match job.cmd with
  | some id =>
    match findLive (s.hub r) id with
    | some l => requestRetire s r l res
    | none => s
  | none =>
    let (tag, cq) := if desc.isEmpty then ((Config.freeWord s.tick).toNat, (Config.freeWord (s.tick + 1)).toNat % 16) else (getLe desc 8 8, getLe desc 5 1 % 16)
    s.tock.tock.updHub r (fun h => { h with reqs := h.reqs ++ [{
      cmd := none, q := 0, disp := 0, cq := cq, tag := tag, ts := false, noCq := false, res := res }] })

/-- The account of a channel's accesses. -/
def jobAcct (s : State) (r : Nat) (job : DmaJob) : Acct :=
  match job.cmd.bind (findLive (s.hub r)) with
  | some l => acctOf r l
  | none => postedAcct r

def updXfer (s : State) (r ch : Nat) (f : Xfer → Xfer) : State :=
  let c := s.chan r ch
  s.setChan r ch { c with xfer := c.xfer.map f }

/-- The transfer of a number, while it is in progress. -/
def xferOf (s : State) (r ch id : Nat) : Option Xfer := (s.chan r ch).xfer.filter (fun x => decide (x.id = id))

/-- A transfer meets a status that ends it: the first one stands. -/
def failXfer (s : State) (r ch status : Nat) : State :=
  updXfer s r ch (fun x => { x with status := if x.status = stOk then status else x.status })

/-! ## Submission -/

/-- Commands that the hub still hands over to channels, in dispatch order: channel and number. -/
def handOvers (h : Hub) : List (Nat × Live) :=
  h.fifo.flatMap (fun e => if 1000 ≤ e.1 then (e.2.filterMap (findLive h)).map (fun l => (e.1 - 1000, l)) else [])

/-- DMA_SUBMIT: the hub hands its oldest dispatched descriptor to the named channel's FIFO (R212, R231). -/
def execDmaSubmit (r : Fin 32) (s : State) : Host.Outcome State Fault Refusal :=
  let l := handOvers (s.hub r)
  match l.find? (fun e => l.all (fun x => decide (e.2.disp ≤ x.2.disp))) with
  | none => .next s
  | some (ch, x) =>
    if !running s r then .next s
    else
      let s := fifoDrop s r (1000 + ch) x.id
      let c := s.chan r ch
      .next (s.setChan r ch { c with fifo := c.fifo ++ [{ addr := opAddr x.bytes, cmd := some x.id }] })

/-- CH_POST (R231, R232, R446): over RDMA it is ignored. -/
def execChPost (path : Path) (r : Fin 32) (ch : Fin 64) (value : W64) (s : State) : Host.Outcome State Fault Refusal :=
  if quiesced s then .next s else
  if path = .rdma ∨ !blockUp s r then .next s
  else
    let c := s.chan r ch
    if ch.val = panChannel ∨ 4 ≤ c.fifo.length + (fifoOf s r (1000 + ch)).length then .next (s.put (chStatusPostErr r ch) 1)
    else .next (s.setChan r ch { c with fifo := c.fifo ++ [{ addr := value.toNat % 2 ^ 48, cmd := none }] })

/-- A write of `SHARE_CAP` (R232, R244). -/
def shareWrite (s : State) (r ch v : Nat) : State :=
  let n := v % 512
  if ch = panChannel ∨ 256 < n then s
  else (s.put (chShareShareCap r ch) n).putB (chStatusPaused r ch) (decide (n = 0))

/-- CH_SHARE_WRITE. -/
def execChShareWrite (r : Fin 32) (ch : Fin 64) (value : W64) (s : State) : Host.Outcome State Fault Refusal :=
  if blockUp s r then .next (shareWrite s r ch value.toNat) else .next s

/-! ## Start -/

/-- A posted transfer that touches the stack of a region named by a derailleur run waits for the run's end (R270). -/
def heldByRun (s : State) (x : Xfer) : Bool :=
  match s.drl, x.job.cmd with
  | some d, none =>
    let (rd, wr) := extentsOf x.desc x.list x.total (if dCompress x.desc then [(dDst x.desc, 128)] else [])
    (rd ++ wr).any (fun e => ((homesOf s e.1 e.2).getD []).any (fun p => inStack p.1 && d.named.contains (regionOf p.1)))
  | _, _ => false

/-- What becomes of the reads of an object's header and of its mask's (R350). -/
def bbcWay (s : State) (r : Nat) (c : Acct) (h : Nat) : Fate :=
  let m := match (readMem s c h 128).1 with
    | .ok b => reach s r (bbcOf b).mask 128
    | .error _ => .serve
  let w := reach s r h 128
  if w = .serve then m else w

/-- What becomes of the reads that the checks of a descriptor make in other regions: the first that is held, or refused (R350). -/
def descWay (s : State) (r : Nat) (job : DmaJob) : Fate :=
  let c := jobAcct s r job
  let w := reach s r job.addr 64
  if w ≠ .serve then w
  else match (readMem s c job.addr 64).1 with
    | .error _ => .serve
    | .ok b =>
      if !descOk s b then .serve
      else
        let l := reach s r (dSgAddr b) (16 * dSgN b)
        if l ≠ .serve ∨ !dCompress b then l else bbcWay s r c (dDst b)

/-- DMA_DESC_START: the channel takes the next descriptor and applies the checks of R239. -/
def execDmaDescStart (r : Fin 32) (ch : Fin 64) (s : State) : Host.Outcome State Fault Refusal :=
  if quiesced s then .next s else
  let c := s.chan r ch
  match c.xfer, c.fifo with
  | none, job :: rest =>
    if !running s r || decide (descWay s r job = .wait) then .next s
    else
      let lost := decide (descWay s r job = .off)
      let acct := jobAcct s r job
      let (k, s1) := checkDesc s acct job.addr
      let x : Xfer := { id := s1.nextTag, job := job, desc := k.desc, raw := k.raw, list := k.list, total := k.total }
      let s := { s1 with nextTag := s1.nextTag + 1 }.setChan r ch { c with fifo := rest }
      let s := match job.cmd with
        | some id => updLive s r id (fun l => { l with started := true })
        | none => s
      let refuse := fun (s : State) (st : Nat) => dmaRetire s r ch job k.desc { status := st, cycles := 33 }
      if lost then .next (refuse s stDmaTargetLost)
      else if k.status ≠ stOk then .next (refuse s k.status)
      else
        -- check 8
        let p := k.list.headD { off := 0, addr := 0, len := 0 }
        match (if dCompress k.desc then bbcCheck s acct p.addr p.len p.zero (dDst k.desc) else (.ok none, s)) with
        | (.error e, s) => .next (refuse s (memStatus e))
        | (.ok plan, s) =>
          if dCompress k.desc && plan.isNone then .next (refuse s stInvalidField)
          else .next (s.setChan r ch { s.chan r ch with xfer := some { x with elem := plan.any (·.m.elemMask) } })
  | _, _ => .next s

/-! ## Bursts (R240, R241) -/

/-- The parts of the stream range `[o, o + n)` on a list. -/
def piecesIn (list : List Piece) (o n : Nat) : List Piece :=
  list.filterMap (fun p =>
    let a := max p.off o
    let b := min (p.off + p.len) (o + n)
    if a < b then some { p with off := a, addr := if p.zero then 0 else p.addr + (a - p.off), len := b - a } else none)

/-- Where the stream comes from within the wafer; a `FILL` and an `RDMA_READ` have no such side. -/
def sourceList (x : Xfer) : List Piece :=
  if dGathers x.desc then x.list else [{ off := 0, addr := dDst x.desc, len := x.total }]

/-- Where the stream goes within the wafer. -/
def destList (x : Xfer) : List Piece :=
  if dGathers x.desc then [{ off := 0, addr := dDst x.desc, len := x.total }] else x.list

/-- A swap mode on bytes from a unit boundary (R237). -/
def swapBytes (mode : Nat) : List Byte → List Byte
  | a :: b :: c :: d :: t =>
    (match mode with
     | 1 => [b, a, d, c]
     | 2 => [c, d, a, b]
     | 3 => [d, c, b, a]
     | _ => [a, b, c, d]) ++ swapBytes mode t
  | [a, b] => if mode = 1 then [b, a] else [a, b]
  | l => l

/-- The parts of a piece outside the address range `[a, a + n)`. -/
def cutPiece (a n : Nat) (p : Piece) : List Piece :=
  if overlaps p.addr p.len a n then
    (if p.addr < a then [{ p with len := a - p.addr }] else []) ++
    (if a + n < p.addr + p.len then [{ p with off := p.off + (a + n - p.addr), addr := a + n, len := p.addr + p.len - (a + n) }] else [])
  else [p]

/-- R235: where entries of the written list overlap, which write stands is not fixed. A free choice keeps the earlier one. -/
def settleOverlap (s : State) (list : List Piece) (ps : List Piece) : List Piece × State :=
  ps.foldl (fun (acc, s) p =>
    let before := list.filter (fun q => decide (q.off + q.len ≤ p.off) && overlaps q.addr q.len p.addr p.len)
    if before.isEmpty then (acc ++ [p], s)
    else
      let (keep, s) := s.choose
      (acc ++ (if keep then before.foldl (fun l q => l.flatMap (cutPiece q.addr q.len)) [p] else [p]), s)) ([], s)

/-- Device ranges, as far as their regions run, take free values. -/
def freeRanges (s : State) (r : Nat) (l : List (Nat × Nat)) : State :=
  (l.flatMap (fun p => (homesOf s p.1 p.2).getD [])).foldl (fun s e =>
    if (blockedUnit s e.1 e.2).isSome ∨ mapSt s (regionOf e.1) ≠ .running then s
    else (writePiece s (postedAcct r) e.1 ((List.range e.2).map (Config.freeByte s.tick))).2.tock) s

/-- The destination of a transfer that failed takes free values beyond the bytes that its record states (R249); a compressing store's, also
one that was struck, all but its header (R248). -/
def freeRest (s : State) (r : Nat) (x : Xfer) : State :=
  if dCompress x.desc then
    match (objectAreas s (postedAcct r) (dDst x.desc)).1 with
    | .ok l => if x.stage = 3 then s else freeRanges s r l.tail
    | .error _ => s
  else freeRanges s r ((piecesIn (destList x) x.moved (x.total - x.moved)).map (fun p => (p.addr, p.len)))

/-- A transfer ends: its record of R247 and R248. -/
def endXfer (s : State) (r ch : Nat) (x : Xfer) : State :=
  let s := s.setChan r ch { s.chan r ch with xfer := none }
  let status := if x.struck then stAborted else x.status
  let s := if status = stOk ∨ (status = stAborted ∧ !dCompress x.desc) ∨ dDop x.desc = 2 then s else freeRest s r x
  let work := if dCompress x.desc then 0 else x.started
  dmaRetire s r ch x.job x.desc { status := status, flags := x.flags, progress := if x.struck then work else 0, work := work,
                                  cycles := costSoFar x.list x.next, bytes := x.moved }

/-- Write the parts of one piece. With `BARRIER` those at home in region `r` are written at once, and those elsewhere are acknowledged.
Without it the writes become visible in no fixed order (R245): a part elsewhere is a message, and a part at home is written at once or
passes inside the stop, a free choice. -/
def writeParts (s : State) (r ch : Nat) (x : Xfer) (data : List Byte) : List (Nat × Nat × Nat) → Nat → Nat → Nat × State
  | [], _, n => (n, s)
  | (a, h, len) :: t, o, n =>
    let b := slice data o len
    let (late, s) := if regionOf h = r ∧ !dBarrier x.desc then s.choose else (false, s)
    if regionOf h = r ∧ !late then
      match writeMem s (jobAcct s r x.job) a b with
      | (some e, s) => (n, failXfer s r ch (memStatus e))
      | (none, s) => writeParts s r ch x data t (o + len) (n + len)
    else
      let m : Msg := { cls := 0, src := r, dst := regionOf h, ackReq := dBarrier x.desc, len := len, addr := a, data := b, posted := x.job.cmd.isNone }
      let s := if dBarrier x.desc then updXfer (ask s (.dmaAck r ch x.id) m) r ch (fun x => { x with acks := x.acks + 1 }) else inject s m
      writeParts s r ch x data t (o + len) (n + len)

/-- Write the pieces of a burst in order, stopping at the first that fails; the bytes whose writes have left are counted. -/
def writePiecesOf (s : State) (r ch : Nat) (x : Xfer) (base : Nat) (data : List Byte) : List Piece → Nat → Nat × State
  | [], n => (n, s)
  | p :: t, n =>
    match atHomes s p.addr p.len with
    | none => (n, failXfer s r ch stAddressFault)
    | some hs =>
      let (k, s) := writeParts s r ch x (slice data (p.off - base) p.len) hs 0 0
      if k < p.len then (n + k, s) else writePiecesOf s r ch x base data t (n + p.len)

/-- The bytes of a burst leave as one RDMA WRITE (R241); a queue pair in the error state takes none (R249). -/
def postBurst (s : State) (r ch : Nat) (x : Xfer) (off : Nat) (data : List Byte) : State :=
  let data := swapBytes (dSwap x.desc) data
  if data.isEmpty then s
  else if !peerUsable s (dPeer x.desc) then failXfer s r ch stDmaRdmaRetry
  else
    let s := qpPost s (dPeer x.desc) { op := 0, addr := dDst x.desc + off, len := data.length, data := data, use := .dmaWrite r ch x.id }
    updXfer (s.bump (chBytesBytes r ch) data.length) r ch
      (fun x => { x with moved := x.moved + data.length, acks := if dBarrier x.desc then x.acks + 1 else x.acks })

/-- The bursts of an `RDMA_WRITE` leave in stream order, each when its bytes and those of every earlier one are in hand; one that a failed
read has cut is the last (R241, R249). -/
def postReady (s : State) (r ch id : Nat) : Nat → State
  | 0 => s
  | fuel + 1 =>
    match xferOf s r ch id with
    | none => s
    | some x =>
      match x.bursts with
      | [] => s
      | b :: rest =>
        if b.reads ≠ 0 then s
        else
          let cut := decide (b.len < min 4096 (x.total - b.off))
          postReady (postBurst (updXfer s r ch (fun x => { x with bursts := if cut then [] else rest })) r ch x b.off (b.buf.take b.len)) r ch id fuel

/-- The bytes of a burst are in hand: they are written, or kept for the compressor. -/
def landBurst (s : State) (r ch : Nat) (x : Xfer) (off : Nat) (data : List Byte) : State :=
  let data := swapBytes (dSwap x.desc) data
  if data.isEmpty then s
  else if dCompress x.desc then
    updXfer (s.bump (chBytesBytes r ch) data.length) r ch (fun x => { x with src := patch (padTo x.total x.src) off data, moved := x.moved + data.length })
  else
    let dst := destList x
    let (ps, s) := settleOverlap s dst (piecesIn dst off data.length)
    let skipped := data.length - (ps.map (·.len)).sum
    let (n, s) := writePiecesOf s r ch x off data ps 0
    let n := if n = (ps.map (·.len)).sum then n + skipped else n
    updXfer (s.bump (chBytesBytes r ch) n) r ch (fun x => { x with moved := x.moved + n })

/-- Bytes of a local part up to the first uncorrectable unit, and the status that met. -/
def readPart (s : State) (c : Acct) (a h n : Nat) : List Byte × Nat × State :=
  let good := goodPart s h n
  match readMem s c a n with
  | (.ok b, s) => (b, stOk, s)
  | (.error .fault, s) => ([], stAddressFault, s)
  | (.error .uncorrectable, s) =>
    match readMem s c a good with
    | (.ok b, s) => (b, stMemUncorrectable, s)
    | (.error e, s) => ([], memStatus e, s)

/-- Gather the parts of a burst: bytes at home in region `r` at once, the others asked for. A read that fails cuts the burst there. -/
def gatherParts (s : State) (r ch : Nat) (x : Xfer) (off : Nat) : List (Nat × Nat × Nat) → Burst → Bool × Burst × State
  | [], b => (true, b, s)
  | (a, h, len) :: t, b =>
    let pos := b.len
    if regionOf h = r then
      let (bytes, st, s) := readPart s (jobAcct s r x.job) a h len
      let b := { b with buf := b.buf ++ bytes, len := pos + bytes.length }
      if st = stOk then gatherParts s r ch x off t b else (false, b, failXfer s r ch st)
    else
      let s := ask s (.dmaRead r ch x.id off pos) { cls := 1, src := r, dst := regionOf h, len := len, addr := a, posted := x.job.cmd.isNone }
      gatherParts s r ch x off t { b with buf := b.buf ++ List.replicate len 0, len := pos + len, reads := b.reads + 1 }

def gatherPieces (s : State) (r ch : Nat) (x : Xfer) (off : Nat) : List Piece → Burst → Burst × State
  | [], b => (b, s)
  | p :: t, b =>
    if p.zero then gatherPieces s r ch x off t { b with buf := b.buf ++ List.replicate p.len 0, len := b.len + p.len }
    else
      match atHomes s p.addr p.len with
      | none => (b, failXfer s r ch stAddressFault)
      | some hs =>
        match gatherParts s r ch x off hs b with
        | (true, b, s) => gatherPieces s r ch x off t b
        | (false, b, s) => (b, s)

/-- May the channel start a burst? -/
def burstDue (s : State) (r ch : Nat) (x : Xfer) : Bool :=
  running s r && decide (x.next < x.total) && !x.struck && !x.barWait && decide (x.status = stOk) && decide (x.bursts.length < 8) &&
  (decide (ch = panChannel) || decide (s.get (chShareShareCap r ch) ≠ 0)) && !heldByRun s x

/-- The channel reads the list a second time as it moves data (R239): an entry that has changed since the check is taken as it was or as it
is now, a free choice for its aligned 16-byte unit (R96). The entries that begin below stream offset `upto`, and the status of a read that
fails. -/
def rereadTo (r ch upto : Nat) : Nat → State → Xfer → Nat × Xfer × State
  | 0, s, x => (stOk, x, s)
  | fuel + 1, s, x =>
    match x.raw[x.reread]?, x.list[x.reread]? with
    | some old, some p =>
      if upto ≤ p.off then (stOk, x, s)
      else
        match readMem s (jobAcct s r x.job) (dSgAddr x.desc + 16 * x.reread) 16 with
        | (.error e, s) => (memStatus e, x, s)
        | (.ok b, s) =>
          let (new, s) := if b = old then (false, s) else s.choose
          let raw := if new then x.raw.set x.reread b else x.raw
          rereadTo r ch upto fuel s { x with raw := raw, reread := x.reread + 1, list := sgPieces 0 raw }
    | _, _ => (stOk, x, s)

/-! ## The compressing store (R171-R173) -/

/-- The parts of one piece of an object: at home in region `r` they are written, elsewhere they are messages whose acknowledgements are
waited for, since `COMPLETE` follows when every other byte is visible. -/
def storeParts (s : State) (r ch : Nat) (x : Xfer) (data : List Byte) : List (Nat × Nat × Nat) → Nat → Bool × State
  | [], _ => (true, s)
  | (a, h, len) :: t, o =>
    let b := slice data o len
    if regionOf h = r then
      match writeMem s (jobAcct s r x.job) a b with
      | (some e, s) => (false, failXfer s r ch (memStatus e))
      | (none, s) => storeParts s r ch x data t (o + len)
    else
      let s := ask s (.dmaAck r ch x.id) { cls := 0, src := r, dst := regionOf h, ackReq := true, len := len, addr := a, data := b, posted := x.job.cmd.isNone }
      storeParts (updXfer s r ch (fun x => { x with acks := x.acks + 1 })) r ch x data t (o + len)

/-- Pieces of an object in their order, up to the first that fails. -/
def storeObject (s : State) (r ch : Nat) (x : Xfer) : List (Nat × List Byte) → Bool × State
  | [] => (true, s)
  | (a, b) :: t =>
    match atHomes s a b.length with
    | none => (false, failXfer s r ch stAddressFault)
    | some hs =>
      match storeParts s r ch x b hs 0 with
      | (true, s) => storeObject s r ch x t
      | (false, s) => (false, s)

/-- `COMPLETE` and the mask's flag as the store leaves them. -/
def storeFlag (s : State) (r ch : Nat) (x : Xfer) (done : Bool) : Bool × State :=
  storeObject s r ch x [(dDst x.desc + 9, natLe 1 (b2n x.elem + 2 * b2n done))]

/-- Every other byte is visible: `COMPLETE` is set. -/
def compressDone (s : State) (r ch : Nat) (x : Xfer) : State := updXfer (storeFlag s r ch x true).2 r ch (fun x => { x with stage := 2 })

/-- The source is in hand: the checks hold again, `COMPLETE` is cleared, and everything but it is written. -/
def compressNow (s : State) (r ch : Nat) (x : Xfer) : State :=
  let h := dDst x.desc
  match bbcWay s r (jobAcct s r x.job) h with
  | .wait => s
  | .off => failXfer s r ch stDmaTargetLost
  | .serve =>
    let p := x.list.headD { off := 0, addr := 0, len := 0 }
    match bbcCheck s (jobAcct s r x.job) p.addr p.len p.zero h with
    | (.error e, s) => failXfer s r ch (memStatus e)
    | (.ok none, s) => updXfer (failXfer s r ch stInvalidField) r ch (fun x => { x with stage := 3 })
    | (.ok (some k), s) =>
      let x := { x with elem := k.m.elemMask, flags := if k.dense.isEmpty then 0 else flDenseFallback, stage := 1 }
      let s := updXfer s r ch (fun y => { y with elem := x.elem, flags := x.flags, stage := 1 })
      let lay := scaledAt k.f p.addr k.o.rows k.o.cols
      let sh := if fmtScaled k.f then slice x.src (lay.header - p.addr) 64 else []
      let (writes, lost) := bbcPieces k.f lay p.addr x.src sh k.meb k.o k.m k.mg k.g k.dense h
      match storeFlag s r ch x false with
      | (false, s) => s
      | (true, s) =>
        match storeObject s r ch x writes with
        | (false, s) => s
        | (true, s) => ((s.bump (spMasknzMaskNz r) lost).bump (spStatDenseFb r) k.dense.length).bump (spStatFbDenied r) k.denied

/-- A compressing store whose source is in hand goes on as far as it can. -/
def compressGo (s : State) (r ch : Nat) : Nat → State
  | 0 => s
  | fuel + 1 =>
    match (s.chan r ch).xfer with
    | none => s
    | some x =>
      if !dCompress x.desc || decide (x.next < x.total) || !x.bursts.isEmpty || x.struck || x.barWait || decide (x.status ≠ stOk) then s
      else if x.stage = 0 then compressGo (compressNow s r ch x) r ch fuel
      else if x.stage = 1 ∧ x.acks = 0 then compressDone s r ch x
      else s

/-- What becomes of the second reading of the list (R239, R350). -/
def listWay (s : State) (r : Nat) (x : Xfer) : Fate := reach s r (dSgAddr x.desc) (16 * x.raw.length)

/-- DMA_BURST: the next burst of the transfer in progress starts; a compressing store whose source is in hand goes on. -/
def execDmaBurst (r : Fin 32) (ch : Fin 64) (s : State) : Host.Outcome State Fault Refusal :=
  match (s.chan r ch).xfer with
  | none => .next s
  | some x =>
    if !burstDue s r ch x || decide (listWay s r x = .wait) then .next (if running s r then compressGo s r ch 2 else s)
    else if listWay s r x = .off then .next (failXfer s r ch stDmaTargetLost)
    else if dRdma x.desc && !peerUsable s (dPeer x.desc) then .next (failXfer s r ch stDmaRdmaRetry)
    else
      let off := x.next
      let n := min 4096 (x.total - off)
      let (st, x, s) := rereadTo r ch (off + n) x.raw.length s x
      let s := updXfer s r ch (fun _ => x)
      if st ≠ stOk then .next (failXfer s r ch st)
      else
      let s := updXfer s r ch (fun x => { x with next := off + n, started := x.started + 1 })
      match dDop x.desc with
      | 1 => .next (landBurst s r ch x off ((List.range n).map (fun i => (slice (slice x.desc 0x28 8) ((off + i) % 8) 1).headD 0)))
      | 3 =>
        let s := qpPost s (dPeer x.desc) { op := 1, addr := dDst x.desc + off, len := n, use := .dmaRead r ch x.id off }
        .next (updXfer s r ch (fun x => { x with bursts := x.bursts ++ [{ off := off, len := n, buf := List.replicate n 0, reads := 1 }] }))
      | _ =>
        let (b, s) := gatherPieces s r ch x off (piecesIn (sourceList x) off n) { off := off, len := 0, buf := [], reads := 0 }
        if dDop x.desc = 2 then .next (postReady (updXfer s r ch (fun x => { x with bursts := x.bursts ++ [b] })) r ch x.id 8)
        else if b.reads = 0 then .next (compressGo (landBurst s r ch x off b.buf) r ch 2)
        else .next (updXfer s r ch (fun x => { x with bursts := x.bursts ++ [b] }))

/-- One read of a burst answers: `data` lands; of a read that failed, the bytes before the failure, and all after them is cut off. -/
def readLanded (s : State) (r ch id off pos : Nat) (whole : Bool) (d : List Byte) : State :=
  match xferOf s r ch id with
  | none => s
  | some x =>
    match x.bursts.find? (fun b => decide (b.off = off)) with
    | none => s
    | some b =>
      let b := if whole then { b with buf := padTo b.len (patch b.buf pos d), reads := b.reads - 1 }
        else { b with buf := (patch b.buf pos d).take (min b.len (pos + d.length)), len := min b.len (pos + d.length), reads := b.reads - 1 }
      if dDop x.desc = 2 then
        postReady (updXfer s r ch (fun x => { x with bursts := x.bursts.map (fun y => if y.off = off then b else y) })) r ch id 8
      else if b.reads = 0 then
        let s := updXfer s r ch (fun x => { x with bursts := x.bursts.filter (fun y => decide (y.off ≠ off)) })
        landBurst s r ch x off (b.buf.take b.len)
      else updXfer s r ch (fun x => { x with bursts := x.bursts.map (fun y => if y.off = off then b else y) })

/-- One acknowledgement of a written part arrives. -/
def writeAcked (s : State) (r ch id : Nat) : State :=
  match xferOf s r ch id with
  | none => s
  | some _ => updXfer s r ch (fun x => { x with acks := x.acks - 1 })

/-- A request of a transfer fails for good: its status, and the end of a transfer that only waited for acknowledgements. -/
def xferFailed (s : State) (r ch id status : Nat) : State :=
  match xferOf s r ch id with
  | none => s
  | some x =>
    if x.barWait then endXfer s r ch { x with status := if x.status = stOk then status else x.status }
    else failXfer s r ch status

/-- Has the last write of the transfer left the engine? -/
def lastLeft (x : Xfer) : Bool :=
  x.bursts.isEmpty && !x.barWait && ((decide (x.total ≤ x.next) && (!dCompress x.desc || decide (x.stage = 2))) || x.struck || decide (x.status ≠ stOk))

/-- DMA_LAST_WRITE_LEFT (R245, R246). -/
def execDmaLastWriteLeft (r : Fin 32) (ch : Fin 64) (s : State) : Host.Outcome State Fault Refusal :=
  match (s.chan r ch).xfer with
  | none => .next s
  | some x =>
    if !running s r || !lastLeft x then .next s
    else if dBarrier x.desc then .next (updXfer s r ch (fun x => { x with barWait := true }))
    else .next (endXfer s r ch x)

/-- DMA_BARRIER_ACK: the last acknowledgement is in (R246). -/
def execDmaBarrierAck (r : Fin 32) (ch : Fin 64) (s : State) : Host.Outcome State Fault Refusal :=
  match (s.chan r ch).xfer with
  | none => .next s
  | some x => if running s r && x.barWait && decide (x.acks = 0) then .next (endXfer s r ch x) else .next s

/-- DMA_BARRIER_TIMEOUT (R246). -/
def execDmaBarrierTimeout (r : Fin 32) (ch : Fin 64) (s : State) : Host.Outcome State Fault Refusal :=
  match (s.chan r ch).xfer with
  | none => .next s
  | some x =>
    if running s r && x.barWait then .next (endXfer s r ch { x with status := if x.status = stOk then stDmaBarrierTimeout else x.status })
    else .next s

end Sys2Proof.Machine
end

