-- ==== Sys2Proof/Machine/Sections.lean ====
section
/-! DEFINITION. The sections of a bitstream (R32-R44): where their entries lie, and what the bitstream in force says. -/
namespace Sys2Proof.Machine

/-- A section of the bitstream in force. -/
def secOf (s : State) (ty : Nat) : List Byte := tabGet [] ty s.bs.secs

/-- `n` entries of `w` bytes from offset `o`. -/
def entriesAt (b : List Byte) (o w n : Nat) : List (List Byte) := (List.range n).map (fun i => slice b (o + w * i) w)

/-! ## Layer placement (R36) -/

def layersOf (b : List Byte) : List (List Byte) := entriesAt b 8 32 (getLe b 0 4)
def tensorsOf (b : List Byte) : List (List Byte) := entriesAt b (8 + 32 * getLe b 0 4) 32 (getLe b 4 4)
def lyStage (e : List Byte) : Nat := getLe e 4 1
def lyRegion (e : List Byte) : Nat := getLe e 5 1
def tnId (e : List Byte) : Nat := getLe e 0 4
def tnMode (e : List Byte) : Nat := getLe e 4 1
def tnBase (e : List Byte) : Nat := getLe e 8 8
def tnBytes (e : List Byte) : Nat := getLe e 16 8

/-- The tensor of an identifier, in the bitstream in force. -/
def tensorOf (s : State) (id : Nat) : Option (List Byte) := (tensorsOf (secOf s 4)).find? (fun e => decide (tnId e = id))

/-! ## Pannier (R41) -/

def stagesOf (b : List Byte) : List (List Byte) := entriesAt b 4 16 (getLe b 0 4)

/-- The stage whose layers region `r` runs (R138). -/
def stageOfRegion (layers : List Byte) (r : Nat) : Option Nat := ((layersOf layers).find? (fun e => decide (lyRegion e = r))).map lyStage

/-- The pannier entry of a region's stage. -/
def stageEntry (layers pan : List Byte) (r : Nat) : Option (List Byte) :=
  (stageOfRegion layers r).bind (fun st => (stagesOf pan).find? (fun e => decide (getLe e 0 1 = st)))

/-- The budget that the sections give a region (R41). -/
def budgetOf (layers pan : List Byte) (r : Nat) : Nat := ((stageEntry layers pan r).map (fun e => getLe e 8 8)).getD 0

/-! ## Modes (R38) -/

/-- A field of the entry of a mode. -/
def modeField (b : List Byte) (mode off n : Nat) : Nat := getLe b (16 + 16 * mode + off) n

/-! ## Ports and memory regions (R35) -/

def portClassOf (b : List Byte) (p : Nat) : Nat := getLe b (4 * p) 1
def portBreakoutOf (b : List Byte) (p : Nat) : Bool := decide (getLe b (4 * p + 1) 1 = 1)
def memRegions (b : List Byte) : List (List Byte) := entriesAt b 260 32 (getLe b 256 4)
def mrBase (e : List Byte) : Nat := getLe e 0 8
def mrLen (e : List Byte) : Nat := getLe e 8 8
def mrAccess (e : List Byte) : Nat := getLe e 16 1
def mrClasses (e : List Byte) : Nat := getLe e 17 1

/-! ## Programs (R42) -/

def programsOf (b : List Byte) : List (List Byte) := entriesAt b 4 32 (getLe b 0 4)
def pgRegion (e : List Byte) : Nat := getLe e 0 1
def pgQueue (e : List Byte) : Nat := getLe e 1 1
def pgLoop (e : List Byte) : Bool := bitAt (getLe e 2 2) 0
def pgCmds (e : List Byte) : Nat := getLe e 4 4
def pgOff (e : List Byte) : Nat := getLe e 8 4
def pgToks (e : List Byte) : Nat := getLe e 12 4
def pgLimit (e : List Byte) : Nat := getLe e 16 8
def pgTokOff (e : List Byte) : Nat := getLe e 24 4
/-- The commands that an entry carries. -/
def pgCommands (b e : List Byte) : List (List Byte) := entriesAt b (pgOff e) 64 (pgCmds e)
/-- Its token initialisers: token and value. -/
def pgTokens (b e : List Byte) : List (Nat × Nat) := (entriesAt b (pgTokOff e) 8 (pgToks e)).map (fun x => (getLe x 0 2, getLe x 4 4))

/-! ## Seams (R43) -/

def seamEntries (b : List Byte) : List (List Byte) := entriesAt b 4 32 (getLe b 0 4)
def smId (e : List Byte) : Nat := getLe e 0 1
def smMembers (e : List Byte) : List Nat := bitsOf 32 (getLe e 4 4)
def smPa (e : List Byte) : Nat := getLe e 8 1
def smPb (e : List Byte) : Nat := getLe e 9 1
def smOff (e : List Byte) : Nat := getLe e 16 8
def smLen (e : List Byte) : Nat := getLe e 24 8

/-! ## Derailleur tables (R44) -/

/-- Tables of a section: identifier and entries. -/
def tablesFrom (b : List Byte) : Nat → Nat → List (Nat × List (List Byte))
  | 0, _ => []
  | k + 1, o => (getLe b o 2, entriesAt b (o + 16) 32 (getLe b (o + 4) 4)) :: tablesFrom b k (o + 16 + 32 * getLe b (o + 4) 4)
def tablesOf (b : List Byte) : List (Nat × List (List Byte)) := tablesFrom b (getLe b 0 4) 4

/-- Each table's number and its bytes, header and entries. -/
def drlParts (b : List Byte) : Nat → Nat → List (Nat × List Byte)
  | 0, _ => []
  | k + 1, o =>
    let n := 16 + 32 * getLe b (o + 4) 4
    (getLe b o 2, slice b o n) :: drlParts b k (o + n)

/-- Tables loaded by a partial join those of before, which stay available (R268); one of the same number takes its place. -/
def mergeTables (old new : List Byte) : List Byte :=
  let parts := fun (b : List Byte) => if b.isEmpty then [] else drlParts b (getLe b 0 4) 4
  let l := (parts old).filter (fun t => !(parts new).any (fun u => decide (u.1 = t.1))) ++ parts new
  natLe 4 l.length ++ l.flatMap (·.2)

def dtSrc (e : List Byte) : Nat := getLe e 0 1
def dtDst (e : List Byte) : Nat := getLe e 1 1
def dtLen (e : List Byte) : Nat := getLe e 4 4
def dtSrcOff (e : List Byte) : Nat := getLe e 8 8
def dtDstOff (e : List Byte) : Nat := getLe e 16 8

/-- Base offset of the step record and step page (R137), the pannier area's end. -/
def stepPage : Nat := 0x1FBFFFF000

/-! ## Sub-commands -/

/-- A unit submits a command of its own (R145, R179): it is live under queue 8, with the step of the command it serves. -/
def submitSub (s : State) (r : Nat) (parent : Live) (b : List Byte) : Nat × State :=
  let id := (s.hub r).nextId
  (id, s.updHub r (fun h => { h with
    nextId := id + 1,
    live := h.live ++ [{ id := id, q := 8, bytes := padTo 64 b, st := .dispatched, step := parent.step, disp := parent.disp }] }))

/-- How a sub-command ended, once it has. -/
def subEnd (s : State) (r id : Nat) : Option Res := tabFind id (s.hub r).subs

/-- The unit takes note of the end. -/
def clearSub (s : State) (r id : Nat) : State := s.updHub r (fun h => { h with subs := tabErase id h.subs })

end Sys2Proof.Machine
end

