-- ==== Sys2Proof/Machine/Trans.lean ====
section
/-! DEFINITION. The transcendental functions of R120 and R122, from series on wide fixed-point numbers, rounded as R122 says. -/
namespace Sys2Proof.Machine

/-- Fraction bits of the fixed-point numbers the series are summed in. -/
def fxBits : Nat := 2400
/-- 1 in fixed point. -/
def fxOne : Int := ((2 ^ fxBits : Nat) : Int)
def fxMul (a b : Int) : Int := a * b / fxOne
def fxDiv (a b : Int) : Int := if b = 0 then 0 else a * fxOne / b

/-- A finite value in fixed point. -/
def fxOf (s : Bool) (m : Nat) (e : Int) : Int :=
  let v : Int := if 0 ≤ e + fxBits then ((m * 2 ^ (e + fxBits).toNat : Nat) : Int) else ((m / 2 ^ (-(e + fxBits)).toNat : Nat) : Int)
  if s then -v else v

/-- `Σ term`, where each term comes from the one before: `next k term`. -/
def fxSum (next : Nat → Int → Int) : Nat → Nat → Int → Int → Int
  | 0, _, _, acc => acc
  | n + 1, k, t, acc => if t = 0 then acc else fxSum next n (k + 1) (next k t) (acc + t)

/-- exp of a fixed-point number of magnitude below 1. -/
def fxExpSmall (x : Int) : Int := fxSum (fun k t => fxMul t x / (k + 1)) 1200 0 fxOne 0

/-- 2 atanh(r) for |r| ≤ 1/3: the sum of 2 r^(2k+1) / (2k+1). -/
def fxAtanh2 (r : Int) : Int :=
  let r2 := fxMul r r
  ((List.range 1300).foldl (fun (a : Int × Int) (k : Nat) => (a.1 + 2 * a.2 / (2 * (k : Int) + 1), fxMul a.2 r2)) (0, r)).1

/-- ln 2. -/
def fxLn2 : Int := fxAtanh2 (fxOne / 3)

/-- arctan(1/n) for an integer n. -/
def fxAtanInv (n : Int) : Int :=
  ((List.range 1300).foldl
    (fun (a : Int × Int) (k : Nat) => (if k % 2 = 0 then a.1 + a.2 / (2 * (k : Int) + 1) else a.1 - a.2 / (2 * (k : Int) + 1), a.2 / (n * n)))
    (0, fxOne / n)).1

/-- π, by Machin's formula. -/
def fxPi : Int := 16 * fxAtanInv 5 - 4 * fxAtanInv 239

/-- A real number known to far more bits than any format holds: sign, magnitude `m × 2^e`, exact or with more bits below. -/
structure Approx where
  s : Bool
  m : Nat
  e : Int
  exact : Bool
  deriving DecidableEq, Repr

def apFx (x : Int) : Approx := { s := decide (x < 0), m := x.natAbs, e := -fxBits, exact := false }
def apTiny (s : Bool) : Approx := { s := s, m := 1, e := -8000, exact := false }
def apHuge (s : Bool) : Approx := { s := s, m := 1, e := 8000, exact := false }
def apOne (s : Bool) : Approx := { s := s, m := 1, e := 0, exact := true }
def apZero (s : Bool) : Approx := { s := s, m := 0, e := 0, exact := true }
/-- Just below ±1. -/
def apBelowOne (s : Bool) : Approx := { s := s, m := 2 ^ 1000 - 1, e := -1000, exact := false }

/-- exp of a fixed-point number below 1200 in magnitude. -/
def apExp (x : Int) : Approx :=
  let n := (x + fxLn2 / 2) / fxLn2
  { s := false, m := (fxExpSmall (x - n * fxLn2)).natAbs, e := n - fxBits, exact := false }

/-- ln of `m × 2^e` in fixed point. -/
def fxLn (m : Nat) (e : Int) : Int :=
  let l := Nat.log2 m
  let x : Int := ((m * 2 ^ fxBits / 2 ^ l : Nat) : Int)
  ((l : Int) + e) * fxLn2 + fxAtanh2 (fxDiv (x - fxOne) (x + fxOne))

/-- sin (odd) or cos (even) series at a fixed-point angle within (−π, π]. -/
def fxSinCos (cos : Bool) (x : Int) : Int :=
  let x2 := fxMul x x
  if cos then fxSum (fun k t => -(fxMul t x2) / ((2 * k + 1) * (2 * k + 2))) 700 0 fxOne 0
  else fxSum (fun k t => -(fxMul t x2) / ((2 * k + 2) * (2 * k + 3))) 700 0 x 0

/-- The angle less its whole turns. -/
def fxTurn (x : Int) : Int :=
  let p := 2 * fxPi
  let r := x % p
  if 2 * r > p then r - p else r

/-- erf of a fixed-point number below 27 in magnitude. -/
def fxErf (x : Int) : Int :=
  let x2 := fxMul x x
  let terms := (List.range 3000).foldl
    (fun (a : Int × Int) (k : Nat) => (a.1 + a.2 / (2 * (k : Int) + 1), -(fxMul a.2 x2) / ((k : Int) + 1))) (0, x)
  let rootPi : Int := ((isqrt (fxPi.natAbs * 2 ^ fxBits) : Nat) : Int)
  fxDiv (2 * terms.1) rootPi

/-- Value of transcendental function `f` (0 exp … 9 rsqrt, the order of R120) at a finite argument, or the flag it raises. -/
inductive TVal where
  | val (a : Approx)
  | inf (s : Bool) (divz : Bool)
  | invalid
  deriving DecidableEq, Repr

/-- Is `m × 2^e` a power of two; its exponent. -/
def pow2Exp (m : Nat) (e : Int) : Option Int := if m = 2 ^ Nat.log2 m then some (Nat.log2 m + e) else none

/-- An integer value, if the argument is one of small magnitude. -/
def asInt (s : Bool) (m : Nat) (e : Int) : Option Int :=
  let i : Int := if 0 ≤ e then (m * 2 ^ e.toNat : Nat) else (m / 2 ^ (-e).toNat : Nat)
  if 0 ≤ e ∨ m % 2 ^ (-e).toNat = 0 then some (if s then -i else i) else none

/-- Is the magnitude at least `n`? -/
def magGe (m : Nat) (e : Int) (n : Nat) : Bool := decide (cmpMag m e n 0 ≠ .lt)

/-- Just below `m × 2^e`: where sin x or tanh x is closer to x than the fixed point can tell. -/
def apUnder (s : Bool) (m : Nat) (e : Int) : Approx := { s := s, m := m * 2 ^ 100 - 1, e := e - 100, exact := false }

/-- Is the magnitude below 2^-700? -/
def magTiny (m : Nat) (e : Int) : Bool := decide (cmpMag m e 1 (-700) = .lt)

/-- The functions of R120 at a finite argument. -/
def transFin (f : Nat) (s : Bool) (m : Nat) (e : Int) : TVal :=
  let x := fxOf s m e
  match f with
  | 0 => if m = 0 then .val (apOne false) else if magGe m e 1200 then .val (if s then apTiny false else apHuge false) else .val (apExp x)
  | 1 => if m = 0 then .inf true true else if s then .invalid
         else if pow2Exp m e = some 0 then .val (apZero false) else .val (apFx (fxLn m e))
  | 2 => if magGe m e 1200 then .val (if s then apTiny false else apHuge false)
         else (match asInt s m e with
          | some i => .val { s := false, m := 1, e := i, exact := true }
          | none => .val (apExp (fxMul x fxLn2)))
  | 3 => if m = 0 then .inf true true else if s then .invalid
         else (match pow2Exp m e with
          | some i => .val { s := decide (i < 0), m := i.natAbs, e := 0, exact := true }
          | none => .val (apFx (fxDiv (fxLn m e) fxLn2)))
  | 4 => if m = 0 then .val (apZero s) else if magTiny m e then .val (apUnder s m e) else if magGe m e 1200 then .val (apBelowOne s)
         else let a := apExp (2 * (if x < 0 then -x else x))
              let y : Int := if 0 ≤ a.e + fxBits then ((a.m * 2 ^ (a.e + fxBits).toNat : Nat) : Int) else ((a.m / 2 ^ (-(a.e + fxBits)).toNat : Nat) : Int)
              .val { apFx (fxDiv (y - fxOne) (y + fxOne)) with s := s }
  | 5 => if m = 0 then .val { s := false, m := 1, e := -1, exact := true }
         else if magGe m e 1200 then .val (if s then apTiny false else apBelowOne false)
         else let a := apExp (if x < 0 then -x else x)
              let y : Int := if 0 ≤ a.e + fxBits then ((a.m * 2 ^ (a.e + fxBits).toNat : Nat) : Int) else ((a.m / 2 ^ (-(a.e + fxBits)).toNat : Nat) : Int)
              if s then .val { s := false, m := (2 ^ (4 * fxBits) / (y + fxOne).natAbs), e := -(3 * fxBits), exact := false }
              else .val (apFx (fxDiv y (y + fxOne)))
  | 6 => if m = 0 then .val (apZero s) else if magGe m e 27 then .val (apBelowOne s) else .val { apFx (fxErf x) with s := s }
  | 7 => if m = 0 then .val (apZero s) else if magTiny m e then .val (apUnder s m e) else .val (apFx (fxSinCos false (fxTurn x)))
  | 8 => if m = 0 then .val (apOne false) else .val (apFx (fxSinCos true (fxTurn x)))
  | 9 => if m = 0 then .inf s true else if s then .invalid
         else let (m, e) := if e % 2 = 0 then (m, e) else (m * 2, e - 1)
              let k := 2 ^ (600 + 2 * (Nat.log2 m + 1))
              let r := isqrt (k / m)
              .val { s := false, m := r, e := -(e / 2) - 300 - (Nat.log2 m + 1), exact := decide (r * r * m = k) }
  | _ => .invalid

/-- The functions of R120 at an infinity: IEEE 754-2019's limits. -/
def transInf (f : Nat) (s : Bool) : TVal :=
  match f with
  | 0 | 2 => if s then .val (apZero false) else .inf false false
  | 1 | 3 => if s then .invalid else .inf false false
  | 4 | 6 => .val (apOne s)
  | 5 => .val (if s then apZero false else apOne false)
  | 9 => if s then .invalid else .val (apZero false)
  | _ => .invalid

/-- Round an approximation as R122 says: to nearest for the 16-bit formats, to one of its neighbours for binary32 and binary64. -/
def roundTrans (fmt : Fmt) (f x : Nat) (a : Approx) : Nat × Fl :=
  if a.exact ∨ fmtBits fmt ≤ 16 then roundMag fmt .rne a.s a.m a.e (!a.exact)
  else
    let up := Config.faithfulUp f (codeOfFmt fmt) x
    roundMag fmt (if up = a.s then .rdn else .rup) a.s a.m a.e true

/-- Transcendental function `f` on a pattern of a format (R120, R122). -/
def transV (fmt : Fmt) (f x : Nat) : Nat × Fl :=
  let v := decNum fmt x
  withNan fmt [v]
    (match (match v with | .fin s m e => transFin f s m e | .inf s => transInf f s | .nan _ _ => .invalid) with
     | .val a => roundTrans fmt f x a
     | .inf s dz => (signBit fmt s + fmtInf fmt, { divz := dz })
     | .invalid => invalidNan fmt)

/-! ## Activations (R125): the value of the formula, rounded once as R122 says (log 18) -/

/-- A rational constant `n / d` in fixed point. -/
def fxRatio (n d : Nat) : Int := ((n * 2 ^ fxBits / d : Nat) : Int)

/-- An approximation in fixed point. -/
def fxOfAp (a : Approx) : Int := fxOf a.s a.m a.e

/-- exp of a fixed-point number below 1200 in magnitude, in fixed point. -/
def fxExp (x : Int) : Int := fxOfAp (apExp x)

/-- The logistic function in fixed point. -/
def fxLogistic (x : Int) : Int := let y := fxExp x; fxDiv y (y + fxOne)

/-- Φ in fixed point, by erf. -/
def fxNormal (x : Int) : Int :=
  let r : Int := ((isqrt (2 ^ (2 * fxBits - 1)) : Nat) : Int)
  (fxOne + fxErf (fxMul x r)) / 2

/-- φ in fixed point. -/
def fxDensity (x : Int) : Int :=
  fxDiv (fxExp (-(fxMul x x / 2))) ((isqrt ((2 * fxPi).natAbs * 2 ^ fxBits) : Nat) : Int)

/-- `2u` of R125. -/
def fxTwoU (x : Int) : Int := 2 * fxMul (fxRatio 79788456 100000000) (x + fxMul (fxRatio 44715 1000000) (fxMul x (fxMul x x)))

/-- The factor of x in a(x), for codes 2 to 4: Φ(x), (1 + tanh u) / 2, σ(x). -/
def actFactor (act : Nat) (x : Int) : Int :=
  match act with
  | 2 => fxNormal x
  | 3 => fxLogistic (fxTwoU x)
  | _ => fxLogistic x

/-- a′(x) for codes 2 to 4; (1 − tanh² u) / 2 is 2 S (1 − S) for S = (1 + tanh u) / 2. -/
def actSlope (act : Nat) (x : Int) : Int :=
  let p := actFactor act x
  match act with
  | 2 => p + fxMul x (fxDensity x)
  | 3 => p + 2 * fxMul (fxMul x (fxMul p (fxOne - p))) (fxMul (fxRatio 79788456 100000000) (fxOne + fxMul (fxRatio 134145 1000000) (fxMul x x)))
  | _ => fxMul p (fxOne + fxMul x (fxOne - p))

/-- Magnitude from which a(x) and a′(x) differ from their limits by less than any format can tell. -/
def actBound (act : Nat) : Nat := if act = 2 then 39 else if act = 3 then 28 else 1500

/-- a(x) at a finite `x`, codes 2 to 4. -/
def actApprox (act : Nat) (s : Bool) (m : Nat) (e : Int) : Approx :=
  if m = 0 then apZero s
  else if magGe m e (actBound act) then (if s then apTiny true else apUnder false m e)
  else { s := s, m := m * (actFactor act (fxOf s m e)).natAbs, e := e - fxBits, exact := false }

/-- Φ(−a) + (−a) φ(a) for a from 39 to 64, by the asymptotic series Φ(−a) = φ(a) / a × Σ (−1)^k (2k − 1)!! / a^2k. -/
def normalTailSlope (a : Int) : Approx :=
  let a2 := fxMul a a
  let sum := fxSum (fun k t => fxDiv (-(2 * (k : Int) + 1) * t) a2) 60 0 fxOne 0
  let w := apExp (-(a2 / 2))
  let f := fxDiv (a - fxDiv sum a) ((isqrt ((2 * fxPi).natAbs * 2 ^ fxBits) : Nat) : Int)
  { s := true, m := w.m * f.natAbs, e := w.e - fxBits, exact := false }

/-- a′(x) at a finite `x`, codes 2 to 4: beyond the bound just above 1, or just below 0. -/
def slopeApprox (act : Nat) (s : Bool) (m : Nat) (e : Int) : Approx :=
  if m = 0 then { s := false, m := 1, e := -1, exact := true }
  else if act = 2 ∧ s ∧ magGe m e 39 ∧ !magGe m e 64 then normalTailSlope (fxOf false m e)
  else if magGe m e (actBound act) then (if s then apTiny true else { s := false, m := 2 ^ 1000 + 1, e := -1000, exact := false })
  else apFx (actSlope act (fxOf s m e))

/-- ACTIVATE, codes 2 to 4, on the pattern `x` of a finite value. -/
def actTransV (fmt : Fmt) (act x : Nat) : Nat × Fl :=
  match decNum fmt x with
  | .fin s m e => roundTrans fmt (10 + act) x (actApprox act s m e)
  | _ => (x, {})

/-- ACT_GRAD, codes 2 to 4, on the patterns of a finite `dy` and a finite `y`: dy × a′(y). -/
def gradTransV (fmt : Fmt) (act dy y : Nat) : Nat × Fl :=
  match decNum fmt dy, decNum fmt y with
  | .fin t n d, .fin s m e =>
    let a := slopeApprox act s m e
    if n = 0 then (signBit fmt (t != a.s), {})
    else roundTrans fmt (20 + act) (dy * 2 ^ 64 + y) { s := t != a.s, m := n * a.m, e := d + a.e, exact := a.exact }
  | _, _ => (y, {})

end Sys2Proof.Machine
end

