-- ==== Sys2Proof/Machine/Mxe.lean ====
section
/-! DEFINITION. The matrix engine (04_matrix_engine): checks, operands, exact groups, tiles, the finished-tile queue; block-bitmap
operands and selected columns (R101-R105, R173, R174). -/
namespace Sys2Proof.Machine

/-! ## The descriptor (R91) -/

structure Mxd where
  aAddr : Nat
  bAddr : Nat
  cAddr : Nat
  maskAddr : Nat
  selAddr : Nat
  m : Nat
  n : Nat
  k : Nat
  selN : Nat
  lda : Nat
  ldb : Nat
  ldc : Nat
  tm : Nat
  tn : Nat
  aFmt : Nat
  bFmt : Nat
  aTrans : Bool
  aBbc : Bool
  bTrans : Bool
  bBbc : Bool
  accInit : Nat
  out : Nat
  selInv : Bool
  maskT : Bool
  deriving DecidableEq, Repr

def mxdOf (b : List Byte) : Mxd :=
  { aAddr := getLe b 0 8, bAddr := getLe b 8 8, cAddr := getLe b 0x10 8, maskAddr := getLe b 0x18 8, selAddr := getLe b 0x20 8,
    m := getLe b 0x28 4, n := getLe b 0x2C 4, k := getLe b 0x30 4, selN := getLe b 0x34 4, lda := getLe b 0x38 4, ldb := getLe b 0x3C 4,
    ldc := getLe b 0x40 4, tm := getLe b 0x44 2, tn := getLe b 0x46 2, aFmt := getLe b 0x48 1, bFmt := getLe b 0x49 1,
    aTrans := bitAt (getLe b 0x4A 1) 0, aBbc := bitAt (getLe b 0x4A 1) 1, bTrans := bitAt (getLe b 0x4B 1) 0, bBbc := bitAt (getLe b 0x4B 1) 1,
    accInit := getLe b 0x4C 1, out := getLe b 0x4D 1, selInv := bitAt (getLe b 0x4E 1) 0, maskT := bitAt (getLe b 0x4E 1) 1 }

/-- Width classes of R88: 0 16-bit, 1 8-bit, 2 4-bit, 3 binary32. -/
def widthClass : Fmt → Option Nat
  | .pw16 | .b16 => some 0
  | .pw8 | .pn8 => some 1
  | .pq4 => some 2
  | .b32 => some 3
  | .b64 => none

/-- Reduction positions per cycle (R88). -/
def classG (c : Nat) : Nat := if c = 1 then 64 else if c = 2 then 128 else 32

/-- Stored shape of an operand. -/
def shapeOf (trans : Bool) (rows cols : Nat) : Nat × Nat := if trans then (cols, rows) else (rows, cols)

/-- In the cluster's own scratchpad (R92). -/
def inPad (r cl a n : Nat) : Bool := inside a n (scratchBase r cl) 0x800000

/-- What R98 compares a continuing command with. -/
def heldKey (d : Mxd) (cls : Nat) : List Nat := [d.m, d.n, d.tm, d.tn, cls]

/-- The mode's `PASSES`; before the first load none is in force, and it is a free value (log 5). -/
def modePasses (s : State) (r : Nat) : Nat :=
  let p := modeByte s r 8
  if p = 0 then (Config.freeWord s.tick).toNat % 3 + 1 else p

/-- The limits of R91 and the combinations that R79, R88, R92, R94, R98, R101 and R466 refuse. A compressed operand and a mask must be
aligned to 4 KiB (R164); for an unscaled operand, C and the selection list no rule names an alignment, and any address is accepted (DESIGN
CHOICE, log 59). -/
def mxdOk (op passes : Nat) (d : Mxd) (fa fb : Fmt) (held : Option Held) : Bool :=
  let (ar, ac) := shapeOf d.aTrans d.m d.k
  let (br, bc) := shapeOf d.bTrans d.k d.n
  let cls := (widthClass fa).getD 4
  let lim := fun x => decide (1 ≤ x ∧ x ≤ 1048576)
  let tile := fun x => decide (x % 16 = 0 ∧ 16 ≤ x ∧ x ≤ 128)
  widthClass fa == widthClass fb && decide (cls < 4) && (decide (cls = 3) && decide (passes ≤ 3) || decide (passes = 0)) &&
  lim d.m && lim d.n && lim d.k && tile d.tm && tile d.tn && decide (d.accInit ≤ 2) && decide (d.out ≤ 1) &&
  (fmtScaled fa || d.aBbc || decide (ac ≤ d.lda)) && (fmtScaled fb || decide (bc ≤ d.ldb)) &&
  (decide (d.accInit ≠ 1) || decide (d.n ≤ d.ldc)) && !d.bBbc &&
  (if op = 0x21 then d.aBbc && decide (d.tm = 128) else !d.aBbc) &&
  (decide (op ≠ 0x22) || decide (1 ≤ d.selN ∧ d.selN ≤ 65536)) &&
  (decide (d.out = 0) || (decide (d.m ≤ d.tm) && decide (d.n ≤ d.tn))) &&
  (decide (d.accInit ≠ 2) || (held.map (·.key)) == some (heldKey d cls)) &&
  ((!fmtScaled fa && !d.aBbc) || decide (d.aAddr % 4096 = 0)) && (!fmtScaled fb || decide (d.bAddr % 4096 = 0)) &&
  decide (op = 0x22 ∨ d.maskAddr % 4096 = 0) && decide (1 ≤ ar ∧ 1 ≤ br)

/-- Extent of a dense operand (R92, R94). -/
def denseExtent (f : Fmt) (a rows cols ld : Nat) : Nat × Nat :=
  if fmtScaled f then (a, (scaledAt f a rows cols).fin - a) else (a, ((rows - 1) * ld + cols) * (fmtBits f / 8))

/-- Extents that the descriptor alone gives. -/
def mxdExtents (op : Nat) (d : Mxd) (fa fb : Fmt) : List (Nat × Nat) :=
  let (ar, ac) := shapeOf d.aTrans d.m d.k
  let (br, bc) := shapeOf d.bTrans d.k d.n
  [if d.aBbc then (d.aAddr, 128) else denseExtent fa d.aAddr ar ac d.lda, denseExtent fb d.bAddr br bc d.ldb] ++
  (if d.accInit = 1 then [(d.cAddr, ((d.m - 1) * d.ldc + d.n) * 4)] else []) ++
  (if op ≠ 0x22 ∧ d.maskAddr ≠ 0 then [(d.maskAddr, 128)] else []) ++ (if op = 0x22 then [(d.selAddr, 4 * d.selN)] else [])

/-! ## Operands -/

/-- An operand element as the loader hands it on: its exact value with its block's exponent (R86), whether it was flushed (R55), is
infinite or NaN, or lies in a block of scale byte 255 (R67). -/
structure El where
  v : Num
  flushed : Bool := false
  nf : Bool := false
  rsvd : Bool := false
  deriving DecidableEq, Repr

/-- A position that the loader fills with zero (R95). -/
def elZero : El := { v := .fin false 0 0 }

/-- `v × 2^e`. -/
def scaleNum (v : Num) (e : Int) : Num :=
  match v with
  | .fin s m x => .fin s m (x + e)
  | o => o

/-- An element from its code and its block's scale byte. -/
def elOf (f : Fmt) (code be : Nat) : El :=
  let v := decNum f code
  let sub := decide (field code (fmtFrac f) (fmtExp f) = 0) && decide (field code 0 (fmtFrac f) ≠ 0)
  if fmtScaled f then
    if be = 255 then { v := qnan, rsvd := true } else { v := scaleNum v ((be : Int) - 127), nf := !isFinite v }
  else if fmtLong f ∧ sub then { v := .fin (numSign v) 0 0, flushed := true }
  else { v := v, nf := !isFinite v }

def flip (n : Nat) (l : List (List El)) : List (List El) := (List.range n).map (fun j => l.map (fun row => row.getD j elZero))

/-- A dense operand with stored shape `rows` × `cols`: its elements and its `S_USED`. -/
def readOperand (s : State) (c : Acct) (f : Fmt) (a rows cols ld : Nat) : Except MemErr (List (List El) × Nat) × State :=
  if fmtScaled f then
    let lay := scaledAt f a rows cols
    thenRead (readMem s c a (packedBytes f (lay.padRows * lay.padCols))) fun vb s =>
    thenRead (readMem s c lay.scales (lay.padRows / 16 * (lay.padCols / 16))) fun sb s =>
    thenRead (readMem s c lay.header 64) fun hb s =>
    let grid := (List.range rows).map (fun i => (List.range cols).map (fun j =>
      elOf f (elemAt f vb (i * lay.padCols + j)) ((slice sb (i / 16 * (lay.padCols / 16) + j / 16) 1).headD 0).toNat))
    (.ok (grid, getLe hb 0 4), s)
  else
    match readRows s c (cols * (fmtBits f / 8)) (ld * (fmtBits f / 8)) a rows with
    | (.error e, s) => (.error e, s)
    | (.ok l, s) => (.ok (l.map (fun b => (unpackBytes f cols b).map (fun x => elOf f x 127)), one32), s)

/-- A block-bitmap operand in the scratchpad (R164-R166): its header, bitmap, blocks by rank, spread tables. -/
structure BbcOp where
  o : Bbc
  grid : Grid
  blocks : List (List El)
  tables : List (List Byte)
  deriving DecidableEq, Repr

def readBbc (s : State) (c : Acct) (f : Fmt) (h : Nat) (o : Bbc) (trans : Bool) : Except MemErr BbcOp × State :=
  thenRead (readMem s c (h + o.bm) (o.br * o.bmRow)) fun bm s =>
  let g := gridOf o bm
  let n := (storedBlocks g).length
  thenRead (readMem s c (h + o.vals) (n * blockBytes f)) fun vb s =>
  thenRead (if fmtScaled f then readMem s c (h + o.bs) n else (.ok [], s)) fun sb s =>
  let strips := if trans then ceilDiv o.bc 8 else ceilDiv o.br 8
  thenRead (readMem s c (h + (if trans then o.cst else o.rst)) (256 * strips)) fun tb s =>
  let blocks := (List.range n).map (fun k =>
    let be := if fmtScaled f then ((slice sb k 1).headD 0).toNat else 127
    let b := slice vb (k * blockBytes f) (blockBytes f)
    (unpackBytes f 256 b).map (fun x => elOf f x be))
  (.ok { o := o, grid := g, blocks := blocks, tables := chunksOf 256 strips tb }, s)

/-- The block at a grid position, zeros where none is stored. -/
def BbcOp.block (x : BbcOp) (i j : Nat) : List El :=
  if gridAt x.grid i j then
    x.blocks.getD ((rankTable x.grid).getD i 0 + (((x.grid[i]?).getD []).take j).count true) []
  else List.replicate 256 elZero

/-- Sixteen reduction elements of row `rr` of row-block `rb` of op(A) at block position `p`, zeros beyond the tensor. -/
def BbcOp.run (x : BbcOp) (trans : Bool) (rb rr p : Nat) : List El :=
  (List.range 16).map (fun q =>
    let (i, j, e) := if trans then (p, rb, 16 * q + rr) else (rb, p, 16 * rr + q)
    let (row, col) := if trans then (16 * p + q, 16 * rb + rr) else (16 * rb + rr, 16 * p + q)
    if row < x.o.rows ∧ col < x.o.cols then (x.block i j).getD e elZero else elZero)

/-- Block positions stored in a row-block of op(A), ascending. -/
def BbcOp.positions (x : BbcOp) (trans : Bool) (rb : Nat) : List Nat :=
  if trans then (List.range x.o.br).filter (fun i => gridAt x.grid i rb) else (List.range x.o.bc).filter (fun j => gridAt x.grid rb j)

/-! ## Arithmetic -/

/-- An exact product (R85), R56 first. -/
def prodNum (x y : Num) : Num :=
  match firstNan [x, y] with
  | some n => n
  | none => (mulNum x y).getD qnan

/-- The exact sum of a group of products. -/
def sumGroup (l : List Num) : Num :=
  match firstNan l with
  | some n => n
  | none =>
    match l with
    | [] => .fin false 0 0
    | a :: t => t.foldl (fun z v => match z with
        | .nan _ _ => z
        | z => (addNum .rne z v).getD qnan) a

/-- The two pieces of R77: 12 significand bits, and what is left. -/
def splitNum (x : Num) : Num × Num :=
  match x with
  | .fin s m e =>
    if m < 4096 then (x, .fin s 0 e)
    else
      let h : Nat := Nat.log2 m - 11
      let k := (quantum .rne s m e false (e + h)).1
      (.fin s k (e + h), addFin .rne s m e (!s) k (e + h))
  | o => (o, .fin false 0 0)

/-- Does a lo piece take part (R77)? -/
def liveLo (x : Num) : Bool := !isZero x

/-- Piece products of a group by pass (R78), a pass that forms none adding nothing; where an element is infinite or NaN, its hi·hi product
alone is formed (R77). One pass of whole products for other operands. -/
def passSums (multi : Bool) (passes : Nat) (as bs : List Num) : List Num :=
  if !multi then [sumGroup (List.zipWith prodNum as bs)]
  else
    let sa := as.map splitNum
    let sb := bs.map splitNum
    let hh := sumGroup (List.zipWith (fun a b => prodNum a.1 b.1) sa sb)
    let sum := fun (l : List Num) => if l.isEmpty then [] else [sumGroup l]
    let both := fun (p : (Num × Num) × (Num × Num)) => isFinite p.1.1 && isFinite p.2.1
    let hl := sum ((List.zip sa sb).filterMap (fun p => if both p && liveLo p.2.2 then some (prodNum p.1.1 p.2.2) else none))
    let lh := sum ((List.zip sa sb).filterMap (fun p => if both p && liveLo p.1.2 then some (prodNum p.1.2 p.2.1) else none))
    ([[hh], hl, lh].take passes).flatten

/-- One rounding addition to an accumulator, and whether it becomes infinite or NaN (R85, R110). -/
def accAdd (acc : Nat × Bool) (v : Num) : Nat × Bool :=
  let z := (addV .b32 .rne (f32 acc.1) v).1
  let worse := !fin32 z && (fin32 acc.1 || (isInf (f32 acc.1) && isNan (f32 z)))
  (z, acc.2 || worse)

/-- Groups of 32 in ascending order, added to an accumulator. -/
def accRun (multi : Bool) (passes : Nat) : Nat → List Num → List Num → Nat × Bool → Nat × Bool
  | 0, _, _, acc => acc
  | g + 1, as, bs, acc =>
    let pad := fun (l : List Num) => l.take 32 ++ List.replicate (32 - (l.take 32).length) (.fin false 0 0)
    accRun multi passes g (as.drop 32) (bs.drop 32) ((passSums multi passes (pad as) (pad bs)).foldl accAdd acc)

/-- A dot product over lists of one length. -/
def dotAcc (multi : Bool) (passes : Nat) (as bs : List Num) (acc : Nat × Bool) : Nat × Bool :=
  accRun multi passes (ceilDiv as.length 32) as bs acc

/-! ## Tiles -/

/-- What a tile is made from. -/
structure TileIn where
  row0 : Nat
  rows : Nat
  col0 : Nat
  cols : Nat
  deriving DecidableEq, Repr

/-- What a tile gives: values row-major, whether an accumulator became non-finite, its cycles in the array. -/
structure TileOut where
  vals : List Nat
  nfAcc : Bool
  cycles : Nat
  deriving DecidableEq, Repr

/-- T_tile of R100 for a tile of which `present` micro-tiles take array cycles (R104). -/
def tileCycles (k g passes f rows cols present : Nat) : Nat :=
  ceilDiv k g * max (passes * present) (max (4 * ceilDiv rows 16 * f) (4 * ceilDiv cols 16 * f))

/-- Micro-tile columns of micro-tile row `i` that are computed. -/
def liveCols (live : Nat → Nat → Bool) (cols i : Nat) : Nat := ((List.range (ceilDiv cols 16)).filter (fun j => live (16 * i) (16 * j))).length

/-- Micro-tiles of a tile that are computed. -/
def liveTiles (live : Nat → Nat → Bool) (rows cols : Nat) : Nat := ((List.range (ceilDiv rows 16)).map (liveCols live cols)).sum

/-- A dense tile: `as` its rows of op(A), `bs` its columns of op(B); `live` says which elements are computed at all. -/
def denseTile (multi : Bool) (passes : Nat) (as bs : List (List El)) (init : Nat → Nat → Nat) (live : Nat → Nat → Bool) (cycles : Nat) : TileOut :=
  let cells := (List.range as.length).flatMap (fun i => (List.range bs.length).map (fun j =>
    if live i j then
      dotAcc multi passes (((as[i]?).getD []).map (·.v)) (((bs[j]?).getD []).map (·.v)) (init i j, false)
    else (0, false)))
  { vals := cells.map (·.1), nfAcc := cells.any (·.2), cycles := cycles }

/-- The parts of lane group `l` under a stored spread table (R168): row-block, first block, number. -/
def laneParts (t : List Byte) (l : Nat) : List (Nat × Nat × Nat) :=
  let b := slice t (0x10 + 16 * l) 16
  [(getLe b 0 1, getLe b 4 4, getLe b 8 4), (getLe b 1 1, 0, getLe b 12 4)].filter (fun p => decide (p.1 ≠ 0xFF))

/-- The parts of a row-block under a stored spread table (R101, R168), in ascending lane order: first block and number. -/
def tableParts (t : List Byte) (rb : Nat) : List (Nat × Nat) :=
  (List.range 8).flatMap (fun l => ((laneParts t l).filter (fun p => decide (p.1 = rb))).map (·.2))

/-- Reduction block positions that some row-block of a strip uses (R174). -/
def BbcOp.usedPos (x : BbcOp) (trans : Bool) (strip k : Nat) : List Nat :=
  (List.range (ceilDiv k 16)).filter (fun p => (List.range 8).any (fun rb => (x.positions trans (8 * strip + rb)).contains p))

/-- T_tile of R174. Under a mask (R104) a part of a lane group runs, and a merge is made, for the present micro-tiles of its row-block
alone, and C of the sequencer's floor is the micro-tile columns with a present one (DEDUCED, log 60). -/
def sparseCycles (t : List Byte) (used k g bits cols : Nat) (masked : Bool) (live : Nat → Nat → Bool) : Nat :=
  let cc := ceilDiv cols 16
  let w := 16 / (g / 8)
  let c1 := if masked then ((List.range cc).filter (fun j => (List.range 8).any (fun i => live (16 * i) (16 * j)))).length else cc
  let lane := if masked then
      ((List.range 8).map (fun l => ((laneParts t l).map (fun p => p.2.2 * w * liveCols live cols p.1)).sum)).foldl max 0
    else cc * (getLe t 4 4 * w)
  let merges := ((List.range 8).map (fun rb => ((tableParts t rb).length - 1) * (if masked then liveCols live cols rb else cc))).sum
  max (max lane (c1 * ceilDiv k g)) (max (4 * cc * ceilDiv (16 * used) g) (ceilDiv (getLe t 0 4 * bits) 8)) + merges

/-- A tile of a strip that is not dense (R101, R102, R174): parts accumulate apart and merge in ascending order, the first of them in
the row-block's own accumulator. -/
def sparseTile (x : BbcOp) (trans : Bool) (passes : Nat) (multi : Bool) (strip : Nat) (rows : Nat) (bs : List (List El))
    (init : Nat → Nat → Nat) (live : Nat → Nat → Bool) (cycles : Nat) : TileOut :=
  let t := (x.tables[strip]?).getD []
  let cell := fun (i j : Nat) =>
    let rb := 8 * strip + i / 16
    let pos := x.positions trans rb
    let bcol := ((bs[j]?).getD []).map (·.v)
    let part := fun (p : Nat × Nat) (acc : Nat × Bool) =>
      let ps := (pos.drop p.1).take p.2
      dotAcc multi passes (ps.flatMap (fun q => (x.run trans rb (i % 16) q).map (·.v)))
        (ps.flatMap (fun q => (List.range 16).map (fun e => bcol.getD (16 * q + e) (.fin false 0 0)))) acc
    match tableParts t (i / 16) with
    | [] => (init i j, false)
    | p :: rest => rest.foldl (fun acc q =>
        let z := part q (0, false)
        accAdd (acc.1, acc.2 || z.2) (f32 z.1)) (part p (init i j, false))
  let cells := (List.range rows).flatMap (fun i => (List.range bs.length).map (fun j => if live i j then cell i j else (0, false)))
  { vals := cells.map (·.1), nfAcc := cells.any (·.2), cycles := cycles }

/-- What a whole MXE command leaves: its entries with what each tile adds to the counts, or its held tile; the flags and cycles of its
record beside those counts. -/
structure MxeOut where
  status : Nat
  entries : List TqEntry := []
  stats : List MxeStat := []
  held : Option Held := none
  flags : Nat := 0
  cycles : Nat := 40
  deriving DecidableEq, Repr

/-- The output mask of R104: bitmap flags by micro-tile and element bits. -/
structure OutMask where
  o : Bbc
  grid : Grid
  eb : Option (List Byte)
  trans : Bool
  deriving DecidableEq, Repr

def OutMask.block (m : OutMask) (i j : Nat) : Bool := if m.trans then gridAt m.grid j i else gridAt m.grid i j

/-- Element (row, col) of the output under the mask. -/
def OutMask.elem (m : OutMask) (row col : Nat) : Bool :=
  let (r, c) := if m.trans then (col, row) else (row, col)
  elemPresent m.o m.grid m.eb (r / 16) (c / 16) (r % 16) (c % 16)

/-- Flags of a list of elements: flushed ones counted, then infinite or NaN, then reserved scale. -/
def elFlags (l : List (List El)) : Nat × Bool × Bool :=
  ((l.map (fun row => row.countP (·.flushed))).sum, l.any (fun row => row.any (·.nf)), l.any (fun row => row.any (·.rsvd)))

/-- Everything a command computes from: operands as loaded. -/
structure MxeIn where
  d : Mxd
  fa : Fmt
  fb : Fmt
  passes : Nat
  a : List (List El)
  sparse : Option BbcOp
  bCols : List (List El)
  chosen : List Nat
  sA : Nat
  sB : Nat
  cRows : List (List Nat)
  mask : Option OutMask
  held : Option Held
  select : Bool
  stream : Nat
  deriving DecidableEq, Repr

/-- One tile as a queue entry, with what it adds to the counts (R110). A continuing tile's entry keeps the flags of the tile it continues,
and its record their NONFINITE; under a mask the bits of `PRESENT` outside an edge tile are 1 (DESIGN CHOICE, log 60). `BYTES` counts element
bytes alone, and a product of selected columns reads `C` at the original column (DESIGN CHOICE, log 63). -/
def mxeTile (x : MxeIn) (seq : Nat) (t : TileIn) (last : Bool) : TqEntry × MxeStat :=
  let d := x.d
  let multi := decide (x.fa = .b32)
  let g := classG ((widthClass x.fa).getD 0)
  let bs := (x.bCols.drop t.col0).take t.cols
  let init := fun (i j : Nat) =>
    match d.accInit with
    | 0 => 0
    | 1 => ((x.cRows[t.row0 + i]?).getD []).getD (x.chosen.getD (t.col0 + j) 0) 0
    | _ => match x.held with
      | some h => h.vals.getD (i * h.cols + j) 0
      | none => 0
  let live := fun (i j : Nat) =>
    match x.mask with
    | some m => m.block ((t.row0 + i) / 16) ((t.col0 + j) / 16)
    | none => true
  let strip := t.row0 / 128
  let denseStrip := match x.sparse with
    | some o => bitAt (getLe ((o.tables[strip]?).getD []) 0xC 1) 0
    | none => false
  let as := match x.sparse with
    | none => (x.a.drop t.row0).take t.rows
    | some o => (List.range t.rows).map (fun i =>
        ((List.range (ceilDiv d.k 16)).flatMap (fun p => o.run d.aTrans ((t.row0 + i) / 16) (i % 16) p)).take d.k)
  let dense := denseTile multi x.passes as bs init live
    (tileCycles d.k g x.passes (if multi then 2 else 1) t.rows t.cols (liveTiles live t.rows t.cols))
  -- what the loaders read: the whole rows and columns, or the stored blocks and the rows of op(B) that they meet (R174)
  let used := match x.sparse with
    | some o => if denseStrip then none else some (o, (o.tables[strip]?).getD [], o.usedPos d.aTrans strip d.k)
    | none => none
  let out := match used with
    | some (o, tab, ps) => sparseTile o d.aTrans x.passes multi strip t.rows bs init live
        (sparseCycles tab ps.length d.k g (fmtBits x.fa) t.cols x.mask.isSome live)
    | none => dense
  let read := match used with
    | some (_, _, ps) => bs.map (fun col => ps.flatMap (fun p => (col.drop (16 * p)).take 16))
    | none => bs
  let aBytes := match used with
    | some (_, tab, _) => getLe tab 0 4 * 32 * fmtBits x.fa
    | none => (t.rows * d.k * fmtBits x.fa + 7) / 8
  let fA := elFlags as
  let fB := elFlags read
  let st : MxeStat := { flushes := fA.1 + fB.1, nfIn := fA.2.1 || fB.2.1, nfAcc := out.nfAcc, rsvd := fA.2.2 || fB.2.2, dense := denseStrip,
                        cycles := out.cycles, bytes := aBytes + ((read.map List.length).sum * fmtBits x.fb + 7) / 8 }
  let present := match x.mask with
    | none => 2 ^ 64 - 1
    | some m => maskOf ((List.range 64).filter (fun e =>
        decide (t.rows ≤ 16 * (e / 8) ∨ t.cols ≤ 16 * (e % 8)) || m.block (t.row0 / 16 + e / 8) (t.col0 / 16 + e % 8)))
  let vals := match x.mask with
    | some m => if d.out = 1 then out.vals else
        (List.range out.vals.length).map (fun e => if m.elem (t.row0 + e / t.cols) (t.col0 + e % t.cols) then out.vals.getD e 0 else 0)
    | none => out.vals
  let heldFl := match x.held with
    | some h => h.flags
    | none => 0
  let cont := decide (d.accInit = 2)
  ({ stream := x.stream, last := last, nonfinite := st.nfIn || st.nfAcc || st.rsvd || (cont && bitAt heldFl 0),
     flushed := decide (0 < st.flushes) || (cont && bitAt heldFl 1), denseFb := denseStrip || (cont && bitAt heldFl 2), rows := t.rows, cols := t.cols,
     row0 := t.row0, col0 := x.chosen.getD t.col0 0, sA := x.sA, sB := x.sB, seq := seq, selBase := if x.select then t.col0 else 0, select := x.select,
     present := present, vals := vals, n := d.n, tm := d.tm }, st)

/-- The tiles of an output of `m` rows and `n` chosen columns, in row-major order (R97). -/
def tilesOf (m n tm tn : Nat) : List TileIn :=
  (List.range (ceilDiv m tm)).flatMap (fun i => (List.range (ceilDiv n tn)).map (fun j =>
    { row0 := i * tm, rows := min tm (m - i * tm), col0 := j * tn, cols := min tn (n - j * tn) }))

def statOr (a b : MxeStat) : MxeStat :=
  { flushes := a.flushes + b.flushes, nfIn := a.nfIn || b.nfIn, nfAcc := a.nfAcc || b.nfAcc, rsvd := a.rsvd || b.rsvd, dense := a.dense || b.dense,
    cycles := a.cycles + b.cycles, bytes := a.bytes + b.bytes }

/-- Drain time of an entry (R97). -/
def drainOf (e : TqEntry) : Nat := ceilDiv e.rows 16 * ceilDiv e.cols 16

/-- Cycles of R100 charged tile by tile: each takes the greater of its own time and the drain of the one before; the last drain follows
the last. -/
def chargeCycles : Nat → List (TqEntry × MxeStat) → List (TqEntry × MxeStat)
  | _, [] => []
  | before, (e, st) :: t =>
    (e, { st with cycles := max st.cycles before + (if t.isEmpty then drainOf e else 0) }) :: chargeCycles (drainOf e) t

/-- The tile that stays in its bank under `OUT` = 1 (R98). -/
def heldOf (key : List Nat) (e : TqEntry) : Held :=
  { row0 := e.row0, col0 := e.col0, rows := e.rows, cols := e.cols
    flags := b2n e.nonfinite + 2 * b2n e.flushed + 4 * b2n e.denseFb, vals := e.vals, key := key, cmd := 0 }

/-- Completion flags that a tile's counts give (R110); `nf` says that its entry carries `NONFINITE`. -/
def statFlags (st : MxeStat) (nf : Bool) : Nat :=
  (if st.nfIn || st.nfAcc || st.rsvd || nf then flNonfinite else 0) + (if st.dense then flDenseFallback else 0)

/-- The whole product from loaded operands. -/
def mxeProduct (x : MxeIn) : MxeOut :=
  let ts := tilesOf x.d.m x.chosen.length x.d.tm x.d.tn
  let outs := (List.zip (List.range ts.length) ts).map (fun (i, t) => mxeTile x i t (decide (i + 1 = ts.length)))
  if x.d.out = 1 then
    { status := stOk, stats := outs.map (·.2), held := outs.head?.map (fun o => heldOf (heldKey x.d ((widthClass x.fa).getD 4)) o.1),
      flags := outs.foldl (fun a o => flagsOr a (statFlags o.2 o.1.nonfinite)) 0 }
  else
    let outs := chargeCycles 0 outs
    { status := stOk, entries := outs.map (·.1), stats := outs.map (·.2) }

/-- The selection list is strictly ascending and below `n` (R105). -/
def ascending (n : Nat) : List Nat → Bool
  | [] => true
  | [a] => decide (a < n)
  | a :: b :: t => decide (a < b) && ascending n (b :: t)

/-- Register flags of a command (R110). -/
def xstat (s : State) (r cl : Nat) (st : MxeStat) : State :=
  let set := fun (s : State) (f : Fld) (b : Bool) => if b then s.put f 1 else s
  let s := set s (mxeXstatFlushIn r cl) (decide (0 < st.flushes))
  let s := set s (mxeXstatNfIn r cl) st.nfIn
  let s := set s (mxeXstatNfAcc r cl) st.nfAcc
  let s := set s (mxeXstatBeRsvd r cl) st.rsvd
  let s := set s (mxeXstatDenseFb r cl) st.dense
  s.bump (mxeXstatFlushCount r cl) st.flushes

/-- The stages after the descriptor's own checks: headers, extents, operands. -/
def mxeLoad (s : State) (c : Acct) (r cl op passes stream : Nat) (d : Mxd) (fa fb : Fmt) : Except Nat MxeIn × State :=
  let stop := fun (e : MemErr) (s : State) => ((Except.error (memStatus e) : Except Nat MxeIn), s)
  let (ar, ac) := shapeOf d.aTrans d.m d.k
  let (br, bc) := shapeOf d.bTrans d.k d.n
  if !(mxdExtents op d fa fb).all (fun e => inPad r cl e.1 e.2) then (.error stAddressFault, s)
  else
    -- a compressed A and a mask: their headers, then their areas
    match (if d.aBbc then readMem s c d.aAddr 128 else (.ok [], s)) with
    | (.error e, s) => stop e s
    | (.ok hb, s) =>
    let o := bbcOf hb
    match (if op ≠ 0x22 ∧ d.maskAddr ≠ 0 then readMem s c d.maskAddr 128 else (.ok [], s)) with
    | (.error e, s) => stop e s
    | (.ok mb, s) =>
    let m := bbcOf mb
    let hasMask := decide (op ≠ 0x22 ∧ d.maskAddr ≠ 0)
    let (mr, mc) := if d.maskT then (d.n, d.m) else (d.m, d.n)
    if (d.aBbc && (!o.complete || decide (o.fmt ≠ d.aFmt) || decide (o.rows ≠ ar) || decide (o.cols ≠ ac))) ||
       (hasMask && (!m.complete || decide (m.fmt ≠ 0xF) || decide (m.rows ≠ mr) || decide (m.cols ≠ mc))) ||
       (d.aBbc && !bbcAligned o (some fa) o.elemMask) || (hasMask && !bbcAligned m none m.elemMask) then (.error stInvalidField, s)
    else
    let bmOk := (!d.aBbc || inPad r cl (d.aAddr + o.bm) (o.br * o.bmRow)) && (!hasMask || inPad r cl (d.maskAddr + m.bm) (m.br * m.bmRow))
    if !bmOk then (.error stAddressFault, s)
    else
    match (if d.aBbc then readMem s c (d.aAddr + o.bm) (o.br * o.bmRow) else (.ok [], s)) with
    | (.error e, s) => stop e s
    | (.ok abm, s) =>
    match (if hasMask then readMem s c (d.maskAddr + m.bm) (m.br * m.bmRow) else (.ok [], s)) with
    | (.error e, s) => stop e s
    | (.ok mbm, s) =>
    let nA := (storedBlocks (gridOf o abm)).length
    let nM := (storedBlocks (gridOf m mbm)).length
    let areas := (if d.aBbc then (bbcAreas o (some fa) nA o.elemMask).map (fun e => (d.aAddr + e.1, e.2)) else []) ++
      (if hasMask then (bbcAreas m none nM m.elemMask).map (fun e => (d.maskAddr + e.1, e.2)) else [])
    if !areas.all (fun e => inPad r cl e.1 e.2) then (.error stAddressFault, s)
    else
    -- scale headers of dense scaled operands (R94)
    match (if fmtScaled fa ∧ !d.aBbc then readMem s c (scaledAt fa d.aAddr ar ac).header 64 else (.ok [], s)) with
    | (.error e, s) => stop e s
    | (.ok ha, s) =>
    match (if fmtScaled fb then readMem s c (scaledAt fb d.bAddr br bc).header 64 else (.ok [], s)) with
    | (.error e, s) => stop e s
    | (.ok hb2, s) =>
    let headerOk := fun (h : List Byte) (code rows cols : Nat) => decide (getLe h 4 1 = code) && decide (getLe h 16 4 = rows) && decide (getLe h 20 4 = cols)
    if (fmtScaled fa && !d.aBbc && !headerOk ha d.aFmt ar ac) || (fmtScaled fb && !headerOk hb2 d.bFmt br bc) then (.error stInvalidField, s)
    else
    match (if op = 0x22 then readMem s c d.selAddr (4 * d.selN) else (.ok [], s)) with
    | (.error e, s) => stop e s
    | (.ok sl, s) =>
    let named := (chunksOf 4 (if op = 0x22 then d.selN else 0) sl).map leNat
    if op = 0x22 && !ascending d.n named then (.error stInvalidField, s)
    else
    let chosen := if op ≠ 0x22 then List.range d.n else if d.selInv then (List.range d.n).filter (fun j => !named.contains j) else named
    match (if d.aBbc then (.ok ([], one32), s) else readOperand s c fa d.aAddr ar ac d.lda) with
    | (.error e, s) => stop e s
    | (.ok (a, sA), s) =>
    match (if d.aBbc then (match readBbc s c fa d.aAddr o d.aTrans with | (.ok x, s) => (.ok (some x), s) | (.error e, s) => (.error e, s))
           else ((.ok none : Except MemErr (Option BbcOp)), s)) with
    | (.error e, s) => stop e s
    | (.ok sp, s) =>
    match readOperand s c fb d.bAddr br bc d.ldb with
    | (.error e, s) => stop e s
    | (.ok (b, sB), s) =>
    match (if d.accInit = 1 then readRows s c (4 * d.n) (4 * d.ldc) d.cAddr d.m else (.ok [], s)) with
    | (.error e, s) => stop e s
    | (.ok cr, s) =>
    match (if hasMask ∧ m.elemMask then readMem s c (d.maskAddr + m.eb) (32 * nM) else (.ok [], s)) with
    | (.error e, s) => stop e s
    | (.ok meb, s) =>
    let cols := if d.bTrans then b else flip d.n b
    (.ok { d := d, fa := fa, fb := fb, passes := if fa = .b32 then (if passes = 0 then modePasses s r else passes) else 1,
           a := if d.aTrans ∧ !d.aBbc then flip d.m a else a, sparse := sp, bCols := chosen.map (fun j => (cols[j]?).getD []), chosen := chosen,
           sA := if d.aBbc ∧ fmtScaled fa then o.sUsed else sA, sB := sB, cRows := cr.map (fun b => unpackBytes .b32 d.n b),
           mask := if hasMask then some { o := m, grid := gridOf m mbm, eb := if m.elemMask then some meb else none, trans := d.maskT } else none,
           held := if d.accInit = 2 then (s.cluster r cl).held else none, select := decide (op = 0x22), stream := stream }, s)

/-- A whole MXE command on a cluster (R88-R110): its checks in order, the limits of R91 before the places of R92 (DESIGN CHOICE, log 63), its
product. `adj` lets the predictor unit set the fields that it submits (R176). -/
def mxeCommand (s : State) (c : Acct) (r cl op passes stream addr : Nat) (adj : Mxd → Mxd) : MxeOut × State :=
  if addr % 64 ≠ 0 ∨ !inPad r cl addr 128 then ({ status := stAddressFault }, s)
  else
    match readMem s c addr 128 with
    | (.error e, s) => ({ status := memStatus e }, s)
    | (.ok b, s) =>
      let d := adj (mxdOf b)
      match fmtOfCode d.aFmt, fmtOfCode d.bFmt with
      | some fa, some fb =>
        if fa = .b32 ∧ fb = .b32 ∧ !bitAt (s.get capUnits) 2 then ({ status := stAbsentUnit }, s)
        else if !mxdOk op passes d fa fb (s.cluster r cl).held then ({ status := stInvalidField }, s)
        else
          match mxeLoad s c r cl op passes stream d fa fb with
          | (.error st, s) => ({ status := st }, s)
          | (.ok x, s) =>
            (mxeProduct x, s)
      | _, _ => ({ status := stInvalidField }, s)

/-- A run starts: at once, or behind the run in progress (R99, R130). -/
def Cluster.addRun (c : Cluster) (run : MxeRun) : Cluster :=
  match c.mxe with
  | none => { c with mxe := some run }
  | some _ => { c with mxeNext := c.mxeNext ++ [run] }

/-- The record of an MXE command from what its tiles have added. -/
def Res.withStat (res : Res) (st : MxeStat) : Res :=
  { res with flags := flagsOr res.flags (statFlags st false), cycles := res.cycles + st.cycles, bytes := res.bytes + st.bytes }

/-- The command ends: its entries or terminator drain, or its tile is held (R98, R107, R108). -/
def mxeStart (s : State) (r cl : Nat) (l : Live) : State :=
  let stream := opStream l.bytes
  let (o, s) := mxeCommand s (acctOf r l) r cl (cmdOpcode l.bytes) (getLe l.bytes 0x31 1) stream (opAddr l.bytes) id
  let s := updLive (fifoPop s r (100 + cl)) r l.id (fun l => { l with started := true, holds := o.held.isSome })
  let s := s.setCluster r cl { s.cluster r cl with held := o.held.map (fun h => { h with cmd := l.id }) }
  let res : Res := { status := o.status, flags := o.flags, cycles := o.cycles }
  if o.held.isSome then
    let st := o.stats.foldl statOr {}
    finish (xstat s r cl st) r l (res.withStat st)
  else
    let drain := if o.entries.isEmpty then [terminator stream o.status 0 o.flags] else o.entries
    s.setCluster r cl ((s.cluster r cl).addRun { cmd := some l.id, stream := stream, drain := drain, stats := o.stats, res := res })

/-- R130: from the feeder's `LAST` to the replay's the MXE starts no other command. The epilogue need not have started: `waiting` holds the
streams of the cluster's live prime epilogues. -/
def primeLock (c : Cluster) (waiting : List Nat) : Bool :=
  (match c.ve with
   | some v => v.prime && v.qfed && (decide (v.phase = 2) || c.tq.any (·.last))
   | none => false) ||
  c.tq.any (fun e => e.last && !e.term && waiting.contains e.stream)

/-- Is a dispatched VE command an epilogue or queue-fed kernel that will start in prime mode (R74, R130), as its descriptor and its scale
record stand? -/
def willPrime (s : State) (b : List Byte) : Bool :=
  let d := tabRange 0 s.mem (opAddr b) 256
  let out := slice d 0x80 32
  let flags := (tabRange 0 s.mem (getLe d 0xD8 8) 20).getD 19 0
  bitAt (getLe d 0xC4 2) 0 && [1, 2, 3].contains (getLe out 8 1) && !bitAt (getLe out 9 1) 1 && !bitAt flags.toNat 0 && !bitAt flags.toNat 1

/-- Streams of the cluster's live prime epilogues, dispatched or not, the one that waits for its record among them. -/
def primeWaiting (s : State) (r cl : Nat) : List Nat :=
  ((s.hub r).live.filter (fun l => decide (cmdOpcode l.bytes = 0x30) && decide (targetCl (opTarget l.bytes) = cl) && willPrime s l.bytes)).map
    (fun l => opStream l.bytes)

/-- Is a bank free for the first tile of another command: none runs, or one whose last tile drains (R99)? -/
def bankFree (c : Cluster) : Bool :=
  match c.mxe with
  | none => true
  | some run => decide (run.drain.length = 1) && c.mxeNext.isEmpty && run.cmd.isSome

/-- The MXE command that the cluster may start now. -/
def mxeTurn (s : State) (r cl op : Nat) : Option Live :=
  let c := s.cluster r cl
  if running s r && bankFree c && c.pred.isNone && !primeLock c (primeWaiting s r cl) then
    (fifoHead s r (100 + cl)).filter (fun l => decide (cmdOpcode l.bytes = op) && c.owed.all (fun e => decide (l.disp < e.1)))
  else none

/-- MXE_MM. -/
def execMxeMm (r : Fin 32) (cl : Fin 96) (s : State) : Host.Outcome State Fault Refusal :=
  match mxeTurn s r cl 0x20 with
  | none => .next s
  | some l => .next (mxeStart s r cl l)

/-- MXE_MM_SPARSE. -/
def execMxeMmSparse (r : Fin 32) (cl : Fin 96) (s : State) : Host.Outcome State Fault Refusal :=
  match mxeTurn s r cl 0x21 with
  | none => .next s
  | some l => .next (mxeStart s r cl l)

/-- MXE_MM_SELECT. -/
def execMxeMmSelect (r : Fin 32) (cl : Fin 96) (s : State) : Host.Outcome State Fault Refusal :=
  match mxeTurn s r cl 0x22 with
  | none => .next s
  | some l => .next (mxeStart s r cl l)

/-- The terminator that is due next stands before the entries of a run of which none has been pushed (R99, log 60), or no run is in
progress and no earlier command waits; none comes between the products of a `PRED_RUN`, which holds the cluster. -/
def owedTurn (s : State) (r cl : Nat) (c : Cluster) : Option (TqEntry × List (Nat × TqEntry)) :=
  match c.owed with
  | [] => none
  | (k, e) :: rest =>
    let earlier := fun (id : Nat) => (findLive (s.hub r) id).any (fun l => decide (l.disp < k))
    let clear := match c.mxe with
      | none => !(fifoOf s r (100 + cl)).any earlier
      | some run => decide (run.pushed = 0) && run.cmd.any (fun id => !earlier id)
    if clear && c.pred.isNone then some (e, rest) else none

/-- FINISHED_TILE_PUSH (R107): the next entry of the command enters the queue when it has room, and the register flags of its tile are set
(R110); after the last the command retires. A terminator that is due enters in its turn, and with it an MXE command other than the holder
has run, which voids a held tile (R98, R108). -/
def execFinishedTilePush (r : Fin 32) (cl : Fin 96) (s : State) : Host.Outcome State Fault Refusal :=
  let c := s.cluster r cl
  if !running s r || decide (16 ≤ c.tq.length) then .next s
  else
    match owedTurn s r cl c with
    | some (e, rest) => .next (s.setCluster r cl (pushEntry { c with owed := rest, held := if c.mxe.isNone then none else c.held } e))
    | none =>
      match c.mxe with
      | none => .next s
      | some run =>
        match run.drain with
        | [] => .next s
        | e :: rest =>
          let st := run.stats.headD {}
          let seen := statOr run.seen st
          let n := run.pushed + b2n (!e.term)
          let c := pushEntry c e
          let s := xstat s r cl st
          let run' := { run with drain := rest, stats := run.stats.drop 1, seen := seen, pushed := n,
                                 res := { run.res with flags := flagsOr run.res.flags (statFlags {} e.nonfinite) } }
          if rest.isEmpty then
            let s := s.setCluster r cl { c with mxe := c.mxeNext.head?, mxeNext := c.mxeNext.drop 1 }
            match run.cmd.bind (findLive (s.hub r)) with
            | some l => .next (finish s r l { run'.res.withStat seen with work := n })
            | none => .next s
          else .next (s.setCluster r cl { c with mxe := some run' })

end Sys2Proof.Machine
end

