-- ==== Sys2Proof/Machine/VeStream.lean ====
section
/-! DEFINITION. Streams of the vector engine (R113-R117, R469): descriptors, extents, reading and writing, scaled outputs and their scale
records (R65-R73, R468). -/
namespace Sys2Proof.Machine

/-! ## Descriptors -/

/-- A stream descriptor (R114). -/
structure Strm where
  base : Nat
  fmt : Nat
  bcast : Bool
  raw : Bool
  n0 : Nat
  n1 : Nat
  n2 : Nat
  s1 : Int
  s2 : Int
  bytes : List Byte
  deriving DecidableEq, Repr

def strmOf (b : List Byte) : Strm :=
  { base := getLe b 0 8, fmt := getLe b 8 1, bcast := bitAt (getLe b 9 1) 0, raw := bitAt (getLe b 9 1) 1, n0 := getLe b 0xC 4, n1 := getLe b 0x10 4,
    n2 := getLe b 0x14 4, s1 := signed 32 (getLe b 0x18 4), s2 := signed 32 (getLe b 0x1C 4), bytes := slice b 0 32 }

/-- What a stream's elements are. -/
inductive Kind where
  | num (f : Fmt) | int | bit
  deriving DecidableEq, Repr

def kindOfCode (c : Nat) : Option Kind :=
  match c with
  | 0xC => some .int
  | 0xD => some .bit
  | c => (fmtOfCode c).map .num

def kindBits : Kind → Nat
  | .num f => fmtBits f
  | .int => 32
  | .bit => 1

/-- A used stream. -/
def Strm.used (t : Strm) : Bool := decide (t.base ≠ 0)
/-- Elements of the walk. -/
def Strm.count (t : Strm) : Nat := t.n0 * t.n1 * t.n2
def Strm.kind (t : Strm) : Kind := (kindOfCode t.fmt).getD .bit
/-- A scaled tensor (R115). -/
def Strm.scaled (t : Strm) : Bool :=
  match t.kind with
  | .num f => fmtScaled f && !t.raw
  | _ => false
/-- The short formats bare. -/
def Strm.bare (t : Strm) : Bool :=
  match t.kind with
  | .num f => fmtScaled f && t.raw
  | _ => false
def Strm.fmtOf (t : Strm) : Fmt :=
  match t.kind with
  | .num f => f
  | _ => .b32

/-- Do two streams have one shape? -/
def Strm.sameShape (a b : Strm) : Bool := decide (a.n0 = b.n0 ∧ a.n1 = b.n1 ∧ a.n2 = b.n2)

/-- A VE descriptor (R113). -/
structure Vd where
  ins : List Strm
  out0 : Strm
  out1 : Strm
  func : Nat
  cfmt : Nat
  act : Nat
  vflags : Nat
  imm : List Nat
  srec : Nat
  flagA : Nat
  strip : Nat
  deriving DecidableEq, Repr

def vdOf (b : List Byte) : Vd :=
  { ins := [0, 1, 2, 3].map (fun i => strmOf (slice b (32 * i) 32)), out0 := strmOf (slice b 0x80 32), out1 := strmOf (slice b 0xA0 32),
    func := getLe b 0xC0 2, cfmt := getLe b 0xC2 1, act := getLe b 0xC3 1, vflags := getLe b 0xC4 2,
    imm := [0, 1, 2, 3].map (fun i => getLe b (0xC8 + 4 * i) 4), srec := getLe b 0xD8 8, flagA := getLe b 0xE0 8, strip := getLe b 0xE8 8 }

def Vd.inp (d : Vd) (i : Nat) : Strm := d.ins.getD i (strmOf [])
def Vd.immAt (d : Vd) (i : Nat) : Nat := d.imm.getD i 0
def Vd.qfed (d : Vd) : Bool := bitAt d.vflags 0
def Vd.accum (d : Vd) : Bool := bitAt d.vflags 1
def Vd.biasRow (d : Vd) : Bool := bitAt d.vflags 2
def Vd.resid (d : Vd) : Bool := bitAt d.vflags 3
def Vd.keepPre (d : Vd) : Bool := bitAt d.vflags 4
def Vd.outAdd (d : Vd) : Bool := bitAt d.vflags 5

/-! ## Extents -/

/-- Address of row (j, k). -/
def Strm.rowAddr (t : Strm) (j k : Nat) : Nat := ((t.base : Int) + k * t.s2 + j * t.s1).toNat

/-- Rows in walk order. -/
def Strm.rows (t : Strm) : List (Nat × Nat) := (List.range t.n2).flatMap (fun k => (List.range t.n1).map (fun j => (j, k)))

/-- Bytes of one row. -/
def Strm.rowBytes (t : Strm) : Nat := ((if t.bcast then 1 else t.n0) * kindBits t.kind + 7) / 8

/-- The least range that holds the stream; none where it would begin below address 0. -/
def Strm.extent (t : Strm) : Option (Nat × Nat) :=
  if t.scaled then some (t.base, (scaledAt t.fmtOf t.base t.n1 t.n0).fin - t.base)
  else
    let ends := [(0 : Int), (t.n1 - 1 : Nat) * t.s1].flatMap (fun a => [a, a + (t.n2 - 1 : Nat) * t.s2])
    let lo := ends.foldl min 0
    let hi := ends.foldl max 0
    if (t.base : Int) + lo < 0 then none else some (((t.base : Int) + lo).toNat, (hi - lo).toNat + t.rowBytes)

/-- The limits of R114 and R115 on one stream. No alignment is asked of `BASE`, `S1` and `S2` of an unscaled stream, nor of `STRIP_ADDR`: no
rule names one (DESIGN CHOICE, log 63). -/
def Strm.ok (t : Strm) (output first : Bool) : Bool :=
  let dim := fun x => decide (1 ≤ x ∧ x ≤ 65536)
  (kindOfCode t.fmt).isSome && dim t.n0 && dim t.n1 && dim t.n2 && decide (t.count ≤ 16777216) &&
  (!t.scaled || (decide (t.n2 = 1) && decide (t.base % 4096 = 0) && (!output || first))) && !(output && t.bcast)

/-! ## Reading -/

/-- The elements of a stream in walk order: their kind and patterns, and the number in each row. A scaled tensor is decoded to binary32
(R73, R67). -/
structure Vals where
  kind : Kind
  v : List Nat
  n0 : Nat := 0
  deriving DecidableEq, Repr

/-- Decoding of one element (R73): exact block scaling, then one multiplication by `S_USED`, whose inexact, overflow and underflow are
not reported (DESIGN CHOICE, log 61). -/
def decodeScaled (f : Fmt) (code be sUsed : Nat) : Nat :=
  if be = 255 then fmtNan .b32 else (mulV .b32 .rne (scaleNum (decNum f code) ((be : Int) - 127)) (f32 sUsed)).1

def bitsOfBytes (n : Nat) (b : List Byte) : List Nat := (List.range n).map (fun i => b2n (bitAt ((slice b (i / 8) 1).headD 0).toNat (i % 8)))

def unpackKind (k : Kind) (n : Nat) (b : List Byte) : List Nat :=
  match k with
  | .num f => unpackBytes f n b
  | .int => (chunksOf 4 n b).map leNat
  | .bit => bitsOfBytes n b

/-- Read a scaled tensor of `rows` × `cols`: its decoded elements, and whether its header agrees (R115). -/
def readScaled (s : State) (c : Acct) (f : Fmt) (a rows cols : Nat) : Except MemErr (Option (List Nat)) × State :=
  let lay := scaledAt f a rows cols
  thenRead (readMem s c lay.header 64) fun hb s =>
  if getLe hb 4 1 ≠ codeOfFmt f ∨ getLe hb 16 4 ≠ rows ∨ getLe hb 20 4 ≠ cols then (.ok none, s)
  else
    thenRead (readMem s c a (packedBytes f (lay.padRows * lay.padCols))) fun vb s =>
    thenRead (readMem s c lay.scales (lay.padRows / 16 * (lay.padCols / 16))) fun sb s =>
    (.ok (some ((List.range (rows * cols)).map (fun e =>
      let i := e / cols
      let j := e % cols
      decodeScaled f (elemAt f vb (i * lay.padCols + j)) ((slice sb (i / 16 * (lay.padCols / 16) + j / 16) 1).headD 0).toNat (getLe hb 0 4)))), s)

/-- Read a plain stream row by row; a `BCAST` row repeats its element `n0` times. -/
def readPlain (s : State) (c : Acct) (t : Strm) (n0 : Nat) : List (Nat × Nat) → Except MemErr (List Nat) × State
  | [] => (.ok [], s)
  | (j, k) :: rest =>
    match readMem s c (t.rowAddr j k) t.rowBytes with
    | (.error e, s) => (.error e, s)
    | (.ok b, s) =>
      let row := if t.bcast then List.replicate n0 ((unpackKind t.kind 1 b).headD 0) else unpackKind t.kind t.n0 b
      match readPlain s c t n0 rest with
      | (.ok l, s) => (.ok (row ++ l), s)
      | (.error e, s) => (.error e, s)

/-- How a read of a stream ends. -/
inductive StrmRes where
  | vals (v : Vals) | invalid | err (e : MemErr)
  deriving DecidableEq, Repr

/-- Read a stream; a `BCAST` row, of a scaled tensor too, stands for `n0` copies of its element 0 (R114). -/
def readStrm (s : State) (c : Acct) (t : Strm) (n0 : Nat) : StrmRes × State :=
  let w := if t.bcast then n0 else t.n0
  if t.scaled then
    match readScaled s c t.fmtOf t.base t.n1 t.n0 with
    | (.ok (some l), s) =>
      let l := if t.bcast then (List.range t.n1).flatMap (fun j => List.replicate n0 (l.getD (j * t.n0) 0)) else l
      (.vals { kind := .num .b32, v := l, n0 := w }, s)
    | (.ok none, s) => (.invalid, s)
    | (.error e, s) => (.err e, s)
  else
    match readPlain s c t n0 t.rows with
    | (.ok l, s) => (.vals { kind := t.kind, v := l, n0 := w }, s)
    | (.error e, s) => (.err e, s)

/-- Does the header of a scaled input agree with its stream (R115)? -/
def headerAgrees (s : State) (c : Acct) (t : Strm) : Except MemErr Bool × State :=
  if !t.scaled then (.ok true, s)
  else
    thenRead (readMem s c (scaledAt t.fmtOf t.base t.n1 t.n0).header 64) fun hb s =>
    (.ok (decide (getLe hb 4 1 = codeOfFmt t.fmtOf ∧ getLe hb 16 4 = t.n1 ∧ getLe hb 20 4 = t.n0)), s)

/-- Bytes that a stream moves: its rows, or the whole layout of a scaled tensor. -/
def Strm.moved (t : Strm) : Nat :=
  if t.scaled then
    let lay := scaledAt t.fmtOf t.base t.n1 t.n0
    packedBytes t.fmtOf (lay.padRows * lay.padCols) + lay.padRows / 16 * (lay.padCols / 16) + 64
  else t.n1 * t.n2 * t.rowBytes

/-! ## Writing -/

def packKind (k : Kind) (l : List Nat) : List Byte :=
  match k with
  | .num f => packElems f l
  | .int => l.flatMap (natLe 4)
  | .bit => natLe ((l.length + 7) / 8) (maskOf ((List.range l.length).filter (fun i => decide (l.getD i 0 = 1))))

/-- A write of elements `e0 ..` of row (j, k): its address and bytes, the elements starting on a byte. -/
def Strm.piece (t : Strm) (e0 j k : Nat) (l : List Nat) : Nat × List Byte :=
  (t.rowAddr j k + e0 * kindBits t.kind / 8, packKind t.kind l)

/-- Write a piece, keeping the bits of its last byte that hold no element of it. -/
def writeElems (s : State) (c : Acct) (t : Strm) (e0 j k : Nat) (l : List Nat) : Option MemErr × State :=
  let (a, b) := t.piece e0 j k l
  let odd := l.length * kindBits t.kind % 8
  if odd = 0 then writeMem s c a b
  else
    match readMem s c (a + b.length - 1) 1 with
    | (.error e, s) => (some e, s)
    | (.ok old, s) =>
      let o := leNat old / 2 ^ odd * 2 ^ odd
      writeMem s c a (b.take (b.length - 1) ++ [BitVec.ofNat 8 (o + ((b.getLast?.getD 0).toNat % 2 ^ odd))])

/-- Write rows in walk order. -/
def writeRows (s : State) (c : Acct) (t : Strm) : List (Nat × Nat) → List Nat → Option MemErr × State
  | [], _ => (none, s)
  | (j, k) :: rest, l =>
    match writeElems s c t 0 j k (l.take t.n0) with
    | (none, s) => writeRows s c t rest (l.drop t.n0)
    | r => r

/-! ## Quantisation (R63, R64, R69, R71) -/

/-- Largest finite magnitude among binary32 patterns, as a pattern. -/
def amaxOf (l : List Nat) : Nat := l.foldl (fun m x => if fin32 x ∧ gt32 (x % 2 ^ 31) m then x % 2 ^ 31 else m) 0

/-- The block exponent of R71: the least e in −32..0 with β ≤ S × F × 2^e. -/
def blockExp (f : Fmt) (sc β : Nat) : Int :=
  if β = 0 then 0
  else
    match f32 β, mulNum (f32 sc) (decNum f (fmtMax f)) with
    | .fin _ m e, some (.fin _ n d) =>
      (((List.range 33).map (fun (i : Nat) => (i : Int) - 32)).find? (fun x => decide (cmpMag m e n (d + x) ≠ .gt))).getD 0
    | _, _ => 0

/-- One element: its code, flags, and whether it saturated. An element that saturates raises inexact and no overflow (DESIGN CHOICE, log
61); a signalling NaN raises invalid (R56). -/
def quantElem (f : Fmt) (sc : Nat) (e : Int) (x : Nat) : Nat × Fl × Bool :=
  match f32 x with
  | .fin s m d =>
    let step := scaleNum (f32 sc) e
    let big : Bool := match mulNum step (decNum f (fmtMax f)) with
      | some (.fin _ n k) => decide (cmpMag m d n k = .gt)
      | _ => false
    if big then (signBit f s + fmtMax f, { inx := true }, true)
    else
      let (q, fl) := divV f .rne (.fin s m d) step
      (q, { unf := fl.unf, inx := fl.inx }, false)
  | v => ((encNum f .rne v).1, { inv := isSig v }, false)

/-- Is a binary32 value written as an infinity or a NaN of the format (R64)? -/
def writesNf (f : Fmt) (x : Nat) : Bool := !fin32 x && !isFinite (decNum f (encNum f .rne (f32 x)).1)

/-- A quantised block: `BE`, codes, flags, saturated elements. -/
structure QBlock where
  be : Nat
  codes : List Nat
  fl : Fl
  sat : Nat
  deriving DecidableEq, Repr

def quantBlock (f : Fmt) (sc : Nat) (xs : List Nat) : QBlock :=
  let e := blockExp f sc (amaxOf xs)
  let qs := xs.map (quantElem f sc e)
  { be := (e + 127).toNat, codes := qs.map (·.1), fl := qs.foldl (fun a q => flOr a q.2.1) {}, sat := qs.countP (·.2.2) }

/-- Writes of block (i, j) of a scaled tensor of `rows` × `cols` from its elements, row-major within the block, zeros beyond. -/
def blockWrites (f : Fmt) (base rows cols i j : Nat) (q : QBlock) : List (Nat × List Byte) :=
  let lay := scaledAt f base rows cols
  (List.range 16).map (fun r => (base + ((16 * i + r) * lay.padCols + 16 * j) * fmtBits f / 8, packElems f ((q.codes.drop (16 * r)).take 16))) ++
  [(lay.scales + i * (lay.padCols / 16) + j, natLe 1 q.be)]

/-- The elements of block (i, j) taken from a row-major array, +0 beyond it. -/
def blockOf (l : List Nat) (rows cols i j : Nat) : List Nat :=
  (List.range 256).map (fun e =>
    let r := 16 * i + e / 16
    let c := 16 * j + e % 16
    if r < rows ∧ c < cols then l.getD (r * cols + c) 0 else 0)

/-- The whole tensor quantised: its writes, the header last (R66), flags and saturated elements. -/
def quantTensor (f : Fmt) (sc base rows cols qstep : Nat) (l : List Nat) : List (Nat × List Byte) × Fl × Nat :=
  let bs := (List.range (ceilDiv rows 16)).flatMap (fun i => (List.range (ceilDiv cols 16)).map (fun j => (i, j)))
  let qs := bs.map (fun (i, j) => (i, j, quantBlock f sc (blockOf l rows cols i j)))
  (qs.flatMap (fun (i, j, q) => blockWrites f base rows cols i j q) ++ [((scaledAt f base rows cols).header, scaleHeader f sc qstep rows cols)],
   qs.foldl (fun a q => flOr a q.2.2.fl) {}, (qs.map (fun q => q.2.2.sat)).sum)

/-! ## Scale records (R68) -/

def srScale (b : List Byte) : Nat := getLe b 0 4
def srFlags (b : List Byte) : Nat := getLe b 19 1
def srPrimed (b : List Byte) : Bool := bitAt (srFlags b) 0
def srBypass (b : List Byte) : Bool := bitAt (srFlags b) 1
def srProducers (b : List Byte) : Nat := getLe b 20 1
def srFmt (b : List Byte) : Nat := getLe b 21 1

/-- Does a producer start in prime mode (R74)? -/
def primes (b : List Byte) : Bool := !srPrimed b && !srBypass b

/-- R468: may the producer of a tensor of format `f` use the record? -/
def srOk (f : Fmt) (b : List Byte) : Bool := decide (srFmt b = codeOfFmt f) && (primes b || posNormal32 (srScale b))

/-- Where an LLM record may lie (R68, R116): aligned, in scratchpad or accumulator-buffer mode. -/
def recPlace (s : State) (a n : Nat) : Bool := decide (llmBase ≤ a) && addrOk s a n

/-- The least distance scale for an amax (R70, R74): max(amax / F, 2^-126), or 1.0. -/
def scaleFor (f : Fmt) (amax : Nat) : Nat :=
  if gt32 amax 0 then max32 (divV .b32 .rne (f32 amax) (decNum f (fmtMax f))).1 0x00800000 else one32

end Sys2Proof.Machine
end

