-- ==== Sys2Proof/Machine/VeFunc.lean ====
section
/-! DEFINITION. Functions of the vector engine that are no kernels (R118-R125, R459-R461): arithmetic with its flags, activations,
reductions, moves, conversions. -/
namespace Sys2Proof.Machine

/-- A pattern with the flags raised so far. -/
abbrev Fx := Nat × Fl

/-- A format and a rounding attribute. -/
structure Ar where
  f : Fmt
  rm : Rm
  deriving DecidableEq, Repr

/-- binary32, nearest even: epilogues and row kernels (R112, R126). -/
def ar32 : Ar := { f := .b32, rm := .rne }

def fx (x : Nat) : Fx := (x, {})
def Ar.lift2 (c : Ar) (op : Fmt → Rm → Num → Num → Nat × Fl) (a b : Fx) : Fx :=
  let (z, f) := op c.f c.rm (decNum c.f a.1) (decNum c.f b.1)
  (z, flOr f (flOr a.2 b.2))
def Ar.add (c : Ar) (a b : Fx) : Fx := c.lift2 addV a b
def Ar.sub (c : Ar) (a b : Fx) : Fx := c.lift2 subV a b
def Ar.mul (c : Ar) (a b : Fx) : Fx := c.lift2 mulV a b
def Ar.div (c : Ar) (a b : Fx) : Fx := c.lift2 divV a b
def Ar.fma (c : Ar) (a b d : Fx) : Fx :=
  let (z, f) := fmaV c.f c.rm (decNum c.f a.1) (decNum c.f b.1) (decNum c.f d.1)
  (z, flOr f (flOr a.2 (flOr b.2 d.2)))
def Ar.pick (c : Ar) (gt : Bool) (a b : Fx) : Fx := c.lift2 (fun f _ x y => pickV f gt x y) a b
def Ar.sqrt (c : Ar) (a : Fx) : Fx :=
  let (z, f) := sqrtV c.f c.rm (decNum c.f a.1)
  (z, flOr f a.2)
def Ar.trans (c : Ar) (fn : Nat) (a : Fx) : Fx :=
  let (z, f) := transV c.f fn a.1
  (z, flOr f a.2)
/-- A constant of the manual's formulas, in the compute format. -/
def Ar.const (c : Ar) (m : Nat) (e : Int) : Fx := fx (encNum c.f .rne (.fin false m e)).1
/-- A decimal constant `n / d`. -/
def Ar.ratio (c : Ar) (n d : Nat) : Fx := fx (divV c.f .rne (.fin false n 0) (.fin false d 0)).1
def Ar.neg (c : Ar) (a : Fx) : Fx := ((if bitAt a.1 (fmtBits c.f - 1) then a.1 - 2 ^ (fmtBits c.f - 1) else a.1 + 2 ^ (fmtBits c.f - 1)), a.2)
/-- A NaN quieted, a signalling one raising invalid (R56); any other value as it is. -/
def Ar.quiet (c : Ar) (a : Fx) : Fx :=
  match decNum c.f a.1 with
  | .nan s p => ((encNum c.f .rne (.nan s p)).1, flOr a.2 { inv := isSig (.nan s p) })
  | _ => a
def Ar.abs (c : Ar) (a : Fx) : Fx := (a.1 % 2 ^ (fmtBits c.f - 1), a.2)

/-! ## Activations (R125) -/

/-- Is the value above zero? -/
def posFin (c : Ar) (x : Nat) : Bool := decide (cmpNum (decNum c.f x) (.fin false 0 0) = .gt)

/-- `a(x)`: R56 for a NaN, the limits of R125 at the infinities, the formula elsewhere. -/
def actV (c : Ar) (act : Nat) (x : Fx) : Fx :=
  match decNum c.f x.1 with
  | .nan s p => ((encNum c.f .rne (.nan s (setBit p 51 true))).1, flOr x.2 { inv := isSig (.nan s p) })
  | .inf false => x
  | .inf true => if act = 0 then x else (if act = 1 then 0 else signBit c.f true, x.2)
  | .fin _ _ _ =>
    match act with
    | 0 => x
    | 1 => if posFin c x.1 then x else (0, x.2)
    | _ => let (z, fl) := actTransV c.f act x.1; (z, flOr x.2 fl)

/-- `a′(y)` where it is 0 or 1 (codes 0 and 1, and the limits), as a pattern. -/
def slopeLimit (c : Ar) (act y : Nat) : Nat :=
  match decNum c.f y with
  | .inf false => (c.const 1 0).1
  | .inf true => if act = 0 then (c.const 1 0).1 else 0
  | _ => if act = 0 ∨ posFin c y then (c.const 1 0).1 else 0

/-- `dy × a′(y)`; a factor that the formula does not give is 0 or 1, or a NaN (R56). -/
def gradV (c : Ar) (act : Nat) (dy y : Fx) : Fx :=
  let v := decNum c.f dy.1
  let w := decNum c.f y.1
  if isNan w then c.mul dy y
  else if act < 2 ∨ isInf w then c.mul dy (slopeLimit c act y.1, y.2)
  else
    match v, w with
    | .fin _ _ _, _ => let (z, fl) := gradTransV c.f act dy.1 y.1; (z, flOr fl (flOr dy.2 y.2))
    -- an infinite dy: the sign of a′(y), which is not 0
    | .inf s, .fin t m e => (signBit c.f (s != (slopeApprox act t m e).s) + fmtInf c.f, flOr dy.2 y.2)
    | _, _ => c.mul dy y

/-- Transcendental results per element of an activation (R125). -/
def actTrans (act : Nat) (grad : Bool) : Nat := if act < 2 then 0 else if act = 2 ∧ grad then 2 else 1

/-! ## Conversions in and out (R118, R459) -/

/-- An element of a stream in the compute format. -/
def toCompute (c : Ar) (k : Kind) (x : Nat) : Fx :=
  match k with
  | .num f => convFmt f c.f c.rm x
  | .int => encNum c.f c.rm (intNum x)
  | .bit => fx x

/-- What storing one result gives: the pattern, flags, and whether R134 counts it. -/
structure Stored where
  v : Nat
  fl : Fl := {}
  nf : Bool := false
  written : Bool := false
  deriving DecidableEq, Repr

/-- A result in an unscaled output format. `written` says that a non-finite value was written. -/
def fromCompute (c : Ar) (rm : Rm) (k : Kind) (x : Fx) : Stored :=
  match k with
  | .num f =>
    let (z, fl) := convFmt c.f f rm x.1
    let bad := !isFinite (decNum f z)
    { v := z, fl := flOr x.2 fl, nf := bad || !isFinite (decNum c.f x.1), written := bad }
  | .int =>
    let (z, inv, nf) := toInt32 rm (decNum c.f x.1)
    { v := z, fl := flOr x.2 { inv := inv }, nf := nf }
  | .bit => { v := x.1, fl := x.2 }

/-! ## Elementwise functions -/

/-- The result of an elementwise function on elements in the compute format (R120). Comparisons give a bit; an unordered `CMP_LT` is
the signalling comparison of IEEE 754-2019 (log 18). -/
def elemFunc (c : Ar) (func act : Nat) (imm : Nat → Nat) (x y z : Fx) : Fx :=
  let nx := decNum c.f x.1
  let ny := decNum c.f y.1
  let fl := flOr x.2 y.2
  match func with
  | 0x02 => c.add x y
  | 0x03 => c.sub x y
  | 0x04 => c.mul x y
  | 0x05 => c.div x y
  | 0x06 => c.fma x y z
  | 0x07 => c.pick false x y
  | 0x08 => c.pick true x y
  | 0x09 => c.abs x
  | 0x0A => c.neg x
  | 0x0B => c.sqrt x
  | 0x0C =>
    let k := fun i => convFmt .b32 c.f c.rm (imm i)
    c.add (c.mul (k 0) x) (c.mul (k 1) y)
  | 0x0D => if isNan nx ∨ isNan ny then (0, flOr fl { inv := true }) else (b2n (decide (cmpNum nx ny = .lt)), fl)
  | 0x0E => if isNan nx ∨ isNan ny then (0, flOr fl { inv := isSig nx || isSig ny }) else (b2n (decide (cmpNum nx ny = .eq)), fl)
  | 0x10 => actV c act x
  | 0x11 => gradV c act x y
  | f => if 0x20 ≤ f ∧ f ≤ 0x29 then c.trans (f - 0x20) x else x

/-! ## Reductions (R121) -/

/-- A binary tree over a list, whose shape depends on the number of leaves alone and is the implementation's (log 19). `n0` is that
number, `lo` the first leaf of the subtree. -/
def treeFold (op : Fx → Fx → Fx) (n0 : Nat) : Nat → Nat → List Fx → Fx
  | 0, _, l => l.headD (0, {})
  | fuel + 1, lo, l =>
    match l with
    | [] => (0, {})
    | [a] => a
    | l =>
      let k := 1 + Config.treeSplit n0 lo l.length % (l.length - 1)
      op (treeFold op n0 fuel lo (l.take k)) (treeFold op n0 fuel (lo + k) (l.drop k))

def treeSum (c : Ar) (l : List Fx) : Fx := treeFold c.add l.length l.length 0 l
def treeMax (c : Ar) (l : List Fx) : Fx := treeFold (c.pick true) l.length l.length 0 l

/-- One element alone is the result of an operation too: a NaN is quieted (R56). -/
def reduceRow (c : Ar) (func : Nat) (l : List Fx) : Fx :=
  c.quiet <| match func with
  | 0x40 => treeSum c l
  | 0x41 => treeMax c l
  | 0x42 => treeFold (c.pick false) l.length l.length 0 l
  | 0x43 => treeMax c (l.map c.abs)
  | _ => treeSum c (l.map (fun x => c.mul x x))

/-! ## Moves (R123, R124) -/

/-- Source of each moved element of `OUT0` (or `OUT1`): 0 for x, 1 for y, with its index in walk order. -/
def shuffleFrom (pat par n0 n1 : Nat) (second : Bool) (out : Strm) (e : Nat) : Nat × Nat :=
  let i := e % out.n0
  let row := e / out.n0
  match pat with
  | 0 => (i % 2, row * n0 + i / 2)
  | 1 => (0, row * n0 + 2 * i + (if second then 1 else 0))
  | 2 => (0, row * n0 + i / par * par + (par - 1 - i % par))
  | 3 => (0, row * n0 + (i + par) % n0)
  | _ =>
    let j := row % out.n1
    let k := row / out.n1
    (0, (k * n1 + i) * n0 + j)

/-- Lanes of R118 for the widest width. -/
def lanesOf (bits : Nat) : Nat := if bits = 64 then 16 else if bits = 32 then 64 else if bits = 16 then 128 else if bits = 8 then 256 else 512

/-- Cost of a function that is no kernel (R119). -/
def veCost (e lanes bIn bOut x : Nat) : Nat :=
  24 + max (max (ceilDiv e lanes) (ceilDiv bIn 512)) (max (ceilDiv bOut 256) (ceilDiv x 16))

end Sys2Proof.Machine
end

