-- ==== Sys2Proof/Machine/VeKernel.lean ====
section
/-! DEFINITION. The row kernels (R131-R133), one row at a time in binary32, every operation of a formula rounded once (log 18). -/
namespace Sys2Proof.Machine

/-- What a kernel makes of one row: the row of `OUT0`, its entries of `OUT1`, its LLM adds, and whether it was fully masked. -/
structure KRow where
  y : List Fx
  side : List Fx := []
  adds : List (List Fx) := []
  masked : Bool := false
  deriving DecidableEq, Repr

def kZip (f : Fx → Fx → Fx) (a b : List Fx) : List Fx := List.zipWith f a b

/-- mean(v) = (1/n) Σ v. -/
def kMean (n : Nat) (l : List Fx) : Fx := ar32.mul (ar32.div (fx one32) (ar32.const n 0)) (treeSum ar32 l)

/-- 1/√v. -/
def kRsqrt (v : Fx) : Fx := ar32.trans 9 v

/-- exp(z − m) of a row, m, and the sum. -/
def kExps (z : List Fx) : List Fx × Fx × Fx :=
  let m := treeMax ar32 z
  let e := z.map (fun v => ar32.trans 0 (ar32.sub v m))
  (e, m, treeSum ar32 e)

/-- Is every element −∞? -/
def kMasked (z : List Fx) : Bool := z.all (fun v => decide (v.1 = 0xFF800000))

def kZeros (n : Nat) : List Fx := List.replicate n (fx 0)

/-- LN forward. -/
def lnForward (n : Nat) (eps : Fx) (x γ β : List Fx) : KRow :=
  let mu := kMean n x
  let d := x.map (fun v => ar32.sub v mu)
  let rho := kRsqrt (ar32.add (kMean n (d.map (fun v => ar32.mul v v))) eps)
  { y := kZip ar32.add (kZip (fun g v => ar32.mul (ar32.mul g v) rho) γ d) β, side := [mu, rho] }

/-- LN backward. -/
def lnBackward (n : Nat) (dy x γ stats : List Fx) : KRow :=
  let mu := stats.headD (fx 0)
  let rho := stats.getD 1 (fx 0)
  let xh := x.map (fun v => ar32.mul (ar32.sub v mu) rho)
  let g := kZip ar32.mul γ dy
  let mg := kMean n g
  let mgx := kMean n (kZip ar32.mul g xh)
  { y := kZip (fun a h => ar32.mul rho (ar32.sub (ar32.sub a mg) (ar32.mul h mgx))) g xh, adds := [kZip ar32.mul dy xh, dy] }

/-- RMS forward. -/
def rmsForward (n : Nat) (eps : Fx) (x γ : List Fx) : KRow :=
  let rho := kRsqrt (ar32.add (kMean n (x.map (fun v => ar32.mul v v))) eps)
  { y := kZip (fun g v => ar32.mul (ar32.mul g v) rho) γ x, side := [rho] }

/-- RMS backward. -/
def rmsBackward (n : Nat) (dy x γ stats : List Fx) : KRow :=
  let rho := stats.headD (fx 0)
  let xh := x.map (fun v => ar32.mul v rho)
  let g := kZip ar32.mul γ dy
  let mgx := kMean n (kZip ar32.mul g xh)
  { y := kZip (fun a h => ar32.mul rho (ar32.sub a (ar32.mul h mgx))) g xh, adds := [kZip ar32.mul dy xh] }

/-- Softmax forward. A fully masked row gives y = 0; its ℓ is not stated and takes the free value `free`. -/
def softmaxForward (n : Nat) (tau : Fx) (x : List Fx) (k : Option (List Fx)) (free : Nat) : KRow :=
  let tx := x.map (ar32.mul tau)
  let z := match k with
    | some k => kZip ar32.add tx k
    | none => tx
  if kMasked z then { y := kZeros n, side := [fx free], masked := true }
  else
    let (e, m, t) := kExps z
    { y := e.map (fun v => ar32.div v t), side := [ar32.add m (ar32.trans 1 t)] }

/-- Softmax backward. -/
def softmaxBackward (tau : Fx) (dy y : List Fx) : KRow :=
  let t := treeSum ar32 (kZip ar32.mul y dy)
  { y := kZip (fun v d => ar32.mul (ar32.mul tau v) (ar32.sub d t)) y dy }

/-- Cross-entropy; `label` is −1 for an ignored row, which is not a masked row whatever its logits (DESIGN CHOICE, log 63). -/
def crossEntropy (n : Nat) (g α : Fx) (z : List Fx) (label : Int) : KRow :=
  if label = -1 then { y := kZeros n, side := [fx 0] }
  else if kMasked z then { y := kZeros n, side := [fx 0], masked := true }
  else
    let (e, m, t) := kExps z
    let base := ar32.div α (ar32.const n 0)
    let q := (List.range n).map (fun (j : Nat) => if (j : Int) = label then ar32.add (ar32.sub (fx one32) α) base else base)
    { y := kZip (fun v w => ar32.mul g (ar32.sub (ar32.div v t) w)) e q,
      side := [ar32.sub (ar32.add m (ar32.trans 1 t)) (treeSum ar32 (kZip ar32.mul q z))] }

/-- Distillation KL. -/
def distilKl (n : Nat) (temp g : Fx) (z t : List Fx) : KRow :=
  let zs := z.map (fun v => ar32.div v temp)
  let zt := t.map (fun v => ar32.div v temp)
  if kMasked zs || kMasked zt then { y := kZeros n, side := [fx 0], masked := true }
  else
    let (es, _, ss) := kExps zs
    let (et, _, st) := kExps zt
    let ps := es.map (fun v => ar32.div v ss)
    let pt := et.map (fun v => ar32.div v st)
    let term := kZip (fun p q => if p.1 % 2 ^ 31 = 0 then fx 0 else ar32.mul p (ar32.sub (ar32.trans 1 p) (ar32.trans 1 q))) pt ps
    { y := kZip (fun p q => ar32.mul (ar32.mul g temp) (ar32.sub p q)) ps pt,
      side := [ar32.mul (ar32.mul temp temp) (treeSum ar32 term)] }

/-- Rows of the inputs of a kernel. -/
structure KIn where
  a : List Fx
  b : List Fx := []
  c : List Fx := []
  d : List Fx := []
  hasB : Bool := false
  label : Int := 0
  deriving DecidableEq, Repr

/-- The kernel of a function code on one row (R131). -/
def kernelRow (func n : Nat) (imm : Nat → Nat) (x : KIn) (free : Nat) : KRow :=
  match func with
  | 0xA0 => lnForward n (fx (imm 0)) x.a x.b x.c
  | 0xA1 => lnBackward n x.a x.b x.c x.d
  | 0xA2 => rmsForward n (fx (imm 0)) x.a x.b
  | 0xA3 => rmsBackward n x.a x.b x.c x.d
  | 0xA4 => softmaxForward n (fx (imm 0)) x.a (if x.hasB then some x.b else none) free
  | 0xA5 => softmaxBackward (fx (imm 0)) x.a x.b
  | 0xA6 => crossEntropy n (fx (imm 0)) (fx (imm 1)) x.a x.label
  | _ => distilKl n (fx (imm 0)) (fx (imm 1)) x.a x.b

/-- Passes and transcendentals per row (R132). -/
def kernelCost (func n rows : Nat) : Nat :=
  let (p, e) := match func with
    | 0xA0 => (3, 1) | 0xA1 => (3, 0) | 0xA2 => (2, 1) | 0xA3 => (2, 0) | 0xA4 => (3, n + 1) | 0xA5 => (2, 0) | 0xA6 => (3, n + 1)
    | _ => (3, 4 * n + 2)
  rows * (max (p * ceilDiv n 64) (ceilDiv e 16) + 8)

end Sys2Proof.Machine
end

