-- ==== Sys2Proof/Machine/Ve.lean ====
section
/-! DEFINITION. The vector engine (05_vector_engine): checks, whole functions, epilogues, the prime pass, adds and their notices, ends. -/
namespace Sys2Proof.Machine

/-! ## Command and flags -/

def rmOf (code : Nat) : Rm :=
  match code with
  | 0 => .rne | 1 => .rna | 2 => .rup | 3 => .rdn | _ => .rtz

/-- Functions that ignore `ROUND` (R112): all but the elementwise functions, the reductions and the pack functions. The movement functions
`PERMUTE` and `SHUFFLE`, which the rule puts in neither of its lists, are in none that `ROUND` governs (DESIGN CHOICE, log 61). -/
def ignoresRound (func : Nat) : Bool :=
  decide (0x20 ≤ func ∧ func ≤ 0x29) || decide (func = 0x60 ∨ func = 0x62 ∨ func = 0x65) || decide (0x80 ≤ func)

def veAr (d : Vd) (round : Nat) : Ar := { f := (fmtOfCode d.cfmt).getD .b32, rm := if ignoresRound d.func then .rne else rmOf round }

def isKernel (func : Nat) : Bool := decide (0xA0 ≤ func ∧ func ≤ 0xA7)
/-- A normalisation backward kernel. -/
def normBack (func : Nat) : Bool := decide (func = 0xA1 ∨ func = 0xA3)

/-- The flag word's bits of IEEE flags; a finite result that became an infinity sets `NONFINITE` with them (R64, R134). -/
def flBits (f : Fl) : Nat := b2n f.inv + 2 * b2n f.divz + 4 * b2n f.ovf + 8 * b2n f.unf + 16 * b2n f.inx + 32 * b2n f.big
def nfBit : Nat := 32
def oorBit : Nat := 64
def satBit : Nat := 128
def maskBit : Nat := 256

/-! ## Checks (R114-R118, R460, R467, R469) -/

/-- Streams of a function: required inputs, optional inputs, `OUT1` (0 unused, 1 required, 2 optional). -/
def usage (d : Vd) : Option (List Nat × List Nat × Nat) :=
  let row := fun (l opt : List Nat) (o : Nat) => some (if d.qfed then l.filter (fun i => decide (i ≠ 0)) else l, opt, o)
  match d.func with
  | 0x01 | 0x09 | 0x0A | 0x0B | 0x10 | 0x63 | 0x64 | 0x65 => some ([0], [], 0)
  | 0x02 | 0x03 | 0x04 | 0x05 | 0x07 | 0x08 | 0x0C | 0x0D | 0x0E | 0x11 | 0x60 => some ([0, 1], [], 0)
  | 0x06 | 0x0F => some ([0, 1, 2], [], 0)
  | 0x62 => match d.immAt 0 with
    | 0 => some ([0, 1], [], 0)
    | 1 => some ([0], [], 1)
    | 2 | 3 | 4 => some ([0], [], 0)
    | _ => none
  | 0x80 => some (if d.resid then [2] else [], [1], b2n d.keepPre)
  | 0xA0 => row [0, 1, 2] [] 1
  | 0xA1 => row [0, 1, 2, 3] [] 1
  | 0xA2 => row [0, 1] [] 1
  | 0xA3 => row [0, 1, 2, 3] [] 1
  | 0xA4 => row [0] [1] 2
  | 0xA5 => row [0, 1] [] 0
  | 0xA6 | 0xA7 => row [0, 1] [] 1
  | f => if (0x20 ≤ f ∧ f ≤ 0x29) ∨ (0x40 ≤ f ∧ f ≤ 0x44) then some ([0], [], 0) else none

def usedIns (d : Vd) : List Strm := d.ins.filter (·.used)
def usedOuts (d : Vd) : List Strm := [d.out0, d.out1].filter (·.used)

/-- R467. -/
def vflagsOk (d : Vd) : Bool :=
  (if d.func = 0x80 then d.qfed else !d.qfed || isKernel d.func) &&
  (decide (d.func = 0x80) || !(d.accum || d.biasRow || d.resid || d.keepPre)) &&
  (!d.outAdd || decide (d.func = 0xA6 ∨ d.func = 0xA7))

/-- R460. -/
def bitsOk (d : Vd) : Bool :=
  let bit := fun (t : Strm) => decide (t.kind = .bit)
  match d.func with
  | 0x0D | 0x0E => bit d.out0 && !(usedIns d).any bit
  | 0x0F => bit (d.inp 0) && (bit (d.inp 1) == bit d.out0) && (bit (d.inp 2) == bit d.out0)
  | 0x63 | 0x64 => !bit d.out0
  | 0x01 => bit (d.inp 0) == bit d.out0
  | 0x60 => (bit (d.inp 0) == bit d.out0) && !bit (d.inp 1)
  | 0x62 => (usedIns d ++ usedOuts d).all (fun t => bit t == bit d.out0)
  | _ => !(usedIns d ++ usedOuts d).any bit

/-- Functions exact on codes (R118). -/
def exactFunc (func : Nat) : Bool := [0x01, 0x07, 0x08, 0x09, 0x0A, 0x0D, 0x0E, 0x0F, 0x60, 0x62].contains func

/-- Functions in which a RAW stream may stand whatever `CFMT` (R115). -/
def rawFunc (d : Vd) : Bool := [0x01, 0x0F, 0x60, 0x62].contains d.func

/-- The inputs that a move function moves. -/
def movedIns (d : Vd) : List Strm :=
  match d.func with
  | 0x0F => [d.inp 1, d.inp 2]
  | 0x62 => usedIns d
  | _ => [d.inp 0]

/-- R115 and R118 on RAW streams and short compute formats. -/
def rawOk (d : Vd) : Bool :=
  let all := usedIns d ++ usedOuts d
  let short := decide (d.cfmt = 1 ∨ d.cfmt = 2 ∨ d.cfmt = 3)
  if short then
    exactFunc d.func && all.all (fun t => match t.kind with
      | .num _ => t.bare && decide (t.fmt = d.cfmt)
      | .bit => true
      | .int => decide (d.func = 0x60)) &&
    -- the index of `PERMUTE` alone is int32
    (decide (d.func ≠ 0x60) || (decide ((d.inp 0).kind ≠ .int) && decide (d.out0.kind ≠ .int)))
  else
    (!all.any (·.bare) || rawFunc d) &&
    (usedOuts d).all (fun t => !t.bare || (movedIns d).all (fun i => i.bare && decide (i.fmt = t.fmt)))

/-- A per-row vector of `n` elements. -/
def isVec (t : Strm) (n : Nat) : Bool := decide (t.n0 = n ∧ t.n1 = 1 ∧ t.n2 = 1)
/-- `n0` entries for each row of `o`. -/
def perRow (t o : Strm) (n0 : Nat) : Bool := decide (t.n0 = n0 ∧ t.n1 = o.n1 ∧ t.n2 = o.n2)
def isB32 (t : Strm) : Bool := decide (t.fmt = 0x9)
/-- Shape of an elementwise input. -/
def likeOut (t o : Strm) : Bool := t.sameShape o || (t.bcast && perRow t o 1)
/-- An accumulated output: binary32 or PW16, aligned to its unit (R127, R195). -/
def addStrm (t : Strm) : Bool :=
  let w := if t.fmt = 0x9 then 4 else 2
  decide (t.fmt = 0x9 ∨ t.fmt = 0) && decide (t.base % w = 0) && decide (t.s1 % w = 0) && decide (t.s2 % w = 0)

/-- R469, R131, R133. -/
def shapesOk (d : Vd) : Bool :=
  let o := d.out0
  let x := d.inp 0
  let n := o.n0
  let first := d.qfed || x.sameShape o
  match d.func with
  | 0x60 => (d.inp 1).sameShape o && decide ((d.inp 1).kind = .int)
  | 0x62 =>
    (match d.immAt 0 with
     | 0 => (d.inp 1).sameShape x && perRow o x (2 * x.n0)
     | 1 => decide (x.n0 % 2 = 0) && perRow o x (x.n0 / 2) && perRow d.out1 x (x.n0 / 2)
     | 2 => o.sameShape x && decide (d.immAt 1 ≠ 0) && decide (x.n0 % d.immAt 1 = 0)
     | 3 => o.sameShape x
     | _ => decide (o.n0 = x.n1 ∧ o.n1 = x.n0 ∧ o.n2 = x.n2))
  -- the bytes of the bit elements fill the rows of an unscaled output (log 18)
  | 0x63 => if (d.inp 0).kind = .bit then perRow o x o.n0 && decide (o.rowBytes = ceilDiv x.n0 8) && !o.scaled && !o.bare else likeOut x o
  | 0x80 => true
  | 0xA0 => first && isVec (d.inp 1) n && isVec (d.inp 2) n && perRow d.out1 o 2 && isB32 d.out1
  | 0xA1 => first && (d.inp 1).sameShape o && isVec (d.inp 2) n && perRow (d.inp 3) o 2 && isB32 (d.inp 3) && decide (d.out1.count = 2 * n) && addStrm d.out1
  | 0xA2 => first && isVec (d.inp 1) n && perRow d.out1 o 1 && isB32 d.out1
  | 0xA3 => first && (d.inp 1).sameShape o && isVec (d.inp 2) n && perRow (d.inp 3) o 1 && isB32 (d.inp 3) && decide (d.out1.count = n) && addStrm d.out1
  | 0xA4 => first && (!(d.inp 1).used || likeOut (d.inp 1) o) && (!d.out1.used || (perRow d.out1 o 1 && isB32 d.out1))
  | 0xA5 => first && (d.inp 1).sameShape o
  | 0xA6 => first && perRow (d.inp 1) o 1 && decide ((d.inp 1).kind = .int) && perRow d.out1 o 1 && isB32 d.out1
  -- the teacher's `N0` is not checked (R280)
  | 0xA7 => first && perRow (d.inp 1) o (d.inp 1).n0 && perRow d.out1 o 1 && isB32 d.out1
  | f => if 0x40 ≤ f ∧ f ≤ 0x44 then perRow o x 1 else (usedIns d).all (fun t => likeOut t o)

/-- Functions for which R117 allows an output to lie on a byte-identical input. -/
def inPlace (func : Nat) : Bool := decide (func ≤ 0x29) || decide (0x63 ≤ func ∧ func ≤ 0x65) || isKernel func

/-- R117. -/
def overlapOk (d : Vd) : Bool :=
  (usedOuts d).all (fun o => (usedIns d).all (fun i =>
    match o.extent, i.extent with
    | some a, some b => !overlaps a.1 a.2 b.1 b.2 || (inPlace d.func && decide (o.bytes = i.bytes))
    | _, _ => true))

/-- All checks that end with `INVALID_FIELD`. -/
def vdOk (d : Vd) (round : Nat) : Bool :=
  match usage d with
  | none => false
  | some (req, opt, o1) =>
    (fmtOfCode d.cfmt).isSome && decide (d.act ≤ 4) && decide (round ≤ 4) && vflagsOk d && d.out0.used &&
    req.all (fun i => (d.inp i).used) && (List.range 4).all (fun i => !(d.inp i).used || req.contains i || opt.contains i) &&
    (if o1 = 0 then !d.out1.used else if o1 = 1 then d.out1.used else true) &&
    (usedIns d).all (fun t => t.ok false false) && d.out0.ok true true && (!d.out1.used || d.out1.ok true false) &&
    bitsOk d && rawOk d && shapesOk d && (!isKernel d.func || decide (d.cfmt = 9)) && (decide (d.func ≠ 0x65) || d.out0.scaled) &&
    (!d.accum || (addStrm d.out0 && !d.out0.scaled)) && decide (d.flagA % 8 = 0) && (!d.out0.scaled || decide (d.srec % 64 = 0)) && overlapOk d

/-- Every row of an accumulated stream lies in accumulator-buffer partitions (R116). -/
def accumPlace (s : State) (t : Strm) : Bool := t.rows.all (fun (j, k) => inAccum s (t.rowAddr j k) t.rowBytes)

/-- All extents (R116): `ADDRESS_FAULT` where one fails. -/
def vdPlaces (s : State) (r cl : Nat) (d : Vd) : Bool :=
  let pad := fun (t : Strm) => match t.extent with
    | some e => inPad r cl e.1 e.2
    | none => false
  (usedIns d).all pad && (if d.accum then accumPlace s d.out0 else pad d.out0) &&
  (!d.out1.used || (if normBack d.func then accumPlace s d.out1 else pad d.out1)) &&
  (decide (d.flagA = 0) || inPad r cl d.flagA 8) && (!d.out0.scaled || recPlace s d.srec 320) &&
  (!(d.qfed && isKernel d.func) || inPad r cl d.strip (4 * d.out0.n0))

/-! ## Storing results -/

/-- What is to be written for one output: plain rows, or the pieces of a scaled tensor; and what it raises. -/
structure OutPlan where
  t : Strm
  rows : List Nat := []
  pieces : List (Nat × List Byte) := []
  flags : Nat := 0
  nfCount : Nat := 0
  amax : Nat := 0
  sat : Nat := 0
  deriving DecidableEq, Repr

/-- Results in the compute format for one output stream. `quiet` results do not count as non-finite (R131). -/
def planOut (c : Ar) (t : Strm) (scale step : Nat) (l : List Fx) (quiet : List Bool) : OutPlan :=
  if t.scaled then
    let v := l.map (fromCompute c .rne (.num .b32))
    let (w, fl, sat) := quantTensor t.fmtOf scale t.base t.n1 t.n0 step (v.map (·.v))
    { t := t, pieces := w, flags := flBits (v.foldl (fun a x => flOr a x.fl) fl) ||| (if v.any (·.nf) then nfBit else 0) ||| (if 0 < sat then satBit else 0),
      nfCount := v.countP (fun x => writesNf t.fmtOf x.v), amax := amaxOf (v.map (·.v)), sat := sat }
  else
    let v := l.map (fromCompute c c.rm t.kind)
    let bad := (List.zip v (quiet ++ List.replicate v.length false)).filter (fun p => p.1.nf && !p.2)
    { t := t, rows := v.map (·.v), flags := flBits (v.foldl (fun a x => flOr a x.fl) {}) ||| (if bad.isEmpty then 0 else nfBit),
      nfCount := bad.countP (fun p => p.1.written) }

/-- Bytes of bit elements, which are no numbers (log 18). -/
def planBits (t : Strm) (l : List Byte) : OutPlan := { t := t, rows := unpackKind t.kind (8 * l.length / kindBits t.kind) l }

/-- Bits moved unchanged. -/
def planMove (t : Strm) (l : List Nat) : OutPlan :=
  let bad := match t.kind with
    | .num f => l.countP (fun x => !isFinite (decNum f x))
    | _ => 0
  { t := t, rows := l, flags := if bad = 0 then 0 else nfBit, nfCount := bad }

def writePlan (s : State) (c : Acct) (p : OutPlan) : Option MemErr × State :=
  if p.t.scaled then writeAll s c p.pieces else writeRows s c p.t p.t.rows p.rows

def writePlans (s : State) (c : Acct) : List OutPlan → Option MemErr × State
  | [] => (none, s)
  | p :: t =>
    match writePlan s c p with
    | (none, s) => writePlans s c t
    | r => r

/-- A run of adds: address, format, patterns. -/
structure AddRun where
  addr : Nat
  pw16 : Bool
  vals : List Nat
  deriving DecidableEq, Repr

/-- Bytes that a run of adds carries. -/
def AddRun.bytes (a : AddRun) : Nat := a.vals.length * (if a.pw16 then 2 else 4)

/-- What one execution of a command gives. -/
structure VeWork where
  status : Nat := 0
  plans : List OutPlan := []
  adds : List AddRun := []
  /-- non-finite elements among the adds -/
  nfAdds : Nat := 0
  flags : Nat := 0
  cycles : Nat := 24
  bytes : Nat := 0
  deriving DecidableEq, Repr

/-! ## Whole functions -/

/-- Read the used streams of a list in order, a `BCAST` row of each to the number of elements that stands beside it. -/
def readIns (s : State) (c : Acct) : List (Strm × Nat) → Except Nat (List Vals) × State
  | [] => (.ok [], s)
  | (t, n0) :: rest =>
    if !t.used then
      match readIns s c rest with
      | (.ok l, s) => (.ok ({ kind := .bit, v := [] } :: l), s)
      | r => r
    else
      match readStrm s c t n0 with
      | (.invalid, s) => (.error stInvalidField, s)
      | (.err e, s) => (.error (memStatus e), s)
      | (.vals v, s) =>
        match readIns s c rest with
        | (.ok l, s) => (.ok (v :: l), s)
        | r => r

/-- Functions whose inputs stand element by element beside `OUT0` (R469). -/
def elementwise (func : Nat) : Bool := decide (func ≤ 0x11) || decide (0x20 ≤ func ∧ func ≤ 0x29) || decide (0x63 ≤ func ∧ func ≤ 0x65)

/-- The inputs as a function reads them: a `BCAST` row has the elements of its own `N0`, or those of `OUT0` where the function takes an input
of `N0` = 1 for a whole row (R114, R469, R131). -/
def insOf (d : Vd) : List (Strm × Nat) :=
  d.ins.zipIdx.map (fun (t, i) => (t, if t.n0 = 1 ∧ (elementwise d.func ∨ (d.func = 0xA4 ∧ i = 1)) then d.out0.n0 else t.n0))

def valsAt (l : List Vals) (i : Nat) : Vals := l.getD i { kind := .bit, v := [] }

/-- Is an element of a stream a NaN? -/
def elemNan (k : Kind) (x : Nat) : Bool :=
  match k with
  | .num f => isNan (decNum f x)
  | _ => false

/-- Does an input hold a NaN (R134)? -/
def hasNan (v : Vals) : Bool := v.v.any (elemNan v.kind)

/-- A moved element on its way to `t`: unchanged between bare streams of one format and between bit streams, converted otherwise. -/
def planMoved (c : Ar) (t : Strm) (bare : Bool) (k : Kind) (scale step : Nat) (l : List Nat) : OutPlan :=
  if bare ∨ k = .bit then planMove t l else planOut c t scale step (l.map (toCompute c k)) []

/-- Row `q` of a list of rows of `n` elements. -/
def rowAt {α : Type} (n : Nat) (l : List α) (q : Nat) : List α := (l.drop (q * n)).take n

/-- A row kernel over `rows` rows, whose inputs begin at row 0 of the lists given. -/
def kernelRows (d : Vd) (n rows : Nat) (x : Nat → List Nat) (ins : List Vals) (row0 : Nat) (free : Nat) : List KRow :=
  (List.range rows).map (fun q =>
    -- a teacher's row of another length than the student's gives its first elements, and free values for those it lacks (R280, log 62)
    let at' := fun (i len row : Nat) =>
      let l := ((rowAt (valsAt ins i).n0 (valsAt ins i).v row).take len).map (toCompute ar32 (valsAt ins i).kind)
      l ++ List.replicate (len - l.length) (fx free)
    let vec := fun (i : Nat) => at' i n 0
    let same := fun (i : Nat) => at' i n (row0 + q)
    let a := (x q).map fx
    kernelRow d.func n d.immAt (match d.func with
      | 0xA0 => { a := a, b := vec 1, c := vec 2 }
      | 0xA1 => { a := a, b := same 1, c := vec 2, d := at' 3 2 (row0 + q) }
      | 0xA2 => { a := a, b := vec 1 }
      | 0xA3 => { a := a, b := same 1, c := vec 2, d := at' 3 1 (row0 + q) }
      | 0xA4 => { a := a, b := same 1, hasB := (d.inp 1).used }
      | 0xA6 => { a := a, label := signed 32 ((valsAt ins 1).v.getD (row0 + q) 0) }
      | _ => { a := a, b := same 1 }) free)

/-- Labels of cross-entropy in range (R131). -/
def labelsOk (d : Vd) (ins : List Vals) : Bool :=
  decide (d.func ≠ 0xA6) || (valsAt ins 1).v.all (fun x => decide (-1 ≤ signed 32 x ∧ signed 32 x < d.out0.n0))

/-- LLM adds of a norm backward row: dγ, then dβ, in walk order over `OUT1`; flags, and non-finite elements. -/
def gradRuns (t : Strm) (n : Nat) (r : KRow) : List AddRun × Nat × Nat :=
  let all := r.adds.flatMap (·.take n)
  let v := all.map (fromCompute ar32 .rne t.kind)
  (t.rows.zipIdx.map (fun ((j, k), q) => { addr := t.rowAddr j k, pw16 := decide (t.fmt = 0), vals := rowAt t.n0 (v.map (·.v)) q : AddRun }),
   flBits (v.foldl (fun a x => flOr a x.fl) {}) ||| (if v.any (·.nf) then nfBit else 0), v.countP (·.written))

/-- One execution of a function that takes nothing from the queue; without a scale record nothing is made of a scaled output (R464). E is the
larger of the element counts of `OUT0` and `IN0` (DESIGN CHOICE, log 63). -/
def veWork (s : State) (c : Acct) (d : Vd) (round scale step : Nat) (noRec : Bool) : VeWork × State :=
  let ar := veAr d round
  let o := d.out0
  match readIns s c (insOf d) with
  | (.error st, s) => ({ status := st }, s)
  | (.ok ins, s) =>
    if !labelsOk d ins then ({ status := stInvalidField }, s)
    else
      let (free, s) := ((Config.freeWord s.tick).toNat % 2 ^ 32, s.tock)
      let nanIn := if ins.any hasNan then nfBit else 0
      let bIn := ((usedIns d).map (·.moved)).sum + (if d.outAdd then ((usedOuts d).map (·.moved)).sum else 0)
      let bOut := ((usedOuts d).map (·.moved)).sum
      let bits := ((usedIns d ++ usedOuts d).map (fun t => kindBits t.kind)).foldl max (fmtBits ar.f)
      let x := valsAt ins 0
      let y := valsAt ins 1
      let z := valsAt ins 2
      let done := fun (plans : List OutPlan) (extra trans : Nat) (s : State) =>
        let plans := if noRec then plans.filter (fun p => !p.t.scaled) else plans
        ({ plans := plans, flags := plans.foldl (fun a p => a ||| p.flags) (nanIn ||| extra), bytes := bIn + bOut,
           -- `E` is the greater of the elements of `OUT0` and of `IN0` (DESIGN CHOICE, log 63)
           cycles := veCost (max o.count (d.inp 0).count) (lanesOf bits) bIn bOut ((if ar.f = .b64 then 4 else 1) * trans) : VeWork }, s)
      if isKernel d.func then
        let n := o.n0
        let rows := o.n1 * o.n2
        let xs := x.v.map (fun v => toCompute ar32 x.kind v)
        let ks := kernelRows d n rows (fun q => (rowAt n xs q).map (·.1)) ins 0 free
        let quiet := ks.flatMap (fun k => List.replicate k.side.length k.masked)
        -- OUT_ADD: the present contents are added (R131)
        match (if d.outAdd then readIns s c [(o, n), (d.out1, d.out1.n0)] else (.ok [], s)) with
        | (.error st, s) => ({ status := st }, s)
        | (.ok old, s) =>
          let plus := fun (i : Nat) (l : List Fx) =>
            if d.outAdd then List.zipWith ar32.add ((valsAt old i).v.map (toCompute ar32 (valsAt old i).kind)) l else l
          let p0 := planOut ar32 o scale step (plus 0 (ks.flatMap (·.y))) []
          let p1 := if d.out1.used ∧ !normBack d.func then [planOut ar32 d.out1 scale step (plus 1 (ks.flatMap (·.side))) quiet] else []
          let runs := if normBack d.func then ks.map (gradRuns d.out1 n) else []
          let (w, s) := done (p0 :: p1) ((if ks.any (·.masked) then maskBit else 0) ||| runs.foldl (fun a r => a ||| r.2.1) 0 ||| flBits (xs.foldl (fun a v => flOr a v.2) {})) 0 s
          let adds := runs.flatMap (·.1)
          -- of a norm's backward kernel every row adds its gradients
          let bytes := if normBack d.func then bIn + o.moved + (adds.map AddRun.bytes).sum else w.bytes
          ({ w with adds := adds, nfAdds := (runs.map (·.2.2)).sum, cycles := 24 + kernelCost d.func n rows, bytes := bytes }, s)
      else
        match d.func with
        | 0x0F =>
          let pick := fun (l m : List Nat) => List.zipWith (fun (b : Nat) (p : Nat × Nat) => if b = 1 then p.1 else p.2) x.v (List.zip l m)
          let bare := o.bare || decide (o.kind = .bit)
          if bare then done [planMove o (pick y.v z.v)] 0 0 s
          else
            -- both inputs are converted, and the flags of both count (R118)
            let f := List.zipWith (fun (b : Nat) (p : Fx × Fx) => ((if b = 1 then p.1.1 else p.2.1), flOr p.1.2 p.2.2)) x.v
              (List.zip (y.v.map (toCompute ar y.kind)) (z.v.map (toCompute ar z.kind)))
            done [planOut ar o scale step f []] 0 0 s
        | 0x60 =>
          let oor := y.v.any (fun i => decide (x.v.length ≤ i))
          done [planMoved ar o (o.bare && (d.inp 0).bare) x.kind scale step (y.v.map (fun i => x.v.getD i 0))] (if oor then oorBit else 0) 0 s
        | 0x62 =>
          let from' := fun (t : Strm) (second : Bool) => (List.range t.count).map (fun e =>
            let (src, i) := shuffleFrom (d.immAt 0) (d.immAt 1) (d.inp 0).n0 (d.inp 0).n1 second t e
            if src = 1 then (y.v.getD i 0, y.kind) else (x.v.getD i 0, x.kind))
          let plan := fun (t : Strm) (second : Bool) =>
            let l := from' t second
            if t.bare ∨ t.kind = .bit then planMove t (l.map (·.1)) else planOut ar t scale step (l.map (fun e => toCompute ar e.2 e.1)) []
          done (plan o false :: (if d.out1.used then [plan d.out1 true] else [])) 0 0 s
        | 0x63 =>
          if x.kind = .bit then
            let rows := (d.inp 0).n1 * (d.inp 0).n2
            done [planBits o ((List.range rows).flatMap (fun q => packKind .bit (rowAt (d.inp 0).n0 x.v q)))] 0 0 s
          else done [planOut ar o scale step (x.v.map (fun v => ar.quiet (toCompute ar x.kind v))) []] 0 0 s
        | 0x64 =>
          if x.kind = .bit then done [planOut ar o scale step (x.v.map (fun b => if b = 1 then ar.const 1 0 else fx 0)) []] 0 0 s
          else done [planOut ar o scale step (x.v.map (fun v => ar.quiet (toCompute ar x.kind v))) []] 0 0 s
        | 0x01 => done [planMoved ar o (o.bare && (d.inp 0).bare) x.kind scale step x.v] 0 0 s
        | f =>
          if 0x40 ≤ f ∧ f ≤ 0x44 then
            let cx := x.v.map (toCompute ar x.kind)
            done [planOut ar o scale step ((List.range (o.n1 * o.n2)).map (fun q => reduceRow ar f (rowAt (d.inp 0).n0 cx q))) []] 0 0 s
          else
            let l := (List.range o.count).map (fun e =>
              let v := elemFunc ar f d.act d.immAt (toCompute ar x.kind (x.v.getD e 0)) (toCompute ar y.kind (y.v.getD e 0)) (toCompute ar z.kind (z.v.getD e 0))
              v)
            let trans := if 0x20 ≤ f ∧ f ≤ 0x29 then o.count else if f = 0x10 ∨ f = 0x11 then o.count * actTrans d.act (decide (f = 0x11)) else 0
            done [planOut ar o scale step l []] 0 trans s

/-! ## Adds, notices and ends (R127, R149, R150, R464) -/

def updVe (s : State) (r cl : Nat) (f : VeRun → VeRun) : State :=
  s.setCluster r cl { s.cluster r cl with ve := (s.cluster r cl).ve.map f }

/-- Widen the range recorded for a region. -/
def addRange (l : List (Nat × Nat × Nat)) (region lo hi : Nat) : List (Nat × Nat × Nat) :=
  if l.any (fun e => decide (e.1 = region)) then l.map (fun e => if e.1 = region then (region, min e.2.1 lo, max e.2.2 hi) else e)
  else l ++ [(region, lo, hi)]

/-- A reduce-on-route add of bytes within one page, acknowledged to tag (R262, R263). -/
def askAdd (s : State) (w : Waiter) (src dst step mfmt addr : Nat) (data : List Byte) : State :=
  let k := freeSlot s src s.waiters.length 0
  let t := slotTag src k
  let m : Msg := { cls := 4, src := src, dst := dst, ackReq := true, mfmt := mfmt, len := data.length, addr := addr, mtag := k, step := step,
                   count := 1, data := data, srcMap := [(src, k)] }
  inject { s with waiters := tabPut t w s.waiters, asked := tabPut t m s.asked } m

/-- The first status other than `OK` is the command's (R464). -/
def veStatus (s : State) (r cl st : Nat) : State := updVe s r cl (fun v => { v with status := if v.status = stOk then st else v.status })

/-- Send the adds of one run, cut at pages. Where the addresses have gone, since their unit was repartitioned, nothing is added and the
command takes the address-fault status (R194, R198). -/
def sendRun (s : State) (r cl step : Nat) (a : AddRun) : State :=
  let data := a.vals.flatMap (natLe (if a.pw16 then 2 else 4))
  match atHomes s a.addr data.length with
  | none => veStatus s r cl stAddressFault
  | some ps =>
    (ps.foldl (fun (acc : State × Nat) p =>
      let (s, o) := acc
      let s := askAdd s (.veAdd r cl) r (regionOf p.2.1) step (b2n a.pw16) p.1 (slice data o p.2.2)
      (updVe s r cl (fun v => { v with outstanding := v.outstanding + 1, ranges := addRange v.ranges (regionOf p.2.1) p.1 (p.1 + p.2.2) }), o + p.2.2)) (s, 0)).1

/-- A notice to the hub of an owner region (R149, R150). -/
def sendNotice (s : State) (r step kind : Nat) (e : Nat × Nat × Nat) : State :=
  inject s { cls := 7, src := r, dst := e.1, nkind := kind, addr := e.2.1, rangeLen := e.2.2 - e.2.1, step := step }

/-- The stream that a contributing command adds into (R149). -/
def contribStrm (d : Vd) : Option Strm := if d.accum then some d.out0 else if normBack d.func then some d.out1 else none

/-- Ranges of a whole contributing stream by home region, for an abort notice. -/
def contribRanges (s : State) (t : Strm) : List (Nat × Nat × Nat) :=
  t.rows.foldl (fun l (j, k) => match atHomes s (t.rowAddr j k) t.rowBytes with
    | some ps => ps.foldl (fun l p => addRange l (regionOf p.2.1) p.1 (p.1 + p.2.2)) l
    | none => l) []

/-- The flag word takes the flags raised (R135). -/
def orFlagWord (s : State) (c : Acct) (a flags : Nat) : State :=
  if a = 0 then s
  else
    match readNat s c a 8 with
    | (.ok v, s) => (writeNat s c a 8 (v ||| flags % 256)).2
    | (.error _, s) => s

/-- The register takes the flags raised (R135). -/
def veXstat (s : State) (r cl flags : Nat) : State :=
  let set := fun (s : State) (f : Fld) (i : Nat) => if bitAt flags i then s.put f 1 else s
  let s := set (set (set (set (set s (veXstatInv r cl) 0) (veXstatDivz r cl) 1) (veXstatOvf r cl) 2) (veXstatUnf r cl) 3) (veXstatInx r cl) 4
  set (set (set (set s (veXstatNfOut r cl) 5) (veXstatIdxOor r cl) 6) (veXstatMaskedRow r cl) 8) (veXstatSat r cl) 7

/-- The command ends with a status: flag word, register, notice, retire request. `early` says that its checks failed. `BYTES` leaves out the
descriptor, the flag word and the scale record (DESIGN CHOICE, log 63). -/
def veEnd (s : State) (r cl : Nat) (l : Live) (d : Vd) (v : VeRun) (early : Bool) : State :=
  let s := if early then s else veXstat (orFlagWord s (acctOf r l) d.flagA v.flags) r cl v.flags
  let ok := decide (v.status = stOk) && !l.struck && !v.term
  let s := match contribStrm d with
    | some t => if ok then (if v.ranges.isEmpty then contribRanges s t else v.ranges).foldl (fun s e => sendNotice s r l.step 0 e) s else (contribRanges s t).foldl (fun s e => sendNotice s r l.step 1 e) s
    | none => s
  let s := s.setCluster r cl { s.cluster r cl with ve := none }
  finish s r l { status := v.status, flags := if bitAt v.flags 5 then flNonfinite else 0, work := v.progress,
                 cycles := v.cycles, bytes := v.bytes }

/-- The descriptor of the VE command in progress. -/
def vdHere (v : VeRun) : Vd := vdOf v.desc

/-- The command has no more to do but wait for what is outstanding. -/
def veSettle (s : State) (r cl : Nat) : State :=
  match (s.cluster r cl).ve with
  | none => s
  | some v =>
    match findLive (s.hub r) v.cmd with
    | none => s
    | some l => if v.phase = 1 ∧ v.outstanding = 0 then veEnd s r cl l (vdHere v) v false else s

/-- The first answer with a status gives the command's status (R464). -/
def rstatusOf (n : Nat) : Nat := if n = 2 then stMemUncorrectable else if n = 4 then stInvalidField else stAddressFault

/-- One outstanding request of the command has its answer. -/
def veAnswer (s : State) (r cl rstatus : Nat) (nf : Bool) : State :=
  let s := updVe s r cl (fun v => { v with
    outstanding := v.outstanding - 1, flags := if nf then v.flags ||| nfBit else v.flags,
    status := if rstatus ≠ 0 ∧ v.status = stOk then rstatusOf rstatus else v.status })
  veSettle s r cl

/-- Does the record lie in region `r`? -/
def recLocal (s : State) (r a : Nat) : Bool := ((homeOf s a).map regionOf) == some r

/-- The status of a command whose LLM operation fails (R194, R464). -/
def atomicStatus : AtomicRes → Nat
  | .done _ _ => stOk
  | .misaligned => stInvalidField
  | .fault => stAddressFault
  | .uncorrectable => stMemUncorrectable

/-- An LLM max into a scale record: at once in the own region, a message otherwise. -/
def recMax (s : State) (c : Acct) (r cl step a v : Nat) : State :=
  if recLocal s r a then
    match doAtomic s c 3 a v 0 with
    | (.done _ _, s) => s
    | (e, s) => veStatus s r cl (atomicStatus e)
  else
    let s := ask s (.veRec r cl 1 0) { cls := 3, src := r, dst := ((homeOf s a).map regionOf).getD r, mfmt := 3, len := 4, addr := a, data := natLe 4 v, acct := some (step, 0) }
    updVe s r cl (fun x => { x with outstanding := x.outstanding + 1 })

/-- A compare-and-swap loop that changes the 8-byte word at `a` by `f`; `old` is what it expects first. -/
def recSwap (s : State) (c : Acct) (r cl what a old : Nat) (f : Nat → Nat) : State :=
  if recLocal s r a then
    match readNat s c a 8 with
    | (.ok v, s) => (writeNat s c a 8 (f v)).2
    | (.error e, s) => veStatus s r cl (memStatus e)
  else
    let s := ask s (.veRec r cl what old)
      { cls := 3, src := r, dst := ((homeOf s a).map regionOf).getD r, mfmt := 5, len := 16, addr := a, data := natLe 8 old ++ natLe 8 (f old) }
    updVe s r cl (fun x => { x with outstanding := x.outstanding + 1 })

/-- The swap of each counter: 2 `SAT_COUNT`, which stops at its maximum (R68); 3 `PRIME_DONE` counts (R74); 4 it counts down for an
aborted producer, below `PRODUCERS` alone (R130). -/
def swapOf (v : VeRun) (what n : Nat) : Nat :=
  if what = 2 then satAdd 64 n v.sat else if what = 4 then (if n < v.producers then n - 1 else n) else n + 1

/-- The address of each counter in its record. -/
def swapAt (srec what : Nat) : Nat := if what = 2 then srec + 24 else srec + 32

/-- A quantising command combines its amax and saturation count (R69, R71, R128), then waits for what is out. -/
def veClose (s : State) (r cl : Nat) (l : Live) (d : Vd) (combine : Bool) : State :=
  let s := updVe s r cl (fun v => { v with phase := 1 })
  let s := match (s.cluster r cl).ve with
    | some v =>
      if combine ∧ d.out0.scaled ∧ !v.noRec then
        let s := recMax s (acctOf r l) r cl l.step (d.srec + 4 + 4 * (l.step % 2)) v.amax
        if 0 < v.sat then recSwap s (acctOf r l) r cl 2 (swapAt d.srec 2) 0 (swapOf v 2) else s
      else s
    | none => s
  veSettle s r cl

/-- The prime pass of a producer ends: it combines its amax, counts itself, and waits (R74). -/
def vePrimed (s : State) (r cl : Nat) (l : Live) (d : Vd) : State :=
  match (s.cluster r cl).ve with
  | none => s
  | some v =>
    let s := recMax s (acctOf r l) r cl l.step (d.srec + 12) v.amax
    let s := recSwap s (acctOf r l) r cl 3 (swapAt d.srec 3) 0 (swapOf v 3)
    (updVe s r cl (fun v => { v with phase := 2, amax := 0 })).put (veXstatPrimeWait r cl) 1

/-- Execute a function that takes nothing from the queue, or its prime pass. -/
def veWhole (s : State) (r cl : Nat) (l : Live) (d : Vd) : State :=
  match (s.cluster r cl).ve with
  | none => s
  | some v =>
    let (w, s) := veWork s (acctOf r l) d (getLe l.bytes 0x31 1 % 8) v.scale l.step v.noRec
    let amax := w.plans.foldl (fun m p => max32 m p.amax) 0
    if w.status ≠ stOk then
      veEnd s r cl l d { v with status := if v.status = stOk then w.status else v.status, cycles := v.cycles + w.cycles, bytes := v.bytes } true
    else if v.prime then
      -- the prime pass reads its inputs and writes nothing
      vePrimed (updVe s r cl (fun v => { v with amax := amax, cycles := v.cycles + w.cycles, bytes := v.bytes + ((usedIns d).map (·.moved)).sum })) r cl l d
    else
      let (e, s) := writePlans s (acctOf r l) w.plans
      let s := s.bump (veXstatNfCount r cl) ((w.plans.map (·.nfCount)).sum + w.nfAdds)
      let s := updVe s r cl (fun v => { v with
        amax := amax, sat := (w.plans.map (·.sat)).sum, flags := v.flags ||| w.flags, cycles := v.cycles + w.cycles, bytes := v.bytes + w.bytes,
        progress := d.out0.n1 * d.out0.n2, status := match e with | some e => if v.status = stOk then memStatus e else v.status | none => v.status })
      let s := w.adds.foldl (fun s a => sendRun s r cl l.step a) s
      veClose s r cl l d true

/-! ## Queue-fed commands -/

/-- The element of `IN1` that the value at (r, c) takes, and that of `IN2`. -/
def epiBias (d : Vd) (bias : Vals) (r c : Nat) : Nat := bias.v.getD (if (d.inp 1).bcast then 0 else if d.biasRow then r else c) 0
def epiResid (resid : Vals) (r c : Nat) : Nat := resid.v.getD (r * resid.n0 + c) 0

/-- Row and column of the value at position `p` of an entry, row-major. -/
def epiCell (e : TqEntry) (p : Nat) : Nat × Nat := (e.row0 + p / e.cols, (if e.select then e.selBase else e.col0) + p % e.cols)

/-- Does the value at position `p` read a NaN from `IN1` or `IN2` (R134)? -/
def epiNan (d : Vd) (e : TqEntry) (bias resid : Vals) (p : Nat) : Bool :=
  let (r, c) := epiCell e p
  ((d.inp 1).used && elemNan bias.kind (epiBias d bias r c)) || (d.resid && elemNan resid.kind (epiResid resid r c))

/-- One entry through R126: the values before the activation and after it, row-major, and the flags of both. -/
def epiValues (d : Vd) (e : TqEntry) (bias : Vals) (resid : Vals) : List (Fx × Fx) :=
  let sAB := ar32.mul (fx e.sA) (fx e.sB)
  (List.range (e.rows * e.cols)).map (fun p =>
    let (r, c) := epiCell e p
    let v := ar32.mul (fx (e.vals.getD p 0)) sAB
    let v := if (d.inp 1).used then ar32.add v (toCompute ar32 bias.kind (epiBias d bias r c)) else v
    let v := if d.resid then ar32.add v (toCompute ar32 resid.kind (epiResid resid r c)) else v
    (v, actV ar32 d.act v))

/-- Do the rows and columns of an entry lie within the streams (log 18)? A `BCAST` bias serves every column, while a `BCAST` `IN2` must be as
wide as the product (DESIGN CHOICE, log 63). -/
def epiFits (d : Vd) (e : TqEntry) : Bool :=
  let c1 := (if e.select then e.selBase else e.col0) + e.cols
  let r1 := e.row0 + e.rows
  let grid := fun (t : Strm) => decide (c1 ≤ t.n0) && decide (r1 ≤ t.n1 * t.n2)
  let b := d.inp 1
  grid d.out0 && (!d.keepPre || grid d.out1) && (!d.resid || grid (d.inp 2)) &&
  (!b.used || b.bcast || decide ((if d.biasRow then r1 else c1) ≤ b.n0))

/-- Where row `r` of a two-dimensional output stands. -/
def rowPos (t : Strm) (r : Nat) : Nat × Nat := (r % t.n1, r / t.n1)

/-- Runs of present columns of a tile row under `ACCUM` (R127): first column and number. -/
def presentRuns (e : TqEntry) (i : Nat) : List (Nat × Nat) :=
  ((List.range (ceilDiv e.cols 16)).filter (fun j => bitAt e.present (8 * (i / 16) + j))).map (fun j => (16 * j, min 16 (e.cols - 16 * j)))

/-- Write the rows of one plain output of an entry. -/
def epiRows (s : State) (c : Acct) (t : Strm) (e : TqEntry) (c0 : Nat) (l : List Nat) : List Nat → Option MemErr × State
  | [] => (none, s)
  | i :: rest =>
    let (j, k) := rowPos t (e.row0 + i)
    match writeElems s c t c0 j k (rowAt e.cols l i) with
    | (none, s) => epiRows s c t e c0 l rest
    | r => r

/-- A scaled output of an entry, block by block (R128). -/
def epiBlocks (t : Strm) (scale : Nat) (e : TqEntry) (c0 : Nat) (l : List Nat) : List QBlock × List (Nat × List Byte) :=
  let bs := (List.range (ceilDiv e.rows 16)).flatMap (fun i => (List.range (ceilDiv e.cols 16)).map (fun j => (i, j)))
  let qs := bs.map (fun (i, j) => (i, j, quantBlock t.fmtOf scale (blockOf l e.rows e.cols i j)))
  (qs.map (·.2.2), qs.flatMap (fun (i, j, q) => blockWrites t.fmtOf t.base t.n1 t.n0 (e.row0 / 16 + i) (c0 / 16 + j) q))

/-- Is the cell at position `p` of an entry, row-major, one whose value reaches `OUT0`: in a present micro-tile, or without `ACCUM` (R127)? -/
def reachesOut (d : Vd) (e : TqEntry) (p : Nat) : Bool := !d.accum || bitAt e.present (8 * (p / e.cols / 16) + p % e.cols / 16)

/-- Bits of elements that micro-tile (i, j) of an entry writes to all outputs (R129, R127): of a scaled output its whole block, the padding of
an edge block among them (R65). -/
def tileBits (d : Vd) (e : TqEntry) (i j : Nat) : Nat :=
  let n := min 16 (e.rows - 16 * i) * min 16 (e.cols - 16 * j)
  (if d.accum && !bitAt e.present (8 * i + j) then 0 else (if d.out0.scaled then 256 else n) * kindBits d.out0.kind) +
    (if d.keepPre then n * kindBits d.out1.kind else 0)

/-- The micro-tiles of an entry. -/
def microTiles (e : TqEntry) : List (Nat × Nat) :=
  (List.range (ceilDiv e.rows 16)).flatMap (fun i => (List.range (ceilDiv e.cols 16)).map (fun j => (i, j)))

/-- Cycles of an entry (R129), micro-tile by micro-tile; the prime pass writes nothing. `B_mt / 256` is rounded up (DESIGN CHOICE, log 63). -/
def epiCycles (d : Vd) (prime : Bool) (e : TqEntry) : Nat :=
  let tile := fun (p : Nat × Nat) =>
    max 4 (max (16 * b2n (decide (2 ≤ d.act))) (if prime then 0 else ceilDiv (tileBits d e p.1 p.2) 2048))
  ((microTiles e).map tile).sum

/-- Bytes that an entry reads beside the queue (R135). -/
def epiReads (d : Vd) (e : TqEntry) : Nat :=
  (if (d.inp 1).used then e.cols * kindBits (d.inp 1).kind / 8 else 0) + (if d.resid then e.rows * e.cols * kindBits (d.inp 2).kind / 8 else 0)

/-- Bytes of `rows` rows of a stream: of a scaled tensor its blocks, padding included, with their exponents. -/
def rowsMoved (t : Strm) (rows : Nat) : Nat :=
  if t.scaled then
    let k := ceilDiv rows 16 * ceilDiv t.n0 16
    packedBytes t.fmtOf (256 * k) + k
  else rows * t.rowBytes

/-- Bytes that a strip of `rows` rows of a row kernel reads (R133, R135): the strip, the rows of its streams, the per-row vectors. -/
def stripReads (d : Vd) (n rows : Nat) : Nat :=
  4 * n * rows + ((usedIns d).map (fun t => if isVec t n then t.moved else rowsMoved t rows)).sum

/-- Bytes that it moves: what it reads and writes; under `OUT_ADD` the outputs are read as well. -/
def stripBytes (d : Vd) (n rows addBytes : Nat) : Nat :=
  stripReads d n rows + (if d.outAdd then 2 else 1) * (rowsMoved d.out0 rows + (if d.out1.used ∧ !normBack d.func then rowsMoved d.out1 rows else 0)) + addBytes

/-- An `EPILOGUE` processes one entry; a status ends it. -/
def epiEntry (s : State) (r cl : Nat) (l : Live) (d : Vd) (v : VeRun) (e : TqEntry) : Nat × State :=
  let c := acctOf r l
  if !epiFits d e then (stInvalidField, s)
  else
    match readIns s c [(d.inp 1, (d.inp 1).n0), (d.inp 2, (d.inp 2).n0)] with
    | (.error st, s) => (st, s)
    | (.ok ins, s) =>
      let c0 := if e.select then e.selBase else e.col0
      let vs := epiValues d e (valsAt ins 0) (valsAt ins 1)
      let judged := fun (i : Nat) => reachesOut d e i || d.keepPre
      let nanIn := e.nonfinite || (List.range vs.length).any (fun i => judged i && epiNan d e (valsAt ins 0) (valsAt ins 1) i)
      -- of a micro-tile that reaches no output nothing is judged
      let seen := vs.zipIdx.map (fun (p, i) => if reachesOut d e i then p.2.2 else if d.keepPre then p.1.2 else {})
      let fl := seen.foldl flOr {}
      let cyc := epiCycles d v.prime e
      if v.prime then
        let x := vs.map (·.2.1)
        (stOk, updVe s r cl (fun v => { v with amax := max32 v.amax (amaxOf x), cycles := v.cycles + cyc, bytes := v.bytes + epiReads d e, progress := v.progress + 1 }))
      else
        let pre := if d.keepPre then vs.map (fun p => fromCompute ar32 .rne d.out1.kind p.1) else []
        let (e1, s) := if d.keepPre then epiRows s c d.out1 e c0 (pre.map (·.v)) (List.range e.rows) else (none, s)
        let out := vs.map (fun p => if d.out0.scaled then { v := p.2.1, nf := !fin32 p.2.1, written := writesNf d.out0.fmtOf p.2.1 : Stored } else fromCompute ar32 .rne d.out0.kind p.2)
        let kept := if v.noRec then [] else (out.zipIdx.filter (fun x => reachesOut d e x.2)).map (·.1)
        let (qs, pieces) := if d.out0.scaled ∧ !v.noRec then epiBlocks d.out0 v.scale e c0 (out.map (·.v)) else ([], [])
        let sat := (qs.map (·.sat)).sum
        let flags := flBits (qs.foldl (fun a q => flOr a q.fl) ((pre ++ kept).foldl (fun a x => flOr a x.fl) fl)) |||
          (if nanIn || (pre ++ kept).any (·.nf) then nfBit else 0) ||| (if 0 < sat then satBit else 0)
        let s := s.bump (veXstatNfCount r cl) ((pre ++ kept).countP (·.written))
        let (e0, s) :=
          if d.accum then
            (none, (List.range e.rows).foldl (fun s i => (presentRuns e i).foldl (fun s (o, n) =>
              let (j, k) := rowPos d.out0 (e.row0 + i)
              let w := if d.out0.fmt = 0x9 then 4 else 2
              sendRun s r cl l.step { addr := d.out0.rowAddr j k + (c0 + o) * w, pw16 := decide (d.out0.fmt = 0), vals := (rowAt e.cols (out.map (·.v)) i).drop o |>.take n }) s) s)
          else if d.out0.scaled then writeAll s c pieces
          else epiRows s c d.out0 e c0 (out.map (·.v)) (List.range e.rows)
        let bytes := ((microTiles e).map (fun p => tileBits d e p.1 p.2)).sum / 8 + qs.length + epiReads d e
        let s := updVe s r cl (fun v => { v with
          flags := v.flags ||| flags, amax := if d.out0.scaled then max32 v.amax (amaxOf (out.map (·.v))) else v.amax, sat := v.sat + sat,
          cycles := v.cycles + cyc, bytes := v.bytes + bytes, progress := v.progress + 1 })
        match e1, e0 with
        | none, none => (stOk, s)
        | some e, _ => (memStatus e, s)
        | none, some e => (memStatus e, s)

/-- What a queue-fed row kernel checks when it starts, before it writes anything: the headers of its scaled inputs, the labels of cross-entropy (R115,
R131). -/
def stripChecks (s : State) (c : Acct) (d : Vd) : List (Strm × Nat) → Nat × State
  | [] => (stOk, s)
  | (t, n0) :: rest =>
    if !t.used then stripChecks s c d rest
    else
      match headerAgrees s c t with
      | (.error e, s) => (memStatus e, s)
      | (.ok false, s) => (stInvalidField, s)
      | (.ok true, s) =>
        if d.func = 0xA6 ∧ t.kind = .int then
          match readStrm s c t n0 with
          | (.vals v, s) => if labelsOk d [v, v] then stripChecks s c d rest else (stInvalidField, s)
          | (.err e, s) => (memStatus e, s)
          | (.invalid, s) => (stInvalidField, s)
        else stripChecks s c d rest

/-- The elements of an input that a strip of `rows` rows from row `row0` on reads. -/
def stripRead (t : Strm) (n rows row0 : Nat) (v : Vals) : List Nat :=
  if isVec t n then v.v else (v.v.drop (row0 * v.n0)).take (rows * v.n0)

/-- A queue-fed row kernel takes one tile into its strip buffer, and runs on the strip when the tile completes it (R133). -/
def stripEntry (s : State) (r cl : Nat) (l : Live) (d : Vd) (v : VeRun) (e : TqEntry) : Nat × State :=
  let c := acctOf r l
  let n := d.out0.n0
  if e.n ≠ n ∨ n < e.col0 + e.cols ∨ d.out0.n1 * d.out0.n2 < e.row0 + e.rows then (stInvalidField, s)
  -- the strip buffer holds `TM` rows (R116, R133)
  else if !inPad r cl d.strip (4 * n * e.tm) then (stAddressFault, s)
  else
    let sAB := ar32.mul (fx e.sA) (fx e.sB)
    let vs := (List.range (e.rows * e.cols)).map (fun p => ar32.mul (fx (e.vals.getD p 0)) sAB)
    match writeAll s c ((List.range e.rows).map (fun i => (d.strip + 4 * n * i + 4 * e.col0, packElems .b32 (rowAt e.cols (vs.map (·.1)) i)))) with
    | (some x, s) => (memStatus x, s)
    | (none, s) =>
      let s := updVe s r cl (fun v => { v with flags := v.flags ||| flBits (vs.foldl (fun a p => flOr a p.2) {}) ||| (if e.nonfinite then nfBit else 0), bytes := v.bytes + 4 * e.rows * e.cols })
      if e.col0 + e.cols < n then (stOk, s)
      else
        match readMem s c d.strip (4 * n * e.rows) with
        | (.error x, s) => (memStatus x, s)
        | (.ok b, s) =>
          match readIns s c (insOf d) with
          | (.error st, s) => (st, s)
          | (.ok ins, s) =>
            if !labelsOk d ins then (stInvalidField, s)
            else
              let (free, s) := ((Config.freeWord s.tick).toNat % 2 ^ 32, s.tock)
              let xs := unpackBytes .b32 (n * e.rows) b
              let ks := kernelRows d n e.rows (rowAt n xs) ins e.row0 free
              match (if d.outAdd then readIns s c [(d.out0, n), (d.out1, d.out1.n0)] else (.ok [], s)) with
              | (.error st, s) => (st, s)
              | (.ok old, s) =>
                let plus := fun (i len : Nat) (q : Nat) (l : List Fx) =>
                  if d.outAdd then List.zipWith ar32.add ((rowAt len (valsAt old i).v (e.row0 + q)).map (toCompute ar32 (valsAt old i).kind)) l else l
                let rows := ks.zipIdx.map (fun (k, q) => (e.row0 + q, plus 0 n q k.y, plus 1 k.side.length q k.side, k.masked))
                let y := rows.flatMap (fun x => x.2.1)
                let out := y.map (fun p => if d.out0.scaled then { v := p.1, fl := p.2, nf := !fin32 p.1, written := writesNf d.out0.fmtOf p.1 : Stored } else fromCompute ar32 .rne d.out0.kind p)
                let whole : TqEntry := { e with col0 := 0, cols := n, select := false }
                let (qs, pieces) := if d.out0.scaled ∧ !v.noRec then epiBlocks d.out0 v.scale whole 0 (out.map (·.v)) else ([], [])
                let runs := if normBack d.func then ks.map (gradRuns d.out1 n) else []
                let side := rows.map (fun x => if d.out1.used ∧ !normBack d.func then x.2.2.1.map (fromCompute ar32 .rne d.out1.kind) else [])
                let sideNf := (List.zip rows side).any (fun p => !p.1.2.2.2 && p.2.any (·.nf))
                let kept := if d.out0.scaled ∧ v.noRec then [] else out
                let nanIn := (List.zip d.ins ins).any (fun p => (stripRead p.1 n e.rows e.row0 p.2).any (elemNan p.2.kind)) || xs.any (fun x => isNan (f32 x))
                let sat := (qs.map (·.sat)).sum
                let flags := flBits (qs.foldl (fun a q => flOr a q.fl) ((kept ++ side.flatten).foldl (fun a x => flOr a x.fl) {})) |||
                  (if nanIn || kept.any (·.nf) || sideNf then nfBit else 0) ||| (if 0 < sat then satBit else 0) |||
                  (if ks.any (·.masked) then maskBit else 0) ||| runs.foldl (fun a r => a ||| r.2.1) 0
                if v.prime then
                  (stOk, updVe s r cl (fun v => { v with amax := max32 v.amax (amaxOf (out.map (·.v))), cycles := v.cycles + kernelCost d.func n e.rows, bytes := v.bytes + stripReads d n e.rows }))
                else
                  let s := s.bump (veXstatNfCount r cl) (kept.countP (·.written) +
                    (side.map (fun l => l.countP (·.written))).sum + (runs.map (·.2.2)).sum)
                  let (e0, s) := if d.out0.scaled then writeAll s c pieces else epiRows s c d.out0 whole 0 (out.map (·.v)) (List.range e.rows)
                  let (e1, s) := if d.out1.used ∧ !normBack d.func then
                      writeAll s c ((List.zip rows side).map (fun (x, l) => let (j, k) := rowPos d.out1 x.1; d.out1.piece 0 j k (l.map (·.v))))
                    else (none, s)
                  let s := runs.foldl (fun s g => g.1.foldl (fun s a => sendRun s r cl l.step a) s) s
                  let s := updVe s r cl (fun v => { v with
                    flags := v.flags ||| flags, amax := if d.out0.scaled then max32 v.amax (amaxOf (out.map (·.v))) else v.amax, sat := v.sat + sat,
                    cycles := v.cycles + kernelCost d.func n e.rows, bytes := v.bytes + stripBytes d n e.rows (runs.map (fun g => (g.1.map AddRun.bytes).sum)).sum, progress := v.progress + e.rows })
                  match e0, e1 with
                  | none, none => (stOk, s)
                  | some x, _ => (memStatus x, s)
                  | none, some x => (memStatus x, s)

/-- The whole product has been consumed: the scale header of a scaled output, then the end of the command. -/
def veLast (s : State) (r cl : Nat) (l : Live) (d : Vd) : State :=
  match (s.cluster r cl).ve with
  | none => s
  | some v =>
    if v.prime then vePrimed s r cl l d
    else
      let t := d.out0
      let s := if t.scaled ∧ !v.noRec then updVe s r cl (fun v => { v with bytes := v.bytes + 64 }) else s
      let (e, s) := if t.scaled ∧ !v.noRec then writeMem s (acctOf r l) (scaledAt t.fmtOf t.base t.n1 t.n0).header (scaleHeader t.fmtOf v.scale l.step t.n1 t.n0) else (none, s)
      match e with
      | none => veClose s r cl l d true
      | some e => veClose (veStatus s r cl (memStatus e)) r cl l d true

/-- A queue-fed command ends with a status before the end of its stream. What it has quantised counts unless a terminator ends it (R128);
a prime pass has quantised nothing. -/
def veStop (s : State) (r cl : Nat) (l : Live) (d : Vd) (status : Nat) : State :=
  veClose (veStatus s r cl status) r cl l d (match (s.cluster r cl).ve with | some v => !v.term && !v.prime | none => false)

/-- Consume the entries that are in the queue (R107-R109, R126, R133). -/
def veConsume (s : State) (r cl : Nat) (l : Live) (d : Vd) : Nat → State
  | 0 => s
  | fuel + 1 =>
    let c := s.cluster r cl
    match c.ve, c.tq with
    | some v, e :: rest =>
      if v.phase ≠ 0 then s
      else if e.stream ≠ opStream l.bytes then veStop s r cl l d stInvalidField
      else
        let s := s.setCluster r cl { c with tq := rest, ve := some { v with sel := e.select } }
        let s := if e.last then updLive s r l.id (fun l => { l with unread := false }) else s
        if e.term then
          veStop (updVe s r cl (fun v => { v with term := true, flags := if e.nonfinite then v.flags ||| nfBit else v.flags, progress := v.progress + b2n (decide (d.func = 0x80)) })) r cl l d e.status
        else
          let (st, s) := if d.func = 0x80 then epiEntry s r cl l d v e else stripEntry s r cl l d v e
          if st ≠ stOk then veStop s r cl l d st
          else if e.last then veLast s r cl l d
          else veConsume s r cl l d fuel
    | _, _ => s

/-! ## The row -/

/-- A terminator of a command that ended `OK` over no columns (R105, R108) ends the epilogue `OK`, like any end of the stream. -/
def veGo (s : State) (r cl : Nat) (l : Live) (d : Vd) : State :=
  if d.qfed then veConsume s r cl l d ((s.cluster r cl).tq.length + 1) else veWhole s r cl l d

/-- The record of a scaled output cannot be had: the command finishes the rest of its work, of which the scaled output is no part, and then
ends with the status `st` (R464; log 62). -/
def veNoRecord (s : State) (r cl : Nat) (l : Live) (d : Vd) (st : Nat) : State :=
  veGo (veStatus (updVe s r cl (fun v => { v with phase := 0, prime := false, noRec := true, scale := one32 })) r cl st) r cl l d

/-- The record of a scaled output is in hand (R72, R468, R130): the command starts, in prime mode or not, or is refused. -/
def veWithRecord (s : State) (r cl : Nat) (l : Live) (d : Vd) (rec' : List Byte) : State :=
  match (s.cluster r cl).ve with
  | none => s
  | some v =>
    let bad := !srOk d.out0.fmtOf rec' || (primes rec' && d.qfed && decide (getLe l.bytes 0x34 8 = 0))
    if bad then veEnd s r cl l d { v with status := stInvalidField } true
    else
      let s := updVe s r cl (fun v => { v with phase := 0, prime := primes rec', producers := srProducers rec', scale := if primes rec' then one32 else srScale rec' })
      veGo s r cl l d

/-- Does the command name a long IEEE format in an operand or stream, or compute in one (R356)? -/
def namesLong (d : Vd) : Bool := (usedIns d ++ usedOuts d).any (fun t => match t.kind with | .num f => fmtLong f | _ => false) || decide (8 ≤ d.cfmt)

/-- A VE command starts; `adj` lets the predictor unit offset the streams that it submits (R178). -/
def veBegin (s : State) (r cl : Nat) (l : Live) (adj : List Byte → List Byte) : State :=
  let run : VeRun := { cmd := l.id }
  let c := acctOf r l
  let a := opAddr l.bytes
  let fail := fun (s : State) (d : Vd) (st : Nat) => veEnd s r cl l d { run with status := st } true
  if a % 64 ≠ 0 ∨ !inPad r cl a 256 then fail s (vdOf []) stAddressFault
  else
    match readMem s c a 256 with
    | (.error e, s) => fail s (vdOf []) (memStatus e)
    | (.ok b, s) =>
      let b := adj b
      let d := vdOf b
      let s := updLive s r l.id (fun l => { l with unread := d.qfed })
      let known := match contribStrm d with
        | some t => t.ok true true && accumPlace s t
        | none => false
      let d' := if known then d else { d with vflags := 0, func := 0 }
      if !vdOk d (getLe l.bytes 0x31 1 % 8) then fail s d' stInvalidField
      else if !vdPlaces s r cl d then fail s d' stAddressFault
      else
      match (if d.qfed ∧ isKernel d.func then stripChecks s c d (insOf d) else (stOk, s)) with
      | (st, s) =>
      if st ≠ stOk then fail s d st
      else
        let wake := namesLong d && (s.cluster r cl).subDown && decide (modeByte s r 10 = 1)
        let run := { run with desc := b, qfed := d.qfed, cycles := (if wake then 32 else 0) + (if d.qfed then 24 else 0) }
        let s := s.setCluster r cl { s.cluster r cl with ve := some run, subDown := (s.cluster r cl).subDown && !wake }
        if !d.out0.scaled then veGo s r cl l d
        else if recLocal s r d.srec then
          match readMem s c d.srec 320 with
          | (.error e, s) => veEnd s r cl l d { run with status := memStatus e } true
          | (.ok rec', s) => veWithRecord s r cl l d rec'
        else
          let s := ask s (.veRec r cl 0 0) { cls := 1, src := r, dst := ((homeOf s d.srec).map regionOf).getD r, len := 320, addr := d.srec }
          updVe s r cl (fun v => { v with phase := 3 })

/-- The front command of the VE's FIFO starts. -/
def veStart (s : State) (r cl : Nat) (l : Live) : State :=
  veBegin (updLive (fifoPop s r (200 + cl)) r l.id (fun l => { l with started := true })) r cl l id

/-- VE_EXEC: the cluster's VE starts its next command, or goes on consuming entries. -/
def execVeExec (r : Fin 32) (cl : Fin 96) (s : State) : Host.Outcome State Fault Refusal :=
  if !running s r then .next s
  else
    match (s.cluster r cl).ve with
    | none =>
      match fifoHead s r (200 + cl) with
      | none => .next s
      -- no command starts while a PRED_RUN holds the cluster (R179)
      | some l => if (s.cluster r cl).pred.isSome then .next s else .next (veStart s r cl l)
    | some v =>
      match findLive (s.hub r) v.cmd with
      | none => .next s
      | some l => if v.phase = 0 ∧ !l.struck then .next (veGo s r cl l (vdHere v)) else .next s

/-- Answers that concern a remote record (R464): a read, an amax, a swap that may have to be tried again. -/
def veRecAnswer (s : State) (r cl what old rstatus : Nat) (data : List Byte) : State :=
  match (s.cluster r cl).ve with
  | none => s
  | some v =>
    match findLive (s.hub r) v.cmd with
    | none => s
    | some l =>
      let d := vdHere v
      match what with
      | 0 => if rstatus ≠ 0 then veNoRecord s r cl l d (rstatusOf rstatus) else veWithRecord s r cl l d data
      | 1 => veAnswer s r cl rstatus false
      | w =>
        if rstatus = 0 ∧ leNat data ≠ old then
          recSwap (updVe s r cl (fun v => { v with outstanding := v.outstanding - 1 })) (acctOf r l) r cl w (swapAt d.srec w) (leNat data) (swapOf v w)
        else veAnswer s r cl rstatus false

/-- The opcode that a replayed descriptor runs under, which R130 does not say: that of the product which fed the stream, the sparse one for a
compressed operand, the one of selected columns where the entries were of one (DEDUCED, log 63). -/
def replayOp (sel : Bool) (d : Mxd) : Nat := if d.aBbc then 0x21 else if sel then 0x22 else 0x20

/-- The prime epilogue submits its replay (R130). A descriptor with `OUT` = 1, which leaves it no entry, gives it a terminator of the
invalid-field status, and no tile is held (DESIGN CHOICE, log 63). -/
def veReplay (s : State) (r cl : Nat) (l : Live) : State :=
  let a := getLe l.bytes 0x34 8
  let stream := opStream l.bytes
  let sel := match (s.cluster r cl).ve with
    | some v => v.sel
    | none => false
  let op := replayOp sel (mxdOf (tabRange 0 s.mem a 128))
  let (o, s) := mxeCommand s (acctOf r l) r cl op (getLe l.bytes 0x3C 1) stream a id
  let drain := if o.entries.isEmpty then [terminator stream (if o.held.isSome then stInvalidField else o.status) 0 o.flags] else o.entries
  let st := o.stats.foldl statOr {}
  let s := updLive s r l.id (fun l => { l with unread := true })
  let s := s.setCluster r cl (Cluster.addRun { s.cluster r cl with held := none }
    { cmd := none, stream := stream, drain := drain, stats := if o.entries.isEmpty then [] else o.stats, res := {} })
  updVe s r cl (fun v => { v with phase := 0, replay := true, cycles := v.cycles + o.cycles + st.cycles, bytes := v.bytes + st.bytes })

/-- PRIME_RELEASE: `PRIME_DONE` has reached `PRODUCERS`, and this waiting producer executes again (R74). -/
def execPrimeRelease (r : Fin 32) (cl : Fin 96) (s : State) : Host.Outcome State Fault Refusal :=
  match (s.cluster r cl).ve with
  | none => .next s
  | some v =>
    match findLive (s.hub r) v.cmd with
    | none => .next s
    | some l =>
      let d := vdHere v
      if !running s r ∨ v.phase ≠ 2 ∨ v.outstanding ≠ 0 ∨ l.struck then .next s
      else
        let again := fun (s : State) => if d.qfed then veReplay s r cl l else veGo s r cl l d
        let lost := fun (s : State) (st : Nat) =>
          again ((veStatus (updVe s r cl (fun v => { v with phase := 0, prime := false, noRec := true, scale := one32 })) r cl st).put (veXstatPrimeWait r cl) 0)
        match reach s r d.srec 320 with
        | .wait => .next s
        | .off => .next (lost s stAddressFault)
        | .serve =>
        match readMem s (acctOf r l) d.srec 320 with
        | (.error e, s) => .next (lost s (memStatus e))
        | (.ok rec', s) =>
          if getLe rec' 32 8 < srProducers rec' then .next s
          else
            let sc := scaleFor d.out0.fmtOf (getLe rec' 12 4)
            let (_, s) := writeNat s (acctOf r l) d.srec 4 sc
            let (_, s) := writeNat s (acctOf r l) (d.srec + 19) 1 (srFlags rec' ||| 1)
            let s := (updVe s r cl (fun v => { v with phase := 0, prime := false, scale := sc })).put (veXstatPrimeWait r cl) 0
            .next (again s)

end Sys2Proof.Machine
end

