-- ==== Sys2Proof/Machine/Slices.lean ====
section
/-! DEFINITION. Accumulator slices (R148-R151): the slice table, contributions, faults, release, reopening; the SLICE_SCAN and NOTICE rows. -/
namespace Sys2Proof.Machine

/-- A descriptor of the slice table (R148), with its index and its address. -/
structure Slice where
  idx : Nat
  addr : Nat
  base : Nat
  bytes : Nat
  pw16 : Bool
  dest : Nat
  expect : Nat
  contrib0 : Nat
  contrib1 : Nat
  st : Nat
  token : Nat
  target : Nat
  deriving DecidableEq, Repr

def sliceOf (idx addr : Nat) (b : List Byte) : Slice :=
  { idx := idx, addr := addr, base := getLe b 0 8, bytes := getLe b 8 4, pw16 := decide (getLe b 0xC 1 = 1), dest := getLe b 0xD 1, expect := getLe b 0xE 2,
    contrib0 := getLe b 0x10 2, contrib1 := getLe b 0x12 2, st := getLe b 0x14 1, token := getLe b 0x16 2 % 4096, target := getLe b 0x18 8 }

/-- `CONTRIB` for the parity of step `t`. -/
def Slice.contrib (x : Slice) (t : Nat) : Nat := if t % 2 = 0 then x.contrib0 else x.contrib1

/-- The region's slice table as its hub reads it; a table that cannot be read shows nothing. -/
def sliceTable (s : State) (r : Nat) : List Slice × State :=
  let n := s.get (dfSliceTableN r)
  let a := s.get (dfSliceTableAddr r)
  if n = 0 then ([], s)
  else
    match readMem s (noStep r) a (32 * n) with
    | (.ok b, s) => ((List.range n).map (fun i => sliceOf i (a + 32 * i) (slice b (32 * i) 32)), s)
    | (.error _, s) => ([], s)

/-- A field of a descriptor, written by the hub. -/
def putSlice (s : State) (r : Nat) (x : Slice) (off n v : Nat) : State := (writeNat s (noStep r) (x.addr + off) n v).2

def updFlow (s : State) (r : Nat) (f : Flow → Flow) : State := s.setFlow r (f (s.flow r))

/-- The loss scale in effect for step `t`, as the region's hub knows it (R155, R157). -/
def lossOf (s : State) (r t : Nat) : Nat :=
  if t = 0 then (s.flow r).ls
  else match tabFind (t - 1) (s.flow r).verds with
    | some v => v.scale
    | none => (s.flow r).ls

/-- A contained fault against step `t` of an owner (R150, R305). -/
def ownerFault (s : State) (r t addr : Nat) : State := raiseErr s 0x0605 1 r 0 (some t) addr 0

/-- A contained fault that fails every step of the owner that has no verdict yet (R150). -/
def sliceFault (s : State) (r t addr : Nat) : State :=
  let d := (s.flow r).done
  (range' d (s.get (hubStepCntStep r) + 1 - d)).foldl (fun s k => faultStep s r k) (ownerFault s r t addr)

/-- The slice is SCANNED for its step (R151). -/
def markScanned (s : State) (r : Nat) (x : Slice) (t : Nat) : State :=
  updFlow (putSlice s r x 0x14 1 2) r (fun f => { f with scanned := tabPut x.idx (t + 1) f.scanned })

/-- The slice is zeroed, its counter cleared, and it is OPEN again with its token signalled (R151). -/
def reopen (s : State) (r : Nat) (x : Slice) (t : Nat) : State :=
  let s := zeroRange s x.base x.bytes
  let s := putSlice (putSlice s r x (0x10 + 2 * (t % 2)) 2 0) r x 0x14 1 0
  signalToken s r x.token 1 (some t) 0

/-- The stream entry that carries a tensor: port die × 1024 + index (R303). -/
def streamOf (s : State) (tensor : Nat) : Option Nat :=
  (s.streams.find? (fun e => bitAt (getLe e.2.entry 6 1) 0 && decide (getLe e.2.entry 0 4 = tensor))).map (fun e => e.1)

/-- Send a `DEST` 1 slice page by page to the port die that serves its tensor's stream (R151); where no stream does, to one that
refuses it (R305), which one is a free choice. -/
def sendSlice (s : State) (r t : Nat) (x : Slice) : State :=
  let tensor := x.target % 2 ^ 32
  let (pd, s) := match streamOf s tensor with
    | some k => (k / 1024, s)
    | none => ((Config.freeWord s.tick).toNat % 4, s.tock)
  match readMem s (inStep r t) x.base x.bytes with
  | (.error _, s) => markScanned s r x t
  | (.ok b, s) =>
    let n := x.bytes / 4096
    let s := updFlow s r (fun f => { f with acks := tabPut x.idx n f.acks })
    (List.range n).foldl (fun s i => askAdd s (.slice r x.idx) r (32 + pd) t (b2n x.pw16) (x.target + i * 2 ^ 32) (slice b (4096 * i) 4096)) s

/-- A slice has every contribution of step `t`: it is RELEASED (R151). -/
def release (s : State) (r t : Nat) (x : Slice) : State :=
  let s := putSlice s r x 0x14 1 1
  let s := updFlow s r (fun f => { f with released := tabPut x.idx (t + 1) f.released })
  if x.dest = 1 then sendSlice s r t x else s

/-- One contribution to a slice (R149, R150). -/
def contribute (s : State) (r t : Nat) (x : Slice) : State :=
  let n := x.contrib t + 1
  if x.st ≠ 0 ∨ x.expect < n then sliceFault s r t x.base
  else
    let s := putSlice s r x (0x10 + 2 * (t % 2)) 2 n
    if n = x.expect then release s r t x else s

/-- Slices that a range overlaps. -/
def slicesIn (l : List Slice) (a n : Nat) : List Slice := l.filter (fun x => overlaps a n x.base x.bytes)

/-- A notice reaches its owner's hub (R149, R150): an abort notice whose range meets no slice comes from no contributing command. -/
def noticeArrives (s : State) (m : Msg) : State :=
  let (l, s) := sliceTable s m.dst
  let hit := slicesIn l m.addr m.rangeLen
  if m.nkind = 1 then (hit.head?).elim s (fun x => ownerFault s m.dst m.step x.base)
  else hit.foldl (fun s x => contribute s m.dst m.step x) s

/-- A port die answers for one page of a slice (R151, R305, R306): the last answer makes it SCANNED and reopens it. -/
def sliceAnswer (s : State) (r idx rstatus : Nat) (nf : Bool) : State :=
  let (l, s) := sliceTable s r
  let t := tabGet 1 idx (s.flow r).released - 1
  let s := if nf then updFlow s r (fun f => { f with nf := setIns t f.nf }) else s
  let s := if rstatus = 0 then s else ownerFault s r t ((l[idx]?).map (·.base) |>.getD 0)
  let n := tabGet 0 idx (s.flow r).acks - 1
  let s := updFlow s r (fun f => { f with acks := tabPut idx n f.acks })
  match n, l[idx]? with
  | 0, some x => reopen (markScanned s r x t) r x t
  | _, _ => s

/-- `(a × 2⁻ˢ)²` summed in binary64, in ascending order of the elements, and rounded once to binary32 (R151, log 21). -/
def clipSum (f : Fmt) (ls : Nat) (l : List Nat) : Nat :=
  let e : Int := 127 - ((ls / 2 ^ 23 % 256 : Nat) : Int)
  let sum := l.foldl (fun a x =>
    let y := scaleNum (decNum f x) e
    (addV .b64 .rne (decNum .b64 a) (decNum .b64 (mulV .b64 .rne y y).1)).1) 0
  (convFmt .b64 .b32 .rne sum).1

/-- SLICE_SCAN: the UPE finishes scanning a released `DEST` 0 slice (R151). A slice that cannot be read fails its step and counts as
scanned (log 21). -/
def execSliceScan (r : Fin 32) (index : Nat) (s : State) : Host.Outcome State Fault Refusal :=
  let (l, s1) := sliceTable s r
  match l[index]? with
  | none => .next s
  | some x =>
    if !running s r ∨ x.st ≠ 1 ∨ x.dest ≠ 0 then .next s
    else
      let t := tabGet 1 index (s1.flow r).released - 1
      match readMem s1 (inStep r t) x.base x.bytes with
      | (.error _, s) => .next (markScanned s r x t)
      | (.ok b, s) =>
        let f := if x.pw16 then Fmt.pw16 else Fmt.b32
        let vals := unpackBytes f (x.bytes / (if x.pw16 then 2 else 4)) b
        let s := if vals.all (fun v => isFinite (decNum f v)) then s else updFlow s r (fun g => { g with nf := setIns t g.nf })
        let s := match readMem s (inStep r t) x.target 128 with
          | (.ok ud, s) =>
            if bitAt (getLe ud 0x3D 1) 1 then
              updFlow s r (fun g => { g with sumsq := tabPut t (add32 (tabGet 0 t g.sumsq) (clipSum f (lossOf s r t) vals)) g.sumsq })
            else s
          | (.error _, s) => s
        .next (markScanned s r x t)

/-- NOTICE: the message at index `i` of the rings reaches its owner (R149, R150, R267). -/
def execNotice (i : Nat) (s : State) : Host.Outcome State Fault Refusal :=
  match arriving s i 7 with
  | none => .next s
  | some m =>
    if freewheels s m.dst then .next ({ s with ring := s.ring.eraseIdx i }.bump (stopUndelivUndeliv m.dst) 1)
    else .next (noticeArrives (deliver s i m) m)

end Sys2Proof.Machine
end

