-- ==== Sys2Proof/Machine/Upe.lean ====
section
/-! DEFINITION. The update engine (R158-R161, R81-R84): UPE_UPDATE. -/
namespace Sys2Proof.Machine

/-! ## Update descriptors (R158) -/

def udMaster (b : List Byte) : Nat := getLe b 0 8
def udResid (b : List Byte) : Nat := getLe b 8 8
def udState0 (b : List Byte) : Nat := getLe b 0x10 8
def udState1 (b : List Byte) : Nat := getLe b 0x18 8
def udWork (b : List Byte) : Nat := getLe b 0x20 8
def udSrec (b : List Byte) : Nat := getLe b 0x28 8
def udLrAddr (b : List Byte) : Nat := getLe b 0x30 8
def udSlice (b : List Byte) : Nat := getLe b 0x38 2
def udOpt (b : List Byte) : Nat := getLe b 0x3A 1
/-- A split master: a PW16 compute copy and a residual (R81). -/
def udSplit (b : List Byte) : Bool := decide (getLe b 0x3B 1 = 0)
def udWorkFmt (b : List Byte) : Nat := getLe b 0x3C 1
def udNesterov (b : List Byte) : Bool := bitAt (getLe b 0x3D 1) 0

/-- The format of a working copy (R36). -/
def workFmt (c : Nat) : Fmt := (fmtOfCode c).getD .pw16

/-- Reserved encodings (R10, R158, R81): fields that another choice leaves unused are 0 (log 22). -/
def udOk (s : State) (r : Nat) (b : List Byte) (x : Option Slice) : Bool :=
  decide (udOpt b ≤ 2) && decide (getLe b 0x3B 1 ≤ 1) && decide (udWorkFmt b ≤ 3) && decide (udSlice b < s.get (dfSliceTableN r)) &&
  (match x with | some x => decide (x.dest = 0) | none => true) &&
  (decide (udOpt b = 1) || decide (udState1 b = 0)) &&
  (if udSplit b then decide (udWorkFmt b = 0 ∧ udWork b = 0 ∧ udSrec b = 0)
   else decide (udResid b = 0) && (if udWorkFmt b = 0 then decide (udSrec b = 0) else decide (udWork b % 4096 = 0 ∧ udSrec b % 64 = 0)))

/-- Arrays that the update touches: address and bytes, for `e` elements. -/
def udArrays (b : List Byte) (e : Nat) : List (Nat × Nat) :=
  (if udSplit b then [(udMaster b, 2 * e), (udResid b, 2 * e)] else [(udMaster b, 4 * e)]) ++ [(udState0 b, 4 * e)] ++
  (if udOpt b = 1 then [(udState1 b, 4 * e)] else []) ++
  (if udSplit b then [] else if udWorkFmt b = 0 then [(udWork b, 2 * e)]
   else [(udWork b, (scaledAt (workFmt (udWorkFmt b)) (udWork b) 1 e).header + 64 - udWork b), (udSrec b, 320)]) ++
  (if udLrAddr b = 0 then [] else [(udLrAddr b, 4)])

/-! ## Masters (R81, R82) -/

/-- Exponent of ulp(c) for a PW16 compute copy (R81). -/
def ulpExp (c : Nat) : Int := let e := c / 128 % 256; if e = 0 then -133 else (e : Int) - 134

/-- The value of a split master, exact in binary32. -/
def masterOf (c r : Nat) : Nat :=
  (encOpt .b32 .rne (addNum .rne (decNum .pw16 c) (.fin (decide (signed 16 r < 0)) (signed 16 r).natAbs (ulpExp c - 16)))).1

/-- A finite binary32 value as compute copy and residual; none where it has no split representation. -/
def splitMaster (m : Nat) : Option (Nat × Nat) :=
  if 0x7F7F8000 ≤ m % 2 ^ 31 then none
  else
    -- nearest, a tie to the greater value: R82
    let up := if bitAt m 31 then (m % 2 ^ 31 + 0x7FFF) / 2 ^ 16 else (m % 2 ^ 31 + 0x8000) / 2 ^ 16
    let c := if bitAt m 31 then up + 0x8000 else up
    match addNum .rne (f32 m) (negNum (decNum .pw16 c)) with
    | some (.fin s k e) =>
      let (q, _) := quantum .rne s k e false (ulpExp c - 16)
      some (c, unsigned 16 (if s then -(q : Int) else q))
    | _ => some (c, 0)

/-! ## One element (R159, R160) -/

/-- Coefficients of an update, as binary32 patterns. -/
structure UpeCoef where
  inv : Nat
  clip : Nat
  lr : Nat
  b1 : Nat
  b2 : Nat
  eps : Nat
  wd : Nat
  c1 : Nat
  c2 : Nat
  deriving DecidableEq, Repr

/-- `1 − βᵏ` in binary64, rounded once to binary32; the power is rounded once to binary64 (log 22). -/
def biasCorr (β k : Nat) : Nat :=
  let p : Num := match f32 β with
    | .fin s m e => .fin (s && decide (k % 2 = 1)) (m ^ k) (e * k)
    | o => o
  (convFmt .b64 .b32 .rne (addV .b64 .rne (decNum .b64 (encNum .b64 .rne (.fin false 1 0)).1) (negNum (decNum .b64 (encNum .b64 .rne p).1))).1).1

def upeCoef (ud : List Byte) (used clip k : Nat) : UpeCoef :=
  { inv := div32 one32 used, clip := clip, lr := getLe ud 0x40 4, b1 := getLe ud 0x44 4, b2 := getLe ud 0x48 4, eps := getLe ud 0x4C 4, wd := getLe ud 0x50 4,
    c1 := biasCorr (getLe ud 0x44 4) k, c2 := biasCorr (getLe ud 0x48 4) k }

/-- The optimiser on one element: new master, first and second state. -/
def upeElem (opt : Nat) (nesterov : Bool) (c : UpeCoef) (a m s0 s1 : Nat) : Nat × Nat × Nat :=
  let g := mul32 (mul32 a c.inv) c.clip
  let (u, t0, t1) := match opt with
    | 0 =>
      let t0 := add32 (mul32 c.b1 s0) g
      (if nesterov then add32 g (mul32 c.b1 t0) else t0, t0, s1)
    | 1 =>
      let t0 := add32 (mul32 c.b1 s0) (mul32 (sub32 one32 c.b1) g)
      let t1 := add32 (mul32 c.b2 s1) (mul32 (mul32 (sub32 one32 c.b2) g) g)
      (div32 (div32 t0 c.c1) (add32 (sqrt32 (div32 t1 c.c2)) c.eps), t0, t1)
    | _ =>
      let v := add32 (mul32 c.b1 s0) (mul32 (sub32 one32 c.b1) g)
      let sign := if isNan (f32 v) then v else if isZero (f32 v) then 0 else if numSign (f32 v) then one32 + 2 ^ 31 else one32
      (sign, add32 (mul32 c.b2 s0) (mul32 (sub32 one32 c.b2) g), s1)
  (sub32 m (mul32 c.lr (add32 u (mul32 c.wd m))), t0, t1)

/-- What one element ends as. -/
structure UpeRes where
  m : Nat
  comp : Nat
  resid : Nat
  s0 : Nat
  s1 : Nat
  bad : Bool
  deriving DecidableEq, Repr

/-- An element left unchanged where its master or a state would be non-finite, or has no split representation (R160). -/
def upeOne (ud : List Byte) (c : UpeCoef) (a comp resid m s0 s1 : Nat) : UpeRes :=
  let (m', t0, t1) := upeElem (udOpt ud) (udNesterov ud) c a m s0 s1
  let old : UpeRes := { m := m, comp := comp, resid := resid, s0 := s0, s1 := s1, bad := true }
  if !fin32 m' || !fin32 t0 || (decide (udOpt ud = 1) && !fin32 t1) then old
  else if udSplit ud then
    match splitMaster m' with
    | some (k, q) => { m := m', comp := k, resid := q, s0 := t0, s1 := t1, bad := false }
    | none => old
  else { m := m', comp := 0, resid := 0, s0 := t0, s1 := t1, bad := false }

/-- Cost after the verdict (R161). -/
def upeCycles (ud : List Byte) (e : Nat) : Nat :=
  let c := (match udOpt ud with | 0 => 4 | 1 => 8 | _ => 5) + (if udSplit ud then 0 else if udWorkFmt ud = 0 then 1 else 2)
  64 + ceilDiv (e * c) 32

/-! ## The command -/

def setRun (s : State) (r d : Nat) (run : Option UpeRun) : State := s.setUpe r d { s.upe r d with run := run }

/-- The command ends; a committed or discarded slice reopens (R151, R159). -/
def upeEnd (s : State) (r d : Nat) (l : Live) (run : UpeRun) (status : Nat) (open' : Option (Slice × Nat)) : State :=
  let s := setRun s r d none
  let s := match open' with
    | some (x, t) => reopen s r x t
    | none => s
  finish s r l { status := status, flags := run.flags, cycles := run.cycles, bytes := run.bytes }

/-- Has the update a scale record to use (R158)? -/
def udHasRec (ud : List Byte) : Bool := !(udSplit ud || decide (udWorkFmt ud = 0))

/-- A scale record's word combined by the LLM max (R69, R74): how that ends. -/
def maxRec (s : State) (c : Acct) (a v : Nat) : Nat × State :=
  let (o, s) := doAtomic s c 3 a v 0
  (atomicStatus o, s)

/-- The scaled working copy is written under its record's scale (R84): pieces, amax and saturation count combined, in the words of the
command's own step counter `t` (R66, R69). Its tensor has one row, of all the slice's elements (DESIGN CHOICE, log 61). -/
def upeQuant (s : State) (c : Acct) (ud : List Byte) (t scale : Nat) (ms : List Nat) : Nat × State :=
  let (pieces, _, sat) := quantTensor (workFmt (udWorkFmt ud)) scale (udWork ud) 1 ms.length t ms
  match writeAll s c pieces with
  | (some e, s) => (memStatus e, s)
  | (none, s) =>
    match maxRec s c (udSrec ud + 4 + 4 * (t % 2)) (amaxOf ms) with
    | (st, s) =>
      if st ≠ stOk ∨ sat = 0 then (st, s)
      else match readNat s c (udSrec ud + 24) 8 with
        | (.error e, s) => (memStatus e, s)
        | (.ok n, s) =>
          match writeNat s c (udSrec ud + 24) 8 (satAdd 64 n sat) with
          | (some e, s) => (memStatus e, s)
          | (none, s) => (stOk, s)

/-- Masters as they stand in memory, for a working copy that waited under R74. -/
def mastersNow (s : State) (c : Acct) (ud : List Byte) (e : Nat) : Except MemErr (List Nat) × State :=
  match readMem s c (udMaster ud) (4 * e) with
  | (.ok b, s) => (.ok (unpackBytes .b32 e b), s)
  | (.error x, s) => (.error x, s)

/-- The count of committed updates and the end of a COMMIT (R159), also of one that another region's answer makes end with a status other
than `OK` (R464). -/
def upeCommit (s : State) (r d : Nat) (l : Live) (run : UpeRun) (x : Slice) (t status : Nat) : State :=
  let a := opAddr l.bytes
  match readNat s (acctOf r l) (a + 0x58) 8 with
  | (.error e, s) => upeEnd s r d l run (if status = stOk then memStatus e else status) (some (x, t))
  | (.ok k, s) =>
    match writeNat s (acctOf r l) (a + 0x58) 8 (k + 1) with
    | (some e, s) => upeEnd s r d l run (if status = stOk then memStatus e else status) (some (x, t))
    | (none, s) => upeEnd s r d l run status (some (x, t))

/-- A COMMIT ends with its working copy's status: one that another region's answer gave comes after the rest of the work (R464). -/
def upeClose (s : State) (r d : Nat) (l : Live) (run : UpeRun) (x : Slice) (t st : Nat) : State :=
  if st = stOk ∨ !recLocal s r (udSrec run.ud) then upeCommit s r d l run x t st else upeEnd s r d l run st (some (x, t))

/-- The producers of a primed record are all in: scale, working copy, end (R74). -/
def upePrimed (s : State) (r d : Nat) (l : Live) (run : UpeRun) (x : Slice) (t : Nat) (rec' : List Byte) : State :=
  let c := acctOf r l
  let sc := scaleFor (workFmt (udWorkFmt run.ud)) (getLe rec' 12 4)
  let (_, s) := writeNat s c (udSrec run.ud) 4 sc
  let (_, s) := writeNat s c (udSrec run.ud + 19) 1 (srFlags rec' ||| 1)
  let e := x.bytes / (if x.pw16 then 2 else 4)
  match mastersNow s c run.ud e with
  | (.error k, s) => upeEnd s r d l run (memStatus k) (some (x, t))
  | (.ok ms, s) =>
    let run := { run with bytes := run.bytes + 4 * e }
    match upeQuant s c run.ud l.step sc ms with
    | (st, s) => upeClose s r d l run x t st

/-- The working copy of a binary32 master (R84), primed first where its record says so (R74). A PW16 copy that overflows sets NONFINITE
(R64). -/
def upeWork (s : State) (r d : Nat) (l : Live) (run : UpeRun) (x : Slice) (t : Nat) (ms : List Nat) (rec' : List Byte) : State :=
  let c := acctOf r l
  if udWorkFmt run.ud = 0 then
    let work := ms.map toPw16
    let run := if work.all (fun x => isFinite (decNum .pw16 x)) then run else { run with flags := flagsOr run.flags flNonfinite }
    match writeMem s c (udWork run.ud) (packElems .pw16 work) with
    | (some k, s) => upeEnd s r d l run (memStatus k) (some (x, t))
    | (none, s) => upeCommit s r d l run x t stOk
  else if primes rec' then
    match maxRec s c (udSrec run.ud + 12) (amaxOf ms) with
    | (st, s) =>
      if st ≠ stOk then upeClose s r d l run x t st
      else
        match readNat s c (udSrec run.ud + 32) 8 with
        | (.error k, s) => upeClose s r d l run x t (memStatus k)
        | (.ok n, s) =>
          let (_, s) := writeNat s c (udSrec run.ud + 32) 8 (n + 1)
          match readMem s c (udSrec run.ud) 320 with
          | (.error k, s) => upeClose s r d l run x t (memStatus k)
          | (.ok rec2, s) =>
            if n + 1 < srProducers rec2 then setRun s r d (some { run with phase := 2 })
            else upePrimed s r d l run x t rec2
  else
    match upeQuant s c run.ud l.step (srScale rec') ms with
    | (st, s) => upeClose s r d l run x t st

/-- Read several arrays in order; the address of the one that fails. -/
def readArrays (s : State) (c : Acct) : List (Nat × Nat) → Except (MemErr × Nat) (List (List Byte)) × State
  | [] => (.ok [], s)
  | (a, n) :: t =>
    match readMem s c a n with
    | (.error e, s) => (.error (e, a), s)
    | (.ok b, s) =>
      match readArrays s c t with
      | (.ok l, s) => (.ok (b :: l), s)
      | r => r

/-- How far a COMMIT has come over its groups: a status that ends it at once, one that another region has answered with (R464), the elements
left unchanged, the bytes read and written, the new masters, and the steps in which every group had its arrays. -/
structure UpeSum where
  stop : Option Nat := none
  lost : Option Nat := none
  bad : Nat := 0
  bytes : Nat := 0
  masters : List Nat := []
  whole : Bool := true
  deriving DecidableEq, Repr

/-- The arrays that elements `i` to `i + e − 1` of an update read: gradient, master, residual, both states (R158). -/
def groupArrays (ud : List Byte) (x : Slice) (i e : Nat) : List (Nat × Nat) :=
  let w := if x.pw16 then 2 else 4
  let m := if udSplit ud then 2 else 4
  [(x.base + w * i, w * e), (udMaster ud + m * i, m * e), (udResid ud + 2 * i, if udSplit ud then 2 * e else 0), (udState0 ud + 4 * i, 4 * e),
   (udState1 ud + 4 * i, if udOpt ud = 1 then 4 * e else 0)]

/-- What a group writes to its arrays. -/
def groupWrites (ud : List Byte) (i : Nat) (out : List UpeRes) : List (Nat × List Byte) :=
  (if udSplit ud then [(udMaster ud + 2 * i, packElems .pw16 (out.map (·.comp))), (udResid ud + 2 * i, packElems .pw16 (out.map (·.resid)))]
   else [(udMaster ud + 4 * i, packElems .b32 (out.map (·.m)))]) ++ [(udState0 ud + 4 * i, packElems .b32 (out.map (·.s0)))] ++
  (if udOpt ud = 1 then [(udState1 ud + 4 * i, packElems .b32 (out.map (·.s1)))] else [])

/-- New values of a group, from the bytes of its arrays. -/
def groupOut (ud : List Byte) (x : Slice) (k : UpeCoef) (e : Nat) (bs : List (List Byte)) : List UpeRes :=
  let f := if x.pw16 then Fmt.pw16 else Fmt.b32
  let split := udSplit ud
  let col := fun (i : Nat) (f : Fmt) => unpackBytes f e (bs.getD i [])
  let a := col 0 f
  let m := col 1 (if split then .pw16 else .b32)
  let rs := col 2 .pw16
  let s0 := col 3 .b32
  let s1 := col 4 .b32
  (List.range e).map (fun i =>
    let comp := m.getD i 0
    upeOne ud k (convFmt f .b32 .rne (a.getD i 0)).1 comp (rs.getD i 0) (if split then masterOf comp (rs.getD i 0) else comp) (s0.getD i 0) (s1.getD i 0))

/-- One group of 256 elements (R361): every array is read, then written. An error of the own region ends the command there; one of another
region leaves the group as it is (R464). -/
def upeGroup (r : Nat) (l : Live) (ud : List Byte) (x : Slice) (k : UpeCoef) (total : Nat) (z : UpeSum × State) (g : Nat) : UpeSum × State :=
  let (acc, s) := z
  if acc.stop.isSome then z
  else
    let c := acctOf r l
    let e := min 256 (total - 256 * g)
    let failed := fun (acc : UpeSum) (q : MemErr) (a : Nat) =>
      if recLocal s r a then { acc with stop := some (memStatus q) } else { acc with lost := acc.lost.or (some (memStatus q)), whole := false }
    match readArrays s c (groupArrays ud x (256 * g) e) with
    | (.error (q, a), s) => (failed acc q a, s)
    | (.ok bs, s) =>
      let out := groupOut ud x k e bs
      let wr := groupWrites ud (256 * g) out
      match (if bitAt (getLe ud 0x3D 1) 2 then writeGroup s c wr else writeAll s c wr) with
      | (some q, s) => (failed acc q (udMaster ud), s)
      | (none, s) => ({ acc with
          bad := acc.bad + out.countP (·.bad), bytes := acc.bytes + (bs.map (·.length)).sum + (wr.map (·.2.length)).sum
          masters := acc.masters ++ out.map (·.m) }, s)

/-- What becomes of an update's accesses to other regions (R350): the command waits for a parked one, and does without one that is off. -/
def udWay (s : State) (r : Nat) (l : List (Nat × Nat)) : Fate :=
  let ways := l.map (fun p => reach s r p.1 p.2)
  if ways.contains .wait then .wait else if ways.contains .off then .off else .serve

/-- COMMIT: every element of the slice, in groups of 256 (R159-R161, R361). A place in a parked region is waited for (R350). A record, or an
array, that cannot be had makes the command do the rest of its work and end with the status that the answer gives (R464). -/
def upeApply (s : State) (r d : Nat) (l : Live) (run : UpeRun) (x : Slice) (t : Nat) (v : Verd) : State :=
  let c := acctOf r l
  let ud := run.ud
  let e := x.bytes / (if x.pw16 then 2 else 4)
  let recs := if udHasRec ud then [(udSrec ud, 320)] else []
  let arrays := (groupArrays ud x 0 e ++ if udSplit ud then [] else [(udWork ud, 1)]).filter (fun p => decide (p.2 ≠ 0))
  if udWay s r (recs ++ arrays) = .wait then s
  else
  let gone := decide (udWay s r arrays = .off)
  match readNat s c (opAddr l.bytes + 0x58) 8 with
  | (.error k, s) => upeEnd s r d l run (memStatus k) (some (x, t))
  | (.ok count, s) =>
    let (got, s) : Except MemErr (List Byte) × State := if udHasRec ud ∧ udWay s r recs = .serve then readMem s c (udSrec ud) 320 else (.ok [], s)
    let lost := match got with
      | .error k => some (memStatus k)
      | .ok _ => if udWay s r recs = .serve ∧ !gone then none else some stAddressFault
    let rec' := match got with
      | .ok b => b
      | .error _ => []
    if lost.isSome ∧ !gone ∧ recLocal s r (udSrec ud) then upeEnd s r d l run (lost.getD stOk) (some (x, t))
    -- R468
    else if lost.isNone ∧ udHasRec ud ∧ !srOk (workFmt (udWorkFmt ud)) rec' then upeEnd s r d l run stInvalidField (some (x, t))
    else
      let groups := if gone then [] else List.range (ceilDiv e 256)
      let (acc, s) := groups.foldl (upeGroup r l ud x (upeCoef ud v.used v.clip (count + 1)) e) ({ lost := lost }, s)
      let run := { run with
        nf := acc.bad, flags := if acc.bad = 0 then 0 else flNonfinite, cycles := run.cycles + upeCycles ud e, bytes := run.bytes + acc.bytes + 8 }
      let wrote := (groupArrays ud x 0 e).tail ++ (if udSplit ud then [] else [(udWork ud, if udWorkFmt ud = 0 then 2 * e
        else (scaledAt (workFmt (udWorkFmt ud)) (udWork ud) 1 e).header + 64 - udWork ud)])
      let s := if gone then s else updFlow s r (fun g => { g with updated := g.updated ++ wrote.map (fun w => (t, w.1, w.2)) })
      let s := if acc.bad = 0 then s
        else
          let s := s.bump (upeStatNfElems r d) acc.bad
          raiseErr s 0x0607 0 r (unitOf 2 d) (some t) (opAddr l.bytes) (s.get (upeStatNfElems r d))
      match acc.stop, acc.lost with
      | some st, _ => upeEnd s r d l run st (some (x, t))
      | none, some st => upeCommit s r d l run x t st
      | none, none => if udSplit ud then upeCommit s r d l run x t stOk else upeWork s r d l run x t acc.masters rec'

/-- The step whose gradient an update takes: its slice's, once that is SCANNED; else the one it was dispatched under. -/
def updateStep (s : State) (r : Nat) (l : Live) (x : Slice) : Nat :=
  if x.st = 2 then tabGet (l.step + 1) x.idx (s.flow r).scanned - 1 else l.step

/-- The journal record of the step before `t` is due and not durable: updates of `t` are held (R374). -/
def journalHolds (s : State) (r t : Nat) : Bool :=
  s.on snapCtrlSnapEn && decide (s.snaps.since < t) && decide ((s.flow r).durable < t)

/-- The update goes on as far as it can: SCANNED, verdict, journal (R159, R160, R374). -/
def upeAdvance (s : State) (r d : Nat) : State :=
  match (s.upe r d).run with
  | none => s
  | some run =>
    match findLive (s.hub r) run.cmd with
    | none => s
    | some l =>
      let (tbl, s) := sliceTable s r
      match tbl[udSlice run.ud]? with
      | none => upeEnd s r d l run stAddressFault none
      | some x =>
        let t := updateStep s r l x
        if run.phase = 2 then
          if reach s r (udSrec run.ud) 320 = .wait then s
          else if reach s r (udSrec run.ud) 320 = .off then upeCommit s r d l run x t stAddressFault
          else match readMem s (acctOf r l) (udSrec run.ud) 320 with
          | (.error k, s) => upeClose s r d l run x t (memStatus k)
          | (.ok rec', s) => if getLe rec' 32 8 < srProducers rec' then s else upePrimed s r d l run x t rec'
        else
          match tabFind t (s.flow r).verds with
          | none => s
          | some v =>
            match v.v with
            | 1 =>
              if x.st ≠ 2 ∨ journalHolds s r t then s
              else upeApply s r d l run x t v
            -- the verdict itself has reopened the slice (R155)
            | 2 => upeEnd s r d l { run with flags := flNonfinite } stOk none
            | _ => upeEnd s r d l run stStepFailed none

/-- The UPE's subnormal path is down where `SUBNORMAL` may keep it so: a command, which always names binary32, waits for it (R356). -/
def upeWakes (s : State) (r d : Nat) : Bool := (s.upe r d).subDown && decide (modeByte s r 10 = 1)

/-- The checks of an update's descriptor (R10, R158, R194): its status, or its slice. -/
def udCheck (s : State) (r : Nat) (ud : List Byte) : Except Nat Slice :=
  let x := (sliceTable s r).1[udSlice ud]?
  if !udOk s r ud x then .error stInvalidField
  else
    match x with
    | none => .error stAddressFault
    | some x =>
      let e := x.bytes / (if x.pw16 then 2 else 4)
      if (udArrays ud e).all (fun p => addrOk s p.1 p.2) && (!udHasRec ud || recPlace s (udSrec ud) 320) then .ok x else .error stAddressFault

/-- The command at the head of the UPE's FIFO waits for the region of its learning rate, which is parked (R350). -/
def lrWaits (s : State) (r : Nat) (l : Live) : Bool :=
  match (readMem s (acctOf r l) (opAddr l.bytes) 128).1 with
  | .ok ud => decide (udLrAddr ud ≠ 0) && decide (reach s r (udLrAddr ud) 4 = .wait)
  | .error _ => false

/-- A command of the UPE's FIFO starts: its checks (R466, R158, R10), and its learning rate, which is read at the start; without it the
command has no work that it can do (R350, R464). -/
def upeStart (s : State) (r d : Nat) (l : Live) : State :=
  let wake := upeWakes s r d
  let s := updLive (fifoDrop s r (300 + d) l.id) r l.id (fun l => { l with started := true })
  let s := s.setUpe r d { s.upe r d with subDown := false }
  let a := opAddr l.bytes
  let c := acctOf r l
  let cyc := if wake then 32 else 0
  let fail := fun (s : State) (st : Nat) => finish s r l { status := st, cycles := cyc }
  if a % 64 ≠ 0 ∨ !inRegion s r a 128 then fail s stAddressFault
  else
    match readMem s c a 128 with
    | (.error e, s) => fail s (memStatus e)
    | (.ok ud, s) =>
      match udCheck s r ud with
      | .error st => fail s st
      | .ok _ =>
        let go := fun (s : State) (ud : List Byte) => upeAdvance (setRun s r d (some { cmd := l.id, ud := ud, cycles := cyc })) r d
        if udLrAddr ud = 0 then go s ud
        else if reach s r (udLrAddr ud) 4 = .off then fail s stAddressFault
        else match readMem s c (udLrAddr ud) 4 with
          | (.error k, s) => fail s (memStatus k)
          | (.ok b, s) => go s (patch ud 0x40 b)

/-- Does an update name a slice that is SCANNED for step `t`? -/
def upeScannedFor (s : State) (r t : Nat) (idx : Nat) : Bool :=
  match (sliceTable s r).1[idx]? with
  | some x => decide (x.st = 2) && decide (tabGet 0 x.idx (s.flow r).scanned = t + 1)
  | none => false

/-- The verdict of step `t` discards its gradients: the updates of that step that the engine holds end (R155 point 3, R160), those that
wait behind another update too (log 22). -/
def upeDiscard (s : State) (r d t : Nat) : State :=
  let s := match (s.upe r d).run with
    | some run => if upeScannedFor s r t (udSlice run.ud) then upeAdvance s r d else s
    | none => s
  let run := (s.upe r d).run
  let s := (fifoOf s r (300 + d)).foldl (fun s id =>
    match findLive (s.hub r) id with
    | none => s
    | some l =>
      match readMem s (acctOf r l) (opAddr l.bytes) 128 with
      | (.ok ud, _) => if upeScannedFor s r t (udSlice ud) then upeStart (setRun s r d none) r d l else s
      | (.error _, _) => s) s
  setRun s r d run

/-- UPE_UPDATE: the engine starts its next command, or goes on with the one in progress. -/
def execUpeUpdate (r : Fin 32) (die : Fin 2) (s : State) : Host.Outcome State Fault Refusal :=
  if !running s r then .next s
  else
    match (s.upe r die).run with
    | some _ => .next (upeAdvance s r die)
    | none =>
      match fifoHead s r (300 + die) with
      | none => .next s
      | some l => .next (if lrWaits s r l then s else upeStart s r die l)

end Sys2Proof.Machine
end

