-- ==== Sys2Proof/Machine/Pannier.lean ====
section
/-! DEFINITION. The pannier (R138-R147): PAN_PUT, PAN_GET, PAN_FREE. -/
namespace Sys2Proof.Machine

/-! ## Descriptor (R140) -/

def pdLayer (b : List Byte) : Nat := getLe b 0 4
def pdSeg (b : List Byte) : Nat := getLe b 4 4
def pdSrc (b : List Byte) : Nat := getLe b 8 8
def pdBytes (b : List Byte) : Nat := getLe b 0x10 8
def pdRprog (b : List Byte) : Nat := getLe b 0x18 8
def pdRprogN (b : List Byte) : Nat := getLe b 0x20 2
def pdAnchor (b : List Byte) : Bool := bitAt (getLe b 0x22 2) 0

/-- Ranges of R140; an anchor is its own segment (log 23). -/
def pdOk (b : List Byte) : Bool :=
  decide (pdBytes b % 64 = 0) && decide (64 ≤ pdBytes b) && decide (pdBytes b ≤ 0x1000000000) && decide (pdRprogN b ≤ 256) &&
  (!pdAnchor b || decide (pdSeg b = pdLayer b))

/-- `MB` of the command. -/
def panMb (l : Live) : Nat := getLe l.bytes 0x30 2

/-! ## The area (R138, R139) -/

/-- The policy in force (R138): 0 RECOMPUTE, 1 SPILL, 2 HALT. `OVERFLOW` is that of the mode entry in force: a switch of mode shows at the
next put (R147). -/
def panPolicy (s : State) (r : Nat) : Nat :=
  let o := modeField (secOf s 5) (s.get modeCtrlCurMode) 11 1
  if o ≠ 0 then o - 1 else ((stageEntry (secOf s 4) (secOf s 8) r).map (fun e => getLe e 1 1)).getD 0

def spillPeer (s : State) (r : Nat) : Nat := ((stageEntry (secOf s 4) (secOf s 8) r).map (fun e => getLe e 2 2)).getD 0

def panSize (n : Nat) : Nat := alignUp n 4096

/-- Ranges that stored entries occupy: offset and size. -/
def storedRanges (l : List PanEntry) : List (Nat × Nat) :=
  l.filterMap (fun e => match e.st with | .stored o => some (o, panSize e.bytes) | _ => none)

/-- Ranges of a spill peer's space in use, by the entries of every pannier and the put in progress of each (R141). -/
def spilledRanges (s : State) (peer : Nat) : List (Nat × Nat) :=
  (List.range 32).flatMap (fun r => ((s.pan r).entries ++ ((s.pan r).run.bind (·.entry)).toList).filterMap (fun e =>
    match e.st with | .spilled p a => if p = peer then some (a, panSize e.bytes) else none | _ => none))

def occupancy (l : List PanEntry) : Nat := ((storedRanges l).map (·.2)).sum

/-- The lowest place of `n` bytes in `[lo, hi)` free of the ranges in use. -/
def firstFit (lo hi n : Nat) (used : List (Nat × Nat)) : Option Nat :=
  let ok := fun c => decide (lo ≤ c) && decide (c + n ≤ hi) && used.all (fun u => !overlaps c n u.1 u.2)
  ((lo :: used.map (fun u => u.1 + u.2)).filter ok).foldl (fun b c => match b with | none => some c | some x => some (min x c)) none

/-- A free range of the pannier area. -/
def panPlace (s : State) (r n : Nat) (extra : List (Nat × Nat)) : Option Nat :=
  firstFit (stepPage - s.get (panBudgetBudget r)) stepPage (panSize n) (storedRanges (s.pan r).entries ++ extra)

/-- Where an entry of `n` bytes fits now (R142). -/
def panFits (s : State) (r n : Nat) : Option Nat :=
  let l := (s.pan r).entries
  if l.length < 4096 ∧ occupancy l + panSize n ≤ s.get (panBudgetBudget r) then panPlace s r n [] else none

def panFind (s : State) (r layer mb : Nat) : Option PanEntry := (s.pan r).entries.find? (fun e => decide (e.layer = layer ∧ e.mb = mb))

/-- The live anchor that an entry binds to (R142). -/
def panAnchorOf (s : State) (r seg mb : Nat) : Option PanEntry :=
  (s.pan r).entries.find? (fun e => decide (e.layer = seg ∧ e.mb = mb) && e.anchor)

/-- The entries of a pannier; the range given up by a cut is free again once nothing is stored (R147). -/
def setEntries (s : State) (r : Nat) (l : List PanEntry) : State :=
  let p := s.pan r
  s.setPan r { p with entries := l, reservedLo := if occupancy l = 0 then none else p.reservedLo }

def panDel (s : State) (r layer mb : Nat) : State :=
  setEntries s r ((s.pan r).entries.filter (fun e => !decide (e.layer = layer ∧ e.mb = mb)))

def updPanRun (s : State) (r : Nat) (f : PanRun → PanRun) : State := s.setPan r { s.pan r with run := (s.pan r).run.map f }

/-- The command in progress ends. -/
def panEnd (s : State) (r : Nat) (l : Live) (res : Res) : State := finish (s.setPan r { s.pan r with run := none }) r l res

/-- The descriptor of a transfer of the pannier engine: `BARRIER` set (R232). -/
def panXferDesc (dop peer dst : Nat) : List Byte :=
  [BitVec.ofNat 8 dop, 1, 0, 0, 0, 0] ++ natLe 2 peer ++ List.replicate 24 0 ++ natLe 8 dst ++ List.replicate 24 0

/-- The command in progress moves `n` bytes on the pannier channel (R141, R232): opcode, peer, the address of its list's one piece, `DST`.
The command goes on where the transfer ends. -/
def panMove (s : State) (r : Nat) (run : PanRun) (dop peer piece dst n : Nat) : State :=
  let x : Xfer := {
    id := s.nextTag, job := { addr := 0, cmd := some run.cmd, pan := true }, desc := panXferDesc dop peer dst,
    list := [{ off := 0, addr := piece, len := n }], total := n }
  let (rd, wr) := extentsOf x.desc x.list n []
  -- checks 6 and 7 of R239
  let st := if !(rd ++ wr).all (fun e => dmaOk s e.1 e.2) then stAddressFault
    else if rd.any (fun a => wr.any (fun b => overlaps a.1 a.2 b.1 b.2)) then stDmaOverlap else stOk
  let s := { s with nextTag := s.nextTag + 1 }
  if st ≠ stOk then
    (s.bump (chStatusErrCount r panChannel) 1).setPan r { s.pan r with run := some { run with done := some { status := st, cycles := 33 } } }
  else (s.setPan r { s.pan r with run := some run }).setChan r panChannel { s.chan r panChannel with xfer := some x }

/-- The descriptor of a pannier command (R466, R140): its bytes, or a status. -/
def panDesc (s : State) (r : Nat) (l : Live) : Except Nat (List Byte) × State :=
  let a := opAddr l.bytes
  if a % 64 ≠ 0 ∨ !inRegion s r a 64 then (.error stAddressFault, s)
  else match readMem s (acctOf r l) a 64 with
    | (.error e, s) => (.error (memStatus e), s)
    | (.ok b, s) => if pdOk b then (.ok b, s) else (.error stInvalidField, s)

/-- The next pannier command of an opcode, where the engine is free to start it. -/
def panTurn (s : State) (r op : Nat) : Option Live :=
  if running s r && (s.pan r).run.isNone then (fifoHead s r 310).filter (fun l => decide (cmdOpcode l.bytes = op)) else none

def panStarted (s : State) (r : Nat) (l : Live) : State := updLive (fifoPop s r 310) r l.id (fun l => { l with started := true })

/-! ## PAN_PUT -/

def panEntryOf (b : List Byte) (mb : Nat) (st : PanSt) : PanEntry :=
  { layer := pdLayer b, mb := mb, seg := pdSeg b, bytes := pdBytes b, st := st, anchor := pdAnchor b, rprog := pdRprog b, rprogN := pdRprogN b,
    anchorPatch := getLe b 0x28 8, destPatch := getLe b 0x30 8 }

/-- The put in progress, whose entry goes live as its bytes have been moved. -/
def panPutRun (l : Live) (b : List Byte) (st : PanSt) : PanRun :=
  { cmd := l.id, pd := b, mb := panMb l, entry := some (panEntryOf b (panMb l) st) }

/-- The entry is stored at an offset (R142). -/
def panStore (s : State) (r : Nat) (l : Live) (b : List Byte) (off : Nat) : State :=
  panMove s r (panPutRun l b (.stored off)) 0 0 (pdSrc b) (stackBase r + off) (pdBytes b)

/-- The put ends `OK` with its entry live. -/
def panPutDone (s : State) (r : Nat) (l : Live) (e : PanEntry) (res : Res) : State :=
  let s := setEntries s r ((s.pan r).entries ++ [e])
  match e.st with
  | .spilled _ _ => panEnd (s.bump (panCountsSpilled r) 1) r l { res with flags := flagsOr res.flags flSpilled }
  | _ => panEnd s r l res

/-- An entry that RECOMPUTE may evict: stored, no anchor, and to be rebuilt from a live anchor (log 23). -/
def evictable (s : State) (r : Nat) (e : PanEntry) : Bool :=
  !e.anchor && (match e.st with | .stored _ => true | _ => false) && decide (e.rprogN ≠ 0) && (panAnchorOf s r e.seg e.mb).isSome

/-- Evict newest first until the anchor fits (R143); none where no evictable entry remains. -/
def evictFor (s : State) (r n : Nat) : Nat → Option Nat × State
  | 0 => (panFits s r n, s)
  | fuel + 1 =>
    match panFits s r n with
    | some o => (some o, s)
    | none =>
      let l := (s.pan r).entries
      match lastIdx (evictable s r) l with
      | none => (none, s)
      | some i => evictFor ((setEntries s r (l.modify i (fun e => { e with st := .dropped }))).bump (panRecompEvicted r) 1) r n fuel

/-- An entry that does not fit (R143, R144). -/
def panOverflow (s : State) (r : Nat) (l : Live) (b : List Byte) : State :=
  let full := decide (4096 ≤ (s.pan r).entries.length)
  match panPolicy s r with
  | 0 =>
    if pdAnchor b then
      match evictFor s r (pdBytes b) (s.pan r).entries.length with
      | (some o, s) => panStore s r l b o
      | (none, s) => panEnd s r l { status := stPanExhausted }
    else if full ∨ pdRprogN b = 0 ∨ (panAnchorOf s r (pdSeg b) (panMb l)).isNone then panEnd s r l { status := stPanExhausted }
    else
      panEnd ((setEntries s r ((s.pan r).entries ++ [panEntryOf b (panMb l) .dropped])).bump (panCountsDropped r) 1) r l {}
  | 1 =>
    let p := spillPeer s r
    let lo := Config.spillBase p
    match firstFit lo (lo + Config.spillBytes p) (panSize (pdBytes b)) (spilledRanges s p) with
    | none => panEnd s r l { status := stPanExhausted }
    | some a =>
      if full then panEnd s r l { status := stPanExhausted }
      else if !peerUsable s p then panEnd s r l { status := stDmaPeerInvalid }
      else panMove s r (panPutRun l b (.spilled p a)) 2 p (pdSrc b) a (pdBytes b)
  | _ =>
    let s := raiseErr (s.put (panStatusHalted r) 1) 0x0606 1 r 0 (some l.step) (pdLayer b) (panMb l)
    panEnd s r l { status := stPanFull }

/-! ## PAN_GET -/

/-- `FREE` and `DST`. -/
def panFreeSet (l : Live) : Bool := bitAt (getLe l.bytes 0x32 2) 0
def panDst (l : Live) : Nat := getLe l.bytes 0x38 8

/-- A get ends `OK`: with `FREE` its entry goes (R145). -/
def panGot (s : State) (r : Nat) (l : Live) (layer : Nat) (res : Res) : State :=
  panEnd (if panFreeSet l then panDel s r layer (panMb l) else s) r l res

/-- Opcodes that no recompute list may hold (R145). -/
def listBarred (b : List Byte) : Bool := [0x03, 0x04, 0x50, 0x51, 0x52].contains (cmdOpcode b)

/-- The recompute list goes on: the end of the command that ran, the next one (R145). -/
def panList (s : State) (r : Nat) (l : Live) (run : PanRun) : State :=
  match run.sub with
  | some id =>
    match subEnd s r id with
    | none => s
    | some x =>
      let s := clearSub s r id
      let res := { run.res with flags := flagsOr run.res.flags x.flags, bytes := run.res.bytes + x.bytes, cycles := run.res.cycles + x.cycles }
      if x.status ≠ stOk then panEnd s r l { res with status := x.status }
      else updPanRun s r (fun p => { p with sub := none, res := res })
  | none =>
    match run.list with
    | [] =>
      panGot (s.bump (panRecompRecomputed r) 1) r l (pdLayer run.pd) { run.res with flags := flagsOr run.res.flags flRecomputed }
    | b :: rest =>
      match dispatchCheck s r b with
      | some st => panEnd s r l { run.res with status := st }
      | none =>
        if !hasRoom s r b then s
        else
          let (id, s) := submitSub s r l b
          let s := s.updHub r (fun h => { h with fifo := tabPut (unitKey b) (tabGet [] (unitKey b) h.fifo ++ [id]) h.fifo })
          updPanRun s r (fun p => { p with sub := some id, list := rest })

/-- The anchor's data stands at `a`: the patches are written, then the list is read and checked (R145). -/
def panPatch (s : State) (r : Nat) (l : Live) (e : PanEntry) (a : Nat) : State :=
  let c := acctOf r l
  match writeMem s c e.anchorPatch (natLe 8 a) with
  | (some x, s) => panEnd s r l { status := memStatus x }
  | (none, s) =>
    match writeMem s c e.destPatch (natLe 8 (panDst l)) with
    | (some x, s) => panEnd s r l { status := memStatus x }
    | (none, s) =>
      match readMem s c e.rprog (64 * e.rprogN) with
      | (.error x, s) => panEnd s r l { status := memStatus x }
      | (.ok b, s) =>
        let list := entriesAt b 0 64 e.rprogN
        if list.any listBarred then panEnd s r l { status := stInvalidField }
        else updPanRun s r (fun p => { p with listed := true, list := list })

/-- A DROPPED entry is rebuilt from its anchor; a spilled anchor is read back first, to a free range of the area (log 23). -/
def panRecompute (s : State) (r : Nat) (l : Live) (run : PanRun) (e : PanEntry) : State :=
  match panAnchorOf s r e.seg e.mb with
  | none => panEnd s r l { status := stPanNoEntry }
  | some a =>
    match a.st with
    | .stored o => panPatch (s.setPan r { s.pan r with run := some run }) r l e (stackBase r + o)
    | .dropped => panEnd s r l { status := stPanNoEntry }
    | .spilled p addr =>
      match panPlace s r a.bytes [] with
      | none => panEnd s r l { status := stPanExhausted }
      | some o =>
        if !peerUsable s p then panEnd s r l { status := stDmaPeerInvalid }
        else panMove s r { run with back := some (o, a.bytes), entry := some e } 3 p (stackBase r + o) addr a.bytes

/-- A get starts (R145). -/
def panGetStart (s : State) (r : Nat) (l : Live) : State :=
  match panDesc (panStarted s r l) r l with
  | (.error st, s) => panEnd s r l { status := st }
  | (.ok b, s) =>
    match panFind s r (pdLayer b) (panMb l) with
    | none => panEnd s r l { status := stPanNoEntry }
    | some e =>
      if !inRegion s r (panDst l) e.bytes then panEnd s r l { status := stAddressFault }
      else
        let run : PanRun := { cmd := l.id, pd := b, mb := panMb l }
        match e.st with
        | .stored o => panMove s r run 0 0 (stackBase r + o) (panDst l) e.bytes
        | .spilled p a =>
          if !peerUsable s p then panEnd s r l { status := stDmaPeerInvalid }
          else panMove s r { run with res := { flags := flSpilled } } 3 p (panDst l) a e.bytes
        | .dropped => panRecompute s r l run e

/-! ## The command in progress goes on -/

/-- The transfer of the command in progress has ended with `x`: its status ends the command, or the command takes its next step. -/
def panMoved (s : State) (r : Nat) (l : Live) (run : PanRun) (x : Res) : State :=
  let s := updPanRun s r (fun p => { p with done := none })
  if x.status ≠ stOk then panEnd s r l { status := x.status, cycles := x.cycles, bytes := x.bytes }
  else
    let res := { run.res with flags := flagsOr run.res.flags x.flags, bytes := run.res.bytes + x.bytes, cycles := run.res.cycles + x.cycles }
    match run.back, run.entry with
    | some (o, _), some e => panPatch (updPanRun s r (fun p => { p with res := res })) r l e (stackBase r + o)
    | none, some e => panPutDone s r l e res
    | _, none => panGot s r l (pdLayer run.pd) res

/-- The command in progress under an opcode: its transfer has ended, or its list goes on. -/
def panGo (s : State) (r op : Nat) (run : PanRun) : State :=
  match findLive (s.hub r) run.cmd with
  | none => s
  | some l =>
    if !running s r || !decide (cmdOpcode l.bytes = op) then s
    else match run.done with
      | some x => panMoved s r l run x
      | none => if run.listed then panList s r l run else s

/-- PAN_PUT: the put in progress goes on, or the next one starts; one that breaks the all-forward order is refused before any other test and fails its step (R277). -/
def execPanPut (r : Fin 32) (s : State) : Host.Outcome State Fault Refusal :=
  match (s.pan r).run, panTurn s r 0x50 with
  | some run, _ => .next (panGo s r 0x50 run)
  | none, none => .next s
  | none, some l =>
    if l.barred then .next (panEnd (faultStep ((panStarted s r l).bump mapStatusAfRejects 1) r l.step) r l { status := stInvalidField })
    else match panDesc (panStarted s r l) r l with
    | (.error st, s) => .next (panEnd s r l { status := st })
    | (.ok b, s) =>
      if !inRegion s r (pdSrc b) (pdBytes b) then .next (panEnd s r l { status := stAddressFault })
      else if (panFind s r (pdLayer b) (panMb l)).isSome then .next (panEnd s r l { status := stPanKeyLive })
      else match panFits s r (pdBytes b) with
        | some o => .next (panStore s r l b o)
        | none => .next (panOverflow s r l b)

/-- PAN_GET: the get in progress goes on, or the next one starts. -/
def execPanGet (r : Fin 32) (s : State) : Host.Outcome State Fault Refusal :=
  match (s.pan r).run, panTurn s r 0x51 with
  | some run, _ => .next (panGo s r 0x51 run)
  | none, some l => .next (panGetStart s r l)
  | none, none => .next s

/-! ## PAN_FREE -/

/-- Does an anchor have a live DROPPED dependant (R146)? -/
def dependants (s : State) (r : Nat) (e : PanEntry) : Bool :=
  e.anchor && (s.pan r).entries.any (fun x => !x.anchor && decide (x.seg = e.layer ∧ x.mb = e.mb) && (match x.st with | .dropped => true | _ => false))

/-- PAN_FREE. -/
def execPanFree (r : Fin 32) (s : State) : Host.Outcome State Fault Refusal :=
  match panTurn s r 0x52 with
  | none => .next s
  | some l =>
    match panDesc (panStarted s r l) r l with
    | (.error st, s) => .next (panEnd s r l { status := st })
    | (.ok b, s) =>
      match panFind s r (pdLayer b) (panMb l) with
      | none => .next (panEnd s r l { status := stPanNoEntry })
      | some e =>
        if dependants s r e then .next (panEnd s r l { status := stPanAnchorBusy })
        else .next (panEnd (panDel s r e.layer e.mb) r l {})

end Sys2Proof.Machine
end

