-- ==== Sys2Proof/Machine/Pred.lean ====
section
/-! DEFINITION. The predictor unit (R175-R183): PRED_RUN, PRED_EXPAND, and the fold of a predictor record at a verdict. -/
namespace Sys2Proof.Machine

/-! ## Run descriptor and record (R175, R176) -/

def prRec (b : List Byte) : Nat := getLe b 0 8
def prScore (b : List Byte) : Nat := getLe b 8 8
def prList (b : List Byte) : Nat := getLe b 0x10 8
def prMxdFull (b : List Byte) : Nat := getLe b 0x18 8
def prVdFull (b : List Byte) : Nat := getLe b 0x20 8
def prMxdShadow (b : List Byte) : Nat := getLe b 0x28 8
def prVdShadow (b : List Byte) : Nat := getLe b 0x30 8
def prLabel (b : List Byte) : Nat := getLe b 0x38 8
def prKPatch (b : List Byte) : Nat := getLe b 0x40 8
def prSg (b : List Byte) : Nat := getLe b 0x48 8
def prSgN (b : List Byte) : Nat := getLe b 0x50 8
def prBiasSrc (b : List Byte) : Nat := getLe b 0x68 8
def prBiasCmp (b : List Byte) : Nat := getLe b 0x70 8

/-- `USE_LIST` (R180). -/
def prUseList (l : Live) : Bool := bitAt (getLe l.bytes 0x31 1) 0

/-- The stream number under which a `PRED_RUN` submits its pairs: no queue-fed command of the queue carries it while it runs (log 24). -/
def predStream : Nat := 0xFFFF

/-- A total order of sign-magnitude patterns of width `w` with `inf` the pattern of infinity: NaN highest, the zeros equal (R177). -/
def scoreKey (w inf x : Nat) : Int :=
  let m := x % 2 ^ (w - 1)
  if inf < m then (2 ^ w : Nat) else if bitAt x (w - 1) then -(m : Int) else (m : Int)

/-- Greatest score of each of `n` columns over rows of PW16 scores. -/
def columnScores (n : Nat) (rows : List (List Nat)) : List Int :=
  (List.range n).map (fun j => (rows.map (fun r => scoreKey 16 0x7F80 (r.getD j 0))).foldl max (-(2 ^ 20 : Nat)))

/-- The `k` greatest columns, the lower index first on a tie, ascending. -/
def topColumns (k : Nat) (sc : List Int) : List Nat :=
  let order := (sc.zipIdx.map (fun (v, j) => (v, j))).mergeSort (fun a b => decide (b.1 < a.1) || (decide (a.1 = b.1) && decide (a.2 ≤ b.2)))
  ((order.take k).map (·.2)).foldl (fun l j => setIns j l) []

/-- A value exceeds the margin; a NaN does not. -/
def exceeds (x margin : Num) : Bool := !isNan x && !isNan margin && decide (cmpNum x margin = .gt)

/-- Indices as bytes. -/
def indexBytes (l : List Nat) : List Byte := l.flatMap (natLe 4)

/-! ## The run -/

def updPred (s : State) (r cl : Nat) (f : PredRun → PredRun) : State :=
  s.setCluster r cl { s.cluster r cl with pred := (s.cluster r cl).pred.map f }

/-- What a failed pair left: entries in the queue and still to push, and a discard of them. -/
def dropPredEntries (s : State) (r cl : Nat) : State :=
  let c := s.cluster r cl
  s.setCluster r cl { c with
    tq := c.tq.filter (fun e => decide (e.stream ≠ predStream)), mxe := c.mxe.filter (fun x => decide (x.stream ≠ predStream))
    discard := setDel predStream c.discard }

/-! ## Memory of the unit (R186) -/

/-- May the predictor unit of a cluster touch the range: its own scratchpad, or no scratchpad at all? -/
def predAt (r cl a n : Nat) : Bool := inPad r cl a n || !overlaps a n spBase (llmBase - spBase)

def predRead (s : State) (c : Acct) (r cl a n : Nat) : Except MemErr (List Byte) × State :=
  if n = 0 then (.ok [], s)
  else if !predAt r cl a n || decide (reach s r a n = .off) then (.error .fault, s) else readMem s c a n

def predWrite (s : State) (c : Acct) (r cl a : Nat) (b : List Byte) : Option MemErr × State :=
  if b.isEmpty then (none, s)
  else if !predAt r cl a b.length || decide (reach s r a b.length = .off) then (some .fault, s) else writeMem s c a b

/-- Writes in order, until one fails. -/
def predWrites (s : State) (c : Acct) (r cl : Nat) : List (Nat × List Byte) → Option MemErr × State
  | [] => (none, s)
  | (a, b) :: t =>
    match predWrite s c r cl a b with
    | (none, s) => predWrites s c r cl t
    | e => e

/-- Does an address that the run descriptor names lie in a parked region? The unit then waits (R350, R464). -/
def predHeld (s : State) (r : Nat) (prd : List Byte) : Bool :=
  ([prScore, prList, prLabel, prKPatch, prSg, prSgN, prBiasSrc, prBiasCmp].map (fun f => f prd)).any (fun a =>
    decide (a ≠ 0) && decide (reach s r a 1 = .wait))

/-- The `PRED_RUN` completes. -/
def predEnd (s : State) (r cl : Nat) (l : Live) (p : PredRun) (status : Nat) : State :=
  let s := dropPredEntries s r cl
  let s := s.setCluster r cl { s.cluster r cl with pred := none }
  finish s r l { p.res with status := status, work := p.steps, flags := if p.miss.isEmpty then p.res.flags else flagsOr p.res.flags flPredMiss }

/-- An error of memory ends it. -/
def predStop (s : State) (r cl : Nat) (l : Live) (p : PredRun) (e : MemErr) : State := predEnd s r cl l p (memStatus e)

/-- Submit an MXE descriptor over columns of the list and its epilogue (R177, R178): the product's entries are pushed one by one (R107), and
the epilogue takes them. A product that fails ends the `PRED_RUN` with its status (R179); one with `OUT` = 1, which gives the epilogue no
entry, ends it with the invalid-field status and holds no tile (DESIGN CHOICE, log 63). A tile held before is void (R98). -/
def predPair (s : State) (r cl : Nat) (l : Live) (p : PredRun) (mxd vd : Nat) (selAddr selN : Nat) (inv : Bool) (adj : List Byte → List Byte) : State :=
  let (o, s) := mxeCommand s (acctOf r l) r cl 0x22 0 predStream mxd
    (fun d => { d with selAddr := selAddr, selN := selN, selInv := inv })
  let st := o.stats.foldl statOr {}
  let s := if o.held.isSome then xstat s r cl st else s
  let s := s.setCluster r cl { s.cluster r cl with held := none }
  let p := { p with res := Res.withStat { p.res with
    flags := flagsOr p.res.flags (flagsOr o.flags (statFlags {} (o.entries.any (·.nonfinite)))), cycles := p.res.cycles + o.cycles } st }
  if o.status ≠ stOk then predEnd s r cl l p o.status
  else if o.held.isSome then predEnd s r cl l p stInvalidField
  else
    let drain := if o.entries.isEmpty then [terminator predStream stOk 0 o.flags] else o.entries
    let s := s.setCluster r cl ((s.cluster r cl).addRun
      { cmd := none, stream := predStream, drain := drain, stats := if o.entries.isEmpty then [] else o.stats, res := {} })
    let cmd := [BitVec.ofNat 8 0x30] ++ List.replicate 0x27 0 ++ natLe 8 vd ++ [BitVec.ofNat 8 (cl / 48 * 64 + cl % 48), 0] ++ natLe 2 predStream
    let (id, s) := submitSub s r l cmd
    let s := updPred s r cl (fun _ => { p with sub := some id })
    match findLive (s.hub r) id with
    | some x => veBegin s r cl x adj
    | none => s

/-- A stream's base moved on by `k` elements. -/
def moveBase (o k : Nat) (b : List Byte) : List Byte :=
  let t := strmOf (slice b o 32)
  if t.base = 0 then b else patch b o (natLe 8 (t.base + k * kindBits t.kind / 8))

/-- `IN1` moved (the shadow pass). -/
def adjShadow (k : Nat) (b : List Byte) : List Byte := moveBase 0x20 k b
/-- Every stream indexed by column moved (the make-up pass). -/
def adjMakeUp (k : Nat) (b : List Byte) : List Byte := moveBase 0xA0 k (moveBase 0x80 k (moveBase 0x20 k b))

/-- Bias elements of the columns named, to `BIAS_CMP` from position `pos` on. -/
def gatherBias (s : State) (c : Acct) (r cl : Nat) (prd vd : List Byte) (n pos : Nat) (cols : List Nat) : Option MemErr × State :=
  let t := (vdOf vd).inp 1
  if prBiasSrc prd = 0 ∨ !t.used ∨ cols.isEmpty then (none, s)
  else
    match predRead s c r cl (prBiasSrc prd) ((n * kindBits t.kind + 7) / 8) with
    | (.error e, s) => (some e, s)
    | (.ok b, s) =>
      let v := unpackKind t.kind n b
      predWrite s c r cl (prBiasCmp prd + pos * kindBits t.kind / 8) (packKind t.kind (cols.map (fun j => v.getD j 0)))

/-- Columns outside `l`. -/
def others (n : Nat) (l : List Nat) : List Nat := (List.range n).filter (fun j => !l.contains j)

/-- `M` and `N` of the full-width product, and its epilogue, as they stand. -/
def predShape (s : State) (prd : List Byte) : Nat × Nat × List Byte :=
  let d := mxdOf (tabRange 0 s.mem (prMxdFull prd) 128)
  (d.m, d.n, tabRange 0 s.mem (prVdFull prd) 256)

/-- `MARGIN` of the record. -/
def prMargin (s : State) (c : Acct) (prd : List Byte) : Except MemErr Num × State :=
  match readNat s c (prRec prd + 8) 4 with
  | (.ok v, s) => (.ok (f32 v), s)
  | (.error e, s) => (.error e, s)

/-- The first `n` elements of rows 0 .. of an output stream, each row where the epilogue wrote it (R114, R126): patterns. -/
def outRows (s : State) (c : Acct) (t : Strm) (n : Nat) : List Nat → Except MemErr (List (List Nat)) × State
  | [] => (.ok [], s)
  | i :: rest =>
    let (j, k) := rowPos t i
    match readMem s c (t.rowAddr j k) ((n * kindBits t.kind + 7) / 8) with
    | (.error e, s) => (.error e, s)
    | (.ok b, s) =>
      match outRows s c t n rest with
      | (.ok l, s) => (.ok (unpackKind t.kind n b :: l), s)
      | r => r

/-- The shadow values of each row, by compact position. -/
def shadowRows (s : State) (c : Acct) (prd : List Byte) (m n : Nat) : Except MemErr (List (List Nat)) × State :=
  outRows s c (vdOf (tabRange 0 s.mem (prVdShadow prd) 256)).out0 n (List.range m)

/-- The kept pre-activations of each row, by position in F. -/
def keptRows (s : State) (c : Acct) (vd : List Byte) (m n : Nat) : Except MemErr (List (List Num)) × State :=
  let t := (vdOf vd).out1
  match outRows s c t n (List.range m) with
  | (.ok l, s) => (.ok (l.map (fun row => row.map (fun x => f32 (toCompute ar32 t.kind x).1))), s)
  | (.error e, s) => (.error e, s)

/-- The label rows: bit `j` of row `r` (R177). -/
def labelBytes (m n : Nat) (f : List Nat) (kept : List (List Num)) (shadow : List (List Nat)) (sIdx : List Nat) (margin : Num) : List Byte :=
  (List.range m).flatMap (fun r => packKind .bit ((List.range n).map (fun j =>
    let x := if f.contains j then ((kept[r]?).getD []).getD (f.idxOf j) (.fin false 0 0)
      else decNum .pw16 (((shadow[r]?).getD []).getD ((others n sIdx).idxOf j) 0)
    b2n (exceeds x margin))))

/-- Steps 6 and 7 of R177. -/
def predFinal (s : State) (r cl : Nat) (l : Live) (p : PredRun) : State :=
  let c := acctOf r l
  let (m, n, vd) := predShape s p.prd
  let sg := p.f.flatMap (fun j => natLe 8 (getLe p.prd 0x58 8 + j * getLe p.prd 0x60 4) ++ natLe 4 (getLe p.prd 0x60 4) ++ natLe 4 0)
  let wr := (if prKPatch p.prd = 0 then [] else [(prKPatch p.prd, natLe 4 p.f.length)]) ++
    (if prSg p.prd = 0 then [] else [(prSg p.prd, sg)]) ++ (if prSgN p.prd = 0 ∨ prSg p.prd = 0 then [] else [(prSgN p.prd, natLe 4 p.f.length)])
  match predWrites s c r cl wr with
  | (some e, s) => predStop s r cl l p e
  | (none, s) =>
    let (e, s) :=
      if prLabel p.prd = 0 then (none, s)
      else
        match prMargin s c p.prd with
        | (.error e, s) => (some e, s)
        | (.ok margin, s) =>
        match keptRows s c vd m p.f.length with
        | (.error e, s) => (some e, s)
        | (.ok kept, s) =>
          match (if p.full then (.ok [], s) else shadowRows s c p.prd m (n - p.k)) with
          | (.error e, s) => (some e, s)
          | (.ok sh, s) => predWrite s c r cl (prLabel p.prd) (labelBytes m n p.f kept sh (p.f.take p.k) margin)
    match e with
    | some e => predStop s r cl l p e
    | none =>
      let p := { p with steps := 6 }
      if p.full then predEnd s r cl l { p with steps := 7 } stOk
      else
        let (e0, s) := doAtomic s c 2 (prRec p.prd + 0x28 + 8 * (p.t % 2)) p.miss.length 0
        let (e1, s) := doAtomic s c 2 (prRec p.prd + 0x38 + 8 * (p.t % 2)) (n - p.k) 0
        -- both adds are made; the first that fails gives the status (R194, R464)
        let st := if atomicStatus e0 = stOk then atomicStatus e1 else atomicStatus e0
        predEnd s r cl l (if st = stOk then { p with steps := 7 } else p) st

/-- The miss test of R178, and the make-up pass where there are misses. -/
def predMiss (s : State) (r cl : Nat) (l : Live) (p : PredRun) : State :=
  let c := acctOf r l
  let (m, n, vd) := predShape s p.prd
  match shadowRows s c p.prd m (n - p.k) with
  | (.error e, s) => predStop s r cl l p e
  | (.ok sh, s) =>
    match prMargin s c p.prd with
    | (.error e, s) => predStop s r cl l p e
    | (.ok margin, s) =>
    let bad := fun (x : Nat) => isNan (decNum .pw16 x) || exceeds (decNum .pw16 x) margin
    let miss := ((others n p.f).zipIdx.filter (fun (_, i) => sh.any (fun row => bad (row.getD i 0)))).map (·.1)
    if miss.isEmpty then predFinal s r cl l { p with steps := 5 }
    else
      let p := { p with stage := 3, miss := miss, f := p.f ++ miss }
      let s := s.bump (predStatPredMissRuns r) 1
      match predWrite s c r cl (prList p.prd + 4 * p.k) (indexBytes miss) with
      | (some e, s) => predStop s r cl l p e
      | (none, s) =>
        match gatherBias s c r cl p.prd vd n p.k miss with
        | (some e, s) => predStop s r cl l p e
        | (none, s) => predPair s r cl l p (prMxdFull p.prd) (prVdFull p.prd) (prList p.prd + 4 * p.k) miss.length false (adjMakeUp p.k)

/-- The longest strictly ascending start of a list. -/
def ascendingRun : List Nat → List Nat
  | a :: b :: t => if a < b then a :: ascendingRun (b :: t) else [a]
  | l => l

/-- `USE_LIST`: the next ascending run of F is submitted, offset by the `p.k` columns before it: S first, then its misses, as in the forward
pass that F comes from (R178, R180). -/
def predListed (s : State) (r cl : Nat) (l : Live) (p : PredRun) : State :=
  let n := (ascendingRun (p.f.drop p.k)).length
  predPair s r cl l { p with stage := 1, k := p.k + n } (prMxdFull p.prd) (prVdFull p.prd) (prList p.prd + 4 * p.k) n false
    (if p.k = 0 then id else adjMakeUp p.k)

/-- A submitted pair has ended, and with it a step of R177: the next step; a struck run ends here and reports the steps completed (R179,
R229). -/
def predNext (s : State) (r cl : Nat) (l : Live) (p : PredRun) : State :=
  match p.sub.bind (subEnd s r) with
  | none => s
  | some x =>
    let s := clearSub s r (p.sub.getD 0)
    let p := { p with sub := none, res := { p.res with
      flags := flagsOr p.res.flags x.flags, cycles := p.res.cycles + x.cycles, bytes := p.res.bytes + x.bytes } }
    let step := match p.stage with
      | 1 => if p.useList ∧ p.k < p.f.length then 2 else 3
      | 2 => 4
      | _ => 5
    let p := if x.status = stOk then { p with steps := step } else p
    if l.struck ∨ x.status ≠ stOk then predEnd s r cl l p x.status
    else match p.stage with
      | 1 =>
        if p.useList then (if p.k < p.f.length then predListed s r cl l p else predEnd s r cl l p stOk)
        else if p.full then predFinal s r cl l { p with steps := 5 }
        else predPair s r cl l { p with stage := 2 } (prMxdShadow p.prd) (prVdShadow p.prd) (prList p.prd) p.k true (adjShadow p.k)
      | 2 => predMiss s r cl l p
      | _ => predFinal s r cl l p

/-- Steps 1 to 3: F or S in hand. -/
def predFirst (s : State) (r cl : Nat) (l : Live) (p : PredRun) (n : Nat) (vd : List Byte) : State :=
  let c := acctOf r l
  match (if p.useList then (none, s) else predWrite s c r cl (prList p.prd) (indexBytes p.f)) with
  | (some e, s) => predStop s r cl l p e
  | (none, s) =>
    match gatherBias s c r cl p.prd vd n 0 p.f with
    | (some e, s) => predStop s r cl l p e
    | (none, s) =>
      match (if p.full ∨ p.useList then (none, s) else gatherBias s c r cl p.prd vd n p.k (others n p.f)) with
      | (some e, s) => predStop s r cl l p e
      | (none, s) =>
        if p.useList then predListed s r cl l { p with steps := 2 }
        else predPair s r cl l { p with stage := 1, steps := 2 } (prMxdFull p.prd) (prVdFull p.prd) (prList p.prd) p.f.length false id

/-- R176's own conditions on the descriptors that an engaged run submits. -/
def shadowOk (mxd vd : List Byte) : Bool :=
  let d := vdOf vd
  decide ((mxdOf mxd).aFmt = 3) && decide ((mxdOf mxd).bFmt = 3) && decide (d.act = 0) && decide (d.out0.fmt = 0)

/-- The features of the run (R177): those of a list handed over, all of a full run, or those the scores choose; the pair of commands that
computes them comes first. -/
def predChoose (s : State) (r cl : Nat) (l : Live) (p : PredRun) (engaged : Bool) (k m n : Nat) (vd : List Byte) : State :=
  let prd := p.prd
  let c := acctOf r l
  if p.useList then
    match predRead s c r cl (prKPatch prd) 4 with
    | (.error e, s) => predStop s r cl l p e
    | (.ok kb, s) =>
      let cnt := leNat kb
      if prKPatch prd = 0 ∨ n < cnt then predEnd s r cl l p stInvalidField
      else
        match predRead s c r cl (prList prd) (4 * cnt) with
        | (.error e, s) => predStop s r cl l p e
        | (.ok b, s) => predFirst s r cl l { p with f := (chunksOf 4 cnt b).map leNat, k := 0 } n vd
  else if !engaged then predFirst s r cl l { p with f := List.range n } n vd
  else if prMxdShadow prd % 64 ≠ 0 ∨ prVdShadow prd % 64 ≠ 0 then predEnd s r cl l p stInvalidField
  else if !inPad r cl (prMxdShadow prd) 128 || !inPad r cl (prVdShadow prd) 256 then predEnd s r cl l p stAddressFault
  else if k = 0 ∨ n ≤ k ∨ !shadowOk (tabRange 0 s.mem (prMxdShadow prd) 128) (tabRange 0 s.mem (prVdShadow prd) 256) then
    predEnd s r cl l p stInvalidField
  else
    match predRead s c r cl (prScore prd) (2 * n * m) with
    | (.error e, s) => predStop s r cl l p e
    | (.ok sb, s) =>
      predFirst s r cl l { p with f := topColumns k (columnScores n ((chunksOf (2 * n) m sb).map (unpackBytes .pw16 n))), k := k } n vd

/-- The command at the front of the unit's FIFO starts (R176, R177, R180, R466). -/
def predStart (s : State) (r cl : Nat) (l : Live) : State :=
  let s := updLive (fifoPop s r (400 + cl)) r l.id (fun l => { l with started := true })
  let c := acctOf r l
  let a := opAddr l.bytes
  let fail := fun (s : State) (st : Nat) => finish s r l { status := st }
  if a % 64 ≠ 0 ∨ !inPad r cl a 128 then fail s stAddressFault
  else
    match readMem s c a 128 with
    | (.error e, s) => fail s (memStatus e)
    | (.ok prd, s) =>
      let use' := prUseList l
      -- a misaligned address inside the descriptor is a field fault (R466)
      if prMxdFull prd % 64 ≠ 0 ∨ prVdFull prd % 64 ≠ 0 ∨ (!use' && (decide (prRec prd % 64 ≠ 0) || decide (prSg prd % 16 ≠ 0))) then fail s stInvalidField
      else if !inPad r cl (prMxdFull prd) 128 || !inPad r cl (prVdFull prd) 256 then fail s stAddressFault
      else if !use' && !inOwnLlm s r (prRec prd) 128 then fail s stAddressFault
      else
        let (m, n, vd) := predShape s prd
        let d := vdOf vd
        match (if use' then (.ok [], s) else readMem s c (prRec prd) 8) with
        | (.error e, s) => fail s (memStatus e)
        | (.ok record, s) =>
        let engaged := !use' && decide (getLe record 0 1 = 1) && decide (modeByte s r 9 = 1)
        let k := getLe record 4 4
        if 65536 < n ∨ n = 0 ∨ m = 0 ∨ (prLabel prd ≠ 0 ∧ !d.keepPre) then fail s stInvalidField
        else
          let p : PredRun := { cmd := l.id, prd := prd, full := !use' && !engaged, useList := use', t := s.get (hubStepCntStep r), k := n }
          predChoose (s.setCluster r cl { s.cluster r cl with pred := some p }) r cl l p engaged k m n vd

/-- The predictor unit's next command of an opcode, where the cluster's engines are free (R179). -/
def predTurn (s : State) (r cl op : Nat) : Option Live :=
  let c := s.cluster r cl
  if running s r && c.pred.isNone then
    (fifoHead s r (400 + cl)).filter (fun l => decide (cmdOpcode l.bytes = op) && (decide (op ≠ 0x60) || (c.mxe.isNone && c.ve.isNone && !primeLock c (primeWaiting s r cl) &&
        -- the terminators of earlier MXE commands enter the queue first (R99)
        c.owed.all (fun e => decide (l.disp < e.1)) && !predHeld s r (tabRange 0 s.mem (opAddr l.bytes) 128))))
  else none

/-- PRED_RUN: the unit starts its next run, or goes on with the one in progress. -/
def execPredRun (r : Fin 32) (cl : Fin 96) (s : State) : Host.Outcome State Fault Refusal :=
  match (s.cluster r cl).pred with
  | none =>
    match predTurn s r cl 0x60 with
    | none => .next s
    | some l => .next (predStart s r cl l)
  | some p =>
    match findLive (s.hub r) p.cmd with
    | none => .next s
    | some l => if running s r && !predHeld s r p.prd then .next (predNext s r cl l p) else .next s

/-! ## PRED_EXPAND (R183) -/

/-- A dense matrix of `rows` × `cols` codes from a compact one: column `F[i]` (or row `F[i]`) is position `i`, the rest is +0. -/
def expand (byRow : Bool) (rows cols : Nat) (f : List Nat) (src : List Nat) : List Nat :=
  (List.range (rows * cols)).map (fun e =>
    let r := e / cols
    let c := e % cols
    if byRow then (if f.contains r then src.getD (f.idxOf r * cols + c) 0 else 0)
    else (if f.contains c then src.getD (r * f.length + f.idxOf c) 0 else 0))

/-- The ranges that an expand descriptor names: `SRC`, `DST`, `LIST`. -/
def expandRanges (b : List Byte) (w cnt n m : Nat) : List (Nat × Nat) :=
  [(getLe b 0 8, w * m * cnt), (getLe b 8 8, w * m * n), (getLe b 0x10 8, 4 * cnt)].filter (fun e => decide (e.2 ≠ 0))

/-- PRED_EXPAND: the operands may lie in any store but another cluster's scratchpad (R186); a parked region makes the command wait (R350). -/
def execPredExpand (r : Fin 32) (cl : Fin 96) (s : State) : Host.Outcome State Fault Refusal :=
  match predTurn s r cl 0x61 with
  | none => .next s
  | some l =>
    let s0 := s
    let s := updLive (fifoPop s r (400 + cl)) r l.id (fun l => { l with started := true })
    let c := acctOf r l
    let a := opAddr l.bytes
    let fail := fun (s : State) (st : Nat) => (.next (finish s r l { status := st }) : Host.Outcome State Fault Refusal)
    if a % 64 ≠ 0 ∨ !inPad r cl a 64 then fail s stAddressFault
    else
      match readMem s c a 64 with
      | (.error e, s) => fail s (memStatus e)
      | (.ok b, s) =>
        let cnt := getLe b 0x18 4
        let n := getLe b 0x1C 4
        let m := getLe b 0x20 4
        let byRow := decide (getLe b 0x25 1 = 1)
        match fmtOfCode (getLe b 0x24 1) with
        | none => fail s stInvalidField
        | some f =>
          if fmtScaled f ∨ 1 < getLe b 0x25 1 ∨ n < cnt ∨ 65536 < n ∨ n = 0 ∨ m = 0 then fail s stInvalidField
          else
            let w := fmtBits f / 8
            let ranges := expandRanges b w cnt n m
            if ranges.any (fun e => decide (reach s r e.1 e.2 = .wait)) then .next s0
            else if !ranges.all (fun e => addrOk s e.1 e.2 && predAt r cl e.1 e.2 && decide (reach s r e.1 e.2 ≠ .off)) then
              fail s stAddressFault
            else
              match predRead s c r cl (getLe b 0x10 8) (4 * cnt) with
              | (.error e, s) => fail s (memStatus e)
              | (.ok lb, s) =>
                let list := (chunksOf 4 cnt lb).map leNat
                if !list.all (fun j => decide (j < n)) then fail s stInvalidField
                else
                  match predRead s c r cl (getLe b 0 8) (w * m * cnt) with
                  | (.error e, s) => fail s (memStatus e)
                  | (.ok sb, s) =>
                    let (rows, cols) := if byRow then (n, m) else (m, n)
                    match predWrite s c r cl (getLe b 8 8) (packElems f (expand byRow rows cols list (unpackBytes f (m * cnt) sb))) with
                    | (some e, s) => fail s (memStatus e)
                    | (none, s) => .next (finish s r l { bytes := w * m * (cnt + n) })

/-! ## The fold (R181) -/

/-- One predictor record at the verdict of step `t`: 3 is FAIL. -/
def foldPred (s : State) (r t verdict a : Nat) : State :=
  let c := inStep r t
  let p := t % 2
  let put := fun (s : State) (o n v : Nat) => (writeNat s c (a + o) n v).2
  match readMem s c a 128 with
  | (.error _, s) => s
  | (.ok b, s) =>
    let m := getLe b (0x28 + 8 * p) 8
    let i := getLe b (0x38 + 8 * p) 8
    let s := put (put s (0x28 + 8 * p) 8 0) (0x38 + 8 * p) 8 0
    if verdict = 3 then s
    else
      match getLe b 0 1 with
      | 0 =>
        if modeByte s r 9 ≠ 1 then s
        else
          let w := (getLe b 0xC 4 + 2 ^ 32 - 1) % 2 ^ 32
          let s := put s 0xC 4 w
          if w = 0 then put (put (put (put s 0 1 1) 0x10 4 0) 0x18 8 0) 0x20 8 0 else s
      | 1 =>
        let wm := (getLe b 0x18 8 + m) % 2 ^ 64
        let wi := (getLe b 0x20 8 + i) % 2 ^ 64
        let ws := (getLe b 0x10 4 + 1) % 2 ^ 32
        let s := put s 0x48 8 ((getLe b 0x48 8 + m) % 2 ^ 64)
        if ws = 64 then
          let s := put (put (put s 0x10 4 0) 0x18 8 0) 0x20 8 0
          if wi < 50 * wm then
            let s := (put (put s 0 1 2) 0x50 8 t).bump (predStatDisengaged r) 1
            raiseErr s 0x0609 0 r 0 (some t) a wm
          else s
        else put (put (put s 0x10 4 ws) 0x18 8 wm) 0x20 8 wi
      | _ => s

end Sys2Proof.Machine
end

