-- ==== Sys2Proof/Machine/Abort.lean ====
section
/-! DEFINITION. Dispatch (R213, R214), whose refusals the owners of slices hear of (R150); the abort (R227-R230, R248, R109, R179): HUB_ABORT,
and the strike that a drain uses as well (R380). -/
namespace Sys2Proof.Machine

/-! ## Dispatch -/

/-- A contributing VE command ends without its adds before it has started: the owners of the slices that its descriptor names hear of it
(R150). A command with an invalid `TARGET` may have its descriptor anywhere in its region. -/
def tellOwners (s : State) (r : Nat) (l : Live) : State :=
  let a := opAddr l.bytes
  let here := if targetOk (opTarget l.bytes) then inPad r (targetCl (opTarget l.bytes)) a 256 else inRegion s r a 256
  if a % 64 ≠ 0 ∨ !here then s
  else
    match contribStrm (vdOf (tabRange 0 s.mem a 256)) with
    | some t => if t.ok true true && accumPlace s t then (contribRanges s t).foldl (fun s e => sendNotice s r l.step 1 e) s else s
    | none => s

/-- DISPATCH: the next ready queue dispatches its head command. -/
def execDispatch (r : Fin 32) (s : State) : Host.Outcome State Fault Refusal :=
  match (queueTurn (s.hub r).lastQ).findSome? (ready s r) with
  | none => .next s
  | some l =>
    let step := s.get (hubStepCntStep r)
    match dispatchCheck s r l.bytes with
    | some st =>
      -- never dispatched: its step is that of its grant (R214)
      let s := updLive s r l.id (fun l => { l with st := .dispatched, step := step })
      let s := hubTerminator s r l.bytes st
      let s := if cmdOpcode l.bytes = 0x30 then tellOwners s r { l with step := step } else s
      let s := requestRetire s r { l with step := step } { status := st }
      .next (programEnd s r l.q)
    | none =>
      let n := (s.hub r).nextDisp
      let s := consumeWaits s r l.bytes
      let barred := decide (cmdOpcode l.bytes = 0x50) && s.on mapStatusAf && decide ((s.flow r).afFrom ≤ step) && (s.flow r).gets.contains step
      let s := if cmdOpcode l.bytes = 0x51 then s.setFlow r { s.flow r with gets := setIns step (s.flow r).gets } else s
      let s := updLive s r l.id (fun l => { l with st := .dispatched, step := step, disp := n, barred := barred })
      let s := s.updHub r (fun h => { h with nextDisp := n + 1, lastQ := l.q, fresh := h.fresh && decide (l.q < 4) })
      let k := unitKey l.bytes
      let s := s.updHub r (fun h => { h with fifo := tabPut k (tabGet [] k h.fifo ++ [l.id]) h.fifo })
      .next (programEnd s r l.q)

/-! ## Strikes -/

/-- How a strike finds a command. -/
inductive Hit where
  | struck | late
  deriving DecidableEq, Repr

/-- The queue discards a stream (R109): up to and including its first entry marked `LAST`; with none present, the discard goes on. -/
def discardStream (c : Cluster) (stream : Nat) : Cluster :=
  match c.tq.findIdx? (fun e => decide (e.stream = stream) && e.last) with
  | some i => { c with tq := (c.tq.take i).filter (fun e => decide (e.stream ≠ stream)) ++ c.tq.drop (i + 1) }
  | none => { c with tq := c.tq.filter (fun e => decide (e.stream ≠ stream)), discard := setIns stream c.discard }

/-- A range of memory that the predictor unit of a cluster writes takes free values (R179). -/
def freeRange (s : State) (r cl a n : Nat) : State :=
  if a = 0 ∨ !predAt r cl a n then s
  else ((writeMem s (noStep r) a ((List.range n).map (Config.freeByte s.tick))).2).tock

/-- The run of command `id` stops: its terminator is all that it has still to push (R108). -/
def strikeRun (id : Nat) (run : MxeRun) : MxeRun :=
  if run.cmd = some id then { run with drain := [terminator run.stream stAborted run.pushed 0], stats := [] } else run

/-- A command is out of its unit's way and asks to retire `ABORTED` with `PROGRESS` 0. The cycles of a descriptor count from its dispatch
(R242): a free number. -/
def retireStruck (s : State) (r : Nat) (l : Live) : State :=
  let s := updLive s r l.id (fun x => { x with st := .dispatched, struck := true })
  let (k, s) := if cmdOpcode l.bytes = 0x10 ∧ l.disp ≠ 0 then s.stalls else (0, s)
  requestRetire s r { l with struck := true } { cycles := k }

/-- An MXE command that never started owes its terminator (R108). -/
def oweStruck (s : State) (r k : Nat) (b : List Byte) : State :=
  if [0x20, 0x21, 0x22].contains (cmdOpcode b) && targetOk (opTarget b) && !failedLogical s r (targetCl (opTarget b)) then oweTerm s r b stAborted k
  else s

/-- An MXE command that held its tile and is struck before its grant: the tile is void, and it owes a terminator (R98, R108). -/
def voidHeld (s : State) (r : Nat) (l : Live) : State :=
  if !l.holds then s
  else
    let cl := targetCl (opTarget l.bytes)
    let c := s.cluster r cl
    oweTerm (s.setCluster r cl { c with held := c.held.filter (fun h => decide (h.cmd ≠ l.id)) }) r l.bytes stAborted l.disp

/-- A VE command in the FIFO: its stream is discarded and its owners are told, as the descriptor in the scratchpad says. -/
def veUnstarted (s : State) (r cl : Nat) (l : Live) : State :=
  let a := opAddr l.bytes
  let fed := a % 64 = 0 ∧ inPad r cl a 256 ∧ (vdOf (tabRange 0 s.mem a 256)).qfed
  tellOwners (if fed then s.setCluster r cl (discardStream (s.cluster r cl) (opStream l.bytes)) else s) r l

/-- The VE command in progress stops after the row or entry in hand (R229, R109, R130). -/
def veStrike (s : State) (r cl : Nat) (v : VeRun) : State :=
  match findLive (s.hub r) v.cmd with
  | none => s
  | some l =>
    let s := updLive s r l.id (fun x => { x with struck := true })
    let s := if l.unread then s.setCluster r cl (discardStream (s.cluster r cl) (opStream l.bytes)) else s
    let s := if v.phase = 2 then recSwap s (acctOf r l) r cl 4 (swapAt (vdHere v).srec 4) 0 (swapOf v 4) else s
    let s := (updVe s r cl (fun v => { v with phase := 1 })).put (veXstatPrimeWait r cl) 0
    veSettle s r cl

/-- The `PRED_RUN` in progress is struck (R179). -/
def predStrike (s : State) (r cl : Nat) (l : Live) (p : PredRun) : State :=
  let (m, n, _) := predShape s p.prd
  let s := updLive s r l.id (fun x => { x with struck := true })
  let s := freeRange s r cl (prList p.prd) (4 * n)
  let s := freeRange s r cl (prKPatch p.prd) 4
  let s := freeRange s r cl (prSgN p.prd) 4
  let s := freeRange s r cl (prLabel p.prd) (m * ceilDiv n 8)
  match p.sub, (s.cluster r cl).ve with
  | some id, some v => if v.cmd = id then veStrike s r cl v else s
  | _, _ => s

/-- A DMA transfer in progress is struck (R248): a compressing store leaves `COMPLETE` clear (R173), also that of an older object. -/
def dmaStrike (s : State) (r ch : Nat) (l : Live) (x : Xfer) : State :=
  let s := updLive s r l.id (fun x => { x with struck := true })
  let s := updXfer s r ch (fun x => { x with struck := true })
  if dCompress x.desc then (storeFlag s r ch x false).2 else s

/-- A compressing store that has ended `OK` and is struck before its grant leaves `COMPLETE` clear as well (R248). -/
def undoComplete (s : State) (r : Nat) (l : Live) : State :=
  match (if cmdOpcode l.bytes = 0x10 then (readMem s (acctOf r l) (opAddr l.bytes) 64).1 else .error .fault) with
  | .error _ => s
  | .ok b =>
    let a := dDst b + 9
    if !dCompress b ∨ !(s.hub r).reqs.any (fun x => decide (x.cmd = some l.id ∧ x.res.status = stOk)) ∨ reach s r a 1 = .off then s
    else match readNat s (acctOf r l) a 1 with
      | (.error _, s) => s
      | (.ok v, s) =>
        if reach s r a 1 = .serve then (writeNat s (acctOf r l) a 1 (setBit v 1 false)).2
        else inject s { cls := 0, src := r, dst := ((homeOf s a).map regionOf).getD r, len := 1, addr := a, data := natLe 1 (setBit v 1 false) }

/-- Leaves the FIFO of its unit, or the channel that holds it. -/
def dropUnstarted (s : State) (r : Nat) (l : Live) : State :=
  let k := unitKey l.bytes
  let s := fifoDrop s r k l.id
  if 1000 ≤ k then
    let c := s.chan r (k - 1000)
    s.setChan r (k - 1000) { c with fifo := c.fifo.filter (fun j => decide (j.cmd ≠ some l.id)) }
  else s

/-- Has the verdict of a command's step reached the region? -/
def judged (s : State) (r : Nat) (l : Live) : Bool := (tabFind l.step (s.flow r).verds).isSome

/-- Commands that cannot stop once dispatched (R229); one that a check of R213 refused is at no unit. -/
def cannotStop (s : State) (r : Nat) (l : Live) : Bool :=
  match cmdOpcode l.bytes with
  | 0x50 | 0x51 | 0x52 => decide (l.disp ≠ 0)
  | 0x40 => decide (l.disp ≠ 0) && judged s r l
  | _ => false

/-- What a command that its unit never started leaves: the owed terminator of an MXE command; of a VE command its stream discarded and its
owners told (R108, R109, R150). `k` is the dispatch number that the terminator stands before. -/
def leaveUnstarted (s : State) (r k : Nat) (l : Live) : State :=
  if cmdOpcode l.bytes = 0x30 then
    if targetOk (opTarget l.bytes) && !failedLogical s r (targetCl (opTarget l.bytes)) then veUnstarted s r (targetCl (opTarget l.bytes)) l else s
  else oweStruck s r k l.bytes

/-- A dispatched command that has no request to retire yet is struck. -/
def strikeRunning (s : State) (r : Nat) (l : Live) : State :=
  if !l.started then
    -- with the HUB_STEP that waits for a verdict goes the stall that it brought (R136)
    let s := if cmdOpcode l.bytes = 0x03 ∧ (fifoOf s r 0).head? = some l.id then s.put (dfStatusAheadStall r) 0 else s
    retireStruck (dropUnstarted (leaveUnstarted s r l.disp l) r l) r l
  else
    let cl := targetCl (opTarget l.bytes)
    match cmdOpcode l.bytes with
    | 0x20 | 0x21 | 0x22 =>
      let c := s.cluster r cl
      (updLive s r l.id (fun x => { x with struck := true })).setCluster r cl
        { c with mxe := c.mxe.map (strikeRun l.id), mxeNext := c.mxeNext.map (strikeRun l.id) }
    | 0x30 =>
      (match (s.cluster r cl).ve with
       | some v => veStrike s r cl v
       | none => s)
    | 0x60 =>
      (match (s.cluster r cl).pred with
       | some p => predStrike s r cl l p
       | none => s)
    | 0x10 =>
      (match (s.chan r (opChannel l.bytes)).xfer with
       | some x => dmaStrike s r (opChannel l.bytes) l x
       | none => s)
    | 0x40 => retireStruck (setRun s r (opTarget l.bytes % 2) none) r l
    | _ => s

/-- One live command is struck (R228). -/
def strikeOne (s : State) (r : Nat) (l : Live) : Hit × State :=
  match l.st with
  | .waiting =>
    -- its step is that of its grant (R214)
    let l := { l with step := s.get (hubStepCntStep r) }
    (.struck, retireStruck (leaveUnstarted (updLive s r l.id (fun x => { x with step := l.step })) r (s.hub r).nextDisp l) r l)
  | .retiring => (.late, s)
  | .dispatched =>
    if cannotStop s r l then
      (.late, (updLive s r l.id (fun x => { x with late := true })))
    else if (s.hub r).reqs.any (fun x => decide (x.cmd = some l.id)) then
      let s := undoComplete (voidHeld (updLive s r l.id (fun x => { x with struck := true })) r l) r l
      let s := if l.unread then
          let cl := targetCl (opTarget l.bytes)
          s.setCluster r cl (discardStream (s.cluster r cl) (opStream l.bytes))
        else s
      (.struck, s.updHub r (fun h => { h with reqs := h.reqs.map (fun x =>
        if x.cmd = some l.id then { x with res := { x.res with status := stAborted, progress := x.res.work } } else x) }))
    else (.struck, strikeRunning s r l)

/-- Strike commands in slot order: the numbers of those struck and of those that were late. -/
def strikeAll (r : Nat) : List Nat → List Nat × List Nat × State → List Nat × List Nat × State
  | [], acc => acc
  | id :: t, (hit, late, s) =>
    match findLive (s.hub r) id with
    | none => strikeAll r t (hit, late, s)
    | some l =>
      match strikeOne s r l with
      | (.struck, s) => strikeAll r t (hit ++ [id], late, s)
      | (.late, s) => strikeAll r t (hit, late ++ [id], s)

/-- The commands that wait in a ring behind its doorbell, or in the slots of a program's pass, are WAITING too (R228, log 21): they are
fetched first. -/
def fetchRing (s : State) (r q : Nat) : Nat → State
  | 0 => s
  | fuel + 1 => if slotLeft s r q then fetchRing (fetchOne s r q) r q fuel else s

/-- Does a strike at queue `q`, narrowed by a tag, mean the command? It never hits a `HUB_ABORT` (R227). -/
def aimedAt (q : Nat) (tag : Option Nat) (l : Live) : Bool :=
  decide (l.q = q) && decide (cmdOpcode l.bytes ≠ 0x04) && (match tag with | some t => decide (cmdTag l.bytes = t) | none => true)

/-- The strike meets the records in flight: a command granted in the strike's cycle or the one before is RETIRING, and its record carries
`ABORT_LATE`; which of those not yet known to be issued are so is a free choice (R228, R230). Which were RETIRING. -/
def strikeWrites (s : State) (r q : Nat) (tag : Option Nat) : List Nat × State :=
  (s.hub r).writes.zipIdx.foldl (fun (n, s) (w, i) =>
    if w.issued || !w.live.any (aimedAt q tag) then (n, s)
    else
      let (b, s) := s.choose
      let late := { w with bytes := patch w.bytes 0x0A [BitVec.ofNat 8 (getLe w.bytes 0x0A 1 ||| flAbortLate)] }
      (if b then n ++ w.cmd.toList else n, s.updHub r (fun h => { h with writes := h.writes.set i (if b then late else { w with issued := true }) }))) ([], s)

/-- Live commands of a queue that a strike can hit, in slot order; a tag narrows them. -/
def targetsOf (s : State) (r q : Nat) (tag : Option Nat) : List Nat :=
  ((s.hub r).live.filter (aimedAt q tag)).map (·.id)

/-- HUB_ABORT. -/
def execHubAbort (r : Fin 32) (s : State) : Host.Outcome State Fault Refusal :=
  match hubTurn s r 0x04 with
  | none => .next s
  | some l =>
    let s := fifoPop s r 1
    let q := getLe l.bytes 0x30 1 % 8
    let scope := getLe l.bytes 0x31 1
    if l.q < 4 ∧ 4 ≤ q then .next (finish s r l { status := stInvalidField })
    else
      let tag := if scope = 0 then some (opAddr l.bytes) else none
      let s := fetchRing s r q 2048
      let (retiring, s) := strikeWrites s r q tag
      let (hit, late, s) := strikeAll r (targetsOf s r q tag) ([], retiring, s)
      let past := match tag with
        | some t => (tabGet [] q (s.hub r).hist).count (some t)
        | none => 0
      let s := if scope = 1 ∧ s.on (qCtrlProg r q) then s.put (qStatusProgStopped r q) 1 else programEnd s r q
      let s := updLive s r l.id (fun x => { x with waitFor := hit ++ late })
      let st := if !hit.isEmpty then stOk else if 0 < late.length + past then stAlreadyDone else stNotFound
      .next (finish s r { l with waitFor := hit ++ late } { status := st, progress := hit.length })

end Sys2Proof.Machine
end

