-- ==== Sys2Proof/Machine/Skojo.lean ====
section
/-! DEFINITION. The Skojo protocol at a port die (R301-R311): streams, gradient pages, weights, closes, drops; its rows. -/
namespace Sys2Proof.Machine

/-! ## Stream entries (R303) -/

def State.strm (s : State) (k : Nat) : Stream := tabGet {} k s.streams
def State.setStrm (s : State) (k : Nat) (x : Stream) : State := { s with streams := tabPut k x s.streams }
def updStrm (s : State) (k : Nat) (f : Stream → Stream) : State := s.setStrm k (f (s.strm k))

def seTensor (x : Stream) : Nat := getLe x.entry 0 4
def seValid (x : Stream) : Bool := bitAt (getLe x.entry 6 1) 0
def seFrozen (x : Stream) : Bool := bitAt (getLe x.entry 6 1) 1
def seLeave (x : Stream) : Bool := bitAt (getLe x.entry 6 1) 2
def seExpect (x : Stream) : Nat := getLe x.entry 7 1
def seSig (x : Stream) : Nat := getLe x.entry 8 4
def seStep (x : Stream) : Nat := getLe x.entry 0x10 8
def seCredit (x : Stream) : Nat := getLe x.entry 0x18 8
def seSetStep (x : Stream) (n : Nat) : Stream := { x with entry := patch x.entry 0x10 (natLe 8 n) }
def seSetCredit (x : Stream) (n : Nat) : Stream := { x with entry := patch x.entry 0x18 (natLe 8 n) }

/-- Global index of the stream's peer: `SPEER` is an index on the stream's own port die. -/
def sePeer (k : Nat) (x : Stream) : Nat := k / 1024 * 1024 + getLe x.entry 4 2 % 1024

/-- The valid stream of a port die that carries a tensor. -/
def pdStream (s : State) (pd tensor : Nat) : Option Nat :=
  (s.streams.find? (fun e => decide (e.1 / 1024 = pd) && seValid e.2 && decide (seTensor e.2 = tensor))).map (·.1)

/-! ## Messages of the module -/

/-- A Skojo header (R301). `SK_COUNT` and `SK_SEQ`, which the spec gives no value in these types, are free (log 26). -/
def skHeader (s : State) (ty len step tensor off fmt : Nat) : List Byte :=
  natLe 2 0x4B53 ++ natLe 1 1 ++ natLe 1 ty ++ natLe 4 len ++ natLe 8 step ++ natLe 4 tensor ++ natLe 4 off ++ padTo 16 s.bs.jobId ++
  natLe 2 Config.replica.toNat ++ natLe 2 Config.replicas.toNat ++ natLe 1 0 ++ natLe 1 fmt ++ natLe 2 0 ++
  natLe 4 (Config.freeWord s.tick).toNat ++ natLe 4 0 ++ natLe 8 (Config.freeWord (s.tick + 1)).toNat

/-- A Skojo event (R298). -/
def skEvent (s : State) (pd ty step peer : Nat) : State :=
  pushEvent s 3 (32 + pd) (natLe 1 ty ++ natLe 7 0 ++ natLe 8 step ++ natLe 2 Config.replica.toNat ++ natLe 2 peer)

/-- A message without payload on a stream; a queue pair that is not usable sends nothing. -/
def skSend (s : State) (k ty step : Nat) : State :=
  let x := s.strm k
  let p := sePeer k x
  if peerUsable s p then (qpPost s p { op := 2, len := 64, data := skHeader s ty 0 step (seTensor x) 0 0, use := .skojo k }).tock.tock else s

/-! ## Gradient pages (R305, R306) -/

/-- The loss scale that a port die holds for a step (R306). -/
def pdLoss (s : State) (pd step : Nat) : Option Nat := tabFind step (tabGet [] pd s.pdScale)

/-- The page of a (tensor, offset, step parity). -/
def pageIdx (s : State) (pd tensor off par : Nat) : Option Nat :=
  s.pages.findIdx? (fun p => decide (p.pd = pd ∧ p.tensor = tensor ∧ p.off = off ∧ p.step % 2 = par ∧ p.st ≠ 3))

def pageFmt (pw16 : Bool) : Fmt := if pw16 then .pw16 else .b32

/-- One elementwise add of payloads (R262, R263). -/
def addPayload (f : Fmt) (a b : List Byte) : List Byte :=
  let n := a.length / (fmtBits f / 8)
  packElems f (List.zipWith (fun x y => (addV f .rne (decNum f x) (decNum f y)).1) (unpackBytes f n a) (unpackBytes f n b))

/-- Is any element infinite or NaN? -/
def payloadNf (f : Fmt) (b : List Byte) : Bool := (unpackBytes f (b.length / (fmtBits f / 8)) b).any (fun x => !isFinite (decNum f x))

/-- The `RED_ACK` to each stop of a `SRC_MAP` (R263). -/
def redAcks (s : State) (src ring addr rstatus : Nat) (anf : Bool) (acks : Tab Nat) : State :=
  acks.foldl (fun s e => inject s { cls := 5, src := src, dst := e.1, ring := ring, ackSlot := e.2, mtag := e.2, anf := anf, rstatus := rstatus, addr := addr }) s

/-- A complete page is scaled by the step's `INV_LOSS_SCALE` and every `RED_ACK` of it returned (R306). -/
def scalePage (s : State) (i : Nat) : State :=
  match s.pages[i]? with
  | none => s
  | some p =>
    match p.st, pdLoss s p.pd p.step with
    | 1, some l =>
      let f := pageFmt p.pw16
      let inv := div32 one32 l
      let data := packElems f ((unpackBytes f (p.data.length / (fmtBits f / 8)) p.data).map (fun x => (mulV f .rne (decNum f x) (f32 inv)).1))
      let s := { s with pages := s.pages.set i { p with data := data, st := 2, acks := [] } }
      redAcks s (32 + p.pd) p.ring 0 0 (payloadNf f data) p.acks
    | _, _ => s

/-- Every complete page whose loss scale is now known. -/
def scaleAll (s : State) : State := forN s.pages.length (fun i s => scalePage s i) s

/-- Is there no room for the page of a `RED_ADD` to a port die (R305)? -/
def pageBlocked (s : State) (m : Msg) : Bool :=
  let pd := m.dst - 32
  let t := m.addr % 2 ^ 32
  match pdStream s pd t with
  | none => false
  | some k => !seFrozen (s.strm k) && (pageIdx s pd t (m.addr / 2 ^ 32) (m.step % 2)).isNone && decide (16384 ≤ s.pages.countP (fun p => decide (p.pd = pd)))

/-- A `RED_ADD` reaches a port die (R263, R305, R306); one of a module step that a drop has left is answered and adds nothing (R310, log 27). -/
def pageAdd (s : State) (m : Msg) : State :=
  let pd := m.dst - 32
  let tensor := m.addr % 2 ^ 32
  let off := m.addr / 2 ^ 32
  let refuse := redAcks s m.dst m.ring m.addr 3 false m.srcMap
  match pdStream s pd tensor with
  | none => refuse
  | some k =>
    let x := s.strm k
    if seFrozen x then refuse
    else if x.gone = some m.step then redAcks s m.dst m.ring m.addr 0 false m.srcMap
    else
      let f := pageFmt (decide (m.mfmt = 1))
      let (i, s) : Nat × State := match pageIdx s pd tensor off (m.step % 2) with
        | some i => (i, s)
        | none => (s.pages.length, { s with pages := s.pages ++ [{
            pd := pd, tensor := tensor, off := off, step := m.step, pw16 := decide (m.mfmt = 1), data := List.replicate m.len 0, count := 0 }] })
      match s.pages[i]? with
      | none => s
      | some p =>
        if seExpect x < p.count + m.count then
          -- one contribution too many: a contained fault of each owner (R306, R150)
          redAcks (m.srcMap.foldl (fun s e => if e.1 < 32 then sliceFault s e.1 m.step m.addr else s) s) m.dst m.ring m.addr 0 false m.srcMap
        else
          let n := p.count + m.count
          let p := { p with data := addPayload f p.data m.data, count := n, acks := p.acks ++ m.srcMap, ring := m.ring, st := if n = seExpect x then 1 else 0 }
          scalePage { s with pages := s.pages.set i p } i

/-! ## Pushes and closes (R306, R307) -/

/-- Pages of the tensor of a stream. -/
def tensorPages (s : State) (k : Nat) : Nat := ((tensorOf s (seTensor (s.strm k))).map tnBytes |>.getD 0) / 4096

/-- The module step whose pages the stream sends now: the lowest that its pages carry. -/
def pagesStep (s : State) (k : Nat) : Option Nat :=
  (s.pages.filter (fun p => decide (p.pd = k / 1024 ∧ p.tensor = seTensor (s.strm k) ∧ p.st ≠ 3))).foldl
    (fun b p => match b with | none => some p.step | some t => some (min t p.step)) none

/-- The module step whose pages carry `CUR_STEP`: the one that pages have been sent of, else the lowest that waits (R307). -/
def curModule (s : State) (k : Nat) : Option Nat :=
  match (s.strm k).mstep with
  | some t => some t
  | none => pagesStep s k

/-- The close that is owed for the step now open leaves after GR_DONE (R307). -/
def tryClose (s : State) (k : Nat) : State :=
  let x := s.strm k
  match x.mstep.bind (fun t => x.closes.find? (fun e => decide (e.1 = t))) with
  | some (t, v) =>
    if x.done then
      let s := skSend s k (if v = 1 then 6 else 7) (seStep x)
      updStrm s k (fun x => { seSetStep x (seStep x + 1) with
        waitOpen := true, mstep := none, done := false, pushed := 0, closes := x.closes.filter (fun e => decide (e.1 ≠ t)) })
    else s
  | none => s

/-- GR_PUSH: a scaled page leaves while there is credit; after the last, GR_DONE (R306). -/
def execGrPush (pd : Fin 4) (index : Fin 1024) (s : State) : Host.Outcome State Fault Refusal :=
  let k := pd.val * 1024 + index.val
  let x := s.strm k
  let p := sePeer k x
  match s.pages.findIdx? (fun g => decide (g.pd = pd.val ∧ g.tensor = seTensor x ∧ g.st = 2 ∧ some g.step = curModule s k)) with
  | none => .next s
  | some i =>
    match s.pages[i]? with
    | none => .next s
    | some g =>
      if !seValid x || seFrozen x || decide (seCredit x = 0) || x.done || x.waitOpen || !peerUsable s p then .next s
      else
        let h := skHeader s 4 g.data.length (seStep x) g.tensor g.off (b2n g.pw16)
        let s := (qpPost s p { op := 2, len := 64 + g.data.length, data := h ++ g.data, use := .gradient k g.off (g.step % 2) }).tock.tock
        let s := { s with pages := s.pages.set i { g with st := 3 } }
        let s := updStrm s k (fun x => { seSetCredit x (seCredit x - 1) with mstep := some g.step, pushed := x.pushed + 1 })
        if (s.strm k).pushed < tensorPages s k then .next s
        else .next (tryClose (updStrm (skSend s k 5 (seStep x)) k (fun x => { x with done := true })) k)

/-- The server has acknowledged a page: it is free (R306). -/
def pageFreed (s : State) (k off par : Nat) : State :=
  { s with pages := s.pages.filter (fun p =>
    !decide (p.pd = k / 1024 ∧ p.tensor = seTensor (s.strm k) ∧ p.off = off ∧ p.step % 2 = par ∧ p.st = 3)) }

/-- Unsent pages of a stream that satisfy `q` are discarded. -/
def discardPages (s : State) (k : Nat) (q : Nat → Bool) : State :=
  let t := seTensor (s.strm k)
  { s with pages := s.pages.filter (fun p => !(decide (p.pd = k / 1024 ∧ p.tensor = t ∧ p.st ≠ 3) && q p.step)) }

/-- The unsent pages of module step `t` are discarded by a drop: every `RED_ACK` that they owe is returned, so that their owners can vote
for the step that fails (R310, log 27). -/
def dropPages (s : State) (k t : Nat) : State :=
  let owed := s.pages.filter (fun p => decide (p.pd = k / 1024 ∧ p.tensor = seTensor (s.strm k) ∧ p.step = t ∧ p.st < 2))
  owed.foldl (fun s p => redAcks s (32 + p.pd) p.ring 0 0 false p.acks) (discardPages s k (fun n => decide (n = t)))

/-- The module leaves the step now open (R310): `send` says that the port die tells the server. A module step without a verdict goes on
to be answered for, though its pages are discarded. -/
def dropReplica (s : State) (k : Nat) (send : Bool) : State :=
  let x := s.strm k
  let cur := curModule s k
  let s := cur.elim s (dropPages s k)
  let s := if send then skEvent (skSend s k 8 (seStep x)) (k / 1024) 8 (seStep x) (sePeer k x) else s
  updStrm s k (fun x => { seSetStep x (seStep x + 1) with
    waitOpen := true, mstep := none, done := false, pushed := 0, closes := x.closes.filter (fun e => decide (some e.1 ≠ cur)), afterFail := false,
    gone := if x.afterFail || x.closes.any (fun e => decide (some e.1 = cur)) then none else some (cur.getD s.gate.next) })

/-- TRAINABLE streams of a port die. -/
def trainable (s : State) (pd : Nat) : List Nat :=
  (s.streams.filter (fun e => decide (e.1 / 1024 = pd) && seValid e.2 && !seFrozen e.2)).map (·.1)

/-- A verdict reaches a port die (R265, R306, R307, R310). -/
def pdVerdict (s : State) (pd t v loss : Nat) (byFence : Bool) : State :=
  let old := (tabGet [] pd s.pdScale).filter (fun e => decide (t ≤ e.1 ∨ v = 3))
  let s := { s with pdScale := tabPut pd (tabPut (t + 1) loss old) s.pdScale }
  let s := (trainable s pd).foldl (fun s k =>
    let x := s.strm k
    if v = 3 then
      let s := discardPages s k (fun n => decide (n = t))
      let s := updStrm s k (fun x =>
        if x.gone = some t then { x with gone := none }
        else if x.mstep = some t then { x with mstep := none, pushed := 0, done := false, afterFail := true }
        else { x with afterFail := x.afterFail || (x.mstep.isNone && x.closes.isEmpty) })
      if byFence && seLeave x then dropReplica s k true else s
    else
      let made := decide (x.mstep = some t) || s.pages.any (fun p => decide (p.pd = pd ∧ p.tensor = seTensor x ∧ p.step = t))
      if made then tryClose (updStrm s k (fun x => { x with closes := x.closes ++ [(t, v)] })) k else s) s
  scaleAll s

/-! ## Signals from a port die (R217, R296, R304) -/

/-- A signal of a port die. -/
def pdSignal (s : State) (pd region token count : Nat) : State :=
  let (t, s) := newTag s (.signal (32 + pd) 0 0 0)
  inject s { cls := 6, src := 32 + pd, dst := region, token := token, scount := count, mtag := t }

/-! ## Messages of a server (R302, R304, R308, R311) -/

def hdType (h : List Byte) : Nat := getLe h 3 1
def hdLen (h : List Byte) : Nat := getLe h 4 4
def hdStep (h : List Byte) : Nat := getLe h 8 8
def hdTensor (h : List Byte) : Nat := getLe h 0x10 4
def hdOff (h : List Byte) : Nat := getLe h 0x14 4
def hdCount (h : List Byte) : Nat := getLe h 0x30 4

/-- A refused message: counted, recorded, discarded (R311). -/
def skRefuse (s : State) (p ty : Nat) : State :=
  let port := peerPort p (s.peer p)
  let s := s.bump (portRdmaSkProtoErr (port / 16) (port % 16)) 1
  raiseErr s 0x0304 1 (32 + p / 1024) (unitOf 12 p) none p ty

/-- The stream that a message of peer `p` names, when no condition of R311 that is common to every type refuses it. -/
def skAccept (s : State) (p ty : Nat) (h : List Byte) : Option Nat :=
  match pdStream s (p / 1024) (hdTensor h) with
  | none => none
  | some k =>
    if getLe h 0 2 = 0x4B53 ∧ getLe h 2 1 = 1 ∧ hdType h = ty ∧ slice h 0x18 16 = padTo 16 s.bs.jobId ∧ sePeer k (s.strm k) = p ∧
       getLe h 0x2C 1 = b2n (seFrozen (s.strm k)) then some k else none

/-- Does the message name the step now open? A FROZEN stream has no step. -/
def stepFits (x : Stream) (h : List Byte) : Bool := seFrozen x || decide (hdStep h = seStep x)

/-- A valid Skojo peer: W-class, of the module's slice, on a W-class port that passes frames (R285, R296). -/
def skPeer (s : State) (p : Nat) : Bool :=
  peerUsable s p && peerLinked s p && decide (peerClass (s.peer p) = 3 ∧ portClass s (peerPort p (s.peer p)) = 3)

/-- The SEND is acknowledged at the RDMA level whatever becomes of it (R311). -/
def sendTaken (s : State) (p : Nat) (h : List Byte) : State :=
  sendOn (s.setPeer p { s.peer p with rqPsn := ((s.peer p).rqPsn + packets (64 + hdLen h)) % 2 ^ 24 }) p (b2n (decide (hdType h ≠ 2))) (.ack p)

/-- Common part of the rows below: a message of a W-class peer on a W-class port is taken, and refused or acted on. Of another valid peer,
or on another port, it is an invalid request (R285, R296); a packet that matches no valid entry of the slice is dropped (R291). -/
def skTake (s : State) (p ty : Nat) (h : List Byte) (act : State → Nat → Option State) : State :=
  let port := peerPort p (s.peer p)
  if !peerLinked s p || (s.peer p).err then s
  else if !peerUsable s p then s.bump (portDropSliceDrop (port / 16) (port % 16)) 1
  else if !skPeer s p then refuse s p (b2n (decide (hdType h ≠ 2))) nakInvalid
  else
    let s := sendTaken s p h
    match (skAccept s p ty h).bind (act s) with
    | some s => s
    | none => skRefuse s p (hdType h)

/-- A STEP_OPEN on its stream: FROZEN streams take none (R307); the first one sets the step that the server opens (R302, log 27). -/
def openStep (h : List Byte) (s : State) (k : Nat) : Option State :=
  let x := s.strm k
  if seFrozen x ∨ (x.curSet ∧ !stepFits x h) then none
  else some (updStrm s k (fun x => { seSetStep x (hdStep h) with curSet := true, waitOpen := false }))

/-- STEP_OPEN. -/
def execStepOpen (peer : Fin 4096) (hdr : List Byte) (s : State) : Host.Outcome State Fault Refusal :=
  .next (skTake s peer 1 hdr (openStep hdr))

/-- The push failed to land: recorded, and its WT_DONE applies no signal (R304). -/
def wtLost (s : State) (k off : Nat) (inj : Bool := false) : State :=
  raiseErr (updStrm s k (fun x => { x with wtFail := true })) 0x0305 1 (32 + k / 1024) (unitOf 12 k) none (seTensor (s.strm k)) off inj

/-- A WT_PUSH: ring writes that require acknowledgement (R304). Sizes that R302 does not allow are refused (log 27). -/
def pushWeights (p : Nat) (h payload : List Byte) (s : State) (k : Nat) : Option State :=
  let x := s.strm k
  match tensorOf s (seTensor x) with
  | none => none
  | some tn =>
    let n := payload.length
    if !stepFits x h ∨ hdLen h ≠ n ∨ n % 4096 ≠ 0 ∨ n = 0 ∨ 0x100000 < n ∨ tnBytes tn < 4096 * hdOff h + n then none
    else
      match atHomes s (tnBase tn + 4096 * hdOff h) n with
      | none => some (wtLost s k (hdOff h))
      | some ps =>
        some (ps.foldl (fun (acc : State × Nat) e =>
          let (s, o) := acc
          let t := s.nextTag
          let s := ask s (.wt p k (hdOff h)) { cls := 0, src := 32 + p / 1024, dst := regionOf e.2.1, ackReq := true, len := e.2.2, addr := e.1,
                                               data := slice payload o e.2.2 }
          (s.setPeer p { s.peer p with wt := (s.peer p).wt ++ [t] }, o + e.2.2)) (s, 0)).1

/-- WT_PUSH. -/
def execWtPush (peer : Fin 4096) (hdr payload : List Byte) (s : State) : Host.Outcome State Fault Refusal :=
  .next (skTake s peer 2 hdr (pushWeights peer hdr payload))

/-- Every push before a WT_DONE has landed: its signal, unless one of them failed. -/
def weightsIn (s : State) (k : Nat) : State :=
  let x := s.strm k
  let s := updStrm s k (fun x => { x with wtFail := false })
  let g := sigOf (seSig x)
  if x.wtFail ∨ !bitAt (seSig x) 17 then s else pdSignal s (k / 1024) g.region g.token g.count

/-- WT_DONEs of a peer whose pushes are all acknowledged, in order. -/
def drainWtDone (s : State) (p : Nat) : Nat → State
  | 0 => s
  | fuel + 1 =>
    let x := s.peer p
    match x.wtDone with
    | [] => s
    | (k, tags) :: rest =>
      if tags.any (fun t => x.wt.contains t) then s
      else drainWtDone (weightsIn (s.setPeer p { x with wtDone := rest }) k) p fuel

/-- A landing write has its answer. -/
def wtAnswer (s : State) (p k off tag rstatus : Nat) : State :=
  let x := s.peer p
  let s := s.setPeer p { x with wt := setDel tag x.wt }
  let s := if rstatus = 0 then s else wtLost s k off
  drainWtDone s p (x.wtDone.length + 1)

/-- A WT_DONE waits for the pushes before it (R304). -/
def endWeights (p : Nat) (h : List Byte) (s : State) (k : Nat) : Option State :=
  if !stepFits (s.strm k) h then none
  else
    let x := s.peer p
    some (drainWtDone (s.setPeer p { x with wtDone := x.wtDone ++ [(k, x.wt)] }) p (x.wtDone.length + 1))

/-- WT_DONE. -/
def execWtDone (peer : Fin 4096) (hdr : List Byte) (s : State) : Host.Outcome State Fault Refusal :=
  .next (skTake s peer 3 hdr (endWeights peer hdr))

/-- A CREDIT adds pages (R308). -/
def addCredit (h : List Byte) (s : State) (k : Nat) : Option State :=
  if !stepFits (s.strm k) h then none
  else some (updStrm s k (fun x => seSetCredit x ((seCredit x + hdCount h) % 2 ^ 64)))

/-- CREDIT. -/
def execCredit (peer : Fin 4096) (hdr : List Byte) (s : State) : Host.Outcome State Fault Refusal :=
  .next (skTake s peer 9 hdr (addCredit hdr))

/-- A REPLICA_DROP from the server (R310). The contained fault of a step without a verdict is the lowest voter's (log 27). -/
def takeDrop (p : Nat) (h : List Byte) (s : State) (k : Nat) : Option State :=
  let x := s.strm k
  if seFrozen x ∨ seStep x < hdStep h then none
  else
    let s := skEvent s (k / 1024) 8 (hdStep h) p
    if hdStep h < seStep x then some s
    else
      let t := (curModule s k).getD s.gate.next
      let s := if x.afterFail ∨ x.closes.any (fun e => decide (some e.1 = curModule s k)) then s
        else match (voters s).head? with
          | some r => faultStep s r t
          | none => s
      some (dropReplica s k false)

/-- REPLICA_DROP. -/
def execReplicaDrop (peer : Fin 4096) (hdr : List Byte) (s : State) : Host.Outcome State Fault Refusal :=
  .next (skTake s peer 8 hdr (takeDrop peer hdr))

/-- Do the fields of an entry fit its tensor (R303)? `MODE` 1 or 2, `FROZEN` as the mode has it, contributions in range; and a port die
that start-up left dark receives no gradients. -/
def entryFits (s : State) (k : Nat) (x : Stream) : Bool :=
  match tensorOf s (seTensor x) with
  | none => false
  | some tn =>
    decide (tnMode tn = 1 ∨ tnMode tn = 2) && decide (seFrozen x = decide (tnMode tn = 2)) &&
    (if seFrozen x then decide (seExpect x = 0) else decide (1 ≤ seExpect x ∧ seExpect x ≤ 32)) &&
    (seFrozen x || !bitAt (s.get bootDarkPortDies) (k / 1024))

/-- A write of one 64-bit word of a stream entry (R303, R292, R440): ignored while `VALID` is 1 except to clear it; one that would put a
tensor into two valid entries, that its tensor's gradients cannot reach, or whose fields do not fit its tensor is ignored and sets
`CFG_ERR` (log 27). `CUR_STEP` and `GR_CREDIT` are read-only. -/
def writeStreamWord (s : State) (k w : Nat) (data : List Byte) : State :=
  let x := s.strm k
  let flags := getLe data 6 1 % 8
  if 2 ≤ w then s
  else if seValid x then
    if w = 0 ∧ flags % 2 = 0 then s.setStrm k { entry := patch (slice x.entry 0 16) 6 (natLe 1 flags) ++ List.replicate 16 0 } else s
  else if w = 1 then s.setStrm k { x with entry := patch x.entry 8 (natLe 4 (getLe data 0 4)) }
  else
    let y : Stream := { entry := slice data 0 6 ++ natLe 1 flags ++ slice data 7 1 ++ slice x.entry 8 8 ++ List.replicate 16 0 }
    if flags % 2 = 1 ∧ (!entryFits s k y ∨ s.streams.any (fun e => decide (e.1 ≠ k) && seValid e.2 && decide (seTensor e.2 = getLe data 0 4))) then
      let p := sePeer k y
      let port := peerPort p (s.peer p)
      s.put (portStatCfgErr (port / 16) (port % 16)) 1
    else s.setStrm k y

/-- A write of several words is performed word by word, in ascending order (R443). -/
def writeStream (s : State) (k offset : Nat) (data : List Byte) : State :=
  ((chunksOf 8 (data.length / 8) data).zipIdx).foldl (fun s (b, i) => writeStreamWord s k (offset / 8 + i) b) s

/-- STREAM_ENTRY_WRITE. -/
def execStreamEntryWrite (pd : Fin 4) (index : Fin 1024) (offset : Nat) (data : List Byte) (s : State) : Host.Outcome State Fault Refusal :=
  if 32 < offset + data.length then .next s else .next (writeStream s (pd.val * 1024 + index.val) offset data)

end Sys2Proof.Machine
end

