-- ==== Sys2Proof/Machine/Gate.lean ====
section
/-! DEFINITION. Votes, the gate, verdicts at hubs, and the drain before a rerun (R152-R157, R70, R199, R380). -/
namespace Sys2Proof.Machine

/-! ## Votes (R152) -/

/-- `VNF` of a region for a step. -/
def voteBits (f : Flow) (t : Nat) : Nat := b2n (f.nf.contains t) + 2 * b2n (f.fail.contains t)

/-- A vote on its way to the gate. -/
def sendVote (s : State) (r t count bits sumsq : Nat) : State :=
  let s := updFlow s r (fun f => { f with told := tabPut t bits f.told })
  inject s { cls := 8, src := r, dst := 33, step := t, count := count, vnf := bits, sumsq := sumsq, srcMap := if count = 0 then [] else [(r, 0)] }

/-- Every command started under step `t` has completed, its signals accepted (R152, R217); an update that has not ended is not counted, as it
waits for the verdict (log 21). -/
def stepDone (s : State) (r t : Nat) : Bool :=
  let h := s.hub r
  let waits := fun (l : Live) => decide (cmdOpcode l.bytes = 0x40) && h.live.any (fun x => decide (x.id = l.id)) && !h.reqs.any (fun x => decide (x.cmd = some l.id))
  !(unfinished h).any (fun l => decide (l.disp ≠ 0 ∧ l.step ≤ t) && !waits l) && !h.unsettled.any (fun u => decide (u.step ≤ t)) &&
  !s.waiters.any (fun w => match w.2 with | .signal x _ _ k => decide (x = r ∧ k ≤ t) | _ => false)

/-- Steps voted on that have learned of trouble since (log 21). -/
def lateTrouble (f : Flow) : Option Nat :=
  (range' f.done (f.voted - f.done)).find? (fun t => decide (voteBits f t ||| tabGet 0 t f.told ≠ tabGet 0 t f.told))

/-- VOTE_CAST: a region votes for its earliest step not yet voted on, or corrects a vote (R152). -/
def execVoteCast (r : Fin 32) (s : State) : Host.Outcome State Fault Refusal :=
  if !running s r || !(voters s).contains r.val || (s.hub r).draining then .next s
  else
    let f := s.flow r
    match lateTrouble f with
    | some t => .next (sendVote s r t 0 (voteBits f t) 0)
    | none =>
      let t := f.voted
      let (l, s1) := sliceTable s r
      if t < s.get (hubStepCntStep r) ∧ stepDone s r t ∧ l.all (fun x => decide (t + 1 ≤ tabGet 0 x.idx f.scanned)) then
        let s := sendVote s1 r t 1 (voteBits f t) (tabGet 0 t f.sumsq)
        .next ((updFlow s r (fun f => { f with voted := t + 1 })).put (dfStatusVotedStep r) t)
      else .next s

/-! ## The gate (R153, R154, R157, R265) -/

/-- `2^(be − 127)` as binary32. -/
def scaleOfBe (be : Nat) : Nat := if be = 0 then 0x00400000 else be * 2 ^ 23

/-- Loss scale and `CLEAN` after a verdict (R157). -/
def lossAfter (s : State) (v : Nat) : Nat × Nat :=
  let l := s.get lsCurScale
  let c := s.get lsCurClean
  let be := l / 2 ^ 23 % 256
  if s.on lsCtrlLsOff then (l, c)
  else match v with
    | 2 =>
      let b := s.get lsCtrlBackoffLog2
      (if 0 < b then scaleOfBe (max (be - b) (s.get lsLimitsMinBe)) else l, 0)
    | 1 =>
      let c := c + 1
      if 0 < s.get lsCtrlGrowSteps ∧ c = s.get lsCtrlGrowSteps then (scaleOfBe (min (be + s.get lsCtrlGrowLog2) (s.get lsLimitsMaxBe)), 0)
      else (l, c)
    | _ => (l, c)

/-- The clip factor of a committed step (R153). -/
def clipOf (s : State) (sumsq : Nat) : Nat :=
  let n := s.get clipNormNorm
  if isZero (f32 n) || isZero (f32 sumsq) then one32 else min32 one32 (div32 n (sqrt32 sumsq))

/-- A COMMIT counts towards the next snapshot: it becomes due after `SNAP_K` of them, at the first after `SNAP_NOW` or a new checkpoint
key, and early once a half is 75 % full (R371, R374, R395). -/
def noteCommit (s : State) : State :=
  let n := s.snaps.commits + 1
  let full := decide (0 < s.get snapLenLen ∧ 3 * s.get snapLenLen ≤ 4 * s.snaps.fill)
  { s with snaps := { s.snaps with commits := n, due := s.snaps.due || s.snaps.asked || decide (s.get snapCtrlSnapK ≤ n) || full } }

/-- The stop where the copy of a verdict in a direction ends, the nearest to halfway round from pd1: the farthest that R257 reaches in that
direction (log 28). -/
def verdictEnd (desc : Bool) : Nat :=
  ((List.range 36).filter (fun st => decide (st ≠ 33) && decide (descending 33 st = desc))).foldl (fun b st =>
    if (posOf b + 36 - posOf 33) % 36 < (posOf st + 36 - posOf 33) % 36 ∧ !desc ∨ b = 33 ∨
       (posOf 33 + 36 - posOf b) % 36 < (posOf 33 + 36 - posOf st) % 36 ∧ desc then st else b) 33

/-- A verdict leaves the gate (R265): pd1 takes it directly, and one message goes in each direction. -/
def sendVerdict (s : State) (t v clip loss clean : Nat) (byFence : Bool) : State :=
  [false, true].foldl (fun s d =>
    inject s { cls := 9, src := 33, dst := verdictEnd d, step := t, verdict := v, clip := clip, lossScale := loss, count := clean, nkind := b2n byFence })
    (pdVerdict s 1 t v loss byFence)

/-- The gate issues the verdict of the next step (R153, R265). -/
def issue (s : State) (t v : Nat) (byFence : Bool) (sumsq : Nat) : State :=
  let clip := if v = 1 then clipOf s sumsq else s.gate.clip
  let (l, c) := lossAfter s v
  let s := (s.put lsCurScale l).put lsCurClean c
  let s := (s.put gateStatusLastStep t).put gateStatusLastVerdict v
  let g := s.gate
  let s := { s with gate := { g with
    next := t + 1, clip := clip, tally := tabErase t g.tally, forced := setDel t g.forced, byFence := setDel t g.byFence
    rerun := if v = 3 ∧ g.rerun.isNone then some t else g.rerun, fenceFail := g.fenceFail || (decide (v = 3) && byFence) } }
  let s := if v = 1 then noteCommit s else s
  let s := match v with
    | 2 => raiseErr (s.bump stepCountsSkipped 1) 0x0608 0 33 0 (some t) 2 l
    | 3 => raiseErr (s.bump stepCountsFailed 1) 0x0608 0 33 0 (some t) 3 l
    | _ => s
  sendVerdict s t v clip l c byFence

/-- The verdict that the gate's counts give its next step, if they give one (R153, R154). While a rerun is prepared only a step that is
failed by force gets one (log 28). -/
def decision (s : State) : Option (Nat × Bool × Nat) :=
  let g := s.gate
  let t := g.next
  if g.forced.contains t then some (3, g.byFence.contains t, 0)
  else if g.rerun.isSome then none
  else match tabFind t g.tally with
    | none => none
    | some y =>
      if y.count = 0 ∨ y.count < (voters s).length then none
      else if y.fail then some (3, false, y.sumsq)
      else if y.nf || !fin32 y.sumsq then some (2, false, y.sumsq)
      else some (1, false, y.sumsq)

/-- Verdicts leave in step order. -/
def decide' : Nat → State → State
  | 0, s => s
  | n + 1, s =>
    match decision s with
    | some (v, f, q) => decide' n (issue s s.gate.next v f q)
    | none => s

/-- The gate decides what it can. -/
def settleGate (s : State) : State :=
  let s := decide' (s.gate.tally.length + s.gate.forced.length + 1) s
  (s.put gateStatusWaiting (b2n (!s.gate.tally.isEmpty))).put gateVotersVoters (maskOf (voters s))

/-- A vote counts for its step (R152). -/
def countVote (s : State) (m : Msg) : State :=
  let g := s.gate
  if m.step < g.next then s
  else
    let y : Tally := tabGet {} m.step g.tally
    let y := { y with
      count := y.count + m.count, nf := y.nf || bitAt m.vnf 0, fail := y.fail || bitAt m.vnf 1,
      sumsq := if m.count = 0 then y.sumsq else add32 y.sumsq m.sumsq, voters := m.srcMap.foldl (fun l e => setIns e.1 l) y.voters }
    { s with gate := { g with tally := tabPut m.step y g.tally } }

/-- Votes that a stop can combine: of one step (R264). -/
def votesFit (x y : Msg) : Bool := decide (x.cls = 8 ∧ y.cls = 8 ∧ x.step = y.step)

/-- Two votes made one. -/
def mergeVotes (x y : Msg) : Msg :=
  { x with vnf := x.vnf ||| y.vnf, count := x.count + y.count, sumsq := add32 x.sumsq y.sumsq, srcMap := x.srcMap ++ y.srcMap }

/-- Votes meet at stops on their way, before the one at index `i` arrives. -/
def combineVotes (s : State) (i : Nat) : Nat × State := combineAll votesFit mergeVotes stopCombineVoteComb s.ring.length i s

/-- VOTE: the vote at index `i` reaches the gate (R153, R264). -/
def execVote (i : Nat) (s : State) : Host.Outcome State Fault Refusal :=
  match arriving s i 8 with
  | none => .next (settleGate s)
  | some m =>
    let (i, s) := combineVotes s i
    let m := (s.ring[i]?).getD m
    .next (settleGate (countVote (deliver s i m) m))

/-- GATE_TIMEOUT (R154). -/
def execGateTimeout (s : State) : Host.Outcome State Fault Refusal :=
  let t := s.gate.next
  match tabFind t s.gate.tally with
  | none => .next s
  | some y =>
    if y.count = 0 ∨ s.gate.warned.contains t then .next s
    else
      let missing := (voters s).filter (fun r => !y.voters.contains r)
      let s := { s with gate := { s.gate with warned := setIns t s.gate.warned } }
      let inj := missing.any (fun r => decide (s.get (clkStatRstate r) = 3) && (s.plant r).parkInj)
      .next (raiseErr (s.put gateStatusTimedOut 1) 0x0604 0 33 0 (some t) 0 (maskOf missing) inj)

/-! ## Scale records (R70) -/

/-- `PEND_AMAX` of a parity set to 0. -/
def clearPend (s : State) (c : Acct) (a t : Nat) : State := (writeNat s c (a + 4 + 4 * (t % 2)) 4 0).2

/-- The fold of step `t` into the record at `a`, or the clearing of its pending amax. -/
def foldScale (s : State) (r t : Nat) (commit : Bool) (a : Nat) : State :=
  let c := noStep r
  match readMem s c a 320 with
  | (.error _, s) => s
  | (.ok b, s) =>
    if !commit ∨ srFmt b = 0 ∨ 3 < srFmt b then clearPend s c a t
    else
      let d0 := getLe b 16 1
      let depth := if d0 = 0 then 16 else min d0 64
      let head := getLe b 18 1 % depth
      let p := getLe b (4 + 4 * (t % 2)) 4
      let count := min (min (getLe b 17 1) depth + 1) depth
      let b := patch b (64 + 4 * head) (natLe 4 p)
      let h := ((List.range count).map (fun i => getLe b (64 + 4 * i) 4)).foldl max32 0
      let f := (fmtOfCode (srFmt b)).getD .pw8
      let scale := if gt32 h 0 then scaleFor f h else if !srPrimed b then one32 else srScale b
      let b := patch b 0 (natLe 4 scale)
      let b := patch b (4 + 4 * (t % 2)) (natLe 4 0)
      let b := patch b 16 (natLe 1 depth ++ natLe 1 count ++ natLe 1 ((head + 1) % depth) ++ natLe 1 (srFlags b ||| 1))
      let b := patch b 40 (natLe 8 t)
      (writeMem s c a b).2

/-- Addresses of an array of 8-byte entries; none that can be read gives none. -/
def addrList (s : State) (r a n : Nat) : List Nat × State :=
  if n = 0 then ([], s)
  else match readMem s (noStep r) a (8 * n) with
    | (.ok b, s) => ((chunksOf 8 n b).map leNat, s)
    | (.error _, s) => ([], s)

/-! ## LLM units (R198, R199) -/

def unitBytes8 : Nat := 0x800000
def unitBase (d u : Nat) : Nat := sliceBase d + u * unitBytes8

/-- Is a unit in use: named by the slice table or a descriptor in it, an entry of `DF_SREC` or `PRED_LIST`, or a queue's ring (R198)? -/
def unitInUse (s : State) (d u : Nat) : Bool :=
  let r := d / 2
  let (l, _) := sliceTable s r
  let (sr, _) := addrList s r (s.get (dfSrecListAddr r)) (s.get (dfSrecListN r))
  let (pr, _) := addrList s r (s.get (predListListAddr r)) (s.get (predListListN r))
  let hit := fun (a n : Nat) => overlaps a n (unitBase d u) unitBytes8
  l.any (fun x => hit x.base x.bytes || (decide (x.dest = 0) && hit x.target 128)) || sr.any (fun a => hit a 320) || pr.any (fun a => hit a 128) ||
  hit (s.get (dfSliceTableAddr r)) (32 * s.get (dfSliceTableN r)) || (List.range 8).any (fun q => hit (s.get (qBaseBase r q)) 65536)

/-- Lines of a die's cache that a unit holds are written back and go (R198): with the last unit all of them, else a free choice, since
which lie in it is not fixed (log 20). -/
def dropLines (s : State) (d : Nat) : State :=
  (s.lines.filter (fun e => decide (dieOfLine s e.1 = d))).foldl (fun s e =>
    let (b, s) := s.choose
    if b || decide (cacheUnitsOf s d ≤ 1) then dropLine s e.1 e.2 else s) s

/-- A region's lines after its cache has changed: a line that another die holds now starts afresh there, and none stays beyond the ways of
its set (R191, R198). `was` gives the die of a line before. -/
def settleLines (s : State) (r : Nat) (was : Nat → Nat) : State :=
  (s.lines.filter (fun e => decide (regionOf (e.1 * 256) = r))).foldl (fun s e =>
    let d := dieOfLine s e.1
    let full := fun (_ : Unit) => decide (16 < s.lines.countP (fun x => decide (dieOfLine s x.1 = d) && decide (setOfLine s d x.1 = setOfLine s d e.1)))
    if d ≠ was e.1 ∨ (16 < s.lines.length ∧ full ()) then dropLine s e.1 e.2 else s) s

/-- An 8 MiB unit takes a mode, with the effect of R198. -/
def moveUnit (s : State) (d u new : Nat) : State :=
  let old := unitMode s d u
  let sram := fun (m : Nat) => decide (2 ≤ m)
  if old = new then s
  else
    let was := dieOfLine s
    let s := if old = 1 then dropLines s d else s
    let s := if sram old && sram new then s else zeroRange s (unitBase d u) unitBytes8
    let s := { s with units := tabPut (d * 16 + u) new s.units, retained := tabErase (d * 16 + u) s.retained }
    if old = 1 ∨ new = 1 then settleLines s (d / 2) was else s

/-- Retained units of region `r` that are no longer in use take their new mode (R199); what names a unit is read before any moves. -/
def retestUnits (s₀ : State) (r : Nat) : State :=
  (s₀.retained.filter (fun e => decide (e.1 / 32 = r))).foldl (fun s e =>
    if unitInUse s₀ (e.1 / 16) (e.1 % 16) then s else moveUnit s (e.1 / 16) (e.1 % 16) e.2) s₀

/-! ## The verdict at a hub (R155) -/

/-- The step record (R137); `t` is none before the first verdict. -/
def stepRecord (t : Option Nat) (v loss clip clean : Nat) : List Byte :=
  natLe 8 (t.getD (2 ^ 64 - 1)) ++ natLe 1 v ++ natLe 3 0 ++ natLe 4 loss ++ natLe 4 (div32 one32 loss) ++ natLe 4 clip ++ natLe 4 clean ++ List.replicate 36 0

def writeStepRecord (s : State) (r : Nat) (b : List Byte) : State := (writeMem s (noStep r) (stackBase r + stepPage) b).2

/-- The step record that a hub writes at load, before the first verdict (R137); its `CLIP` is 1.0 (DESIGN CHOICE, log 63). -/
def firstRecord (s : State) (r : Nat) : State :=
  if s.bs.loaded && running s r && decide (useOf s r = 1 ∨ useOf s r = 3) then
    writeStepRecord s r (stepRecord none 0 (s.get lsCurScale) one32 (s.get lsCurClean)) else s

/-- The fold of a verdict into the scale records that `DF_SREC` names (R70), in the list's order. -/
def foldScales (s : State) (r t v : Nat) : State :=
  let (l, s) := addrList s r (s.get (dfSrecListAddr r)) (s.get (dfSrecListN r))
  l.foldl (fun s a => foldScale s r t (decide (v = 1)) a) s

/-- The fold into the records that `PRED_LIST` names (R181). -/
def foldPreds (s : State) (r t v : Nat) : State :=
  let (l, s) := addrList s r (s.get (predListListAddr r)) (s.get (predListListN r))
  l.foldl (fun s a => foldPred s r t v a) s

/-- The step record of a verdict, and what it does to the scale records and the predicted layers of the region (R155 steps 1 and 2, R181). -/
def verdictRecords (s : State) (r : Nat) (m : Msg) : State :=
  let t := m.step
  let v := m.verdict
  let s := if v = 1 then updFlow s r (fun f => { f with clip := m.clip }) else s
  let s := writeStepRecord s r (stepRecord (some t) v m.lossScale (s.flow r).clip m.count)
  foldPreds (foldScales s r t v) r t v

/-- A verdict other than COMMIT discards the step's updates and opens its slices again (R155 step 3). -/
def verdictDiscard (s : State) (r t : Nat) : State :=
  let s := upeDiscard (upeDiscard s r 0 t) r 1 t
  let (l, s) := sliceTable s r
  (l.filter (fun x => decide (x.st = 2 ∧ x.dest = 0 ∧ tabGet 0 x.idx (s.flow r).scanned = t + 1))).foldl (fun s x => reopen s r x t) s

/-- The step's entries in the hub's tables go, and units that waited for the verdict are tested again (R155). -/
def verdictSettle (s : State) (r t : Nat) : State :=
  let s := updFlow s r (fun f => { f with
    nf := setDel t f.nf, fail := setDel t f.fail, sumsq := tabErase t f.sumsq, told := tabErase t f.told, gets := setDel t f.gets, done := max f.done (t + 1) })
  retestUnits (s.put (dfStatusAheadStall r) 0) r

/-- The verdict of step `t` at region `r`, in the order of R155; then the start of a drain where it is a FAIL (R380). -/
def hubVerdict (s : State) (r : Nat) (m : Msg) : State :=
  let t := m.step
  let v := m.verdict
  let used := lossOf s r t
  let first := decide ((s.flow r).done ≤ t)
  let s := verdictRecords s r m
  let s := updFlow s r (fun f => { f with verds := tabPut t { v := v, clip := m.clip, scale := m.lossScale, used := used } f.verds })
  let s := if v = 1 then s else verdictDiscard s r t
  let s := if v = 3 then setEntries s r [] else s
  let s := if s.on (dfCtrlTokenEn r) then signalToken s r (s.get (dfCtrlVerdictToken r)) 1 (some t) 0 else s
  let s := verdictSettle s r t
  let s := if v = 3 ∧ m.nkind = 1 then s.put (resStatRerunHold r) 1 else s
  if v = 3 ∧ first then s.updHub r (fun h => { h with draining := true }) else s

/-- Stops that copy a verdict: those of voters, and of port dies (R265). -/
def copiers (s : State) (l : List Nat) : List Nat := l.filter (fun st => decide (32 ≤ st) || (voters s).contains st)

/-- The verdict at index `i` has passed stop `st`: it goes on, or ends where no stop ahead copies it. -/
def passedStop (s : State) (i st : Nat) (m : Msg) : State :=
  let u := { m with via := some st }
  if m.src = m.dst ∨ (copiers s ((verdictWay m).dropWhile (fun x => decide (x ≠ st)))).length ≤ 1 then deliver s i m else { s with ring := s.ring.set i u }

/-- A stop copies a verdict to its hub or port die. The copy of a voter that is parked, whose stop freewheels, waits at that stop until the
voter resumes (log 21). -/
def copyVerdict (s : State) (st : Nat) (m : Msg) : State :=
  if 32 ≤ st then pdVerdict s (st - 32) m.step m.verdict m.lossScale (decide (m.nkind = 1))
  else
    match mapSt s st with
    | .running => hubVerdict s st m
    | .parked => s.setStop st { s.stop st with held := (s.stop st).held ++ [{ m with src := st, dst := st, via := none }] }
    | .off => s

/-- VERDICT: the verdict at index `i` reaches the next stop on its way that copies it (R155, R265). -/
def execVerdict (i : Nat) (s : State) : Host.Outcome State Fault Refusal :=
  match arriving s i 9 with
  | none => .next s
  | some m =>
    match copiers s (verdictWay m) with
    | [] => .next (deliver s i m)
    | st :: _ => .next (copyVerdict (passedStop s i st m) st m)

/-! ## The drain (R380) -/

/-- No update of a committed step is live. -/
def updatesDone (s : State) (r : Nat) : Bool :=
  (unfinished (s.hub r)).all (fun l => decide (cmdOpcode l.bytes ≠ 0x40) || decide (l.disp = 0) ||
    (tabFind l.step (s.flow r).verds).all (fun v => decide (v.v ≠ 1)))

/-- Every signal that the hub has issued is applied or discarded. -/
def signalsSettled (s : State) (r : Nat) : Bool :=
  (s.hub r).unsettled.isEmpty && s.waiters.all (fun w => match w.2 with | .signal x _ _ _ => decide (x ≠ r) | _ => true)

/-- The drain strikes the live commands of queue `q`, and notes which. -/
def drainQueue (s : State) (r q : Nat) : State :=
  let s := fetchRing s r q 2048
  let (hit, _, s) := strikeAll r (targetsOf s r q none) ([], [], s)
  s.updHub r (fun h => { h with live := h.live.map (fun l => if hit.contains l.id then { l with drained := true } else l) })

/-- The drain strikes every live command of q4-q7. -/
def drainStrike (s : State) (r : Nat) : State :=
  ([4, 5, 6, 7].foldl (fun s q => drainQueue s r q) s).updHub r (fun h => { h with drainStruck := true })

/-- DRAINED: a draining hub strikes its programs' commands, and reports once they have ended and its signals are settled. -/
def execDrained (r : Fin 32) (s : State) : Host.Outcome State Fault Refusal :=
  let h := s.hub r
  if !h.draining || !running s r || s.on (resStatDrained r) then .next s
  else if !h.drainStruck then (if updatesDone s r then .next (drainStrike s r) else .next s)
  else if h.live.all (fun l => decide (l.q < 4)) && h.writes.all (fun w => decide (w.q < 4)) && signalsSettled s r then
    .next { s.put (resStatDrained r) 1 with gate := { s.gate with drained := setIns r.val s.gate.drained } }
  else .next s

end Sys2Proof.Machine
end

