-- ==== Sys2Proof/Machine/Rings.lean ====
section
/-! DEFINITION. Arrivals on the chainrings (R252-R267, R350): flits and links, memory messages, reduce-on-route, signals, held requests. -/
namespace Sys2Proof.Machine

/-! ## Links (R252, R253, R259) -/

/-- A message on a ring that leaves service is lost; a message of a stop to itself uses no link (R463). -/
def loseRing (s : State) (ring : Nat) : State :=
  let lost := s.ring.filter (fun m => decide (m.ring = ring ∧ m.src ≠ m.dst))
  let s := { s with ring := s.ring.filter (fun m => !decide (m.ring = ring ∧ m.src ≠ m.dst)) }
  lost.foldl lostMsg s

/-- A link fails, and the CPC reports it (R259): `dir` is 0 ascending, 1 descending. -/
def linkFail (s : State) (st ring dir : Nat) (inj : Bool) : State :=
  let s := s.put ringStatusRingUp (setBit (s.get ringStatusRingUp) ring false)
  let s := s.put (if dir = 0 then stopLinkAscFailed st ring else stopLinkDescFailed st ring) 1
  let o := stopBefore st dir
  let s := s.setStop o { s.stop o with again := tabErase (ring * 2 + dir) (s.stop o).again }
  let s := loseRing s ring
  let s := forceFail (raiseErr s 0x0202 2 33 (unitOf 5 ring) none 0 dir inj)
  let s := if (upRings s).isEmpty then raiseErr s 0x0203 3 33 0 none 0 0 inj else s
  settleGate s

/-- The message that flits have brought to its destination stands on its ring, where it waits for its class's row; one that was put there at
its source is that message (log 58). -/
def wireArrives (s : State) (ring : Nat) (b : List Byte) : State :=
  let m := readMsg ring b
  if s.ring.any (fun x => decide (x.cls = m.cls ∧ x.src = m.src ∧ x.dst = m.dst ∧ x.ring = ring ∧ x.mtag = m.mtag ∧ x.addr = m.addr)) then s
  else { s with ring := s.ring ++ [m] }

/-- A flit that passed its checks joins the message that its link and virtual channel bring; it goes on to the next stop, or, with the
message complete at its destination, the message has arrived (R252). -/
def takeFlit (s : State) (st ring k side : Nat) (flit : List Byte) : State :=
  let x := s.stop st
  let kind := side % 4
  let key := k * 2 + side / 4 % 2
  let b := if kind = 0 ∨ kind = 3 then flit else tabGet [] key x.frames ++ flit
  let s := s.setStop st { x with frames := if 2 ≤ kind then tabErase key x.frames else tabPut key b x.frames }
  if getLe b 3 1 ≠ st then sendFlit s st k side flit
  else if 2 ≤ kind then wireArrives s ring b
  else s

/-- FLIT_RECEIVE: one flit at an incoming link. A failed check has the sender replay from its retry buffer, from the `LSEQ` that is due; the
ninth failed check of one flit fails the link. -/
def execFlitReceive (stop : Fin 36) (ring : Fin 16) (descending : Bool) (flit : List Byte) (sideband : W64) (s : State) :
    Host.Outcome State Fault Refusal :=
  if !bitAt (s.get ringStatusRingUp) ring then .next s
  else
    let dir := b2n descending
    let k := ring.val * 2 + dir
    let sb := sideband.toNat
    let ok := decide (flit.length = 512) && decide (field sb 16 32 = crc32c (flit ++ natLe 2 (sb % 2 ^ 16)))
    let (inj, s) := injectedFail s [0x0201, 0x0202] stop (unitOf 5 ring) (some dir)
    let x := s.stop stop
    if ok && !inj then
      if field sb 8 8 = tabGet 0 k x.lseq then
        let s := s.setStop stop { x with lseq := tabPut k ((field sb 8 8 + 1) % 256) x.lseq, fails := tabErase k x.fails, tainted := setDel k x.tainted }
        .next (takeFlit (endReplay s stop k (field sb 8 8)) stop ring k (sb % 8) flit)
      else .next s
    else
      let n := tabGet 0 k x.fails + 1
      let tainted := if inj then setIns k x.tainted else x.tainted
      if 9 ≤ n then
        .next (linkFail (s.setStop stop { x with fails := tabErase k x.fails, tainted := setDel k tainted }) stop ring dir (tainted.contains k))
      else
        let c := tabGet 0 k x.replays + 1
        let due := decide (s.get errThreshReplayStep ≤ c)
        let s := s.setStop stop { x with fails := tabPut k n x.fails, tainted := tainted, replays := tabPut k (if due then 0 else c) x.replays }
        let s := askReplay (s.bump (stopLinkCrcErr stop ring) 1) stop k (tabGet 0 k x.lseq)
        .next (if due then raiseErr s 0x0201 0 stop (unitOf 5 ring) none 0 c (tainted.contains k) else s)

/-! ## Memory messages (R255, R267) -/

/-- The answer of a memory error. -/
def rstatusOfErr : MemErr → Nat
  | .fault => 3
  | .uncorrectable => 2

/-- A message that its freewheeled destination discards or refuses is counted and gone (R267). -/
def undelivered (s : State) (i : Nat) (m : Msg) : State := { s with ring := s.ring.eraseIdx i }.bump (stopUndelivUndeliv m.dst) 1

/-- Does a message of RDMA or of a posted transfer touch the stack of a region that a derailleur run names? It is held at that region's stop
until the run ends (R270). -/
def heldAtStop (s : State) (m : Msg) : Bool :=
  (decide (32 ≤ m.src) || m.posted) && inStack m.addr && s.drl.any (fun d => d.named.contains m.dst)

/-- MEM_WR: plain bytes for the stores of the destination. -/
def execMemWr (i : Nat) (s : State) : Host.Outcome State Fault Refusal :=
  match arriving s i 0 with
  | none => .next s
  | some m =>
    if heldAtStop s m then .next s
    else if freewheels s m.dst then
      .next (if m.ackReq then respond { s with ring := s.ring.eraseIdx i } m 1 [] else undelivered s i m)
    else
      let s := deliver s i m
      let (e, s) := writeMem s { noStep m.dst with posted := m.posted } m.addr m.data
      if m.ackReq then .next (respond s m ((e.map rstatusOfErr).getD 0) []) else .next s

/-- MEM_RD. -/
def execMemRd (i : Nat) (s : State) : Host.Outcome State Fault Refusal :=
  match arriving s i 1 with
  | none => .next s
  | some m =>
    if heldAtStop s m then .next s
    else if freewheels s m.dst then .next (respond { s with ring := s.ring.eraseIdx i } m 1 [])
    else
      let s := deliver s i m
      let c : Acct := { noStep m.dst with posted := m.posted }
      let good := goodBytes s m.addr m.len
      match readMem s c m.addr m.len with
      | (.ok b, s) => .next (respond s m 0 b)
      | (.error .fault, s) => .next (respond s m (rstatusOfErr .fault) [])
      -- the bytes before the unit are good (R249)
      | (.error .uncorrectable, s) =>
        match readMem s c m.addr good with
        | (.ok b, s) => .next (respond s m (rstatusOfErr .uncorrectable) b)
        | (.error _, s) => .next (respond s m (rstatusOfErr .uncorrectable) [])

/-- ATOMIC: the operands stand in the payload, the compared value first (R195). -/
def execAtomic (i : Nat) (s : State) : Host.Outcome State Fault Refusal :=
  match arriving s i 3 with
  | none => .next s
  | some m =>
    if freewheels s m.dst then .next (respond { s with ring := s.ring.eraseIdx i } m 1 [])
    else
      let s := deliver s i m
      let n := atomicBytes m.mfmt
      let (v, cmp) := if m.mfmt = 5 then (getLe m.data 8 8, getLe m.data 0 8) else (getLe m.data 0 n, 0)
      match doAtomic s (match m.acct with | some (t, _) => inStep m.src t | none => noStep m.src) m.mfmt m.addr v cmp with
      | (.done old _, s) => .next (respond s m 0 (natLe n old))
      | (.fault, s) => .next (respond s m 3 [])
      | (.misaligned, s) => .next (respond s m 4 [])
      | (.uncorrectable, s) => .next (respond s m 2 [])

/-! ## Answers (R350, R464, R249, R217) -/

/-- The DMA status of a refused request. -/
def dmaStatusOf (rstatus : Nat) : Nat := if rstatus = 1 then stDmaTargetLost else if rstatus = 2 then stMemUncorrectable else stAddressFault

/-- A request answered `RSTATUS` 1 is held at its stop unless the map shows its destination off; held ones go again (R350). -/
def holdRequest (s : State) (st tag : Nat) : State :=
  match tabFind tag s.asked with
  | some m => s.setStop st { s.stop st with held := (s.stop st).held ++ [m] }
  | none => s

/-- A refused signal waits at the sender (R217). -/
def refusedSignal (s : State) (m : Msg) (r cmd q : Nat) : State :=
  let s := settleTag s m.mtag
  if r < 32 then
    let u : Refused := { cmd := cmd, q := q, region := m.src, token := m.token, count := m.scount,
                         step := (m.acct.map (·.1)).getD 0, tag := (m.acct.map (·.2)).getD 0 }
    s.updHub r (fun h => { h with unsettled := h.unsettled ++ [u] })
  else
    let (t, s) := newTag s (.signal r cmd q 0)
    s.setStop r { s.stop r with held := (s.stop r).held ++ [{ cls := 6, src := r, dst := m.src, token := m.token, scount := m.scount, mtag := t }] }

/-- A derailleur message has its answer: one that failed never lands, and its run has lost a region (R270, R271). -/
def derailAnswer (s : State) (e rstatus : Nat) : State :=
  match s.drl with
  | none => s
  | some d =>
    if rstatus = 0 then s
    else { s with drl := some { d with entries := d.entries.modify e (fun x => { x with out := x.out - 1, st := 3 }), lost := true } }

/-- The waiter takes its answer. -/
def settleAnswer (s : State) (m : Msg) (w : Waiter) : State :=
  let s := settleTag s m.mtag
  match w with
  | .dmaRead r ch id off pos =>
    readLanded (if m.rstatus = 0 then s else xferFailed s r ch id (dmaStatusOf m.rstatus)) r ch id off pos (decide (m.rstatus = 0)) m.data
  | .dmaAck r ch id =>
    let s := writeAcked s r ch id
    if m.rstatus = 0 then s else xferFailed s r ch id (dmaStatusOf m.rstatus)
  | .veRec r cl what old => veRecAnswer s r cl what old m.rstatus m.data
  | .wt p k off => wtAnswer s p k off m.mtag m.rstatus
  | .derail e _ _ => derailAnswer s e m.rstatus
  | .veAdd r cl => veAnswer s r cl m.rstatus m.anf
  | .slice r idx => sliceAnswer s r idx m.rstatus m.anf
  | .signal _ _ _ _ | .nobody => s

/-- An answer arrives at the stop that asked. -/
def takeAnswer (s : State) (m : Msg) : State :=
  match tabFind m.mtag s.waiters with
  | none => s
  | some w =>
    match w with
    | .signal r cmd q _ => refusedSignal s m r cmd q
    | w => if m.rstatus = 1 ∧ m.src < 32 ∧ mapSt s m.src ≠ .off then holdRequest s m.dst m.mtag else settleAnswer s m w

/-- MEM_RSP. -/
def execMemRsp (i : Nat) (s : State) : Host.Outcome State Fault Refusal :=
  match arriving s i 2 with
  | none => .next s
  | some m => .next (takeAnswer (deliver s i m) m)

/-- RED_ACK: the tag of the add is its `ACK_SLOT` (R263). -/
def execRedAck (i : Nat) (s : State) : Host.Outcome State Fault Refusal :=
  match arriving s i 5 with
  | none => .next s
  | some m => .next (takeAnswer (deliver s i m) { m with mtag := slotTag m.dst m.ackSlot })

/-! ## Reduce-on-route (R262, R263) -/

/-- Each element of a payload added at its address: the first error's `RSTATUS`, and whether a result is not finite. -/
def redElems (c : Acct) (mfmt w : Nat) : List Nat → Nat → Nat × Bool × State → Nat × Bool × State
  | [], _, acc => acc
  | v :: t, a, (st, nf, s) =>
    match doAtomic s c mfmt a v 0 with
    | (.done _ x, s) => redElems c mfmt w t (a + w) (st, nf || x, s)
    | (.uncorrectable, s) => redElems c mfmt w t (a + w) (if st = 0 then 2 else st, nf, s)
    | (_, s) => redElems c mfmt w t (a + w) (if st = 0 then 3 else st, nf, s)

/-- Adds that a stop can combine (R262). -/
def addsFit (x y : Msg) : Bool :=
  decide (x.cls = 4 ∧ y.cls = 4 ∧ x.addr = y.addr ∧ x.len = y.len ∧ x.mfmt = y.mfmt ∧ x.step % 2 = y.step % 2) &&
  x.srcMap.all (fun e => !y.srcMap.any (fun f => decide (e.1 = f.1)))

/-- Two adds made one. -/
def mergeAdds (x y : Msg) : Msg :=
  { x with data := addPayload (pageFmt (decide (x.mfmt = 1))) x.data y.data, count := x.count + y.count, srcMap := x.srcMap ++ y.srcMap }

/-- Adds meet at stops on their way, before the one at index `i` arrives. -/
def combineAdds (s : State) (i : Nat) : Nat × State := combineAll addsFit mergeAdds stopCombineRedComb s.ring.length i s

/-- An add reaches a region (R263, R150). -/
def regionAdd (s : State) (m : Msg) : State :=
  let w := if m.mfmt = 1 then 2 else 4
  let ack := fun (s : State) (st : Nat) (nf : Bool) => redAcks s m.dst m.ring m.addr st nf m.srcMap
  if m.addr % w ≠ 0 then ack s 4 false
  else if !inAccum s m.addr m.len then ack s 3 false
  else
    let (l, s) := sliceTable s m.dst
    let s := if (slicesIn l m.addr m.len).any (fun x => decide (x.st ≠ 0)) then sliceFault s m.dst m.step m.addr else s
    let (st, nf, s) := redElems (inStep m.src m.step) m.mfmt w (unpackBytes (pageFmt (decide (m.mfmt = 1))) (m.len / w) m.data) m.addr (0, false, s)
    ack s st nf

/-- RED_ADD: the add at index `i` reaches a region or a port die; one for which a port die has no free page stays (R305). -/
def execRedAdd (i : Nat) (s : State) : Host.Outcome State Fault Refusal :=
  match arriving s i 4 with
  | none => .next s
  | some m =>
    if 32 ≤ m.dst ∧ pageBlocked s m then .next s
    else
      let (i, s) := combineAdds s i
      let m := (s.ring[i]?).getD m
      if freewheels s m.dst then .next (redAcks { s with ring := s.ring.eraseIdx i } m.dst m.ring m.addr 1 false m.srcMap)
      else
        let s := deliver s i m
        if 32 ≤ m.dst then .next (pageAdd s m) else .next (regionAdd s m)

/-! ## Signals (R216, R217, R267) -/

/-- A signal to a fenced or excluded region is discarded and counted at its sender. -/
def dropSignal (s : State) (src tag : Nat) : State :=
  let s := settleTag s tag
  if src < 32 then s.bump (hubStatSigDrop src) 1 else s

/-- SIGNAL: applied, discarded, kept in the signal store, or refused. -/
def execSignal (i : Nat) (s : State) : Host.Outcome State Fault Refusal :=
  match arriving s i 6 with
  | none => .next s
  | some m =>
    if fenced s m.dst || excluded s m.dst then .next (dropSignal (undelivered s i m) m.src m.mtag)
    else if freewheels s m.dst then
      let x := s.stop m.dst
      if x.signals.length < 256 then
        .next ((settleTag { s with ring := s.ring.eraseIdx i } m.mtag).setStop m.dst { x with signals := x.signals ++ [m] })
      else
        .next (inject (undelivered s i m) { cls := 2, src := m.dst, dst := m.src, ring := m.ring, mtag := m.mtag, rstatus := 1, token := m.token, scount := m.scount, acct := m.acct })
    else
      .next (signalArrives (settleTag (deliver s i m) m.mtag) m.dst m)

/-- The next refused signal of a hub whose destination the map shows running, or gone for good. -/
def nextRefused (s : State) (r : Nat) : Option Nat :=
  (s.hub r).unsettled.findIdx? (fun u => decide (mapSt s u.region = .running) || fenced s u.region || excluded s u.region)

/-- SIGNAL_RESEND (R217). -/
def execSignalResend (r : Fin 32) (s : State) : Host.Outcome State Fault Refusal :=
  match nextRefused s r with
  | none => .next s
  | some i =>
    match (s.hub r).unsettled[i]? with
    | none => .next s
    | some u =>
      if !running s r then .next s
      else
        let s := s.updHub r (fun h => { h with unsettled := h.unsettled.eraseIdx i })
        if fenced s u.region || excluded s u.region then .next (s.bump (hubStatSigDrop r) 1)
        else
          let (t, s) := newTag s (.signal r u.cmd u.q u.step)
          .next (inject s { cls := 6, src := r, dst := u.region, token := u.token, scount := u.count, mtag := t, acct := some (u.step, u.tag) })

/-- HELD_REQUEST_RESEND: the oldest message held at a stop whose destination is no longer parked goes again (R350); a stop that
freewheels takes no injection. -/
def execHeldRequestResend (stop : Fin 36) (s : State) : Host.Outcome State Fault Refusal :=
  let x := s.stop stop
  match x.held.findIdx? (fun m => decide (32 ≤ m.dst ∨ mapSt s m.dst ≠ .parked)) with
  | none => .next s
  | some i =>
    match x.held[i]? with
    | none => .next s
    | some m =>
      if freewheels s stop then .next s
      else .next (inject (s.setStop stop { x with held := x.held.eraseIdx i }) m)

end Sys2Proof.Machine
end

