-- ==== Sys2Proof/Machine/Derail.lean ====
section
/-! DEFINITION. The derailleur (R268-R272): GO, ARM, DERAIL, DERAIL_DONE, TARGET_LOST. -/
namespace Sys2Proof.Machine

def chunkBytes : Nat := 0x100000

/-- The entries of a loaded table (R44). -/
def drlTable (s : State) (id : Nat) : Option (List (List Byte)) := ((tablesOf (secOf s 11)).find? (fun t => decide (t.1 = id))).map (·.2)

/-- Does the destination of entry `a` equal the source of entry `b` (R269)? -/
def feeds (a b : List Byte) : Bool := decide (dtDst a = dtSrc b ∧ dtDstOff a = dtSrcOff b ∧ dtLen a = dtLen b)

/-- Group numbers: entries linked by `feeds` share the lowest number of their group; a pass lowers each to its neighbours' lowest. -/
def groupPass (es : List (List Byte)) (g : List Nat) : List Nat :=
  (List.range es.length).map (fun i => (List.range es.length).foldl (fun m j =>
    let a := es.getD i []
    let b := es.getD j []
    if feeds a b || feeds b a then min m (g.getD j j) else m) (g.getD i i))

def groupsOf (es : List (List Byte)) : List Nat := forN es.length (fun _ g => groupPass es g) (List.range es.length)

/-- The entries of a run. -/
def drlEntries (es : List (List Byte)) : List DrlEntry :=
  let g := groupsOf es
  es.zipIdx.map (fun (e, i) =>
    let k := g.getD i i
    { src := dtSrc e, srcOff := dtSrcOff e, dst := dtDst e, dstOff := dtDstOff e, len := dtLen e, group := k, cycle := decide (2 ≤ g.count k) || feeds e e })

/-- Cache-mode units of a region's two dies. -/
def cacheUnits (s : State) (r : Nat) : Nat := (List.range 32).countP (fun i => decide (unitMode s (2 * r + i / 16) (i % 16) = 1))

/-- Step 1 of R270: the code of the first check that fails. -/
def drlCheck (s : State) (es : Option (List (List Byte))) : Option Nat :=
  match es with
  | none => some 0x10
  | some l =>
    if !l.all (fun e => running s (dtDst e) && !excluded s (dtSrc e)) then some 0x11
    else if !l.all (fun e => decide (2 ≤ cacheUnits s (dtDst e))) then some 0x12
    else none

/-- `n` bytes of a fenced member at stack offset `o`, rebuilt from a seam (R367); bytes that no seam rebuilds are free values (log 29). -/
def rebuildRange (s : State) (r o n : Nat) : List Byte :=
  (List.range n).map (fun i =>
    match rebuiltByte s r (o + i) with
    | some b => b
    | none => Config.freeByte s.tick i)

/-- The stop that sends a chunk of region `r`: its own, or the parity region that rebuilds it. -/
def chunkStop (s : State) (r o : Nat) : Nat :=
  if !fenced s r then r
  else match seamsOver s r o with
    | (k, _) :: _ => if fenced s (s.seam k).pa then (s.seam k).pb else (s.seam k).pa
    | [] => r

/-- Was the chunk rebuilt already into the very place the entry writes (R368)? -/
def alreadyRebuilt (s : State) (e : DrlEntry) (o n : Nat) : Bool :=
  fenced s e.src && decide (e.srcOff = e.dstOff) &&
  s.rebuilt.any (fun c => decide (c.1 = e.src ∧ c.2.2 = e.dst) && inside o n c.2.1 chunkBytes)

def updDrl (s : State) (f : DrlRun → DrlRun) : State := { s with drl := s.drl.map f }
def updEntry (s : State) (i : Nat) (f : DrlEntry → DrlEntry) : State := updDrl s (fun d => { d with entries := d.entries.modify i f })

/-- Read 4 KiB of a source. One that meets an uncorrectable error moves free values (log 29). -/
def readSource (s : State) (r o n : Nat) : List Byte × State :=
  if fenced s r then (rebuildRange s r o n, (rebuildReads s noStep r o n).tock)
  else match readMem s (noStep r) (stackBase r + o) n with
    | (.ok b, s) => (b, s)
    | (.error _, s) => ((List.range n).map (Config.freeByte s.tick), s.tock)

/-- The messages of one chunk of entry `i` are sent, or the chunk is skipped. -/
def sendChunk (s : State) (i : Nat) (e : DrlEntry) : State :=
  let o := e.round * chunkBytes
  let n := min chunkBytes (e.len - o)
  if alreadyRebuilt s e (e.srcOff + o) n then updEntry s i (fun e => { e with st := 1, out := 0, buf := [] })
  else
    let k := n / 4096
    let s := updEntry s i (fun e => { e with st := 1, out := k, buf := [] })
    (List.range k).foldl (fun s j =>
      let off := o + 4096 * j
      let (b, s) := readSource s e.src (e.srcOff + off) 4096
      ask s (.derail i off 4096) { cls := 0xA, src := chunkStop s e.src (e.srcOff + off), dst := e.dst, len := 4096,
                                   addr := stackBase e.dst + e.dstOff + off, data := b }) s

/-- Entries that move into a destination. -/
def movingInto (d : DrlRun) (r : Nat) : Nat := d.entries.countP (fun e => decide (e.dst = r ∧ e.st = 1))

/-- May the group of entry `e` start: a place in staging for each of its members (R270)? -/
def groupFits (d : DrlRun) (g : Nat) : Bool :=
  let m := d.entries.filter (fun e => decide (e.group = g ∧ e.st = 0))
  m.all (fun e => decide (movingInto d e.dst + m.countP (fun x => decide (x.dst = e.dst)) ≤ 8))

/-- Start what staging has room for, in table order. -/
def startEntries (s : State) : State :=
  match s.drl with
  | none => s
  | some d0 =>
    (List.range d0.entries.length).foldl (fun s i =>
      match s.drl with
      | none => s
      | some d =>
        match d.entries[i]? with
        | none => s
        | some e =>
          if e.st ≠ 0 ∨ d.lost ∨ !groupFits d e.group then s
          else (d.entries.zipIdx.filter (fun (x, _) => decide (x.group = e.group ∧ x.st = 0))).foldl (fun s (x, j) => sendChunk s j x) s) s

/-- The round of a group whose reads have all landed is written, and the next one begins, or its entries are finished; a group of which a read
was lost writes no more (R271). -/
def landGroup (s : State) (g : Nat) : State :=
  match s.drl with
  | none => s
  | some d =>
    let m := d.entries.zipIdx.filter (fun (e, _) => decide (e.group = g ∧ e.st = 1))
    if m.isEmpty ∨ m.any (fun (e, _) => decide (e.out ≠ 0)) ∨ d.entries.any (fun e => decide (e.group = g ∧ e.st = 3)) then s
    else
      let s := m.foldl (fun s (e, _) => e.buf.foldl (fun s b =>
        (writeMem (s.bump drlBytesBytes b.2.length) (noStep e.dst) (stackBase e.dst + e.dstOff + b.1) b.2).2) s) s
      m.foldl (fun s (e, i) =>
        let n := e.round + 1
        if e.len ≤ n * chunkBytes then
          (updEntry s i (fun e => { e with st := 2, round := n, buf := [] })).bump drlStatusEntriesDone 1
        else
          let s := updEntry s i (fun e => { e with round := n, buf := [], st := if d.lost then 3 else 1 })
          if d.lost then s else sendChunk s i { e with round := n }) s

/-- The groups of a run. -/
def drlGroups (s : State) : List Nat := ((s.drl.map (·.entries)).getD []).foldl (fun l e => setIns e.group l) []

/-- Every named region is stalled (R52, R270). -/
def drlStalled (s : State) (d : DrlRun) : Bool :=
  d.named.all (stalledFor s (if d.armed then 1 else 2))

/-- Step 3 of R270 once the stall is complete, then whatever can start or go on. -/
def drlPump (s : State) : State :=
  match s.drl with
  | none => s
  | some d =>
    let s := if !d.moving && drlStalled s d then updDrl (d.named.foldl writeBackInv s) (fun d => { d with moving := true }) else s
    if (s.drl.map (·.moving)).getD false then startEntries ((drlGroups s).foldl landGroup s) else s

/-- A run begins, under `GO` or `ARM` (R268, R270). -/
def drlStart (s : State) (table : Nat) (armed : Bool) : State :=
  let es := drlTable s table
  match drlCheck s es with
  | some c => s.put drlStatusCode c
  | none =>
    let l := drlEntries (es.getD [])
    let named := l.foldl (fun n e => setIns e.src (setIns e.dst n)) []
    let s := (((s.put drlStatusCode 0).put drlStatusBusy 1).put drlStatusEntriesDone 0).put drlBytesBytes 0
    let s := { s with drl := some { table := table, armed := armed, named := named, fencedAt := named.filter (fenced s), entries := l } }
    drlPump (if armed then s else named.foldl (fun s r => askStall s 2 r) s)

/-- GO (R268): ignored while a run is in progress or a partial is pending. -/
def execGo (table : BitVec 16) (s : State) : Host.Outcome State Fault Refusal :=
  if quiesced s then .next s else
  let s := s.put drlCtrlTableId table.toNat
  if s.drl.isSome ∨ s.on bsStatusPending then .next s else .next (drlStart s table.toNat false)

/-- The regions that the armed table names, each once (R268). -/
def armedRegions (s : State) : List Nat :=
  if s.on drlCtrlArm then
    ((drlTable s (s.get drlCtrlTableId)).getD []).foldl (fun l e => setIns (dtSrc e) (setIns (dtDst e) l)) []
  else []

/-- While a partial is pending, every region of an armed table counts as affected: one that is not yet is asked to stall (R52, R268). -/
def affectArmed (s : State) : State :=
  match s.bs.part with
  | none => s
  | some p =>
    let more := (armedRegions s).filter (fun r => built s r && !p.affected.contains r)
    let s := { s with bs := { s.bs with part := some { p with affected := p.affected ++ more } } }
    more.foldl (fun s r => askStall s 1 r) s

/-- ARM (R268). -/
def execArm (table : BitVec 16) (set : Bool) (s : State) : Host.Outcome State Fault Refusal :=
  .next (affectArmed ((s.put drlCtrlTableId table.toNat).putB drlCtrlArm set))

/-- A derailleur message lands in staging. -/
def derailLand (s : State) (m : Msg) : State :=
  match tabFind m.mtag s.waiters with
  | some (.derail e off _) => updEntry s e (fun x => { x with out := x.out - 1, buf := tabPut off m.data x.buf })
  | _ => s

/-- DERAIL: the message at index `i` lands; the run goes on as far as it can. -/
def execDerail (i : Nat) (s : State) : Host.Outcome State Fault Refusal :=
  match arriving s i 0xA with
  | none => .next (drlPump s)
  | some m =>
    if freewheels s m.dst then .next (respond { s with ring := s.ring.eraseIdx i } m 1 [])
    else
      let s := derailLand (deliver s i m) m
      .next (drlPump (respond s m 0 []))

/-- Has the run nothing left to do? A run that lost a region ends when its rounds already begun have landed, those into or out of a
region that is gone apart. -/
def drlOver (s : State) (d : DrlRun) : Bool :=
  d.moving && (if d.lost then d.entries.all (fun e => decide (e.st ≠ 1 ∨ e.out = 0) || !running s e.dst || !running s e.src)
               else d.entries.all (fun e => decide (e.st = 2)))

/-- TARGET_LOST: a region of the run has become inaccessible (R271). -/
def execTargetLost (r : Fin 32) (s : State) : Host.Outcome State Fault Refusal :=
  match s.drl with
  | none => .next s
  | some d =>
    let dest := d.entries.any (fun e => decide (e.dst = r.val))
    let source := d.entries.any (fun e => decide (e.src = r.val)) && !d.fencedAt.contains r.val
    if !running s r ∧ (dest || source) then .next (updDrl s (fun d => { d with lost := true })) else .next s

end Sys2Proof.Machine
end

