-- ==== Sys2Proof/Machine/MemCtl.lean ====
section
/-! DEFINITION. Cache control (R192, R205), extra scrub passes (R203), and what a region loses with its power (R333, R352, R365). -/
namespace Sys2Proof.Machine

/-- WB: a write of `WB` in `LLM_CTRL` (R192, R205). Writes to a parked or off region's block are ignored (R351). -/
def execWb (r : Fin 32) (s : State) : Host.Outcome State Fault Refusal :=
  if blockUp s r then .next (writeBack s r) else .next s

/-- INV: a write of `INV` in `LLM_CTRL`. -/
def execInv (r : Fin 32) (s : State) : Host.Outcome State Fault Refusal :=
  if blockUp s r then .next (writeBackInv s r) else .next s

/-- SCRUB_NOW: an extra pass starts, unless one is in progress (R203); SCRUB_PASS ends it (log 30). -/
def execScrubNow (r : Fin 32) (s : State) : Host.Outcome State Fault Refusal :=
  if quiesced s then .next s else
  if blockUp s r && !s.on (stkScrubScrubBusy r) then .next (s.put (stkScrubScrubBusy r) 1) else .next s

/-! ## What the stacks store (R201) -/

/-- The bytes that the stack itself holds of the 64-byte unit at home `h`: those under a dirty line where one stands over it. -/
def stackUnit (s : State) (h : Nat) : List Byte :=
  match tabFind (h / 256) s.lines with
  | some l => if l.dirty then slice l.under (h % 256 / 64 * 64) 64 else tabRange 0 s.mem (h / 64 * 64) 64
  | none => tabRange 0 s.mem (h / 64 * 64) 64

/-- The ciphertext unit in the DRAM devices: AES-XTS-256 under the region's keys, the tweak `n × 2³¹ + (o >> 6)`. -/
def stackCipher (s : State) (h : Nat) : List Byte :=
  xtsSeal (tabGet [] (regionOf h) s.stkKeys) (regionOf h * 2 ^ 31 + h % 0x2000000000 / 64) (stackUnit s h)

/-! ## Loss of a region -/

/-- Registers of region `r`'s block in `[a, b)` back at their reset values. -/
def clearBlock (s : State) (r a b : Nat) : State :=
  { s with regs := tabDrop (fun k => decide (rAddr r a * 8 ≤ k ∧ k < rAddr r b * 8)) s.regs }

/-- The region whose unit waits for an answer. -/
def waiterRegion : Waiter → Option Nat
  | .dmaRead r _ _ _ _ | .dmaAck r _ _ | .veAdd r _ | .veRec r _ _ _ | .slice r _ | .signal r _ _ _ => some r
  | _ => none

/-- Nobody of region `r` waits any more. -/
def dropWaiters (s : State) (r : Nat) : State :=
  let gone := (s.waiters.filter (fun e => decide (waiterRegion e.2 = some r))).map (·.1)
  let s := { s with waiters := s.waiters.filter (fun e => !gone.contains e.1), asked := s.asked.filter (fun e => !gone.contains e.1) }
  s.setStop r { s.stop r with held := [] }

/-- The engines of region `r` forget their work. -/
def dropEngines (s : State) (r : Nat) : State :=
  dropWaiters { s with
    clusters := tabDrop (fun k => decide (k / 96 = r)) s.clusters, upes := tabDrop (fun k => decide (k / 2 = r)) s.upes
    pans := tabErase r s.pans, chans := tabDrop (fun k => decide (k / 64 = r)) s.chans } r

/-- Scratchpads of region `r` hold zeros. -/
def zeroScratch (s : State) (r : Nat) : State := zeroRange s (spBase + 2 * r * 0x20000000) 0x40000000

/-- The step of a live update, in progress or in its engine's FIFO, as its descriptor says. -/
def liveUpdateStep (s : State) (r : Nat) (l : Live) : Option Nat :=
  if cmdOpcode l.bytes ≠ 0x40 ∨ l.disp = 0 ∨ (s.hub r).reqs.any (fun x => decide (x.cmd = some l.id)) then none
  else
    match (readMem s (acctOf r l) (opAddr l.bytes) 128).1 with
    | .ok ud => ((sliceTable s r).1[udSlice ud]?).map (updateStep s r l)
    | .error _ => some l.step

/-- A step of region `r` that the verdict committed and whose update has not ended, in progress or still waiting at its engine (R370). -/
def openUpdate (s : State) (r : Nat) : Option Nat :=
  ((s.hub r).live.filterMap (liveUpdateStep s r)).find? (fun t => (tabFind t (s.flow r).verds).any (fun v => decide (v.v = 1)))

/-- An injection armed at a region that is lost is disarmed without firing (R438). -/
def disarm (s : State) (st : Nat) : State :=
  match s.inj with
  | some j => if j.stop = st ∨ s.bootInj.any (fun e => decide (e.2 = st)) then ({ s with inj := none, bootInj := [] }.puts [(injCtrlArm, 0), (injStatusArmed, 0), (injStatusRejected, 1)]) else s
  | none => s

/-- The cuts that a quarter ramp of region `r`, or its request for one, has put on the running regions of its segment are restored (R338). -/
def endCuts (s : State) (r : Nat) : State := (range' (r / 4 * 4) 4).foldl (fun s x => updPlant s x (fun p => { p with cut := 0 })) s

/-- Region `r` loses its power: its stores, its stack under the lost key, its engines and its registers, but not the registers of its
stop, of its power and of its clocks (R351, R365). `PSTATE` shows how. -/
def loseRegion (s : State) (r pstate : Nat) : State :=
  let s := if s.get (pwrStatPstate r) = 1 ∨ s.get (pwrStatPstate r) = 2 then endCuts s r else s
  let s := updPlant s r (fun p => { p with interrupted := openUpdate s r, unparked := false, probing := none })
  let s := { dropEngines s r with hubs := tabErase r s.hubs, lines := s.lines.filter (fun e => decide (regionOf (e.1 * 256) ≠ r)) }
  let s := zeroScratch (zeroRange (zeroRange s (sliceBase (2 * r)) 0x10000000) (stackBase r) 0x2000000000) r
  let s := clearBlock (clearBlock s r 0x100000 0x480000) r 0x600000 0x680000
  let s := s.puts [(pwrStatPstate r, pstate), (pwrStatPW r, 0), (clkStatRootMhz r, 0), (clkStatTargetMhz r, 0), (clkStatRstate r, 0),
    (clkStatParkTherm r, 0), (clkStatParkCuff r, 0), (pwrParkedParked, setBit (s.get pwrParkedParked) r false)]
  disarm { s with parkOrder := setDel r s.parkOrder, stkKeys := tabErase r s.stkKeys } r

/-- A fatal detector of region `r` trips: the region is lost, and the record is on its way to the CPC (R333, R364). A region already
off or fenced trips nothing; one that awaits admission or ramps does. -/
def tripRegion (s : State) (r code unit d1 pstate : Nat) (inj : Bool) : State :=
  if s.get (clkStatRstate r) = 0 ∧ s.get (pwrStatPstate r) ≠ 1 ∧ s.get (pwrStatPstate r) ≠ 2 then s
  else updPlant (loseRegion s r pstate) r (fun p => { p with due := some (code, unit, d1, inj) })

end Sys2Proof.Machine
end

