-- ==== Sys2Proof/Machine/Resil.lean ====
section
/-! DEFINITION. Seams, fences, restores and the rerun (R358-R370, R377, R379, R380), and scrub passes (R203). -/
namespace Sys2Proof.Machine

/-! ## Seam states (R366) -/

/-- Unfolded members that count as lost: fenced, with their Seams step done (R364). -/
def lostOf (s : State) (m : Seam) : List Nat := (lostMembers s m).filter (fun n => !s.seamsDue.contains n)

/-- Parities that can serve. -/
def parities (s : State) (m : Seam) : Nat := b2n (!fenced s m.pa || s.seamsDue.contains m.pa) + b2n (pbServes s m)

/-- The state of a seam by its losses (R366, R437; log 33). -/
def seamState (s : State) (m : Seam) : Nat :=
  let k := (lostOf s m).length
  let p := parities s m
  if m.st = 0 ∨ m.st = 5 then m.st
  else if p < k then 5
  else if m.st = 3 then 3
  else if 0 < k then 2
  else if p = 0 ∨ (!endurance s && fenced s m.pb && !s.seamsDue.contains m.pb) then 4 else 1

/-- Every seam takes its state; one that enters LOST raises a fatal-module record (R366). -/
def settleSeams (s : State) : State :=
  settleGate (s.seams.foldl (fun s (i, m) =>
    let st := seamState s m
    let s := s.setSeam i { m with st := st }
    let inj := (m.members ++ [m.pa, m.pb]).any (fun n => fenced s n && (s.plant n).lostInj)
    if st = 5 ∧ m.st ≠ 5 then raiseErr s 0x0A05 3 33 (unitOf 9 i) none i 0 inj else s) s)

/-- Stack offsets, in 64-byte units, at which some region of a seam holds a byte or an uncorrectable unit in the covered range. -/
def seamUnits (s : State) (m : Seam) : List Nat :=
  let rs := m.members ++ [m.pa, m.pb]
  let at' := fun (h : Nat) => inStack h && rs.contains (regionOf h) && decide (m.off ≤ h % 0x2000000000 ∧ h % 0x2000000000 < m.off + m.len)
  let put := fun (l : List Nat) (h : Nat) => if at' h then setIns (h % 0x2000000000 / 64 * 64) l else l
  s.marks.foldl (fun l e => put l e.1) (s.mem.foldl (fun l e => put l e.1) [])

/-- Parity bytes of the unit at offset `o` over the members in force (R359): pa, or pb. -/
def parityUnit (s : State) (m : Seam) (pb : Bool) (o : Nat) : List Byte :=
  (range' o 64).map (fun i =>
    (m.members.filter (fun n => !m.folded.contains n)).foldl (fun v n =>
      let b := peek s (stackBase n + i)
      v ^^^ (if pb then gfMul (gPow (m.members.idxOf n)) b else b)) 0)

/-- The bytes of the unit at home `h` as a read finds them, its marks met and corrected on the way (R192, R202); none where it is
uncorrectable. -/
def unitRead (s : State) (h : Nat) : Option (List Byte) × State :=
  match readPiece s (noStep (regionOf h)) h 64 with
  | (.ok b, s) => (some b, s)
  | (.error _, s) => (none, s)

/-- The unit at home `h` is read, and takes `want` where it holds something else: is that so? One that cannot be read is left to R379. -/
def matchUnit (s : State) (h : Nat) (want : List Byte) : Bool × State :=
  match unitRead s h with
  | (none, s) => (false, s)
  | (some b, s) => if b = want then (false, s) else (true, replaceUnit s h want)

/-- One parity unit recomputed and compared (R362): a mismatch is corrected, and recorded when `report`. -/
def refreshUnit (s : State) (i : Nat) (m : Seam) (pb report : Bool) (o : Nat) : State :=
  let n := if pb then m.pb else m.pa
  if fenced s n then s
  else
    let inj := (tabFind (stackBase n + o) s.marks).any (·.inj)
    let x := matchUnit s (stackBase n + o) (parityUnit s m pb o)
    if x.1 && report then raiseErr x.2 0x0A04 0 n (unitOf 9 i) none i o inj else x.2

/-- The members' units at offset `o` are read by the refresher: an uncorrectable one, or one whose
last bytes were lost (R193), leaves the unit out. -/
def refreshRead (s : State) (m : Seam) (o : Nat) : Bool × State :=
  ((m.members.filter (fun n => !m.folded.contains n)).map (fun n => stackBase n + o)).foldl (fun x h =>
    let y := unitRead x.2 h
    (x.1 && y.1.isSome && !y.2.found.contains h, y.2)) (true, s)

/-- A pass over a seam (R362, R363): parity recomputed, pb too in endurance, where it becomes valid unless some unit of it could not be
recomputed. A pb that was not valid is not compared. -/
def seamPass (s : State) (i : Nat) (report : Bool) : State :=
  let m := s.seam i
  let (all, s) := (seamUnits s m).foldl (fun x o =>
    let (ok, s) := refreshRead x.2 m o
    if !ok then (false, s)
    else
      let s := refreshUnit s i m false report o
      let s := if endurance s then refreshUnit s i m true (report && m.pbValid) o else s
      (x.1 && (fenced s m.pb || standing s m.pb o), s)) (true, s)
  s.setSeam i { s.seam i with pbValid := endurance s && (all || m.pbValid) }

/-- Can a pass run: no member is lost, no fold is in progress (log 33)? -/
def passable (s : State) (i : Nat) : Bool := decide ((s.seam i).st = 1 ∨ (s.seam i).st = 4) && (lostMembers s (s.seam i)).isEmpty

/-- SEAM_REFRESH: a refresh pass over a seam ends (R362). -/
def execSeamRefresh (seam : Fin 16) (s : State) : Host.Outcome State Fault Refusal :=
  let s' := { s with refreshing := setDel seam s.refreshing }
  if passable s seam then .next (settleSeams (seamPass s' seam true)) else .next s'

/-- REFRESH_NOW: an extra pass over every seam starts; SEAM_REFRESH ends each (R362, log 30). -/
def execRefreshNow (s : State) : Host.Outcome State Fault Refusal :=
  if quiesced s then .next s else
  .next { s with refreshing := s.seams.foldl (fun l e => if passable s e.1 then setIns e.1 l else l) s.refreshing }

/-- A mode switch changes the parity upkeep (R363): into endurance pb deltas start, pb is invalid and a pass is due; out of it pb is no
longer valid. -/
def seamMode (s : State) (old new : Nat) : State :=
  if (old = 2) = (new = 2) then s
  else
    let s := { s with seams := s.seams.map (fun e => (e.1, { e.2 with pbValid := false })) }
    let s := if new = 2 then { s with refreshing := s.seams.foldl (fun l e => setIns e.1 l) s.refreshing } else s
    settleSeams s

/-! ## Folding (R369) -/

/-- FOLD: a write of `FOLD` for a DEGRADED seam. -/
def execFold (seam : Fin 16) (s : State) : Host.Outcome State Fault Refusal :=
  if quiesced s then .next s else
  let m := s.seam seam
  if m.st = 2 then .next (s.setSeam seam { m with st := 3, leaving := lostOf s m }) else .next s

/-- The byte of member `n` at stack offset `o`: as it stands, else as the seam rebuilds it; none where neither can be had. -/
def memberByte (s : State) (m : Seam) (n o : Nat) : Option Byte :=
  if !fenced s n && standing s n o then some (peek s (stackBase n + o)) else rebuildByte s m (setIns n (lostMembers s m)) n o

/-- A parity unit over the members `keep`, from what stands and what the old parity rebuilds. -/
def foldedUnit (s : State) (m : Seam) (keep : List Nat) (pb : Bool) (o : Nat) : List (Option Byte) :=
  (range' o 64).map (fun i => keep.foldl (fun v n =>
    match v, memberByte s m n i with
    | some v, some b => some (v ^^^ (if pb then gfMul (gPow (m.members.idxOf n)) b else b))
    | _, _ => none) (some 0))

/-- A recomputed parity unit is stored; a byte that nothing gives is a free value (log 33). True where all are known. -/
def storeParity (s : State) (n o : Nat) (want : List (Option Byte)) : Bool × State :=
  if fenced s n then (true, s)
  else (want.all (·.isSome), (replaceUnit s (stackBase n + o) (want.mapIdx (fun i b => b.getD (Config.freeByte s.tick i)))).tock)

/-- The parity of the unit at offset `o` recomputed over the members that stay (R369): pa, and pb in endurance. -/
def foldUnit (s : State) (m : Seam) (keep : List Nat) (o : Nat) : Bool × State :=
  let s := (refreshRead s { m with folded := m.folded ++ lostMembers s m } o).2
  let a := foldedUnit s m keep false o
  let b := foldedUnit s m keep true o
  let x := storeParity s m.pa o a
  if endurance s then
    let y := storeParity x.2 m.pb o b
    (x.1 && y.1, y.2)
  else x

/-- FOLD_DONE: the fold ends, and the seam stands over its survivors with its parity recomputed, also where a further member has been
lost, whose data the new parity goes on standing for. -/
def execFoldDone (seam : Fin 16) (s : State) : Host.Outcome State Fault Refusal :=
  let m := s.seam seam
  if m.st ≠ 3 then .next s
  else
    let gone := m.leaving.foldl (fun l n => setIns n l) m.folded
    let (all, s) := (seamUnits s m).foldl (fun x o =>
      let y := foldUnit x.2 m (m.members.filter (fun n => !gone.contains n)) o
      (x.1 && y.1, y.2)) (true, s)
    .next (settleSeams (s.setSeam seam { s.seam seam with st := 1, folded := gone, leaving := [], pbValid := endurance s && all }))

/-! ## Background rebuild (R368) -/

/-- 1 MiB chunks of a fenced member's covered range that are not yet rebuilt into the target, ascending: seam by seam (log 33). -/
def nextChunk (s : State) : Option (Nat × Nat × Nat) :=
  (s.seams.filter (fun e => decide (e.2.st = 2))).findSome? (fun (i, m) =>
    (lostOf s m).findSome? (fun n =>
      ((List.range (ceilDiv m.len chunkBytes)).map (fun k => m.off + k * chunkBytes)).findSome? (fun o =>
        if s.rebuilt.contains (n, o, s.get seamCtrlRbTarget) then none else some (i, n, o))))

/-- Does a derailleur run read the member now? -/
def drlReads (s : State) (n : Nat) : Bool := s.drl.any (fun d => d.entries.any (fun e => decide (e.src = n ∧ e.st ≠ 2)))

/-- BACKGROUND_REBUILD_CHUNK: the next chunk of a fenced member is written to the spare target at the same offset; one that cannot
be written is not done. -/
def execBackgroundRebuildChunk (s : State) : Host.Outcome State Fault Refusal :=
  if quiesced s then .next s else
  let t := s.get seamCtrlRbTarget
  match nextChunk s with
  | none => .next s
  | some (i, n, o) =>
    let k := min chunkBytes ((s.seam i).off + (s.seam i).len - o)
    if !s.on seamCtrlRbEn ∨ useOf s t ≠ 2 ∨ !running s t ∨ drlReads s n then .next s
    else
      match writeMem (rebuildReads s ownAcct n o k) (ownAcct t) (stackBase t + o) (rebuildRange s n o k) with
      | (some _, s) => .next s.tock
      | (none, s) => .next ({ s.tock with rebuilt := s.rebuilt ++ [(n, o, t)] }.bump fencedRbChunks 1)

/-! ## The snapshot set and chains (R371, R377) -/

/-- A range of a region's snapshot set: body kind (R373), address, length, whether a journal record always holds it, and whether it is a
protected tensor, which one holds where the step's updates wrote it. -/
structure SnapRange where
  kind : Nat
  addr : Nat
  len : Nat
  journal : Bool
  tensor : Bool := false
  deriving DecidableEq, Repr

/-- Is a device range wholly inside the covered range of a seam in the region of its first byte (R358)? -/
def coveredRange (s : State) (a n : Nat) : Bool :=
  inStack a && s.seams.any (fun (_, m) => decide (m.st ≠ 0 ∧ m.members.contains (a / 0x2000000000) ∧ !m.folded.contains (a / 0x2000000000)) &&
    inside (a % 0x2000000000) n m.off m.len)

/-- The region that holds a device address. -/
def regionAt (s : State) (a : Nat) : Nat := ((homeOf s a).map regionOf).getD 32

/-- Resident tensors of region `r` that no seam covers, and those with `PROTECT` 1. -/
def ownTensors (s : State) (r : Nat) : List (List Byte) :=
  (tensorsOf (secOf s 4)).filter (fun e => decide (tnMode e = 0 ∧ regionAt s (tnBase e) = r) &&
    (decide (getLe e 7 1 = 1) || !coveredRange s (tnBase e) (tnBytes e)))

/-- Did a partial move the tensor outside every seam, so that only whole-state checkpoints protect it (R358)? -/
def movedTensor (s : State) (e : List Byte) : Bool :=
  decide (getLe e 7 1 ≠ 1) && (tabFind (tnId e) s.bs.placed).any (fun b => decide (b ≠ tnBase e))

/-- Resident tensors that snapshots protect, of region `r` (R358). -/
def snapTensors (s : State) (r : Nat) : List (Nat × Nat) :=
  ((ownTensors s r).filter (fun e => !movedTensor s e)).map (fun e => (tnBase e, tnBytes e))

/-- The snapshot set of a region (R371), without its token image and step counter. -/
def snapSet (s : State) (r : Nat) : List SnapRange :=
  let (l, _) := sliceTable s r
  let (sr, _) := addrList s r (s.get (dfSrecListAddr r)) (s.get (dfSrecListN r))
  let (pr, _) := addrList s r (s.get (predListListAddr r)) (s.get (predListListN r))
  let n := s.get (snapListListN r)
  let listed := match (readMem s (noStep r) (s.get (snapListListAddr r)) (16 * n)).1 with
    | .ok b => if n = 0 then [] else entriesAt b 0 16 n
    | .error _ => []
  (snapTensors s r).map (fun t => { kind := 0, addr := t.1, len := t.2, journal := false, tensor := true }) ++
  listed.map (fun e => { kind := 0, addr := getLe e 0 8, len := getLe e 8 4, journal := bitAt (getLe e 12 4) 0 }) ++
  sr.map (fun a => { kind := 1, addr := a, len := 320, journal := true }) ++ pr.map (fun a => { kind := 2, addr := a, len := 128, journal := true }) ++
  (l.filter (fun x => decide (x.dest = 0))).map (fun x => { kind := 3, addr := x.target, len := 128, journal := true }) ++
  [{ kind := 4, addr := stackBase r + stepPage, len := 64, journal := true }]

/-- A record as a restore leaves it (R377): its pending fields are 0. -/
def restoredImage (kind : Nat) (b : List Byte) : List Byte :=
  match kind with
  | 1 => patch (patch b 4 (List.replicate 12 0)) 32 (List.replicate 8 0)
  | 2 => patch b 0x28 (List.replicate 32 0)
  | _ => b

def State.chain (s : State) (r : Nat) : Chain := tabGet {} r s.chains
def State.setChain (s : State) (r : Nat) (c : Chain) : State := { s with chains := tabPut r c s.chains }

/-- The latest image of every entry of a chain, with the step of its object: later objects replace earlier ones. -/
def latestImages (objs : List SnapObj) : List (SnapEntry × Nat) :=
  objs.foldl (fun acc o => o.entries.foldl (fun acc e =>
    match acc.findIdx? (fun x => decide (x.1.kind = e.kind ∧ x.1.addr = e.addr)) with
    | some i => acc.set i (e, o.step)
    | none => acc ++ [(e, o.step)]) acc) []

/-! ## Restoring units (R379) -/

/-- Bytes written back over a unit: the error is gone. No delta is sent, since the parity already stands for them. -/
def restoreBytes (s : State) (h : Nat) (b : List Byte) : State :=
  (replaceUnit s h b).bump (resStatRestoredUnits (regionOf h)) 1

/-- Does a device range hold home address `h`? -/
def holdsHome (s : State) (a n h : Nat) : Bool := ((homesOf s a n).getD []).any (fun e => decide (e.1 ≤ h ∧ h < e.1 + e.2))

/-- The device address in `[a, a + n)` whose home is `h`. -/
def deviceOf (s : State) (a n h : Nat) : Nat :=
  ((atHomes s a n).getD []).findSome? (fun e => if e.2.1 ≤ h ∧ h < e.2.1 + e.2.2 then some (e.1 + (h - e.2.1)) else none) |>.getD a

/-- The last committed step of a region. -/
def lastCommit (s : State) (r : Nat) : Option Nat := ((s.flow r).verds.filter (fun e => decide (e.2.v = 1))).getLast?.map (·.1)

/-- A unit of an object of the snapshot set, from its chain: metadata that any later commit has updated, and data that a later update wrote,
is older than the object's last committed update; without a chain that holds it the data is unprotected. -/
def restoreFromChain (s : State) (r h : Nat) (x : SnapRange) : State :=
  let d := deviceOf s x.addr x.len h
  let inj := (tabFind h s.marks).any (·.inj)
  match (latestImages (s.chain r).objs).find? (fun e => decide (e.1.kind = x.kind ∧ e.1.addr ≤ d ∧ d < e.1.addr + e.1.data.length)) with
  | none => s.put (resStatRerunHold r) 1
  | some (e, t) =>
    let s := restoreBytes s h (slice (restoredImage e.kind e.data) (d - e.addr) (unitBytes h))
    let s := if e.kind = 4 then s.puts [(lsCurScale, getLe e.data 12 4), (lsCurClean, getLe e.data 24 4)] else s
    match lastCommit s r with
    | some c => if t < c ∧ (x.kind ≠ 0 ∨ (s.flow r).updated.any (fun u => decide (t < u.1) && holdsHome s u.2.1 u.2.2 h)) then
        raiseErr s 0x060A 1 r 0 none 0 c inj else s
    | none => s

/-- Transient data, which the rerun recreates (R379): in a stack the pannier's area, the rings and the staging area; in an SRAM everything but
the tables and lists themselves (log 33). -/
def transientUnit (s : State) (r h : Nat) : Bool :=
  let hit := fun (a n : Nat) => holdsHome s a n h
  if inStack h then
    let o := h % 0x2000000000
    decide (min (stepPage - s.get (panBudgetBudget r)) ((s.pan r).reservedLo.getD stepPage) ≤ o ∧ o < stepPage) ||
    (List.range 8).any (fun q => s.on (qCtrlEnable r q) && hit (s.get (qBaseBase r q)) 65536) ||
    (List.range 16).any (fun c => s.on (cqCtrlEnable r c) && hit (s.get (cqBaseBase r c)) (32 * 2 ^ s.get (cqCtrlLog2N r c))) ||
    hit (s.get bsStageStageAddr) (s.get bsLenLen)
  else
    !(hit (s.get (dfSliceTableAddr r)) (32 * s.get (dfSliceTableN r)) || hit (s.get (dfSrecListAddr r)) (8 * s.get (dfSrecListN r)) ||
      hit (s.get (predListListAddr r)) (8 * s.get (predListListN r)) || hit (s.get (snapListListAddr r)) (16 * s.get (snapListListN r)))

/-- One unit found uncorrectable is restored by what protects it (R379); where nothing does and it is not transient, the region holds its
rerun. -/
def restoreUnit (s : State) (h : Nat) : State :=
  let r := regionOf h
  let o := h % 0x2000000000
  let n := unitBytes h
  if covered s h && canRebuild s h then
    restoreBytes (rebuildReads s ownAcct r o n) h ((List.range n).map (fun i => (rebuiltByte s r (o + i)).getD 0))
  else if inStack h && inParity s r o then
    match s.seams.find? (fun e => decide (e.2.st ≠ 0 ∧ e.2.off ≤ o ∧ o < e.2.off + e.2.len ∧ (r = e.2.pa ∨ r = e.2.pb))) with
    | some (_, m) => if (lostMembers s m).isEmpty && m.members.all (fun x => m.folded.contains x || standing s x o) then restoreBytes s h (parityUnit s m (decide (r ≠ m.pa)) o) else s
    | none => s
  else match (snapSet s r).find? (fun x => holdsHome s x.addr x.len h) with
    | some x => restoreFromChain s r h x
    | none =>
      match (tensorsOf (secOf s 4)).find? (fun e => holdsHome s (tnBase e) (tnBytes e) h) with
      | none => if transientUnit s r h then { s with found := setDel h s.found } else s.put (resStatRerunHold r) 1
      | some e =>
        let k := s.streams.find? (fun x => seValid x.2 && decide (seTensor x.2 = tnId e))
        if tnMode e = 1 then
          match k with
          | some (k, _) => { dropReplica s k true with found := setDel h s.found }
          | none => s.put (resStatRerunHold r) 1
        else s.put (resStatRerunHold r) 1

/-- SCRUB_PASS: a pass over the stack of a region ends: the extra one where one is in progress (R202, R203, R379, log 30). The
scrubber pauses while the stack is in self-refresh. -/
def execScrubPass (r : Fin 32) (s : State) : Host.Outcome State Fault Refusal :=
  if !running s r then .next s
  else
    let mine := s.marks.filter (fun e => inStack e.1 && decide (regionOf e.1 = r.val))
    let s := mine.foldl (fun s (h, _) =>
      match tabFind h s.marks with
      | none => s
      | some m =>
        if m.ue then restoreUnit (raiseErr (s.bump (stkEccUncorr r) 1) 0x0108 1 r 0 none h 0 m.inj) h
        else correctUnit s h m) s
    let k := r.val * 2 + b2n (s.on (stkScrubScrubBusy r))
    let s := { s with scrubDevs := tabDrop (fun i => decide (i / 32 = k)) s.scrubDevs }
    .next ((s.put (stkScrubScrubBusy r) 0).bump (stkScrubPasses r) 1)

/-! ## Fences (R364-R366, R370) -/

/-- The step of region `r` whose update the loss interrupted, or whose journal record is not durable (R370). -/
def interruptedStep (s : State) (r : Nat) : Option Nat :=
  match (s.plant r).interrupted with
  | some t => some t
  | none =>
    if s.on snapCtrlSnapEn then ((s.flow r).verds.find? (fun e => decide (e.2.v = 1 ∧ (s.flow r).durable ≤ e.1 ∧ s.snaps.since ≤ e.1))).map (·.1) else none

/-- The Seams step of a fenced region. -/
def seamsStep (s : State) (r : Nat) : State :=
  let s := match interruptedStep s r with
    | some t => raiseErr s 0x060A 1 r 0 (some t) 0 t (s.plant r).lostInj
    | none => s
  let s := updPlant s r (fun p => { p with interrupted := none })
  settleSeams { s with seamsDue := setDel r s.seamsDue }

/-- Detect, Mark and Gate of a fence: the record is raised, the region is off in every map and no voter, and the gate issues FAIL for
every step without a verdict, also again for a step that already failed and has not rerun (log 28). The Seams step follows the drain. -/
def fenceRegion (s : State) (r code unit d1 : Nat) (inj : Bool) : State :=
  let open' := openSteps s
  let s := updPlant (raiseErr s code 2 r unit none 0 d1 inj) r (fun p => { p with lostInj := inj })
  let s := disarm (s.put fencedMask (setBit (s.get fencedMask) r true)) r
  let s := { s with seamsDue := setIns r s.seamsDue }
  -- one loss counts once: only the earliest of the steps carries it to the port dies and hubs (R310, R380; log 28)
  let s := settleGate { s with gate := { s.gate with
    forced := open'.foldl (fun l k => setIns k l) s.gate.forced, byFence := (open'.take 1).foldl (fun l k => setIns k l) s.gate.byFence } }
  match s.gate.rerun with
  | none => seamsStep s r
  | some t =>
    if s.gate.fenceFail then s
    else sendVerdict { s with gate := { s.gate with fenceFail := true } } t 3 s.gate.clip (s.get lsCurScale) (s.get lsCurClean) true

/-- FENCE: a fatal detector's report reaches the CPC (R364). -/
def execFence (r : Fin 32) (code : BitVec 16) (s : State) : Host.Outcome State Fault Refusal :=
  match (s.plant r).due with
  | some (c, u, d1, inj) =>
    if c = code.toNat then .next (fenceRegion (updPlant s r (fun p => { p with due := none })) r c u d1 inj) else .next s
  | none => .next s

/-! ## The rerun (R377, R380) -/

/-- A slice is zero and OPEN, with no contributions and no signal (R377). -/
def clearSlice (s : State) (r : Nat) (x : Slice) : State :=
  let s := if inOwnLlm s r x.base x.bytes then zeroRange s x.base x.bytes else s
  putSlice (putSlice (putSlice s r x 0x10 2 0) r x 0x12 2 0) r x 0x14 1 0

/-- The tokens of a region set to an image (R371, R377). -/
def setTokens (s : State) (r : Nat) (img : Tab Nat) : State :=
  let s := clearBlock s r 0x110000 0x118000
  img.foldl (fun s e => s.put (tokenValue r e.1) e.2) s

/-- A region's part of step `t` and of later ones starts afresh. -/
def rewindFlow (f : Flow) (t : Nat) : Flow :=
  let below := fun {β : Type} (l : Tab β) => l.filter (fun e => decide (e.1 < t))
  { f with
    nf := f.nf.filter (fun k => decide (k < t)), fail := f.fail.filter (fun k => decide (k < t)), gets := f.gets.filter (fun k => decide (k < t))
    sumsq := below f.sumsq, told := below f.told, verds := below f.verds, done := t, voted := t
    released := f.released.filter (fun e => decide (e.2 ≤ t)), scanned := f.scanned.filter (fun e => decide (e.2 ≤ t)), acks := [] }

/-- Step 4 of R380 at one voter, and the restart of its looping programs, also of those that had reached `STEP_LIMIT`. The entries of the failed step's puts are free by then (R146). -/
def rerunHub (s : State) (r t : Nat) : State :=
  let s := setEntries s r []
  let (l, s) := sliceTable s r
  let s := l.foldl (fun s x => clearSlice s r x) s
  let s := match (s.hub r).images.find? (fun e => decide (e.1 = t)) with
    | some (_, img) => setTokens s r img
    | none => s
  let c := s.get (hubStepCntStep r)
  let s := s.puts [(hubStepCntStep r, t), (resStatDrained r, 0), (dfStatusAheadStall r, 0)]
  let heads := (loopQueues s r).filter (fun q => !s.on (qStatusProgStopped r q))
  let s := heads.foldl (fun s q => s.puts [(qHeadHead r q, 0), (qStatusProgDone r q, 0)]) s
  let s := s.updHub r (fun h => { h with
    draining := false, drainStruck := false, fresh := true, advanced := h.advanced - (c - t), atWrap := [], images := h.images.filter (fun e => decide (e.1 ≤ t)) })
  let gone := (s.waiters.filter (fun e => match e.2 with | .slice x _ => decide (x = r) | _ => false)).map (·.1)
  let s := { s with waiters := s.waiters.filter (fun e => !gone.contains e.1), asked := s.asked.filter (fun e => !gone.contains e.1) }
  updFlow s r (fun f => rewindFlow f t)

/-- RERUN_START: every drained report is in, and no verdict is still on its way. Gradients of the failed steps that are still on their way
to a port die go with its unsent pages (R307, log 27), and no stream awaits the rerun any longer (R310). -/
def execRerunStart (s : State) : Host.Outcome State Fault Refusal :=
  match s.gate.rerun with
  | none => .next s
  | some t =>
    if !(voters s).all (fun r => s.gate.drained.contains r) || s.ring.any (fun m => decide (m.cls = 9)) then .next s
    else
      let s := s.seamsDue.foldl seamsStep s
      let s := { s.found.foldl restoreUnit s with found := [] }
      let s := (voters s).foldl (fun s r => rerunHub s r t) s
      let g := s.gate
      .next (settleGate { s with
        ring := s.ring.filter (fun m => !decide (m.cls = 8 ∧ t ≤ m.step) && !decide (m.cls = 4 ∧ 32 ≤ m.dst ∧ t ≤ m.step))
        pages := s.pages.filter (fun p => decide (p.st = 3 ∨ p.step < t))
        streams := s.streams.map (fun e => (e.1, { e.2 with afterFail := false }))
        gate := { g with
          next := t, tally := g.tally.filter (fun e => decide (e.1 < t)), forced := g.forced.filter (fun k => decide (k < t))
          byFence := g.byFence.filter (fun k => decide (k < t)), warned := g.warned.filter (fun k => decide (k < t))
          drained := [], rerun := none, fenceFail := false } })

/-- RESUME: a write of `RESUME` clears `RERUN_HOLD` (R380). -/
def execResume (r : Fin 32) (s : State) : Host.Outcome State Fault Refusal :=
  if blockUp s r then .next (s.put (resStatRerunHold r) 0) else .next s

end Sys2Proof.Machine
end

