-- ==== Sys2Proof/Machine/Ckpt.lean ====
section
/-! DEFINITION. Snapshots, the journal, restores to another region, whole-state checkpoints (R371-R378, R395). -/
namespace Sys2Proof.Machine

/-! ## Objects (R372, R373) -/

/-- The effective bitstream digest (R47, R52). -/
def bsDigest (s : State) : List Byte := [0, 1, 2, 3].flatMap (fun i => natLe 8 (s.get (bsDigestDigest i)))

/-- A body entry with its data padded to 64 bytes. -/
def entryBytes (e : SnapEntry) : List Byte :=
  natLe 1 e.kind ++ natLe 7 0 ++ natLe 8 e.addr ++ natLe 8 e.data.length ++ natLe 8 0 ++ padTo (alignUp e.data.length 64) e.data

def entriesBytes (l : List SnapEntry) : List Byte := l.flatMap entryBytes

/-- Entries read back from a body. -/
def entriesOf : Nat → List Byte → List SnapEntry
  | 0, _ => []
  | k + 1, b =>
    if b.isEmpty then []
    else
      let n := getLe b 16 8
      { kind := getLe b 0 1, addr := getLe b 8 8, data := slice b 32 n } :: entriesOf k (b.drop (32 + alignUp n 64))

/-- The 128-byte header. -/
def snHeader (s : State) (kind region entries step bytes : Nat) (prev nonce : List Byte) : List Byte :=
  ascii "HTWSNAP1" ++ natLe 1 kind ++ natLe 1 region ++ natLe 2 1 ++ natLe 4 entries ++ natLe 8 step ++ natLe 8 bytes ++
  padTo 16 s.bs.jobId ++ bsDigest s ++ padTo 32 prev ++ padTo 12 nonce ++ natLe 4 0

/-- An object: its stored bytes and the state after the draw of its nonce. -/
def sealObject (s : State) (key : List Byte) (kind region step : Nat) (prev : List Byte) (n : Nat) (body : List Byte) : List Byte × State :=
  let (nonce, s) := s.draw 12
  let h := snHeader s kind region n step (128 + body.length + 16) prev nonce
  (h ++ gcmSeal key nonce h body, s)

/-- Unreadable units of a device range, by device address and length, ascending. -/
def badUnits (s : State) (a n : Nat) : List (Nat × Nat) :=
  ((((atHomes s a n).getD []).flatMap (fun e => (badSpots s e.2.1 e.2.2).map (fun h =>
    let u := max e.2.1 (h / unitBytes h * unitBytes h)
    (e.1 + (u - e.2.1), unitBytes h)))).foldl (fun t e => tabPut e.1 e.2 t) [])

/-- What is left of `[a, fin)` between units. -/
def runsAround (a fin : Nat) : List (Nat × Nat) → List (Nat × Nat)
  | [] => if a < fin then [(a, fin - a)] else []
  | (b, k) :: t => (if a < b then [(a, b - a)] else []) ++ runsAround (max a (b + k)) fin t

/-- Units of a device range that cannot be read, and that a seam can rebuild, are restored (R379). -/
def mendRange (s : State) (a n : Nat) : State :=
  (((homesOf s a n).getD []).flatMap (fun e => (badSpots s e.1 e.2).map (fun h => h / unitBytes h * unitBytes h))).foldl (fun s h =>
    if covered s h && canRebuild s h then restoreUnit s h else s) s

/-- One range of the set as entries: units that can be rebuilt are, and where others cannot be read the range is saved around them; a record
that cannot be read whole has no entry (log 34). -/
def rangeEntry (s : State) (r kind a n : Nat) : List SnapEntry × State :=
  let s := mendRange s a n
  let gaps := badUnits s a n
  match readMem s (noStep r) a n with
  | (.ok b, s) => ([{ kind := kind, addr := a, data := b }], s)
  | (.error _, s) =>
    if kind ≠ 0 then ([], s)
    else (runsAround a (a + n) gaps).foldl (fun (l, s) e =>
      match readMem s (noStep r) e.1 e.2 with
      | (.ok b, s) => (l ++ [{ kind := 0, addr := e.1, data := b }], s)
      | (.error _, s) => (l, s)) ([], s)

def rangeEntries (s : State) (r : Nat) (l : List SnapRange) : List SnapEntry × State :=
  l.foldl (fun (acc, s) x => let (e, s) := rangeEntry s r x.kind x.addr x.len; (acc ++ e, s)) ([], s)

/-- The last committed step of a region up to step `t`: `SN_STEP` of an object written after its verdict (R372); before any commit 0 (log 34). -/
def snStepOf (s : State) (r t : Nat) : Nat := ((s.flow r).verds.filter (fun e => decide (e.2.v = 1 ∧ e.1 ≤ t))).getLast?.map (·.1) |>.getD 0

/-- The token image of an object written after the verdict of step `t`, and the step counter, `SN_STEP` + 1 (R373, R377). -/
def metaEntries (s : State) (r t step : Nat) : List SnapEntry :=
  let img := ((s.hub r).images.find? (fun e => decide (e.1 = t + 1))).map (·.2) |>.getD (tokenImage s r)
  [{ kind := 5, addr := 0, data := (List.range 4096).flatMap (fun i => natLe 4 (tabGet 0 i img)) }, { kind := 6, addr := 0, data := natLe 8 (step + 1) }]

/-! ## Writing to the snapshot peer (R374) -/

/-- `SNAP_PEER` can be written: enabled, and a usable S-class entry. -/
def snapReady (s : State) : Bool :=
  let p := s.get snapCtrlSnapPeer
  s.on snapCtrlSnapEn && peerUsable s p && decide (peerClass (s.peer p) = 2)

/-- Post an object at an offset of the snapshot space. -/
def postObject (s : State) (off : Nat) (b : List Byte) (use : QpUse) : State :=
  qpPost s (s.get snapCtrlSnapPeer) { op := 0, addr := s.get snapAddrAddr + off, len := b.length, data := b, use := use }

/-- The half in use: offset of its next object. -/
def halfOff (s : State) : Nat := s.snaps.begun % 2 * s.get snapLenLen + s.snaps.fill

/-- An object of region `r` is built, counted in its half, and on its way, after the verdict of step `t`: it joins the chain when it is
acknowledged. -/
def writeChainObject (s : State) (r kind t : Nat) (prev : List Byte) (es : List SnapEntry) (use : QpUse) : State :=
  let step := snStepOf s r t
  let es := es ++ metaEntries s r t step
  let (b, s) := sealObject s (s.ckptKey.getD []) kind r step prev es.length (entriesBytes es)
  let o : SnapObj := { kind := kind, step := step, digest := sha256 b, off := halfOff s, entries := es, len := b.length, upto := t }
  let s := postObject s (halfOff s) b use
  let c := s.chain r
  { s with snaps := { s.snaps with fill := s.snaps.fill + b.length } }.setChain r { c with out := c.out ++ [o] }

/-- SNAPSHOT: the snapshot that is due is written for every running region once their updates are done (R371, R374, R395). -/
def execSnapshot (s : State) : Host.Outcome State Fault Refusal :=
  if quiesced s then .next s else
  let rs := (List.range 32).filter (fun r => running s r)
  if !snapReady s || (s.ckptKey.isNone && s.ckptNew.isNone) || !s.snaps.due || decide (s.snaps.out ≠ 0) || !rs.all (fun r => updatesDone s r) then .next s
  else
    let s := match s.ckptNew with
      | some k => { s with ckptOld := s.ckptKey, ckptKey := some k, ckptNew := none }
      | none => s
    let s := { s with snaps := { s.snaps with begun := s.snaps.begun + 1, fill := 0, commits := 0, asked := false, due := false, out := rs.length } }
    let s := rs.foldl (fun s r =>
      let (es, s) := rangeEntries s r (snapSet s r)
      let t := (lastCommit s r).getD 0
      writeChainObject s r 0 t [] es (.snapshot r)) s
    .next (s.put snapStatusBusy (b2n (decide (s.snaps.out ≠ 0))))

/-- SNAP_NOW: a snapshot starts at the next commit. -/
def execSnapNow (s : State) : Host.Outcome State Fault Refusal :=
  if quiesced s then .next s else .next { s with snaps := { s.snaps with asked := true } }

/-- The earliest step of region `r` whose journal record is due: a COMMIT or SKIP since `SNAP_EN` was set that it has not journaled. -/
def journalDue (s : State) (r : Nat) : Option Nat :=
  ((s.flow r).verds.find? (fun e => decide (e.2.v ≠ 3 ∧ (s.flow r).journaled ≤ e.1 ∧ (s.flow r).durable ≤ e.1 ∧ s.snaps.since ≤ e.1))).map (·.1)

/-- What a journal record holds of the set: metadata and `PER_STEP` ranges, and protected tensors that updates of the step wrote (R371). -/
def journalSet (s : State) (r t : Nat) : List SnapRange :=
  (snapSet s r).filter (fun x => x.journal || x.tensor && (s.flow r).updated.any (fun u => decide (u.1 = t) && overlaps u.2.1 u.2.2 x.addr x.len))

/-- JOURNAL_RECORD: a region's record of its next step is written once its updates are done. -/
def execJournalRecord (r : Fin 32) (s : State) : Host.Outcome State Fault Refusal :=
  if quiesced s then .next s else
  match journalDue s r with
  | none => .next s
  | some t =>
    if !snapReady s || s.ckptKey.isNone || !running s r || !updatesDone s r then .next s
    else
      let c := s.chain r
      let prev := ((c.out.getLast?.orElse (fun _ => c.objs.getLast?)).map (·.digest)).getD []
      let (es, s) := rangeEntries s r (journalSet s r t)
      .next (updFlow (writeChainObject s r 1 t prev es (.journal r)) r (fun f => { f with journaled := t + 1 }))

/-- `DURABLE_STEP`: the highest step for which the record of every region that runs the job is durable (R374); a spare gets no verdict and
owes none. -/
def settleDurable (s : State) : State :=
  match (voters s).map (fun r => (s.flow r).durable) with
  | [] => s
  | d :: t => let m := t.foldl min d; if s.snaps.since < m then s.put snapStatusDurableStep (m - 1) else s

/-- The oldest object of a region's chain that is out is acknowledged: a snapshot begins the chain anew (R374, R375). -/
def objectDurable (s : State) (r : Nat) : State :=
  let c := s.chain r
  match c.out with
  | [] => s
  | o :: rest =>
    let s := s.setChain r { objs := if o.kind = 0 then [o] else c.objs ++ [o], out := rest }
    let s := updFlow s r (fun f => { f with updated := f.updated.filter (fun u => decide (o.upto < u.1)) })
    if o.kind = 0 then
      let s := { s with snaps := { s.snaps with out := s.snaps.out - 1 } }
      if s.snaps.out = 0 then { s with ckptOld := none }.put snapStatusBusy (b2n (decide (s.snaps.ckpt ≠ 0))) else s
    else settleDurable (updFlow s r (fun f => { f with durable := max f.durable (o.upto + 1) }))

/-- A write of the chain fails for good: the object never becomes durable. -/
def objectLost (s : State) (r : Nat) : State :=
  let c := s.chain r
  match c.out with
  | [] => s
  | o :: rest =>
    let s := s.setChain r { c with out := rest }
    if o.kind = 0 then
      let s := { s with snaps := { s.snaps with out := s.snaps.out - 1 } }
      if s.snaps.out = 0 then s.put snapStatusBusy (b2n (decide (s.snaps.ckpt ≠ 0))) else s
    else s

/-! ## Restore of a chain (R375, R376) -/

def snKind (b : List Byte) : Nat := getLe b 8 1
def snRegion (b : List Byte) : Nat := getLe b 9 1
def snEntries (b : List Byte) : Nat := getLe b 12 4
def snStep (b : List Byte) : Nat := getLe b 16 8
def snPrev (b : List Byte) : List Byte := slice b 0x50 32

/-- The body of an object under any key that the CPC keeps. -/
def openObject (s : State) (b : List Byte) : Option (List Byte) :=
  ([s.ckptKey, s.ckptNew, s.ckptOld].filterMap id).findSome? (fun k => gcmOpen k (slice b 0x70 12) (b.take 128) (b.drop 128))

/-- The checks of R375 on one object: the code of the first that fails, else its entries. -/
def checkObject (s : State) (digest b : List Byte) (sameRegion : Bool) : Except Nat (List SnapEntry) :=
  if sha256 b ≠ digest then .error 0x10
  else match openObject s b with
    | none => .error 0x11
    | some body =>
      if slice b 0x20 16 ≠ padTo 16 s.bs.jobId ∨ (sameRegion ∧ slice b 0x30 32 ≠ bsDigest s) then .error 0x12
      else .ok (entriesOf (snEntries b) body)

/-- The chain from its last object backwards, as storage returned it: the images of its objects, oldest first, or the code and the
index of the first failure. -/
def readChain (s : State) (same : Bool) : Nat → List Byte → List (List Byte) → List (List SnapEntry) → Except (Nat × Nat) (List (List SnapEntry))
  | _, _, [], _ => .error (0x10, 0)
  | i, d, b :: t, acc =>
    match checkObject s d b same with
    | .error c => .error (c, i)
    | .ok es => if snKind b = 0 then .ok (es :: acc) else readChain s same (i + 1) (snPrev b) t (es :: acc)

/-- What a chain's entries, oldest first, bring back of the tokens and the step record (R377). -/
def imageOf (region step : Nat) (es : List SnapEntry) : RsImage :=
  let last := fun (k : Nat) => (((es.filter (fun e => decide (e.kind = k))).getLast?).map (·.data)).getD []
  { region := region, step := step, tokens := (List.range 4096).map (fun i => (i, getLe (last 5) (4 * i) 4)), record := padTo 64 (last 4) }

/-- A restore fails: its code and its record (R436). -/
def restoreFail (s : State) (code off : Nat) (f : Fld) : State := raiseErr (s.put f code) 0x0701 1 33 0 none code off

/-- RS_GO: the chain of `RS_REGION` becomes an image at `RS_DEST`, its records with the values of R377 (R376, log 34). `objects` is what storage returns, last object first. An image
whose place is not in the stack window of a running region has no space (log 34). -/
def execRsGo (objects : List (List Byte)) (s : State) : Host.Outcome State Fault Refusal :=
  if quiesced s then .next s else
  let r := s.get rsCtrlRsRegion
  let dest := s.get rsDestDest
  let objs := (s.chain r).objs
  let offAt := fun (i : Nat) => ((objs.reverse[i]?).map (·.off)).getD 0
  match objs.getLast? with
  | none => .next (restoreFail s 0x13 0 rsStatusRsCode)
  | some o =>
    match readChain s (decide (regionAt s dest = r)) 0 o.digest objects [] with
    | .error (c, i) => .next (restoreFail s c (offAt i) rsStatusRsCode)
    | .ok ess =>
      let img := entriesBytes ((latestImages (ess.map (fun es => { kind := 0, step := 0, digest := [], off := 0, entries := es }))).map (fun e => { e.1 with data := restoredImage e.1.kind e.1.data }))
      if s.get rsLenLen < img.length ∨ !inStack dest ∨ !running s (regionAt s dest) ∨ !addrOk s dest img.length then
        .next (restoreFail s 0x14 (offAt 0) rsStatusRsCode)
      else
        match writeMem s (noStep (regionAt s dest)) dest img with
        | (none, s) => .next ({ s with rsImage := some (imageOf (regionAt s dest) o.step ess.flatten) }.puts [(rsStatusRsCode, 1), (rsStatusRsStep, o.step)])
        | (some _, s) => .next (restoreFail s 0x14 (offAt 0) rsStatusRsCode)

/-! ## Whole-state checkpoints (R378) -/

/-- Covered ranges of a region, as entries. -/
def coveredRanges (s : State) (r : Nat) : List SnapRange :=
  (s.seams.filter (fun e => decide (e.2.st ≠ 0 ∧ e.2.members.contains r ∧ !e.2.folded.contains r))).map (fun e =>
    { kind := 0, addr := stackBase r + e.2.off, len := e.2.len, journal := false })

/-- Tensors that a partial moved outside every seam: whole-state checkpoints alone protect them (R358). -/
def movedRanges (s : State) (r : Nat) : List SnapRange :=
  ((ownTensors s r).filter (movedTensor s)).map (fun e => { kind := 0, addr := tnBase e, len := tnBytes e, journal := false })

/-- Every running hub stands still for a reason. -/
def allStalled (s : State) (reason : Nat) : Bool := (List.range 32).all (stalledFor s reason)

/-- The data objects and the manifest are written, one after the other, behind the two halves of the snapshot space, under the key in use,
or the one that waits for the first snapshot (log 34). -/
def writeCheckpoint (s : State) : State :=
  let rs := (List.range 32).filter (fun r => running s r)
  let key := (s.ckptKey.or s.ckptNew).getD []
  let (s, off, ds) := rs.foldl (fun (acc : State × Nat × List (List Byte)) r =>
    let (s, off, ds) := acc
    let (es, s) := rangeEntries s r (coveredRanges s r ++ snapSet s r ++ movedRanges s r)
    let t := s.get (hubStepCntStep r) - 1
    let step := snStepOf s r t
    let es := es ++ metaEntries s r t step
    let (b, s) := sealObject s key 2 r step [] es.length (entriesBytes es)
    (postObject s off b .manifest, off + b.length, ds ++ [sha256 b])) (s, 2 * s.get snapLenLen, [])
  let step := (rs.filterMap (lastCommit s)).foldl max 0
  let (nonce, s) := s.draw 12
  let list := ds.flatten
  let h := snHeader s 3 0xFF ds.length step (128 + list.length + 384 + 16) [] nonce
  let body := list ++ padTo 384 (Config.identitySign (h ++ list))
  let s := postObject s off (h ++ gcmSeal key nonce h body) .manifest
  { s with snaps := { s.snaps with ckpt := 2, ckptOut := rs.length + 1 } }

/-- CKPT_GO: every running hub is asked to stall; once all have, and the updates of the last step are done, the objects are written (R378). While a checkpoint is in progress a
further write starts nothing; the row repeated shows the progress (log 32). -/
def execCkptGo (s : State) : Host.Outcome State Fault Refusal :=
  let ready := peerUsable s (s.get snapCtrlSnapPeer) && decide (peerClass (s.peer (s.get snapCtrlSnapPeer)) = 2) && (s.ckptKey.or s.ckptNew).isSome
  let s := if s.snaps.ckpt = 0 ∧ ready ∧ s.bs.loaded ∧ !quiesced s then
      (((List.range 32).filter (fun r => running s r)).foldl (fun s r => askStall s 4 r)
        { s with snaps := { s.snaps with ckpt := 1 } }).put snapStatusBusy 1
    else s
  let done := (List.range 32).all (fun r => !running s r || updatesDone s r)
  if s.snaps.ckpt = 1 ∧ allStalled s 4 ∧ done ∧ ready then .next (writeCheckpoint s) else .next s

/-- A write of the checkpoint is lost for good: the manifest cannot become durable, the hubs stay stalled, and the checkpoint is written
again once its peer serves (log 34). -/
def checkpointLost (s : State) : State :=
  let n := s.snaps.ckptOut - 1
  { s with snaps := { s.snaps with ckptOut := n, ckpt := if s.snaps.ckpt = 0 then 0 else if n = 0 then 1 else 3 } }

/-- A write of the checkpoint is acknowledged: with the last one, the manifest's, the hubs are released. -/
def checkpointAck (s : State) : State :=
  let n := s.snaps.ckptOut - 1
  let s := { s with snaps := { s.snaps with ckptOut := n } }
  if n = 0 ∧ s.snaps.ckpt = 3 then { s with snaps := { s.snaps with ckpt := 1 } }
  else if n = 0 ∧ s.snaps.ckpt = 2 then
    let s := { s with snaps := { s.snaps with ckpt := 0 } }
    ((List.range 32).foldl (fun s r => releaseStall s 4 r) s).put snapStatusBusy (b2n (decide (s.snaps.out ≠ 0)))
  else s

/-- Entries of a restored object are written back (R377, R378). -/
def writeBackEntries (s : State) (r : Nat) (es : List SnapEntry) : State :=
  es.foldl (fun s e =>
    match e.kind with
    | 5 => setTokens s r ((List.range 4096).map (fun i => (i, getLe e.data (4 * i) 4)))
    | 6 => s.put (hubStepCntStep r) (getLe e.data 0 8)
    | k => (writeMem s (noStep r) e.addr (restoredImage k e.data)).2) s

/-- What a restore of region `r` leaves (R377): metadata as saved, slices zero and OPEN, the pannier empty, and the token image of the
step that begins (R371). -/
def restoreRegion (s : State) (r t : Nat) (es : List SnapEntry) : State :=
  let s := writeBackEntries s r es
  let (l, s) := sliceTable s r
  let s := setEntries (l.foldl (fun s x => clearSlice s r x) s) r []
  let n := s.get (hubStepCntStep r)
  let s := s.updHub r (fun h => { h with images := [(n, tokenImage s r)] })
  let rec' := tabRange 0 s.mem (stackBase r + stepPage) 64
  let loss := getLe rec' 12 4
  let s := updFlow s r (fun f => { rewindFlow f n with ls := loss, clip := getLe rec' 20 4, durable := 0, journaled := 0
                                                       verds := tabPut t { v := 1, clip := getLe rec' 20 4, scale := loss, used := loss } [] })
  let s := s.puts [(lsCurScale, loss), (lsCurClean, getLe rec' 24 4)]
  { s with pdScale := [0, 1, 2, 3].foldl (fun p k => tabPut k [(n, loss)] p) s.pdScale
           gate := { s.gate with next := n, clip := getLe rec' 20 4, tally := [], forced := [], byFence := [], warned := [], drained := [],
                                 rerun := none, fenceFail := false } }

/-- The offset in the snapshot space of the `i`-th object of a checkpoint, the manifest coming after the last (log 34). -/
def ckptOffset (s : State) (objects : List (List Byte)) (i : Nat) : Nat := 2 * s.get snapLenLen + ((objects.take i).map List.length).sum

/-- CKPT_RESTORE: the manifest's signature, the digests and the tags are verified, every object is written back, and every seam is
refreshed (R378). A manifest whose signature fails, or data objects other than it lists, give `RS_DIGEST` (log 34). -/
def execCkptRestore (objects : List (List Byte)) (manifest : List Byte) (s : State) : Host.Outcome State Fault Refusal :=
  if quiesced s then .next s else
  let fail := fun (c i : Nat) => Host.Outcome.next (restoreFail s c (ckptOffset s objects i) snapStatusCkptCode)
  let m := objects.length
  match openObject s manifest with
  | none => fail 0x11 m
  | some body =>
    let n := snEntries manifest
    let list := slice body 0 (32 * n)
    if slice body (32 * n) 384 ≠ padTo 384 (Config.identitySign (manifest.take 128 ++ list)) ∨ objects.length ≠ n then fail 0x10 m
    else if slice manifest 0x20 16 ≠ padTo 16 s.bs.jobId ∨ slice manifest 0x30 32 ≠ bsDigest s then fail 0x12 m
    else
      let rs : List (List Byte × Except Nat (List SnapEntry)) := objects.zipIdx.map (fun (b, i) => (b, checkObject s (slice list (32 * i) 32) b true))
      match rs.zipIdx.find? (fun x => match x.1.2 with | .error _ => true | .ok _ => false) with
      | some ((_, .error c), i) => fail c i
      | _ =>
        let s := rs.foldl (fun s (b, x) => match x with
          | .ok es => restoreRegion s (snRegion b % 32) (snStep b) es
          | .error _ => s) s
        let s := s.seams.foldl (fun s e => if passable s e.1 then seamPass s e.1 false else s) s
        .next ((settleSeams s).puts [(snapStatusCkptCode, 1), (rsStatusRsStep, snStep manifest)])

end Sys2Proof.Machine
end

