-- ==== Sys2Proof/Machine/Net.lean ====
section
/-! DEFINITION. Queue pairs, their answers, timeouts and errors, peer entries, the event ring, time, and the link layer (R286-R300). -/
namespace Sys2Proof.Machine

/-! ## Answers to the module's own requests (R297, R249) -/

/-- Events that were written and not acknowledged are to be written again: the sequence number goes back, and the tail by those that were
written since the ring was enabled (R298). -/
def rewindEvents (s : State) : State :=
  let m := 2 ^ (s.get evtCfgLog2N + 1)
  let t := (s.get evtTailTail + m - (s.evOut - s.evPre) % m) % m
  let p := s.get evtCfgEvtPeer
  let x := s.peer p
  let s := s.setPeer p { x with out := x.out.filter (fun q => decide (q.use ≠ .event ∧ q.use ≠ .tail)) }
  { s.put evtTailTail t with evSeq := s.evSeq - s.evOut, evOut := 0, evPre := 0 }

/-- A page that was sent and not accepted waits to be sent again (log 27). -/
def pageBack (s : State) (k off par : Nat) : State :=
  let t := seTensor (s.strm k)
  let mine := fun (p : Page) => decide (p.pd = k / 1024 ∧ p.tensor = t ∧ p.off = off ∧ p.step % 2 = par ∧ p.st = 3)
  if s.pages.any mine then
    updStrm { s with pages := s.pages.map (fun p => if mine p then { p with st := 2 } else p) } k (fun x => { x with pushed := x.pushed - 1 })
  else s

/-- What the end of a request means to the unit that made it: the data of its answer, or a status of R249. -/
def settleUse (s : State) (use : QpUse) (res : Except Nat (List Byte)) : State :=
  match use, res with
  | .dmaWrite r ch id, .ok _ => writeAcked s r ch id
  | .dmaWrite r ch id, .error st => xferFailed (writeAcked s r ch id) r ch id st
  | .dmaRead r ch id off, .ok d => readLanded s r ch id off 0 true d
  | .dmaRead r ch id off, .error st => readLanded (xferFailed s r ch id st) r ch id off 0 false []
  | .event, .ok _ => if 0 < s.evOut then { s with evbuf := s.evbuf.drop 1, evOut := s.evOut - 1, evPre := s.evPre - 1 } else s
  | .event, .error _ => rewindEvents s
  | .snapshot r, .ok _ => objectDurable s r
  | .snapshot r, .error _ => objectLost s r
  | .journal r, .ok _ => objectDurable s r
  | .journal r, .error _ => objectLost s r
  | .manifest, .ok _ => checkpointAck s
  | .manifest, .error _ => checkpointLost s
  | .gradient k off par, .ok _ => pageFreed s k off par
  | .gradient k off par, .error _ => pageBack s k off par
  | .tail, _ => s
  | .key, _ => s
  | .skojo _, _ => s

/-- Every request of a queue pair ends with `DMA_RDMA_RETRY`, and so does every transfer on it (R249, R292, R297). -/
def failAll (s : State) (p : Nat) : State :=
  let x := s.peer p
  let s := x.out.foldl (fun s q => settleUse s q.use (.error stDmaRdmaRetry)) (s.setPeer p { x with out := [] })
  s.chans.foldl (fun s e =>
    match (s.chan (e.1 / 64) (e.1 % 64)).xfer with
    | some x => if dRdma x.desc && decide (dPeer x.desc = p) then xferFailed s (e.1 / 64) (e.1 % 64) x.id stDmaRdmaRetry else s
    | none => s) s

/-- The retries of a queue pair have run out: it enters the error state (R297). -/
def qpFault (s : State) (p : Nat) (inj : Bool) : State :=
  let x := s.peer p
  let s := s.setPeer p { x with err := true, held := [] }
  failAll (raiseErr s 0x0303 1 (32 + p / 1024) (unitOf 12 p) none p 0 inj) p

/-- A queue pair enters the error state by itself. -/
def qpError (s : State) (p : Nat) : State := qpFault s p false

/-- The requests of a queue pair from the oldest on are sent again. -/
def resendAll (s : State) (p : Nat) : State := (s.peer p).out.foldl (fun s q => sendReq s p q) s

/-- A valid, connected queue pair, of whatever slice: what it sent before a `SET_SLICE` is still timed (R297). -/
def qpOpen (s : State) (p : Nat) : Bool := peerValid (s.peer p) && !(s.peer p).err

/-- Does an arriving packet match the entry: valid, of the module's slice (R291)? -/
def sliceFits (s : State) (p : Nat) : Bool := peerValid (s.peer p) && decide (peerSlice (s.peer p) = s.get sliceSliceId)

/-- A packet that matches no valid entry of the slice: discarded and counted (R291). -/
def sliceDrop (s : State) (p : Nat) : State :=
  let port := peerPort p (s.peer p)
  s.bump (portDropSliceDrop (port / 16) (port % 16)) 1

/-- RDMA_ACK: the oldest request of the queue pair is answered. -/
def execRdmaAck (peer : Fin 4096) (result : AckResult) (s : State) : Host.Outcome State Fault Refusal :=
  let x := s.peer peer
  if !peerLinked s peer then .next s
  else if !sliceFits s peer then .next (sliceDrop s peer)
  else match x.out with
  | [] => .next s
  | q :: rest =>
    if x.err then .next s
    else
      match result with
      | .ok d => .next (settleUse (s.setPeer peer { x with out := rest }) q.use (.ok (if q.op = 1 then padTo q.len d else [])))
      | .nakAccess | .nakOther => .next (settleUse (s.setPeer peer { x with out := rest }) q.use (.error stDmaRdmaRemote))
      | .rnr =>
        if peerRnr x ≤ q.rnr then .next (qpError s peer)
        else .next (resendAll (s.setPeer peer { x with out := { q with rnr := q.rnr + 1 } :: rest }) peer)

/-- ACK_TIMEOUT: the oldest request has waited for `TIMEOUT`. -/
def execAckTimeout (peer : Fin 4096) (s : State) : Host.Outcome State Fault Refusal :=
  let x := s.peer peer
  match x.out with
  | [] => .next s
  | q :: rest =>
    if !qpOpen s peer then .next s
    else if peerRetry x ≤ q.tries then .next (qpError s peer)
    else .next (resendAll (s.setPeer peer { x with out := { q with tries := q.tries + 1 } :: rest }) peer)

/-! ## Peer entries (R292, R443, R445) -/

/-- The R_Key of the register space (R443). -/
def regKey (s : State) : Nat := (s.get rdmaKeysKeyNonce * 2048 + 1025) % 2 ^ 32

/-- The SEND that tells a host the key of the register space (R445). -/
def sendKey (s : State) (p : Nat) : State :=
  if peerUsable s p && decide (peerClass (s.peer p) = 1) then qpPost s p { op := 2, len := 8, data := natLe 8 (regKey s), use := .key } else s

/-- Word `w` of an entry without its reserved bits; `QP_ERR` is read-only. -/
def maskPeerWord (w : Nat) (d : List Byte) : List Byte :=
  match w with
  | 0 => natLe 1 (getLe d 0 1 % 4) ++ slice d 1 1 ++ natLe 1 (getLe d 2 1 % 32) ++ slice d 3 5
  | 1 => natLe 4 (getLe d 0 3) ++ natLe 4 (getLe d 4 3)
  | 2 => natLe 4 (getLe d 0 3) ++ natLe 1 (getLe d 4 1 % 8 + getLe d 4 1 / 16 % 8 * 16) ++ natLe 3 0
  | 3 => slice d 0 4 ++ natLe 4 0
  | 6 => slice d 0 6 ++ natLe 2 0
  | 7 => natLe 8 0
  | _ => slice d 0 8

/-- `VALID` is cleared: the queue pair's state is discarded and what used it ends (R292). -/
def closePeer (s : State) (p : Nat) : State :=
  let x := s.peer p
  failAll (s.setPeer p { x with entry := patch x.entry 0 (natLe 1 (getLe x.entry 0 1 / 2 * 2)), err := false, held := [], wt := [], wtDone := [] }) p

/-- `VALID` is set: the queue pair starts at the PSNs given, at line rate; an H-class peer is told the key. -/
def openPeer (s : State) (p : Nat) (e : List Byte) : State :=
  sendKey (s.setPeer p { entry := e, sqPsn := getLe e 0x0C 3, rqPsn := getLe e 0x10 3 }) p

/-- Are `PCLASS` and `TIMEOUT` of word 0 in their ranges (R292)? -/
def peerRange (d : List Byte) : Bool := decide (1 ≤ getLe d 1 1 ∧ getLe d 1 1 ≤ 3 ∧ 8 ≤ getLe d 3 1 ∧ getLe d 3 1 ≤ 20)

/-- A write of one word of a peer entry: ignored while `VALID` is 1 except to clear it; a word 0 whose `PCLASS` or `TIMEOUT` is out of
range is not written (R292, R441). -/
def writePeerWord (s : State) (p w : Nat) (d : List Byte) : State :=
  let x := s.peer p
  let d := maskPeerWord w d
  if peerValid x then
    if w = 0 ∧ getLe d 0 1 % 2 = 0 then closePeer s p else s
  else if w = 0 ∧ !peerRange d then s
  else if w = 0 ∧ getLe d 0 1 % 2 = 1 then openPeer s p (patch x.entry 0 d)
  else s.setPeer p { x with entry := patch x.entry (8 * w) d }

/-- A write of several words is performed word by word, in ascending order (R443, log 36). -/
def writePeer (s : State) (p offset : Nat) (data : List Byte) : State :=
  ((chunksOf 8 (data.length / 8) data).zipIdx).foldl (fun s (b, i) => if offset / 8 + i < 8 then writePeerWord s p (offset / 8 + i) b else s) s

/-- PEER_ENTRY_WRITE. -/
def execPeerEntryWrite (peer : Fin 4096) (offset : Nat) (data : List Byte) (s : State) : Host.Outcome State Fault Refusal :=
  .next (writePeer s peer offset data)

/-! ## The event ring (R298, R299) -/

/-- EVT_CFG_WRITE: a value of `LOG2_N` out of range leaves the word unwritten (R441); setting `EVT_EN` resets head and tail, and what is
written and not acknowledged by then is no part of the ring that begins. -/
def execEvtCfgWrite (value : W64) (s : State) : Host.Outcome State Fault Refusal :=
  let v := value.toNat
  let n := field v 14 5
  if n < 6 ∨ 20 < n then .next s
  else
    let s := if bitAt v 13 && !s.on evtCfgEvtEn then { s with evPre := s.evOut }.puts [(evtTailTail, 0), (evtHeadHead, 0)] else s
    .next (s.puts [(evtCfgEvtPeer, field v 0 12), (evtCfgSendEn, field v 12 1), (evtCfgEvtEn, field v 13 1), (evtCfgLog2N, n)])

/-- Records in the ring that the host has not freed. -/
def evtFill (s : State) : Nat :=
  let m := 2 ^ (s.get evtCfgLog2N + 1)
  (s.get evtTailTail + m - s.get evtHeadHead % m) % m

/-- The 64 bytes of an event. -/
def eventBytes (e : Event) (seq : Nat) (phase : Bool) : List Byte :=
  natLe 1 e.kind ++ natLe 1 (b2n phase + 2 * b2n e.timeValid) ++ natLe 2 e.src ++ natLe 4 seq ++ natLe 8 e.time ++ padTo 48 e.payload

/-- The overflow record is the next one after a loss (R299). -/
def noteLoss (s : State) : State :=
  if s.evLost = 0 then s
  else
    let (t, s) := s.stamp
    let e : Event := { kind := 4, src := 33, time := t, timeValid := s.on ptpStatLocked, payload := padTo 48 (natLe 8 s.evLost) }
    { s with evbuf := s.evbuf.take s.evOut ++ [e] ++ s.evbuf.drop s.evOut, evLost := 0 }

/-- EVENT_WRITE: the next buffered record is written to the host's ring, with a SEND of the new tail under `SEND_EN`. -/
def execEventWrite (s : State) : Host.Outcome State Fault Refusal :=
  let p := s.get evtCfgEvtPeer
  let l := s.get evtCfgLog2N
  if !s.on evtCfgEvtEn || !peerUsable s p || decide (peerClass (s.peer p) ≠ 1) || decide (2 ^ l ≤ evtFill s) then .next s
  else
    let s := noteLoss s
    match s.evbuf[s.evOut]? with
    | none => .next s
    | some e =>
      let t := s.get evtTailTail
      let b := eventBytes e s.evSeq (!bitAt t l)
      let s := qpPost s p { op := 0, addr := s.get evtAddrAddr + 64 * (t % 2 ^ l), len := 64, data := b, use := .event }
      let t := (t + 1) % 2 ^ (l + 1)
      let s := { s.put evtTailTail t with evOut := s.evOut + 1, evSeq := s.evSeq + 1 }
      .next (if s.on evtCfgSendEn then qpPost s p { op := 2, len := 8, data := natLe 8 t, use := .tail } else s)

/-! ## Time (R300) -/

/-- PTP_MESSAGE: the servo takes a message of its port and domain. -/
def execPtpMessage (port : Fin 64) (domain : BitVec 8) (offsetNs : Int) (s : State) : Host.Outcome State Fault Refusal :=
  if !s.on ptpCtrlPtpEn || decide (s.get ptpCtrlPtpPort ≠ port.val) || decide (portClass s port ≠ 1) || !portPasses s port 0 ||
     decide (s.get ptpCtrlDomain ≠ domain.toNat) then .next s
  else .next (s.puts [(ptpStatOffsetNs, unsigned 32 offsetNs), (ptpStatLocked, b2n (decide (offsetNs.natAbs < 1000)))])

/-! ## The link layer (R286-R290) -/

/-- `UNIT` of a port or half (R432). -/
def portUnit (port half : Nat) : Nat := unitOf 3 (port + 64 * half)

/-- PORT_LINK_CHANGE: a disabled port stays down, only a port in breakout has a second half, and a port whose own lasers give no light has
no link (R314). -/
def execPortLinkChange (port : Fin 64) (half : Fin 2) (up : Bool) (s : State) : Host.Outcome State Fault Refusal :=
  let f := portStatLink (port.val / 16) (port.val % 16)
  if up && (decide (portClass s port = 0) || s.pdOff.contains (port.val / 16) || (decide (half.val = 1) && !breakout s port) || !hasLight s port) then .next s
  else .next (s.put f (setBit (s.get f) half up))

/-- A frame fails its integrity check: counted, recorded once per 1024 failures (R290, R293). An injected failure marks the record. -/
def integrityFail (s : State) (port half : Nat) (inj : Bool) : State :=
  let st := 32 + port / 16
  let f := portDropMacsecFail (port / 16) (port % 16)
  let s := s.bump f 1
  let t := 64 + port
  let s := if inj then s.setStop st { s.stop st with tainted := setIns t (s.stop st).tainted } else s
  if s.get f % 1024 = 0 then
    let k := (s.stop st).tainted.contains t
    raiseErr (s.setStop st { s.stop st with tainted := setDel t (s.stop st).tainted }) 0x0302 0 st (portUnit port half) none 0 (s.get f) k
  else s

/-- Does the frame pass MACsec (R290, R395)? With keys installed it must come under one of them, with a packet number above the last;
without keys the port runs in the clear. -/
def macsecPass (m : MacSec) (f : Frame) : Bool :=
  match f.sec with
  | none => m.rx.isEmpty
  | some (an, pn) =>
    match tabFind an m.rx with
    | none => false
    | some k => (tabFind an m.pns).all (fun last => decide (last < pn)) && (macsecOpen k an pn f.bytes).isSome

/-- The packet number is taken; the last one holds the port down until a new key is installed. -/
def notePn (s : State) (port half : Nat) (f : Frame) : State :=
  match f.sec with
  | none => s
  | some (an, pn) =>
    let m := s.sec port half
    s.setSec port half { m with pns := tabPut an pn m.pns, spent := m.spent || decide (2 ^ 64 - 1 ≤ pn) }

/-- The traffic class of a received frame: by its PCP, or its DSCP when untagged; 2 for another priority (R287, R288). -/
def frameClass (s : State) (port : Nat) (f : Frame) : Nat :=
  match f.pcp with
  | none => b2n (decide (f.dscp = 48))
  | some c => if c.val = prioOf s port 1 then 1 else if c.val = prioOf s port 0 then 0 else 2

/-- A PFC frame for a class leaves. -/
def sendPfc (s : State) (port half cls : Nat) (pause : Bool) : State :=
  emit (s.bump (portPfcPauseTx (port / 16) (port % 16)) 1) (.pfc port half (prioOf s port cls) pause)

/-- Bytes of a class's receive buffer; that of other priorities has no size in the spec (R288, log 37). -/
def bufferBytes (cls : Nat) : Nat := if cls = 2 then Config.otherBuffer else 0x200000

/-- The frame enters its class's buffer, after what has left it: XON below 1 MiB, XOFF above 1.5 MiB. A frame that the buffer cannot hold
is dropped: false. Other priorities are not paused. -/
def bufferFrame (s : State) (port half cls n drained : Nat) : Bool × State :=
  let key := port * 8 + half * 4 + cls
  let fill := tabGet 0 key s.buffers - drained
  let s := if s.xoffs.contains key ∧ fill < 0x100000 then sendPfc { s with xoffs := setDel key s.xoffs } port half cls false else s
  if bufferBytes cls < fill + n then (false, { s with buffers := tabPut key fill s.buffers })
  else
    let s := { s with buffers := tabPut key (fill + n) s.buffers }
    if cls < 2 ∧ 0x180000 < fill + n ∧ !s.xoffs.contains key then (true, sendPfc { s with xoffs := setIns key s.xoffs } port half cls true) else (true, s)

/-- The entry that a packet matches: by its port, destination QPN and source address (R291). -/
def matchPeer (s : State) (src : PktSrc) : Option Nat :=
  let p := src.qpn - 0x1000
  let x := s.peer p
  if 0x1000 ≤ src.qpn ∧ p < 4096 ∧ peerValid x ∧ peerPort p x = src.port.val ∧ peerHalf x = b2n src.half ∧ slice x.entry 0x20 16 = padTo 16 src.ip ∧
     peerSlice x = s.get sliceSliceId then some p else none

/-- A packet marked CE: at most one CNP per queue pair per 50 µs, whose running is not observed here (R289, log 5). -/
def answerCe (s : State) (src : PktSrc) : State :=
  match matchPeer s src with
  | none => s
  | some p =>
    let (b, s) := s.choose
    if b then sendOn (s.bump (portEcnCnpTx (src.port.val / 16) (src.port.val % 16)) 1) p 1 (.cnp p) else s

/-- A request that the module does not support is answered with a NAK of Invalid Request (R293). -/
def answerUnsupported (s : State) (port : Nat) (f : Frame) : State :=
  if !f.unsupported then s
  else match matchPeer s f.src with
    | none => s.bump (portDropSliceDrop (port / 16) (port % 16)) 1
    | some p => if (s.peer p).err then s else sendOn s p (frameClass s port f % 2) (.nak p nakInvalid)

/-- FRAME_RECEIVE: the link layer's part; the packet inside acts through its own row (log 37). -/
def execFrameReceive (port : Fin 64) (half : Fin 2) (frame : Frame) (s : State) : Host.Outcome State Fault Refusal :=
  let p := port.val
  if !portPasses s p half then .next s
  else
    let (hit, s) := injectedFail s [0x0301] (32 + p / 16) (portUnit p half) none
    if hit || !frame.fcsOk then
      let f := portStatFcsErr (p / 16) (p % 16)
      let s := s.bump f 1
      .next (raiseErr s 0x0301 0 (32 + p / 16) (portUnit p half) none 0 (s.get f) hit)
    else if 9216 < frame.bytes.length then .next s
    else
      let m := s.sec p half
      let (hit, s) := if frame.sec.isSome || !m.rx.isEmpty then injectedFail s [0x0302] (32 + p / 16) (portUnit p half) none else (false, s)
      if hit || !macsecPass m frame then .next (integrityFail s p half hit)
      else
        let s := notePn s p half frame
        if !frame.icrcOk then .next (integrityFail s p half false)
        else
          let (kept, s) := bufferFrame s p half (frameClass s p frame) frame.bytes.length frame.drained
          if !kept then .next s
          else .next (answerUnsupported (if frame.ce then answerCe s frame.src else s) p frame)

/-- What idling does at the ports: the receive buffers empty, and each class under XOFF gets its XON (R288, log 37). -/
def drainBuffers (s : State) : State :=
  s.xoffs.foldl (fun s k => sendPfc s (k / 8) (k / 4 % 2) (k % 4) false) { s with buffers := [], xoffs := [] }

/-- Transmission of a priority resumes: what waited leaves in order. -/
def unpause (s : State) (key : Nat) : State :=
  let w := s.txWait.filter (fun e => decide (e.1 = key))
  let s := { s with paused := setDel key s.paused, txWait := s.txWait.filter (fun e => decide (e.1 ≠ key)) }
  w.foldl (fun s e => if portPasses s (key / 16) (key / 8 % 2) then leave s e.2.1 e.2.2 else s) s

/-- PFC_PAUSE: honoured on the two lossless priorities (R288). -/
def execPfcPause (port : Fin 64) (half : Fin 2) (prio : Fin 8) (quanta : BitVec 16) (s : State) : Host.Outcome State Fault Refusal :=
  let p := port.val
  if !portPasses s p half then .next s
  else
    let s := s.bump (portPfcPauseRx (p / 16) (p % 16)) 1
    let key := p * 16 + half.val * 8 + prio.val
    if prio.val ≠ prioOf s p 0 ∧ prio.val ≠ prioOf s p 1 then .next s
    else if quanta = 0 then .next (unpause s key)
    else .next { s with paused := setIns key s.paused }

/-- PFC_PAUSE_EXPIRY: the stated time has run out. -/
def execPfcPauseExpiry (port : Fin 64) (half : Fin 2) (prio : Fin 8) (s : State) : Host.Outcome State Fault Refusal :=
  .next (unpause s (port.val * 16 + half.val * 8 + prio.val))

/-- CNP: the queue pair's rate is halved, at most once per 50 µs, whose running is not observed here (R289, log 5). -/
def execCnp (peer : Fin 4096) (s : State) : Host.Outcome State Fault Refusal :=
  if !peerLinked s peer then .next s
  else if !sliceFits s peer then .next (sliceDrop s peer)
  else if (s.peer peer).err then .next s
  else
    let port := peerPort peer (s.peer peer)
    let s := s.bump (portEcnCnpRx (port / 16) (port % 16)) 1
    let (b, s) := s.choose
    .next (if b then s.setPeer peer { s.peer peer with rateLog := (s.peer peer).rateLog + 1 } else s)

/-- RATE_INCREASE: 55 µs without a CNP raise the rate by 1 % of line rate, up to line rate. -/
def execRateIncrease (peer : Fin 4096) (s : State) : Host.Outcome State Fault Refusal :=
  let x := s.peer peer
  let n := x.rateNum + 2 ^ x.rateLog
  if !qpOpen s peer then .next s
  else if 100 * 2 ^ x.rateLog ≤ n then .next (s.setPeer peer { x with rateNum := 100, rateLog := 0 })
  else .next (s.setPeer peer { x with rateNum := n })

end Sys2Proof.Machine
end

