-- ==== Sys2Proof/Machine/Reset.lean ====
section
/-! DEFINITION. What a loss of power and a module-warm reset keep (R425), the measured draws (R337, R339), and cuffs in effect (R339). -/
namespace Sys2Proof.Machine

/-! ## What resets keep (R425) -/

/-- Fields that every reset keeps: fuses (those of the variant, R1 and R6, among them), monotonic stores, `FENCE_NV`, RWK fields, the measured input, ties that a short has opened, the
presence contacts of the bays. -/
def coldFields : List Fld :=
  [secStateOwnState, secStateOwnerSlot, secStateBootBank, secStateIssuerEn, svnSvnFloor, bsSeqFloorFloor, fenceNvPerm, sliceSliceId, sliceHMacsec,
   injCtrlInjEn, pwrInVinCv, pwrConvInputAbn, pwrConvTieOpen, devIdPart, devIdStepping, capUnits, capRegionsBuilt, regionPresentPresent] ++
  (List.range 12).map issuerHash ++ (List.range 32).map pwrCellsS2Fail ++ (List.range 8).map (fun b => casStatPresent (b / 2) (b % 2)) ++ (List.range 64).map (fun p => portMacMac (p / 16) (p % 16)) ++
  (List.range 128).map (fun k => pmonFRef (k / 4) (k % 4))

/-- Fields that a module-warm reset keeps as well: RWS fields, `KEY_SEQ`, counters that only a cold reset clears, failed cells and lasers (R314), the root that
serves, and what steps 1-3 set. -/
def warmFields : List Fld :=
  [resetCauseLast, keySeq, evtLostLost, errStatusOvf, errStatusLostCe, errCountsRaised0, errCountsRaised1, errCountsRaised2, errCountsRaised3,
   pwrParkedParkEvents, pwrConvConvFail, secStateRootOnMirror, capVersion, rdmaKeysKeyNonce] ++ (List.range 4).map ownNonceNonce ++
  (List.range 32).map pwrCellsFailed ++ (List.range 8).map (fun b => casStatLaserFail (b / 2) (b % 2)) ++
  (List.range 64).flatMap (fun p => [portStatFcsErr (p / 16) (p % 16), portDropSliceDrop (p / 16) (p % 16), portDropMacsecFail (p / 16) (p % 16),
    portPfcPauseRx (p / 16) (p % 16), portPfcPauseTx (p / 16) (p % 16), portEcnCnpRx (p / 16) (p % 16), portEcnCnpTx (p / 16) (p % 16),
    portRdmaAccErr (p / 16) (p % 16), portRdmaSkProtoErr (p / 16) (p % 16)])

def keepFields (l : List Fld) (t : Tab Nat) : Tab Nat := t.filter (fun e => (l.map Fld.key).contains e.1)

/-- The module without power: a loss of input, or the input switch opened (R425). -/
def coldState (s : State) (cause : Nat) : State :=
  ({ State.reset with
    regs := keepFields coldFields s.regs, tick := s.tick, pending := s.pending, outbox := s.outbox, vendorHash := s.vendorHash, serial := s.serial
    idCert := s.idCert, owners := s.owners, flash := s.flash, prov := s.prov, meter := s.meter, convDead := s.convDead, inputStop := s.inputStop, inputMv := s.inputMv, inputRev := s.inputRev, shorted := s.shorted }).put
      resetCauseLast cause

/-- Where the chains in use end in the snapshot space, kept with their digests so that what is written next does not overlie them (R374,
R375): a snapshot that was not durable yet counts as not begun. -/
def warmSnaps (s : State) : Snaps :=
  let n := s.get snapLenLen
  let b := if s.snaps.out = 0 then s.snaps.begun else s.snaps.begun - 1
  let mine := (s.chains.flatMap (fun e => e.2.objs)).filter (fun o => decide (o.off / n = b % 2))
  { begun := b, fill := mine.foldl (fun m o => max m (o.off % n + o.len)) 0 }

/-- What a bay shows of a cassette that an overheating holds dark, the cassette's own data among it: it stays so until `REAUTH` (R315). -/
def hotFields (b : Nat) : List Fld :=
  let k := b / 2
  let i := b % 2
  [casStatState k i, casStatReleased k i, casStatDarkReason k i, casStatTemp k i, casStatEolWarn k i, casStatEol k i, casSerialSerial k i,
   casLifeLifeCh k i, casLifeRatedCh k i]

/-- Bays whose cassette is dark by its temperature. -/
def hotBays (s : State) : List Nat := (List.range 8).filter (fun b => decide (s.get (casStatDarkReason (b / 2) (b % 2)) = 5))

/-- The module at the start of a module-warm reset (R425). -/
def warmState (s : State) : State :=
  ({ coldState s 2 with
    regs := keepFields (coldFields ++ warmFields ++ (hotBays s).flatMap hotFields) s.regs, macsec := s.macsec, ckptKey := s.ckptKey, ckptNew := s.ckptNew, ckptOld := s.ckptOld
    chains := s.chains.map (fun (e : Nat × Chain) => (e.1, { e.2 with out := [] })), snaps := warmSnaps s, errq := s.errq, errSeq := s.errSeq, evSeq := s.evSeq - s.evOut, bays := s.bays.map (fun (e : Nat × Bay) => (e.1, { e.2 with phase := 0 })), pdOff := s.pdOff, bootInj := s.bootInj
    rootLost := s.rootLost, bs := { seq := s.bs.seq } }).put
      resetCauseLast 2

/-! ## Draws and cuffs -/

/-- The measurements of one moment reach their registers (R324, R337, R346); the input current follows from power and voltage (log 31). -/
def measure (s : State) (d : Draws) : State :=
  let v := s.get pwrInVinCv
  let s := s.puts [(pwrInPinW, d.input), (pwrInIinDa, if v = 0 then 0 else d.input * 1000 / v)]
  let s := forN 8 (fun n s => s.puts [(pwrSegSegW n, d.segs.getD n 0), (pwrSegSegPeakW n, d.segPeaks.getD n 0)]) s
  forN 32 (fun r s => if s.get (clkStatRstate r) = 0 then s else s.put (pwrStatPW r) (d.regions.getD r 0)) s

/-- `MODULE_W` of a mode: its entry (R38), before the first load the default of R355. -/
def modeWatts (s : State) (m : Nat) : Nat :=
  if s.bs.loaded then modeField (secOf s 5) m 4 4 else if m = 2 then 17000 else if m = 1 then 24000 else 32000

/-- The root ceiling of a mode: its entry (R38), before the first load the default of R355 (log 13). -/
def modeRoot (s : State) (m : Nat) : Nat :=
  if s.bs.loaded then modeField (secOf s 5) m 0 2 else if m = 2 then 2400 else if m = 1 then 3000 else 3500

/-- The effective module cuff in W: the lowest of the cuff in force, the mode's power, the limit of R326 and, below 40.5 V, that of R324. -/
def effModule (s : State) : Nat :=
  let w := modeWatts s (s.get modeCtrlCurMode)
  let w := if s.get pwrCuffModuleCuffW = 0 then w else min w (s.get pwrCuffModuleCuffW)
  let f := s.convDead.length
  let w := if 2 ≤ f then min w ((8 - f) * 4500000 / 975) else w
  if s.on pwrConvInputAbn && decide (s.get pwrInVinCv < 4050) then min w (790 * s.get pwrInVinCv / 100) else w

/-- The failed cells of a group, and the most of any group (R330). -/
def cellsOf (s : State) (r g : Nat) : Nat := field (s.get (pwrCellsFailed r)) (8 * g) 8
def worstCells (s : State) (r : Nat) : Nat := (List.range 4).foldl (fun m g => max m (cellsOf s r g)) 0

/-- A region's cuff without the temporary cut of R338: none where nothing limits it. -/
def baseRegion (s : State) (r : Nat) : Option Nat :=
  let l := (if s.get (pwrRcuffRegionCuffW r) = 0 then [] else [s.get (pwrRcuffRegionCuffW r)]) ++
    (if 9 ≤ worstCells s r then [760 * (48 - worstCells s r) / 40] else []) ++ (if s.get (pwrCellsS2Fail r) = 0 then [] else [570])
  match l with
  | [] => none
  | x :: t => some (t.foldl min x)

/-- A region's effective cuff (R339). A cut is taken from its cuff, or from the 760 W that a region draws at most (log 31). -/
def effRegion (s : State) (r : Nat) : Option Nat :=
  if (s.plant r).cut = 0 then baseRegion s r else some ((baseRegion s r).getD 760 - (s.plant r).cut)

/-- A region's target and what sets it (R344): the ceiling, the cuff target, the thermal target. -/
def retarget (s : State) (r : Nat) : State :=
  let p := s.plant r
  let c := modeRoot s (s.get modeCtrlCurMode)
  let k := min c (p.cuffMhz.getD c)
  let t := min k (p.thermMhz.getD k)
  s.puts [(clkStatTargetMhz r, t), (clkStatLimiter r, if t < k then 2 else if k < c then 1 else 0)]

/-- Every powered region's target. -/
def retargetAll (s : State) : State := forN 32 (fun r s => if s.get (clkStatRstate r) = 0 then s else retarget s r) s

end Sys2Proof.Machine
end

