-- ==== Sys2Proof/Machine/Power.lean ====
section
/-! DEFINITION. Power delivery (R324-R342): input, converters, cells, trips, admission, cuffs. -/
namespace Sys2Proof.Machine

/-! ## The input (R324) -/

/-- The 48 V input is lost or out of reach: everything but the meter and what R425 keeps is gone. -/
def loseInput (s : State) (why : Nat) : State :=
  if s.inputStop ≠ 0 then { s with inputStop := why } else { (coldState s 0).put pwrConvInputAbn 0 with inputStop := why }

/-- `INPUT_ABN` as the range gives it; setting it raises a record. Without power there is no register and nobody to raise one. -/
def setAbnormal (s : State) (b inj : Bool) : State :=
  if s.get bootStatusStep = 0 then s.put pwrConvInputAbn 0
  else if b && !s.on pwrConvInputAbn then raiseErr (s.put pwrConvInputAbn 1) 0x0407 0 33 0 none 0 (s.get pwrInVinCv) inj else s.putB pwrConvInputAbn b

/-- The input reads a voltage in one of the ranges of R324: abnormal outside 40.5-57 V, a stop above 60 V and below 36 V or reversed. After
a stop above 60 V stage 1 restarts below 59 V, after one below 36 V at 40.5 V; the start itself is COLD_START's. -/
def inputReads (s : State) (milliVolts : Nat) (reversed inj : Bool) : State :=
  let s := s.put pwrInVinCv (milliVolts / 10)
  if reversed ∨ milliVolts < 36000 then loseInput s 2
  else if 60000 < milliVolts then loseInput s 1
  else
    let back := (s.inputStop = 1 ∧ milliVolts < 59000) ∨ (s.inputStop = 2 ∧ 40500 ≤ milliVolts)
    let s := if back then { s with inputStop := 0 } else s
    setAbnormal s (decide (milliVolts < 40500 ∨ 57000 < milliVolts)) inj

/-- Does an armed injection of `INPUT_ABN` cover the input monitor (R437)? -/
def forcedInput (s : State) : Bool := s.inj.any (fun j => decide (j.code = 0x0407))

/-- INPUT_VOLTAGE_CHANGE: the input has held in a range for the time that the table of R324 gives; an injected reading covers it for its
time. Magnitudes beyond the ratings of R454 have no behaviour. -/
def execInputVoltageChange (milliVolts : Nat) (reversed : Bool) (draws : Draws) (s : State) : Host.Outcome State Fault Refusal :=
  if 75000 < milliVolts then .fault .beyondRatings
  else
    let s := { s with inputMv := milliVolts, inputRev := reversed }
    .next (measure (if forcedInput s then s else inputReads s milliVolts reversed false) draws)

/-! ## Converters, segments, cells, stage 2 (R325-R335) -/

/-- CONV_FAIL. -/
def convFail (s : State) (n : Nat) (inj : Bool) : State :=
  if s.convDead.contains n then s
  else
    let s := { s with convDead := setIns n s.convDead }
    raiseErr (s.put pwrConvConvFail (setBit (s.get pwrConvConvFail) n true)) 0x0405 0 33 (unitOf 10 n) none 0 0 inj

def execConvFail (n : Fin 8) (s : State) : Host.Outcome State Fault Refusal := .next (convFail s n false)

/-- The port dies on a segment (R325). -/
def segPorts (n : Nat) : List Nat := if n = 0 then [0] else if n = 4 then [1] else if n = 7 then [2, 3] else []

/-- A port die loses its power: its links go down and its bays are dark (R328). -/
def losePortDie (s : State) (k : Nat) : State :=
  let s := [2 * k, 2 * k + 1].foldl (fun s b =>
    if bayState s b = 0 then s else holdDark s b (s.get (casStatDarkReason (b / 2) (b % 2)))) s
  forN 16 (fun p s => s.put (portStatLink k p) 0) { s with pdOff := setIns k s.pdOff }

/-- SEG_SHORT: the segment's two ties open, its regions lose power and its port dies go down (R327). -/
def segShort (s : State) (n : Nat) (inj : Bool) : State :=
  let ties := setBit (setBit (s.get pwrConvTieOpen) n true) ((n + 7) % 8) true
  let s := (segPorts n).foldl losePortDie ({ s with shorted := setIns n s.shorted }.put pwrConvTieOpen ties)
  forN 4 (fun i s => if built s (4 * n + i) then tripRegion s (4 * n + i) 0x0406 (unitOf 10 n) n 5 inj else s) s

def execSegShort (n : Fin 8) (s : State) : Host.Outcome State Fault Refusal := .next (segShort s n false)

/-- CELL_FAIL (R330), of a region that has power or ramps. -/
def cellFail (s : State) (r g : Nat) (inj : Bool) : State :=
  if (s.get (clkStatRstate r) = 0 ∧ s.get (pwrStatPstate r) ≠ 2) ∨ 48 ≤ cellsOf s r g then s
  else
    let old := worstCells s r
    let s := s.put (pwrCellsFailed r) (s.get (pwrCellsFailed r) + 2 ^ (8 * g))
    let f := worstCells s r
    let s := raiseErr s 0x0401 0 r (unitOf 7 g) none 0 f inj
    if 25 ≤ f then
      tripRegion (s.put fenceNvPerm (setBit (s.get fenceNvPerm) r true)) r 0x0403 (unitOf 7 g) f 0 inj
    else if 9 ≤ f then
      let s := s.put (pwrStatDerated r) 1
      if old < 9 then raiseErr s 0x0402 1 r (unitOf 7 g) (some (s.get (hubStepCntStep r))) 0 f inj else s
    else s

def execCellFail (r : Fin 32) (group : Fin 4) (s : State) : Host.Outcome State Fault Refusal := .next (cellFail s r group false)

/-- A probe trips: the fault is permanent, and the region stays fenced and dark (R335). -/
def probeTrip (s : State) (r : Nat) : State :=
  updPlant (endCuts (s.puts [(fenceNvPerm, setBit (s.get fenceNvPerm) r true), (pwrStatPstate r, 5), (pwrStatQuarter r, 0)]) r) r
    (fun p => { p with probing := none, probe := none })

/-- A stage-2 module trips: the isolation switch opens, the fence follows, and the region is to be probed (R333, R335). -/
def s2Trip (s : State) (r cause : Nat) (inj : Bool) : State :=
  if s.get (clkStatRstate r) = 0 ∧ s.get (pwrStatPstate r) ≠ 2 then s
  else if (s.plant r).probing.isSome && !inj then probeTrip s r
  else updPlant (tripRegion (s.put (pwrStatOcTrip r) 1) r 0x0404 0 cause 5 inj) r (fun p => { p with probe := some inj })

/-- S2_TRIP. -/
def execS2Trip (r : Fin 32) (cause : Fin 3) (s : State) : Host.Outcome State Fault Refusal := .next (s2Trip s r cause false)

/-- Can region `r` be powered: is its segment without a short (R327), and does one of its stage-2 modules work (R331)? -/
def hasSupply (s : State) (r : Nat) : Bool := !s.shorted.contains (r / 4) && decide (s.get (pwrCellsS2Fail r) ≠ 3)

/-- Both stage-2 modules of a region have failed: it is isolated as by an internal fault; one that awaited admission, or was off, is fenced
all the same (R331). -/
def s2Lost (s : State) (r : Nat) : State :=
  if s.get (clkStatRstate r) ≠ 0 ∨ s.get (pwrStatPstate r) = 2 then s2Trip s r 2 false
  else if s.get (pwrStatPstate r) = 1 then tripRegion s r 0x0404 0 2 5 false
  else if fenced s r ∨ excluded s r ∨ s.get bootStatusStep = 0 then s
  else updPlant (s.put (pwrStatPstate r) 5) r (fun p => { p with due := some (0x0404, 0, 2, false) })

/-- S2_FAIL: one failed module caps the region; with both failed it is dark and fenced (R331). -/
def execS2Fail (r : Fin 32) (i : Fin 2) (s : State) : Host.Outcome State Fault Refusal :=
  if !built s r then .next s
  else
    let s := s.put (pwrCellsS2Fail r) (setBit (s.get (pwrCellsS2Fail r)) i true)
    if s.get (pwrCellsS2Fail r) = 3 then .next (s2Lost s r)
    else .next (if s.get (clkStatRstate r) = 0 then s else s.put (pwrStatDerated r) 1)

/-- A region comes up from power-on: new stack keys and a zeroed stack, its root at 1200 MHz (R396, R419); its hub writes the step record of
the bitstream in force (R137), and the signals that its stop held for it are applied (R217). -/
def powerUp (s : State) (r : Nat) : State :=
  let (keys, s) := s.draw 64
  let s := { s with unzeroed := s.unzeroed.filter (fun k => decide (k / 128 ≠ r)), stkKeys := tabPut r keys s.stkKeys }
  let s := s.puts [(pwrStatPstate r, 3), (clkStatRstate r, 1), (clkStatRootMhz r, 1200), (pwrStatQuarter r, 0), (pwrAdmitDeferMs r, 0),
    (pwrStatDerated r, b2n (decide (9 ≤ worstCells s r ∨ s.get (pwrCellsS2Fail r) ≠ 0)))]
  let s := retarget (firstRecord (applyMode s r (s.get modeCtrlCurMode)) r) r
  let x := s.stop r
  x.signals.foldl (fun s m => signalArrives s r m) (s.setStop r { x with signals := [] })

/-- TRIP_PROBE: 100 ms after a trip the one probe of the region is requested: it goes through admission at the quarter slope, and shows at the
end of its ramp whether it trips; an injected trip does not recur (R335, R437). A region that has no supply is not probed. -/
def execTripProbe (r : Fin 32) (tripsAgain : Bool) (s : State) : Host.Outcome State Fault Refusal :=
  match (s.plant r).probe with
  | none => .next s
  | some inj =>
    let s := updPlant s r (fun p => { p with probe := none })
    if !hasSupply s r then .next s
    else
      .next (updPlant (s.puts [(pwrStatPstate r, 1), (pwrStatQuarter r, 1)]) r (fun p => { p with probing := some (tripsAgain && !inj), deferred := 0 }))

/-! ## Admission (R336-R338) -/

/-- `SOFTSTART_US` (R39). -/
def softStart (s : State) : Nat := let t := getLe (secOf s 6) 4 2; if t = 0 then 400 else t

/-- Does a headroom in W, times 1000, cover P_in(T) = (64 800 / T + 60) / 0.955 W, T in µs? -/
def coversInrush (headroom t : Nat) : Bool := decide ((64800 + 60 * t) * 1000000 ≤ headroom * 955 * t)

/-- P_in(T) in W, cut to an integer (log 31). -/
def inrush (t : Nat) : Nat := (64800 + 60 * t) * 1000 / (955 * t)

/-- Segment and module headroom, in mW at 12 V (R337). -/
def headroom (s : State) (n : Nat) (d : Draws) : Nat :=
  min ((4500 - d.segPeaks.getD n 0) * 1000) ((effModule s - d.inputPeak) * 975)

/-- The regions of a segment, ascending. -/
def segRegions (n : Nat) : List Nat := range' (4 * n) 4

/-- The head request of a segment: none while one of its regions ramps, or while any region is parked for a cuff; a region without supply is
not powered (R327, R331). -/
def admitHead (s : State) (n : Nat) : Option Nat :=
  if s.get pwrParkedParked ≠ 0 ∨ (segRegions n).any (fun r => decide (s.get (pwrStatPstate r) = 2)) then none
  else (segRegions n).find? (fun r => decide (s.get (pwrStatPstate r) = 1) && hasSupply s r)

/-- ADMISSION_RETEST: every 100 µs the head request is admitted, or deferred; at 50 ms in all it takes the quarter slope. -/
def execAdmissionRetest (seg : Fin 8) (draws : Draws) (s : State) : Host.Outcome State Fault Refusal :=
  let s := measure s draws
  match admitHead s seg with
  | none => .next s
  | some r =>
    if s.on (pwrStatQuarter r) then .next (s.put (pwrAdmitInrushW r) (inrush (4 * softStart s)))
    else
    let s := s.put (pwrAdmitInrushW r) (inrush (softStart s))
    if coversInrush (headroom s seg draws) (softStart s) then .next (s.put (pwrStatPstate r) 2)
    else
      let n := (s.plant r).deferred + 1
      let s := updPlant s r (fun p => { p with deferred := n })
      .next (s.puts [(pwrAdmitDeferMs r, n / 10), (pwrStatQuarter r, b2n (decide (500 ≤ n)))])

/-- Running regions of a segment. -/
def segRunning (s : State) (n : Nat) : List Nat := (segRegions n).filter (fun r => decide (s.get (clkStatRstate r) = 1))

/-- QUARTER: a request with the quarter slope ramps when the headrooms cover P_in(4T), or once the cuts that make up the shortfall are
in force and kept. -/
def execQuarter (seg : Fin 8) (draws : Draws) (s : State) : Host.Outcome State Fault Refusal :=
  let s := measure s draws
  match admitHead s seg with
  | none => .next s
  | some r =>
    let t := 4 * softStart s
    let l := segRunning s seg
    if !s.on (pwrStatQuarter r) then .next s
    else
      let s := s.put (pwrAdmitInrushW r) (inrush t)
      let cut := l.any (fun x => decide ((s.plant x).cut ≠ 0))
      let kept := l.all (fun x => (effRegion s x).all (fun c => decide (draws.regions.getD x 0 ≤ c)))
      if coversInrush (headroom s seg draws) t ∨ l.isEmpty ∨ (cut ∧ kept) then .next (s.put (pwrStatPstate r) 2)
      else if cut then .next s
      else
        let short := inrush t + 1 - headroom s seg draws / 1000
        .next (l.foldl (fun s x => updPlant s x (fun p => { p with cut := ceilDiv short l.length })) s)

/-- RAMP_END: a soft-start ends, that of a probe with its result; the cuts made for it are restored. -/
def execRampEnd (r : Fin 32) (s : State) : Host.Outcome State Fault Refusal :=
  if s.get (pwrStatPstate r) ≠ 2 then .next s
  else if (s.plant r).probing = some true then .next (probeTrip s r)
  else .next (endCuts (updPlant (powerUp s r) r (fun p => { p with deferred := 0, probing := none })) r)

/-! ## Cuffs (R339-R342) -/

/-- PWR_CUFF_WRITE: 1000-32 000 W, or 0 for the bitstream's value; others are ignored. -/
def execPwrCuffWrite (value : W64) (s : State) : Host.Outcome State Fault Refusal :=
  let v := field value.toNat 0 16
  if v = 0 then .next (s.put pwrCuffModuleCuffW (getLe (secOf s 6) 0 4))
  else if 1000 ≤ v ∧ v ≤ 32000 then .next (s.put pwrCuffModuleCuffW v) else .next s

/-- PWR_RCUFF_WRITE: 0, or 100-760 W. Served while the region is parked or off (R351). -/
def execPwrRcuffWrite (r : Fin 32) (value : W64) (s : State) : Host.Outcome State Fault Refusal :=
  let v := field value.toNat 0 16
  if v = 0 ∨ (100 ≤ v ∧ v ≤ 760) then .next (s.put (pwrRcuffRegionCuffW r) v) else .next s

/-- Regions that the controller can throttle or park: running, and not in soft-start. -/
def cuffable (s : State) : List Nat :=
  (List.range 32).filter (fun r => decide (s.get (clkStatRstate r) = 1 ∧ s.get (pwrStatPstate r) = 3))

/-- `PARK_PRIO` (R39). -/
def parkPrio (s : State) (r : Nat) : Nat := getLe (secOf s 6) (10 + 4 * r) 1

/-- The order in which regions are parked: highest priority first, then highest number. -/
def parkSorted (s : State) (l : List Nat) : List Nat :=
  (List.range 256).reverse.flatMap (fun p => (l.filter (fun r => decide (parkPrio s r = p))).reverse)

/-- The fewest regions in order whose saving covers an excess; saving and excess in the same unit. -/
def coverExcess (save : Nat → Nat) (excess : Nat) : List Nat → Nat → List Nat
  | [], _ => []
  | r :: t, got => if excess ≤ got then [] else r :: coverExcess save excess t (got + save r)

/-- The draw that a module cuff is compared with, in mW at 12 V: the input, with the estimate of every region in soft-start in place of
what it draws (R338, R341). -/
def cuffDraw (s : State) (d : Draws) : Nat :=
  let ramps := (List.range 32).filter (fun r => decide (s.get (pwrStatPstate r) = 2))
  let sum := fun (f : Nat → Nat) => ramps.foldl (fun n r => n + 1000 * f r) 0
  d.input * 975 + sum (fun r => s.get (pwrAdmitInrushW r)) - sum (fun r => d.regions.getD r 0)

/-- A park is decided, for the region's own cuff or for the module's (R341). -/
def decidePark (s : State) (draws : Draws) (own : Bool) (r : Nat) : State :=
  let s := updPlant s r (fun p => { p with draw0 := draws.regions.getD r 0, ownPark := own, unparked := false })
  let s := s.puts [(clkStatRstate r, 2), (clkStatParkCuff r, 1), (pwrParkedParked, setBit (s.get pwrParkedParked) r true)]
  { s.bump pwrParkedParkEvents 1 with parkOrder := r :: setDel r s.parkOrder }

/-- One step down for a cuff (R340). -/
def throttleStep (s : State) (r : Nat) : State :=
  let now := min (s.get (clkStatRootMhz r)) ((s.plant r).cuffMhz.getD 4095)
  retarget (updPlant s r (fun p => { p with cuffMhz := some (max 1200 (now - 100)) })) r

/-- Has the region still room to throttle? -/
def canThrottle (s : State) (r : Nat) : Bool := decide (1200 < s.get (clkStatRootMhz r))

/-- CUFF_ENFORCE: one round of enforcement at the draws measured: equal steps down, and parks once every region concerned is at
1200 MHz (R340, R341). -/
def execCuffEnforce (draws : Draws) (s : State) : Host.Outcome State Fault Refusal :=
  let s := measure s draws
  let eff := effModule s
  let s :=
    if cuffDraw s draws ≤ eff * 975 then s
    else if (cuffable s).any (canThrottle s) then (cuffable s).foldl throttleStep s
    else
      let l := coverExcess (fun r => (draws.regions.getD r 0 - 25) * 1000) (cuffDraw s draws - eff * 975) (parkSorted s (cuffable s)) 0
      l.foldl (fun s r => decidePark s draws false r) s
  .next ((cuffable s).foldl (fun s r =>
    match effRegion s r with
    | none => s
    | some c =>
      if draws.regions.getD r 0 ≤ c then s
      else if canThrottle s r then throttleStep s r else decidePark s draws true r) s)

/-- A step up, or the end of the cuff target once it no longer limits (R342). -/
def liftStep (s : State) (r : Nat) : State :=
  match (s.plant r).cuffMhz with
  | none => s
  | some m =>
    let top := modeRoot s (s.get modeCtrlCurMode)
    retarget (updPlant s r (fun p => { p with cuffMhz := if top ≤ m + 100 then none else some (m + 100) })) r

/-- Would the draw stay within 95 % of the cuff that parked a region, with the region's own draw added (R342)? -/
def unparkFits (s : State) (draws : Draws) (r : Nat) : Bool :=
  let p := s.plant r
  if p.ownPark then (effRegion s r).all (fun c => decide ((draws.regions.getD r 0 + p.draw0) * 100 ≤ 95 * c))
  else decide ((cuffDraw s draws + p.draw0 * 1000) * 100 ≤ 95 * (effModule s * 975))

/-- Throttling is lifted by a step where the draws are within 95 % of the cuffs (R342). -/
def liftThrottles (s : State) (draws : Draws) : State :=
  if cuffDraw s draws * 100 ≤ 95 * (effModule s * 975) then
    (cuffable s).foldl (fun s r => if (effRegion s r).all (fun c => decide (draws.regions.getD r 0 * 100 ≤ 95 * c)) then liftStep s r else s) s
  else s

/-- UNPARK: the draw has stayed within 95 % of the cuff for 10 ms: the region parked last is unparked; where none is, or the cuff does not
allow that one yet, throttling is lifted by a step. -/
def execUnpark (draws : Draws) (s : State) : Host.Outcome State Fault Refusal :=
  let s := measure s draws
  match s.parkOrder with
  | r :: rest =>
    if unparkFits s draws r then
      let s := updPlant { s with parkOrder := rest } r (fun p => { p with unparked := true })
      .next (s.puts [(clkStatParkCuff r, 0), (pwrParkedParked, setBit (s.get pwrParkedParked) r false)])
    else .next (liftThrottles s draws)
  | [] => .next (liftThrottles s draws)

end Sys2Proof.Machine
end

