-- ==== Sys2Proof/Machine/Optics.lean ====
section
/-! DEFINITION. Laser cassettes (R312-R323). Bay b lies on port die b / 2. -/
namespace Sys2Proof.Machine

def partnerOf (b : Nat) : Nat := if b % 2 = 0 then b + 1 else b - 1
def baySerial (s : State) (b : Nat) : Nat := s.get (casSerialSerial (b / 2) (b % 2))
def bayUnit (b : Nat) : Nat := unitOf 4 b
def bayStop (b : Nat) : Nat := 32 + b / 2

/-! ## Light (R312-R314) -/

/-- The cassette is on its way out: its partner ramps up, then it ramps down (R322). -/
def releasing (s : State) (b : Nat) : Bool := decide ((s.bay b).phase = 4 ∨ (s.bay b).phase = 5)

/-- The drive target of one laser (R313, R314, R319): a failed one is off, one in warm-up is at 5; a lit one goes to 100 where its partner of
the same index gives no light, and to the drive of its cassette otherwise. -/
def laserDrive (s : State) (b j : Nat) : Nat :=
  if bitAt (laserFails s b) j then 0
  else if (s.bay b).phase = 2 then 5
  else if !isLit s b then 0
  else if (s.bay b).phase ≠ 5 ∧ bitAt (laserFails s (partnerOf b)) j then 100
  else s.get (casDriveDrive (b / 2) (b % 2))

/-- The sum of the squares of the drives of a cassette's lasers, which sets the pace of its life counter (R320). -/
def driveSq (s : State) (b : Nat) : Nat := if isLit s b then ((List.range 16).map (fun j => laserDrive s b j ^ 2)).sum else 0

/-- The drives of a pair are about to change: what they were has run for part of the interval of R320. -/
def noteDrive (s : State) (k : Nat) : State :=
  [2 * k, 2 * k + 1].foldl (fun s b =>
    let x := s.bay b
    let n := driveSq s b
    s.setBay b { x with low := some (min n (x.low.getD n)), high := max n x.high }) s

/-- Drive targets of a pair (R313): 50, in endurance 40, each when both are lit, 100 alone; the partner of a release goes to 100. -/
def settleDrive (s : State) (k : Nat) : State :=
  [2 * k, 2 * k + 1].foldl (fun s b =>
    if !isLit s b then s
    else if (s.bay b).phase = 5 then setDrive s b 0
    else if !isLit s (partnerOf b) ∨ releasing s (partnerOf b) then setDrive s b 100
    else setDrive s b (if endurance s then 40 else 50)) (noteDrive s k)

/-- The light on the lanes of a port: the sum of the two partners' outputs for its laser index (R312). -/
def laneLight (s : State) (port : Nat) : Nat := laserDrive s (port / 16 * 2) (port % 16) + laserDrive s (port / 16 * 2 + 1) (port % 16)

/-- Ports that have lost their light lose their links, each with a record (R314, R322). -/
def darken (s : State) (k : Nat) (old : List Nat) (inj : Bool) : State :=
  let now := litIndices s k
  (old.filter (fun j => !now.contains j)).foldl (fun s j =>
    raiseErr (s.put (portStatLink k j) 0) 0x0802 1 (32 + k) (unitOf 3 (16 * k + j)) none 0 j inj) s

/-- Ports of 00-03 that waited at start-up for their light come up with it (R419). -/
def kindle (s : State) (k : Nat) : State :=
  let now := s.linkUps.filter (fun p => decide (p / 16 = k) && hasLight s p)
  now.foldl (fun s p => s.put (portStatLink k (p % 16)) (setBit (s.get (portStatLink k (p % 16))) 0 true))
    { s with linkUps := s.linkUps.filter (fun p => !now.contains p) }

/-- A change of a bay with what it does to the pair's drive and light. -/
def changeBay (s : State) (b : Nat) (inj : Bool) (f : State → State) : State :=
  let old := litIndices s (b / 2)
  kindle (darken (settleDrive (f (noteDrive s (b / 2))) (b / 2)) (b / 2) old inj) (b / 2)

/-- Does the port die of a bay run? -/
def dieRuns (s : State) (b : Nat) : Bool := decide (13 ≤ s.get bootStatusStep) && !s.pdOff.contains (b / 2)

/-- A bay without a cassette: its registers read zero, but for `REL_DENIED`. -/
def emptyBay (s : State) (b : Nat) : State :=
  let base := dAddr (b / 2) (0x400000 + 0x1000 * (b % 2))
  let denied := s.get (casStatRelDenied (b / 2) (b % 2))
  ({ s with regs := tabDrop (fun k => decide (base * 8 ≤ k ∧ k < (base + 0x28) * 8)) s.regs, bays := tabErase b s.bays }).put
    (casStatRelDenied (b / 2) (b % 2)) denied

/-- The light of bay `b` fails while its partner waits in Partner up to be released: the release stops (R322). -/
def stopRelease (s : State) (b : Nat) : State :=
  let q := partnerOf b
  if (s.bay q).phase = 4 then (setPhase s q 0).put (casStatRelDenied (q / 2) (q % 2)) 1 else s

/-! ## Authentication and warm-up (R317-R319) -/

/-- A challenge is drawn and authentication begins. -/
def startAuth (s : State) (b : Nat) : State :=
  let (n, s) := s.draw 32
  s.setBay b { s.bay b with phase := 1, nonce := n }

/-- Authentication of a cassette in its bay, at step 7 of start-up or at its insertion. -/
def admitCassette (s : State) (b : Nat) : State :=
  startAuth ((s.setBay b { s.bay b with green := false }).put (bayStateF b) 1) b

/-- CASSETTE_DETECT: the presence contact has been stable for 50 ms. Without its port die, the contact is all there is until step 7. -/
def execCassetteDetect (bay : Fin 8) (s : State) : Host.Outcome State Fault Refusal :=
  if s.on (casStatPresent (bay.val / 2) (bay.val % 2)) then .next s
  else
    let s := s.put (casStatPresent (bay.val / 2) (bay.val % 2)) 1
    .next (if dieRuns s bay then admitCassette s bay else s)

/-- The hash in an issuer slot: slot 0 is the vendor's (R384). -/
def issuerSlot (s : State) (i : Nat) : List Byte :=
  if i = 0 then s.vendorHash else (List.range 4).flatMap (fun w => natLe 8 (s.get (issuerHash (4 * (i - 1) + w))))

/-- Is the hash that of an accepted issuer (R385)? -/
def issuerOk (s : State) (h : List Byte) : Bool := (List.range 4).any (fun i => bitAt (s.get secStateIssuerEn) i && decide (issuerSlot s i = h))

/-- The reason of the first check of R317 that fails, 0 for none. -/
def authReason (s : State) (b : Nat) (c : CassetteReply) : Nat :=
  let d := c.cert
  if !c.answers || decide (d.length ≠ 832) then 6
  else if slice d 0 4 ≠ ascii "HCAS" ∨ getLe d 4 2 ≠ 1 ∨ getLe d 0x14 12 ≠ 0 then 1
  else if !issuerOk s (slice d 0x20 32) then 2
  else if !pssVerify (Config.keyOf (slice d 0x20 32)) (d.take 0x1C0) (slice d 0x1C0 384) then 3
  else if !pssVerify (slice d 0x40 384) ((s.bay b).nonce ++ slice d 8 8 ++ natLe 8 c.lifeCh) c.response then 4
  else 0

/-- The counter that an armed injection of `CAS_EOL` puts before the comparisons of R321 (R437). -/
def forcedLife (s : State) (b : Nat) : Option Nat :=
  match s.inj with
  | some j => if j.code = 0x0805 ∧ j.unit = bayUnit b then some (j.value % 2 ^ 32) else none
  | none => none

/-- End-of-life flags as the counter compared gives them, each setting with its record (R321). -/
def settleLife (s : State) (b : Nat) : State :=
  let rated := s.get (casLifeRatedCh (b / 2) (b % 2))
  let inj := (forcedLife s b).isSome
  let life := (forcedLife s b).getD (s.get (casLifeLifeCh (b / 2) (b % 2)))
  let flag := fun (s : State) (f : Fld) (reached : Bool) =>
    if reached && !s.on f then raiseErr (s.put f 1) 0x0805 0 (bayStop b) (bayUnit b) none (baySerial s b) life inj else s.putB f reached
  if rated = 0 then s
  else flag (flag s (casStatEolWarn (b / 2) (b % 2)) (decide (9 * rated ≤ 10 * life))) (casStatEol (b / 2) (b % 2)) (decide (rated ≤ life))

/-- CASSETTE_AUTHENTICATED: the checks end. An armed injection of `CAS_AUTH` makes the challenge fail (R437). A lit cassette that is
authenticated again stays lit while it passes, and its counter, which only rises, is not read below what it was (R320, log 40). -/
def execCassetteAuthenticated (bay : Fin 8) (reply : CassetteReply) (s : State) : Host.Outcome State Fault Refusal :=
  let b := bay.val
  if (s.bay b).phase ≠ 1 then .next s
  else
    let (hit, s) := injectedFail s [0x0803] (bayStop b) (bayUnit b) none
    let why := authReason s b reply
    let serial := baySerial s b
    let read := reply.answers && decide (reply.cert.length = 832)
    let s := if read then
        (s.setBay b { s.bay b with cert := reply.cert }).put (casSerialSerial (b / 2) (b % 2)) (getLe reply.cert 8 8)
      else s
    let why := if why = 0 ∧ hit then 4 else why
    if why ≠ 0 then
      .next (raiseErr (changeBay s b hit (fun s => stopRelease (holdDark s b why) b)) 0x0803 0 (bayStop b) (bayUnit b) none (baySerial s b) why hit)
    else
      let life := if serial = getLe reply.cert 8 8 then max reply.lifeCh (s.get (casLifeLifeCh (b / 2) (b % 2))) else reply.lifeCh
      let s := s.puts [(casLifeLifeCh (b / 2) (b % 2), life), (casLifeRatedCh (b / 2) (b % 2), getLe reply.cert 6 2 * 100000)]
      let s := settleLife s b
      if isLit s b then .next (setPhase s b 0)
      else .next (setDrive (setPhase (s.puts [(bayStateF b, 1), (casStatDarkReason (b / 2) (b % 2), 0)]) b 2) b 5)

/-- LASERS_LOCKED: the warm-up ends and the drive ramps in. -/
def execLasersLocked (bay : Fin 8) (s : State) : Host.Outcome State Fault Refusal :=
  if (s.bay bay).phase ≠ 2 then .next s
  else .next (changeBay s bay false (fun s => setPhase (s.put (bayStateF bay) 2) bay 3))

/-- An increment is written to a cassette, and the next interval begins (R320). -/
def addLife (s : State) (b n : Nat) : State :=
  settleLife ((s.setBay b { s.bay b with low := none, high := 0 }).bump (casLifeLifeCh (b / 2) (b % 2)) n) b

/-- The least and the greatest increment of 10 minutes in units of 0.01 h: the mean of (d / 100)² over 16 lasers, a sixth of an hour, at the
lowest and at the highest drives of the interval; what is below a unit is carried to the next (R320, log 40). -/
def lifeBounds (s : State) (b : Nat) : Nat × Nat :=
  let x := s.bay b
  let n := driveSq s b
  (min n (x.low.getD n) / 9600, ceilDiv (max n x.high) 9600)

/-- The increment since the last one is written before its 10 minutes are over: how much of them has run is not observed here (log 40). -/
def writeLife (s : State) (b : Nat) : State :=
  let (n, s) := s.pick ((lifeBounds s b).2 + 1)
  addLife s b n

/-- Every lit cassette's increment is written (R320, R425, R428). -/
def writeLives (s : State) : State := forN 8 (fun b s => if isLit s b then writeLife s b else s) s

/-- `DARK_REASON` 5: dark by its temperature, until it has cooled and `REAUTH` is written (R315). -/
def overheated (s : State) (b : Nat) : Bool := decide (s.get (casStatDarkReason (b / 2) (b % 2)) = 5)

/-- A release ends: the lasers are below 1 %, the final increment is written, the supply is off and the indicator shows green (R322). -/
def finishRelease (s : State) (b : Nat) : State :=
  changeBay s b false (fun s =>
    let s := (holdDark (writeLife s b) b (if overheated s b then 5 else 7)).put (casStatReleased (b / 2) (b % 2)) 1
    s.setBay b { s.bay b with green := true })

/-- DRIVE_RAMP_END: a ramp of the bay's pair completes: the ramp in, Partner up, or Outgoing down, which Count follows (R319, R322). -/
def execDriveRampEnd (bay : Fin 8) (s : State) : Host.Outcome State Fault Refusal :=
  match (s.bay bay).phase with
  | 3 => .next (setPhase s bay 0)
  | 4 => .next (settleDrive (setPhase s bay 5) (bay.val / 2))
  | 5 => .next (finishRelease s bay)
  | _ => .next s

/-! ## Failures (R314, R315, R321) -/

/-- A laser fails: it is turned off, and its partner of the same index goes to full drive; a release that the bay's partner has in
progress stops (R314, R322). -/
def laserFail (s : State) (b j : Nat) (inj : Bool) : State :=
  if (!isLit s b && decide ((s.bay b).phase ≠ 2)) || bitAt (laserFails s b) j then s
  else
    changeBay s b inj (fun s =>
      let s := raiseErr (s.put (casStatLaserFail (b / 2) (b % 2)) (setBit (laserFails s b) j true)) 0x0801 0 (bayStop b) (bayUnit b) none (baySerial s b) j inj
      stopRelease s b)

/-- LASER_FAIL. -/
def execLaserFail (bay : Fin 8) (laser : Fin 16) (s : State) : Host.Outcome State Fault Refusal := .next (laserFail s bay laser false)

/-- All lasers of a cassette count as failed while it is overheated; those that had failed before are remembered (R315). -/
def overheat (s : State) (b : Nat) : State :=
  let s := s.setBay b { s.bay b with fails := laserFails s b }
  stopRelease ((holdDark s b 5).put (casStatLaserFail (b / 2) (b % 2)) 0xFFFF) b

/-- A reading of a cassette's temperature; at 75 °C the cassette is darkened, one that is dark for another reason becomes overheated too (R315). -/
def casTemp (s : State) (b celsius : Nat) (inj : Bool) : State :=
  if bayState s b = 0 ∨ !dieRuns s b then s
  else
    let s := s.put (casStatTemp (b / 2) (b % 2)) celsius
    if celsius < 75 ∨ overheated s b then s
    else raiseErr (changeBay s b inj (fun s => overheat s b)) 0x0806 0 (bayStop b) (unitOf 8 25) none (baySerial s b) celsius inj

/-- Does an armed injection of `CAS_OVERTEMP` cover the cassette's temperature (R437)? -/
def forcedTemp (s : State) (b : Nat) : Bool := s.inj.any (fun j => decide (j.code = 0x0806 ∧ j.unit = bayUnit b))

/-- CAS_OVERTEMP: a measurement, which an injected reading covers for its time. -/
def execCasOvertemp (bay : Fin 8) (celsius : Nat) (s : State) : Host.Outcome State Fault Refusal :=
  let s := if bayState s bay = 0 then s else s.setBay bay { s.bay bay with temp := celsius }
  .next (if forcedTemp s bay then s else casTemp s bay celsius false)

/-! ## Swapping (R322, R323) -/

/-- May the cassette of bay `b` be released without force: the partner is lit, free of failed lasers, and not in a release? -/
def mayRelease (s : State) (b : Nat) : Bool :=
  isLit s (partnerOf b) && decide (laserFails s (partnerOf b) = 0) && !releasing s (partnerOf b)

/-- RELEASE: a lit cassette waits for its partner's ramp; one that is warming or dark passes straight to the end. Where the partner does not
allow it and no `FORCE` is written, `REL_DENIED` is set, whatever the bay holds; a bay with nothing left to release is left as it is. -/
def execRelease (bay : Fin 8) (force : Bool) (s : State) : Host.Outcome State Fault Refusal :=
  let b := bay.val
  if !dieRuns s b then .next s
  else if !force && !mayRelease s b then .next (s.put (casStatRelDenied (b / 2) (b % 2)) 1)
  else if bayState s b = 0 ∨ releasing s b ∨ s.on (casStatReleased (b / 2) (b % 2)) then .next s
  else if isLit s b then .next (settleDrive (setPhase s b 4) (b / 2))
  else .next (finishRelease s b)

/-- REAUTH: authentication again; an overheated cassette must be below 65 °C (R315, R317). -/
def execReauth (bay : Fin 8) (s : State) : Host.Outcome State Fault Refusal :=
  let b := bay.val
  if bayState s b = 0 ∨ !dieRuns s b ∨ releasing s b ∨ (overheated s b ∧ 65 ≤ s.get (casStatTemp (b / 2) (b % 2))) then .next s
  else
    let s := if overheated s b then s.put (casStatLaserFail (b / 2) (b % 2)) (s.bay b).fails else s
    if isLit s b then .next (startAuth s b)
    else .next (admitCassette (s.puts [(casStatDarkReason (b / 2) (b % 2), 0), (casStatReleased (b / 2) (b % 2), 0)]) b)

/-- CAS_REMOVED: a withdrawal without release. A port die without power records nothing. -/
def execCasRemoved (bay : Fin 8) (s : State) : Host.Outcome State Fault Refusal :=
  let b := bay.val
  if !s.on (casStatPresent (b / 2) (b % 2)) || s.on (casStatReleased (b / 2) (b % 2)) then .next s
  else if !dieRuns s b then .next (emptyBay s b)
  else
    let serial := baySerial s b
    .next (raiseErr (changeBay s b false (fun s => stopRelease (emptyBay s b) b)) 0x0804 0 (bayStop b) (bayUnit b) none serial 0)

/-- CASSETTE_WITHDRAWN: a released cassette leaves its bay. -/
def execCassetteWithdrawn (bay : Fin 8) (s : State) : Host.Outcome State Fault Refusal :=
  if s.on (casStatReleased (bay.val / 2) (bay.val % 2)) then .next (emptyBay s bay) else .next s

/-- LIFE_INCREMENT: the 10 minutes of a lit cassette end, with an increment that its drives allow; the cassette takes 0 to 20 (R320, R321). -/
def execLifeIncrement (bay : Fin 8) (centiHours : Nat) (s : State) : Host.Outcome State Fault Refusal :=
  let b := bay.val
  if !isLit s b ∨ 20 < centiHours ∨ centiHours < (lifeBounds s b).1 ∨ (lifeBounds s b).2 < centiHours then .next s
  else .next (addLife s b centiHours)

end Sys2Proof.Machine
end

