-- ==== Sys2Proof/Machine/Thermal.lean ====
section
/-! DEFINITION. Monitors, throttling, parks (R343-R354), the ride modes (R355-R357), and stack temperature (R204). -/
namespace Sys2Proof.Machine

/-! ## Readings -/

/-- Hottest junction in 1/16 °C: Tj (R346). -/
def tj16 (s : State) (r : Nat) : Int :=
  (List.range 16).foldl (fun m i => max m (signed 16 (s.get (tmonT r i)))) (-32768)

/-- `TJ` in °C; below zero it reads 0 (log 31). -/
def tjShown (s : State) (r : Nat) : Nat := min 255 ((tj16 s r).toNat / 16)

/-- A reading that an armed injection of method S forces on a monitor of region `r` (R437): index 0-15 temperature, 16-23 voltage, 24 the
stack. -/
def forcedReading (s : State) (r idx : Nat) : Option Nat :=
  match s.inj with
  | some j => if [0x0501, 0x0502, 0x0503, 0x0604].contains j.code && decide (j.stop = r ∧ j.unit = unitOf 8 idx) then some j.value else none
  | none => none

/-- A threshold is crossed: `ALERT` is set, with one record for each setting (R346). -/
def alert (s : State) (f : Fld) (r code idx v : Nat) (crossed : Bool) : State :=
  if crossed && !s.on f then raiseErr (s.put f 1) code 0 r (unitOf 8 idx) none 0 v (forcedReading s r idx).isSome else s

def sampleTemp (s : State) (r i v : Nat) : State :=
  let v := (forcedReading s r i).getD v % 65536
  let s := s.put (tmonT r i) v
  alert s (tmonAlert r i) r 0x0501 i v (decide (signed 16 (s.get (tmonTAlert r i)) ≤ signed 16 v))

def sampleVolt (s : State) (r i v : Nat) : State :=
  let v := (forcedReading s r (16 + i)).getD v % 65536
  let s := s.put (vmonV r i) v
  alert s (vmonAlert r i) r 0x0502 (16 + i) v (decide (v < s.get (vmonVLo r i) ∨ s.get (vmonVHi r i) < v))

/-- The stack's temperature and its flags (R204). -/
def sampleStack (s : State) (r v : Nat) : State :=
  let v := (forcedReading s r 24).getD v % 256
  let s := s.puts [(stkThermTemp r, v), (stkThermTempMax r, max v (s.get (stkThermTempMax r)))]
  let s := if 85 ≤ v then s.put (stkThermHot r) 1 else if v < 82 then s.put (stkThermHot r) 0 else s
  let l := s.get (stkThermLimit r)
  let s := if l ≤ v then s.put (stkThermThrottle r) 1 else if v + 3 < l then s.put (stkThermThrottle r) 0 else s
  if 100 ≤ v then s.put (stkThermTripped r) 1 else s

/-- Does an injection force a reading of the region (R437)? -/
def anyForced (s : State) (r : Nat) : Bool := (List.range 25).any (fun i => (forcedReading s r i).isSome)

/-- The thermal park is noted, and whether an injected reading took part in it (R439). -/
def markThermalPark (s : State) (r : Nat) : State :=
  updPlant (s.puts [(clkStatParkTherm r, 1), (thermStatParkedT r, 1)]) r (fun p => { p with parkInj := anyForced s r })

/-- A thermal park is decided; one for a cuff that is in progress is joined (R348, R354). -/
def decideThermalPark (s : State) (r : Nat) : State :=
  match s.get (clkStatRstate r) with
  | 1 => markThermalPark (s.put (clkStatRstate r) 2) r
  | 2 | 3 => if s.on (clkStatParkTherm r) then s else markThermalPark s r
  | _ => s

/-- MONITOR_SAMPLE: one sample of every monitor of a powered region (R346), and the parks it decides (R348). -/
def execMonitorSample (r : Fin 32) (m : Readings) (s : State) : Host.Outcome State Fault Refusal :=
  if s.get (clkStatRstate r) = 0 then .next s
  else
    let s := forN 16 (fun i s => sampleTemp s r i (m.temps.getD i 0).toNat) s
    let s := forN 8 (fun i s => sampleVolt s r i (m.volts.getD i 0).toNat) s
    let s := forN 4 (fun i s => s.put (pmonFRo r i) (m.freqs.getD i 0).toNat) s
    let s := sampleStack s r (m.stack.foldl (fun a b => max a b.toNat) 0)
    let s := s.puts [(thermStatTj r, tjShown s r), (thermStatTjMax r, max (tjShown s r) (s.get (thermStatTjMax r)))]
    if 115 * 16 ≤ tj16 s r ∨ 100 ≤ s.get (stkThermTemp r) then .next (decideThermalPark s r) else .next s

/-! ## Throttling (R347) -/

/-- THERMAL_TARGET_STEP: down by 100 MHz while a source is at its throttle point, from where it just did not limit the root; up while none is
within 3 °C of it. -/
def execThermalTargetStep (r : Fin 32) (s : State) : Host.Outcome State Fault Refusal :=
  let t := 16 * (s.get (thermCtrlTjThrottle r) : Int)
  let p := s.plant r
  if s.get (clkStatRstate r) ≠ 1 then .next s
  else if t ≤ tj16 s r ∨ s.get (stkThermLimit r) ≤ s.get (stkThermTemp r) then
    let ceil := modeRoot s (s.get modeCtrlCurMode)
    let now := p.thermMhz.getD (min ceil (p.cuffMhz.getD ceil))
    let s := retarget (updPlant s r (fun p => { p with thermMhz := some (max 1200 (now - 100)) })) r
    .next (if s.on (thermStatThrottled r) then s else (s.put (thermStatThrottled r) 1).bump (thermStatThrottleEvents r) 1)
  else if tj16 s r < t - 48 ∧ !s.on (stkThermThrottle r) then
    match p.thermMhz with
    | none => .next s
    | some m =>
      let top := min (modeRoot s (s.get modeCtrlCurMode)) (p.cuffMhz.getD 4095)
      if top ≤ m + 100 then .next ((retarget (updPlant s r (fun p => { p with thermMhz := none })) r).put (thermStatThrottled r) 0)
      else .next (retarget (updPlant s r (fun p => { p with thermMhz := some (m + 100) })) r)
  else .next s

/-- DVFS_STEP: the root moves one step of 100 MHz, or the remainder, towards its target (R344). -/
def execDvfsStep (r : Fin 32) (s : State) : Host.Outcome State Fault Refusal :=
  let now := s.get (clkStatRootMhz r)
  let goal := s.get (clkStatTargetMhz r)
  if s.get (clkStatRstate r) ≠ 1 then .next s
  else .next (settleMode (s.put (clkStatRootMhz r) (if now < goal then min goal (now + 100) else max goal (now - 100))))

/-! ## Parks (R349, R352) -/

/-- Is every message to region `r` delivered, and every request of it answered or held at its own stop (R349, R351)? -/
def quiet (s : State) (r : Nat) : Bool :=
  !s.ring.any (fun m => decide (m.dst = r)) &&
  s.asked.all (fun e => decide (e.2.src ≠ r) || (s.stop r).held.any (fun m => decide (m.mtag = e.1))) &&
  !s.peers.any (fun e => e.2.out.any (fun q => match q.use with | .dmaRead x _ _ _ => decide (x = r) | _ => false))

/-- PARK: the park sequence of a region that is parking runs to its end. -/
def execPark (r : Fin 32) (thermal : Bool) (s : State) : Host.Outcome State Fault Refusal :=
  let cause := s.on (if thermal then clkStatParkTherm r else clkStatParkCuff r)
  if s.get (clkStatRstate r) ≠ 2 ∨ !cause ∨ !quiet s r then .next s
  else .next ((writeBack s r).puts [(clkStatRstate r, 3), (clkStatRootMhz r, 0), (pwrStatPstate r, 4)])

/-- Is the region still above a resume point (R353)? -/
def tooHot (s : State) (r : Nat) : Bool := decide (100 * 16 ≤ tj16 s r) || decide (90 ≤ s.get (stkThermTemp r))

/-- PARK_LIMIT_EXPIRY: a thermal park outlasts `PARK_LIMIT` while hot, and the region goes off (R352). -/
def execParkLimitExpiry (r : Fin 32) (s : State) : Host.Outcome State Fault Refusal :=
  if s.get (clkStatRstate r) ≠ 3 ∨ !s.on (clkStatParkTherm r) ∨ !tooHot s r then .next s
  else
    let inj := (s.plant r).parkInj || anyForced s r
    .next (tripRegion (s.put (thermStatOffThermal r) 1) r 0x0503 0 (s.get (thermStatTj r)) 0 inj)

/-- A junction at 125 °C opens the isolation switch (R348). -/
def hwTrip (s : State) (r sensor : Nat) (inj : Bool) : State :=
  if s.get (clkStatRstate r) = 0 then s else tripRegion (s.put (thermStatHwTrip r) 1) r 0x0504 (unitOf 8 sensor) sensor 5 inj

/-- HW_TRIP. -/
def execHwTrip (r : Fin 32) (sensor : Fin 16) (s : State) : Host.Outcome State Fault Refusal := .next (hwTrip s r sensor false)

/-! ## Ride modes (R355-R357) -/

/-- A mode takes effect: cuff and ceiling at once, the per-command settings at once where no counter runs, the drives and seams as their
chapters say. -/
def enterMode (s : State) (m : Nat) : State :=
  let old := s.get modeCtrlCurMode
  let s := retargetAll (s.puts [(modeCtrlReqMode, m), (modeCtrlCurMode, m)])
  let s := forN 32 (fun r s => if mapSt s r ≠ .off ∧ hasLoop s r then s else applyMode s r m) s
  forN 4 (fun k s => settleDrive s k) (seamMode s old m)

/-- REQ_MODE_WRITE: 3 is ignored. -/
def execReqModeWrite (mode : BitVec 2) (s : State) : Host.Outcome State Fault Refusal :=
  if mode = 3 then .next s else .next (settleMode ((enterMode s mode.toNat).put modeCtrlSwitching 1))

/-- SUBNORMAL_PATH_DOWN: under `SUBNORMAL` 1 the path of a VE (0-95) or a UPE (96, 97) powers down after 10 µs without use (R356). -/
def execSubnormalPathDown (r : Fin 32) (unit : Fin 98) (s : State) : Host.Outcome State Fault Refusal :=
  if !running s r || decide (modeByte s r 10 ≠ 1) then .next s
  else if unit.val < 96 then .next (s.setCluster r unit { s.cluster r unit with subDown := true })
  else .next (s.setUpe r (unit.val - 96) { s.upe r (unit.val - 96) with subDown := true })

end Sys2Proof.Machine
end

