-- ==== Sys2Proof/Machine/Security.lean ====
section
/-! DEFINITION. The Zarsasar root (R382-R398): owner commands, session keys, firmware images, measurements, quotes. -/
namespace Sys2Proof.Machine

def ownState (s : State) : Nat := s.get secStateOwnState

/-- The owner key's hash: that of the slot in use (R384). -/
def ownerHash (s : State) : List Byte := if ownState s = 0 then List.replicate 32 0 else tabGet (List.replicate 32 0) (s.get secStateOwnerSlot) s.owners

/-- Does R385 let a signer authorise firmware and bitstreams? -/
def signerOk (s : State) (h : List Byte) : Bool :=
  match ownState s with
  | 0 => decide (h = s.vendorHash)
  | 1 => decide (h = s.vendorHash ∨ h = ownerHash s)
  | _ => decide (h = ownerHash s)

/-! ## Quotes and measurements (R388, R397, R398) -/

def word64 (l : List (Fld × Nat)) : List Byte := natLe 8 (l.foldl (fun v e => v + e.2 % 2 ^ e.1.w * 2 ^ e.1.lo) 0)
def regWord (s : State) (l : List Fld) : List Byte := word64 (l.map (fun f => (f, s.get f)))
def regWords (s : State) (f : Nat → Fld) (n : Nat) : List Byte := (List.range n).flatMap (fun i => natLe 8 (s.get (f i)))

/-- Is a meter fitted (R5)? -/
def meterFitted (s : State) : Bool := bitAt (s.get capUnits) 4

/-- Bytes 0x050-0x09F of the quote: the security configuration. -/
def quoteConfig (s : State) : List Byte :=
  natLe 1 (ownState s) ++ natLe 1 (s.get secStateOwnerSlot) ++ natLe 1 (s.get secStateIssuerEn) ++ natLe 1 0 ++ natLe 4 (s.get sliceSliceId) ++
  natLe 8 (s.get keySeq) ++ padTo 32 (ownerHash s) ++ padTo 32 s.vendorHash

def measOf (s : State) (i : Nat) : List Byte := tabGet (List.replicate 32 0) i s.meas

/-- M := SHA-256(M ‖ digest). -/
def extendM (s : State) (i : Nat) (digest : List Byte) : State := { s with meas := tabPut i (sha256 (measOf s i ++ digest)) s.meas }

/-- M3 takes the security configuration. -/
def extendConfig (s : State) : State := extendM s 3 (sha256 (quoteConfig s))

/-- A bay as the quote shows it. -/
def quoteBay (s : State) (b : Nat) : List Byte :=
  natLe 8 (baySerial s b) ++ natLe 1 (bayState s b) ++ natLe 1 (s.get (casStatDarkReason (b / 2) (b % 2))) ++
  natLe 1 (s.get (casStatEolWarn (b / 2) (b % 2)) + 2 * s.get (casStatEol (b / 2) (b % 2))) ++ natLe 1 0 ++ natLe 4 (s.get (casLifeLifeCh (b / 2) (b % 2)))

def quoteFlags (s : State) : Nat :=
  b2n (s.on ptpStatLocked) + 2 * b2n s.bs.loaded + 4 * s.get bsStatusBusy + 8 * s.get secStateRootOnMirror + 16 * b2n (meterFitted s) +
  32 * s.get bootStatusCpcHeld

/-- Bytes 0x000-0x21F. -/
def quoteBody (s : State) (time : Nat) : List Byte :=
  ascii "HTWQUOTE" ++ natLe 2 1 ++ natLe 2 (quoteFlags s) ++ natLe 4 928 ++ regWord s fieldsOfDevId ++ regWord s fieldsOfCap ++ natLe 8 s.serial ++
  natLe 8 time ++ regWords s attNonceNonce 4 ++ quoteConfig s ++ (List.range 4).flatMap (fun i => padTo 32 (measOf s i)) ++
  natLe 3 (s.get svnSvnFloor) ++ natLe 5 0 ++ natLe 8 (s.get bsSeqFloorFloor) ++ (if s.bs.loaded then bsDigest s else List.replicate 32 0) ++
  padTo 16 s.bs.jobId ++ natLe 4 (s.get regionDegradedDegraded) ++ natLe 4 (s.get fencedMask) ++ natLe 4 (s.get fenceNvPerm) ++ natLe 4 0 ++
  (List.range 8).flatMap (quoteBay s) ++ (if meterFitted s then sha256 (padTo 528 s.mirror.swid) else List.replicate 32 0) ++
  slice s.mirror.reading 0x0C 4 ++ natLe 8 0 ++ natLe 4 0

/-- May the root act: it has not been lost, and start-up has passed step 14, or stands still for want of CPC firmware (R421). -/
def quotesServed (s : State) : Bool := !s.rootLost && (decide (s.get bootStatusStep = 0x1F) || s.on bootStatusCpcHeld)

/-- ATT_GO. -/
def execAttGo (s : State) : Host.Outcome State Fault Refusal :=
  if !quotesServed s then .next s
  else
    let (t, s) := s.stamp
    let b := quoteBody s t
    .next ({ s with quote := b ++ padTo 384 (Config.identitySign b) }.put secStatusAttDone 1)

/-! ## Session keys (R393-R395) -/

/-- KT_REQ: a new transport key and its certificate. -/
def execKtReq (s : State) : Host.Outcome State Fault Refusal :=
  if quiesced s then .next s else
  if s.rootLost then .next s
  else
    let id := s.get ktId + 1
    let b := ascii "HTWTKEY1" ++ natLe 8 id ++ natLe 8 s.serial ++ natLe 8 0 ++ regWords s attNonceNonce 4 ++ padTo 384 (Config.transportModulus s.tick)
    .next ({ s.tock with kt := some (s.tick, 0), ktCert := b ++ padTo 384 (Config.identitySign b) }.puts [(ktId, id), (secStatusKtReady, 1)])

/-- The transport key is discarded. -/
def dropKt (s : State) : State := { s with kt := none }.put secStatusKtReady 0

/-- TX_SWITCH: the delay of an install has passed, and transmission goes over to its association; the key of the one before runs for 10 s
more (R395). -/
def execTxSwitch (port : Fin 64) (key : SecAssoc) (s : State) : Host.Outcome State Fault Refusal :=
  let m := s.sec port key.half
  if m.next.contains key.an.val then
    .next (s.setSec port key.half { m with tx := some key.an.val, next := setDel key.an.val m.next, old := m.tx.toList.foldl (fun l a => setIns a l) m.old })
  else .next s

/-- RX_KEY_ERASE: the 10 s after a switch away from an association are over (R395). -/
def execRxKeyErase (port : Fin 64) (key : SecAssoc) (s : State) : Host.Outcome State Fault Refusal :=
  let m := s.sec port key.half
  if m.old.contains key.an.val then
    .next (s.setSec port key.half { m with rx := tabErase key.an.val m.rx, pns := tabErase key.an.val m.pns, old := setDel key.an.val m.old })
  else .next s

/-- A key received under the transport key is installed for its purpose; a checkpoint key is in use from the next snapshot. None where
R394 and R395 refuse it with `WRONG_STATE`, and where the salt and SSCI fields of a checkpoint key are not zero (log 38). -/
def installKey (s : State) (arg plain : List Byte) : Option State :=
  let port := getLe arg 1 1
  let kh := getLe arg 2 1
  let an := getLe arg 3 1
  if getLe arg 0 1 = 2 then
    if (plain.drop 32).all (· == 0) then some { s with ckptNew := some (plain.take 32), snaps := { s.snaps with asked := true } } else none
  else
    let half := if kh = 1 then 1 else 0
    let m := s.sec port half
    if getLe arg 0 1 ≠ 1 ∨ 64 ≤ port ∨ 2 < kh ∨ (kh = 2) = (breakout s port = true) ∨ 4 ≤ an ∨ 10000 < getLe arg 4 2 ∨ m.tx = some an ∨ m.old.contains an then none
    else
      some (s.setSec port half { m with
        rx := tabPut an plain m.rx, pns := tabErase an m.pns, sent := tabErase an m.sent, next := setIns an m.next, spent := false })

/-- One more install under the transport key; the 256th discards it. -/
def countInstall (s : State) : State :=
  match s.kt with
  | some (k, n) => if 255 ≤ n then dropKt s else { s with kt := some (k, n + 1) }
  | none => s

/-! ## Owner commands (R390-R392) -/

def ocOp (c : List Byte) : Nat := getLe c 8 2
def ocSeq (c : List Byte) : Nat := getLe c 0x18 8
def ocArg (c : List Byte) : List Byte := slice c 0x40 64
def ocPayload (c : List Byte) : List Byte := slice c 0x80 384

/-- States in which an operation is allowed (R392). -/
def ocAllowed (op own : Nat) : Bool :=
  match op with
  | 1 => decide (own = 0)
  | 2 => decide (own = 1)
  | 3 => decide (own ≠ 0)
  | 4 => decide (own = 2)
  | _ => true

/-- Does the signature verify under the key that R385 names? -/
def ocSigned (s : State) (c : List Byte) : Bool :=
  if ocOp c = 5 ∧ ownState s = 0 then true
  else pssVerify (if ocOp c = 1 then ocPayload c else Config.keyOf (ownerHash s)) (c.take 0x200) (slice c 0x200 384)

/-- The stop number of the root's records (R431). -/
def rootSource (s : State) : Nat := if s.on secStateRootOnMirror then 34 else 32

/-- A fuse burn in both roots (R383): none where it completes in neither. One that completes in one of them only takes effect, with its
record; which root `DETAIL1` names how is not stated (log 38). -/
def burn (s : State) : Option State :=
  match Config.burns s.tick with
  | (true, true) => some s.tock
  | (false, false) => none
  | _ => some (raiseErr s.tock 0x0702 0 (rootSource s) 0 none 0 (Config.freeWord s.tick).toNat)

/-- An effect that needs a burn: check 7 of R391. -/
def burned (s : State) (f : State → State) : Except Nat State :=
  match burn s with
  | some s => .ok (f s)
  | none => .error 0x17

/-- The effect of a command, or the code of the check of order 6 or 7 that fails. -/
def ocEffect (s : State) (c : List Byte) : Except Nat State :=
  match ocOp c with
  | 1 => burned s (fun s => { s with owners := tabPut 0 (keyHash (ocPayload c)) s.owners }.puts [(secStateOwnState, 1), (secStateOwnerSlot, 0)])
  | 2 => burned s (fun s => s.put secStateOwnState 2)
  | 3 =>
    let n := s.get secStateOwnerSlot + 1
    if 4 ≤ n then .error 0x15 else burned s (fun s => { s with owners := tabPut n (keyHash (ocPayload c)) s.owners }.put secStateOwnerSlot n)
  | 4 => .ok (s.put sliceSliceId (getLe (ocArg c) 0 4))
  | _ =>
    match s.kt with
    | none => .error 0x16
    | some (k, _) =>
      if getLe (ocArg c) 8 8 ≠ s.get ktId then .error 0x16
      else match oaepOpen (Config.transportModulus k) (Config.transportExponent k) (ocPayload c) with
        | none => .error 0x16
        | some p =>
          if p.length ≠ 52 then .error 0x16
          else match installKey s (ocArg c) p with
            | none => .error 0x15
            | some s => .ok ((countInstall s).put keySeq (ocSeq c))

/-- Are the reserved bytes of a command zero: those of every command, and those of a `KEY_INSTALL`'s argument (R390, R394)? -/
def ocReserved (c : List Byte) (op : Nat) : Bool :=
  decide (getLe c 0x0A 6 = 0 ∧ getLe c 0x380 128 = 0 ∧ (op = 5 → getLe (ocArg c) 6 2 = 0 ∧ getLe (ocArg c) 16 48 = 0))

/-- The checks of R391 in order, and the effect. -/
def ocRun (s : State) (c : List Byte) (op : Nat) : Except Nat State :=
  if slice c 0 8 ≠ ascii "HTWSCMD1" ∨ ocOp c ≠ op ∨ op = 0 ∨ 5 < op ∨ !ocReserved c op ∨ getLe c 0x10 8 ≠ s.serial then .error 0x10
  else if slice c 0x20 32 ≠ regWords s ownNonceNonce 4 then .error 0x13
  else if !ocAllowed op (ownState s) then .error 0x15
  else if !ocSigned s c then .error 0x11
  else if op = 5 ∧ ocSeq c ≤ s.get keySeq then .error 0x14
  else ocEffect s c

/-- A fresh `OWN_NONCE`. -/
def drawOwnNonce (s : State) : State :=
  let (b, s) := s.draw 32
  forN 4 (fun i s => s.put (ownNonceNonce i) (getLe b (8 * i) 8)) s

/-- A command in `CMD_BUF` is executed as operation `op`: a result, and a fresh nonce whatever it is. -/
def ownerCommand (s : State) (op : Nat) : State :=
  if s.rootLost || quiesced s then s
  else
    match ocRun s (padTo 1024 s.cmdBuf) op with
    | .ok s => drawOwnNonce ((extendConfig s).put secStatusCode 0x01)
    | .error c => drawOwnNonce (s.put secStatusCode c)

/-- ENROLL. -/
def execEnroll (s : State) : Host.Outcome State Fault Refusal := .next (ownerCommand s 1)
/-- SEAL. -/
def execOwnerSeal (s : State) : Host.Outcome State Fault Refusal := .next (ownerCommand s 2)
/-- ROTATE. -/
def execRotate (s : State) : Host.Outcome State Fault Refusal := .next (ownerCommand s 3)
/-- SET_SLICE. -/
def execSetSlice (s : State) : Host.Outcome State Fault Refusal := .next (ownerCommand s 4)
/-- KEY_INSTALL. -/
def execKeyInstall (s : State) : Host.Outcome State Fault Refusal := .next (ownerCommand s 5)

/-! ## Floors and the mirror root (R382, R383, R389) -/

/-- Is a load in progress or pending? -/
def loadBusy (s : State) : Bool := s.on bsStatusBusy || s.on bsStatusPending

/-- SEQ_COMMIT: the floor rises to the highest `BS_SEQ` applied. -/
def execSeqCommit (s : State) : Host.Outcome State Fault Refusal :=
  if quiesced s then .next s else
  if loadBusy s || s.rootLost then .next s else .next (s.put bsSeqFloorFloor (max (s.get bsSeqFloorFloor) s.bs.seq))

/-- SVN_COMMIT: floors rise to the `FW_SVN` running; a floor that rises is a fuse burn (R383). -/
def execSvnCommit (targets : BitVec 3) (s : State) : Host.Outcome State Fault Refusal :=
  if quiesced s then .next s else
  if loadBusy s || s.rootLost then .next s
  else
    let v := fun (i : Nat) =>
      let f := field (s.get svnSvnFloor) (8 * i) 8
      if bitAt targets.toNat i then max f (field (s.get svnSvnRun) (8 * i) 8) else f
    let v := v 0 + 256 * v 1 + 65536 * v 2
    if v = s.get svnSvnFloor then .next s else .next ((burn s).elim s (fun s => s.put svnSvnFloor v))

/-- The primary root fails and the mirror serves, or both have failed. -/
def rootFail (s : State) (primaryOk mirrorOk inj : Bool) : State :=
  let mirror := s.on secStateRootOnMirror
  if s.rootLost then s
  else if !mirrorOk && (mirror || !primaryOk) then raiseErr { s with rootLost := true } 0x0704 3 (rootSource s) 0 none 0 0 inj
  else if !primaryOk && !mirror then raiseErr (s.put secStateRootOnMirror 1) 0x0703 0 34 0 none 0 0 inj
  else s

/-- ROOT_FAILOVER. -/
def execRootFailover (primaryOk mirrorOk : Bool) (s : State) : Host.Outcome State Fault Refusal := .next (settleGate (rootFail s primaryOk mirrorOk false))

/-! ## Firmware images (R387, R388) -/

def fwTarget (b : List Byte) : Nat := getLe b 8 1
def fwSvn (b : List Byte) : Nat := getLe b 9 1
def fwSize (b : List Byte) : Nat := getLe b 0x18 8
def fwSigner (b : List Byte) : List Byte := slice b 0x40 32

/-- The code of the first check of R388 that an image fails for a target; 1 for none (log 42). -/
def fwCheck (s : State) (target : Nat) (b : List Byte) : Nat :=
  if b.length < 512 ∨ slice b 0 8 ≠ ascii "HTWFWIM1" ∨ fwTarget b ≠ target ∨ 63 < fwSvn b ∨ getLe b 0x0A 6 ≠ 0 ∨ getLe b 0x60 32 ≠ 0 ∨
     fwSize b ≠ b.length - 512 ∨ 0x4000000 < fwSize b then 0x10
  else if !signerOk s (fwSigner b) ∨ !pssVerify (Config.keyOf (fwSigner b)) (b.take 0x80) (slice b 0x80 384) then 0x11
  else if sha256 (b.drop 512) ≠ slice b 0x20 32 then 0x11
  else if fwSvn b < field (s.get svnSvnFloor) (8 * target) 8 then 0x14
  else 1

/-- A bank's image: `FW_SVN` and header bytes 0x000-0x07F where it qualifies. A bank that was never written holds the image of
manufacture: vendor-signed, `FW_SVN` 0, qualifying until the seal or a raised floor (log 38). -/
def bankImage (s : State) (target bank : Nat) : Option (Nat × List Byte) :=
  match tabFind (target * 2 + bank) s.flash with
  | none => if ownState s = 2 ∨ 0 < field (s.get svnSvnFloor) (8 * target) 8 then none else some (0, padTo 0x80 (Config.factoryHeader target))
  | some b => if fwCheck s target b = 1 then some (fwSvn b, b.take 0x80) else none

/-- The image that a target boots: the bank that `BOOT_BANK` names, else the other. -/
def bootImage (s : State) (target : Nat) : Option (Nat × List Byte) :=
  (bankImage s target (s.get secStateBootBank)).orElse (fun _ => bankImage s target (1 - s.get secStateBootBank))

/-- An accepted image is measured and runs (R388). -/
def runImage (s : State) (target : Nat) (img : Nat × List Byte) : State :=
  let v := s.get svnSvnRun
  let v := v - field v (8 * target) 8 * 2 ^ (8 * target) + img.1 % 256 * 2 ^ (8 * target)
  extendM (s.put svnSvnRun v) target (sha256 img.2)

end Sys2Proof.Machine
end

