-- ==== Sys2Proof/Machine/BsCheck.lean ====
section
/-! DEFINITION. The checks that a bitstream passes at load (R27-R46, R49). -/
namespace Sys2Proof.Machine

/-! ## Header and directory (R27-R30) -/

def bhFormat (b : List Byte) : Nat := getLe b 0x08 2
def bhKind (b : List Byte) : Nat := getLe b 0x0A 2
def bhTotal (b : List Byte) : Nat := getLe b 0x10 8
def bhReqCap (b : List Byte) : Nat := getLe b 0x18 1 % 64
def bhMinStepping (b : List Byte) : Nat := getLe b 0x19 1
def bhCount (b : List Byte) : Nat := getLe b 0x1A 2
def bhDir (b : List Byte) : Nat := getLe b 0x1C 4
def bhSeq (b : List Byte) : Nat := getLe b 0x20 8
def bhJob (b : List Byte) : List Byte := slice b 0x30 16
def bhBase (b : List Byte) : List Byte := slice b 0x40 32
def bhSigner (b : List Byte) : List Byte := slice b 0x60 32

/-- A directory entry: its number, type, offset and length. -/
structure DirEntry where
  idx : Nat
  ty : Nat
  off : Nat
  len : Nat
  deriving DecidableEq, Repr

def dirOf (b : List Byte) : List DirEntry :=
  (List.range (bhCount b)).map (fun i =>
    let o := bhDir b + 16 * i
    { idx := i, ty := getLe b o 2, off := getLe b (o + 4) 4, len := getLe b (o + 8) 4 })

/-- How a check fails: `CODE`, `SECTION`, `FAULT_OFF`. -/
structure LoadFault where
  code : Nat
  sec : Nat := 0xFF
  off : Nat := 0
  deriving DecidableEq, Repr

/-- Section types that a partial may carry (R30). -/
def partialTypes : List Nat := [1, 4, 6, 7, 8, 9, 11]

/-- The first fault of one entry: type, offset, length. -/
def entryFault (b : List Byte) (part : Bool) (d : List DirEntry) (e : DirEntry) : Option LoadFault :=
  let at' := bhDir b + 16 * e.idx
  let before := d.take e.idx
  if e.ty = 0 ∨ 11 < e.ty ∨ before.any (fun x => decide (x.ty = e.ty)) then some { code := 0x24, sec := e.idx, off := at' }
  else if part && !partialTypes.contains e.ty then some { code := 0x32, sec := e.idx, off := at' }
  else if e.off % 64 ≠ 0 ∨ e.off < 256 ∨ overlaps e.off e.len (bhDir b) (16 * bhCount b) ∨ b.length - 384 < e.off ∨
     before.any (fun x => overlaps e.off e.len x.off x.len) then some { code := 0x24, sec := e.idx, off := at' + 4 }
  else if b.length - 384 < e.off + e.len then some { code := 0x24, sec := e.idx, off := at' + 8 }
  else none

/-- Check 10. A missing section is shown at the directory (log 43). -/
def dirFault (b : List Byte) : Option LoadFault :=
  let n := bhCount b
  let d := bhDir b
  let part := decide (bhKind b = 1)
  if n = 0 ∨ 11 < n then some { code := 0x24, off := 0x1A }
  else if d % 64 ≠ 0 ∨ d < 256 ∨ b.length - 384 < d + 16 * n then some { code := 0x24, off := 0x1C }
  else
    match (dirOf b).findSome? (entryFault b part (dirOf b)) with
    | some f => some f
    | none =>
      if !part && !(range' 1 10).all (fun t => (dirOf b).any (fun e => decide (e.ty = t))) then some { code := 0x25, off := d } else none

/-- The sections that a file carries. -/
def carriedSecs (b : List Byte) : Tab (List Byte) := (dirOf b).foldl (fun t e => tabPut e.ty (slice b e.off e.len) t) []

/-! ## Uses (R33, R424) -/

/-- Present and not left dark. -/
def usableRegion (s : State) (n : Nat) : Bool := built s n && !bitAt (s.get bootDarkRegions) n

/-- What a `USE` resolves to; none is `REGION_UNUSABLE`. A reserved value is left to check 12. -/
def resolveUse (s : State) (n u : Nat) : Option Nat :=
  if u = 0 then some 0
  else if !usableRegion s n then none
  else if bitAt (s.get regionDegradedDegraded) n then
    match u with
    | 1 => none
    | 3 => some 3
    | _ => some 0
  else if u = 2 then some 2 else if u = 1 ∨ u = 3 then some 1 else some 0

def mapUse (m : List Byte) (n : Nat) : Nat := getLe m (8 + 8 * n) 1

/-- Check 11: the first region whose use fails. -/
def useFault (s : State) (m : List Byte) : Option Nat := (List.range 32).find? (fun n => (resolveUse s n (mapUse m n)).isNone)

def usesOf (s : State) (m : List Byte) : Tab Nat := (List.range 32).map (fun n => (n, (resolveUse s n (mapUse m n)).getD 0))

/-! ## Section checks (R32-R45) -/

/-- What the checks see: the sections as they will stand, the uses, the types carried, whether the file is a partial. -/
structure BsCtx where
  secs : Tab (List Byte)
  use : Tab Nat
  carried : List Nat
  part : Bool
  deriving DecidableEq, Repr

def BsCtx.sec (c : BsCtx) (t : Nat) : List Byte := tabGet [] t c.secs
def BsCtx.useAt (c : BsCtx) (n : Nat) : Nat := tabGet 0 n c.use
/-- Runs, or runs degraded. -/
def BsCtx.runs (c : BsCtx) (n : Nat) : Bool := decide (n < 32 ∧ (c.useAt n = 1 ∨ c.useAt n = 3))
def BsCtx.out (c : BsCtx) (n : Nat) : Bool := decide (32 ≤ n ∨ c.useAt n = 0)

/-- A fault of a section: offset within it, `CODE`. -/
abbrev SecFault := Nat × Nat

def flt (bad : Bool) (off : Nat) : List SecFault := if bad then [(off, 0x24)] else []

/-- Faults of entries laid out from `base` with stride `w`. -/
def eachEntry (l : List (List Byte)) (base w : Nat) (f : Nat → List Byte → List SecFault) : List SecFault :=
  l.zipIdx.flatMap (fun (e, i) => (f i e).map (fun x => (base + w * i + x.1, x.2)))

/-- The pool of a region map: base and end offsets and regions. -/
def mapPool (m : List Byte) : Option (Nat × Nat × List Nat) :=
  if getLe m 0 1 = 0 then none else some (getLe m 0 1 * 0x40000000, getLe m 1 1 * 0x40000000, bitsOf 32 (getLe m 4 4))

def regionMapFaults (s : State) (c : BsCtx) (m : List Byte) : List SecFault :=
  if m.length < 264 then [(0, 0x24)]
  else
    let b := getLe m 0 1
    let e := getLe m 1 1
    let set := bitsOf 32 (getLe m 4 4)
    let old := secOf s 1
    flt (c.part && decide (b ≠ getLe old 0 1) || decide (125 < b)) 0 ++
    flt (c.part && decide (e ≠ getLe old 1 1) || decide (b ≠ 0 ∧ (e ≤ b ∨ 126 < e))) 1 ++
    flt (c.part && decide (getLe m 4 4 ≠ getLe old 4 4) || (decide (b ≠ 0) && (decide (set.length < 2) || set.any c.out))) 4 ++
    (List.range 32).flatMap (fun n => flt (decide (3 < mapUse m n)) (8 + 8 * n))

/-- A stop that exists: a region built, or a port die. -/
def stopExists (s : State) (st : Nat) : Bool := if st < 32 then built s st else decide (st < 36)

/-- The ring set that the routes give (R34). -/
def routeIn (m : List Byte) (src dst cls : Nat) : Nat :=
  match (entriesAt m 8 8 (getLe m 4 4)).find? (fun e => decide (getLe e 0 1 = src ∧ getLe e 1 1 = dst ∧ getLe e 2 1 = cls)) with
  | some e => getLe e 4 2
  | none => getLe m 2 2

def routeFaults (s : State) (c : BsCtx) (m : List Byte) : List SecFault :=
  let en := getLe m 0 2
  let okSet := fun (x : Nat) => decide (x ≠ 0) && (bitsOf 16 x).all (bitAt en)
  if m.length < 8 ∨ 4096 < getLe m 4 4 ∨ m.length < 8 + 8 * getLe m 4 4 then [(4, 0x24)]
  else
    flt (decide (en = 0)) 0 ++ flt (!okSet (getLe m 2 2)) 2 ++
    eachEntry (entriesAt m 8 8 (getLe m 4 4)) 8 8 (fun _ e =>
      let dst := getLe e 1 1
      -- R258: every region that may send to the destination, that itself apart, has one ring set (log 43)
      let mixed := decide (getLe e 2 1 = 4) && (List.range 32).any (fun r => !c.out r && decide (r ≠ dst ∧ routeIn m r dst 4 ≠ getLe e 4 2))
      flt (!stopExists s (getLe e 0 1)) 0 ++ flt (!stopExists s dst) 1 ++
      flt (decide (11 < getLe e 2 1 ∨ getLe e 2 1 = 8 ∨ getLe e 2 1 = 9)) 2 ++ flt (!okSet (getLe e 4 2) || mixed) 4)

/-- Regions whose windows a range of device addresses touches. -/
def regionsTouched (a n : Nat) : List Nat :=
  (List.range 32).filter (fun r => overlaps a n (stackBase r) 0x2000000000 || overlaps a n (spBase + 2 * r * 0x20000000) 0x40000000 ||
    overlaps a n (sliceBase (2 * r)) 0x10000000)

/-- Does a range lie inside one window, in the scratchpads inside one die's populated part (R21)? -/
def inWindow (a n : Nat) : Bool :=
  inside a n 0 0x040000000000 || inside a n llmBase 0x200000000 ||
  (List.range 64).any (fun d => inside a n (spBase + d * 0x20000000) 0x18000000)

/-- A step page (R137) or the staging area (R47) lies in the range. -/
def hitsReserved (s : State) (a n : Nat) : Bool :=
  (List.range 32).any (fun r => overlaps a n (stackBase r + stepPage) 4096) ||
  (decide (s.get bsStageStageAddr ≠ 0) && overlaps a n (s.get bsStageStageAddr) 0x40000000)

def portFaults (s : State) (c : BsCtx) (m : List Byte) : List SecFault :=
  if m.length < 260 ∨ 1024 < getLe m 256 4 ∨ m.length < 260 + 32 * getLe m 256 4 then [(256, 0x24)]
  else
    flt (!(List.range 64).any (fun p => decide (portClassOf m p = 1))) 0 ++
    eachEntry (entriesAt m 0 4 64) 0 4 (fun _ e => flt (decide (3 < getLe e 0 1)) 0 ++ flt (decide (1 < getLe e 1 1)) 1) ++
    eachEntry (memRegions m) 260 32 (fun _ e =>
      flt (!inWindow (mrBase e) (mrLen e) || hitsReserved s (mrBase e) (mrLen e) || (regionsTouched (mrBase e) (mrLen e)).any c.out) 0 ++
      flt (decide (mrLen e % 4096 ≠ 0)) 8)

/-- The region of a device address in a window, 32 outside them. -/
def windowRegion (a : Nat) : Nat :=
  if a < 0x040000000000 ∨ spBase ≤ a ∧ a < spBase + 0x800000000 ∨ llmBase ≤ a ∧ a < llmBase + 0x200000000 then regionOf a else 32

/-- The seam ranges of a section: members, parity regions, offset, length. -/
def parityRanges (b : List Byte) : List (Nat × Nat × Nat) :=
  (seamEntries b).flatMap (fun e => [(smPa e, smOff e, smLen e), (smPb e, smOff e, smLen e)])

/-- Does a device range keep bytes in the `len` bytes from stack offset `o` of region `r`, under a region map's pool (R22)? Outside the pool
a byte lies where its address says; page `i` of the pool lies in the region of rank `i mod k`, at its page `i / k`. -/
def keepsIn (m : List Byte) (a n r o len : Nat) : Bool :=
  match mapPool m with
  | none => overlaps a n (stackBase r + o) len
  | some (lo, hi, set) =>
    if !set.contains r then overlaps a n (stackBase r + o) len
    else
      let k := set.length
      overlaps a n (stackBase r + o) (min (o + len) lo - o) || overlaps a n (stackBase r + max o hi) (o + len - max o hi) ||
      set.zipIdx.any (fun (x, j) =>
        let u := max a (stackBase x + lo)
        let v := min (a + n) (stackBase x + hi)
        let p := (j * (hi - lo) + (u - stackBase x - lo)) / 4096
        let q := (j * (hi - lo) + (v - 1 - stackBase x - lo)) / 4096
        let rank := set.idxOf r
        let first := (p + (k - 1) - rank) / k
        let last := (q - rank) / k
        decide (u < v ∧ rank ≤ q ∧ first ≤ last) && overlaps (lo + first * 4096) ((last + 1 - first) * 4096) o len)

/-- Logical clusters placed on failed physical ones (R423). -/
def deadClusters (s : State) (r d : Nat) : List Nat := if 2 < s.get (repairFailedN r d) then range' (50 - s.get (repairFailedN r d)) (s.get (repairFailedN r d) - 2) else []

/-- Does a stack range touch what a budget cut keeps reserved to a pannier (R147)? -/
def hitsPanKept (s : State) (c : BsCtx) (a n : Nat) : Bool :=
  (List.range 32).any (fun r => match (s.pan r).reservedLo with
    | some lo => overlaps a n (stackBase r + lo) (stepPage - budgetOf (c.sec 4) (c.sec 8) r - lo)
    | none => false)

/-- Does an LLM address lie in a unit that is retained under its old mode (R199)? -/
def inRetained (s : State) (a n : Nat) : Bool :=
  s.retained.any (fun e => overlaps a n (unitBase (e.1 / 16) (e.1 % 16)) unitBytes8)

/-- Does a layer of the section stand in another region than in the section in force? -/
def movedLayers (s : State) (b : List Byte) : Bool :=
  (layersOf b).any (fun e => (layersOf (secOf s 4)).any (fun x => decide (getLe x 0 4 = getLe e 0 4 ∧ lyRegion x ≠ lyRegion e)))

/-- The layers placed on a region. -/
def layersAt (b : List Byte) (r : Nat) : List Nat := ((layersOf b).filter (fun e => decide (lyRegion e = r))).foldl (fun l e => setIns (getLe e 0 4) l) []

/-- Does the partial carry the programs of every region that gains or loses a layer (R281)? One that runs no more can have none (R42). -/
def movedPrograms (s : State) (c : BsCtx) (b : List Byte) : Bool :=
  (List.range 32).all (fun r => decide (layersAt b r = layersAt (secOf s 4) r) || !c.runs r ||
    (programsOf (c.sec 9)).any (fun e => decide (pgRegion e = r)))

/-- Does a destination range of the armed table hold the address (R281)? -/
def inArmedTable (s : State) (a : Nat) : Bool :=
  s.on drlCtrlArm && ((drlTable s (s.get drlCtrlTableId)).getD []).any (fun e => inside a 1 (stackBase (dtDst e) + dtDstOff e) (dtLen e))

def layerFaults (s : State) (c : BsCtx) (b : List Byte) : List SecFault :=
  let nl := getLe b 0 4
  let nt := getLe b 4 4
  if b.length < 8 ∨ b.length < 8 + 32 * nl then [(0, 0x24)]
  else if b.length < 8 + 32 * nl + 32 * nt then [(4, 0x24)]
  else
    let ls := layersOf b
    let ts := tensorsOf b
    let stages := ls.foldl (fun l e => setIns (lyStage e) l) []
    -- R281: a partial that moves layers carries the region map and the programs too
    let moves := c.part && movedLayers s b
    flt (moves && !(c.carried.contains 1 && c.carried.contains 9 && movedPrograms s c b)) 0 ++
    eachEntry ls 8 32 (fun i e =>
      let r := lyRegion e
      let dead := fun (d : Nat) => decide (c.useAt r = 3) && (deadClusters s r d).any (bitAt (getLe e (8 + 8 * d) 8))
      flt ((ls.take i).any (fun x => decide (getLe x 0 4 = getLe e 0 4))) 0 ++
      flt (decide (31 < lyStage e) || !(List.range (lyStage e)).all stages.contains ||
        (ls.take i).any (fun x => decide (lyRegion x = r ∧ lyStage x ≠ lyStage e))) 4 ++
      flt (!c.runs r) 5 ++ (if dead 0 then [(8, 0x23)] else []) ++ (if dead 1 then [(16, 0x23)] else []) ++
      flt (decide (nt < getLe e 24 4)) 24 ++ flt (decide (nt < getLe e 24 4 + getLe e 28 4)) 28) ++
    eachEntry ts (8 + 32 * nl) 32 (fun i e =>
      let a := tnBase e
      let n := tnBytes e
      let r := windowRegion a
      let big := !c.part && decide (tnMode e = 0 ∧ 0x10000000 ≤ n ∧ getLe e 7 1 = 0)
      let seamed := (seamEntries (c.sec 10)).any (fun x => (smMembers x).contains r && inside a n (stackBase r + smOff x) (smLen x))
      let old := (tensorsOf (secOf s 4)).find? (fun x => decide (tnId x = tnId e))
      let stray := c.part && decide (tnMode e = 0) && old.any (fun x => decide (tnMode x = 0 ∧ tnBase x ≠ a)) && !inArmedTable s a
      flt ((ts.take i).any (fun x => decide (tnId x = tnId e))) 0 ++ flt (decide (2 < tnMode e)) 4 ++ flt (decide (1 < getLe e 5 1)) 5 ++
      flt (decide (3 < getLe e 6 1 ∨ (getLe e 5 1 = 0 ∧ getLe e 6 1 ≠ 0))) 6 ++ flt (decide (1 < getLe e 7 1)) 7 ++
      flt (!c.runs r || hitsReserved s a n || (parityRanges (c.sec 10)).any (fun x => keepsIn (c.sec 1) a n x.1 x.2.1 x.2.2) ||
        (c.part && c.carried.contains 4 && (hitsPanKept s c a n || inRetained s a n)) || (big && !seamed) || stray) 8 ++
      flt (decide (64 < getLe e 24 1)) 24 ++ flt (decide (1 < getLe e 25 1)) 25 ++
      flt (decide (getLe e 25 1 = 1) && decide (getLe e 28 4 < 0x00800000 ∨ 0x7F800000 ≤ getLe e 28 4)) 28)

def modeLimits : List (Nat × Nat) := [(3500, 32000), (3000, 24000), (2400, 17000)]

def modeFaults (b : List Byte) : List SecFault :=
  if b.length < 64 then [(0, 0x24)]
  else
    flt (decide (2 < getLe b 0 1)) 0 ++
    eachEntry (entriesAt b 16 16 3) 16 16 (fun i e =>
      let l := modeLimits.getD i (0, 0)
      flt (decide (getLe e 0 2 < 1200 ∨ l.1 < getLe e 0 2)) 0 ++ flt (decide (getLe e 4 4 < 1000 ∨ l.2 < getLe e 4 4)) 4 ++
      flt (decide (getLe e 8 1 < 1 ∨ 3 < getLe e 8 1)) 8 ++ flt (decide (1 < getLe e 9 1)) 9 ++ flt (decide (1 < getLe e 10 1)) 10 ++
      flt (decide (3 < getLe e 11 1)) 11)

/-- `MODULE_CUFF_W` takes the range of `PWR_CUFF`, the register that shows it (log 43). -/
def powerFaults (s : State) (b : List Byte) : List SecFault :=
  if b.length < 136 then [(0, 0x24)]
  else
    flt (decide (getLe b 0 4 ≠ 0 ∧ (getLe b 0 4 < 1000 ∨ 32000 < getLe b 0 4))) 0 ++
    flt (decide (getLe b 4 2 ≠ 0 ∧ (getLe b 4 2 < 100 ∨ 1600 < getLe b 4 2))) 4 ++
    eachEntry (entriesAt b 8 4 32) 8 4 (fun n e =>
      flt (built s n && decide (getLe e 0 2 ≠ 0 ∧ (getLe e 0 2 < 100 ∨ 760 < getLe e 0 2))) 0)

/-- The mode that die `d`'s unit `u` takes from its partitions (R40); units beyond the last are unused. -/
def partMode (b : List Byte) (d u : Nat) : Nat :=
  ((List.range 4).foldl (fun (acc : Nat × Nat) i =>
    let n := getLe b (16 * d + 4 * i + 1) 1
    (acc.1 + n, if acc.1 ≤ u ∧ u < acc.1 + n then getLe b (16 * d + 4 * i) 1 else acc.2)) (0, 0)).2

def llmFaults (s : State) (c : BsCtx) (b : List Byte) : List SecFault :=
  if b.length < 1024 then [(0, 0x24)]
  else
    eachEntry (entriesAt b 0 16 64) 0 16 (fun d e =>
      if c.out (d / 2) then []
      else
        (List.range 4).flatMap (fun i => flt (decide (3 < getLe e (4 * i) 1)) (4 * i)) ++
        flt (decide (16 < ((List.range 4).map (fun i => getLe e (4 * i + 1) 1)).sum)) 1 ++
        flt (c.part && (List.range 16).any (fun u => match tabFind (d * 16 + u) s.retained with
          | some m => decide (partMode b d u ≠ m)
          | none => false)) 0)

def pannierFaults (s : State) (c : BsCtx) (b : List Byte) : List SecFault :=
  if b.length < 4 ∨ 32 < getLe b 0 4 ∨ b.length < 4 + 16 * getLe b 0 4 then [(0, 0x24)]
  else
    let offload := (List.range 3).any (fun m => decide (modeField (c.sec 5) m 11 1 = 2))
    eachEntry (stagesOf b) 4 16 (fun i e =>
      let n := getLe e 8 8
      let peer := s.peer (getLe e 2 2)
      let regs := ((layersOf (c.sec 4)).filter (fun l => decide (lyStage l = getLe e 0 1))).map lyRegion
      let lo := fun (r : Nat) => stackBase r + (stepPage - n)
      let inPool := match mapPool (c.sec 1) with
        | some (_, fin, set) => decide (stepPage < fin + n) && regs.any set.contains
        | none => false
      flt (decide (31 < getLe e 0 1) || ((stagesOf b).take i).any (fun x => decide (getLe x 0 1 = getLe e 0 1))) 0 ++
      flt (decide (2 < getLe e 1 1)) 1 ++
      flt (offload && c.carried.contains 8 && !(decide (getLe e 2 2 < 4096) && peerValid peer && decide (peerClass peer = 2))) 2 ++
      flt (decide (n % 4096 ≠ 0 ∨ 0x1000000000 < n) || inPool ||
        regs.any (fun r => (parityRanges (c.sec 10)).any (fun x => decide (x.1 = r) && overlaps (lo r) n (stackBase r + x.2.1) x.2.2))) 8)

def programFaults (c : BsCtx) (b : List Byte) : List SecFault :=
  if b.length < 4 ∨ 256 < getLe b 0 4 ∨ b.length < 4 + 32 * getLe b 0 4 then [(0, 0x24)]
  else
    eachEntry (programsOf b) 4 32 (fun i e =>
      flt (c.out (pgRegion e)) 0 ++
      flt (decide (pgQueue e < 4 ∨ 7 < pgQueue e) || ((programsOf b).take i).any (fun x => decide (pgRegion x = pgRegion e ∧ pgQueue x = pgQueue e))) 1 ++
      flt (decide (pgCmds e < 1 ∨ 1024 < pgCmds e)) 4 ++
      flt (decide (pgOff e % 64 ≠ 0) || (decide (pgCmds e ≤ 1024) && decide (b.length < pgOff e + 64 * pgCmds e))) 8 ++
      (if b.length < pgTokOff e + 8 * pgToks e then [(24, 0x24)]
       else [])) ++
    (programsOf b).flatMap (fun e =>
      if b.length < pgTokOff e + 8 * pgToks e then []
      else (pgTokens b e).zipIdx.flatMap (fun (t, i) => flt (decide (4095 < t.1)) (pgTokOff e + 8 * i)))

/-- DESIGN CHOICE (log 57): a `SEAM_ID` above 15, or one that an earlier entry has, is a fault. -/
def seamFaults (c : BsCtx) (b : List Byte) : List SecFault :=
  if b.length < 4 ∨ 16 < getLe b 0 4 ∨ b.length < 4 + 32 * getLe b 0 4 then [(0, 0x24)]
  else
    let es := seamEntries b
    eachEntry es 4 32 (fun i e =>
      let others := (es.take i) ++ (es.drop (i + 1))
      let covers := fun (r : Nat) => others.any (fun x => (smMembers x).contains r && overlaps (smOff e) (smLen e) (smOff x) (smLen x))
      let par := fun (r : Nat) => decide (31 < r) || c.out r || (smMembers e).contains r || covers r
      flt (decide (15 < smId e) || (es.take i).any (fun x => decide (smId x = smId e))) 0 ++
      flt (decide ((smMembers e).length ≠ 8) || (smMembers e).any c.out) 4 ++
      flt (par (smPa e)) 8 ++ flt (par (smPb e) || decide (smPa e = smPb e)) 9 ++
      flt (decide (smOff e % 0x40000000 ≠ 0) || (smMembers e).any covers) 16 ++
      flt (decide (smLen e % 0x40000000 ≠ 0 ∨ stepPage < smOff e + smLen e)) 24)

/-- One stack range of a derailleur table: region, offset, length. -/
def rangesMeet (r o n r' o' n' : Nat) : Bool := decide (r = r') && overlaps o n o' n'

def tableFaults (s : State) (c : BsCtx) (es : List (List Byte)) (base : Nat) : List SecFault :=
  let pooled := fun (r o n : Nat) => match mapPool (c.sec 1) with
    | some (lo, hi, set) => set.contains r && overlaps o n lo (hi - lo)
    | none => false
  eachEntry es base 32 (fun i e =>
    let n := dtLen e
    let clash := (es.take i).any (fun x => rangesMeet (dtDst e) (dtDstOff e) n (dtDst x) (dtDstOff x) (dtLen x))
    -- R269
    let uneven := es.any (fun x => rangesMeet (dtDst e) (dtDstOff e) n (dtSrc x) (dtSrcOff x) (dtLen x) && !feeds e x)
    flt (!built s (dtSrc e)) 0 ++
    flt (!built s (dtDst e) || decide (2048 < (es.take (i + 1)).countP (fun x => decide (dtDst x = dtDst e)))) 1 ++
    flt (decide (n % 4096 ≠ 0)) 4 ++ flt (decide (0x2000000000 < dtSrcOff e + n) || pooled (dtSrc e) (dtSrcOff e) n) 8 ++
    flt (decide (0x2000000000 < dtDstOff e + n) || pooled (dtDst e) (dtDstOff e) n || clash || uneven ||
      (decide (s.get bsStageStageAddr ≠ 0) && overlaps (stackBase (dtDst e) + dtDstOff e) n (s.get bsStageStageAddr) 0x40000000)) 16)

/-- Table after table: each header, then its entries. DESIGN CHOICE (log 57): two tables with one `TABLE_ID` are a fault. -/
def tablesFaults (s : State) (c : BsCtx) (b : List Byte) : Nat → Nat → List Nat → List SecFault
  | 0, _, _ => []
  | k + 1, o, ids =>
    let n := getLe b (o + 4) 4
    if b.length < o + 16 then [(o, 0x24)]
    else if n < 1 ∨ 65536 < n ∨ b.length < o + 16 + 32 * n then [(o + 4, 0x24)]
    else flt (ids.contains (getLe b o 2)) o ++ tableFaults s c (entriesAt b (o + 16) 32 n) (o + 16) ++
      tablesFaults s c b k (o + 16 + 32 * n) (getLe b o 2 :: ids)

def derailFaults (s : State) (c : BsCtx) (b : List Byte) : List SecFault :=
  if b.length < 4 ∨ 16 < getLe b 0 4 then [(0, 0x24)] else tablesFaults s c b (getLe b 0 4) 4 []

/-- Faults of a section by type. -/
def secFaults (s : State) (c : BsCtx) (ty : Nat) : List SecFault :=
  let b := c.sec ty
  match ty with
  | 1 => regionMapFaults s c b
  | 2 => routeFaults s c b
  | 3 => portFaults s c b
  | 4 => layerFaults s c b
  | 5 => modeFaults b
  | 6 => powerFaults s b
  | 7 => llmFaults s c b
  | 8 => pannierFaults s c b
  | 9 => programFaults c b
  | 10 => seamFaults c b
  | _ => if b.isEmpty && !c.carried.contains 11 then [] else derailFaults s c b

/-- The fault at the lowest file offset. -/
def firstFault (l : List LoadFault) : Option LoadFault :=
  l.foldl (fun m f => match m with
    | some x => if f.off < x.off then some f else m
    | none => some f) none

/-- Where the part of the file before a section ends: an earlier section, or the directory. -/
def endBefore (b : List Byte) (e : DirEntry) : Nat :=
  ((dirOf b).filter (fun x => decide (x.off < e.off ∨ x.off = e.off ∧ x.idx < e.idx))).foldl (fun m x => max m (x.off + x.len)) (bhDir b + 16 * bhCount b)

/-- Layout rules of the file itself that R45 tests: `BASE_DIGEST` zero in a full bitstream (R28); header, directory, sections and signature
block in this order without a gap but that to a section's 64-byte boundary (R27). -/
def layoutFaults (b : List Byte) : List LoadFault :=
  let fin := (dirOf b).foldl (fun m x => max m (x.off + x.len)) (bhDir b + 16 * bhCount b)
  (if bhKind b = 0 ∧ bhBase b ≠ List.replicate 32 0 then [{ code := 0x24, off := 0x40 }] else []) ++
  (if bhDir b ≠ 256 then [{ code := 0x24, off := 0x1C }] else []) ++
  ((dirOf b).filter (fun e => decide (e.off ≠ alignUp (endBefore b e) 64))).map (fun e =>
    { code := 0x24, sec := e.idx, off := bhDir b + 16 * e.idx + 4 }) ++
  ((dirOf b).filter (fun e => decide (e.off + e.len = fin ∧ fin ≠ b.length - 384))).map (fun e =>
    { code := 0x24, sec := e.idx, off := bhDir b + 16 * e.idx + 8 })

/-- Check 12: the first faulting field of the file and its sections; a conflict that only a section kept from before explains shows no
section (log 43). Seams, which only a full load brings (R30), are not tested again: a partial may take a fenced member out of use. -/
def sectionFault (s : State) (c : BsCtx) (b : List Byte) : Option LoadFault :=
  match firstFault (layoutFaults b ++
    (dirOf b).flatMap (fun e => (secFaults s c e.ty).map (fun f => { code := f.2, sec := e.idx, off := e.off + f.1 }))) with
  | some f => some f
  | none =>
    if !s.bs.loaded then none
    else (((range' 1 11).filter (fun t => decide (t ≠ 10) && !c.carried.contains t)).flatMap (secFaults s c)).head?.map (fun f => { code := f.2 })

/-! ## Capabilities (R46) -/

/-- Optional units that the carried sections use, as bits of `CAP`. A resident tensor counts as trainable: its role is not encoded
(log 43). -/
def unitsUsed (carried : Tab (List Byte)) : List Nat :=
  let sec := fun t => tabGet [] t carried
  let has := fun t => (tabFind t carried).isSome
  let layers := if has 4 then layersOf (sec 4) else []
  let tensors := if has 4 then tensorsOf (sec 4) else []
  let modes := if has 5 then entriesAt (sec 5) 16 16 3 else []
  let cmds := if has 9 then (programsOf (sec 9)).flatMap (pgCommands (sec 9)) else []
  (if layers.any (fun e => bitAt (getLe e 6 2) 0) || modes.any (fun e => decide (getLe e 9 1 = 1)) then [0] else []) ++
  (if layers.any (fun e => bitAt (getLe e 6 2) 1) then [1] else []) ++
  (if modes.any (fun e => decide (1 < getLe e 8 1)) || cmds.any (fun b => decide (0x20 ≤ cmdOpcode b ∧ cmdOpcode b ≤ 0x22 ∧ 1 < getLe b 0x31 1)) then [2]
   else []) ++
  (if tensors.any (fun e => decide (tnMode e = 0)) then [3] else []) ++
  cmds.filterMap (fun b => opUnit (cmdOpcode b))

/-! ## All of R49 -/

/-- Is a region's hub idle, with nothing queued or in flight (check 7)? A program that is done, stopped, or stalled at a step boundary
with nothing live queues nothing (log 43). -/
def hubIdle (s : State) (r : Nat) : Bool :=
  let h := s.hub r
  h.live.isEmpty && h.reqs.isEmpty && h.writes.isEmpty &&
  (List.range 8).all (fun q =>
    if s.on (qCtrlProg r q) then
      s.on (qStatusProgDone r q) || s.on (qStatusProgStopped r q) || !h.stalled.isEmpty || s.on (resStatRerunHold r)
    else decide (s.get (qHeadHead r q) = s.get (qTailTail r q)))

def allIdle (s : State) : Bool := (List.range 32).all (hubIdle s)

/-- Checks 1-9 on the copied image. -/
def headFault (s : State) (b : List Byte) : Option LoadFault :=
  let at' := fun code off => some { code := code, off := off : LoadFault }
  if bhTotal b ≠ b.length then at' 0x12 0x10
  else if slice b 0 8 ≠ ascii "CHZLBSTR" then at' 0x10 0
  else if getLe b 0x0C 4 ≠ 256 then at' 0x10 0x0C
  else if bhFormat b ≠ 1 then at' 0x11 0x08
  else if 1 < bhKind b then at' 0x11 0x0A
  else if !pssVerify (Config.keyOf (bhSigner b)) (b.take (b.length - 384)) (b.drop (b.length - 384)) then at' 0x13 (b.length - 384)
  else if !signerOk s (bhSigner b) then at' 0x14 0x60
  else if bhSeq b < s.get bsSeqFloorFloor then at' 0x15 0x20
  else if bhKind b = 0 ∧ !allIdle s then at' 0x30 0
  else if bhKind b = 1 ∧ bhBase b ≠ bsDigest s then at' 0x31 0x40
  else if s.get devIdStepping < bhMinStepping b then at' 0x26 0x19
  else if !(bitsOf 6 (bhReqCap b)).all (bitAt (s.get capUnits)) then at' 0x20 0x18
  else none

/-- What the checks see of an image. -/
def bsCtx (s : State) (b : List Byte) : BsCtx :=
  let carried := carriedSecs b
  let part := decide (bhKind b = 1)
  let secs := if part then carried.foldl (fun t e => tabPut e.1 e.2 t) s.bs.secs else carried
  { secs := secs, use := if part && (tabFind 1 carried).isNone then s.bs.use else usesOf s (tabGet [] 1 secs), carried := carried.map (·.1), part := part }

/-- Checks 11-13. -/
def bodyFault (s : State) (b : List Byte) : Option LoadFault :=
  let c := bsCtx s b
  let bad := if c.carried.contains 1 && decide (264 ≤ (c.sec 1).length) then useFault s (c.sec 1) else none
  match bad with
  | some n =>
    let e := ((dirOf b).find? (fun e => decide (e.ty = 1))).getD { idx := 0xFF, ty := 1, off := 0, len := 0 }
    some { code := 0x22, sec := e.idx, off := e.off + 8 + 8 * n }
  | none =>
    match sectionFault s c b with
    | some f => some f
    | none => if (unitsUsed (carriedSecs b)).all (bitAt (bhReqCap b)) then none else some { code := 0x21, off := 0x18 }

/-- The first check of R49 that an image fails. -/
def loadFault (s : State) (b : List Byte) : Option LoadFault :=
  (headFault s b).orElse (fun _ => (dirFault b).orElse (fun _ => bodyFault s b))

end Sys2Proof.Machine
end

