-- ==== Sys2Proof/Machine/Bitstream.lean ====
section
/-! DEFINITION. Loading a bitstream (R47-R53): LOAD, PARTIAL_APPLY, and the end of a derailleur run (R270). -/
namespace Sys2Proof.Machine

/-! ## Results (R49) -/

def loadResult (s : State) (code sec off : Nat) : State := s.puts [(bsStatusCode, code), (bsStatusSection, sec), (bsStatusFaultOff, off), (bsStatusBusy, 0)]

/-- The effective digest, as four little-endian words. -/
def setDigest (s : State) (d : List Byte) : State := s.puts ((List.range 4).map (fun i => (bsDigestDigest i, getLe d (8 * i) 8)))

/-- The digest of a bitstream: of everything but its signature block (R31). -/
def fileDigest (b : List Byte) : List Byte := sha256 (b.take (b.length - 384))

/-! ## Programs (R42, R215, R219) -/

/-- The program entries of a region. -/
def regionPrograms (b : List Byte) (r : Nat) : List (List Byte) := (programsOf b).filter (fun e => decide (pgRegion e = r))

/-- What a program says, wherever its parts lie in the section. -/
def programText (b e : List Byte) : List Nat × List (List Byte) × List (Nat × Nat) :=
  ([pgQueue e, b2n (pgLoop e), pgLimit e], pgCommands b e, pgTokens b e)

/-- The token image of the step in force is latched anew (R371). -/
def latchImage (s : State) (r : Nat) : State :=
  let t := s.get (hubStepCntStep r)
  s.updHub r (fun h => { h with images := ((t, tokenImage s r) :: h.images.filter (fun e => decide (e.1 ≠ t))).take 2 })

/-- The programs of region `r` are loaded and start at slot 0, and their token initialisers apply; commands of the old ones that were
fetched and not dispatched are gone, those of the firmware's rings stay (R219). The steps to run are the least limit that a looping one sets (log 57). -/
def loadPrograms (s : State) (r : Nat) : State :=
  let b := secOf s 9
  let ps := regionPrograms b r
  let store := ps.foldl (fun t e => (pgCommands b e).zipIdx.foldl (fun t (c, i) => tabPut (pgQueue e * 1024 + i) c t) t) []
  let limits := ((ps.filter pgLoop).map pgLimit).filter (fun n => decide (n ≠ 0))
  let s := s.updHub r (fun h => { h with
    live := h.live.filter (fun l => decide (l.q < 4 ∨ l.st ≠ .waiting) || !s.on (qCtrlProg r l.q)), store := store, progN := ps.foldl (fun t e => tabPut (pgQueue e) (pgCmds e) t) [], atWrap := [], advanced := 0
    stepLimit := limits.foldl (fun m n => if m = 0 then n else min m n) 0 })
  let s := [4, 5, 6, 7].foldl (fun s q =>
    let own := fun (s : State) (on loop : Nat) => s.puts [(qCtrlProg r q, on), (qCtrlLoop r q, loop), (qHeadHead r q, 0), (qTailTail r q, 0),
      (qStatusProgDone r q, 0), (qStatusProgStopped r q, 0)]
    match ps.find? (fun e => decide (pgQueue e = q)) with
    | some e => own s 1 (b2n (pgLoop e))
    | none => if s.on (qCtrlProg r q) then own s 0 0 else s) s
  let s := ps.foldl (fun s e => (pgTokens b e).foldl (fun s x => s.put (tokenValue r x.1) x.2) s) s
  latchImage s r

/-! ## Regions, stages, cuffs -/

/-- Every region takes its use (R33, R51): excluded ones are held dark, and newly used ones wait for admission (R336). -/
def settleRegions (s : State) : State :=
  forN 32 (fun n s =>
    let p := s.get (pwrStatPstate n)
    let off := decide (s.get (clkStatRstate n) = 0)
    if !usableRegion s n then s
    else if useOf s n = 0 then if off && decide (p ≠ 1 ∧ p ≠ 2) then disarm s n else loseRegion s n 0
    else if !fenced s n && off && decide (p ≠ 1 ∧ p ≠ 2) then updPlant (s.put (pwrStatPstate n) 1) n (fun x => { x with deferred := 0, probe := none })
    else s) s

/-- `STAGES` and `AF` of the layer placement (R275, R277). -/
def mapStages (s : State) : State :=
  let n := ((layersOf (secOf s 4)).foldl (fun l e => setIns (lyStage e) l) []).length
  s.puts [(mapStatusStages, n), (mapStatusAf, b2n (decide (8 < n)))]

/-- The cuffs of the power table reach their registers (R39). -/
def loadCuffs (s : State) : State :=
  let b := secOf s 6
  forN 32 (fun n s => s.put (pwrRcuffRegionCuffW n) (getLe b (8 + 4 * n) 2)) (s.put pwrCuffModuleCuffW (getLe b 0 4))

/-- Pannier budgets in force (R41); a cut below what entries lie in keeps its range reserved (R147). -/
def loadBudgets (s : State) : State :=
  forN 32 (fun r s =>
    let old := s.get (panBudgetBudget r)
    let new := budgetOf (secOf s 4) (secOf s 8) r
    let p := s.pan r
    let lo := min (stepPage - old) (p.reservedLo.getD stepPage)
    let s := if new < old ∧ new < occupancy p.entries then s.setPan r { p with reservedLo := some lo } else s
    s.put (panBudgetBudget r) new) s

/-! ## A full load (R51) -/

/-- Counters that a full load clears. -/
def clearCounters (s : State) : State :=
  let s := s.puts [(stepCountsSkipped, 0), (stepCountsFailed, 0), (mapStatusAfRejects, 0), (gateStatusLastStep, 0), (gateStatusLastVerdict, 0), (gateStatusTimedOut, 0)]
  forN 32 (fun r s =>
    let s := s.puts ([(hubStepCntStep r, 0), (hubStatSigDrop r, 0), (panCountsDropped r, 0), (panCountsSpilled r, 0), (panRecompRecomputed r, 0),
      (panRecompEvicted r, 0), (spStatDenseFb r, 0), (spStatFbDenied r, 0), (spMasknzMaskNz r, 0), (predStatPredMissRuns r, 0),
      (predStatDisengaged r, 0), (llmHitsHits r, 0), (llmMissesMisses r, 0), (dfStatusVotedStep r, 0), (dfStatusAheadStall r, 0),
      (panStatusHalted r, 0), (resStatRerunHold r, 0), (resStatDrained r, 0)])
    let s := forN 8 (fun q s => s.put (qPassesPasses r q) 0) s
    let s := forN 16 (fun c s => s.put (cqStatusFullEvents r c) 0) s
    forN 64 (fun h s => s.puts [(chBytesBytes r h, 0), (chStatusErrCount r h, 0)]) s) s

/-- The loss scale of a full load: `LS_INIT` with its exponent clamped and its fraction ignored (R157). -/
def initScale (s : State) : Nat :=
  let be := s.get lsCtrlLsInit / 2 ^ 23 % 256
  scaleOfBe (min (max be (s.get lsLimitsMinBe)) (s.get lsLimitsMaxBe))

/-- Partitions set afresh (R197): every unit of the new layout starts with zeros or as an empty cache. -/
def loadUnits (s : State) : State :=
  let b := secOf s 7
  let s := { zeroRange s llmBase 0x200000000 with retained := [] }
  { s with units := (List.range 1024).foldl (fun t k =>
      let m := if useOf s (k / 32) = 0 then 0 else partMode b (k / 16) (k % 16)
      if m = 0 then t else tabPut k m t) [] }

/-- Classes of ports, and peer entries whose class no port carries (R284, R292). -/
def loadPorts (s : State) : State :=
  let b := secOf s 3
  let s := forN 64 (fun p s => s.puts [(portCfgClass (p / 16) (p % 16), portClassOf b p), (portCfgBreakout (p / 16) (p % 16), b2n (portBreakoutOf b p))]) s
  (s.peers.filter (fun e => !(List.range 64).any (fun p => decide (portClassOf b p = peerClass e.2)))).foldl (fun s e =>
    let s := if peerValid e.2 then closePeer s e.1 else s
    { s with peers := tabErase e.1 s.peers }) s

/-- Do all covered and parity ranges of a seam still carry their zero-baseline marks (R422)? -/
def zeroBaseline (s : State) (m : Seam) : Bool :=
  (m.members ++ [m.pa, m.pb]).all (fun r => (range' (m.off / 0x40000000) (m.len / 0x40000000)).all (fun g => !s.unzeroed.contains (r * 128 + g)))

/-- Seams of a full load: INTACT at once over zeros, else after a refresh pass (R422). -/
def loadSeams (s : State) : State :=
  let es := seamEntries (secOf s 10)
  let s := { s with
    rebuilt := [], refreshing := [], seamsDue := []
    seams := es.foldl (fun t e => tabPut (smId e) { members := smMembers e, pa := smPa e, pb := smPb e, off := smOff e, len := smLen e, st := 1,
                                                    pbValid := endurance s } t) [] }
  let s := es.foldl (fun s e => if zeroBaseline s (s.seam (smId e)) then s else seamPass s (smId e) false) s
  settleSeams s

/-- A new `KEY_NONCE`, and the new key for every H-class peer (R294, R445). -/
def newKeys (s : State) : State :=
  let (d, s) := s.draw 3
  let s := s.put rdmaKeysKeyNonce (leNat d)
  s.peers.foldl (fun s e => sendKey s e.1) s

/-- The state that a load replaces as a whole: caches, an armed injection, sections, streams, hubs (R51). -/
def loadClear (s : State) (b : List Byte) : State :=
  let c := bsCtx s b
  let s := (List.range 32).foldl writeBackInv s
  let s := match s.inj with
    | some j => disarm s j.stop
    | none => s
  let s := { s with
    bs := { loaded := true, secs := c.secs, use := c.use, seq := max s.bs.seq (bhSeq b), jobId := bhJob b, signer := bhSigner b
            placed := (tensorsOf (tabGet [] 4 c.secs)).foldl (fun t e => tabPut (tnId e) (tnBase e) t) [] }
    streams := [], pages := [], drl := none, found := [], pans := [], flows := [], hubs := [], rsImage := none
    snaps := { s.snaps with since := 0 } }
  (setDigest s (fileDigest b)).puts [(bootStatusLoaded, 1), (bsStatusPending, 0), (drlStatusHeld, 0), (drlStatusBusy, 0),
    (ringStatusRingEn, getLe (secOf s 2) 0 2), (fencedMask, maskOf ((bitsOf 32 (s.get fencedMask)).filter (bitAt (s.get fenceNvPerm))))]

/-- The loss scale and the gate at their start (R51). -/
def loadGate (s : State) : State :=
  let scale := initScale s
  { s.puts [(lsCurScale, scale), (lsCurClean, 0)] with
    gate := {}, pdScale := [(0, [(0, scale)]), (1, [(0, scale)]), (2, [(0, scale)]), (3, [(0, scale)])]
    flows := (List.range 32).map (fun r => (r, { ls := scale })) }

/-- What the sections say of the regions, the ports and the power. -/
def loadPlan (s : State) : State := loadBudgets (mapStages (loadCuffs (loadPorts (settleRegions (loadUnits (clearCounters s))))))

/-- A verified full bitstream takes the place of everything (R51). -/
def fullLoad (s : State) (b : List Byte) : State :=
  let s := loadGate (loadPlan (loadClear s b))
  let s := forN 32 (fun r s => loadPrograms (setTokens s r []) r) s
  let m := getLe (secOf s 5) 0 1
  -- no step counter runs yet: step 0 is of the new mode (R357)
  let s := forN 32 (fun r s => applyMode s r m) (enterMode s m)
  let s := loadSeams (settleMode (s.put modeCtrlSwitching 1))
  settleGate (newKeys (forN 32 (fun r s => firstRecord s r) s))

/-! ## A partial (R52) -/

def tensorEntryOf (b : List Byte) (id : Nat) : Option (List Byte) := (tensorsOf b).find? (fun e => decide (tnId e = id))

/-- Regions that the change of a section affects: those that a changed entry names; a program's commands and token
initialisers belong to its entry. -/
def affectedBy (s : State) (old new : List Byte) (ty : Nat) : List Nat :=
  let each := fun (l : List (List Byte)) (f : List Byte → List Byte → Bool) (other : List (List Byte)) (name : List Byte → List Nat) =>
    (l.filter (fun e => !other.any (f e))).flatMap name
  let both := fun (a b : List (List Byte)) (f : List Byte → List Byte → Bool) (name : List Byte → List Nat) => each a f b name ++ each b f a name
  match ty with
  | 1 => (List.range 32).filter (fun n => decide (mapUse old n ≠ mapUse new n))
  | 4 =>
    both (layersOf old) (layersOf new) (fun a b => decide (a = b)) (fun e => [lyRegion e]) ++
    both (tensorsOf old) (tensorsOf new) (fun a b => decide (a = b)) (fun e => [windowRegion (tnBase e)])
  | 6 => (List.range 32).filter (fun n => decide (slice old (8 + 4 * n) 3 ≠ slice new (8 + 4 * n) 3))
  | 7 => (List.range 32).filter (fun n => decide (slice old (32 * n) 32 ≠ slice new (32 * n) 32))
  | 8 =>
    (both (stagesOf old) (stagesOf new) (fun a b => decide (a = b)) (fun e => [getLe e 0 1])).flatMap (fun st =>
      ((layersOf (secOf s 4)).filter (fun l => decide (lyStage l = st))).map lyRegion)
  | 9 => (List.range 32).filter (fun r => decide (regionPrograms old r ≠ regionPrograms new r ∨
      (regionPrograms old r).map (programText old) ≠ (regionPrograms new r).map (programText new)))
  | 11 =>
    let entries := fun (b : List Byte) => if b.isEmpty then [] else (tablesOf b).flatMap (·.2)
    both (entries old) (entries new) (fun a b => decide (a = b)) (fun e => [dtSrc e, dtDst e])
  | _ => []

/-- What a carried section makes of the one in force: it takes its place, but derailleur tables are added (R268). -/
def newSec (s : State) (ty : Nat) (b : List Byte) : List Byte := if ty = 11 then mergeTables (secOf s 11) b else b

/-- Every affected region: of each carried section, and of the table that the partial will run (R268). -/
def affectedOf (s : State) (carried : Tab (List Byte)) : List Nat :=
  ((carried.flatMap (fun e => affectedBy s (secOf s e.1) (newSec s e.1 e.2) e.1)) ++ armedRegions s).foldl (fun l r => if built s r then setIns r l else l) []

/-- The units of the dies of regions in use move to their new modes (R198, R199); what names a unit is read before any moves. -/
def moveUnits (s₀ : State) : State :=
  forN 1024 (fun k s =>
    let d := k / 16
    let u := k % 16
    let m := unitMode s d u
    let new := partMode (secOf s 7) d u
    if useOf s (d / 2) = 0 ∨ m = new then { s with retained := tabErase k s.retained }
    else if 2 ≤ m ∧ new < 2 ∧ unitInUse s₀ d u then { s with retained := tabPut k new s.retained }
    else moveUnit s d u new) s₀

/-- The first step of region `r` that starts after the hubs' release: the present one where no command of it has been dispatched, else the
next (R282). -/
def firstAfter (s : State) (r : Nat) : Nat := s.get (hubStepCntStep r) + b2n (!(s.hub r).fresh)

/-- The values of R377 for a region that gains layers and whose copy program brings its metadata back from the image of `RS_GO`: counter,
tokens with the image latched (R371), loss scale; its part of the dataflow starts at that step (log 34). -/
def takeImage (s : State) (r : Nat) (im : RsImage) : State :=
  let n := im.step + 1
  let loss := getLe im.record 12 4
  let s := (setTokens s r im.tokens).puts [(hubStepCntStep r, n), (lsCurScale, loss), (lsCurClean, getLe im.record 24 4)]
  let s := s.updHub r (fun h => { h with images := [(n, tokenImage s r)] })
  updFlow { s with rsImage := none } r (fun f => { rewindFlow f n with ls := loss, clip := getLe im.record 20 4, durable := n, journaled := n })

/-- The carried sections take the place of those in force: what a carried region map takes out of the module is written back, switched and
no longer stalled. -/
def takeSections (s : State) (p : Partial) : State :=
  let s := { s with bs := { s.bs with secs := p.secs.foldl (fun t e => tabPut e.1 (newSec s e.1 e.2) t) s.bs.secs, seq := max s.bs.seq p.seq, part := none } }
  if (tabFind 1 p.secs).isSome then
    let s := { s with bs := { s.bs with use := usesOf s (secOf s 1) } }
    let leaving := (List.range 32).filter (fun n => decide (useOf s n = 0))
    let s := settleRegions (leaving.foldl writeBackInv s)
    (List.range 32).foldl (fun s r => releaseStall s 2 r) (s.put drlStatusHeld 0)
  else s

/-- The map status follows the sections in force; where the map becomes AF, every region's forwarding starts at its next step. -/
def remap (s : State) : State :=
  let af := s.on mapStatusAf
  let s := mapStages s
  if !af && s.on mapStatusAf then forN 32 (fun r s => updFlow s r (fun f => { f with afFrom := firstAfter s r })) s else s

/-- What each carried section changes beside itself. `old4` is the tensor section that stood before. -/
def settleCarried (s : State) (p : Partial) (old4 : List Byte) : State :=
  let has := fun (t : Nat) => (tabFind t p.secs).isSome
  let s := if has 4 then forN 32 (fun r s => if layersAt old4 r = layersAt (secOf s 4) r then s else setEntries s r []) s else s
  let s := if has 6 then loadCuffs s else s
  let s := if has 7 then moveUnits s else s
  let s := if has 4 || has 8 then loadBudgets s else s
  let s := if has 8 then forN 32 (fun r s => s.put (panStatusHalted r) 0) s else s
  let s := if has 9 then p.affected.foldl loadPrograms s else s
  match s.rsImage with
  | some im => if has 4 ∧ layersAt old4 im.region ≠ layersAt (secOf s 4) im.region then takeImage s im.region im else s
  | none => s

/-- The carried sections take effect, and the hubs are released together. -/
def applyPartial (s : State) (p : Partial) : State :=
  let old4 := secOf s 4
  let s := settleCarried (remap (takeSections s p)) p old4
  let s := forN 32 (fun r s => s.put (resStatRerunHold r) 0) s
  let s := setDigest s (sha256 (bsDigest s ++ p.digest))
  let s := p.affected.foldl (fun s r => releaseStall s 1 r) (s.puts [(bsStatusPending, 0), (drlCtrlArm, 0)])
  settleGate (settleMode (retargetAll s))

/-- PARTIAL_APPLY: once every affected hub counts as stalled an armed table runs, and then the sections are applied; a table that fails
its check moves nothing (log 29). A run under way is waited for. -/
def execPartialApply (s : State) : Host.Outcome State Fault Refusal :=
  match s.bs.part with
  | none => .next s
  | some p =>
    if !p.affected.all (stalledFor s 1) || s.drl.isSome then .next s
    else if s.on drlCtrlArm then
      let s := drlStart s (s.get drlCtrlTableId) true
      .next (if s.drl.isSome then s else applyPartial s p)
    else .next (applyPartial s p)

/-- The run in progress ends when its work does (R270, R271). One that a partial armed is followed by the partial's sections. -/
def derailEnd (s : State) : State :=
  let s := drlPump s
  match s.drl with
  | none => s
  | some d =>
    if !drlOver s d then s
    else
      let s := { d.named.foldl writeBackInv s with drl := none }.put drlStatusBusy 0
      if d.lost then
        let s := (s.put drlStatusCode 0x13).put drlStatusHeld 1
        -- the named regions stay stalled; a partial that armed the run is dropped (log 29)
        let s := d.named.foldl (fun s r => s.updHub r (fun h => { h with stalled := setIns 2 h.stalled })) s
        if d.armed then
          let a := (s.bs.part.map (·.affected)).getD []
          let s := a.foldl (fun s r => releaseStall s 1 r) s
          { s.put bsStatusPending 0 with bs := { s.bs with part := none } }
        else s
      else
        let s := s.put drlStatusCode 1
        if d.armed then
          match s.bs.part with
          | some p => applyPartial s p
          | none => s
        else d.named.foldl (fun s r => releaseStall s 2 r) s

/-! ## LOAD (R47-R50) -/

/-- The region that holds the staging area (R47). -/
def stagingRegion (s : State) : Nat := s.get bsStageStageAddr / 0x2000000000

/-- The staged bytes; none where they cannot be read. -/
def staged (s : State) (n : Nat) : Option (List Byte) × State :=
  match readMem s (noStep (stagingRegion s)) (s.get bsStageStageAddr) n with
  | (.ok b, s) => (some b, s)
  | (.error _, s) => (none, s)

/-- A load runs to its result. An image that cannot be copied fails its signature (log 43). -/
def runLoad (s : State) : State :=
  let s := { s with loadHeld := false }
  let n := s.get bsLenLen
  if n < 1024 ∨ 0x40000000 < n then loadResult s 0x12 0xFF 0
  else
    match staged s n with
    | (none, s) => loadResult s 0x13 0xFF 0
    | (some b, s) =>
      match loadFault s b with
      | some f => loadResult s f.code f.sec f.off
      | none =>
        if bhKind b = 0 then loadResult (fullLoad s b) 1 0xFF 0
        else
          let carried := carriedSecs b
          let a := affectedOf s carried
          let s := { s with bs := { s.bs with part := some { secs := carried, digest := fileDigest b, seq := bhSeq b, affected := a } } }
          loadResult (a.foldl (fun s r => askStall s 1 r) (s.put bsStatusPending 1)) 1 0xFF 0

/-- LOAD: held before step 13 (R421); ignored during a load, a pending partial, a firmware write or activation, a quiesce, and once both
roots have failed (R49, R382, R428, R429). -/
def execLoad (s : State) : Host.Outcome State Fault Refusal :=
  if s.rootLost then .next s
  else if s.get bootStatusStep < 13 then .next { s with loadHeld := true }
  else if loadBusy s || s.on fwUpdateFwBusy || quiesced s || decide (s.quiescing ≠ 0) then .next s
  else .next (runLoad s)

end Sys2Proof.Machine
end

