-- ==== Sys2Proof/Machine/Boot.lean ====
section
/-! DEFINITION. Start-up, resets, quiesce and firmware updates (R387, R388, R419-R430). -/
namespace Sys2Proof.Machine

/-! ## Firmware (R388, R429, R430) -/

/-- The code with which R388 refuses a bank's image, 1 for none. -/
def bankCode (s : State) (target bank : Nat) : Nat :=
  match tabFind (target * 2 + bank) s.flash with
  | none => if ownState s = 2 then 0x11 else if 0 < field (s.get svnSvnFloor) (8 * target) 8 then 0x14 else 1
  | some b => fwCheck s target b

/-- `FW_REFUSED`. -/
def fwRefused (s : State) (target code : Nat) : State := raiseErr s 0x0705 0 (rootSource s) 0 none target code

/-- The root tries the preferred bank, then the other; each image it refuses is recorded. -/
def bootTarget (s : State) (target : Nat) : Option (Nat × List Byte) × State :=
  let bank := s.get secStateBootBank
  match bankImage s target bank with
  | some i => (some i, s)
  | none =>
    let s := fwRefused s target (bankCode s target bank)
    match bankImage s target (1 - bank) with
    | some i => (some i, s)
    | none => (none, fwRefused s target (bankCode s target (1 - bank)))

/-- FW_WRITE: the staged image is checked and written over the preferred bank, whose image goes into the other. -/
def execFwWrite (target : Fin 3) (s : State) : Host.Outcome State Fault Refusal :=
  if loadBusy s || s.on fwUpdateFwBusy || quiesced s || s.rootLost || decide (s.get bootStatusStep < 13) then .next s
  else
    let s := s.put fwUpdateFwTgt target
    let (b, s) := staged s (s.get bsLenLen)
    let b := b.getD []
    let code := fwCheck s target b
    if code ≠ 1 then .next ((fwRefused s target code).put fwUpdateFwCode code)
    else
      let p := s.get secStateBootBank
      let key := target.val * 2
      let flash := match tabFind (key + p) s.flash with
        | some old => tabPut (key + (1 - p)) old s.flash
        | none => tabErase (key + (1 - p)) s.flash
      .next ({ s with flash := tabPut (key + p) b flash }.put fwUpdateFwCode 1)

/-- Running regions, which a quiesce stalls. -/
def stallAll (s : State) (reason : Nat) : State := (List.range 32).foldl (fun s r => if running s r then askStall s reason r else s) s
def releaseAll (s : State) (reason : Nat) : State := (List.range 32).foldl (fun s r => releaseStall s reason r) s

/-- Save, Reboot, Resume of an activation (R430). -/
def rebootCpc (s : State) : State :=
  let p := s.get secStateBootBank
  let code := bankCode s 0 p
  let (img, s) := bootTarget s 0
  let s := match img with
    | some i => runImage s 0 i
    | none => s.put bootStatusCpcHeld 1
  releaseAll ({ s with activating := false }.puts [(fwUpdateFwCode, code), (fwUpdateFwBusy, 0)]) 5

/-- FW_ACTIVATE, which a load in progress or pending does not shut out (R429 says so of FW_WRITE alone): the hubs stall, and once all have stalled the CPC reboots; a repeated command carries an activation on (log 32). -/
def execFwActivate (s : State) : Host.Outcome State Fault Refusal :=
  let free := !s.on fwUpdateFwBusy && !quiesced s && !s.rootLost && decide (13 ≤ s.get bootStatusStep ∧ s.quiescing = 0)
  let s := if free then stallAll ({ s with activating := true }.put fwUpdateFwBusy 1) 5 else s
  if s.activating && allStalled s 5 then .next (rebootCpc s) else .next s

/-! ## The quiesce (R428) -/

/-- Stall ends: every hub has stalled and a checkpoint in progress is complete; without a bitstream there is nothing to wait for. -/
def quiesceStalled (s : State) : Bool := !s.bs.loaded || (allStalled s 5 && decide (s.snaps.ckpt = 0))

/-- Flush ends: every snapshot and journal write in progress is durable. -/
def quiesceFlushed (s : State) : Bool := !s.bs.loaded || s.chains.all (fun e => e.2.out.isEmpty)

/-- QUIESCE: a repeated command carries the quiesce on (log 32). -/
def execQuiesce (s : State) : Host.Outcome State Fault Refusal :=
  if quiesced s ∨ (s.quiescing = 0 ∧ (loadBusy s || s.on fwUpdateFwBusy)) then .next s
  else
    let s := if s.quiescing = 0 then stallAll { s with quiescing := 1 } 5 else s
    let s := if s.quiescing = 1 && quiesceStalled s then { s with quiescing := 2 } else s
    if s.quiescing = 2 && quiesceFlushed s then
      .next ({ writeLives ((List.range 32).foldl writeBack s) with quiescing := 0 }.put resetCtrlQuiesced 1)
    else .next s

/-- A reset of any kind ends a quiesce and discards the transport key (R393, R428). -/
def endQuiesce (s : State) : State :=
  let s := dropKt s
  if quiesced s ∨ s.quiescing ≠ 0 then releaseAll ({ s with quiescing := 0 }.put resetCtrlQuiesced 0) 5 else s

/-! ## Start-up (R419-R424) -/

/-- The first step that records a failure under R424. -/
def bootFailed (s : State) (step : Nat) : State := if s.get bootStatusFailStep = 0 then s.put bootStatusFailStep step else s

/-- An injection that waited for this reset fires at one of its units (R437, R471). -/
def bootFired (s : State) (code st : Nat) : State :=
  { s.puts [(injStatusFired, 1), (injStatusFiredN, s.get injStatusFiredN + 1)] with bootInj := s.bootInj.filter (fun j => decide (j ≠ (code, st))) }

/-- Is the detector `code` of a stop forced at this reset? -/
def forcedAt (s : State) (code st : Nat) : Bool := s.bootInj.contains (code, st)

/-- Step 6: a port die runs its firmware, or leaves its ports and bays dark. -/
def bootDie (rep : BootReport) (ok : Bool) (k : Nat) (s : State) : State :=
  let inj := forcedAt s 0x0A03 (32 + k)
  if ok && !(rep.pdFailed.map (·.val)).contains k && !inj then s
  else
    let s := bootFailed (losePortDie s k) 6
    let s := s.put bootDarkPortDies (setBit (s.get bootDarkPortDies) k true)
    let s := raiseErr s 0x0A03 3 (32 + k) 0 none 0 0 inj
    if inj then bootFired s 0x0A03 (32 + k) else s

/-- The provisioning list reaches the first entries of pd0 (R447), word 0 of each last. -/
def provision (s : State) : State :=
  if s.pdOff.contains 0 then s
  else s.prov.zipIdx.foldl (fun s (e, i) => writePeer (writePeer s i 8 (slice e 8 56)) i 0 (slice e 0 8)) s

/-- Failed physical clusters of a die. -/
def failedClusters (rep : BootReport) (d : Nat) : List Nat :=
  rep.clusters.foldl (fun l e => if e.1.val = d then e.2.foldl (fun l c => setIns c.val l) l else l) []

/-- A region is left dark (R424). -/
def darkRegion (s : State) (r cause : Nat) (inj : Bool) : State :=
  let s := s.puts [(bootDarkRegions, setBit (s.get bootDarkRegions) r true), (regionDegradedDegraded, setBit (s.get regionDegradedDegraded) r true),
    (rgnBootDark r, 1), (rgnBootDarkCause r, cause), (pwrStatPstate r, if cause = 2 then 5 else 0)]
  if cause = 1 then s
  else raiseErr (bootFailed s (if cause = 2 ∨ cause = 5 then 9 else if cause = 3 then 10 else 11)) 0x0A02 2 r 0 none 0 cause inj

/-- Is a region in a list of the report? -/
def listed (l : List (Fin 32)) (r : Nat) : Bool := (l.map (·.val)).contains r

/-- Why a region fails a step from 9 to 11, 0 for none (R424); one whose segment is shorted, or without a stage-2 module, trips as it ramps
(R327, R331). -/
def darkCause (s : State) (rep : BootReport) (hubOk : Bool) (step r : Nat) : Nat :=
  if step = 9 then (if bitAt (s.get fenceNvPerm) r then 1 else if !hubOk then 5 else if listed rep.rampTrip r || !hasSupply s r then 2 else 0)
  else if step = 10 then (if listed rep.stackFail r then 3 else 0)
  else if listed rep.testFail r || forcedAt s 0x0A02 r then 4 else 0

/-- A region fails a step for a cause, and an injection that forces `BOOT_DARK` there takes part in the event (R439). -/
def failRegion (s : State) (r cause : Nat) : State :=
  let inj := decide (cause ≠ 1) && forcedAt s 0x0A02 r
  let s := darkRegion s r cause inj
  if inj then bootFired s 0x0A02 r else s

/-- A step from 9 to 11 at the regions that have come so far: those that pass go on, the others are left dark. A region that is admitted shows
its inrush (R336). -/
def bootStep (rep : BootReport) (hubOk : Bool) (step : Nat) (l : List Nat) (s : State) : List Nat × State :=
  l.foldl (fun (acc : List Nat × State) r =>
    let (go, s) := acc
    let cause := darkCause s rep hubOk step r
    if cause ≠ 0 then (go, failRegion s r cause)
    else (go ++ [r], if step = 9 then s.put (pwrAdmitInrushW r) (inrush (softStart s)) else s)) ([], s)

/-- A region that has passed runs, with its repairs and, where die a's hub fails, the other one (R206, R423). -/
def bootRegion (rep : BootReport) (r : Nat) (s : State) : State :=
  let s := powerUp s r
  let s := [0, 1].foldl (fun s d =>
    let l := failedClusters rep (2 * r + d)
    let s := s.puts [(repairFailedPhys r d, maskOf l), (repairFailedN r d, l.length)]
    if 2 < l.length then s.put regionDegradedDegraded (setBit (s.get regionDegradedDegraded) r true) else s) s
  if listed rep.hubAFail r then raiseErr (s.put (hubStatHubOnB r) 1) 0x0A01 0 r 0 none 0 0 else s

/-- Steps 9-11, one after the other; the hub image that is accepted is measured with the first region whose hub runs it (R388, R419). -/
def bootRegions (rep : BootReport) (s : State) : State :=
  let (hub, s) := bootTarget s 1
  let (l, s) := bootStep rep hub.isSome 9 ((List.range 32).filter (fun r => built s r)) s
  let s := match hub, l with
    | some i, _ :: _ => runImage s 1 i
    | _, _ => s
  let (l, s) := bootStep rep hub.isSome 10 l s
  let (l, s) := bootStep rep hub.isSome 11 l s
  l.foldl (fun s r => bootRegion rep r s) s

/-- Step 7: the cassettes in the bays of running port dies are authenticated, but for those that an overheating holds dark (R315, R317, R419). -/
def bootBays (s : State) : State :=
  forN 8 (fun b s =>
    if !s.on (casStatPresent (b / 2) (b % 2)) || s.pdOff.contains (b / 2) || overheated s b then s else admitCassette s b) s

/-- The staging area of R47: none when no region is usable. -/
def stagingAddr (s : State) : Nat :=
  match (List.range 32).find? (fun r => usableRegion s r && !bitAt (s.get regionDegradedDegraded) r) with
  | some r => stackBase r + 0x1FC0000000
  | none => 0

/-- Steps 5-14. The links of step 8 wait for the light of step 7 (R419). -/
def bootRest (s : State) (rep : BootReport) : State :=
  let s := s.put ringStatusRingUp (maskOf ((List.range 16).filter (fun n => !(rep.ringsFailed.map (·.val)).contains n)))
  let s := if s.get ringStatusRingUp = 0 then raiseErr s 0x0203 3 33 0 none 0 0 else s
  -- port dies, their firmware, the ports that serve before a load, the provisioned peers
  let (img, s) := bootTarget { s with pdOff := [] } 2
  let s := match img with
    | some i => runImage s 2 i
    | none => s
  let s := forN 4 (bootDie rep img.isSome) s
  let s := forN 64 (fun p s => s.puts [(portCfgClass (p / 16) (p % 16), if p < 4 then 1 else 0), (portCfgBreakout (p / 16) (p % 16), 0)]) s
  let s := provision s
  let s := bootBays { s with linkUps := (rep.linksUp.map (·.val)).filter (fun p => decide (p < 4) && !s.pdOff.contains 0) }
  let s := bootRegions rep s
  let s := { s.put bsStageStageAddr (stagingAddr s) with unzeroed := [], bootInj := [] }
  let s := settleGate (s.put bootStatusStep 13)
  let s := if s.loadHeld then runLoad s else s
  (extendConfig s).puts [(bootStatusStep, 0x1F), (bootStatusElapsedMs, rep.elapsedMs)]

/-- Step 4 and what follows it: without CPC firmware the sequence stops there (R421); with both roots failed nothing is accepted or loaded,
and it never completes (R382). -/
def bootFrom4 (s : State) (rep : BootReport) : State :=
  if s.rootLost then s.put bootStatusStep 4
  else
    let (img, s) := bootTarget s 0
    match img with
    | none => s.puts [(bootStatusStep, 4), (bootStatusCpcHeld, 1)]
    | some i => bootRest (runImage s 0 i) rep

/-- Step 3 and what follows it: with both roots failed it never completes, so `CAP_VERSION` stays 0, and nothing goes on (R26, R382). An
abnormal input shows as soon as there is power (R324). -/
def bootFrom3 (s : State) (rep : BootReport) : State :=
  let s := s.put bootStatusStep 3
  let s := setAbnormal s (decide (s.get pwrInVinCv < 4050 ∨ 5700 < s.get pwrInVinCv)) false
  let s := rootFail s rep.primaryOk rep.mirrorOk false
  if s.rootLost then s
  else
    let (d, s) := (drawOwnNonce (s.put capVersion 1)).draw 3
    bootFrom4 (s.put rdmaKeysKeyNonce (leNat d)) rep

/-- COLD_START: at 40.5 V and above step 1 begins, and the fourteen steps run (R419). -/
def execColdStart (report : BootReport) (s : State) : Host.Outcome State Fault Refusal :=
  if s.get bootStatusStep ≠ 0 ∨ s.inputStop ≠ 0 ∨ s.get pwrInVinCv < 4050 then .next s else .next (bootFrom3 s report)

/-! ## Resets (R425-R427) -/

/-- A cold reset by register: the input switch opens for 2 s, and the module starts again. -/
def coldReset (s : State) (rep : BootReport) : State := bootFrom3 (coldState s 1) rep

/-- A module-warm reset: life increments are written first, then steps 4-14 (R320, R425). -/
def moduleWarmReset (s : State) (rep : BootReport) : State :=
  bootFrom4 (warmState (writeLives s)) rep

/-- Is the module started, so that its registers are served? -/
def started (s : State) : Bool := decide (s.get bootStatusStep ≠ 0)

/-- COLD_RESET. -/
def execColdReset (report : BootReport) (s : State) : Host.Outcome State Fault Refusal := if started s then .next (coldReset s report) else .next s

/-- MODULE_WARM_RESET. -/
def execModuleWarmReset (report : BootReport) (s : State) : Host.Outcome State Fault Refusal :=
  if started s then .next (moduleWarmReset s report) else .next s

/-- The registers of a region that its reset returns to their reset values: queues, completion queues, hub, tokens, cluster and channel
registers. Step counter, programs and what the CPC and the host configured of the dataflow stay (log 44). -/
def resetBlock (s : State) (r : Nat) : State :=
  let t := s.get (hubStepCntStep r)
  let keep := (List.range 8).flatMap (fun q => [qCtrlProg r q, qCtrlLoop r q, qStatusProgDone r q, qStatusProgStopped r q, qPassesPasses r q]) ++
    [hubStatHubOnB r] ++ (List.range 64).flatMap (fun h => [chBytesBytes r h, chStatusErrCount r h])
  let kept := keep.map (fun f => (f, s.get f))
  let s := clearBlock (clearBlock (clearBlock s r 0x100000 0x210000) r 0x300040 0x300050) r 0x400000 0x404008
  (s.puts kept).puts [(hubStepCntStep r, t), (panStatusHalted r, 0)]

/-- The logic of region `r` is reset (R426). Its programs, token images and stalls stand; so does a drain in progress, in which it takes its part
afterwards. -/
def resetLogic (s : State) (r : Nat) : State :=
  let h := s.hub r
  let s := dropEngines s r
  let s := s.setHub r { store := h.store, progN := h.progN, stepLimit := h.stepLimit, advanced := h.advanced, images := h.images
                        asks := h.asks, stalled := h.stalled, draining := h.draining, nextId := h.nextId, nextDisp := h.nextDisp }
  zeroScratch (resetBlock s r) r

/-- Every step of a voter that has no verdict fails (R426). -/
def failOpenSteps (s : State) (r : Nat) : State :=
  if (voters s).contains r then (range' (s.flow r).done (s.get (hubStepCntStep r) + 1 - (s.flow r).done)).foldl (fun s t => faultStep s r t) s else s

/-- The hub firmware of a region that is reset: the root tries the banks, records what it refuses, and measures what it accepts (R388, R430).
Where no image qualifies the hub goes on with the one it runs (log 42). -/
def resetHub (s : State) : State :=
  if s.rootLost then s
  else match bootTarget s 1 with
    | (some i, s) => runImage s 1 i
    | (none, s) => s

/-- REGION_RESET: ignored for a dark, fenced or parked region. Life increments are written first (R320); new hub firmware takes effect (R430).
A hub takeover forced at it fires, for as many regions as the injection names, each at its own reset (R437, R471). -/
def execRegionReset (r : Fin 32) (s : State) : Host.Outcome State Fault Refusal :=
  if !running s r then .next s
  else
    let takeover := forcedAt s 0x0A01 r
    let j := s.inj
    let s := endQuiesce (writeBackInv (writeLives s) r)
    let s := failOpenSteps (resetLogic s r) r
    let s := resetHub (s.put resetCauseLast 3)
    if takeover then
      .next (raiseErr (fired { s with bootInj := s.bootInj.filter (fun e => decide (e ≠ (0x0A01, r.val))), inj := j }) 0x0A01 0 r 0 none 0 0 true
        |>.put (hubStatHubOnB r) 1)
    else .next (disarm s r)

/-- PORT_RESET: a port or half retrains; the queue pairs on it enter the error state. The link comes up by itself. -/
def execPortReset (port : Fin 64) (half : Fin 2) (s : State) : Host.Outcome State Fault Refusal :=
  let p := port.val
  if portClass s p = 0 ∨ (half.val = 1 ∧ !breakout s p) ∨ s.pdOff.contains (p / 16) then .next s
  else
    let s := endQuiesce s
    let s := s.put (portStatLink (p / 16) (p % 16)) (setBit (s.get (portStatLink (p / 16) (p % 16))) half false)
    let on := (s.peers.filter (fun e => peerValid e.2 && !e.2.err && decide (peerPort e.1 e.2 = p ∧ peerHalf e.2 = half.val))).map (·.1)
    .next ((on.foldl qpError s).put resetCauseLast 4)

end Sys2Proof.Machine
end

