-- ==== Sys2Proof/Machine/Errors.lean ====
section
/-! DEFINITION. The error queue as commands reach it, and fault injection (R431-R439, R471). -/
namespace Sys2Proof.Machine

/-! ## Records (R431, R434-R436) -/

/-- Records that R436 gives severity 1 on the queues of a step and 0 elsewhere: their unit is a queue. -/
def queueSev (unit : Nat) : Nat := if unit / 4096 = 6 ∧ 4 ≤ unit % 4096 ∧ unit % 4096 < 8 then 1 else 0

/-- The severity of a code (R436): none for a code that no detector has. -/
def sevOf (code unit : Nat) (step : Option Nat) : Option Nat :=
  match code with
  | 0x0101 | 0x0103 | 0x0105 | 0x0106 | 0x0201 | 0x0301 | 0x0302 | 0x0401 | 0x0405 | 0x0407 | 0x0501 | 0x0502 | 0x0601 | 0x0604 | 0x0607 | 0x0608
  | 0x0609 | 0x0702 | 0x0703 | 0x0705 | 0x0801 | 0x0803 | 0x0804 | 0x0805 | 0x0806 | 0x0901 | 0x0902 | 0x0A01 | 0x0A04 => some 0
  | 0x0102 | 0x0104 | 0x0107 | 0x0108 | 0x0303 | 0x0304 | 0x0305 | 0x0402 | 0x0602 | 0x0605 | 0x0606 | 0x060A | 0x0701 | 0x0802 => some 1
  | 0x0202 | 0x0403 | 0x0404 | 0x0406 | 0x0503 | 0x0504 | 0x0A02 => some 2
  | 0x0203 | 0x0704 | 0x0A03 | 0x0A05 => some 3
  | 0x0603 | 0x060C => some (queueSev unit)
  | 0x060B => some (b2n step.isSome)
  | _ => none

/-- `STEP` of a record: all ones for none. -/
def stepField (w : Nat) : Option Nat := if w = 2 ^ 64 - 1 then none else some (w % 2 ^ 48)

/-- ERROR_RECORD: a record arrives at the CPC's queue. Its consequence took effect at its detector (R434, log 14). -/
def execErrorRecord (stop : Fin 36) (code unit : BitVec 16) (step detail0 detail1 : W64) (s : State) : Host.Outcome State Fault Refusal :=
  let t := stepField step.toNat
  match sevOf code.toNat unit.toNat t with
  | none => .next s
  | some v =>
    let (time, s) := s.stamp
    .next (enqueueErr s { code := code.toNat, sev := v, source := stop, unit := unit.toNat, step := t, d0 := detail0.toNat, d1 := detail1.toNat,
                          time := time, timeValid := s.on ptpStatLocked })

/-- The 48 bytes of a record (R431). -/
def errBytes (e : ErrRec) : List Byte :=
  natLe 2 e.code ++ natLe 1 e.sev ++ natLe 1 (b2n e.injected + 2 * b2n e.timeValid + 4 * b2n e.merged) ++ natLe 1 e.source ++ natLe 1 0 ++
  natLe 2 e.unit ++ natLe 4 e.seq ++ natLe 4 e.count ++
  natLe 8 (match e.step with | some t => t % 2 ^ 48 | none => 2 ^ 64 - 1) ++ natLe 8 e.d0 ++ natLe 8 e.d1 ++ natLe 8 e.time

/-- ERROR_RECORD_MOVE: under `EVT_EN` the head record moves to the event buffer when that has room (R435). -/
def execErrorRecordMove (s : State) : Host.Outcome State Fault Refusal :=
  match s.errq with
  | [] => .next s
  | e :: rest =>
    if s.on evtCfgEvtEn ∧ s.evbuf.length < 4096 then .next (pushEvent { s with errq := rest } 2 e.source (errBytes e)) else .next s

/-- ERR_POP: ignored under `EVT_EN` and on an empty queue (R435). -/
def execErrPop (s : State) : Host.Outcome State Fault Refusal := if s.on evtCfgEvtEn then .next s else .next { s with errq := s.errq.drop 1 }

/-! ## Injection: what may be armed (R436-R438, R471) -/

/-- Methods of R437. -/
inductive Method where
  | f1 | f2 | w | x | s | t | p
  deriving DecidableEq, Repr

/-- The method of a code (R436), none for an unknown code. -/
def methodOf (code : Nat) : Option Method :=
  match code with
  | 0x0101 | 0x0105 | 0x0106 => some .f1
  | 0x0102 | 0x0103 | 0x0104 | 0x0107 | 0x0108 => some .f2
  | 0x0A04 => some .w
  | 0x0201 | 0x0202 | 0x0301 | 0x0302 | 0x0901 | 0x0902 => some .x
  | 0x0407 | 0x0501 | 0x0502 | 0x0503 | 0x0604 | 0x0805 | 0x0806 => some .s
  | 0x0303 | 0x0305 | 0x0401 | 0x0402 | 0x0403 | 0x0404 | 0x0405 | 0x0406 | 0x0504 | 0x060A | 0x0702 | 0x0703 | 0x0704 | 0x0801 | 0x0802 | 0x0803
  | 0x0A01 | 0x0A02 | 0x0A03 | 0x0A05 => some .t
  | c => if (sevOf c 0 none).isSome then some .p else none

/-- Modes of R471. -/
def modeOk (m : Method) (mode : Nat) : Bool :=
  match m with
  | .f1 | .f2 | .t => decide (mode = 0 ∨ mode = 1)
  | .w => decide (mode = 0)
  | .x => decide (mode ≤ 2)
  | .s => decide (mode = 0 ∨ mode = 2)
  | .p => false

/-- An injection as software asks for it: what `INJ_CTRL`, `INJ_TARGET` and `INJ_VALUE` say. -/
structure Shot where
  code : Nat
  mode : Nat
  count : Nat
  stop : Nat
  unit : Nat
  value : Nat
  deriving DecidableEq, Repr

/-- Units that one injection names: `COUNT` under `MODE` 1, else one. -/
def Shot.units (j : Shot) : Nat := if j.mode = 1 then j.count else 1
/-- Kind and index of `UNIT` (R432). -/
def Shot.kind (j : Shot) : Nat := j.unit / 4096
def Shot.idx (j : Shot) : Nat := j.unit % 4096

/-- Is the codes' store a stack (R438)? -/
def stackCode (code : Nat) : Bool := [0x0105, 0x0106, 0x0107, 0x0108, 0x0A04].contains code
def cacheCode (code : Nat) : Bool := [0x0103, 0x0104].contains code

/-- Does the address lie in the store that the code's detector watches, in the region that `STOP` names (R438)? -/
def inStore (s : State) (j : Shot) (a : Nat) : Bool :=
  match homeOf s a with
  | none => false
  | some h =>
    decide (regionOf h = j.stop) &&
    (if cacheCode j.code then inStack h && (tabFind (h / 256) s.lines).isSome
     else if stackCode j.code then inStack h && (decide (j.code ≠ 0x0A04) || inParity s j.stop (h % 0x2000000000))
     else !inStack h)

/-- Addresses of the units or words that F1, F2 and W take, ascending (R437). -/
def shotAddrs (j : Shot) : List Nat :=
  (List.range j.units).map (fun i => if stackCode j.code then j.value / 64 * 64 + 64 * i else j.value / 8 * 8 + 8 * i)

/-- Running members of a seam, and how many of them an injection of `SEAM_LOST` trips (R437). -/
def seamRunning (s : State) (m : Seam) : List Nat := (m.members.filter (fun n => !m.folded.contains n && running s n)).foldl (fun l n => setIns n l) []
def seamTrips (s : State) (m : Seam) : Nat := if endurance s && m.pbValid then 3 else 2

/-- Does the stop that `STOP` names carry the detector, and does the unit that `UNIT` names exist there (R438)? Under `MODE` 1 every further
unit must exist too (log 41). -/
def targetOkFor (s : State) (j : Shot) : Bool :=
  let n := j.units
  let region := decide (j.stop < 32)
  let die := decide (32 ≤ j.stop ∧ j.stop < 36)
  let kind := fun (k top : Nat) => decide (j.kind = k ∧ j.idx + n ≤ top)
  let one := fun (k top : Nat) => decide (j.kind = k ∧ j.idx < top)
  let bay := fun (b : Nat) => one 4 8 && decide (j.stop = bayStop b) && s.on (casStatPresent (b / 2) (b % 2))
  match j.code with
  | 0x0201 | 0x0202 => decide (j.stop < 36) && one 5 16
  | 0x0301 | 0x0302 => die && one 3 128 && decide (j.idx % 64 / 16 = j.stop - 32) && (decide (j.idx < 64) || breakout s (j.idx % 64))
  | 0x0303 => die && kind 12 4096 && (range' j.idx n).all (fun p => decide (p / 1024 = j.stop - 32) && peerValid (s.peer p))
  | 0x0305 => region && kind 12 4096 && (range' j.idx n).all (fun k => seValid (s.strm k) &&
      (tensorOf s (seTensor (s.strm k))).any (fun e => decide (regionAt s (tnBase e) = j.stop)))
  | 0x0401 | 0x0402 | 0x0403 => region && one 7 4
  | 0x0405 => decide (j.stop = 33) && kind 10 8
  | 0x0406 => kind 10 8 && (decide (j.stop = 33) || (region && decide (j.stop / 4 = j.idx)))
  | 0x0407 => decide (j.stop = 33 ∧ j.unit = 0)
  | 0x0501 => region && one 8 16
  | 0x0502 => region && one 8 24 && decide (16 ≤ j.idx)
  | 0x0503 => region && decide (j.kind = 8 ∧ (j.idx < 16 ∨ j.idx = 24))
  | 0x0604 => decide (j.stop = 33 ∧ j.kind = 8 ∧ (j.idx < 16 ∨ j.idx = 24)) && !(voters s).isEmpty
  | 0x0504 => region && kind 8 16
  | 0x0404 | 0x060A => region && decide (j.unit = 0)
  | 0x0A01 | 0x0A02 => decide (j.stop + n ≤ 32 ∧ j.unit = 0)
  | 0x0702 | 0x0703 | 0x0704 => decide (j.stop = rootSource s ∧ j.unit = 0)
  | 0x0801 => bay j.idx && decide (j.value + n ≤ 16)
  | 0x0802 => die && (if j.kind = 3 then decide (j.idx < 64 ∧ j.idx / 16 = j.stop - 32 ∧ j.idx % 16 + n ≤ 16)
      else one 4 8 && decide (j.stop = bayStop j.idx ∧ j.value + n ≤ 16))
  | 0x0803 | 0x0805 => bay j.idx
  | 0x0806 => if j.kind = 8 then die && decide (j.idx = 25) && [0, 1].any (fun b => s.on (casStatPresent (j.stop - 32) b)) else bay j.idx
  | 0x0901 | 0x0902 => meterFitted s && decide (j.stop = 33 ∧ j.unit = 0)
  | 0x0A03 => die && decide (j.stop + n ≤ 36 ∧ j.unit = 0)
  | 0x0A05 => kind 9 16 && (range' j.idx n).all (fun i =>
      decide ((s.seam i).st ≠ 0 ∧ seamTrips s (s.seam i) ≤ (seamRunning s (s.seam i)).length))
  | _ => region && (shotAddrs j).all (inStore s j)

/-- Is the arm refused (R438)? -/
def shotRefused (s : State) (j : Shot) : Bool :=
  match methodOf j.code with
  | none => true
  | some m =>
    !s.on injCtrlInjEn || s.inj.isSome || !modeOk m j.mode || (decide (j.code = 0x0704) && sealed s) ||
    (decide (j.stop < 32 ∧ j.code ≠ 0x0A05) && excluded s j.stop) || !targetOkFor s j

/-! ## Injection: what fires (R437, R439) -/

/-- The device that a flip of the whole injection goes into: the one that `UNIT` names, else a free one (log 41). -/
def flipAt (s : State) (j : Shot) : Nat :=
  if stackCode j.code then
    if j.kind = 11 ∧ j.idx < 18 then j.idx else (Config.freeWord s.tick).toNat % 18
  else (Config.freeWord s.tick).toNat % 64

/-- One flip in the unit or word at a device address: a second error in a unit makes it uncorrectable (R439). -/
def flipUnit (s : State) (j : Shot) (dev a : Nat) : State :=
  match homeOf s a with
  | none => s
  | some h =>
    if s.get (clkStatRstate (regionOf h)) = 0 then s
    else if cacheCode j.code then
      { s with lines := s.lines.map (fun e => if e.1 = h / 256 then (e.1, { e.2 with bad := setIns (h % 256 / 8) e.2.bad, inj := true }) else e) }
    else
      let k := h / unitBytes h * unitBytes h
      let m := tabGet {} k s.marks
      let two := methodOf j.code = some .f2 ∨ m.ue ∨ m.ce.isSome
      { s with marks := tabPut k (if two then { ue := true, inj := true } else { ce := some dev, inj := true }) s.marks }

/-- W: the parity unit at a device address with bit 0 inverted and consistent ECC; no delta is sent (R437). -/
def flipParity (s : State) (a : Nat) : State :=
  match homeOf s a with
  | none => s
  | some h =>
    let k := h / 64 * 64
    if s.get (clkStatRstate (regionOf h)) = 0 then s
    else
      let b := tabRange 0 s.mem k 64
      let s := replaceUnit s k ((b.getD 0 0 ^^^ 1) :: b.drop 1)
      { s with marks := tabPut k { inj := true } s.marks }

/-- T: the forced output of one unit, the `i`-th of the injection. -/
def forceUnit (j : Shot) (s : State) (i : Nat) : State :=
  match j.code with
  | 0x0303 => qpFault s (j.idx + i) true
  | 0x0305 => wtLost s.tock (j.idx + i) ((Config.freeWord s.tick).toNat % 2 ^ 32) true
  | 0x0401 | 0x0402 | 0x0403 => cellFail s j.stop j.idx true
  | 0x0404 | 0x060A => s2Trip s.tock j.stop ((Config.freeWord s.tick).toNat % 3) true
  | 0x0405 => convFail s (j.idx + i) true
  | 0x0406 => segShort s (j.idx + i) true
  | 0x0504 => hwTrip s j.stop (j.idx + i) true
  | 0x0702 => raiseErr s.tock 0x0702 0 (rootSource s) 0 none 0 (Config.freeWord s.tick).toNat true
  | 0x0703 => rootFail s false true true
  | 0x0704 => rootFail s false false true
  | 0x0801 => laserFail s j.idx (j.value + i) true
  | 0x0802 =>
    let l := if j.kind = 3 then j.idx % 16 + i else j.value + i
    laserFail (laserFail s (2 * (j.stop - 32)) l true) (2 * (j.stop - 32) + 1) l true
  | 0x0A05 =>
    let m := s.seam (j.idx + i)
    ((seamRunning s m).take (seamTrips s m)).foldl (fun s n => s2Trip s.tock n ((Config.freeWord s.tick).toNat % 3) true) s
  | _ => s

/-- Firings that the `i`-th unit makes. -/
def forceCount (s : State) (j : Shot) (i : Nat) : Nat := if j.code = 0x0A05 then seamTrips s (s.seam (j.idx + i)) else 1

/-- `FIRED` and `FIRED_N`. -/
def countFired (s : State) (n : Nat) : State := (s.put injStatusFired 1).bump injStatusFiredN n

/-- The injection stays armed, with `left` firings to come; none while a time runs. -/
def stayArmed (s : State) (j : Shot) (left : Option Nat) : State :=
  { s with inj := some { code := j.code, mode := j.mode, stop := j.stop, unit := j.unit, value := j.value, left := left } }.puts
    [(injCtrlArm, 1), (injStatusArmed, 1)]

/-- The input monitor's own reading again; one that took the power away has no window left. -/
def realInput (s : State) (inj : Bool) : State := inputReads s s.inputMv s.inputRev inj

/-- S: the action that a forced reading drives at once; it covers the monitor until the window ends, and the region monitors act at their
next sample (R437, log 41). -/
def forceReading (s : State) (j : Shot) : State :=
  match j.code with
  | 0x0407 =>
    let s := inputReads s (j.value % 65536 * 10) false true
    if forcedInput s then s else realInput s false
  | 0x0805 => settleLife s j.idx
  | 0x0806 => casTemp s j.idx (j.value % 256) true
  | _ => s

/-- The monitor's own reading again at the end of the window. -/
def endReading (s : State) (code unit : Nat) : State :=
  match code with
  | 0x0407 => realInput s false
  | 0x0805 => settleLife s (unit % 4096)
  | 0x0806 => casTemp s (unit % 4096) (s.bay (unit % 4096)).temp false
  | _ => s

/-- The one monitor that an injection covers where its target leaves that open (log 41): of the two bays of a port die a free choice, and for
`GATE_TIMEOUT`, whose `STOP` is the gate's, the monitor of the lowest voter. -/
def aimShot (s : State) (j : Shot) : Shot × State :=
  if j.code = 0x0604 then ({ j with stop := ((voters s).head?).getD 0 }, s)
  else if j.code = 0x0806 ∧ j.kind = 8 then
    let (c, s) := s.choose
    let b := 2 * (j.stop - 32)
    let low := (c && s.on (casStatPresent (j.stop - 32) 0)) || !s.on (casStatPresent (j.stop - 32) 1)
    ({ j with unit := bayUnit (if low then b else b + 1) }, s)
  else (j, s)

/-- An accepted arm: F1, F2, W and T fire now, but for the detectors that act at a reset or at a `REAUTH`; X and S stay armed. -/
def fireShot (s : State) (j : Shot) : State :=
  let s := s.put injStatusFiredN 0
  match methodOf j.code with
  | some .f1 | some .f2 =>
    let dev := flipAt s j
    countFired ((shotAddrs j).foldl (fun s a => flipUnit s j dev a) s.tock) j.units
  | some .w => countFired (flipParity s j.value) 1
  | some .x => stayArmed s j (if j.mode = 2 then none else some j.units)
  | some .s =>
    let (j, s) := aimShot s j
    forceReading (countFired (stayArmed s j none) 1) j
  | _ =>
    if j.code = 0x0803 then stayArmed s j (some j.units)
    else if [0x0A01, 0x0A02, 0x0A03].contains j.code then
      { stayArmed s j (some j.units) with bootInj := (range' j.stop j.units).map (fun st => (j.code, st)) }
    else
      let (s, n) := (List.range j.units).foldl (fun (acc : State × Nat) i => (forceUnit j acc.1 i, acc.2 + forceCount acc.1 j i)) (s, 0)
      settleGate (countFired s n)

/-- INJ_ARM: a write of `INJ_CTRL`. `COUNT` 0 is out of range, and the whole word is ignored (R441); `INJ_EN` stands after the seal. -/
def execInjArm (value : W64) (s : State) : Host.Outcome State Fault Refusal :=
  let v := value.toNat
  let count := field v 32 16
  if count = 0 then .next s
  else
    let s := s.puts [(injCtrlCode, field v 0 16), (injCtrlMode, field v 16 2), (injCtrlCount, count)]
    let s := if sealed s then s else s.put injCtrlInjEn (field v 63 1)
    if !bitAt v 18 then .next s
    else
      let j : Shot := { code := field v 0 16, mode := field v 16 2, count := count, stop := s.get injTargetStop, unit := s.get injTargetUnit
                        value := s.get injValueValue }
      if shotRefused s j then .next (s.put injStatusRejected 1) else .next (fireShot s j)

/-- INJ_WINDOW_END: the time of a `MODE` 2 injection, or the 1 ms of a reading forced once, has passed (R471): the monitor reads what it
measures again. -/
def execInjWindowEnd (s : State) : Host.Outcome State Fault Refusal :=
  match s.inj with
  | none => .next s
  | some j => if j.left.isNone then .next (endReading ({ s with inj := none }.puts [(injCtrlArm, 0), (injStatusArmed, 0)]) j.code j.unit) else .next s

end Sys2Proof.Machine
end

