-- ==== Sys2Proof/Machine/Regs.lean ====
section
/-! DEFINITION. Reads and writes of register space (R9, R20, R351, R440-R448). -/
namespace Sys2Proof.Machine

/-- The state that a meaning answers, for a register write that runs it. -/
def after (o : Host.Outcome State Fault Refusal) (s : State) : State :=
  match o with
  | .next t => t
  | _ => s

/-! ## Read-only fields that other state determines -/

/-- Converters that deliver (R325). -/
def convUp (s : State) : Nat := if s.get bootStatusStep = 0 ∨ s.inputStop ≠ 0 then 0 else 255 - maskOf s.convDead

/-- `REGION_STATE`: two bits for each region. -/
def regionStates (s : State) : Nat :=
  (List.range 32).foldl (fun v r =>
    let x := s.get (clkStatRstate r)
    v + (if x = 3 then 2 else if x = 4 then 3 else x % 4) * 4 ^ r) 0

/-- `SEAM_STATE`: four bits for each seam. -/
def seamStates (s : State) : Nat := (List.range 16).foldl (fun v i => v + (s.seam i).st * 16 ^ i) 0

/-- `PMODE` and `PSIZE` of a die's four partitions (R40). -/
def partsOf (s : State) (d : Nat) : Nat :=
  (List.range 4).foldl (fun v p =>
    v + (getLe (secOf s 7) (16 * d + 4 * p) 1 % 4 + getLe (secOf s 7) (16 * d + 4 * p + 1) 1 % 32 * 4) * 256 ^ p) 0

/-- Retained units of a die, and those that keep accumulator-buffer mode (R199). -/
def retUnits (s : State) (d : Nat) : List Nat := (List.range 16).filter (fun u => (tabFind (d * 16 + u) s.retained).isSome)

/-- The head command of a queue waits on tokens. -/
def headWaits (s : State) (r q : Nat) : Bool :=
  match headCmd (s.hub r) q with
  | some l => (cmdWaits l.bytes).any (fun w => decide (s.get (tokenValue r w.token) < w.threshold))
  | none => false

/-- Read-only fields of a word that are not kept in the register file. -/
def liveFields (s : State) : RegPlace → List (Fld × Nat)
  | .global off =>
    match off with
    | 0x0808 => [(gateVotersVoters, maskOf (voters s))]
    | 0x1808 => [(pwrCuffEffCuffW, effModule s)]
    | 0x1810 => [(pwrConvConvUp, convUp s)]
    | 0x1C08 => [(regionStateRstate, regionStates s)]
    | 0x2008 => [(seamStateState, seamStates s)]
    | 0x4400 => [(errStatusFill, s.errq.length)]
    | _ => []
  | .region r off =>
    if 0x100000 ≤ off ∧ off < 0x100200 ∧ off % 0x40 = 0x20 then
      let q := (off - 0x100000) / 0x40
      [(qStatusWaiting r q, b2n (headWaits s r q)), (qStatusLive r q, liveOf (s.hub r) q)]
    else if 0x101000 ≤ off ∧ off < 0x101400 ∧ off % 0x40 = 0x20 then
      let c := (off - 0x101000) / 0x40
      [(cqStatusFullStall r c, b2n ((s.hub r).reqs.any (fun x => decide (x.cq = c) && writesRecord s r x && cqFull s r c)))]
    else if 0x200000 ≤ off ∧ off < 0x200300 then
      let x := (off - 0x200000) / 8
      let c := s.cluster r x
      [(mxeXstatTqFill r x, c.tq.length), (mxeXstatBusy r x, b2n c.mxe.isSome), (mxeXstatHeld r x, b2n c.held.isSome)]
    else if 0x201000 ≤ off ∧ off < 0x201300 then
      let x := (off - 0x201000) / 8
      [(veXstatBusy r x, b2n (s.cluster r x).ve.isSome)]
    else if 0x300040 ≤ off ∧ off < 0x300050 then
      let d := (off - 0x300040) / 8
      let u := (s.upe r d).run
      [(upeStatBusy r d, b2n u.isSome), (upeStatWaitVerdict r d, b2n (u.any (fun x => decide (x.phase = 0))))]
    else if 0x380000 ≤ off ∧ off < 0x380010 then
      let d := (off - 0x380000) / 8
      let l := retUnits s (2 * r + d)
      [(llmLayoutParts r d, partsOf s (2 * r + d)), (llmLayoutRetMask r d, maskOf l),
       (llmLayoutRetAcc r d, maskOf (l.filter (fun u => decide (unitMode s (2 * r + d) u = 3))))]
    else if 0x400000 ≤ off ∧ off < 0x404000 then
      let h := (off - 0x400000) / 0x100
      let c := s.chan r h
      if off % 0x100 = 0x10 then
        [(chStatusBusy r h, b2n c.xfer.isSome), (chStatusBarWait r h, b2n (c.xfer.any (·.barWait))), (chStatusFifoFill r h, c.fifo.length)]
      else if off % 0x100 = 0x18 then [(chOffsetNextOff r h, (c.xfer.map (·.next)).getD 0)] else []
    else
      match off with
      | 0x300018 =>
        let f := s.flow r
        let open' := fun (l : List Nat) => l.filter (fun t => decide (f.done ≤ t))
        [(dfStatusNfEven r, b2n ((open' f.nf).any (fun t => decide (t % 2 = 0)))), (dfStatusNfOdd r, b2n ((open' f.nf).any (fun t => decide (t % 2 = 1)))),
         (dfStatusFailPend r, b2n !(open' f.fail).isEmpty)]
      | 0x300020 =>
        [(panStatusOccupancy r, occupancy (s.pan r).entries), (panStatusEntries r, (s.pan r).entries.length), (panStatusPolicy r, panPolicy s r)]
      | 0x340018 => [(predStatPredBusy r, b2n ((List.range 96).any (fun cl => (s.cluster r cl).pred.isSome)))]
      | 0x480000 =>
        [(stopStatFreewheel r, b2n (freewheels s r)), (stopStatPosition r, posOf r), (stopStatHeldSig r, (s.stop r).signals.length)]
      | 0x500008 => [(pwrRcuffEffRcuffW r, (effRegion s r).getD 0)]
      | _ => []
  | .die k off =>
    if off = 0x480000 then [(stopStatPosition (32 + k), posOf (32 + k)), (stopStatHeldSig (32 + k), (s.stop (32 + k)).signals.length)]
    else if 0x100000 ≤ off ∧ off < 0x101000 ∧ off % 0x100 = 0x08 then
      let p := (off - 0x100000) / 0x100
      [(portStatHeld k p, b2n (heldHalf s (16 * k + p) 0 || (breakout s (16 * k + p) && heldHalf s (16 * k + p) 1))),
        (portStatMacsecUp k p, b2n (!(s.sec (16 * k + p) 0).rx.isEmpty) + 2 * b2n (!(s.sec (16 * k + p) 1).rx.isEmpty))]
    else []
  | .mirror _ => []

/-! ## Reads -/

/-- What a read of a field returns: write-only fields read zero. -/
def readField (s : State) (live : List (Fld × Nat)) (f : Fld) : Nat :=
  match live.find? (fun e => decide (e.1 = f)) with
  | some e => e.2 % 2 ^ f.w
  | none => if f.ty = .wo then 0 else s.get f

/-- Registers that are served while their region is parked or off: ring stop, power, and clocks (R351). -/
def alwaysServed (off : Nat) : Bool :=
  decide (0x480000 ≤ off ∧ off < 0x4800A8 ∨ 0x500000 ≤ off ∧ off < 0x500020 ∨ 0x580000 ≤ off ∧ off < 0x5801E0)

/-- Is a word of a block served (R351, R448, R424, R417)? One that is not reads zero and ignores writes. -/
def served (s : State) : RegPlace → Bool
  | .global _ => true
  | .region r off => built s r && (alwaysServed off || decide (mapSt s r = .running))
  | .die k _ => !s.pdOff.contains k
  | .mirror _ => meterFitted s

/-- A word of a stretch of bytes. -/
def wordOf (b : List Byte) (o : Nat) : Nat := getLe b o 8

/-- Words that hold bytes: certificates, the quote, the head record, tables, the mirror. -/
def byteWord (s : State) : RegPlace → Option Nat
  | .global off =>
    if 0x3000 ≤ off ∧ off < 0x3340 then some (wordOf s.idCert (off - 0x3000))
    else if 0x3400 ≤ off ∧ off < 0x37A0 then some (wordOf s.quote (off - 0x3400))
    else if 0x3800 ≤ off ∧ off < 0x3B40 then some (wordOf s.ktCert (off - 0x3800))
    else if 0x4440 ≤ off ∧ off < 0x4470 then some (wordOf ((s.errq.head?.map errBytes).getD []) (off - 0x4440))
    else none
  | .die k off =>
    if 0x200000 ≤ off ∧ off < 0x210000 then
      let p := 1024 * k + (off - 0x200000) / 0x40
      let x := s.peer p
      let e := patch x.entry 0 (natLe 1 (getLe x.entry 0 1 % 4 + 4 * b2n x.err))
      some (wordOf e (off % 0x40))
    else if 0x300000 ≤ off ∧ off < 0x308000 then some (wordOf (s.strm (1024 * k + (off - 0x300000) / 0x20)).entry (off % 0x20))
    else if 0x400000 ≤ off ∧ off < 0x402000 ∧ 0x800 ≤ off % 0x1000 ∧ off % 0x1000 < 0xB40 then
      some (wordOf (s.bay (2 * k + (off - 0x400000) / 0x1000)).cert (off % 0x1000 - 0x800))
    else none
  | .mirror off =>
    if off < 0x240 then some (wordOf s.mirror.reading off)
    else if 0x400 ≤ off ∧ off < 0x610 then some (wordOf s.mirror.swid (off - 0x400))
    else if 0x800 ≤ off ∧ off < 0xB40 then some (wordOf s.mirror.cert (off - 0x800))
    else if 0x100000 ≤ off ∧ off < 0x200000 then some (wordOf (tabGet [] ((off - 0x100000) / 128) s.mirror.log) (off % 128))
    else none
  | .region _ _ => none

/-- A read of the 64-bit word at a place; unassigned offsets read zero (R440). -/
def readWord (s : State) (pl : RegPlace) : Nat :=
  if !served s pl then 0
  else match byteWord s pl with
    | some v => v
    | none => (placeFields pl).foldl (fun v f => v + readField s (liveFields s pl) f * 2 ^ f.lo) 0

/-! ## Writes -/

/-- A field takes its part of a written word, by its type code (R9): RWK fields stand after the seal. -/
def writeField (v : Nat) (s : State) (f : Fld) : State :=
  let x := field v f.lo f.w
  match f.ty with
  | .rw | .rws => s.put f x
  | .rwk => if sealed s then s else s.put f x
  | .w1c => s.put f (s.get f - (s.get f &&& x))
  | .ro | .wo => s

/-- Ranges that the register tables state: a word with a value outside one is ignored whole (R441). -/
def inRanges (pl : RegPlace) (v : Nat) : Bool :=
  let fits := fun (lo w a b : Nat) => decide (a ≤ field v lo w ∧ field v lo w ≤ b)
  match pl with
  | .global off =>
    match off with
    | 0x0800 => fits 0 24 1000 1000000
    | 0x2000 => fits 0 8 0 168
    | 0x2018 => fits 0 16 1 65535
    | 0x4020 => fits 0 2 0 2
    | 0x4418 => fits 0 16 1 65535
    | _ => true
  | .region _ off =>
    match off with
    | 0x100808 => fits 0 24 100 10000000
    | 0x300010 => fits 48 16 0 4096
    | 0x380048 => fits 0 8 1 168
    | 0x380050 => fits 16 8 85 95
    | 0x404000 => fits 0 24 100 1000000
    | 0x580008 => fits 0 8 95 105 && fits 8 8 1 20
    | 0x600000 => fits 48 16 0 4096
    | _ => true
  | _ => true

/-- The writable fields of a word. -/
def writeFields (s : State) (pl : RegPlace) (v : Nat) : State := (placeFields pl).foldl (writeField v) s

/-- A meaning runs where a bit of the written word is set. -/
def whenBit (v i : Nat) (m : State → Host.Outcome State Fault Refusal) (s : State) : State := if bitAt v i then after (m s) s else s

/-- A write of `EVT_HEAD`: one that passes the tail is ignored (R298). -/
def evtHeadWrite (s : State) (v : Nat) : State :=
  let m := 2 ^ (s.get evtCfgLog2N + 1)
  let h := v % 2 ^ 21
  if h < m ∧ (h + m - s.get evtHeadHead % m) % m ≤ evtFill s then s.put evtHeadHead h else s

/-- The reset that `RESET_CTRL` asks for. What start-up finds in the hardware is free (log 45). -/
def resetGo (s : State) : State :=
  let t := s.get resetCtrlTarget
  match s.get resetCtrlKind with
  | 0 => after (execColdReset (Config.bootReport s.tick) s.tock) s
  | 1 => after (execModuleWarmReset (Config.bootReport s.tick) s.tock) s
  | 2 => if h : t < 32 then after (execRegionReset ⟨t, h⟩ s) s else s
  | _ => if h : t < 64 then after (execPortReset ⟨t, h⟩ (if s.on resetCtrlHalf then 1 else 0) s) s else s

/-- Words of the global block whose writes do more than set fields. Several commands in one word act in ascending bit order (log 45). -/
def globalWrite (s : State) (path : Path) (off v : Nat) : State :=
  let plain := writeFields s (.global off) v
  if 0x3C00 ≤ off ∧ off < 0x4000 then { s with cmdBuf := patch (padTo 1024 s.cmdBuf) (off - 0x3C00) (natLe 8 v) }
  else match off with
  | 0x0410 => whenBit v 0 execLoad s
  | 0x0C08 =>
    let t := BitVec.ofNat 16 v
    let s := after (execArm t (bitAt v 17) s) s
    whenBit v 16 (execGo t) s
  | 0x1400 => after (execEvtCfgWrite (w64 v) s) s
  | 0x1408 => if s.on evtCfgEvtEn then s else plain
  | 0x1418 => evtHeadWrite s v
  | 0x1808 => after (execPwrCuffWrite (w64 v) s) s
  | 0x1820 => if path = .firmware then plain else s
  | 0x1C00 => after (execReqModeWrite (BitVec.ofNat 2 v) s) s
  | 0x2000 =>
    let s := whenBit v 8 execRefreshNow plain
    whenBit v 28 (execFold ⟨field v 24 4 % 16, Nat.mod_lt _ (by decide)⟩) s
  | 0x2018 =>
    let plain := if !s.on snapCtrlSnapEn && plain.on snapCtrlSnapEn then { plain with snaps := { plain.snaps with since := plain.gate.next } } else plain
    let s := whenBit v 29 execSnapNow plain
    let s := whenBit v 30 execCkptGo s
    whenBit v 31 (fun s => execCkptRestore (Config.stored s.tick) (Config.storedManifest s.tick) s.tock) s
  | 0x2038 => whenBit v 5 (fun s => execRsGo (Config.stored s.tick) s.tock) plain
  | 0x2408 =>
    let s := if bitAt v 0 then ownerCommand s (ocOp (padTo 1024 s.cmdBuf)) else s
    let s := whenBit v 1 execAttGo s
    let s := whenBit v 2 execKtReq s
    let s := whenBit v 3 execSeqCommit s
    if field v 4 3 = 0 then s else after (execSvnCommit (BitVec.ofNat 3 (field v 4 3)) s) s
  | 0x4010 =>
    let s := whenBit v 10 execQuiesce plain
    if bitAt v 9 then resetGo s else s
  | 0x4020 =>
    let s := whenBit v 2 (execFwWrite ⟨field v 0 2 % 3, Nat.mod_lt _ (by decide)⟩) plain
    whenBit v 3 execFwActivate s
  | 0x4408 => whenBit v 0 execErrPop s
  | 0x4480 => after (execInjArm (w64 v) s) s
  | _ => plain

/-- Words of a region's block whose writes do more than set fields. -/
def regionWrite (s : State) (path : Path) (r : Fin 32) (off v : Nat) : State :=
  let plain := writeFields s (.region r off) v
  if h : 0x100000 ≤ off ∧ off < 0x100200 then
    let q : Fin 8 := ⟨(off - 0x100000) / 0x40, by omega⟩
    match off % 0x40 with
    | 0x00 => after (execQBaseWrite path r q (w64 v) s) s
    | 0x08 => after (execDoorbell path r q (BitVec.ofNat 11 v) s) s
    | 0x18 => after (execQCtrlWrite path r q (bitAt v 0) s) s
    | _ => if path = .rdma ∧ 4 ≤ q.val then s else plain
  else if h : 0x101000 ≤ off ∧ off < 0x101400 then
    let c : Fin 16 := ⟨(off - 0x101000) / 0x40, by omega⟩
    match off % 0x40 with
    | 0x00 => after (execCqBaseWrite r c (w64 v) s) s
    | 0x08 => after (execCqCtrlWrite r c (w64 v) s) s
    | 0x18 => after (execCqHeadWrite r c (w64 v) s) s
    | _ => plain
  else if h : 0x400000 ≤ off ∧ off < 0x404000 then
    let ch : Fin 64 := ⟨(off - 0x400000) / 0x100, by omega⟩
    match off % 0x100 with
    | 0x00 => after (execChPost path r ch (w64 v) s) s
    | 0x08 => after (execChShareWrite r ch (w64 v) s) s
    | _ => plain
  else match off with
  | 0x380010 => whenBit v 1 (execInv r) (whenBit v 0 (execWb r) s)
  | 0x380048 => whenBit v 8 (execScrubNow r) plain
  | 0x500008 => after (execPwrRcuffWrite r (w64 v) s) s
  | 0x600008 => whenBit v 1 (execResume r) s
  | _ => plain

/-- Words of a port die's block whose writes do more than set fields. -/
def dieWrite (s : State) (k off v : Nat) : State :=
  if 0x200000 ≤ off ∧ off < 0x210000 then writePeerWord s (1024 * k + (off - 0x200000) / 0x40) (off % 0x40 / 8) (natLe 8 v)
  else if 0x300000 ≤ off ∧ off < 0x308000 then writeStreamWord s (1024 * k + (off - 0x300000) / 0x20) (off % 0x20 / 8) (natLe 8 v)
  else if h : k < 4 ∧ (off = 0x400008 ∨ off = 0x401008) then
    let bay : Fin 8 := ⟨2 * k + (off - 0x400008) / 0x1000, by omega⟩
    whenBit v 2 (execReauth bay) (whenBit v 0 (execRelease bay (bitAt v 1)) s)
  else writeFields s (.die k off) v

/-- A write of the 64-bit word at a place (R440, R441, R446). -/
def writeWord (s : State) (path : Path) (pl : RegPlace) (v : Nat) : State :=
  if !served s pl || !inRanges pl v then s
  else match pl with
    | .global off => globalWrite s path off v
    | .region r off => if h : r < 32 then regionWrite s path ⟨r, h⟩ off v else s
    | .die k off => dieWrite s k off v
    | .mirror _ => s

/-- REGISTER_WRITE: a misaligned address names no register, and one outside every block is an address fault (R440); nothing is
written. -/
def execRegisterWrite (path : Path) (addr value : W64) (s : State) : Host.Outcome State Fault Refusal :=
  match regPlace addr.toNat with
  | none => .next s
  | some pl => if addr.toNat % 8 = 0 ∧ started s then .next (writeWord s path pl value.toNat) else .next s

/-! ## Messages of firmware (R255, R446) -/

/-- Does the stop hold the block of a place? The global block and the mirror are reached through any port die (log 45). -/
def atStop (st : Nat) : RegPlace → Bool
  | .region r _ => decide (st = r)
  | .die k _ => decide (st = 32 + k)
  | _ => decide (32 ≤ st)

/-- MGMT: a stop that freewheels discards it (R267); a register access of CPC firmware acts at its stop; a read and a marker (R349) change nothing there. -/
def execMgmt (stop : Fin 36) (msg : MgmtMsg) (s : State) : Host.Outcome State Fault Refusal :=
  if freewheels s stop then .next (s.bump (stopUndelivUndeliv stop) 1)
  else match msg with
  | .regWrite a v =>
    match regPlace a.toNat with
    | none => .next s
    | some pl => if a.toNat % 8 = 0 ∧ atStop stop pl then .next (writeWord s .firmware pl v.toNat) else .next s
  | .regRead _ | .marker _ => .next s

/-! ## The housekeeping port (R447) -/

/-- An answer with the message header of R416. -/
def housekeepingAnswer (s : State) (ty : Nat) (payload : List Byte) : State :=
  emit s (.housekeeping (natLe 2 ty ++ natLe 2 0 ++ natLe 4 payload.length ++ payload))

/-- Offsets of the global block that the port reads. -/
def housekeepingReads (off : Nat) : Bool := decide (off < 0x20 ∨ 0x4000 ≤ off ∧ off < 0x4028 ∨ 0x2400 ≤ off ∧ off < 0x2418) && decide (off % 8 = 0)

/-- REG_READ: any other offset is not answered (log 45). -/
def execRegRead (offset : W64) (s : State) : Host.Outcome State Fault Refusal :=
  if started s && housekeepingReads offset.toNat then .next (housekeepingAnswer s 1 (natLe 8 (readWord s (.global offset.toNat)))) else .next s

/-- PROV_WRITE. -/
def execProvWrite (count : Nat) (entries : List (List Byte)) (s : State) : Host.Outcome State Fault Refusal :=
  if !started s then .next s
  else if count = 0 ∨ 16 < count ∨ entries.length ≠ count ∨ entries.any (fun e => decide (e.length ≠ 64)) then
    .next (housekeepingAnswer s 2 (natLe 1 0x10))
  else if sealed s then .next (housekeepingAnswer s 2 (natLe 1 0x15))
  else .next (housekeepingAnswer { s with prov := entries } 2 (natLe 1 0x01))

end Sys2Proof.Machine
end

