-- ==== Sys2Proof/Machine/Access.lean ====
section
/-! DEFINITION. The module as RDMA responder (R291-R296, R351, R443, R444), and what ends the wait of a held request (R270, R353). -/
namespace Sys2Proof.Machine

/-! ## Memory regions (R35, R47, R294, R295) -/

/-- What an R_Key of the module names: base, length, access bits, classes. -/
def keyRange (s : State) (key : Nat) : Option (Nat × Nat × Nat × Nat) :=
  let nonce := s.get rdmaKeysKeyNonce
  if key / 2048 ≠ nonce then none
  else
    let i := key % 2048
    if i = 1024 then
      if s.get bsStageStageAddr = 0 then none else some (s.get bsStageStageAddr, 0x40000000, 2, 1)
    else ((memRegions (secOf s 3))[i]?).map (fun e => (mrBase e, mrLen e, mrAccess e, mrClasses e))

/-- The checks of R295 in order: key, range, access and class, address. `bit` is 0 for a read, 1 for a write. -/
def rangeOk (s : State) (port key addr len bit : Nat) : Bool :=
  match keyRange s key with
  | none => false
  | some (base, n, access, classes) =>
    inside addr len base n && bitAt access bit && decide (1 ≤ portClass s port) && bitAt classes (portClass s port - 1) && addrOk s addr len

/-! ## Answers -/

/-- The traffic class of an answer: that of its request, and register access is of class 1 (R287). -/
def answerClass (s : State) (key : Nat) : Nat := b2n (decide (key = regKey s))

/-- A request that the module cannot complete. -/
def failOperational (s : State) (p : Nat) : State := sendOn s p 0 (.nak p nakOperational)

/-- An answered request: its packets' sequence numbers have passed. -/
def answer (s : State) (p cls n : Nat) (o : Pkt) : State :=
  let x := s.peer p
  sendOn (s.setPeer p { x with rqPsn := (x.rqPsn + packets n) % 2 ^ 24 }) p cls o

/-! ## Register space (R443) -/

/-- Alignment, length, class of the port, and every address in some block. -/
def regSpaceOk (s : State) (port addr len : Nat) : Bool :=
  decide (addr % 8 = 0 ∧ len % 8 = 0 ∧ len ≤ 4096) && decide (portClass s port = 1) &&
  (List.range (len / 8)).all (fun i => (regPlace (addr + 8 * i)).isSome)

/-- The words of a write, ascending, while its port still passes frames: a reset in between ends it. -/
def regWrites (s : State) (src : PktSrc) (addr : Nat) (data : List Byte) : State :=
  ((chunksOf 8 (data.length / 8) data).zipIdx).foldl (fun s (b, i) =>
    match regPlace (addr + 8 * i) with
    | some pl => if portPasses s src.port (b2n src.half) then writeWord s .rdma pl (leNat b) else s
    | none => s) s

/-- The words of a read. -/
def regReads (s : State) (addr len : Nat) : List Byte :=
  (List.range (len / 8)).flatMap (fun i => natLe 8 (((regPlace (addr + 8 * i)).map (readWord s)).getD 0))

/-! ## Serving a request -/

/-- An immediate of R296: token, region, count; none where the request is invalid. -/
def immSignal (s : State) (imm : Nat) : Option (Nat × Nat × Nat) :=
  let r := field imm 12 5
  if field imm 17 8 = 0 ∨ field imm 25 7 ≠ 0 ∨ excluded s r then none else some (field imm 0 12, r, field imm 17 8)

/-- A WRITE, with the signal of its immediate: none while it must wait. -/
def serveWrite (s : State) (p : Nat) (src : PktSrc) (key addr : Nat) (data : List Byte) (imm : Option Nat) : Option State :=
  let cls := answerClass s key
  if key = regKey s then
    if imm.isSome then some (refuse s p cls nakInvalid)
    else if !regSpaceOk s src.port addr data.length then some (refuse s p cls nakAccess)
    else some (answer (regWrites s src addr data) p cls data.length (.ack p))
  else if !rangeOk s src.port key addr data.length 1 then some (refuse s p cls nakAccess)
  else if imm.any (fun v => (immSignal s v).isNone) then some (refuse s p cls nakInvalid)
  else match fateOf s addr data.length with
    | .off => some (failOperational s p)
    | .wait => none
    | .serve =>
      match writeMem s (noStep ((regionsOf s addr data.length).headD 0)) addr data with
      | (some .fault, s) => some (refuse s p cls nakAccess)
      | (some .uncorrectable, s) => some (failOperational s p)
      | (none, s) =>
        let s := match imm.bind (immSignal s) with
          | some (t, r, n) => pdSignal s (p / 1024) r t n
          | none => s
        some (answer s p cls data.length (.ack p))

/-- A READ: none while it must wait. -/
def serveRead (s : State) (p : Nat) (src : PktSrc) (key addr len : Nat) : Option State :=
  let cls := answerClass s key
  if key = regKey s then
    if !regSpaceOk s src.port addr len then some (refuse s p cls nakAccess)
    else some (answer s p cls len (.data p (regReads s addr len)))
  else if !rangeOk s src.port key addr len 0 then some (refuse s p cls nakAccess)
  else match fateOf s addr len with
    | .off => some (failOperational s p)
    | .wait => none
    | .serve =>
      match readMem s (noStep ((regionsOf s addr len).headD 0)) addr len with
      | (.error _, s) => some (failOperational s p)
      | (.ok b, s) => some (answer s p cls len (.data p b))

/-- A request, held or fresh. -/
def serveReq (s : State) (p : Nat) : HeldReq → Option State
  | .write src key addr data => serveWrite s p src key.toNat addr.toNat data none
  | .writeImm src key addr data imm => serveWrite s p src key.toNat addr.toNat data (some imm.toNat)
  | .read src key addr len => serveRead s p src key.toNat addr.toNat len

/-- Held requests of a queue pair are served in its order, up to the first that must still wait (R351, R444). -/
def serveHeld (s : State) (p : Nat) : Nat → State
  | 0 => s
  | fuel + 1 =>
    let x := s.peer p
    match x.held with
    | [] => s
    | q :: rest =>
      match serveReq (s.setPeer p { x with held := rest }) p q with
      | some s => serveHeld s p fuel
      | none => s

/-- Held requests of every queue pair, in ascending order of its index (log 45). -/
def serveAllHeld (s : State) : State :=
  ((s.peers.filter (fun e => !e.2.held.isEmpty)).map (fun e => (e.1, e.2.held.length))).foldl (fun s e => serveHeld s e.1 e.2) s

/-- A packet arrives: its entry, or a silent drop (R291); a queue pair in the error state takes nothing. -/
def arrive (s : State) (src : PktSrc) : Option Nat × State :=
  if !portPasses s src.port (b2n src.half) then (none, s)
  else match matchPeer s src with
    | none => (none, s.bump (portDropSliceDrop (src.port.val / 16) (src.port.val % 16)) 1)
    | some p => if (s.peer p).err then (none, s) else (some p, s)

/-- A request arrives: it is served, or held behind what its queue pair already holds. -/
def takeReq (s : State) (src : PktSrc) (q : HeldReq) : State :=
  match arrive s src with
  | (none, s) => s
  | (some p, s) =>
    let s := serveHeld s p (s.peer p).held.length
    let hold := fun (s : State) => s.setPeer p { s.peer p with held := (s.peer p).held ++ [q] }
    if (s.peer p).held.isEmpty then (serveReq s p q).getD (hold s) else hold s

/-- RDMA_WRITE. -/
def execRdmaWrite (src : PktSrc) (rkey : W32) (addr : W64) (data : List Byte) (s : State) : Host.Outcome State Fault Refusal :=
  .next (takeReq s src (.write src rkey addr data))

/-- RDMA_WRITE_WITH_IMMEDIATE. -/
def execRdmaWriteWithImmediate (src : PktSrc) (rkey : W32) (addr : W64) (data : List Byte) (imm : W32) (s : State) :
    Host.Outcome State Fault Refusal :=
  .next (takeReq s src (.writeImm src rkey addr data imm))

/-- RDMA_READ. -/
def execRdmaRead (src : PktSrc) (rkey : W32) (addr : W64) (len : Nat) (s : State) : Host.Outcome State Fault Refusal :=
  .next (takeReq s src (.read src rkey addr len))

/-- A Skojo message by its type (R302): a type that a server does not send is refused under R311. -/
def skMessage (s : State) (p : Nat) (h payload : List Byte) : State :=
  match hdType h with
  | 1 => skTake s p 1 h (openStep h)
  | 2 => skTake s p 2 h (pushWeights p h payload)
  | 3 => skTake s p 3 h (endWeights p h)
  | 8 => skTake s p 8 h (takeDrop p h)
  | 9 => skTake s p 9 h (addCredit h)
  | _ => skTake s p 0 h (fun _ _ => none)

/-- SEND: a Skojo message from a W-class peer, or an invalid request (R285, R296). -/
def execSend (src : PktSrc) (data : List Byte) (s : State) : Host.Outcome State Fault Refusal :=
  match arrive s src with
  | (none, s) => .next s
  | (some p, s) =>
    if 64 ≤ data.length then .next (skMessage s p (data.take 64) (data.drop 64)) else .next (refuse s p 0 nakInvalid)

/-! ## Ends of waits -/

/-- DERAIL_DONE: a run that ends frees the requests held for it. -/
def execDerailDone (s : State) : Host.Outcome State Fault Refusal := .next (serveAllHeld (derailEnd s))

/-- May a parked region resume (R338, R353, R354): cool enough, no longer parked for a cuff, 200 W of headroom, and no other region
parked for a cuff unless it was unparked? -/
def mayResume (s : State) (r : Nat) (d : Draws) : Bool :=
  decide (s.get (clkStatRstate r) = 3) && !s.on (clkStatParkCuff r) && !(s.on (clkStatParkTherm r) && tooHot s r) &&
  decide (200000 ≤ headroom s (r / 4) d) && ((s.plant r).unparked || decide (s.get pwrParkedParked = 0))

/-- RESUME_REGION: Admit, Rails, Refresh exit, Rejoin. Held signals are applied, and held requests served. -/
def execResumeRegion (r : Fin 32) (draws : Draws) (s : State) : Host.Outcome State Fault Refusal :=
  let s := measure s draws
  if !mayResume s r draws then .next s
  else
    let hot := s.on (clkStatParkTherm r)
    let s := s.puts [(clkStatRstate r, 1), (clkStatParkTherm r, 0), (clkStatRootMhz r, 1200), (pwrStatPstate r, 3)]
    -- the target that parked it starts again from 1200 MHz
    let s := retarget (updPlant s r (fun p => { p with
      thermMhz := if hot then some 1200 else p.thermMhz, cuffMhz := if p.unparked then some 1200 else p.cuffMhz, unparked := false, parkInj := false })) r
    let s := if hot && !s.on (thermStatThrottled r) then (s.put (thermStatThrottled r) 1).bump (thermStatThrottleEvents r) 1 else s
    let x := s.stop r
    let s := x.signals.foldl (fun s m => signalArrives s r m)
      (s.setStop r { x with signals := [] })
    .next (serveAllHeld s)

end Sys2Proof.Machine
end

