-- ==== Sys2Proof/Machine/Meter.lean ====
section
/-! DEFINITION. The Tvedot meter (R399-R418) and its mirror. The meter is sealed: nothing of the module writes to it. -/
namespace Sys2Proof.Machine

def updMeter (s : State) (f : Meter → Meter) : State := { s with meter := f s.meter }

/-! ## Records (R401, R411, R412) -/

/-- 0.1 Wh in mJ. -/
def tenthWh : Nat := 360000

/-- The signed identification record. -/
def swidRecord (m : Meter) : List Byte :=
  let b := ascii "TVDSWID1" ++ natLe 2 1 ++ natLe 6 0 ++ natLe 8 m.serial ++ padTo 16 (ascii "TVEDOT-LR") ++ natLe 6 m.version ++ natLe 2 0 ++ padTo 32 m.lrDigest ++
    padTo 32 m.paramDigest ++ padTo 32 m.taNumber
  b ++ padTo 384 (Config.meterSign b)

/-- Log entries not yet acknowledged. -/
def unacked (m : Meter) : Nat := m.logNext - m.logAcked

/-- The status word (R411). -/
def meterStatus (m : Meter) : Nat :=
  maskOf (([(0, !m.fault), (1, decide (m.account ≠ 0)), (2, m.sched.isSome), (3, m.cover), (4, m.housing), (5, m.magnetic), (6, m.service),
    (7, decide (8064 ≤ unacked m)), (8, decide (m.lost ≠ 0)), (9, m.fault), (10, m.key.isNone), (11, m.range)].filter (·.2)).map (·.1))

/-- Hash of the newest log entry, zero where there is none. -/
def logHead (m : Meter) : List Byte :=
  match tabFind (m.logNext - 1) m.log with
  | some e => if m.logNext = 0 then List.replicate 32 0 else sha256 e
  | none => List.replicate 32 0

/-- A signed reading with a nonce. -/
def readingOf (m : Meter) (nonce : List Byte) : List Byte :=
  let b := ascii "TVDREAD1" ++ natLe 2 1 ++ natLe 2 m.lost ++ natLe 4 (meterStatus m) ++ natLe 8 m.serial ++ natLe 8 m.epoch ++ natLe 8 m.utc ++
    natLe 8 (m.total / tenthWh) ++ natLe 8 (m.idle / tenthWh) ++ natLe 8 (m.acct / tenthWh) ++ natLe 16 m.account ++ natLe 8 m.openEpoch ++
    natLe 8 (m.logNext - 1) ++ logHead m ++ sha256 (swidRecord m) ++ padTo 32 nonce
  b ++ padTo 384 (Config.meterSign b)

/-- An event is logged, or counted as lost where the log has no room for it (R413): the last 128 places take only the types 3 to 11. -/
def logEvent (m : Meter) (ty arg account acct : Nat) (data : List Byte) : Meter :=
  if 8192 ≤ unacked m ∨ (8064 ≤ unacked m ∧ (ty < 3 ∨ 11 < ty)) then { m with lost := satAdd 16 m.lost 1 }
  else
    let e := natLe 8 m.logNext ++ natLe 8 m.epoch ++ natLe 8 m.utc ++ natLe 2 ty ++ natLe 2 arg ++ natLe 4 0 ++ natLe 8 (m.total / tenthWh) ++
      natLe 16 account ++ natLe 8 acct ++ padTo 32 data ++ logHead m
    { m with log := tabPut m.logNext e (if 8192 ≤ m.logNext then tabErase (m.logNext - 8192) m.log else m.log), logNext := m.logNext + 1, tx := m.tx ++ [(1, e)] }

/-- An event that concerns the account in force. -/
def logPlain (m : Meter) (ty arg : Nat) (data : List Byte) : Meter := logEvent m ty arg m.account (m.acct / tenthWh) data

/-- The identification record and the certificate go to the mirror (R417). -/
def sendIdentity (m : Meter) : Meter := { m with tx := m.tx ++ [(2, swidRecord m), (3, padTo 832 m.cert)] }

/-! ## The window (R402) -/

/-- The decimal digits of a number, at least `n` of them. -/
def decimals (n v : Nat) : List Byte := (List.replicate (n - (Nat.toDigits 10 v).length) '0' ++ Nat.toDigits 10 v).map (fun c => BitVec.ofNat 8 c.toNat)

/-- The first 8 hexadecimal digits of a string of bytes. -/
def hex8 (b : List Byte) : List Byte :=
  (padTo 4 b).flatMap (fun x => [x.toNat / 16, x.toNat % 16].flatMap (fun d => (Nat.toDigits 16 d).map (fun c => BitVec.ofNat 8 c.toNat)))

/-- The status letters of page 4. -/
def statusLetters (m : Meter) : List Byte :=
  (([("T", m.housing || m.cover), ("M", m.magnetic), ("S", m.service), ("L", decide (8064 ≤ unacked m ∨ m.lost ≠ 0)), ("F", m.fault)].filter (·.2)).map
    (fun e => ascii e.1)).flatten

/-- What a page shows, its parts a space apart (log 39). -/
def pageText (m : Meter) (page : Nat) : List Byte :=
  let gap := ascii " "
  if page = 1 then decimals 1 (m.total / tenthWh / 10000) ++ ascii "." ++ decimals 4 (m.total / tenthWh % 10000)
  else if page = 2 then
    ascii "TVEDOT-LR" ++ gap ++ decimals 1 (field m.version 0 16) ++ ascii "." ++ decimals 1 (field m.version 16 16) ++ ascii "." ++
      decimals 1 (field m.version 32 16) ++ gap ++ hex8 m.lrDigest
  else if page = 3 then (if m.account = 0 then ascii "IDLE" else hex8 (natLe 16 m.account))
  else if m.downShown then ascii "POWER_DOWN"
  else statusLetters m

/-- The window shows the page in hand anew. -/
def refresh (m : Meter) : Meter := { m with shown := pageText m m.page }

/-! ## The meter port (R416) -/

/-- An answer of the meter port: 8-byte header and payload. -/
def meterAnswer (s : State) (ty : Nat) (payload : List Byte) : State :=
  emit s (.meter (natLe 2 ty ++ natLe 2 0 ++ natLe 4 payload.length ++ payload))

/-- The answer to a command: status, and a reading. -/
def commandAnswer (s : State) (status : Nat) : State := meterAnswer s 5 (natLe 1 status ++ natLe 3 0 ++ readingOf s.meter [])

/-- Is the meter fitted and under power? -/
def meterOn (s : State) : Bool := meterFitted s && s.meter.on

/-- READ. -/
def execMeterRead (nonce : List Byte) (s : State) : Host.Outcome State Fault Refusal :=
  if meterOn s then .next (meterAnswer s 1 (readingOf s.meter nonce)) else .next s

/-- LOG_READ: the entries held, then a reading; a count outside 1-256 is not answered (log 39). -/
def execLogRead (first count : Nat) (s : State) : Host.Outcome State Fault Refusal :=
  if !meterOn s ∨ count = 0 ∨ 256 < count then .next s
  else .next (meterAnswer s 2 ((range' first count).flatMap (fun k => (tabFind k s.meter.log).getD []) ++ readingOf s.meter []))

/-- SWID. -/
def execSwid (s : State) : Host.Outcome State Fault Refusal := if meterOn s then .next (meterAnswer s 3 (swidRecord s.meter)) else .next s

/-- CERT. -/
def execCert (s : State) : Host.Outcome State Fault Refusal := if meterOn s then .next (meterAnswer s 4 (padTo 832 s.meter.cert)) else .next s

/-! ## Commands (R407-R409) -/

def mcSeq (c : List Byte) : Nat := getLe c 0x18 8
def mcAt (c : List Byte) : Nat := getLe c 0x20 8
def mcArg (c : List Byte) : Nat := getLe c 0x28 8
def mcAccount (c : List Byte) : Nat := getLe c 0x30 16
def mcKey (c : List Byte) : List Byte := slice c 0x40 384

/-- Check 5 of R408. -/
def mcState (m : Meter) (op : Nat) (c : List Byte) : Bool :=
  match op with
  | 1 => decide (mcAccount c ≠ 0 ∧ mcAccount c ≠ m.account)
  | 2 => decide (m.account ≠ 0 ∧ mcAccount c = m.account)
  | 4 => decide (mcArg c ≤ m.utc + 60000 ∧ m.utc ≤ mcArg c + 60000)
  | 6 => m.key.isNone
  | _ => true

/-- The status of a command of operation `op`: the first check of R408 that fails, or 1. -/
def mcCheck (m : Meter) (op : Nat) (c : List Byte) : Nat :=
  if slice c 0 8 ≠ ascii "TVDCMD01" ∨ getLe c 8 2 ≠ op ∨ getLe c 0x0A 6 ≠ 0 ∨ getLe c 0x10 8 ≠ m.serial then 0x10
  else if m.key.isNone && !(decide (op = 6) && m.service) then 0x17
  else if !pssVerify (if op = 6 then mcKey c else m.key.getD []) (c.take 0x1C0) (slice c 0x1C0 384) then 0x11
  else if m.cSeq.any (fun k => decide (mcSeq c ≤ k)) then 0x12
  else if !mcState m op c then 0x13
  else if m.sched.isSome then 0x16
  else if mcAt c ≠ 0 ∧ (mcAt c < m.epoch + 2 ∨ m.epoch + 8640000 < mcAt c) then 0x15
  else if op ≤ 2 ∧ 8064 ≤ unacked m then 0x14
  else 1

/-- A command is checked; an accepted one takes effect at once through `act`, and is answered. -/
def meterCommand (s : State) (op : Nat) (c : List Byte) (act : Meter → Meter) : State :=
  if !meterOn s then s
  else
    let st := mcCheck s.meter op c
    if st ≠ 1 then commandAnswer s st else commandAnswer (updMeter s (fun m => act { m with cSeq := some (mcSeq c) })) 1

/-- `OPEN` and `CLOSE` are scheduled; with `AT_EPOCH` 0 for the first boundary at least 2 ms away: the next one, or the one after it where
less than 2 ms are left, which is not observed here (R409, log 5). Their answer waits for that boundary. -/
def meterSchedule (s : State) (op : Nat) (c : List Byte) (account : Nat) : State :=
  if !meterOn s then s
  else
    let st := mcCheck s.meter op c
    if st ≠ 1 then commandAnswer s st
    else
      let (late, s) : Bool × State := if mcAt c = 0 then s.choose else (false, s)
      let e := if mcAt c = 0 then s.meter.epoch + 1 + b2n late else mcAt c
      updMeter s (fun m => { m with cSeq := some (mcSeq c), sched := some { epoch := e, account := account } })

/-- OPEN. -/
def execMeterOpen (cmd : List Byte) (s : State) : Host.Outcome State Fault Refusal := .next (meterSchedule s 1 cmd (mcAccount cmd))
/-- CLOSE. -/
def execMeterClose (cmd : List Byte) (s : State) : Host.Outcome State Fault Refusal := .next (meterSchedule s 2 cmd 0)

/-- LOG_ACK: entries up to `C_ARG` may be overwritten. -/
def execLogAck (cmd : List Byte) (s : State) : Host.Outcome State Fault Refusal :=
  .next (meterCommand s 3 cmd (fun m => logPlain { m with logAcked := max m.logAcked (min (mcArg cmd + 1) m.logNext) } 12 0 []))

/-- SET_TIME. -/
def execSetTime (cmd : List Byte) (s : State) : Host.Outcome State Fault Refusal :=
  .next (meterCommand s 4 cmd (fun m => logPlain { m with utc := mcArg cmd } 7 0 (natLe 8 m.utc ++ natLe 8 (mcArg cmd))))

/-- A billing key is installed. -/
def takeKey (cmd : List Byte) (m : Meter) : Meter := logPlain { m with key := some (mcKey cmd) } 8 0 (keyHash (mcKey cmd))

/-- ROTATE of the meter. -/
def execMeterRotate (cmd : List Byte) (s : State) : Host.Outcome State Fault Refusal := .next (meterCommand s 5 cmd (takeKey cmd))
/-- ENROL: the first billing key; the change is signed into a new identification record (R404). -/
def execEnrol (cmd : List Byte) (s : State) : Host.Outcome State Fault Refusal := .next (meterCommand s 6 cmd (fun m => sendIdentity (takeKey cmd m)))

/-! ## Epochs and accounts (R400, R409, R410) -/

/-- The open account closes: its part below 0.1 Wh goes to whatever receives the next epoch. -/
def closeAccount (m : Meter) : Meter × Nat :=
  if m.account = 0 then (m, 0)
  else
    let rest := m.acct % tenthWh
    (logEvent { m with acct := 0, account := 0, openEpoch := 0 } 2 0 m.account (m.acct / tenthWh) [], rest)

/-- A scheduled command takes effect at the boundary. -/
def applySched (m : Meter) (x : Sched) : Meter :=
  let (m, rest) := closeAccount { m with sched := none }
  if x.account = 0 then { m with idle := m.idle + rest }
  else logEvent { m with account := x.account, openEpoch := m.epoch, acct := rest } 1 0 x.account (rest / tenthWh) []

/-- One epoch of the meter: its energy goes to the account in force and to the total, unless the meter is at fault (R399). -/
def meterEpoch (milliJoules : Nat) (outOfRange : Bool) (m : Meter) : Meter :=
  let m := if m.fault then m
    else if m.account = 0 then { m with total := m.total + milliJoules, idle := m.idle + milliJoules }
    else { m with total := m.total + milliJoules, acct := m.acct + milliJoules }
  { m with epoch := m.epoch + 1, utc := m.utc + 10, range := outOfRange }

/-- A scheduled command whose epoch has come takes effect and is answered. -/
def dueCommand (s : State) : State :=
  match s.meter.sched with
  | some x => if x.epoch ≤ s.meter.epoch then commandAnswer (updMeter s (fun m => applySched m x)) 1 else s
  | none => s

/-- EPOCH_BOUNDARY: the epoch's energy goes to the account in force and the total, with one pulse of the test output for each 0.1 Wh (R399); a
due command takes effect and is answered; at every whole second a reading goes to the mirror, and at every whole minute the window is
refreshed (R402). -/
def execEpochBoundary (milliJoules : Nat) (outOfRange : Bool) (s : State) : Host.Outcome State Fault Refusal :=
  if !meterOn s then .next s
  else
    let old := s.meter.total / tenthWh
    let s := updMeter s (meterEpoch milliJoules outOfRange)
    let pulses := s.meter.total / tenthWh - old
    let s := dueCommand (if pulses = 0 then s else emit s (.pulses pulses))
    let s := if s.meter.epoch % 6000 = 0 then updMeter s refresh else s
    if s.meter.epoch % 100 = 0 then .next (updMeter s (fun m => { m with tx := m.tx ++ [(0, readingOf m [])] })) else .next s

/-! ## Tamper, service, power, display (R402-R404, R411, R415) -/

/-- The service switch stands open or closed: a change is the event of R403, and closing it ends the others. -/
def setService (m : Meter) (isOpen : Bool) : Meter :=
  if isOpen = m.service then m
  else if isOpen then logPlain { m with service := true } 5 6 []
  else logPlain { m with service := false, housing := false, cover := false, magnetic := false } 6 0 []

/-- TAMPER: 0 housing, 1 terminal cover, 2 magnetic field, 3 service switch opened. -/
def execTamper (event : Fin 4) (s : State) : Host.Outcome State Fault Refusal :=
  if !meterOn s then .next s
  else .next (updMeter s (fun m =>
    match event.val with
    | 0 => logPlain { m with housing := true } 5 4 []
    | 1 => logPlain { m with cover := true } 5 3 []
    | 2 => logPlain { m with magnetic := true } 5 5 []
    | _ => logPlain { m with service := true } 5 6 []))

/-- TAMPER_CLEAR: the service switch is closed. -/
def execTamperClear (s : State) : Host.Outcome State Fault Refusal :=
  if !meterOn s || !s.meter.service then .next s
  else .next (updMeter s (fun m => setService m false))

/-- POWER_DOWN: logged, committed, and the meter stops; what its transmitter has still to send leaves before its capacitor is empty. -/
def execPowerDown (s : State) : Host.Outcome State Fault Refusal :=
  if !meterOn s then .next s
  else .next (updMeter s (fun m => refresh { logPlain m 3 0 [] with on := false, page := 4, downShown := true }))

/-- A meter put in the place of another, before it measures (R418): its own certificate, in the layout of R405 with the vendor's key for issuer,
total, log and clock, and no billing key. -/
def newMeter (vendor : List Byte) (x : NewMeter) : Meter :=
  { on := false, serial := x.serial, cert := certBytes (ascii "HMTR") 0 x.serial x.mfgDate.toNat vendor x.pubkey x.certSig
    lrDigest := x.lrDigest, paramDigest := x.paramDigest, version := x.version % 2 ^ 48
    taNumber := x.taNumber, epoch := x.epoch, utc := x.utc, total := x.total, idle := x.total, log := x.log, logNext := x.logNext }

/-- POWER_UP: the clock ran on; the event is logged, a pending command cancelled, and a new identification record is signed. Without power
another meter may have taken the place (R418), and the service switch may have been moved (R411). -/
def execPowerUp (back : MeterReturn) (s : State) : Host.Outcome State Fault Refusal :=
  if !meterFitted s || s.meter.on then .next s
  else .next (updMeter s (fun m =>
    let m := (back.incoming.map (newMeter s.vendorHash)).getD { m with utc := m.utc + back.elapsedMs }
    let m := logPlain { m with on := true, downShown := false, range := false } 4 0 []
    let m := if m.sched.isSome then logPlain { m with sched := none } 11 0 [] else m
    refresh (sendIdentity (setService m back.serviceOpen))))

/-- BUTTON_PRESS: the next page. -/
def execButtonPress (s : State) : Host.Outcome State Fault Refusal :=
  if meterOn s then .next (updMeter s (fun m => refresh { m with page := m.page % 4 + 1 })) else .next s

/-- PAGE_RETURN: page 1 returns 60 s after the last press. -/
def execPageReturn (s : State) : Host.Outcome State Fault Refusal :=
  if meterOn s then .next (updMeter s (fun m => refresh { m with page := 1 })) else .next s

/-- METER_FAULT: a self-check fails; integration stops, and only replacement clears it. -/
def execMeterFault (s : State) : Host.Outcome State Fault Refusal :=
  if !meterOn s || s.meter.fault then .next s else .next (updMeter s (fun m => logPlain { m with fault := true } 10 0 []))

/-- SW_CHANGE: legally relevant software or parameters change while the service switch is open; logged, and a new record is signed. -/
def execSwChange (lrDigest paramDigest : List Byte) (version : W64) (s : State) : Host.Outcome State Fault Refusal :=
  if !meterOn s || !s.meter.service then .next s
  else .next (updMeter s (fun m =>
    let m := { m with lrDigest := lrDigest, paramDigest := paramDigest, version := version.toNat % 2 ^ 48 }
    sendIdentity (logPlain m 9 0 (sha256 (swidRecord m)))))

/-! ## The mirror (R417) -/

/-- Does the CPC verify the latest reading under the certificate, and the certificate under the vendor key? -/
def mirrorVerifies (s : State) : Bool :=
  let r := padTo 576 s.mirror.reading
  let c := padTo 832 s.mirror.cert
  pssVerify (slice c 0x40 384) (r.take 0xC0) (slice r 0xC0 384) && pssVerify (Config.keyOf s.vendorHash) (c.take 0x1C0) (slice c 0x1C0 384)

/-- A reading reaches the CPC. -/
def mirrorReading (s : State) (b : List Byte) (forged : Bool) : State :=
  let old := getLe s.mirror.reading 0x18 8
  let new := getLe b 0x18 8
  let gaps := if s.mirror.reading.isEmpty then 0 else (new - old) / 100 - 1
  let (t, s) := s.stamp
  let was := s.on mirrorStatMSigOk
  let s := ({ s with mirror := { s.mirror with reading := b } }.puts [(mirrorStatMLink, 1), (mirrorTimeRxTime, t)]).bump mirrorStatMGaps gaps
  let ok := mirrorVerifies s && !forged
  let s := s.putB mirrorStatMSigOk ok
  if was && !ok then raiseErr s 0x0902 0 33 0 none 0 0 forged else s

/-- What the transmitter sends is placed in the mirror. -/
def mirrorTake (s : State) (ty : Nat) (b : List Byte) : State :=
  match ty with
  | 0 =>
    let (forged, s) := injectedFail s [0x0902] 33 0 none
    mirrorReading (s.setStop 33 { s.stop 33 with tainted := setDel 900 (s.stop 33).tainted }) b forged
  | 1 => { s with mirror := { s.mirror with log := tabPut (getLe b 0 8 % 8192) b s.mirror.log } }
  | 2 => { s with mirror := { s.mirror with swid := b } }
  | _ => { s with mirror := { s.mirror with cert := b } }

/-- Does CPC firmware run, so that the mirror is filled? -/
def cpcRuns (s : State) : Bool := decide (4 < s.get bootStatusStep) && !s.on bootStatusCpcHeld

/-- METER_TRANSMISSION: the oldest transmission arrives, or is lost on the way, or finds no CPC that takes it. An injection of `METER_LINK`
loses it (R437). -/
def execMeterTransmission (arrived : Bool) (s : State) : Host.Outcome State Fault Refusal :=
  match s.meter.tx with
  | [] => .next s
  | (ty, b) :: rest =>
    let s := updMeter s (fun m => { m with tx := rest })
    if !cpcRuns s then .next s else
    let (hit, s) := injectedFail s [0x0901] 33 0 none
    let s := if hit then s.setStop 33 { s.stop 33 with tainted := setIns 900 (s.stop 33).tainted } else s
    if !arrived || hit then .next s else .next (mirrorTake s ty b)

/-- M_LINK_LOSS: no reading for 3 s. -/
def execMLinkLoss (s : State) : Host.Outcome State Fault Refusal :=
  if !s.on mirrorStatMLink then .next s
  else
    let inj := (s.stop 33).tainted.contains 900
    let s := s.setStop 33 { s.stop 33 with tainted := setDel 900 (s.stop 33).tainted }
    .next (raiseErr (s.put mirrorStatMLink 0) 0x0901 0 33 0 none 0 0 inj)

end Sys2Proof.Machine
end

