-- ==== Sys2Proof/Machine/Dispatch.lean ====
section
/-! DEFINITION. One arm per command: the meaning it calls. -/
namespace Sys2Proof.Machine

def exec (i : Instr) (s : State) : Host.Outcome State Fault Refusal :=
  match i with
  | .load => Sys2Proof.Machine.execLoad s
  | .partialApply => Sys2Proof.Machine.execPartialApply s
  | .doorbell path r q tail => Sys2Proof.Machine.execDoorbell path r q tail s
  | .qCtrlWrite path r q enable => Sys2Proof.Machine.execQCtrlWrite path r q enable s
  | .qBaseWrite path r q value => Sys2Proof.Machine.execQBaseWrite path r q value s
  | .cqCtrlWrite r c value => Sys2Proof.Machine.execCqCtrlWrite r c value s
  | .cqBaseWrite r c value => Sys2Proof.Machine.execCqBaseWrite r c value s
  | .cqHeadWrite r c value => Sys2Proof.Machine.execCqHeadWrite r c value s
  | .commandFetch r q => Sys2Proof.Machine.execCommandFetch r q s
  | .dispatch r => Sys2Proof.Machine.execDispatch r s
  | .hubNop r => Sys2Proof.Machine.execHubNop r s
  | .hubToken r => Sys2Proof.Machine.execHubToken r s
  | .hubStep r => Sys2Proof.Machine.execHubStep r s
  | .hubAbort r => Sys2Proof.Machine.execHubAbort r s
  | .dmaSubmit r => Sys2Proof.Machine.execDmaSubmit r s
  | .mxeMm r cl => Sys2Proof.Machine.execMxeMm r cl s
  | .mxeMmSparse r cl => Sys2Proof.Machine.execMxeMmSparse r cl s
  | .mxeMmSelect r cl => Sys2Proof.Machine.execMxeMmSelect r cl s
  | .finishedTilePush r cl => Sys2Proof.Machine.execFinishedTilePush r cl s
  | .veExec r cl => Sys2Proof.Machine.execVeExec r cl s
  | .primeRelease r cl => Sys2Proof.Machine.execPrimeRelease r cl s
  | .upeUpdate r die => Sys2Proof.Machine.execUpeUpdate r die s
  | .panPut r => Sys2Proof.Machine.execPanPut r s
  | .panGet r => Sys2Proof.Machine.execPanGet r s
  | .panFree r => Sys2Proof.Machine.execPanFree r s
  | .predRun r cl => Sys2Proof.Machine.execPredRun r cl s
  | .predExpand r cl => Sys2Proof.Machine.execPredExpand r cl s
  | .retireGrant r => Sys2Proof.Machine.execRetireGrant r s
  | .recordVisible r => Sys2Proof.Machine.execRecordVisible r s
  | .waitTimeout r q => Sys2Proof.Machine.execWaitTimeout r q s
  | .stepIncrement r => Sys2Proof.Machine.execStepIncrement r s
  | .chPost path r ch value => Sys2Proof.Machine.execChPost path r ch value s
  | .chShareWrite r ch value => Sys2Proof.Machine.execChShareWrite r ch value s
  | .dmaDescStart r ch => Sys2Proof.Machine.execDmaDescStart r ch s
  | .dmaBurst r ch => Sys2Proof.Machine.execDmaBurst r ch s
  | .dmaLastWriteLeft r ch => Sys2Proof.Machine.execDmaLastWriteLeft r ch s
  | .dmaBarrierAck r ch => Sys2Proof.Machine.execDmaBarrierAck r ch s
  | .dmaBarrierTimeout r ch => Sys2Proof.Machine.execDmaBarrierTimeout r ch s
  | .flitReceive stop ring descending flit sideband => Sys2Proof.Machine.execFlitReceive stop ring descending flit sideband s
  | .memWr ix => Sys2Proof.Machine.execMemWr ix s
  | .memRd ix => Sys2Proof.Machine.execMemRd ix s
  | .memRsp ix => Sys2Proof.Machine.execMemRsp ix s
  | .atomic ix => Sys2Proof.Machine.execAtomic ix s
  | .redAdd ix => Sys2Proof.Machine.execRedAdd ix s
  | .redAck ix => Sys2Proof.Machine.execRedAck ix s
  | .signal ix => Sys2Proof.Machine.execSignal ix s
  | .signalResend r => Sys2Proof.Machine.execSignalResend r s
  | .heldRequestResend stop => Sys2Proof.Machine.execHeldRequestResend stop s
  | .notice ix => Sys2Proof.Machine.execNotice ix s
  | .sliceScan r index => Sys2Proof.Machine.execSliceScan r index s
  | .voteCast r => Sys2Proof.Machine.execVoteCast r s
  | .vote ix => Sys2Proof.Machine.execVote ix s
  | .gateTimeout => Sys2Proof.Machine.execGateTimeout s
  | .verdict ix => Sys2Proof.Machine.execVerdict ix s
  | .derail ix => Sys2Proof.Machine.execDerail ix s
  | .mgmt stop msg => Sys2Proof.Machine.execMgmt stop msg s
  | .go table => Sys2Proof.Machine.execGo table s
  | .arm table set => Sys2Proof.Machine.execArm table set s
  | .derailDone => Sys2Proof.Machine.execDerailDone s
  | .targetLost r => Sys2Proof.Machine.execTargetLost r s
  | .scrubPass r => Sys2Proof.Machine.execScrubPass r s
  | .scrubNow r => Sys2Proof.Machine.execScrubNow r s
  | .wb r => Sys2Proof.Machine.execWb r s
  | .inv r => Sys2Proof.Machine.execInv r s
  | .monitorSample r readings => Sys2Proof.Machine.execMonitorSample r readings s
  | .thermalTargetStep r => Sys2Proof.Machine.execThermalTargetStep r s
  | .dvfsStep r => Sys2Proof.Machine.execDvfsStep r s
  | .park r thermal => Sys2Proof.Machine.execPark r thermal s
  | .resumeRegion r draws => Sys2Proof.Machine.execResumeRegion r draws s
  | .parkLimitExpiry r => Sys2Proof.Machine.execParkLimitExpiry r s
  | .hwTrip r sensor => Sys2Proof.Machine.execHwTrip r sensor s
  | .reqModeWrite mode => Sys2Proof.Machine.execReqModeWrite mode s
  | .inputVoltageChange milliVolts reversed draws => Sys2Proof.Machine.execInputVoltageChange milliVolts reversed draws s
  | .convFail n => Sys2Proof.Machine.execConvFail n s
  | .segShort n => Sys2Proof.Machine.execSegShort n s
  | .cellFail r group => Sys2Proof.Machine.execCellFail r group s
  | .s2Fail r ix => Sys2Proof.Machine.execS2Fail r ix s
  | .s2Trip r cause => Sys2Proof.Machine.execS2Trip r cause s
  | .tripProbe r tripsAgain => Sys2Proof.Machine.execTripProbe r tripsAgain s
  | .admissionRetest seg draws => Sys2Proof.Machine.execAdmissionRetest seg draws s
  | .quarter seg draws => Sys2Proof.Machine.execQuarter seg draws s
  | .rampEnd r => Sys2Proof.Machine.execRampEnd r s
  | .cuffEnforce draws => Sys2Proof.Machine.execCuffEnforce draws s
  | .unpark draws => Sys2Proof.Machine.execUnpark draws s
  | .pwrCuffWrite value => Sys2Proof.Machine.execPwrCuffWrite value s
  | .pwrRcuffWrite r value => Sys2Proof.Machine.execPwrRcuffWrite r value s
  | .fence r code => Sys2Proof.Machine.execFence r code s
  | .drained r => Sys2Proof.Machine.execDrained r s
  | .rerunStart => Sys2Proof.Machine.execRerunStart s
  | .resume r => Sys2Proof.Machine.execResume r s
  | .fold seam => Sys2Proof.Machine.execFold seam s
  | .foldDone seam => Sys2Proof.Machine.execFoldDone seam s
  | .backgroundRebuildChunk => Sys2Proof.Machine.execBackgroundRebuildChunk s
  | .seamRefresh seam => Sys2Proof.Machine.execSeamRefresh seam s
  | .refreshNow => Sys2Proof.Machine.execRefreshNow s
  | .snapshot => Sys2Proof.Machine.execSnapshot s
  | .snapNow => Sys2Proof.Machine.execSnapNow s
  | .journalRecord r => Sys2Proof.Machine.execJournalRecord r s
  | .rsGo objects => Sys2Proof.Machine.execRsGo objects s
  | .ckptGo => Sys2Proof.Machine.execCkptGo s
  | .ckptRestore objects manifest => Sys2Proof.Machine.execCkptRestore objects manifest s
  | .enroll => Sys2Proof.Machine.execEnroll s
  | .ownerSeal => Sys2Proof.Machine.execOwnerSeal s
  | .rotate => Sys2Proof.Machine.execRotate s
  | .setSlice => Sys2Proof.Machine.execSetSlice s
  | .keyInstall => Sys2Proof.Machine.execKeyInstall s
  | .attGo => Sys2Proof.Machine.execAttGo s
  | .ktReq => Sys2Proof.Machine.execKtReq s
  | .seqCommit => Sys2Proof.Machine.execSeqCommit s
  | .svnCommit targets => Sys2Proof.Machine.execSvnCommit targets s
  | .rootFailover primaryOk mirrorOk => Sys2Proof.Machine.execRootFailover primaryOk mirrorOk s
  | .txSwitch port key => Sys2Proof.Machine.execTxSwitch port key s
  | .rxKeyErase port key => Sys2Proof.Machine.execRxKeyErase port key s
  | .frameReceive port half frame => Sys2Proof.Machine.execFrameReceive port half frame s
  | .pfcPause port half prio quanta => Sys2Proof.Machine.execPfcPause port half prio quanta s
  | .cnp peer => Sys2Proof.Machine.execCnp peer s
  | .rateIncrease peer => Sys2Proof.Machine.execRateIncrease peer s
  | .rdmaWrite src rkey addr data => Sys2Proof.Machine.execRdmaWrite src rkey addr data s
  | .rdmaWriteWithImmediate src rkey addr data imm => Sys2Proof.Machine.execRdmaWriteWithImmediate src rkey addr data imm s
  | .rdmaRead src rkey addr len => Sys2Proof.Machine.execRdmaRead src rkey addr len s
  | .send src data => Sys2Proof.Machine.execSend src data s
  | .rdmaAck peer result => Sys2Proof.Machine.execRdmaAck peer result s
  | .ackTimeout peer => Sys2Proof.Machine.execAckTimeout peer s
  | .peerEntryWrite peer offset data => Sys2Proof.Machine.execPeerEntryWrite peer offset data s
  | .streamEntryWrite pd index offset data => Sys2Proof.Machine.execStreamEntryWrite pd index offset data s
  | .evtCfgWrite value => Sys2Proof.Machine.execEvtCfgWrite value s
  | .eventWrite => Sys2Proof.Machine.execEventWrite s
  | .ptpMessage port domain offsetNs => Sys2Proof.Machine.execPtpMessage port domain offsetNs s
  | .stepOpen peer hdr => Sys2Proof.Machine.execStepOpen peer hdr s
  | .wtPush peer hdr payload => Sys2Proof.Machine.execWtPush peer hdr payload s
  | .wtDone peer hdr => Sys2Proof.Machine.execWtDone peer hdr s
  | .credit peer hdr => Sys2Proof.Machine.execCredit peer hdr s
  | .replicaDrop peer hdr => Sys2Proof.Machine.execReplicaDrop peer hdr s
  | .grPush pd index => Sys2Proof.Machine.execGrPush pd index s
  | .cassetteDetect bay => Sys2Proof.Machine.execCassetteDetect bay s
  | .cassetteAuthenticated bay reply => Sys2Proof.Machine.execCassetteAuthenticated bay reply s
  | .lasersLocked bay => Sys2Proof.Machine.execLasersLocked bay s
  | .driveRampEnd bay => Sys2Proof.Machine.execDriveRampEnd bay s
  | .laserFail bay laser => Sys2Proof.Machine.execLaserFail bay laser s
  | .casOvertemp bay celsius => Sys2Proof.Machine.execCasOvertemp bay celsius s
  | .release bay force => Sys2Proof.Machine.execRelease bay force s
  | .reauth bay => Sys2Proof.Machine.execReauth bay s
  | .casRemoved bay => Sys2Proof.Machine.execCasRemoved bay s
  | .lifeIncrement bay centiHours => Sys2Proof.Machine.execLifeIncrement bay centiHours s
  | .epochBoundary milliJoules outOfRange => Sys2Proof.Machine.execEpochBoundary milliJoules outOfRange s
  | .meterOpen cmd => Sys2Proof.Machine.execMeterOpen cmd s
  | .meterClose cmd => Sys2Proof.Machine.execMeterClose cmd s
  | .logAck cmd => Sys2Proof.Machine.execLogAck cmd s
  | .setTime cmd => Sys2Proof.Machine.execSetTime cmd s
  | .meterRotate cmd => Sys2Proof.Machine.execMeterRotate cmd s
  | .enrol cmd => Sys2Proof.Machine.execEnrol cmd s
  | .meterRead nonce => Sys2Proof.Machine.execMeterRead nonce s
  | .logRead first count => Sys2Proof.Machine.execLogRead first count s
  | .swid => Sys2Proof.Machine.execSwid s
  | .cert => Sys2Proof.Machine.execCert s
  | .tamper event => Sys2Proof.Machine.execTamper event s
  | .tamperClear => Sys2Proof.Machine.execTamperClear s
  | .powerDown => Sys2Proof.Machine.execPowerDown s
  | .powerUp back => Sys2Proof.Machine.execPowerUp back s
  | .buttonPress => Sys2Proof.Machine.execButtonPress s
  | .pageReturn => Sys2Proof.Machine.execPageReturn s
  | .meterTransmission arrived => Sys2Proof.Machine.execMeterTransmission arrived s
  | .mLinkLoss => Sys2Proof.Machine.execMLinkLoss s
  | .coldStart report => Sys2Proof.Machine.execColdStart report s
  | .coldReset report => Sys2Proof.Machine.execColdReset report s
  | .moduleWarmReset report => Sys2Proof.Machine.execModuleWarmReset report s
  | .regionReset r => Sys2Proof.Machine.execRegionReset r s
  | .portReset port half => Sys2Proof.Machine.execPortReset port half s
  | .quiesce => Sys2Proof.Machine.execQuiesce s
  | .fwWrite target => Sys2Proof.Machine.execFwWrite target s
  | .fwActivate => Sys2Proof.Machine.execFwActivate s
  | .errorRecord stop code unit step detail0 detail1 => Sys2Proof.Machine.execErrorRecord stop code unit step detail0 detail1 s
  | .errorRecordMove => Sys2Proof.Machine.execErrorRecordMove s
  | .errPop => Sys2Proof.Machine.execErrPop s
  | .injArm value => Sys2Proof.Machine.execInjArm value s
  | .injWindowEnd => Sys2Proof.Machine.execInjWindowEnd s
  | .regRead offset => Sys2Proof.Machine.execRegRead offset s
  | .provWrite count entries => Sys2Proof.Machine.execProvWrite count entries s
  | .registerWrite path addr value => Sys2Proof.Machine.execRegisterWrite path addr value s
  | .portLinkChange port half up => Sys2Proof.Machine.execPortLinkChange port half up s
  | .pfcPauseExpiry port half prio => Sys2Proof.Machine.execPfcPauseExpiry port half prio s
  | .cassetteWithdrawn bay => Sys2Proof.Machine.execCassetteWithdrawn bay s
  | .meterFault => Sys2Proof.Machine.execMeterFault s
  | .swChange lrDigest paramDigest version => Sys2Proof.Machine.execSwChange lrDigest paramDigest version s
  | .subnormalPathDown r unit => Sys2Proof.Machine.execSubnormalPathDown r unit s

end Sys2Proof.Machine
end

