-- ==== Sys2Proof/Machine/Step.lean ====
section
/-! DEFINITION. One step: the command at the front of the queue is taken and performed; an empty queue idles. -/
namespace Sys2Proof.Machine

/-- Take the command at the front of the queue and perform it on the rest (95_what_each_step_holds: each is whole and
indivisible). On an empty queue the module idles: only its ports' receive buffers empty (R288, logs 1 and 37). -/
def step (s : State) : Host.Outcome State Fault Refusal :=
  match s.pending with
  | [] => .next (drainBuffers s)
  | i :: rest => exec i { s with pending := rest }

/-- The state with the command that a table word spells at the front of its queue; no row of the table has bits, so there is none
(log 2). -/
def State.withFetchWord (s : State) (nbits w : Nat) : State :=
  match decodeTableWord nbits w with
  | some i => { s with pending := i :: s.pending }
  | none => s

end Sys2Proof.Machine
end

