-- ==== Sys2Proof/Safety.lean ====
section
/-! DEFINITION. What every step keeps: the invariant of the module's state, and what a step may do to it at all. -/
namespace Sys2Proof.Machine

/-- The stores in their one form: addresses strictly rising, and no entry that says what an unlisted byte reads as. -/
def Memory.wf (m : Tab Byte) : Bool := tabWf 0 m

/-- The invariant of every state: the stores in their one form (R189, R201), and at most 4096 records in the CPC's error queue (R434). -/
def Inv (s : State) : Prop := Memory.wf s.mem = true ∧ s.errq.length ≤ 4096

/-- A run is safe while each step answers a next state that keeps the invariant. -/
def SafeStep (s : State) : Prop := ∃ t, step s = .next t ∧ Inv t

end Sys2Proof.Machine
end

