-- ==== Sys2Proof/Certificates/Slice0/Obligations.lean ====
section
/-! DEFINITION. The statements for the provers, in the order of OBLIGATIONS.json. -/
open Sys2Proof Sys2Proof.Machine


/-- O1. Doorbells, ENABLE and Q_BASE of a queue of a region that is neither parked nor off. A doorbell within 1024 slots of the head and not
behind the old tail becomes the tail, and any other raises DOORBELL_ERR. Setting ENABLE starts an idle queue at slot 0, clearing it stops
a queue without live commands, and Q_BASE of a disabled queue takes an aligned ring in the region's own memory. Each equation gives the
whole next state, so everything else is unchanged. (R207, R208, R230, R446) -/
def Obligations.QueueRegisterWritesTakeEffect : Prop :=
  (∀ (p : Path) (r : Fin 32) (q : Fin 8) (tail : BitVec 11) (s : State), blockUp s r = true → (p = .firmware ∨ q.val < 4) → s.get (qCtrlProg r q) = 0 →
    exec (.doorbell p r q tail) s = .next
      (if (s.get (qTailTail r q) + 2048 - s.get (qHeadHead r q)) % 2048 ≤ (tail.toNat + 2048 - s.get (qHeadHead r q)) % 2048 ∧
          (tail.toNat + 2048 - s.get (qHeadHead r q)) % 2048 ≤ 1024 then s.put (qTailTail r q) tail.toNat
       else s.put (qStatusDoorbellErr r q) 1)) ∧
  (∀ (p : Path) (r : Fin 32) (q : Fin 8) (s : State), blockUp s r = true → (p = .firmware ∨ q.val < 4) → s.get (qCtrlEnable r q) = 0 →
    exec (.qCtrlWrite p r q true) s = .next
      ((s.puts [(qCtrlEnable r q, 1), (qHeadHead r q, 0), (qTailTail r q, 0)]).updHub r (fun h => { h with noFetch := setDel q h.noFetch }))) ∧
  (∀ (p : Path) (r : Fin 32) (q : Fin 8) (s : State), blockUp s r = true → (p = .firmware ∨ q.val < 4) →
    (∀ l ∈ (s.hub r).live, l.q ≠ q.val) → exec (.qCtrlWrite p r q false) s = .next (s.put (qCtrlEnable r q) 0)) ∧
  (∀ (p : Path) (r : Fin 32) (q : Fin 8) (v : W64) (s : State), blockUp s r = true → (p = .firmware ∨ q.val < 4) → s.get (qCtrlEnable r q) = 0 →
    v.toNat % 2 ^ 48 % 4096 = 0 → inside (v.toNat % 2 ^ 48) 65536 (stackBase r) 0x2000000000 = true → built s r = true →
    exec (.qBaseWrite p r q v) s = .next (s.put (qBaseBase r q) v.toNat))

/-- O2. CQ_CTRL, CQ_BASE and CQ_HEAD of a region neither parked nor off. CQ_CTRL takes EVENT and LOG2_N between 6 and 16 and ENABLE, which
starts the ring at 0; CQ_BASE of a disabled ring takes an aligned place in the region's own memory; CQ_HEAD moves up to the tail, and a
write that would pass it raises HEAD_ERR. Each equation gives the whole next state. (R224) -/
def Obligations.CompletionQueueRegisterWritesTakeEffect : Prop :=
  (∀ (r : Fin 32) (c : Fin 16) (v : W64) (s : State), blockUp s r = true → 6 ≤ field v.toNat 8 5 → field v.toNat 8 5 ≤ 16 → s.get (cqCtrlEnable r c) = 0 →
    bitAt v.toNat 0 = true → exec (.cqCtrlWrite r c v) s = .next (s.puts [(cqCtrlEvent r c, field v.toNat 1 1), (cqCtrlLog2N r c, field v.toNat 8 5),
      (cqCtrlEnable r c, field v.toNat 0 1), (cqTailTail r c, 0), (cqHeadHead r c, 0)])) ∧
  (∀ (r : Fin 32) (c : Fin 16) (v : W64) (s : State), blockUp s r = true → s.get (cqCtrlEnable r c) = 0 → v.toNat % 2 ^ 48 % 4096 = 0 →
    inside (v.toNat % 2 ^ 48) (32 * 2 ^ s.get (cqCtrlLog2N r c)) (stackBase r) 0x2000000000 = true → built s r = true →
    exec (.cqBaseWrite r c v) s = .next (s.put (cqBaseBase r c) v.toNat)) ∧
  (∀ (r : Fin 32) (c : Fin 16) (v : W64) (s : State), blockUp s r = true →
    exec (.cqHeadWrite r c v) s = .next
      (if v.toNat % 2 ^ 17 < 2 ^ (s.get (cqCtrlLog2N r c) + 1) ∧
          (v.toNat % 2 ^ 17 + 2 ^ (s.get (cqCtrlLog2N r c) + 1) - s.get (cqHeadHead r c) % 2 ^ (s.get (cqCtrlLog2N r c) + 1)) %
            2 ^ (s.get (cqCtrlLog2N r c) + 1) ≤ cqFill s r c then s.put (cqHeadHead r c) v.toNat
       else s.put (cqStatusHeadErr r c) 1))

/-- O3. A fetch appends a live command; a dispatch consumes its waits and moves it to its unit. A hub that may fetch reads 64 bytes at the
slot of its head and the command joins the live set at the next slot. The first ready queue in turn dispatches its head command: its waits
are consumed, its step is the counter's, and it joins the FIFO of its unit; a PAN_GET is noted for its step, and a PAN_PUT after one of
its step under always-forward is barred. A descriptor that the hub hands over leaves the hub's FIFO for the channel's. (R207, R208, R213,
R214, R212, R231) -/
def Obligations.CommandsAreFetchedAndDispatched : Prop :=
  (∀ (r : Fin 32) (q : Fin 8) (s t : State) (b : List Byte), canFetch s r q = true → s.get (qCtrlProg r q) = 0 →
    readMem s { region := r, step := none } (s.get (qBaseBase r q) + 64 * (s.get (qHeadHead r q) % 1024)) 64 = (.ok b, t) →
    exec (.commandFetch r q) s = .next ((pushLive t r q b).put (qHeadHead r q) ((s.get (qHeadHead r q) + 1) % 2048))) ∧
  (∀ (r : Fin 32) (s u v : State) (l : Live) (k : Nat), (queueTurn (s.hub r).lastQ).findSome? (ready s r) = some l → dispatchCheck s r l.bytes = none →
    k = s.get (hubStepCntStep r) → u = consumeWaits s r l.bytes →
    v = (if cmdOpcode l.bytes = 0x51 then u.setFlow r { (u.flow r) with gets := setIns k (u.flow r).gets } else u) →
    exec (.dispatch r) s = .next (programEnd
      ((((updLive v r l.id (fun x => { x with
        st := .dispatched, step := k, disp := (s.hub r).nextDisp
        barred := decide (cmdOpcode l.bytes = 0x50) && u.on mapStatusAf && decide ((u.flow r).afFrom ≤ k) && (u.flow r).gets.contains k })).updHub r
        (fun h => { h with nextDisp := (s.hub r).nextDisp + 1, lastQ := l.q, fresh := h.fresh && decide (l.q < 4) }))).updHub r
        (fun h => { h with fifo := tabPut (unitKey l.bytes) (tabGet [] (unitKey l.bytes) h.fifo ++ [l.id]) h.fifo })) r l.q)) ∧
  (∀ (r : Fin 32) (s : State) (ch : Nat) (x : Live), running s r = true → handOvers (s.hub r) = [(ch, x)] →
    exec (.dmaSubmit r) s = .next ((fifoDrop s r (1000 + ch) x.id).setChan r ch
      { (s.chan r ch) with fifo := (s.chan r ch).fifo ++ [{ addr := opAddr x.bytes, cmd := some x.id }] }))

/-- O4. HUB_NOP, HUB_TOKEN, HUB_STEP and HUB_ABORT at the head of the hub's FIFO. With its command at the head of the hub's own FIFO in a
running region, HUB_NOP only retires, HUB_TOKEN applies TOP to its token, HUB_STEP advances the step counter, waits with AHEAD_STALL set
while the last verdict is missing, and ends INVALID_FIELD where a looping program is loaded. HUB_ABORT fetches what its ring or program
still holds, strikes the commands it means in slot order, and answers OK when it struck one, ALREADY_DONE when those it means are past
striking or in the history, NOT_FOUND otherwise; from q0 to q3 at q4 to q7 it ends INVALID_FIELD. Each equation gives the whole next
state. (R212, R219, R220, R136, R227, R228) -/
def Obligations.HubCommandsRetireWithTheirEffect : Prop :=
  (∀ (r : Fin 32) (s : State) (l : Live), hubTurn s r 0x01 = some l → exec (.hubNop r) s = .next (finish (fifoPop s r 0) r l {})) ∧
  (∀ (r : Fin 32) (s : State) (l : Live), hubTurn s r 0x02 = some l →
    exec (.hubToken r) s = .next (finish (fifoPop (s.put (tokenValue r (getLe l.bytes 0x2A 2))
      (tokenOp (getLe l.bytes 0x28 1) (s.get (tokenValue r (getLe l.bytes 0x2A 2))) (getLe l.bytes 0x2C 4))) r 0) r l {})) ∧
  (∀ (r : Fin 32) (s : State) (l : Live), hubTurn s r 0x03 = some l →
    (loopQueues s r ≠ [] → exec (.hubStep r) s = .next (finish (fifoPop s r 0) r l { status := stInvalidField })) ∧
    (loopQueues s r = [] → (s.flow r).done < s.get (hubStepCntStep r) → exec (.hubStep r) s = .next (s.put (dfStatusAheadStall r) 1)) ∧
    (loopQueues s r = [] → s.get (hubStepCntStep r) ≤ (s.flow r).done →
      exec (.hubStep r) s = .next (finish (advanceStep (fifoPop s r 0) r) r l {}))) ∧
  (∀ (r : Fin 32) (s : State) (l : Live), hubTurn s r 0x04 = some l → l.q < 4 → 4 ≤ getLe l.bytes 0x30 1 % 8 →
    exec (.hubAbort r) s = .next (finish (fifoPop s r 1) r l { status := stInvalidField })) ∧
  (∀ (r : Fin 32) (s t u v : State) (l : Live) (q : Nat) (tag : Option Nat) (n hit late : List Nat) (past : Nat), hubTurn s r 0x04 = some l →
    q = getLe l.bytes 0x30 1 % 8 → 4 ≤ l.q ∨ q < 4 → tag = (if getLe l.bytes 0x31 1 = 0 then some (opAddr l.bytes) else none) →
    strikeWrites (fetchRing (fifoPop s r 1) r q 2048) r q tag = (n, t) → strikeAll r (targetsOf t r q tag) ([], n, t) = (hit, late, u) →
    past = (match tag with | some a => (tabGet [] q (u.hub r).hist).count (some a) | none => 0) →
    v = (if getLe l.bytes 0x31 1 = 1 ∧ u.on (qCtrlProg r q) = true then u.put (qStatusProgStopped r q) 1 else programEnd u r q) →
    exec (.hubAbort r) s = .next (finish (updLive v r l.id (fun x => { x with waitFor := hit ++ late })) r { l with waitFor := hit ++ late }
      { status := if hit ≠ [] then stOk else if 0 < late.length + past then stAlreadyDone else stNotFound, progress := hit.length }))

/-- O5. MXE_MM, MXE_MM_SPARSE and MXE_MM_SELECT hold their product or leave its tiles to drain. When a cluster's MXE may start the command at
the head of its FIFO, the command is taken from the FIFO and marked started. A product that is held stays in the cluster and the command
asks to retire with the product's status, flags, cycles and bytes. Any other runs, at once or behind the command whose last tile drains,
with the entries of the product to push (a terminator where there is none) and what each tile adds to its record. One form for each of the
three opcodes; the equation gives the whole next state. (R88, R98, R99, R106, R107, R110) -/
def Obligations.MxeCommandsDrainTheirProduct : Prop :=
  ∀ (r : Fin 32) (cl : Fin 96) (s t u v : State) (l : Live) (o : MxeOut) (c : Instr) (op : Nat) (res : Res),
    (c = .mxeMm r cl ∧ op = 0x20 ∨ c = .mxeMmSparse r cl ∧ op = 0x21 ∨ c = .mxeMmSelect r cl ∧ op = 0x22) → mxeTurn s r cl op = some l →
    mxeCommand s (acctOf r l) r cl (cmdOpcode l.bytes) (getLe l.bytes 0x31 1) (opStream l.bytes) (opAddr l.bytes) id = (o, t) →
    u = updLive (fifoPop t r (100 + cl)) r l.id (fun x => { x with started := true, holds := o.held.isSome }) →
    v = u.setCluster r cl { (u.cluster r cl) with held := o.held.map (fun h => { h with cmd := l.id }) } →
    res = { status := o.status, flags := o.flags, cycles := o.cycles } →
    exec c s = .next (
      if o.held.isSome = true then finish (xstat v r cl (o.stats.foldl statOr {})) r l (res.withStat (o.stats.foldl statOr {}))
      else v.setCluster r cl ((v.cluster r cl).addRun {
        cmd := some l.id, stream := opStream l.bytes
        drain := if o.entries = [] then [terminator (opStream l.bytes) o.status 0 o.flags] else o.entries
        stats := o.stats, res := res }))

/-- O6. FINISHED_TILE_PUSH moves one entry of the draining command to the queue. While fewer than 16 entries wait, and no terminator is due
before it, the next entry of the draining command joins the finished-tile queue and sets the register flags of its tile; after the last
one the command asks to retire with the count of entries pushed and what its tiles added, and the command behind it, if any, drains. A
terminator that is due enters in its turn. Each equation gives the whole next state. (R106, R107, R108, R109) -/
def Obligations.FinishedTilesEnterTheQueue : Prop :=
  (∀ (r : Fin 32) (cl : Fin 96) (s : State) (run : MxeRun) (e e' : TqEntry) (rest : List TqEntry), running s r = true →
    (s.cluster r cl).mxe = some run → run.drain = e :: e' :: rest → (s.cluster r cl).tq.length < 16 → owedTurn s r cl (s.cluster r cl) = none →
    exec (.finishedTilePush r cl) s = .next ((xstat s r cl (run.stats.headD {})).setCluster r cl
      { (pushEntry (s.cluster r cl) e) with mxe := some { run with
        drain := e' :: rest, stats := run.stats.drop 1, seen := statOr run.seen (run.stats.headD {}), pushed := run.pushed + b2n (!e.term)
        res := { run.res with flags := flagsOr run.res.flags (statFlags {} e.nonfinite) } } })) ∧
  (∀ (r : Fin 32) (cl : Fin 96) (s : State) (run : MxeRun) (e : TqEntry) (l : Live), running s r = true →
    (s.cluster r cl).mxe = some run → run.drain = [e] → (s.cluster r cl).tq.length < 16 → owedTurn s r cl (s.cluster r cl) = none → run.cmd.bind (findLive (s.hub r)) = some l →
    exec (.finishedTilePush r cl) s = .next (finish ((xstat s r cl (run.stats.headD {})).setCluster r cl
      { (pushEntry (s.cluster r cl) e) with
        mxe := (pushEntry (s.cluster r cl) e).mxeNext.head?, mxeNext := (pushEntry (s.cluster r cl) e).mxeNext.drop 1 }) r l
      { (Res.withStat { run.res with flags := flagsOr run.res.flags (statFlags {} e.nonfinite) } (statOr run.seen (run.stats.headD {}))) with
        work := run.pushed + b2n (!e.term) })) ∧
  (∀ (r : Fin 32) (cl : Fin 96) (s : State) (e : TqEntry) (rest : List (Nat × TqEntry)), running s r = true →
    owedTurn s r cl (s.cluster r cl) = some (e, rest) → (s.cluster r cl).tq.length < 16 →
    exec (.finishedTilePush r cl) s = .next (s.setCluster r cl
      (pushEntry { (s.cluster r cl) with owed := rest, held := if (s.cluster r cl).mxe.isNone then none else (s.cluster r cl).held } e)) ∧
    (∀ (k : Nat), (s.cluster r cl).owed = (k, e) :: rest → (s.cluster r cl).mxe = none → fifoOf s r (100 + cl) = [] →
      (s.cluster r cl).pred = none →
      owedTurn s r cl (s.cluster r cl) = some (e, rest)))

/-- O7. VE_EXEC starts a command whose checks pass and executes it, and PRIME_RELEASE lets a waiting producer go on. With the vector engine
free and its FIFO's command well placed, VE_EXEC reads the 256-byte descriptor, keeps it, and executes a function that takes nothing from
the finished-tile queue: what it writes, counts and flags is the work of the function. A producer that waits for PRODUCERS to be reached
writes the scale of the combined maximum, sets the record's PRIMED flag and executes again. (R111, R112, R466, R72, R74) -/
def Obligations.VeCommandsExecute : Prop :=
  (∀ (r : Fin 32) (cl : Fin 96) (s u v w : State) (l : Live) (b : List Byte) (wake : Bool), running s r = true → (s.cluster r cl).ve = none →
    (s.cluster r cl).pred = none → fifoHead s r (200 + cl) = some l →
    u = updLive (fifoPop s r (200 + cl)) r l.id (fun x => { x with started := true }) → opAddr l.bytes % 64 = 0 →
    inPad r cl (opAddr l.bytes) 256 = true → readMem u (acctOf r l) (opAddr l.bytes) 256 = (.ok b, v) →
    w = updLive v r l.id (fun x => { x with unread := false }) → wake = (namesLong (vdOf b) && (w.cluster r cl).subDown && decide (modeByte w r 10 = 1)) →
    vdOk (vdOf b) (getLe l.bytes 0x31 1 % 8) = true → vdPlaces w r cl (vdOf b) = true → (vdOf b).out0.scaled = false → (vdOf b).qfed = false →
    exec (.veExec r cl) s = .next (veWhole (w.setCluster r cl { (w.cluster r cl) with
      ve := some { cmd := l.id, desc := b, cycles := if wake then 32 else 0 }, subDown := (w.cluster r cl).subDown && !wake }) r cl l (vdOf b))) ∧
  (∀ (r cl : Nat) (l : Live) (d : Vd) (s t u : State) (v : VeRun) (w : VeWork), (s.cluster r cl).ve = some v → v.prime = false →
    veWork s (acctOf r l) d (getLe l.bytes 0x31 1 % 8) v.scale l.step v.noRec = (w, t) → w.status = stOk → writePlans t (acctOf r l) w.plans = (none, u) →
    veWhole s r cl l d = veClose (w.adds.foldl (fun x a => sendRun x r cl l.step a)
      (updVe (u.bump (veXstatNfCount r cl) ((w.plans.map (fun p => p.nfCount)).sum + w.nfAdds)) r cl (fun v => { v with
        amax := w.plans.foldl (fun m p => max32 m p.amax) 0, sat := (w.plans.map (fun p => p.sat)).sum, flags := v.flags ||| w.flags,
        cycles := v.cycles + w.cycles, bytes := v.bytes + w.bytes, progress := d.out0.n1 * d.out0.n2 }))) r cl l d true) ∧
  (∀ (r : Fin 32) (cl : Fin 96) (s t : State) (v : VeRun) (l : Live) (b : List Byte), running s r = true → (s.cluster r cl).ve = some v →
    findLive (s.hub r) v.cmd = some l → v.phase = 2 → v.outstanding = 0 → l.struck = false → (vdHere v).qfed = false →
    reach s r (vdHere v).srec 320 = .serve → readMem s (acctOf r l) (vdHere v).srec 320 = (.ok b, t) → srProducers b ≤ getLe b 32 8 →
    exec (.primeRelease r cl) s = .next (veWhole ((updVe (writeNat (writeNat t (acctOf r l) (vdHere v).srec 4
      (scaleFor (vdHere v).out0.fmtOf (getLe b 12 4))).2 (acctOf r l) ((vdHere v).srec + 19) 1 (srFlags b ||| 1)).2 r cl (fun x => { x with
        phase := 0, prime := false, scale := scaleFor (vdHere v).out0.fmtOf (getLe b 12 4) })).put (veXstatPrimeWait r cl) 0) r cl l (vdHere v)))

/-- O8. UPE_UPDATE applies a committed step and passes over a skipped one. An engine with an update in progress whose step has its verdict
computes and writes the whole slice on COMMIT, and on SKIP ends OK with NONFINITE set, and on FAIL with STEP_FAILED; neither writes. Its
step is that of its slice's scan, once that is SCANNED, and else the one it was dispatched under. (R158, R159, R160, R155) -/
def Obligations.OptimizerUpdatesApplyTheVerdict : Prop :=
  (∀ (r : Fin 32) (d : Fin 2) (s u : State) (run : UpeRun) (l : Live) (tbl : List Slice) (x : Slice) (v : Verd), running s r = true →
    (s.upe r d).run = some run → findLive (s.hub r) run.cmd = some l → run.phase ≠ 2 → sliceTable s r = (tbl, u) → tbl[udSlice run.ud]? = some x →
    x.st = 2 → journalHolds u r (updateStep u r l x) = false → tabFind (updateStep u r l x) (u.flow r).verds = some v → v.v = 1 →
    exec (.upeUpdate r d) s = .next (upeApply u r d l run x (updateStep u r l x) v)) ∧
  (∀ (r : Fin 32) (d : Fin 2) (s u : State) (run : UpeRun) (l : Live) (tbl : List Slice) (x : Slice) (v : Verd), running s r = true →
    (s.upe r d).run = some run → findLive (s.hub r) run.cmd = some l → run.phase ≠ 2 → sliceTable s r = (tbl, u) → tbl[udSlice run.ud]? = some x →
    tabFind (updateStep u r l x) (u.flow r).verds = some v →
    (v.v = 2 → exec (.upeUpdate r d) s = .next (finish (setRun u r d none) r l
      { status := stOk, flags := flNonfinite, cycles := run.cycles, bytes := run.bytes })) ∧
    (v.v = 3 → exec (.upeUpdate r d) s = .next (finish (setRun u r d none) r l
      { status := stStepFailed, flags := run.flags, cycles := run.cycles, bytes := run.bytes }))) ∧
  (∀ (s : State) (r : Nat) (l : Live) (x : Slice),
    (x.st ≠ 2 → updateStep s r l x = l.step) ∧ (∀ t, x.st = 2 → tabFind x.idx (s.flow r).scanned = some (t + 1) → updateStep s r l x = t))

/-- O9. PAN_PUT stores, PAN_GET copies back, PAN_FREE removes. A put of a new key that fits starts its transfer to the range found for it on
the pannier's channel, one that does not fit takes the overflow of its policy, and one of a live key ends PAN_KEY_LIVE. When the transfer
has ended OK the put enters its entry. A get of a stored entry starts the transfer to its destination, and ends with its bytes when that
has ended OK; a get of a missing entry ends PAN_NO_ENTRY. A free of an entry that nothing depends on removes it, and any other ends
PAN_ANCHOR_BUSY. Each equation gives the whole next state. (R140, R141, R142, R145, R146, R232, R466) -/
def Obligations.PannierCommandsActOnEntries : Prop :=
  (∀ (r : Fin 32) (s t : State) (l : Live) (b : List Byte), panTurn s r 0x50 = some l → (s.pan r).run = none → l.barred = false →
    panDesc (panStarted s r l) r l = (.ok b, t) → inRegion t r (pdSrc b) (pdBytes b) = true → panFind t r (pdLayer b) (panMb l) = none →
    (∀ o, panFits t r (pdBytes b) = some o →
      exec (.panPut r) s = .next (panMove t r (panPutRun l b (.stored o)) 0 0 (pdSrc b) (stackBase r + o) (pdBytes b))) ∧
    (panFits t r (pdBytes b) = none → exec (.panPut r) s = .next (panOverflow t r l b))) ∧
  (∀ (r : Fin 32) (s t : State) (l : Live) (b : List Byte) (e : PanEntry), panTurn s r 0x50 = some l → (s.pan r).run = none → l.barred = false →
    panDesc (panStarted s r l) r l = (.ok b, t) → inRegion t r (pdSrc b) (pdBytes b) = true → panFind t r (pdLayer b) (panMb l) = some e →
    exec (.panPut r) s = .next (panEnd t r l { status := stPanKeyLive })) ∧
  (∀ (r : Fin 32) (s : State) (run : PanRun) (l : Live) (x : Res) (e : PanEntry) (o : Nat), (s.pan r).run = some run → running s r = true →
    findLive (s.hub r) run.cmd = some l → cmdOpcode l.bytes = 0x50 → run.done = some x → x.status = stOk → run.back = none → run.entry = some e →
    e.st = .stored o → exec (.panPut r) s = .next (panEnd (setEntries (updPanRun s r (fun p => { p with done := none })) r
      (((updPanRun s r (fun p => { p with done := none })).pan r).entries ++ [e])) r l { run.res with
        flags := flagsOr run.res.flags x.flags, bytes := run.res.bytes + x.bytes, cycles := run.res.cycles + x.cycles })) ∧
  (∀ (r : Fin 32) (s t : State) (l : Live) (b : List Byte), (s.pan r).run = none → panTurn s r 0x51 = some l →
    panDesc (panStarted s r l) r l = (.ok b, t) →
    (∀ (e : PanEntry) (o : Nat), panFind t r (pdLayer b) (panMb l) = some e → e.st = .stored o → inRegion t r (panDst l) e.bytes = true →
      exec (.panGet r) s = .next (panMove t r { cmd := l.id, pd := b, mb := panMb l } 0 0 (stackBase r + o) (panDst l) e.bytes)) ∧
    (panFind t r (pdLayer b) (panMb l) = none → exec (.panGet r) s = .next (panEnd t r l { status := stPanNoEntry }))) ∧
  (∀ (r : Fin 32) (s : State) (run : PanRun) (l : Live) (x : Res), (s.pan r).run = some run → running s r = true →
    findLive (s.hub r) run.cmd = some l → cmdOpcode l.bytes = 0x51 → run.done = some x → x.status = stOk → run.entry = none →
    exec (.panGet r) s = .next (panGot (updPanRun s r (fun p => { p with done := none })) r l (pdLayer run.pd) { run.res with
      flags := flagsOr run.res.flags x.flags, bytes := run.res.bytes + x.bytes, cycles := run.res.cycles + x.cycles })) ∧
  (∀ (r : Fin 32) (s t : State) (l : Live) (b : List Byte) (e : PanEntry), panTurn s r 0x52 = some l → panDesc (panStarted s r l) r l = (.ok b, t) →
    panFind t r (pdLayer b) (panMb l) = some e →
    exec (.panFree r) s = .next (if dependants t r e then panEnd t r l { status := stPanAnchorBusy } else
      panEnd (setEntries t r ((t.pan r).entries.filter (fun x => !decide (x.layer = e.layer ∧ x.mb = e.mb)))) r l {}))

/-- O10. PRED_RUN over a given list ends with its pair, PRED_EXPAND writes the expanded matrix. A PRED_RUN that uses a given list takes the
end of the pair it submitted, adding that pair's flags, cycles and bytes: OK, it goes on with the rest of its list, or completes OK at its
end; any other status ends it. PRED_EXPAND with a valid descriptor and a list below N writes every column of the list to its place and
zero elsewhere, and counts the elements read and written. (R176, R177, R179, R180, R466) -/
def Obligations.PredictorCommandsComplete : Prop :=
  (∀ (r : Fin 32) (cl : Fin 96) (s : State) (p : PredRun) (l : Live) (x : Res), running s r = true → (s.cluster r cl).pred = some p →
    findLive (s.hub r) p.cmd = some l → p.sub.bind (subEnd s r) = some x → l.struck = false → p.stage = 1 → p.useList = true →
    predHeld s r p.prd = false → ∃ q : PredRun, q = { p with sub := none, res := { p.res with
      flags := flagsOr p.res.flags x.flags, cycles := p.res.cycles + x.cycles, bytes := p.res.bytes + x.bytes } } ∧
    exec (.predRun r cl) s = .next (
      if x.status ≠ stOk then predEnd (clearSub s r (p.sub.getD 0)) r cl l q x.status
      else if q.k < q.f.length then predListed (clearSub s r (p.sub.getD 0)) r cl l { q with steps := 2 }
      else predEnd (clearSub s r (p.sub.getD 0)) r cl l { q with steps := 3 } stOk)) ∧
  (∀ (r : Fin 32) (cl : Fin 96) (s t u v w : State) (l : Live) (b lb sb : List Byte) (f : Fmt), predTurn s r cl 0x61 = some l →
    opAddr l.bytes % 64 = 0 → inPad r cl (opAddr l.bytes) 64 = true →
    readMem (updLive (fifoPop s r (400 + cl)) r l.id (fun x => { x with started := true })) (acctOf r l) (opAddr l.bytes) 64 = (.ok b, t) →
    fmtOfCode (getLe b 0x24 1) = some f → fmtScaled f = false → getLe b 0x25 1 = 1 → getLe b 0x18 4 ≤ getLe b 0x1C 4 → getLe b 0x1C 4 ≤ 65536 →
    getLe b 0x1C 4 ≠ 0 → getLe b 0x20 4 ≠ 0 →
    (∀ e ∈ expandRanges b (fmtBits f / 8) (getLe b 0x18 4) (getLe b 0x1C 4) (getLe b 0x20 4),
      addrOk t e.1 e.2 = true ∧ predAt r cl e.1 e.2 = true ∧ reach t r e.1 e.2 = .serve) →
    predRead t (acctOf r l) r cl (getLe b 0x10 8) (4 * getLe b 0x18 4) = (.ok lb, u) →
    ((chunksOf 4 (getLe b 0x18 4) lb).map leNat).all (fun j => decide (j < getLe b 0x1C 4)) = true →
    predRead u (acctOf r l) r cl (getLe b 0 8) (fmtBits f / 8 * getLe b 0x20 4 * getLe b 0x18 4) = (.ok sb, v) →
    predWrite v (acctOf r l) r cl (getLe b 8 8) (packElems f (expand true (getLe b 0x1C 4) (getLe b 0x20 4) ((chunksOf 4 (getLe b 0x18 4) lb).map leNat)
      (unpackBytes f (getLe b 0x20 4 * getLe b 0x18 4) sb))) = (none, w) →
    exec (.predExpand r cl) s = .next (finish w r l { bytes := fmtBits f / 8 * getLe b 0x20 4 * (getLe b 0x18 4 + getLe b 0x1C 4) }))

/-- O11. RETIRE_GRANT writes one record and RECORD_VISIBLE completes the command. A granted request that writes a record takes the slot at the
tail of its completion queue, and the tail moves on; as its record is issued the command leaves the live set and its tag joins the last 32
of its queue. A record in flight that is the oldest of its completion queue (which one, is free) is written to its slot, and the command's
signals are sent in their order, unless its status sends none. A wait past its limit is reported once, naming the wait. (R221, R222, R223,
R224, R217, R218) -/
def Obligations.CommandsRetireAndBecomeVisible : Prop :=
  (∀ (r : Fin 32) (s u t : State) (x : Req) (l : Live) (i n tail : Nat), (s.hub r).reqs.findIdx? (fun x => running s r && grantable s r x) = some i →
    (s.hub r).reqs[i]? = some x → x.cmd = some l.id → t = s.updHub r (fun h => { h with reqs := h.reqs.eraseIdx i }) → findLive (t.hub r) l.id = some l → x.ts = false →
    writesRecord t r x = true → l.disp ≠ 0 → u = endEffects t r x l.step (decide (cmdOpcode l.bytes = 0x10)) → n = u.get (cqCtrlLog2N r x.cq) →
    tail = u.get (cqTailTail r x.cq) →
    exec (.retireGrant r) s = .next (
      let w : RecWrite := {
        cmd := some l.id, q := x.q, cq := some x.cq, addr := u.get (cqBaseBase r x.cq) + 32 * (tail % 2 ^ n), status := x.res.status
        bytes := recordBytes x.tag x.res.status x.q false (!bitAt tail n) (if l.late then flagsOr x.res.flags flAbortLate else x.res.flags) x.res.progress
          x.res.cycles x.res.bytes
        event := u.on (cqCtrlEvent r x.cq), live := some { l with st := .retiring } }
      let v := (issueWrite u r w).put (cqTailTail r x.cq) ((tail + 1) % 2 ^ (n + 1))
      if cqFull v r x.cq then v.bump (cqStatusFullEvents r x.cq) 1 else v)) ∧
  (∀ (s : State) (r : Nat) (w : RecWrite) (l : Live), w.live = some l →
    ((issueWrite s r w).hub r).live = (s.hub r).live.filter (fun y => decide (y.id ≠ l.id)) ∧
    tabGet [] l.q ((issueWrite s r w).hub r).hist =
      ((if cmdOpcode l.bytes = 0x04 then none else some (cmdTag l.bytes)) :: tabGet [] l.q (s.hub r).hist).take 32 ∧
    ((issueWrite s r w).hub r).writes.getLast? = some w) ∧
  (∀ (r : Fin 32) (s t u : State) (w : RecWrite) (l : Live) (i c : Nat), running s r = true → pickWrite s r = (some (i, w), t) →
    w.live = some l → w.cq = some c →
    u = writeRecord (t.updHub r (fun h => { h with writes := h.writes.eraseIdx i })) r c w (if 4 ≤ l.q then some l.step else none) (getLe w.bytes 0 8) →
    exec (.recordVisible r) s = .next (if signalsOn w.status = true ∧ ¬ (l.drained = true ∧ w.status = stAborted) then
      (cmdSigs l.bytes).foldl (fun t g => sendSignal t r l.id l.q (cmdTag l.bytes) l.step g) u else u)) ∧
  (∀ (r : Fin 32) (q : Fin 8) (s : State) (l : Live) (w : Nat), headCmd (s.hub r) q = some l →
    ([0, 1, 2, 3].map (waitWord l.bytes)).find? (fun w => bitAt w 13 && decide (s.get (tokenValue r (waitOf w).token) < (waitOf w).threshold)) = some w →
    l.timedOut = false → queueOpen s r q = true → dispatchCheck s r l.bytes = none →
    exec (.waitTimeout r q) s = .next (raiseErr (updLive (s.put (hubStatWaitTo r) 1) r l.id (fun x => { x with timedOut := true })) 0x0601 0 r (unitOf 6 q) none
      (cmdTag l.bytes) w))

/-- O12. STEP_INCREMENT advances the counter and restarts every looping program. With every looping program of a running region at its wrap
point, no drain, no rerun hold and the last verdict known, the counter goes up by one with the images and stalls of an advance, every
looping queue counts a pass, and, with no step limit, every one of them stands at slot 0 again. (R219, R136, R52, R371) -/
def Obligations.StepCounterAdvances : Prop :=
  ∀ (r : Fin 32) (s u : State), running s r = true → loopers s r ≠ [] → (∀ q ∈ loopers s r, q ∈ (s.hub r).atWrap) → (s.hub r).draining = false →
    s.on (resStatRerunHold r) = false → s.get (hubStepCntStep r) ≤ (s.flow r).done →
    u = ((loopers s r).foldl (fun s q => s.put (qPassesPasses r q) (s.get (qPassesPasses r q) + 1)) (advanceStep (s.put (dfStatusAheadStall r) 0) r)).updHub r
      (fun h => { h with atWrap := [] }) →
    ((advanceStep (s.put (dfStatusAheadStall r) 0) r).hub r).stepLimit = 0 → aheadOf u r = false →
    exec (.stepIncrement r) s = .next ((loopers s r).foldl (fun s q => s.put (qHeadHead r q) 0) u)

/-- O13. LOAD of a full image and PARTIAL_APPLY of a pending partial. With start-up past step 13 and nothing in the way, LOAD of a staged full
image ends either with the full load and result code 1, or, where a check of the image fails, with that check's code, section and offset
and nothing else changed but the staging read. A pending partial whose affected hubs all count as stalled is applied, after an armed run
where a table is armed. (R49, R50, R51, R52, R270) -/
def Obligations.LoadsReplaceThePlanInForce : Prop :=
  (∀ (s t : State) (b : List Byte), s.rootLost = false → 13 ≤ s.get bootStatusStep → loadBusy s = false → s.on fwUpdateFwBusy = false →
    quiesced s = false → s.quiescing = 0 → 1024 ≤ s.get bsLenLen → s.get bsLenLen ≤ 0x40000000 →
    staged { s with loadHeld := false } (s.get bsLenLen) = (some b, t) → bhKind b = 0 →
    exec .load s = .next (match loadFault t b with
      | some f => loadResult t f.code f.sec f.off
      | none => loadResult (fullLoad t b) 1 0xFF 0)) ∧
  (∀ (s : State) (p : Partial), s.bs.part = some p → (∀ r ∈ p.affected, stalledFor s 1 r = true) → s.drl = none → s.on drlCtrlArm = false →
    exec .partialApply s = .next (applyPartial s p)) ∧
  (∀ (s t : State) (p : Partial), s.bs.part = some p → (∀ r ∈ p.affected, stalledFor s 1 r = true) → s.drl = none → s.on drlCtrlArm = true →
    t = drlStart s (s.get drlCtrlTableId) true → exec .partialApply s = .next (if t.drl = none then applyPartial t p else t))

/-- O14. CH_POST from firmware and CH_SHARE_WRITE of a channel of a region that is neither parked nor off. A post from firmware to a channel
whose FIFO and hand-overs hold fewer than four descriptors appends the descriptor's 48-bit address, and a post to a full FIFO or to the
pannier's channel raises POST_ERR. SHARE_CAP takes a value of at most 256, and PAUSED says whether it is 0; the pannier's channel and
larger values are ignored. (R231, R232, R244, R446) -/
def Obligations.DmaPostsAndShares : Prop :=
  (∀ (r : Fin 32) (ch : Fin 64) (v : W64) (s : State), quiesced s = false → blockUp s r = true →
    exec (.chPost .firmware r ch v) s = .next
      (if ch.val ≠ panChannel ∧ (s.chan r ch).fifo.length + (fifoOf s r (1000 + ch)).length < 4 then
        s.setChan r ch { (s.chan r ch) with fifo := (s.chan r ch).fifo ++ [{ addr := v.toNat % 2 ^ 48, cmd := none }] }
       else s.put (chStatusPostErr r ch) 1)) ∧
  (∀ (r : Fin 32) (ch : Fin 64) (v : W64) (s : State), exec (.chPost .rdma r ch v) s = .next s) ∧
  (∀ (r : Fin 32) (ch : Fin 64) (v : W64) (s : State), blockUp s r = true →
    exec (.chShareWrite r ch v) s = .next
      (if ch.val ≠ panChannel ∧ v.toNat % 512 ≤ 256 then
        (s.put (chShareShareCap r ch) (v.toNat % 512)).put (chStatusPaused r ch) (if v.toNat % 512 = 0 then 1 else 0)
       else s))

/-- O15. A descriptor starts, moves bursts, and ends with its record or its barrier. A channel without a transfer takes the next descriptor of
its FIFO: where its checks pass the transfer is in progress under the next number, else the descriptor retires with the status of the
check that failed; while a read of its checks is held for a parked region it does not start, and one that a region refuses ends it with
DMA_TARGET_LOST. A burst reads its list's entries again, takes the next 4096 bytes or the rest, and writes its pattern, writes what it
gathered or waits for what others answer, or posts; a compressing store keeps what it gathers and goes on once its source is in hand. Once
its last write has left, a transfer ends or, with a barrier, waits; the last acknowledgement ends it, and so does the barrier's limit,
with DMA_BARRIER_TIMEOUT. Each equation gives the whole next state. (R231, R239, R242, R244, R245, R246, R247, R248) -/
def Obligations.DmaTransfersRunToTheirRecord : Prop :=
  (∀ (r : Fin 32) (ch : Fin 64) (s t u : State) (job : DmaJob) (rest : List DmaJob) (k : Checked) (id : Nat), quiesced s = false →
    (s.chan r ch).xfer = none → (s.chan r ch).fifo = job :: rest → running s r = true → job.cmd = some id → descWay s r job ≠ .wait →
    checkDesc s (jobAcct s r job) job.addr = (k, t) → dCompress k.desc = false →
    u = updLive ({ t with nextTag := t.nextTag + 1 }.setChan r ch { (s.chan r ch) with fifo := rest }) r id (fun l => { l with started := true }) →
    exec (.dmaDescStart r ch) s = .next
      (if descWay s r job = .off then dmaRetire u r ch job k.desc { status := stDmaTargetLost, cycles := 33 }
       else if k.status = stOk then u.setChan r ch { (u.chan r ch) with xfer := some { id := t.nextTag, job := job, desc := k.desc, raw := k.raw, list := k.list, total := k.total } }
       else dmaRetire u r ch job k.desc { status := k.status, cycles := 33 })) ∧
  (∀ (r : Fin 32) (ch : Fin 64) (s : State) (job : DmaJob) (rest : List DmaJob), quiesced s = false →
    (s.chan r ch).xfer = none → (s.chan r ch).fifo = job :: rest → running s r = true → descWay s r job = .wait → exec (.dmaDescStart r ch) s = .next s) ∧
  (∀ (r : Fin 32) (ch : Fin 64) (s t u v : State) (job : DmaJob) (rest : List DmaJob) (k : Checked) (id : Nat) (p : Piece), quiesced s = false →
    (s.chan r ch).xfer = none → (s.chan r ch).fifo = job :: rest → running s r = true → job.cmd = some id → descWay s r job = .serve →
    checkDesc s (jobAcct s r job) job.addr = (k, t) → k.status = stOk → dCompress k.desc = true → p = k.list.headD { off := 0, addr := 0, len := 0 } →
    u = updLive ({ t with nextTag := t.nextTag + 1 }.setChan r ch { (s.chan r ch) with fifo := rest }) r id (fun l => { l with started := true }) →
    (∀ plan, bbcCheck u (jobAcct s r job) p.addr p.len p.zero (dDst k.desc) = (.ok (some plan), v) → exec (.dmaDescStart r ch) s = .next
      (v.setChan r ch { (v.chan r ch) with
        xfer := some { id := t.nextTag, job := job, desc := k.desc, raw := k.raw, list := k.list, total := k.total, elem := plan.m.elemMask } })) ∧
    (bbcCheck u (jobAcct s r job) p.addr p.len p.zero (dDst k.desc) = (.ok none, v) →
      exec (.dmaDescStart r ch) s = .next (dmaRetire v r ch job k.desc { status := stInvalidField, cycles := 33 })) ∧
    (∀ e, bbcCheck u (jobAcct s r job) p.addr p.len p.zero (dDst k.desc) = (.error e, v) →
      exec (.dmaDescStart r ch) s = .next (dmaRetire v r ch job k.desc { status := memStatus e, cycles := 33 }))) ∧
  (∀ (r : Fin 32) (ch : Fin 64) (s t u v : State) (x y : Xfer) (n : Nat), (s.chan r ch).xfer = some x → burstDue s r ch x = true → listWay s r x = .serve →
    (dRdma x.desc = true → peerUsable s (dPeer x.desc) = true) → n = min 4096 (x.total - x.next) →
    rereadTo r ch (x.next + n) x.raw.length s x = (stOk, y, t) → u = updXfer t r ch (fun _ => y) →
    v = updXfer u r ch (fun z => { z with next := x.next + n, started := z.started + 1 }) →
    (dDop y.desc = 1 → exec (.dmaBurst r ch) s = .next (landBurst v r ch y x.next
      ((List.range n).map (fun i => (slice (slice y.desc 0x28 8) ((x.next + i) % 8) 1).headD 0)))) ∧
    (dDop y.desc = 3 → exec (.dmaBurst r ch) s = .next (updXfer
      (qpPost v (dPeer y.desc) { op := 1, addr := dDst y.desc + x.next, len := n, use := .dmaRead r ch y.id x.next }) r ch
      (fun z => { z with bursts := z.bursts ++ [{ off := x.next, len := n, buf := List.replicate n 0, reads := 1 }] }))) ∧
    (∀ (b : Burst) (w : State), dDop y.desc ≠ 1 → dDop y.desc ≠ 3 →
      gatherPieces v r ch y x.next (piecesIn (sourceList y) x.next n) { off := x.next, len := 0, buf := [], reads := 0 } = (b, w) →
      exec (.dmaBurst r ch) s = .next (
        if dDop y.desc = 2 then postReady (updXfer w r ch (fun z => { z with bursts := z.bursts ++ [b] })) r ch y.id 8
        else if b.reads = 0 then compressGo (landBurst w r ch y x.next b.buf) r ch 2
        else updXfer w r ch (fun z => { z with bursts := z.bursts ++ [b] })))) ∧
  (∀ (r : Fin 32) (ch : Fin 64) (s : State) (x : Xfer), (s.chan r ch).xfer = some x → burstDue s r ch x = false → running s r = true →
    exec (.dmaBurst r ch) s = .next (compressGo s r ch 2)) ∧
  (∀ (r : Fin 32) (ch : Fin 64) (s : State) (x : Xfer), (s.chan r ch).xfer = some x → burstDue s r ch x = true → listWay s r x = .off →
    exec (.dmaBurst r ch) s = .next (failXfer s r ch stDmaTargetLost)) ∧
  (∀ (r : Fin 32) (ch : Fin 64) (s : State) (x : Xfer), (s.chan r ch).xfer = some x → burstDue s r ch x = true → listWay s r x = .serve →
    dRdma x.desc = true → peerUsable s (dPeer x.desc) = false → exec (.dmaBurst r ch) s = .next (failXfer s r ch stDmaRdmaRetry)) ∧
  (∀ (r : Fin 32) (ch : Fin 64) (s : State) (x : Xfer), (s.chan r ch).xfer = some x → running s r = true → lastLeft x = true →
    exec (.dmaLastWriteLeft r ch) s = .next (if dBarrier x.desc then updXfer s r ch (fun x => { x with barWait := true }) else endXfer s r ch x)) ∧
  (∀ (r : Fin 32) (ch : Fin 64) (s : State) (x : Xfer), (s.chan r ch).xfer = some x → running s r = true → x.barWait = true → x.acks = 0 →
    exec (.dmaBarrierAck r ch) s = .next (endXfer s r ch x)) ∧
  (∀ (r : Fin 32) (ch : Fin 64) (s : State) (x : Xfer), (s.chan r ch).xfer = some x → running s r = true → x.barWait = true →
    exec (.dmaBarrierTimeout r ch) s = .next (endXfer s r ch { x with status := if x.status = stOk then stDmaBarrierTimeout else x.status }))

/-- O16. FLIT_RECEIVE takes the next good flit, counts a failed check, and fails the link at the ninth. At a ring that is up, with no
injection armed, a flit of 512 bytes that matches the CRC of its sideband is taken when it carries the expected sequence number, which
then advances by 1 modulo 256, and joins the message it is part of; any other is dropped. A failed check is counted, with a record at each
REPLAY_STEP of them, and the sender replays its retry buffer from the number that is due; the ninth of one flit fails the link. The
equation gives the whole next state in every case. (R252, R253, R259) -/
def Obligations.LinkFlitsAreCheckedAndOrdered : Prop :=
  ∀ (stop : Fin 36) (ring : Fin 16) (d : Bool) (flit : List Byte) (sb : W64) (s : State) (k : Nat) (x : Stop), bitAt (s.get ringStatusRingUp) ring = true →
    s.inj = none → k = ring.val * 2 + b2n d → x = s.stop stop →
    exec (.flitReceive stop ring d flit sb) s = .next
      (if flit.length = 512 ∧ field sb.toNat 16 32 = crc32c (flit ++ natLe 2 (sb.toNat % 2 ^ 16)) then
        (if field sb.toNat 8 8 = tabGet 0 k x.lseq then
          takeFlit (endReplay (s.setStop stop { x with
            lseq := tabPut k ((field sb.toNat 8 8 + 1) % 256) x.lseq, fails := tabErase k x.fails, tainted := setDel k x.tainted }) stop k
            (field sb.toNat 8 8)) stop ring k
            (sb.toNat % 8) flit
         else s)
       else if 8 ≤ tabGet 0 k x.fails then
        linkFail (s.setStop stop { x with fails := tabErase k x.fails, tainted := setDel k x.tainted }) stop ring (b2n d) (x.tainted.contains k)
       else if tabGet 0 k x.replays + 1 < s.get errThreshReplayStep then
        askReplay ((s.setStop stop { x with
          fails := tabPut k (tabGet 0 k x.fails + 1) x.fails, replays := tabPut k (tabGet 0 k x.replays + 1) x.replays }).bump (stopLinkCrcErr stop ring) 1)
          stop k (tabGet 0 k x.lseq)
       else
        raiseErr (askReplay ((s.setStop stop { x with
          fails := tabPut k (tabGet 0 k x.fails + 1) x.fails, replays := tabPut k 0 x.replays }).bump (stopLinkCrcErr stop ring) 1) stop k
          (tabGet 0 k x.lseq)) 0x0201 0 stop (unitOf 5 ring) none 0 (tabGet 0 k x.replays + 1) (x.tainted.contains k))

/-- O17. MEM_WR, MEM_RD and ATOMIC at a stop that runs act on its stores and are answered. A memory message that is first of its way at a
running destination, and is not of a posted transfer or of RDMA into a stack that a derailleur run names, is taken off the ring; a write
puts its bytes at its address and is acknowledged where it asks for it, a read answers the bytes, an atomic answers the old value, and one
that cannot be done its RSTATUS. Such a write or read waits until the run ends. At a freewheeled destination a request that is to be
answered is answered RSTATUS 1 with nothing read or changed, and another write is counted in UNDELIV. (R255, R195, R267) -/
def Obligations.MemoryMessagesAreServed : Prop :=
  (∀ (i : Nat) (s t : State) (m : Msg) (e : Option MemErr), arriving s i 0 = some m → heldAtStop s m = false → freewheels s m.dst = false →
    writeMem (deliver s i m) { noStep m.dst with posted := m.posted } m.addr m.data = (e, t) →
    exec (.memWr i) s = .next (if m.ackReq then respond t m ((e.map rstatusOfErr).getD 0) [] else t)) ∧
  (∀ (i : Nat) (s t : State) (m : Msg) (c : Acct), arriving s i 1 = some m → heldAtStop s m = false → freewheels s m.dst = false → c = { noStep m.dst with posted := m.posted } →
    (∀ b, readMem (deliver s i m) c m.addr m.len = (.ok b, t) → exec (.memRd i) s = .next (respond t m 0 b)) ∧
    (readMem (deliver s i m) c m.addr m.len = (.error .fault, t) → exec (.memRd i) s = .next (respond t m 3 [])) ∧
    (∀ b u, readMem (deliver s i m) c m.addr m.len = (.error .uncorrectable, t) →
      readMem t c m.addr (goodBytes (deliver s i m) m.addr m.len) = (.ok b, u) → exec (.memRd i) s = .next (respond u m 2 b))) ∧
  (∀ (i n v cmp : Nat) (s t : State) (m : Msg) (c : Acct), arriving s i 3 = some m → freewheels s m.dst = false → n = atomicBytes m.mfmt →
    c = (match m.acct with | some (k, _) => inStep m.src k | none => noStep m.src) →
    (v, cmp) = (if m.mfmt = 5 then (getLe m.data 8 8, getLe m.data 0 8) else (getLe m.data 0 n, 0)) →
    (∀ old nf, doAtomic (deliver s i m) c m.mfmt m.addr v cmp = (.done old nf, t) → exec (.atomic i) s = .next (respond t m 0 (natLe n old))) ∧
    (doAtomic (deliver s i m) c m.mfmt m.addr v cmp = (.fault, t) → exec (.atomic i) s = .next (respond t m 3 [])) ∧
    (doAtomic (deliver s i m) c m.mfmt m.addr v cmp = (.misaligned, t) → exec (.atomic i) s = .next (respond t m 4 [])) ∧
    (doAtomic (deliver s i m) c m.mfmt m.addr v cmp = (.uncorrectable, t) → exec (.atomic i) s = .next (respond t m 2 []))) ∧
  (∀ (i : Nat) (s : State) (m : Msg), heldAtStop s m = true →
    (arriving s i 0 = some m → exec (.memWr i) s = .next s) ∧ (arriving s i 1 = some m → exec (.memRd i) s = .next s)) ∧
  (∀ (i : Nat) (s : State) (m : Msg), freewheels s m.dst = true → heldAtStop s m = false →
    (arriving s i 0 = some m → exec (.memWr i) s = .next (if m.ackReq then respond { s with ring := s.ring.eraseIdx i } m 1 [] else undelivered s i m)) ∧
    (arriving s i 1 = some m → exec (.memRd i) s = .next (respond { s with ring := s.ring.eraseIdx i } m 1 [])) ∧
    (arriving s i 3 = some m → exec (.atomic i) s = .next (respond { s with ring := s.ring.eraseIdx i } m 1 [])))

/-- O18. MEM_RSP and RED_ACK settle the request whose tag they carry. An answer that is first of its way is taken off the ring and ends its
request for the waiter that the tag names (a RED_ACK by its ACK_SLOT): with any RSTATUS but 1 the waiter takes its answer, a refusal from
a region that the map does not show off is held at the asking stop, and the answer to a signal hands the signal to R217. (R255, R263,
R350, R217) -/
def Obligations.AnswersReachTheirAsker : Prop :=
  ∀ (i : Nat) (s : State) (m n : Msg) (c : Instr) (w : Waiter), (c = .memRsp i ∧ arriving s i 2 = some m ∧ n = m ∨
      c = .redAck i ∧ arriving s i 5 = some m ∧ n = { m with mtag := slotTag m.dst m.ackSlot }) → tabFind n.mtag (deliver s i m).waiters = some w →
    ((∀ r d q k, w ≠ .signal r d q k) → m.rstatus ≠ 1 → exec c s = .next (settleAnswer (deliver s i m) n w)) ∧
    ((∀ r d q k, w ≠ .signal r d q k) → m.rstatus = 1 → m.src < 32 → mapSt (deliver s i m) m.src ≠ .off →
      exec c s = .next (holdRequest (deliver s i m) m.dst n.mtag)) ∧
    (∀ r d q k, w = .signal r d q k → exec c s = .next (refusedSignal (deliver s i m) n r d q))

/-- O19. RED_ADD, SIGNAL, SIGNAL_RESEND and HELD_REQUEST_RESEND have their effect. An add, with those it was combined with on its way (a free
choice), lands at its region or its port die's page, and is answered RSTATUS 1 at a freewheeled region. A signal to a running region takes
effect on the token; one to a parked region waits in the signal store while fewer than 256 wait and is refused beyond; one to a fenced or
excluded region is dropped and counted. A refused signal goes again under a fresh tag, with its command's step and tag, once its region
runs, and a held request goes again as it was. (R216, R217, R261, R263, R267, R305, R350) -/
def Obligations.AddsAndSignalsLand : Prop :=
  (∀ (i j : Nat) (s u : State) (m n : Msg), arriving s i 4 = some m → (32 ≤ m.dst → pageBlocked s m = false) → combineAdds s i = (j, u) →
    n = (u.ring[j]?).getD m →
    exec (.redAdd i) s = .next (if freewheels u n.dst then redAcks { u with ring := u.ring.eraseIdx j } n.dst n.ring n.addr 1 false n.srcMap
      else if 32 ≤ n.dst then pageAdd (deliver u j n) n else regionAdd (deliver u j n) n)) ∧
  (∀ (i : Nat) (s : State) (m : Msg), arriving s i 4 = some m → 32 ≤ m.dst → pageBlocked s m = true → exec (.redAdd i) s = .next s) ∧
  (∀ (i : Nat) (s : State) (m : Msg), arriving s i 6 = some m → fenced s m.dst = false → excluded s m.dst = false →
    exec (.signal i) s = .next
      (if freewheels s m.dst = false then
        signalToken (settleTag (deliver s i m) m.mtag) m.dst m.token m.scount (m.acct.map (·.1)) ((m.acct.map (·.2)).getD 0)
       else if (s.stop m.dst).signals.length < 256 then
        (settleTag { s with ring := s.ring.eraseIdx i } m.mtag).setStop m.dst { (s.stop m.dst) with signals := (s.stop m.dst).signals ++ [m] }
       else inject (undelivered s i m) { cls := 2, src := m.dst, dst := m.src, ring := m.ring, mtag := m.mtag, rstatus := 1, token := m.token,
                                                scount := m.scount, acct := m.acct })) ∧
  (∀ (i : Nat) (s : State) (m : Msg), arriving s i 6 = some m → fenced s m.dst = true ∨ excluded s m.dst = true →
    exec (.signal i) s = .next (dropSignal (undelivered s i m) m.src m.mtag)) ∧
  (∀ (r : Fin 32) (s t u : State) (n : Nat) (x : Refused), nextRefused s r = some n → (s.hub r).unsettled[n]? = some x → running s r = true →
    t = s.updHub r (fun h => { h with unsettled := h.unsettled.eraseIdx n }) → fenced t x.region = false → excluded t x.region = false →
    u = (newTag t (.signal r x.cmd x.q x.step)).2 →
    exec (.signalResend r) s = .next (inject u { cls := 6, src := r, dst := x.region, token := x.token, scount := x.count, mtag := t.nextTag,
                                                 acct := some (x.step, x.tag) })) ∧
  (∀ (stop : Fin 36) (s : State) (n : Nat) (m : Msg), (s.stop stop).held.findIdx? (fun m => decide (32 ≤ m.dst ∨ mapSt s m.dst ≠ .parked)) = some n →
    (s.stop stop).held[n]? = some m → freewheels s stop = false →
    exec (.heldRequestResend stop) s = .next (inject (s.setStop stop { (s.stop stop) with held := (s.stop stop).held.eraseIdx n }) m))

/-- O20. NOTICE, SLICE_SCAN, VOTE_CAST and VOTE move a step towards its verdict. A contribution notice for a running region counts at every
slice that its range overlaps: below EXPECT the counter rises, at EXPECT the slice is released, and a slice that is not open or is already
full is faulted; an abort notice faults the first such slice. At a freewheeled region a notice is counted in UNDELIV. The scan of a
released DEST 0 slice marks it scanned, notes an element that is not finite, and adds to the sum of squares where its update descriptor
asks for it; a slice that cannot be read is only marked scanned. A voting region corrects a vote that trouble has overtaken, and else
votes for its earliest step not voted on once it is over and every slice is scanned, naming it in DF_STATUS. A vote, with those it was
combined with on its way (a free choice), counts at the gate, which then decides what it can. (R149, R150, R151, R152, R153, R264, R267) -/
def Obligations.SlicesAreScannedAndVotedOn : Prop :=
  (∀ (i : Nat) (s t : State) (m : Msg) (l : List Slice), arriving s i 7 = some m →
    (freewheels s m.dst = true → exec (.notice i) s = .next ({ s with ring := s.ring.eraseIdx i }.bump (stopUndelivUndeliv m.dst) 1)) ∧
    (freewheels s m.dst = false → sliceTable (deliver s i m) m.dst = (l, t) →
      (m.nkind ≠ 1 → exec (.notice i) s = .next ((slicesIn l m.addr m.rangeLen).foldl (fun u x => contribute u m.dst m.step x) t)) ∧
      (m.nkind = 1 → slicesIn l m.addr m.rangeLen = [] → exec (.notice i) s = .next t) ∧
      (∀ x rest, m.nkind = 1 → slicesIn l m.addr m.rangeLen = x :: rest → exec (.notice i) s = .next (ownerFault t m.dst m.step x.base)))) ∧
  (∀ (s : State) (r t : Nat) (x : Slice),
    (x.st = 0 → x.contrib t + 1 < x.expect → contribute s r t x = putSlice s r x (0x10 + 2 * (t % 2)) 2 (x.contrib t + 1)) ∧
    (x.st = 0 → x.contrib t + 1 = x.expect → contribute s r t x = release (putSlice s r x (0x10 + 2 * (t % 2)) 2 (x.contrib t + 1)) r t x) ∧
    (x.st ≠ 0 ∨ x.expect < x.contrib t + 1 → contribute s r t x = sliceFault s r t x.base)) ∧
  (∀ (r : Fin 32) (index step : Nat) (s t u w : State) (l : List Slice) (x : Slice) (f : Fmt) (vals : List Nat), running s r = true →
    sliceTable s r = (l, t) → l[index]? = some x → x.st = 1 → x.dest = 0 → step = tabGet 1 index (t.flow r).released - 1 →
    (∀ e, readMem t (inStep r step) x.base x.bytes = (.error e, u) → exec (.sliceScan r index) s = .next (markScanned u r x step)) ∧
    (∀ b, readMem t (inStep r step) x.base x.bytes = (.ok b, u) → f = (if x.pw16 then Fmt.pw16 else Fmt.b32) →
      vals = unpackBytes f (x.bytes / (if x.pw16 then 2 else 4)) b →
      w = (if vals.all (fun v => isFinite (decNum f v)) then u else updFlow u r (fun g => { g with nf := setIns step g.nf })) →
      ∀ ud v, readMem w (inStep r step) x.target 128 = (.ok ud, v) →
      exec (.sliceScan r index) s = .next (markScanned (if bitAt (getLe ud 0x3D 1) 1 then
        updFlow v r (fun g => { g with sumsq := tabPut step (add32 (tabGet 0 step g.sumsq) (clipSum f (lossOf v r step) vals)) g.sumsq }) else v) r x step))) ∧
  (∀ (r : Fin 32) (s : State) (t : Nat), running s r = true → (voters s).contains r.val = true → (s.hub r).draining = false →
    lateTrouble (s.flow r) = some t → exec (.voteCast r) s = .next (sendVote s r t 0 (voteBits (s.flow r) t) 0)) ∧
  (∀ (r : Fin 32) (s t : State) (l : List Slice), running s r = true → (voters s).contains r.val = true → (s.hub r).draining = false →
    lateTrouble (s.flow r) = none → sliceTable s r = (l, t) → (s.flow r).voted < s.get (hubStepCntStep r) → stepDone s r (s.flow r).voted = true →
    (∀ x ∈ l, (s.flow r).voted + 1 ≤ tabGet 0 x.idx (s.flow r).scanned) →
    exec (.voteCast r) s = .next ((updFlow (sendVote t r (s.flow r).voted 1 (voteBits (s.flow r) (s.flow r).voted) (tabGet 0 (s.flow r).voted (s.flow r).sumsq)) r
      (fun f => { f with voted := (s.flow r).voted + 1 })).put (dfStatusVotedStep r) (s.flow r).voted)) ∧
  (∀ (i j : Nat) (s u : State) (m n : Msg), arriving s i 8 = some m → combineVotes s i = (j, u) → n = (u.ring[j]?).getD m →
    exec (.vote i) s = .next (settleGate (countVote (deliver u j n) n))) ∧
  (∀ (s : State) (m : Msg) (y z : Tally), s.gate.next ≤ m.step → y = tabGet {} m.step s.gate.tally → z = tabGet {} m.step (countVote s m).gate.tally →
    z.count = y.count + m.count ∧ z.nf = (y.nf || bitAt m.vnf 0) ∧ z.fail = (y.fail || bitAt m.vnf 1) ∧
    (m.count ≠ 0 → z.sumsq = add32 y.sumsq m.sumsq)) ∧
  (∀ (s : State) (m : Msg), m.step < s.gate.next → countVote s m = s)

/-- O21. VERDICT takes effect at its stop, and GATE_TIMEOUT reports the missing voters. A verdict goes to the next stop of its direction that
copies it, a voter's or a port die's, and on from there unless none follows: a port die applies it, a running voter's hub applies it, the
copy of a parked voter is held at that voter's stop, and one for a region that is off is gone. When votes of the next step are missing for
the limit of R154, the step is reported once, with the missing voters, and TIMED_OUT is set. (R154, R155, R265) -/
def Obligations.VerdictsReachHubsAndPortDies : Prop :=
  (∀ (i : Nat) (s t : State) (m : Msg) (st : Nat) (rest : List Nat), arriving s i 9 = some m → copiers s (verdictWay m) = st :: rest → t = passedStop s i st m →
    (32 ≤ st → exec (.verdict i) s = .next (pdVerdict t (st - 32) m.step m.verdict m.lossScale (decide (m.nkind = 1)))) ∧
    (st < 32 → mapSt t st = .running → exec (.verdict i) s = .next (hubVerdict t st m)) ∧
    (st < 32 → mapSt t st = .parked → exec (.verdict i) s = .next
      (t.setStop st { (t.stop st) with held := (t.stop st).held ++ [{ m with src := st, dst := st, via := none }] })) ∧
    (st < 32 → mapSt t st = .off → exec (.verdict i) s = .next t)) ∧
  (∀ (i : Nat) (s : State) (m : Msg), arriving s i 9 = some m → copiers s (verdictWay m) = [] → exec (.verdict i) s = .next (deliver s i m)) ∧
  (∀ (i st : Nat) (s : State) (m : Msg) (l : List Nat), m.src ≠ m.dst → l = copiers s ((verdictWay m).dropWhile (fun x => decide (x ≠ st))) →
    (2 ≤ l.length → passedStop s i st m = { s with ring := s.ring.set i { m with via := some st } }) ∧
    (l.length ≤ 1 → passedStop s i st m = deliver s i m)) ∧
  (∀ (s : State) (l : List Nat) (st : Nat), st ∈ copiers s l ↔ st ∈ l ∧ (32 ≤ st ∨ st ∈ voters s)) ∧
  (∀ (s t : State) (y : Tally) (missing : List Nat), tabFind s.gate.next s.gate.tally = some y → y.count ≠ 0 → s.gate.warned.contains s.gate.next = false →
    missing = (voters s).filter (fun r => !y.voters.contains r) → t = { s with gate := { s.gate with warned := setIns s.gate.next s.gate.warned } } →
    exec .gateTimeout s = .next (raiseErr (t.put gateStatusTimedOut 1) 0x0604 0 33 0 (some s.gate.next) 0 (maskOf missing)
      (missing.any (fun r => decide (t.get (clkStatRstate r) = 3) && (t.plant r).parkInj))))

/-- O22. GO, ARM, DERAIL, DERAIL_DONE and TARGET_LOST, and MGMT register writes. GO names its table and starts a run unless one is in progress
or a partial is pending; ARM names its table and sets or clears ARM, and while a partial is pending the regions of the armed table count
as affected. A derailleur message lands at its destination and is answered, and the run goes on; at a freewheeled region it is answered
RSTATUS 1. The end of a run frees the requests held for it. A region of the run that stops running loses it. A firmware register write has
the effect of that write at its stop, and a message to a freewheeled stop is counted in UNDELIV. (R268, R270, R271, R446) -/
def Obligations.DerailleurCommandsMoveARun : Prop :=
  (∀ (table : BitVec 16) (s : State), quiesced s = false →
    exec (.go table) s = .next (if (s.put drlCtrlTableId table.toNat).drl = none ∧ (s.put drlCtrlTableId table.toNat).on bsStatusPending = false then
      drlStart (s.put drlCtrlTableId table.toNat) table.toNat false else s.put drlCtrlTableId table.toNat)) ∧
  (∀ (table : BitVec 16) (set : Bool) (s : State),
    exec (.arm table set) s = .next (affectArmed ((s.put drlCtrlTableId table.toNat).put drlCtrlArm (if set then 1 else 0)))) ∧
  (∀ s : State, s.bs.part = none → affectArmed s = s) ∧
  (∀ (i : Nat) (s : State) (m : Msg), arriving s i 0xA = some m → freewheels s m.dst = false →
    exec (.derail i) s = .next (drlPump (respond (derailLand (deliver s i m) m) m 0 []))) ∧
  (∀ (i : Nat) (s : State) (m : Msg), arriving s i 0xA = some m → freewheels s m.dst = true →
    exec (.derail i) s = .next (respond { s with ring := s.ring.eraseIdx i } m 1 [])) ∧
  (∀ s : State, exec .derailDone s = .next (serveAllHeld (derailEnd s))) ∧
  (∀ (r : Fin 32) (s : State) (d : DrlRun), s.drl = some d → running s r = false → d.entries.any (fun e => decide (e.dst = r.val)) = true →
    exec (.targetLost r) s = .next (updDrl s (fun d => { d with lost := true }))) ∧
  (∀ (stop : Fin 36) (a v : W64) (s : State) (pl : RegPlace), freewheels s stop = false → regPlace a.toNat = some pl → a.toNat % 8 = 0 →
    atStop stop pl = true → exec (.mgmt stop (.regWrite a v)) s = .next (writeWord s .firmware pl v.toNat)) ∧
  (∀ (stop : Fin 36) (m : MgmtMsg) (s : State), freewheels s stop = true → exec (.mgmt stop m) s = .next (s.bump (stopUndelivUndeliv stop) 1))

/-- O23. WB, INV, SCRUB_NOW, SCRUB_PASS, DVFS_STEP and REQ_MODE_WRITE. In a region that is neither parked nor off WB writes every dirty line
back and keeps it, INV writes back and empties, SCRUB_NOW begins an extra pass, and, in a running one, the end of a pass without faulty
units clears BUSY and counts the pass. DVFS_STEP moves the root by at most 100 MHz towards its target without passing it. A request of a
mode other than 3 enters it, with SWITCHING set. (R192, R202, R203, R205, R344, R355) -/
def Obligations.CachesScrubbersAndModesFollowTheirCommands : Prop :=
  (∀ (r : Fin 32) (s : State), blockUp s r = true → exec (.wb r) s = .next (writeBack s r)) ∧
  (∀ (r : Fin 32) (s : State), blockUp s r = true → exec (.inv r) s = .next (writeBackInv s r)) ∧
  (∀ (r : Fin 32) (s : State), quiesced s = false → blockUp s r = true → exec (.scrubNow r) s = .next
    (if s.on (stkScrubScrubBusy r) then s else s.put (stkScrubScrubBusy r) 1)) ∧
  (∀ (r : Fin 32) (s : State), running s r = true → (∀ e ∈ s.marks, ¬ (inStack e.1 = true ∧ regionOf e.1 = r.val)) → exec (.scrubPass r) s = .next
    (({ s with scrubDevs := tabDrop (fun i => decide (i / 32 = r.val * 2 + b2n (s.on (stkScrubScrubBusy r)))) s.scrubDevs }.put
      (stkScrubScrubBusy r) 0).bump (stkScrubPasses r) 1)) ∧
  (∀ (r : Fin 32) (s : State) (now goal : Nat), s.get (clkStatRstate r) = 1 → now = s.get (clkStatRootMhz r) → goal = s.get (clkStatTargetMhz r) →
    exec (.dvfsStep r) s = .next (settleMode (s.put (clkStatRootMhz r) (if now < goal then min goal (now + 100) else max goal (now - 100))))) ∧
  (∀ (mode : BitVec 2) (s : State), mode ≠ 3 → exec (.reqModeWrite mode) s = .next (settleMode ((enterMode s mode.toNat).put modeCtrlSwitching 1)))

/-- O24. MONITOR_SAMPLE shows its readings, and THERMAL_TARGET_STEP throttles and releases. A sample of a powered region leaves TJ as the
readings give it and TJ_MAX at the larger of the two, and parks nothing below 115 °C and a stack below 100 °C. While a source is at its
throttle point a target step lowers the thermal target by 100 MHz, not below 1200, and counts the start of a throttle; while none is
within 3 °C it raises it by 100 MHz, or drops it once it no longer binds. (R346, R347, R348, R353) -/
def Obligations.HeatMovesTheTarget : Prop :=
  (∀ (r : Fin 32) (m : Readings) (s t : State), s.get (clkStatRstate r) ≠ 0 →
    t = sampleStack (forN 4 (fun i u => u.put (pmonFRo r i) (m.freqs.getD i 0).toNat) (forN 8 (fun i u => sampleVolt u r i (m.volts.getD i 0).toNat)
      (forN 16 (fun i u => sampleTemp u r i (m.temps.getD i 0).toNat) s))) r (m.stack.foldl (fun a b => max a b.toNat) 0) →
    exec (.monitorSample r m) s = .next
      (let u := t.puts [(thermStatTj r, tjShown t r), (thermStatTjMax r, max (tjShown t r) (t.get (thermStatTjMax r)))]
       if 115 * 16 ≤ tj16 u r ∨ 100 ≤ u.get (stkThermTemp r) then decideThermalPark u r else u)) ∧
  (∀ (r : Fin 32) (s t : State) (ceil : Nat), s.get (clkStatRstate r) = 1 → ceil = modeRoot s (s.get modeCtrlCurMode) →
    (16 * (s.get (thermCtrlTjThrottle r) : Int) ≤ tj16 s r ∨ s.get (stkThermLimit r) ≤ s.get (stkThermTemp r)) →
    t = retarget (updPlant s r (fun p => { p with
      thermMhz := some (max 1200 ((s.plant r).thermMhz.getD (min ceil ((s.plant r).cuffMhz.getD ceil)) - 100)) })) r →
    exec (.thermalTargetStep r) s = .next
      (if t.on (thermStatThrottled r) then t else (t.put (thermStatThrottled r) 1).bump (thermStatThrottleEvents r) 1)) ∧
  (∀ (r : Fin 32) (s : State) (m top : Nat), s.get (clkStatRstate r) = 1 → tj16 s r < 16 * (s.get (thermCtrlTjThrottle r) : Int) - 48 →
    s.get (stkThermTemp r) < s.get (stkThermLimit r) → s.on (stkThermThrottle r) = false → (s.plant r).thermMhz = some m →
    top = min (modeRoot s (s.get modeCtrlCurMode)) ((s.plant r).cuffMhz.getD 4095) →
    exec (.thermalTargetStep r) s = .next
      (if top ≤ m + 100 then (retarget (updPlant s r (fun p => { p with thermMhz := none })) r).put (thermStatThrottled r) 0
       else retarget (updPlant s r (fun p => { p with thermMhz := some (m + 100) })) r))

/-- O25. PARK, RESUME_REGION, PARK_LIMIT_EXPIRY and HW_TRIP. A region that is parking and quiet writes its caches back and is PARKED with its
root stopped. A parked region that may resume is RUNNING again at 1200 MHz, its held signals are applied in order and the held requests
are served. A thermal park past its limit while still hot turns the region off, and so does a hardware trip. (R338, R348, R349, R350,
R352, R354) -/
def Obligations.RegionsParkResumeAndTrip : Prop :=
  (∀ (r : Fin 32) (thermal : Bool) (s : State), s.get (clkStatRstate r) = 2 → s.on (if thermal then clkStatParkTherm r else clkStatParkCuff r) = true →
    quiet s r = true → exec (.park r thermal) s = .next ((writeBack s r).puts [(clkStatRstate r, 3), (clkStatRootMhz r, 0), (pwrStatPstate r, 4)])) ∧
  (∀ (r : Fin 32) (d : Draws) (s t u v : State), mayResume (measure s d) r d = true →
    t = (measure s d).puts [(clkStatRstate r, 1), (clkStatParkTherm r, 0), (clkStatRootMhz r, 1200), (pwrStatPstate r, 3)] →
    u = retarget (updPlant t r (fun p => { p with
      thermMhz := if (measure s d).on (clkStatParkTherm r) then some 1200 else p.thermMhz, cuffMhz := if p.unparked then some 1200 else p.cuffMhz
      unparked := false, parkInj := false })) r →
    v = (if (measure s d).on (clkStatParkTherm r) = true ∧ u.on (thermStatThrottled r) = false then
      (u.put (thermStatThrottled r) 1).bump (thermStatThrottleEvents r) 1 else u) →
    exec (.resumeRegion r d) s = .next (serveAllHeld ((v.stop r).signals.foldl
      (fun s m => signalToken s r m.token m.scount (m.acct.map (·.1)) ((m.acct.map (·.2)).getD 0)) (v.setStop r { (v.stop r) with signals := [] })))) ∧
  (∀ (r : Fin 32) (s : State), s.get (clkStatRstate r) = 3 → s.on (clkStatParkTherm r) = true → tooHot s r = true →
    exec (.parkLimitExpiry r) s = .next (tripRegion (s.put (thermStatOffThermal r) 1) r 0x0503 0 (s.get (thermStatTj r)) 0
      ((s.plant r).parkInj || anyForced s r))) ∧
  (∀ (r : Fin 32) (sensor : Fin 16) (s : State), s.get (clkStatRstate r) ≠ 0 → exec (.hwTrip r sensor) s = .next (hwTrip s r sensor false))

/-- O26. INPUT_VOLTAGE_CHANGE inside the ratings acts by its range, beyond them it faults. A reading of at most 75 V is shown in centivolts:
reversed or below 36 V the module loses its 48 V input, above 60 V it stops, and otherwise a stop ends once its restart voltage is
reached, INPUT_ABN being set outside 40.5 to 57 V. While an injected reading covers the monitor the reading is kept for later. The
measurements given with it reach their registers. Beyond the ratings of R454 the command ends in the fault beyondRatings. (R324, R454) -/
def Obligations.InputVoltageDecidesTheStop : Prop :=
  (∀ (mv : Nat) (rev : Bool) (d : Draws) (s t : State), mv ≤ 75000 → forcedInput s = false →
    t = { s with inputMv := mv, inputRev := rev }.put pwrInVinCv (mv / 10) →
    exec (.inputVoltageChange mv rev d) s = .next (measure
      (if rev = true ∨ mv < 36000 then loseInput t 2
       else if 60000 < mv then loseInput t 1
       else setAbnormal (if t.inputStop = 1 ∧ mv < 59000 ∨ t.inputStop = 2 ∧ 40500 ≤ mv then { t with inputStop := 0 } else t)
         (decide (mv < 40500 ∨ 57000 < mv)) false) d)) ∧
  (∀ (mv : Nat) (rev : Bool) (d : Draws) (s : State), mv ≤ 75000 → forcedInput s = true →
    exec (.inputVoltageChange mv rev d) s = .next (measure { s with inputMv := mv, inputRev := rev } d)) ∧
  (∀ (mv : Nat) (rev : Bool) (d : Draws) (s : State), 75000 < mv → exec (.inputVoltageChange mv rev d) s = .fault .beyondRatings)

/-- O27. CONV_FAIL, SEG_SHORT, CELL_FAIL, S2_FAIL, S2_TRIP and TRIP_PROBE. A converter that fails sets its bit and is recorded. A short opens
the segment's two ties, takes its port dies and trips its regions. One more failed cell of a region that has power or ramps is counted and
recorded; from 9 in a group the region is derated with one record, from 25 it trips for good. One failed stage-2 module derates a powered
region, two trip it, also one that awaits admission, or fence it where it is off. A trip sets OC_TRIP and leaves a probe due; one of a
probe fences the region for good. The probe of a region with a supply requests admission at the quarter slope, and keeps whether it will
trip at the end of its ramp; one without a supply requests nothing. (R325, R326, R327, R330, R331, R333, R335) -/
def Obligations.SupplyFailuresAreRecorded : Prop :=
  (∀ (n : Fin 8) (s : State), s.convDead.contains n.val = false → exec (.convFail n) s = .next
    (raiseErr ({ s with convDead := setIns n s.convDead }.put pwrConvConvFail (setBit (s.get pwrConvConvFail) n true)) 0x0405 0 33 (unitOf 10 n) none 0 0)) ∧
  (∀ (n : Fin 8) (s : State), exec (.segShort n) s = .next (forN 4 (fun i u => if built u (4 * n + i) then tripRegion u (4 * n + i) 0x0406 (unitOf 10 n) n 5 false else u)
    ((segPorts n).foldl losePortDie ({ s with shorted := setIns n s.shorted }.put pwrConvTieOpen (setBit (setBit (s.get pwrConvTieOpen) n true) ((n + 7) % 8) true))))) ∧
  (∀ (r : Fin 32) (g : Fin 4) (s t : State) (f : Nat), s.get (clkStatRstate r) ≠ 0 ∨ s.get (pwrStatPstate r) = 2 → cellsOf s r g < 48 → f = worstCells (s.put (pwrCellsFailed r)
      (s.get (pwrCellsFailed r) + 2 ^ (8 * g.val))) r →
    t = raiseErr (s.put (pwrCellsFailed r) (s.get (pwrCellsFailed r) + 2 ^ (8 * g.val))) 0x0401 0 r (unitOf 7 g) none 0 f →
    exec (.cellFail r g) s = .next
      (if 25 ≤ f then tripRegion (t.put fenceNvPerm (setBit (t.get fenceNvPerm) r true)) r 0x0403 (unitOf 7 g) f 0 false
       else if 9 ≤ f then
        (if worstCells s r < 9 then raiseErr (t.put (pwrStatDerated r) 1) 0x0402 1 r (unitOf 7 g) (some ((t.put (pwrStatDerated r) 1).get (hubStepCntStep r))) 0 f
         else t.put (pwrStatDerated r) 1)
       else t)) ∧
  (∀ (r : Fin 32) (i : Fin 2) (s t : State), built s r = true → t = s.put (pwrCellsS2Fail r) (setBit (s.get (pwrCellsS2Fail r)) i true) →
    exec (.s2Fail r i) s = .next (if t.get (pwrCellsS2Fail r) = 3 then (
        if t.get (clkStatRstate r) ≠ 0 ∨ t.get (pwrStatPstate r) = 2 then s2Trip t r 2 false
        else if t.get (pwrStatPstate r) = 1 then tripRegion t r 0x0404 0 2 5 false
        else if fenced t r = true ∨ excluded t r = true ∨ t.get bootStatusStep = 0 then t
        else updPlant (t.put (pwrStatPstate r) 5) r (fun p => { p with due := some (0x0404, 0, 2, false) }))
      else if t.get (clkStatRstate r) = 0 then t else t.put (pwrStatDerated r) 1)) ∧
  (∀ (r : Fin 32) (c : Fin 3) (s : State), s.get (clkStatRstate r) ≠ 0 ∨ s.get (pwrStatPstate r) = 2 → exec (.s2Trip r c) s = .next
    (if (s.plant r).probing.isSome then probeTrip s r
     else updPlant (tripRegion (s.put (pwrStatOcTrip r) 1) r 0x0404 0 c 5 false) r (fun p => { p with probe := some false }))) ∧
  (∀ (r : Fin 32) (again : Bool) (s t : State) (inj : Bool), (s.plant r).probe = some inj → t = updPlant s r (fun p => { p with probe := none }) →
    exec (.tripProbe r again) s = .next (if hasSupply t r then
      updPlant (t.puts [(pwrStatPstate r, 1), (pwrStatQuarter r, 1)]) r (fun p => { p with probing := some (again && !inj), deferred := 0 })
     else t))

/-- O28. ADMISSION_RETEST, QUARTER and RAMP_END admit and power up the head request. The head request of a segment ramps as soon as the
headrooms cover its inrush, and otherwise counts a deferral, with the quarter slope from 500. A request with the quarter slope ramps when
the headrooms cover the inrush of four times the soft start, when no region of its segment runs, or once cuts are in force and kept; while
cuts are in force and not kept it waits, and with none in force the segment's running regions are cut by equal shares. Where no request
may be served the measurements alone reach their registers. While a request has the quarter slope the retest only shows its inrush. A ramp
that ends powers its region up and ends the cuts of its segment, and one of a probe that trips again fences its region for good. Each
equation gives the whole next state. (R328, R336, R337, R338) -/
def Obligations.AdmissionServesTheHead : Prop :=
  (∀ (g : Fin 8) (d : Draws) (s t : State) (r : Nat), admitHead (measure s d) g = some r → t = (measure s d).put (pwrAdmitInrushW r) (inrush (softStart (measure s d))) →
    (measure s d).on (pwrStatQuarter r) = false → exec (.admissionRetest g d) s = .next
      (if coversInrush (headroom t g d) (softStart t) then t.put (pwrStatPstate r) 2
       else (updPlant t r (fun p => { p with deferred := (t.plant r).deferred + 1 })).puts
        [(pwrAdmitDeferMs r, ((t.plant r).deferred + 1) / 10), (pwrStatQuarter r, b2n (decide (500 ≤ (t.plant r).deferred + 1)))])) ∧
  (∀ (g : Fin 8) (d : Draws) (s : State) (r : Nat), admitHead (measure s d) g = some r → (measure s d).on (pwrStatQuarter r) = true →
    exec (.admissionRetest g d) s = .next ((measure s d).put (pwrAdmitInrushW r) (inrush (4 * softStart (measure s d))))) ∧
  (∀ (g : Fin 8) (d : Draws) (s : State), admitHead (measure s d) g = none →
    exec (.admissionRetest g d) s = .next (measure s d) ∧ exec (.quarter g d) s = .next (measure s d)) ∧
  (∀ (g : Fin 8) (d : Draws) (s t : State) (r n : Nat) (l : List Nat), admitHead (measure s d) g = some r → (measure s d).on (pwrStatQuarter r) = true →
    n = 4 * softStart (measure s d) → t = (measure s d).put (pwrAdmitInrushW r) (inrush n) → l = segRunning (measure s d) g →
    (coversInrush (headroom t g d) n = true ∨ l = [] → exec (.quarter g d) s = .next (t.put (pwrStatPstate r) 2)) ∧
    ((∃ x ∈ l, (t.plant x).cut ≠ 0) → (∀ x ∈ l, ∀ c, effRegion t x = some c → d.regions.getD x 0 ≤ c) →
      exec (.quarter g d) s = .next (t.put (pwrStatPstate r) 2)) ∧
    (coversInrush (headroom t g d) n = false → (∃ x ∈ l, (t.plant x).cut ≠ 0) → (∃ x ∈ l, ∃ c, effRegion t x = some c ∧ c < d.regions.getD x 0) →
      exec (.quarter g d) s = .next t) ∧
    (coversInrush (headroom t g d) n = false → l ≠ [] → (∀ x ∈ l, (t.plant x).cut = 0) →
      exec (.quarter g d) s = .next (l.foldl (fun u x => updPlant u x (fun p => { p with
        cut := ceilDiv (inrush n + 1 - headroom t g d / 1000) l.length })) t))) ∧
  (∀ (r : Fin 32) (s : State), s.get (pwrStatPstate r) = 2 → exec (.rampEnd r) s = .next
    (if (s.plant r).probing = some true then probeTrip s r
     else (range' (r.val / 4 * 4) 4).foldl (fun u x => updPlant u x (fun p => { p with cut := 0 }))
      (updPlant (powerUp s r) r (fun p => { p with deferred := 0, probing := none }))))

/-- O29. PWR_CUFF_WRITE, PWR_RCUFF_WRITE, CUFF_ENFORCE and UNPARK. MODULE_CUFF_W takes 1000 to 32000 W, or for 0 the value of the bitstream;
REGION_CUFF_W takes 0 and 100 to 760 W; other values are ignored. A draw above the module's cuff throttles every region concerned by one
equal step while one still can, and else parks the fewest in order that cover the excess; a region above its own cuff is throttled, or
parked once it is at 1200 MHz. Once the draw fits the cuff that parked it, the region parked last is unparked; with none parked, or none
that may be unparked yet, and the draw within 95 % of the module's cuff every region within 95 % of its own is lifted by a step. Each
equation gives the whole next state. (R339, R340, R341, R342, R351) -/
def Obligations.CuffsHoldTheDraw : Prop :=
  (∀ (v : W64) (s : State), exec (.pwrCuffWrite v) s = .next
    (if field v.toNat 0 16 = 0 then s.put pwrCuffModuleCuffW (getLe (secOf s 6) 0 4)
     else if 1000 ≤ field v.toNat 0 16 ∧ field v.toNat 0 16 ≤ 32000 then s.put pwrCuffModuleCuffW (field v.toNat 0 16) else s)) ∧
  (∀ (r : Fin 32) (v : W64) (s : State), exec (.pwrRcuffWrite r v) s = .next
    (if field v.toNat 0 16 = 0 ∨ 100 ≤ field v.toNat 0 16 ∧ field v.toNat 0 16 ≤ 760 then s.put (pwrRcuffRegionCuffW r) (field v.toNat 0 16) else s)) ∧
  (∀ (d : Draws) (s m t : State) (exc : Nat), m = measure s d → exc = cuffDraw m d - effModule m * 975 →
    t = (if cuffDraw m d ≤ effModule m * 975 then m
      else if (cuffable m).any (canThrottle m) then (cuffable m).foldl throttleStep m
      else (coverExcess (fun r => (d.regions.getD r 0 - 25) * 1000) exc (parkSorted m (cuffable m)) 0).foldl (fun u r => decidePark u d false r) m) →
    exec (.cuffEnforce d) s = .next ((cuffable t).foldl (fun u r => match effRegion u r with
      | none => u
      | some c => if d.regions.getD r 0 ≤ c then u else if canThrottle u r then throttleStep u r else decidePark u d true r) t) ∧
    ((∀ r ∈ cuffable t, ∀ c, effRegion t r = some c → d.regions.getD r 0 ≤ c) → exec (.cuffEnforce d) s = .next t)) ∧
  (∀ (d : Draws) (s t : State) (r : Nat) (rest : List Nat), t = measure s d → t.parkOrder = r :: rest →
    exec (.unpark d) s = .next (if unparkFits t d r then
      (updPlant { t with parkOrder := rest } r (fun p => { p with unparked := true })).puts
        [(clkStatParkCuff r, 0), (pwrParkedParked, setBit ((updPlant { t with parkOrder := rest } r (fun p => { p with unparked := true })).get pwrParkedParked) r false)]
      else liftThrottles t d)) ∧
  (∀ (s : State) (d : Draws) (r : Nat),
    ((s.plant r).ownPark = false → (unparkFits s d r = true ↔ (cuffDraw s d + (s.plant r).draw0 * 1000) * 100 ≤ 95 * (effModule s * 975))) ∧
    ((s.plant r).ownPark = true → (unparkFits s d r = true ↔ ∀ c, effRegion s r = some c → (d.regions.getD r 0 + (s.plant r).draw0) * 100 ≤ 95 * c))) ∧
  (∀ (d : Draws) (s t : State), t = measure s d → t.parkOrder = [] →
    exec (.unpark d) s = .next (liftThrottles t d)) ∧
  (∀ (d : Draws) (t : State), liftThrottles t d = (if cuffDraw t d * 100 ≤ 95 * (effModule t * 975) then
      (cuffable t).foldl (fun u r => if (effRegion u r).all (fun c => decide (d.regions.getD r 0 * 100 ≤ 95 * c)) then liftStep u r else u) t
      else t))

/-- O30. FENCE, DRAINED, RERUN_START and RESUME carry a fault to its rerun. A fence whose detector is due marks the region lost. A draining
hub whose updates are done strikes the commands of q4 to q7, and reports once none of them and no signal is left. When every voter has
reported and no verdict travels, the seams step of every loss is taken, what was found is restored, every voter rewinds to the failed
step, contributions and gradients of that step and later still on their way go with the unsent pages of those steps, and the gate starts
again there, and no page stream awaits the rerun any longer. RESUME clears RERUN_HOLD. (R364, R370, R377, R379, R380) -/
def Obligations.FencesDrainAndRerun : Prop :=
  (∀ (r : Fin 32) (code : BitVec 16) (s : State) (u d1 : Nat) (inj : Bool), (s.plant r).due = some (code.toNat, u, d1, inj) →
    exec (.fence r code) s = .next (fenceRegion (updPlant s r (fun p => { p with due := none })) r code.toNat u d1 inj)) ∧
  (∀ (r : Fin 32) (s : State), (s.hub r).draining = true → running s r = true → s.on (resStatDrained r) = false →
    ((s.hub r).drainStruck = false → updatesDone s r = true → exec (.drained r) s = .next (drainStrike s r)) ∧
    ((s.hub r).drainStruck = true → (∀ l ∈ (s.hub r).live, l.q < 4) → (∀ w ∈ (s.hub r).writes, w.q < 4) → signalsSettled s r = true →
      exec (.drained r) s = .next { s.put (resStatDrained r) 1 with gate := { s.gate with drained := setIns r.val s.gate.drained } })) ∧
  (∀ (s u v w : State) (t : Nat), s.gate.rerun = some t → (∀ r ∈ voters s, r ∈ s.gate.drained) → (∀ m ∈ s.ring, m.cls ≠ 9) →
    u = s.seamsDue.foldl seamsStep s → v = { u.found.foldl restoreUnit u with found := [] } → w = (voters v).foldl (fun s r => rerunHub s r t) v →
    exec .rerunStart s = .next (settleGate { w with
      ring := w.ring.filter (fun m => !decide (m.cls = 8 ∧ t ≤ m.step) && !decide (m.cls = 4 ∧ 32 ≤ m.dst ∧ t ≤ m.step))
      pages := w.pages.filter (fun p => decide (p.st = 3 ∨ p.step < t))
      streams := w.streams.map (fun e => (e.1, { e.2 with afterFail := false }))
      gate := { w.gate with
        next := t, tally := w.gate.tally.filter (fun e => decide (e.1 < t)), forced := w.gate.forced.filter (fun k => decide (k < t))
        byFence := w.gate.byFence.filter (fun k => decide (k < t)), warned := w.gate.warned.filter (fun k => decide (k < t))
        drained := [], rerun := none, fenceFail := false } })) ∧
  (∀ (r : Fin 32) (s : State), blockUp s r = true → exec (.resume r) s = .next (s.put (resStatRerunHold r) 0))

/-- O31. SEAM_REFRESH, REFRESH_NOW, FOLD, FOLD_DONE and BACKGROUND_REBUILD_CHUNK. A refresh of a passable seam recomputes its parity and is
over. REFRESH_NOW makes a pass over every passable seam due. FOLD of a DEGRADED seam starts folding the members it lost away, and the
fold's end leaves them out of a seam with the parity of each unit recomputed over the members that stay, PARITY_B counting again in
endurance once every unit was. The next chunk of a fenced member is written to a running spare at the same offset and counted; what it is
computed from is read through the caches of the surviving members. (R362, R363, R366, R368, R369) -/
def Obligations.SeamsAreRefreshedAndFolded : Prop :=
  (∀ (k : Fin 16) (s : State), passable s k = true →
    exec (.seamRefresh k) s = .next (settleSeams (seamPass { s with refreshing := setDel k.val s.refreshing } k true))) ∧
  (∀ s : State, quiesced s = false → exec .refreshNow s = .next
    { s with refreshing := s.seams.foldl (fun l e => if passable s e.1 then setIns e.1 l else l) s.refreshing }) ∧
  (∀ (k : Fin 16) (s : State), quiesced s = false → (s.seam k).st = 2 →
    exec (.fold k) s = .next (s.setSeam k { (s.seam k) with st := 3, leaving := lostOf s (s.seam k) })) ∧
  (∀ (k : Fin 16) (s t : State) (gone : List Nat) (all : Bool), (s.seam k).st = 3 →
    gone = (s.seam k).leaving.foldl (fun l n => setIns n l) (s.seam k).folded →
    (seamUnits s (s.seam k)).foldl (fun x o =>
      (x.1 && (foldUnit x.2 (s.seam k) ((s.seam k).members.filter (fun n => !gone.contains n)) o).1,
       (foldUnit x.2 (s.seam k) ((s.seam k).members.filter (fun n => !gone.contains n)) o).2)) (true, s) = (all, t) →
    exec (.foldDone k) s = .next (settleSeams (t.setSeam k { (t.seam k) with
      st := 1, folded := gone, leaving := [], pbValid := endurance t && all }))) ∧
  (∀ (s : State) (i n o t k : Nat), quiesced s = false → nextChunk s = some (i, n, o) → t = s.get seamCtrlRbTarget → s.on seamCtrlRbEn = true →
    useOf s t = 2 → running s t = true → drlReads s n = false → k = min chunkBytes ((s.seam i).off + (s.seam i).len - o) →
    exec .backgroundRebuildChunk s = .next (
      match writeMem (rebuildReads s ownAcct n o k) (ownAcct t) (stackBase t + o) (rebuildRange s n o k) with
      | (some _, u) => u.tock
      | (none, u) => { u.tock with rebuilt := u.rebuilt ++ [(n, o, t)] }.bump fencedRbChunks 1))

/-- O32. SNAP_NOW, SNAPSHOT, JOURNAL_RECORD and CKPT_GO. SNAP_NOW asks for a snapshot. A snapshot that is due, with the peer ready, a key,
none out and every update done, takes up a key that waits, starts a half and writes one object per running region. The journal record of a
region's next step is written with its digest chained to the last object, and the step counts as journaled. A checkpoint asked for stalls
every running hub, and once all stand still with their updates done its objects and manifest are written. (R371, R372, R373, R374, R378) -/
def Obligations.SnapshotsAndJournalsAreWritten : Prop :=
  (∀ s : State, quiesced s = false → exec .snapNow s = .next { s with snaps := { s.snaps with asked := true } }) ∧
  (∀ (s t u : State) (rs : List Nat), quiesced s = false → s.ckptKey ≠ none ∨ s.ckptNew ≠ none → rs = (List.range 32).filter (fun r => running s r) → snapReady s = true → s.snaps.due = true →
    s.snaps.out = 0 → (∀ r ∈ rs, updatesDone s r = true) →
    u = (match s.ckptNew with
      | some k => { s with ckptOld := s.ckptKey, ckptKey := some k, ckptNew := none }
      | none => s) →
    t = rs.foldl (fun u r => writeChainObject (rangeEntries u r (snapSet u r)).2 r 0 ((lastCommit (rangeEntries u r (snapSet u r)).2 r).getD 0) []
        (rangeEntries u r (snapSet u r)).1 (.snapshot r))
      { u with snaps := { u.snaps with begun := u.snaps.begun + 1, fill := 0, commits := 0, asked := false, due := false, out := rs.length } } →
    exec .snapshot s = .next (t.put snapStatusBusy (b2n (decide (t.snaps.out ≠ 0))))) ∧
  (∀ (r : Fin 32) (s u : State) (t : Nat) (es : List SnapEntry), quiesced s = false → journalDue s r = some t → snapReady s = true → running s r = true →
    updatesDone s r = true → s.ckptKey ≠ none → rangeEntries s r (journalSet s r t) = (es, u) →
    exec (.journalRecord r) s = .next (updFlow (writeChainObject u r 1 t
      ((((s.chain r).out.getLast?.orElse (fun _ => (s.chain r).objs.getLast?)).map (·.digest)).getD []) es (.journal r)) r
      (fun f => { f with journaled := t + 1 }))) ∧
  (∀ (s t : State), s.snaps.ckpt = 0 → peerUsable s (s.get snapCtrlSnapPeer) = true → peerClass (s.peer (s.get snapCtrlSnapPeer)) = 2 →
    (s.ckptKey.or s.ckptNew).isSome = true → s.bs.loaded = true → quiesced s = false →
    t = (((List.range 32).filter (fun r => running s r)).foldl (fun u r => askStall u 4 r) { s with snaps := { s.snaps with ckpt := 1 } }).put snapStatusBusy 1 →
    exec .ckptGo s = .next (if t.snaps.ckpt = 1 ∧ allStalled t 4 = true ∧ (List.range 32).all (fun r => !running t r || updatesDone t r) = true then writeCheckpoint t else t))

/-- O33. RS_GO and CKPT_RESTORE restore what passes every check and name the check that fails. RS_GO reads the chain of its region from its
last object back. A chain that checks is written at its destination as the latest image of every entry, its records with their pending
fields 0, with code 1 and the step of the last object, and its meta entries wait for a partial that moves the region's tensors; otherwise
the code of the failed check is recorded with the object's offset. A checkpoint is restored only where its manifest opens, its signature,
job and bitstream match and every object checks. (R375, R376, R377, R378) -/
def Obligations.RestoresCheckWhatTheyRead : Prop :=
  (∀ (objects : List (List Byte)) (s : State) (o : SnapObj) (dest : Nat), quiesced s = false → dest = s.get rsDestDest →
    (s.chain (s.get rsCtrlRsRegion)).objs.getLast? = some o →
    exec (.rsGo objects) s = .next (
      let off := fun (i : Nat) => (((s.chain (s.get rsCtrlRsRegion)).objs.reverse[i]?).map (·.off)).getD 0
      match readChain s (decide (regionAt s dest = s.get rsCtrlRsRegion)) 0 o.digest objects [] with
      | .error (c, i) => restoreFail s c (off i) rsStatusRsCode
      | .ok ess =>
        let img := entriesBytes ((latestImages (ess.map (fun es => { kind := 0, step := 0, digest := [], off := 0, entries := es }))).map (fun e => { e.1 with data := restoredImage e.1.kind e.1.data }))
        if img.length ≤ s.get rsLenLen ∧ inStack dest = true ∧ running s (regionAt s dest) = true ∧ addrOk s dest img.length = true then
          match writeMem s (noStep (regionAt s dest)) dest img with
          | (none, t) => { t with rsImage := some (imageOf (regionAt t dest) o.step ess.flatten) }.puts [(rsStatusRsCode, 1), (rsStatusRsStep, o.step)]
          | (some _, t) => restoreFail t 0x14 (off 0) rsStatusRsCode
        else restoreFail s 0x14 (off 0) rsStatusRsCode)) ∧
  (∀ (objects : List (List Byte)) (m : List Byte) (s : State), quiesced s = false →
    exec (.ckptRestore objects m) s = .next (match openObject s m with
      | none => restoreFail s 0x11 (ckptOffset s objects objects.length) snapStatusCkptCode
      | some body =>
        let list := slice body 0 (32 * snEntries m)
        let rs : List (List Byte × Except Nat (List SnapEntry)) := objects.zipIdx.map (fun (b, i) => (b, checkObject s (slice list (32 * i) 32) b true))
        let bad := rs.zipIdx.find? (fun x => match x.1.2 with | .error _ => true | .ok _ => false)
        if slice body (32 * snEntries m) 384 ≠ padTo 384 (Config.identitySign (m.take 128 ++ list)) ∨ objects.length ≠ snEntries m then
          restoreFail s 0x10 (ckptOffset s objects objects.length) snapStatusCkptCode
        else if slice m 0x20 16 ≠ padTo 16 s.bs.jobId ∨ slice m 0x30 32 ≠ bsDigest s then
          restoreFail s 0x12 (ckptOffset s objects objects.length) snapStatusCkptCode
        else match bad with
          | some ((_, .error c), i) => restoreFail s c (ckptOffset s objects i) snapStatusCkptCode
          | _ =>
            let t := rs.foldl (fun u (b, x) => match x with
              | .ok es => restoreRegion u (snRegion b % 32) (snStep b) es
              | .error _ => u) s
            (settleSeams (t.seams.foldl (fun u e => if passable u e.1 then seamPass u e.1 false else u) t)).puts
              [(snapStatusCkptCode, 1), (rsStatusRsStep, snStep m)]))

/-- O34. ENROLL, SEAL, ROTATE, SET_SLICE and KEY_INSTALL execute the command buffer. While the root serves and nothing is quiesced, each of
the five executes the buffered command as its operation: a command that passes every check has its effect, extends M3 and reports code 1,
another changes nothing but the code, and either way OWN_NONCE is drawn anew. The effects are those of R392: the owner's key enters slot
0, the state becomes sealed, the next key enters the next slot while fewer than four are used, the slice changes. The first three burn
fuses: a burn that completes in neither root ends the command with code 0x17, and one that completes in one root only takes effect with
its record. (R384, R385, R390, R391, R392) -/
def Obligations.OwnerCommandsRunTheirChecks : Prop :=
  (∀ (c : Instr) (op : Nat) (s : State), (c = .enroll ∧ op = 1 ∨ c = .ownerSeal ∧ op = 2 ∨ c = .rotate ∧ op = 3 ∨ c = .setSlice ∧ op = 4 ∨ c = .keyInstall ∧ op = 5) →
    s.rootLost = false → quiesced s = false →
    exec c s = .next (match ocRun s (padTo 1024 s.cmdBuf) op with
      | .ok t => drawOwnNonce ((extendConfig t).put secStatusCode 1)
      | .error k => drawOwnNonce (s.put secStatusCode k))) ∧
  (∀ (s : State) (c : List Byte),
    (ocOp c = 1 → ocEffect s c = burned s (fun u =>
      { u with owners := tabPut 0 (keyHash (ocPayload c)) u.owners }.puts [(secStateOwnState, 1), (secStateOwnerSlot, 0)])) ∧
    (ocOp c = 2 → ocEffect s c = burned s (fun u => u.put secStateOwnState 2)) ∧
    (ocOp c = 3 → s.get secStateOwnerSlot < 3 → ocEffect s c = burned s (fun u =>
      { u with owners := tabPut (s.get secStateOwnerSlot + 1) (keyHash (ocPayload c)) u.owners }.put secStateOwnerSlot (s.get secStateOwnerSlot + 1))) ∧
    (ocOp c = 3 → 3 ≤ s.get secStateOwnerSlot → ocEffect s c = .error 0x15) ∧
    (ocOp c = 4 → ocEffect s c = .ok (s.put sliceSliceId (getLe (ocArg c) 0 4)))) ∧
  (∀ (s : State) (f : State → State),
    (Config.burns s.tick = (true, true) → burned s f = .ok (f s.tock)) ∧
    (Config.burns s.tick = (false, false) → burned s f = .error 0x17) ∧
    (Config.burns s.tick = (true, false) ∨ Config.burns s.tick = (false, true) →
      burned s f = .ok (f (raiseErr s.tock 0x0702 0 (rootSource s) 0 none 0 (Config.freeWord s.tick).toNat))))

/-- O35. ATT_GO, KT_REQ, SEQ_COMMIT, SVN_COMMIT and ROOT_FAILOVER. ATT_GO leaves a quote over the state at its time stamp, signed, with
ATT_DONE. KT_REQ makes a fresh transport key under the next KT_ID with its certificate. SEQ_COMMIT raises the sequence floor to the
highest sequence applied, SVN_COMMIT the floors of the targets named to the versions that run; neither lowers a floor, and a floor that
rises is a fuse burn. A primary root that fails hands over to a mirror that is good, and with both failed the root is lost. (R382, R383,
R388, R389, R393, R397, R398) -/
def Obligations.RootServicesAnswer : Prop :=
  (∀ (s t : State) (time : Nat), quotesServed s = true → s.stamp = (time, t) → exec .attGo s = .next
    ({ t with quote := quoteBody t time ++ padTo 384 (Config.identitySign (quoteBody t time)) }.put secStatusAttDone 1)) ∧
  (∀ (s : State) (b : List Byte), quiesced s = false → s.rootLost = false →
    b = ascii "HTWTKEY1" ++ natLe 8 (s.get ktId + 1) ++ natLe 8 s.serial ++ natLe 8 0 ++ regWords s attNonceNonce 4 ++ padTo 384 (Config.transportModulus s.tick) →
    exec .ktReq s = .next ({ s.tock with kt := some (s.tick, 0), ktCert := b ++ padTo 384 (Config.identitySign b) }.puts
      [(ktId, s.get ktId + 1), (secStatusKtReady, 1)])) ∧
  (∀ s : State, quiesced s = false → loadBusy s = false → s.rootLost = false →
    exec .seqCommit s = .next (s.put bsSeqFloorFloor (max (s.get bsSeqFloorFloor) s.bs.seq))) ∧
  (∀ (targets : BitVec 3) (s : State) (v : Nat → Nat), quiesced s = false → loadBusy s = false → s.rootLost = false →
    (∀ i, v i = if bitAt targets.toNat i then max (field (s.get svnSvnFloor) (8 * i) 8) (field (s.get svnSvnRun) (8 * i) 8)
      else field (s.get svnSvnFloor) (8 * i) 8) →
    exec (.svnCommit targets) s = .next (if v 0 + 256 * v 1 + 65536 * v 2 = s.get svnSvnFloor then s
      else match burn s with
        | none => s
        | some t => t.put svnSvnFloor (v 0 + 256 * v 1 + 65536 * v 2))) ∧
  (∀ (p m : Bool) (s : State), s.rootLost = false → exec (.rootFailover p m) s = .next (settleGate
    (if m = false ∧ (s.on secStateRootOnMirror = true ∨ p = false) then raiseErr { s with rootLost := true } 0x0704 3 (rootSource s) 0 none 0 0
     else if p = false ∧ s.on secStateRootOnMirror = false then raiseErr (s.put secStateRootOnMirror 1) 0x0703 0 34 0 none 0 0
     else s)))

/-- O36. FRAME_RECEIVE, PORT_LINK_CHANGE, PFC_PAUSE, PFC_PAUSE_EXPIRY, CNP and RATE_INCREASE. A frame that passes its port's checks is
buffered in its class, a CE mark on a kept frame is answered for its queue pair, and a kept request that the module does not support by a
NAK. A link that goes down, or comes up with the light of its own lasers, shows in LINK. A pause of a lossless priority is counted and
holds its transmission until it ends by a zero pause or by its expiry, when what waited leaves in order. A CNP of a matched peer is
counted and may halve the rate, one of another slice is counted in SLICE_DROP; 55 µs without one raise it by a percent of line rate, up to
line rate. (R284, R286, R287, R288, R289, R290) -/
def Obligations.FramesPassTheLinkLayer : Prop :=
  (∀ (p : Fin 64) (h : Fin 2) (f : Frame) (s t : State) (c : Nat), portPasses s p h = true → s.inj = none → f.fcsOk = true → f.bytes.length ≤ 9216 →
    macsecPass (s.sec p h) f = true → f.icrcOk = true → t = notePn s p h f → frameClass t p f = c →
    exec (.frameReceive p h f) s = .next (match bufferFrame t p h c f.bytes.length f.drained with
      | (false, u) => u
      | (true, u) => answerUnsupported (if f.ce then answerCe u f.src else u) p f)) ∧
  (∀ (p : Fin 64) (h : Fin 2) (up : Bool) (s : State), up = false ∨ (portClass s p ≠ 0 ∧ s.pdOff.contains (p.val / 16) = false ∧ (h = 0 ∨ breakout s p = true) ∧ hasLight s p = true) →
    exec (.portLinkChange p h up) s = .next (s.put (portStatLink (p.val / 16) (p.val % 16)) (setBit (s.get (portStatLink (p.val / 16) (p.val % 16))) h up))) ∧
  (∀ (p : Fin 64) (h : Fin 2) (prio : Fin 8) (quanta : BitVec 16) (s t : State) (key : Nat), portPasses s p h = true →
    prio.val = prioOf s p 0 ∨ prio.val = prioOf s p 1 → key = p.val * 16 + h.val * 8 + prio.val →
    t = s.bump (portPfcPauseRx (p.val / 16) (p.val % 16)) 1 → (∀ c, prioOf t p c = prioOf s p c) →
    exec (.pfcPause p h prio quanta) s = .next (if quanta = 0 then unpause t key else { t with paused := setIns key t.paused }) ∧
    exec (.pfcPauseExpiry p h prio) s = .next (unpause s key)) ∧
  (∀ (peer : Fin 4096) (s t u : State) (b : Bool), peerLinked s peer = true → sliceFits s peer = true → (s.peer peer).err = false →
    t = s.bump (portEcnCnpRx (peerPort peer (s.peer peer) / 16) (peerPort peer (s.peer peer) % 16)) 1 → t.choose = (b, u) →
    exec (.cnp peer) s = .next (if b then u.setPeer peer { (u.peer peer) with rateLog := (u.peer peer).rateLog + 1 } else u)) ∧
  (∀ (peer : Fin 4096) (s : State), peerLinked s peer = true → sliceFits s peer = false → exec (.cnp peer) s = .next (sliceDrop s peer)) ∧
  (∀ (peer : Fin 4096) (s : State) (n : Nat), qpOpen s peer = true → n = (s.peer peer).rateNum + 2 ^ (s.peer peer).rateLog →
    exec (.rateIncrease peer) s = .next (s.setPeer peer (if 100 * 2 ^ (s.peer peer).rateLog ≤ n then { (s.peer peer) with rateNum := 100, rateLog := 0 }
      else { (s.peer peer) with rateNum := n })))

/-- O37. RDMA_WRITE, RDMA_WRITE_WITH_IMMEDIATE, RDMA_READ and SEND of a matched peer. For a packet that matches a peer without held requests,
a write whose key, range, access and class pass and whose regions run puts its bytes in memory and is acknowledged, with the signal of its
immediate where it has one; a read answers the bytes; a write to the register space writes its words. A SEND of 64 bytes or more acts as a
Skojo message, which of a peer or on a port of another class is an invalid request; a shorter one is an invalid request. (R291, R294,
R295, R296, R443, R444) -/
def Obligations.PeersRequestsAreServed : Prop :=
  (∀ (src : PktSrc) (key : W32) (a : W64) (data : List Byte) (s t u : State) (p : Nat), arrive s src = (some p, t) → (t.peer p).held = [] →
    key.toNat ≠ regKey t → rangeOk t src.port key.toNat a.toNat data.length 1 = true → fateOf t a.toNat data.length = .serve →
    writeMem t (noStep ((regionsOf t a.toNat data.length).headD 0)) a.toNat data = (none, u) →
    exec (.rdmaWrite src key a data) s = .next (answer u p (answerClass t key.toNat) data.length (.ack p)) ∧
    (∀ (imm : W32) (tok r n : Nat), immSignal t imm.toNat = some (tok, r, n) → immSignal u imm.toNat = some (tok, r, n) →
      exec (.rdmaWriteWithImmediate src key a data imm) s = .next (answer (pdSignal u (p / 1024) r tok n) p (answerClass t key.toNat) data.length (.ack p)))) ∧
  (∀ (src : PktSrc) (key : W32) (a : W64) (data : List Byte) (s t : State) (p : Nat), arrive s src = (some p, t) → (t.peer p).held = [] →
    key.toNat = regKey t → regSpaceOk t src.port a.toNat data.length = true →
    exec (.rdmaWrite src key a data) s = .next (answer (regWrites t src a.toNat data) p (answerClass t key.toNat) data.length (.ack p))) ∧
  (∀ (src : PktSrc) (key : W32) (a : W64) (len : Nat) (s t u : State) (p : Nat) (b : List Byte), arrive s src = (some p, t) → (t.peer p).held = [] →
    key.toNat ≠ regKey t → rangeOk t src.port key.toNat a.toNat len 0 = true → fateOf t a.toNat len = .serve →
    readMem t (noStep ((regionsOf t a.toNat len).headD 0)) a.toNat len = (.ok b, u) →
    exec (.rdmaRead src key a len) s = .next (answer u p (answerClass t key.toNat) len (.data p b))) ∧
  (∀ (src : PktSrc) (data : List Byte) (s t : State) (p : Nat), arrive s src = (some p, t) →
    exec (.send src data) s = .next (if 64 ≤ data.length then skMessage t p (data.take 64) (data.drop 64) else refuse t p 0 nakInvalid)) ∧
  (∀ (s : State) (p : Nat) (h payload : List Byte), peerLinked s p = true → peerUsable s p = true →
    peerClass (s.peer p) ≠ 3 ∨ portClass s (peerPort p (s.peer p)) ≠ 3 →
    skMessage s p h payload = refuse s p (b2n (decide (hdType h ≠ 2))) nakInvalid)

/-- O38. RDMA_ACK, ACK_TIMEOUT, the entry writes, EVT_CFG_WRITE, EVENT_WRITE and PTP_MESSAGE. The oldest request of a live queue pair ends
with its answer, is sent again after a timeout while retries are left, and its queue pair fails once they are not; an answer of another
slice is counted in SLICE_DROP. Of a peer entry that is not valid each word is taken up, the first, with VALID 0, where its PCLASS and
TIMEOUT are in range; of such a stream entry the second word is; its first word is taken up too, unless it would make an entry valid that
does not fit its tensor or whose tensor has a valid entry, which sets CFG_ERR. EVT_CFG takes a LOG2_N from 6 to 20, and enabling resets
head and tail, and what is not acknowledged by then is no part of the ring that begins. The next buffered event is written to the ring
while it has room. A PTP message of its port and domain sets the offset and LOCKED. (R292, R297, R298, R299, R300, R303, R441) -/
def Obligations.OwnRequestsAndEntriesFollowTheirAnswers : Prop :=
  (∀ (peer : Fin 4096) (s : State) (q : QpReq) (rest : List QpReq) (d : List Byte), (s.peer peer).out = q :: rest → peerLinked s peer = true → sliceFits s peer = true → (s.peer peer).err = false →
    exec (.rdmaAck peer (.ok d)) s = .next (settleUse (s.setPeer peer { (s.peer peer) with out := rest }) q.use (.ok (if q.op = 1 then padTo q.len d else []))) ∧
    exec (.rdmaAck peer .nakAccess) s = .next (settleUse (s.setPeer peer { (s.peer peer) with out := rest }) q.use (.error stDmaRdmaRemote))) ∧
  (∀ (peer : Fin 4096) (s : State) (a : AckResult), peerLinked s peer = true → sliceFits s peer = false →
    exec (.rdmaAck peer a) s = .next (s.bump (portDropSliceDrop (peerPort peer (s.peer peer) / 16) (peerPort peer (s.peer peer) % 16)) 1)) ∧
  (∀ (peer : Fin 4096) (s : State) (q : QpReq) (rest : List QpReq), (s.peer peer).out = q :: rest → qpOpen s peer = true →
    exec (.ackTimeout peer) s = .next (if q.tries < peerRetry (s.peer peer) then
      resendAll (s.setPeer peer { (s.peer peer) with out := { q with tries := q.tries + 1 } :: rest }) peer else qpError s peer)) ∧
  (∀ (peer : Fin 4096) (w : Nat) (d : List Byte) (s : State), d.length = 8 → 1 ≤ w → w < 8 → peerValid (s.peer peer) = false →
    exec (.peerEntryWrite peer (8 * w) d) s = .next (s.setPeer peer { (s.peer peer) with entry := patch (s.peer peer).entry (8 * w) (maskPeerWord w d) })) ∧
  (∀ (peer : Fin 4096) (d : List Byte) (s : State), d.length = 8 → peerValid (s.peer peer) = false → getLe (maskPeerWord 0 d) 0 1 % 2 = 0 →
    exec (.peerEntryWrite peer 0 d) s = .next (if peerRange (maskPeerWord 0 d) = true then
      s.setPeer peer { (s.peer peer) with entry := patch (s.peer peer).entry 0 (maskPeerWord 0 d) } else s)) ∧
  (∀ (pd : Fin 4) (i : Fin 1024) (d : List Byte) (s : State) (k : Nat), d.length = 8 → k = pd.val * 1024 + i.val → seValid (s.strm k) = false →
    exec (.streamEntryWrite pd i 8 d) s = .next (s.setStrm k { (s.strm k) with entry := patch (s.strm k).entry 8 (natLe 4 (getLe d 0 4)) })) ∧
  (∀ (pd : Fin 4) (i : Fin 1024) (d : List Byte) (s : State) (k port : Nat) (y : Stream), d.length = 8 → k = pd.val * 1024 + i.val → seValid (s.strm k) = false →
    y = { entry := slice d 0 6 ++ natLe 1 (getLe d 6 1 % 8) ++ slice d 7 1 ++ slice (s.strm k).entry 8 8 ++ List.replicate 16 0 } →
    port = peerPort (sePeer k y) (s.peer (sePeer k y)) →
    exec (.streamEntryWrite pd i 0 d) s = .next (
      if bitAt (getLe d 6 1) 0 = true ∧ (entryFits s k y = false ∨ ∃ e ∈ s.streams, e.1 ≠ k ∧ seValid e.2 = true ∧ seTensor e.2 = getLe d 0 4) then
        s.put (portStatCfgErr (port / 16) (port % 16)) 1
      else s.setStrm k y)) ∧
  (∀ (v : W64) (s : State), 6 ≤ field v.toNat 14 5 → field v.toNat 14 5 ≤ 20 → exec (.evtCfgWrite v) s = .next
    ((if bitAt v.toNat 13 = true ∧ s.on evtCfgEvtEn = false then { s with evPre := s.evOut }.puts [(evtTailTail, 0), (evtHeadHead, 0)] else s).puts
      [(evtCfgEvtPeer, field v.toNat 0 12), (evtCfgSendEn, field v.toNat 12 1), (evtCfgEvtEn, field v.toNat 13 1), (evtCfgLog2N, field v.toNat 14 5)])) ∧
  (∀ (s t : State) (p l tail : Nat) (e : Event) (b : List Byte), p = s.get evtCfgEvtPeer → l = s.get evtCfgLog2N → s.on evtCfgEvtEn = true →
    peerUsable s p = true → peerClass (s.peer p) = 1 → evtFill s < 2 ^ l → s.evLost = 0 → s.evbuf[s.evOut]? = some e → tail = s.get evtTailTail →
    b = eventBytes e s.evSeq (!bitAt tail l) →
    t = qpPost s p { op := 0, addr := s.get evtAddrAddr + 64 * (tail % 2 ^ l), len := 64, data := b, use := .event } →
    exec .eventWrite s = .next (
      let n := (tail + 1) % 2 ^ (l + 1)
      let u := { t.put evtTailTail n with evOut := (t.put evtTailTail n).evOut + 1, evSeq := (t.put evtTailTail n).evSeq + 1 }
      if u.on evtCfgSendEn then qpPost u p { op := 2, len := 8, data := natLe 8 n, use := .tail } else u)) ∧
  (∀ (port : Fin 64) (dom : BitVec 8) (off : Int) (s : State), s.on ptpCtrlPtpEn = true → s.get ptpCtrlPtpPort = port.val → portClass s port = 1 →
    portPasses s port 0 = true → s.get ptpCtrlDomain = dom.toNat →
    exec (.ptpMessage port dom off) s = .next (s.puts [(ptpStatOffsetNs, unsigned 32 off), (ptpStatLocked, b2n (decide (off.natAbs < 1000)))]))

/-- O39. STEP_OPEN, WT_PUSH, WT_DONE, CREDIT, REPLICA_DROP and GR_PUSH. A message of a valid Skojo peer that names a stream of its is taken
and acts: STEP_OPEN opens its step, which the first one of a stream sets, WT_PUSH sends its pages to their landing area, WT_DONE waits for
the pushes before it, CREDIT adds pages, a REPLICA_DROP of an earlier step is only reported, and one of the open step of a stream that
already failed leaves it. A message that names no stream is refused and recorded. The next scaled page leaves while there is credit, and
its stream still has pages to send. (R302, R304, R306, R307, R308, R310, R311) -/
def Obligations.SkojoMessagesAct : Prop :=
  (∀ (p : Fin 4096) (h : List Byte) (s u : State) (k : Nat), skPeer s p = true → u = sendTaken s p h →
    (skAccept u p 1 h = some k → seFrozen (u.strm k) = false → ((u.strm k).curSet = true → stepFits (u.strm k) h = true) →
      exec (.stepOpen p h) s = .next (updStrm u k (fun x => { seSetStep x (hdStep h) with curSet := true, waitOpen := false }))) ∧
    (∀ payload v, skAccept u p 2 h = some k → pushWeights p h payload u k = some v → exec (.wtPush p h payload) s = .next v) ∧
    (skAccept u p 3 h = some k → stepFits (u.strm k) h = true →
      exec (.wtDone p h) s = .next (drainWtDone (u.setPeer p { (u.peer p) with wtDone := (u.peer p).wtDone ++ [(k, (u.peer p).wt)] }) p ((u.peer p).wtDone.length + 1))) ∧
    (skAccept u p 9 h = some k → stepFits (u.strm k) h = true →
      exec (.credit p h) s = .next (updStrm u k (fun x => seSetCredit x ((seCredit x + hdCount h) % 2 ^ 64)))) ∧
    (skAccept u p 8 h = some k → seFrozen (u.strm k) = false → hdStep h < seStep (u.strm k) →
      exec (.replicaDrop p h) s = .next (skEvent u (k / 1024) 8 (hdStep h) p)) ∧
    (skAccept u p 8 h = some k → seFrozen (u.strm k) = false → hdStep h = seStep (u.strm k) → (u.strm k).afterFail = true →
      exec (.replicaDrop p h) s = .next (dropReplica (skEvent u (k / 1024) 8 (hdStep h) p) k false)) ∧
    (skAccept u p 1 h = none → exec (.stepOpen p h) s = .next (skRefuse u p (hdType h))) ∧
    (∀ payload, skAccept u p 2 h = none → exec (.wtPush p h payload) s = .next (skRefuse u p (hdType h))) ∧
    (skAccept u p 3 h = none → exec (.wtDone p h) s = .next (skRefuse u p (hdType h))) ∧
    (skAccept u p 8 h = none → exec (.replicaDrop p h) s = .next (skRefuse u p (hdType h))) ∧
    (skAccept u p 9 h = none → exec (.credit p h) s = .next (skRefuse u p (hdType h)))) ∧
  (∀ (pd : Fin 4) (i : Fin 1024) (s t u : State) (k n : Nat) (g : Page), k = pd.val * 1024 + i.val →
    s.pages.findIdx? (fun g => decide (g.pd = pd.val ∧ g.tensor = seTensor (s.strm k) ∧ g.st = 2 ∧ some g.step = curModule s k)) = some n → s.pages[n]? = some g →
    seValid (s.strm k) = true → seFrozen (s.strm k) = false → seCredit (s.strm k) ≠ 0 → (s.strm k).done = false → (s.strm k).waitOpen = false →
    peerUsable s (sePeer k (s.strm k)) = true →
    t = (qpPost s (sePeer k (s.strm k)) {
      op := 2, len := 64 + g.data.length, use := .gradient k g.off (g.step % 2)
      data := skHeader s 4 g.data.length (seStep (s.strm k)) g.tensor g.off (b2n g.pw16) ++ g.data }).tock.tock →
    u = updStrm { t with pages := t.pages.set n { g with st := 3 } } k (fun x => { seSetCredit x (seCredit x - 1) with mstep := some g.step, pushed := x.pushed + 1 }) →
    exec (.grPush pd i) s = .next (if (u.strm k).pushed < tensorPages u k then u
      else tryClose (updStrm (skSend u k 5 (seStep (s.strm k))) k (fun x => { x with done := true })) k))

/-- O40. CASSETTE_DETECT, CASSETTE_AUTHENTICATED, LASERS_LOCKED, DRIVE_RAMP_END and REAUTH. A cassette found in an empty bay is marked present
and, where its port die runs, is sent a fresh challenge. When its checks end it is held dark with the reason of the first that fails and a
record, or it takes its life from its answer, never below what the module holds of it, its rated life from the certificate, and warms up
at a drive of 5. Locked lasers light it, and the drives of the pair settle. A release of the partner stops when a check darkens the
cassette. A ramp in ends the warm-up; in a release the partner's ramp up is followed by the ramp down of the cassette, whose end releases
it. REAUTH challenges it again, and is ignored while an overheated cassette is at 65 °C or above. (R313, R315, R317, R318, R319) -/
def Obligations.CassettesAuthenticateAndWarmUp : Prop :=
  (∀ (b : Fin 8) (s t : State), s.on (casStatPresent (b.val / 2) (b.val % 2)) = false → t = s.put (casStatPresent (b.val / 2) (b.val % 2)) 1 →
    (dieRuns t b = false → exec (.cassetteDetect b) s = .next t) ∧
    (∀ (n : List Byte) (u : State), dieRuns t b = true → ((t.setBay b { (t.bay b) with green := false }).put (bayStateF b) 1).draw 32 = (n, u) →
      exec (.cassetteDetect b) s = .next (u.setBay b { (u.bay b) with phase := 1, nonce := n }))) ∧
  (∀ (b : Fin 8) (c : CassetteReply) (s t u : State) (w m : Nat), (s.bay b).phase = 1 → s.inj = none → c.answers = true → c.cert.length = 832 →
    w = authReason s b c → t = (s.setBay b { (s.bay b) with cert := c.cert }).put (casSerialSerial (b.val / 2) (b.val % 2)) (getLe c.cert 8 8) →
    m = (if baySerial s b = getLe c.cert 8 8 then max c.lifeCh (t.get (casLifeLifeCh (b.val / 2) (b.val % 2))) else c.lifeCh) →
    u = t.puts [(casLifeLifeCh (b.val / 2) (b.val % 2), m), (casLifeRatedCh (b.val / 2) (b.val % 2), getLe c.cert 6 2 * 100000)] →
    exec (.cassetteAuthenticated b c) s = .next (
      if w ≠ 0 then raiseErr (changeBay t b false (fun x => stopRelease (holdDark x b w) b)) 0x0803 0 (bayStop b) (bayUnit b) none (baySerial t b) w
      else
        let v := settleLife u b
        if isLit v b then setPhase v b 0
        else setDrive (setPhase (v.puts [(bayStateF b, 1), (casStatDarkReason (b.val / 2) (b.val % 2), 0)]) b 2) b 5)) ∧
  (∀ (b : Fin 8) (c : CassetteReply) (s t : State), (s.bay b).phase = 1 → s.inj = none → c.answers = false →
    t = changeBay s b false (fun x => stopRelease (holdDark x b 6) b) →
    exec (.cassetteAuthenticated b c) s = .next (raiseErr t 0x0803 0 (bayStop b) (bayUnit b) none (baySerial s b) 6)) ∧
  (∀ (b : Fin 8) (s : State), (s.bay b).phase = 2 →
    exec (.lasersLocked b) s = .next (changeBay s b false (fun x => setPhase (x.put (bayStateF b) 2) b 3))) ∧
  (∀ (b : Fin 8) (s : State), ((s.bay b).phase = 3 → exec (.driveRampEnd b) s = .next (setPhase s b 0)) ∧
    ((s.bay b).phase = 4 → exec (.driveRampEnd b) s = .next (settleDrive (setPhase s b 5) (b.val / 2))) ∧
    ((s.bay b).phase = 5 → exec (.driveRampEnd b) s = .next (changeBay s b false (fun x =>
      let y := (holdDark (writeLife x b) b (if overheated x b then 5 else 7)).put (casStatReleased (b.val / 2) (b.val % 2)) 1
      y.setBay b { (y.bay b) with green := true })))) ∧
  (∀ (b : Fin 8) (s t : State), bayState s b ≠ 0 → dieRuns s b = true → (s.bay b).phase ≠ 4 → (s.bay b).phase ≠ 5 →
    (t = (if overheated s b then s.put (casStatLaserFail (b.val / 2) (b.val % 2)) (s.bay b).fails else s) →
      s.get (casStatDarkReason (b.val / 2) (b.val % 2)) ≠ 5 ∨ s.get (casStatTemp (b.val / 2) (b.val % 2)) < 65 →
      exec (.reauth b) s = .next (if isLit t b then startAuth t b
        else admitCassette (t.puts [(casStatDarkReason (b.val / 2) (b.val % 2), 0), (casStatReleased (b.val / 2) (b.val % 2), 0)]) b)) ∧
    (s.get (casStatDarkReason (b.val / 2) (b.val % 2)) = 5 → 65 ≤ s.get (casStatTemp (b.val / 2) (b.val % 2)) → exec (.reauth b) s = .next s))

/-- O41. LASER_FAIL, CAS_OVERTEMP, RELEASE, CAS_REMOVED, CASSETTE_WITHDRAWN and LIFE_INCREMENT. A laser of a lit or warming cassette that
fails is off, with a record, and a release of the partner that waits for its ramp up stops. A reading of 75 °C darkens a cassette for
reason 5 with all its lasers failed, which stops such a release too. RELEASE is denied, whatever the bay holds, while the partner cannot
carry the load, else the partner's drive rises first; a cassette that is not lit is released at once. A withdrawal without release empties
the bay, where the port die runs with a record, and stops such a release, and one after release in silence. An increment of a lit
cassette's life that its drives allow is added, and may set its end-of-life flags; any other is none of it. (R313, R314, R315, R320, R322,
R323) -/
def Obligations.CassettesFailAndLeave : Prop :=
  (∀ (b : Fin 8) (l : Fin 16) (s : State), isLit s b = true ∨ (s.bay b).phase = 2 → bitAt (laserFails s b) l = false →
    exec (.laserFail b l) s = .next (changeBay s b false (fun x =>
      let y := raiseErr (x.put (casStatLaserFail (b.val / 2) (b.val % 2)) (setBit (laserFails x b) l true)) 0x0801 0 (bayStop b) (bayUnit b) none
        (baySerial x b) l
      if (y.bay (partnerOf b)).phase = 4 then (setPhase y (partnerOf b) 0).put (casStatRelDenied (partnerOf b / 2) (partnerOf b % 2)) 1 else y))) ∧
  (∀ (b : Fin 8) (n : Nat) (s t u : State), bayState s b ≠ 0 → dieRuns s b = true → s.inj = none →
    t = (s.setBay b { (s.bay b) with temp := n }).put (casStatTemp (b.val / 2) (b.val % 2)) n →
    u = changeBay t b false (fun x => stopRelease ((holdDark (x.setBay b { (x.bay b) with fails := laserFails x b }) b 5).put
      (casStatLaserFail (b.val / 2) (b.val % 2)) 0xFFFF) b) →
    (n < 75 ∨ overheated t b = true → exec (.casOvertemp b n) s = .next t) ∧
    (75 ≤ n → overheated t b = false → exec (.casOvertemp b n) s = .next (raiseErr u 0x0806 0 (bayStop b) (unitOf 8 25) none (baySerial t b) n))) ∧
  (∀ (b : Fin 8) (s : State), dieRuns s b = true → mayRelease s b = false →
    exec (.release b false) s = .next (s.put (casStatRelDenied (b.val / 2) (b.val % 2)) 1)) ∧
  (∀ (b : Fin 8) (f : Bool) (s : State), dieRuns s b = true → bayState s b ≠ 0 → (s.bay b).phase ≠ 4 → (s.bay b).phase ≠ 5 → s.on (casStatReleased (b.val / 2) (b.val % 2)) = false →
    exec (.release b f) s = .next (
      if f = false ∧ mayRelease s b = false then s.put (casStatRelDenied (b.val / 2) (b.val % 2)) 1
      else if isLit s b then settleDrive (setPhase s b 4) (b.val / 2)
      else finishRelease s b)) ∧
  (∀ (b : Fin 8) (s t : State), s.on (casStatPresent (b.val / 2) (b.val % 2)) = true → s.on (casStatReleased (b.val / 2) (b.val % 2)) = false →
    t = changeBay s b false (fun x => stopRelease (emptyBay x b) b) →
    exec (.casRemoved b) s = .next (if dieRuns s b then raiseErr t 0x0804 0 (bayStop b) (bayUnit b) none (baySerial s b) 0 else emptyBay s b)) ∧
  (∀ (b : Fin 8) (s : State), s.on (casStatReleased (b.val / 2) (b.val % 2)) = true → exec (.cassetteWithdrawn b) s = .next (emptyBay s b)) ∧
  (∀ (b : Fin 8) (n : Nat) (s : State), isLit s b = true →
    exec (.lifeIncrement b n) s = .next (if n ≤ 20 ∧ (lifeBounds s b).1 ≤ n ∧ n ≤ (lifeBounds s b).2 then
      settleLife ((s.setBay b { (s.bay b) with low := none, high := 0 }).bump (casLifeLifeCh (b.val / 2) (b.val % 2)) n) b else s))

/-- O42. TX_SWITCH, RX_KEY_ERASE and SUBNORMAL_PATH_DOWN. At its delay's end an installed association takes over transmission, and the one
before stays for reception; ten seconds later its key is erased. Under SUBNORMAL 1 the idle subnormal path of a VE or a UPE of a running
region powers down. Nothing else changes. (R356, R395) -/
def Obligations.SuccessorKeysTakeOver : Prop :=
  (∀ (p : Fin 64) (h : Fin 2) (an : Fin 4) (s : State) (m : MacSec), m = s.sec p h →
    exec (.txSwitch p ⟨h, an⟩) s = .next (if an.val ∈ m.next then
      s.setSec p h { m with tx := some an.val, next := setDel an.val m.next, old := m.tx.toList.foldl (fun l a => setIns a l) m.old } else s)) ∧
  (∀ (p : Fin 64) (h : Fin 2) (an : Fin 4) (s : State) (m : MacSec), m = s.sec p h →
    exec (.rxKeyErase p ⟨h, an⟩) s = .next (if an.val ∈ m.old then
      s.setSec p h { m with rx := tabErase an.val m.rx, pns := tabErase an.val m.pns, old := setDel an.val m.old } else s)) ∧
  (∀ (r : Fin 32) (u : Fin 98) (s : State), running s r = true → modeByte s r 10 = 1 →
    exec (.subnormalPathDown r u) s = .next (
      if u.val < 96 then s.setCluster r u { (s.cluster r u) with subDown := true }
      else s.setUpe r (u.val - 96) { (s.upe r (u.val - 96)) with subDown := true }))

/-- O43. MeterRead, LogRead, Swid, Cert, ButtonPress, PageReturn, Tamper, TamperClear, MeterFault, SwChange. A fitted meter under power
answers a read with a signed reading that holds the nonce, a log read of 1 to 256 entries with the entries it holds and a reading, and the
other requests with its records. The button steps through four pages, and page 1 returns, each shown at once. Each tamper event sets its
status bit and is logged; closing the service switch clears them and is logged. A fault is logged once. Legal software changes only while
the service switch is open, and the new record is signed. (R401, R402, R403, R404, R411, R416) -/
def Obligations.TheMeterAnswersAndIsWatched : Prop :=
  (∀ (n : List Byte) (s : State), meterOn s = true → exec (.meterRead n) s = .next (meterAnswer s 1 (readingOf s.meter n))) ∧
  (∀ (a n : Nat) (s : State), meterOn s = true → 1 ≤ n → n ≤ 256 → exec (.logRead a n) s = .next
    (meterAnswer s 2 ((range' a n).flatMap (fun k => (tabFind k s.meter.log).getD []) ++ readingOf s.meter []))) ∧
  (∀ (s : State), meterOn s = true →
    exec .swid s = .next (meterAnswer s 3 (swidRecord s.meter)) ∧
    exec .cert s = .next (meterAnswer s 4 (padTo 832 s.meter.cert)) ∧
    exec .buttonPress s = .next { s with meter := { s.meter with
      page := s.meter.page % 4 + 1, shown := pageText { s.meter with page := s.meter.page % 4 + 1 } (s.meter.page % 4 + 1) } } ∧
    exec .pageReturn s = .next { s with meter := { s.meter with page := 1, shown := pageText { s.meter with page := 1 } 1 } } ∧
    exec (.tamper 0) s = .next { s with meter := logPlain { s.meter with housing := true } 5 4 [] } ∧
    exec (.tamper 1) s = .next { s with meter := logPlain { s.meter with cover := true } 5 3 [] } ∧
    exec (.tamper 2) s = .next { s with meter := logPlain { s.meter with magnetic := true } 5 5 [] } ∧
    exec (.tamper 3) s = .next { s with meter := logPlain { s.meter with service := true } 5 6 [] } ∧
    (s.meter.service = true → exec .tamperClear s = .next
      { s with meter := logPlain { s.meter with service := false, housing := false, cover := false, magnetic := false } 6 0 [] }) ∧
    (s.meter.fault = false → exec .meterFault s = .next { s with meter := logPlain { s.meter with fault := true } 10 0 [] }) ∧
    (∀ (lr par : List Byte) (v : W64) (m : Meter), m = { s.meter with lrDigest := lr, paramDigest := par, version := v.toNat % 2 ^ 48 } →
      (s.meter.service = true → exec (.swChange lr par v) s = .next { s with meter := sendIdentity (logPlain m 9 0 (sha256 (swidRecord m))) }) ∧
      (s.meter.service = false → exec (.swChange lr par v) s = .next s)))

/-- O44. OPEN, CLOSE, LOG_ACK, SET_TIME, ROTATE and ENROL of the meter. A command that fails a check of R408 is answered with that check's
status and changes nothing. An accepted LOG_ACK, SET_TIME, ROTATE or ENROL raises the sequence number, acts, is logged, and is answered at
once. An accepted OPEN or CLOSE is scheduled for its epoch, or with AT_EPOCH 0 for the next boundary or the one after it; its answer
waits. (R404, R407, R408, R409, R410, R413) -/
def Obligations.MeterCommandsRunTheirChecks : Prop :=
  (∀ (s : State) (c : List Byte) (k : Nat) (m : Meter), meterOn s = true → m = { s.meter with cSeq := some (mcSeq c) } →
    (k = mcCheck s.meter 3 c → exec (.logAck c) s = .next (if k ≠ 1 then commandAnswer s k else commandAnswer
      { s with meter := logPlain { m with logAcked := max m.logAcked (min (mcArg c + 1) m.logNext) } 12 0 [] } 1)) ∧
    (k = mcCheck s.meter 4 c → exec (.setTime c) s = .next (if k ≠ 1 then commandAnswer s k else commandAnswer
      { s with meter := logPlain { m with utc := mcArg c } 7 0 (natLe 8 m.utc ++ natLe 8 (mcArg c)) } 1)) ∧
    (k = mcCheck s.meter 5 c → exec (.meterRotate c) s = .next (if k ≠ 1 then commandAnswer s k else commandAnswer
      { s with meter := logPlain { m with key := some (mcKey c) } 8 0 (keyHash (mcKey c)) } 1)) ∧
    (k = mcCheck s.meter 6 c → exec (.enrol c) s = .next (if k ≠ 1 then commandAnswer s k else commandAnswer
      { s with meter := sendIdentity (logPlain { m with key := some (mcKey c) } 8 0 (keyHash (mcKey c))) } 1)) ∧
    (k = mcCheck s.meter 1 c → mcAt c ≠ 0 → exec (.meterOpen c) s = .next (if k ≠ 1 then commandAnswer s k else
      { s with meter := { m with sched := some { epoch := mcAt c, account := mcAccount c } } })) ∧
    (k = mcCheck s.meter 2 c → mcAt c ≠ 0 → exec (.meterClose c) s = .next (if k ≠ 1 then commandAnswer s k else
      { s with meter := { m with sched := some { epoch := mcAt c, account := 0 } } })) ∧
    (∀ (late : Bool) (t : State), s.choose = (late, t) → mcAt c = 0 →
      (k = mcCheck s.meter 1 c → exec (.meterOpen c) s = .next (if k ≠ 1 then commandAnswer s k else
        { t with meter := { m with sched := some { epoch := m.epoch + 1 + b2n late, account := mcAccount c } } })) ∧
      (k = mcCheck s.meter 2 c → exec (.meterClose c) s = .next (if k ≠ 1 then commandAnswer s k else
        { t with meter := { m with sched := some { epoch := m.epoch + 1 + b2n late, account := 0 } } }))))

/-- O45. EPOCH_BOUNDARY, POWER_DOWN, POWER_UP, METER_TRANSMISSION and M_LINK_LOSS. The energy of an epoch joins the total and the account in
force during it, or the idle account; then the epoch and the clock advance, the test output gives a pulse for each 0.1 Wh that the total
has passed, a due command takes effect and is answered, each whole minute the window is refreshed, and each whole second a reading goes
out. Loss of power is logged, and what is still to be sent leaves; on its return the clock has run on, a command that was due later is
cancelled, the event is logged and the identity sent; a meter put in its place starts from its own total and log, with no billing key and
no account. The oldest transmission reaches the mirror where CPC firmware runs, or is lost. Without a reading for 3 s the link is down,
with a record. (R400, R409, R410, R411, R415, R417, R437) -/
def Obligations.TheMeterKeepsItsAccounts : Prop :=
  (∀ (e : Nat) (o : Bool) (s t u v w : State) (n : Nat), meterOn s = true → s.meter.fault = false →
    t = { s with meter :=
      if s.meter.account = 0 then { s.meter with total := s.meter.total + e, idle := s.meter.idle + e, epoch := s.meter.epoch + 1, utc := s.meter.utc + 10, range := o }
      else { s.meter with total := s.meter.total + e, acct := s.meter.acct + e, epoch := s.meter.epoch + 1, utc := s.meter.utc + 10, range := o } } →
    n = t.meter.total / tenthWh - s.meter.total / tenthWh → v = (if n = 0 then t else { t with outbox := t.outbox ++ [.pulses n] }) →
    ((∃ x : Sched, s.meter.sched = some x ∧ x.epoch ≤ s.meter.epoch + 1 ∧ u = commandAnswer { v with meter := applySched v.meter x } 1) ∨
      (∀ x : Sched, s.meter.sched = some x → s.meter.epoch + 1 < x.epoch) ∧ u = v) →
    w = (if u.meter.epoch % 6000 = 0 then { u with meter := refresh u.meter } else u) →
    exec (.epochBoundary e o) s = .next (if w.meter.epoch % 100 = 0 then { w with meter := { w.meter with tx := w.meter.tx ++ [(0, readingOf w.meter [])] } } else w)) ∧
  (∀ (s : State), meterOn s = true → exec .powerDown s = .next
    { s with meter := refresh { (logPlain s.meter 3 0 []) with on := false, page := 4, downShown := true } }) ∧
  (∀ (n : Nat) (sw : Bool) (s : State) (m : Meter), meterFitted s = true → s.meter.on = false →
    m = logPlain { s.meter with on := true, utc := s.meter.utc + n, downShown := false, range := false } 4 0 [] →
    exec (.powerUp ⟨n, sw, none⟩) s = .next { s with meter := refresh (sendIdentity (setService (if m.sched.isSome then logPlain { m with sched := none } 11 0 [] else m) sw)) }) ∧
  (∀ (n : Nat) (sw : Bool) (x : NewMeter) (s : State), meterFitted s = true → s.meter.on = false →
    exec (.powerUp ⟨n, sw, some x⟩) s = .next { s with meter := refresh (sendIdentity (setService (logPlain { (newMeter s.vendorHash x) with on := true } 4 0 []) sw)) } ∧
    (newMeter s.vendorHash x).total = x.total ∧ (newMeter s.vendorHash x).log = x.log ∧ (newMeter s.vendorHash x).key = none ∧ (newMeter s.vendorHash x).account = 0) ∧
  (∀ (s t : State) (ty : Nat) (b : List Byte) (rest : List (Nat × List Byte)), s.meter.tx = (ty, b) :: rest → s.inj = none →
    t = { s with meter := { s.meter with tx := rest } } →
    exec (.meterTransmission false) s = .next t ∧ exec (.meterTransmission true) s = .next (if cpcRuns s then mirrorTake t ty b else t)) ∧
  (∀ (s : State), s.on mirrorStatMLink = true → (s.stop 33).tainted.contains 900 = false →
    exec .mLinkLoss s = .next (raiseErr ((s.setStop 33 { (s.stop 33) with tainted := setDel 900 (s.stop 33).tainted }).put mirrorStatMLink 0) 0x0901 0 33 0 none 0 0))

/-- O46. COLD_START, COLD_RESET and MODULE_WARM_RESET run the steps of start-up. A cold start of an unstarted module with its input at 40.5 V
or above, and a cold reset of a started one, run steps 3 to 14, and a module-warm reset steps 4 to 14, each on what that reset keeps, a
module-warm reset after the increments of the lit cassettes are written. A cold start with the module started, stopped or below 40.5 V
changes nothing. With both roots failed nothing goes on after step 3 and CAP_VERSION stays as it was, and a warm reset then stops at step
4; else it is 1; without CPC firmware the sequence stops at step 4 with CPC_HELD; otherwise STEP ends at 0x1F, and ELAPSED_MS shows the
time taken. (R382, R419, R421, R425) -/
def Obligations.StartUpRunsItsSteps : Prop :=
  (∀ (rep : BootReport) (s : State), s.get bootStatusStep = 0 → s.inputStop = 0 → 4050 ≤ s.get pwrInVinCv → exec (.coldStart rep) s = .next (bootFrom3 s rep)) ∧
  (∀ (rep : BootReport) (s : State), s.get bootStatusStep ≠ 0 ∨ s.inputStop ≠ 0 ∨ s.get pwrInVinCv < 4050 → exec (.coldStart rep) s = .next s) ∧
  (∀ (rep : BootReport) (s : State), s.get bootStatusStep ≠ 0 → exec (.coldReset rep) s = .next (bootFrom3 (coldState s 1) rep) ∧
    exec (.moduleWarmReset rep) s = .next
      (bootFrom4 (warmState (writeLives s)) rep)) ∧
  (∀ (rep : BootReport) (s t : State), t = rootFail (setAbnormal (s.put bootStatusStep 3)
      (decide ((s.put bootStatusStep 3).get pwrInVinCv < 4050 ∨ 5700 < (s.put bootStatusStep 3).get pwrInVinCv)) false) rep.primaryOk rep.mirrorOk false →
    (t.rootLost = true → bootFrom3 s rep = t) ∧
    (∀ (d : List Byte) (u : State), t.rootLost = false → (drawOwnNonce (t.put capVersion 1)).draw 3 = (d, u) →
      bootFrom3 s rep = bootFrom4 (u.put rdmaKeysKeyNonce (leNat d)) rep)) ∧
  (∀ (rep : BootReport) (s : State), (s.rootLost = true → bootFrom4 s rep = s.put bootStatusStep 4) ∧
    (s.rootLost = false → bootFrom4 s rep = match bootTarget s 0 with
      | (none, t) => t.puts [(bootStatusStep, 4), (bootStatusCpcHeld, 1)]
      | (some i, t) => bootRest (runImage t 0 i) rep)) ∧
  (∀ (rep : BootReport) (s : State), (bootRest s rep).get bootStatusStep = 0x1F ∧
    (bootRest s rep).get bootStatusElapsedMs = rep.elapsedMs % 2 ^ bootStatusElapsedMs.w)

/-- O47. REGION_RESET, PORT_RESET, QUIESCE, FW_WRITE and FW_ACTIVATE. A reset of a running region writes the increments of the lit cassettes
and its cache back, ends a quiesce, resets its logic, fails its open steps, sets RESET_CAUSE 3 and measures and takes up the hub image of
flash; a hub takeover forced at it is recorded and shows in HUB_ON_B. A port reset takes the link down, puts its queue pairs in the error
state and sets RESET_CAUSE 4. A quiesce without a bitstream ends at once, and one that waits ends when all is flushed, after the caches
and the increments of the lit cassettes are written. A staged image that fails a check is refused with a record; one that passes replaces
the preferred bank, whose image goes to the other. Once all hubs have stalled the CPC reboots. (R388, R426, R427, R428, R430) -/
def Obligations.ResetsAndUpdatesAct : Prop :=
  (∀ (r : Fin 32) (s t u : State), running s r = true →
    t = (failOpenSteps (resetLogic (endQuiesce (writeBackInv (writeLives s) r)) r) r).put resetCauseLast 3 →
    u = (if t.rootLost = true then t else match bootTarget t 1 with
      | (some i, v) => runImage v 1 i
      | (none, v) => v) →
    ((0x0A01, r.val) ∉ s.bootInj → exec (.regionReset r) s = .next (disarm u r)) ∧
    ((0x0A01, r.val) ∈ s.bootInj → exec (.regionReset r) s = .next ((raiseErr
      (fired { u with bootInj := u.bootInj.filter (fun e => decide (e ≠ (0x0A01, r.val))), inj := s.inj }) 0x0A01 0 r 0 none 0 0 true).put (hubStatHubOnB r) 1))) ∧
  (∀ (p : Fin 64) (h : Fin 2) (s t u : State), portClass s p ≠ 0 → h = 0 ∨ breakout s p = true → s.pdOff.contains (p.val / 16) = false → t = endQuiesce s →
    u = t.put (portStatLink (p.val / 16) (p.val % 16)) (setBit (t.get (portStatLink (p.val / 16) (p.val % 16))) h false) →
    exec (.portReset p h) s = .next ((((u.peers.filter (fun e => peerValid e.2 && !e.2.err &&
      decide (peerPort e.1 e.2 = p.val ∧ peerHalf e.2 = h.val))).map (·.1)).foldl qpError u).put resetCauseLast 4)) ∧
  (∀ (s : State), quiesced s = false →
    (∀ t, s.quiescing = 0 → loadBusy s = false → s.on fwUpdateFwBusy = false → t = stallAll { s with quiescing := 1 } 5 → t.quiescing = 1 →
      exec .quiesce s = .next (if quiesceStalled t = true then
        (if quiesceFlushed t = true then { writeLives ((List.range 32).foldl writeBack { t with quiescing := 2 }) with quiescing := 0 }.put resetCtrlQuiesced 1
          else { t with quiescing := 2 })
        else t)) ∧
    (s.quiescing = 2 → quiesceFlushed s = true →
      exec .quiesce s = .next ({ writeLives ((List.range 32).foldl writeBack s) with quiescing := 0 }.put resetCtrlQuiesced 1))) ∧
  (∀ (g : Fin 3) (s t : State) (b : Option (List Byte)) (k p : Nat), loadBusy s = false → s.on fwUpdateFwBusy = false → quiesced s = false → s.rootLost = false →
    13 ≤ s.get bootStatusStep → staged (s.put fwUpdateFwTgt g) ((s.put fwUpdateFwTgt g).get bsLenLen) = (b, t) → k = fwCheck t g (b.getD []) →
    p = t.get secStateBootBank →
    exec (.fwWrite g) s = .next (if k ≠ 1 then (fwRefused t g k).put fwUpdateFwCode k
      else { t with flash := tabPut (g.val * 2 + p) (b.getD []) (match tabFind (g.val * 2 + p) t.flash with
        | some old => tabPut (g.val * 2 + (1 - p)) old t.flash
        | none => tabErase (g.val * 2 + (1 - p)) t.flash) }.put fwUpdateFwCode 1)) ∧
  (∀ (s t : State), s.on fwUpdateFwBusy = false → quiesced s = false → s.rootLost = false → 13 ≤ s.get bootStatusStep → s.quiescing = 0 →
    t = stallAll ({ s with activating := true }.put fwUpdateFwBusy 1) 5 →
    exec .fwActivate s = .next (if t.activating = true ∧ allStalled t 5 = true then rebootCpc t else t)) ∧
  (∀ (s : State), s.on fwUpdateFwBusy = true → s.activating = true → allStalled s 5 = true → exec .fwActivate s = .next (rebootCpc s))

/-- O48. ERROR_RECORD, INJ_ARM and INJ_WINDOW_END. A record of a code that a detector has enters the error queue with that code's severity,
and one of any other code changes nothing. A write of INJ_CTRL with COUNT 0 is ignored; otherwise its fields are set, INJ_EN only before
the seal, and under ARM the injection is refused with REJECTED or fires. An injection that runs on time alone ends with its window, and a
reading that it forced is the monitor's own again. (R431, R434, R436, R437, R438, R471) -/
def Obligations.ErrorsArriveAndAreInjected : Prop :=
  (∀ (st : Fin 36) (c u : BitVec 16) (w d0 d1 : W64) (s t : State) (n : Nat), s.stamp = (n, t) →
    exec (.errorRecord st c u w d0 d1) s = .next (match sevOf c.toNat u.toNat (stepField w.toNat) with
      | none => s
      | some v => enqueueErr t {
          code := c.toNat, sev := v, source := st.val, unit := u.toNat, step := stepField w.toNat, d0 := d0.toNat, d1 := d1.toNat
          time := n, timeValid := t.on ptpStatLocked })) ∧
  (∀ (v : W64) (s : State), field v.toNat 32 16 = 0 → exec (.injArm v) s = .next s) ∧
  (∀ (v : W64) (s t u : State) (j : Shot), field v.toNat 32 16 ≠ 0 →
    t = s.puts [(injCtrlCode, field v.toNat 0 16), (injCtrlMode, field v.toNat 16 2), (injCtrlCount, field v.toNat 32 16)] →
    u = (if sealed t then t else t.put injCtrlInjEn (field v.toNat 63 1)) →
    (bitAt v.toNat 18 = false → exec (.injArm v) s = .next u) ∧
    (bitAt v.toNat 18 = true → j = {
        code := field v.toNat 0 16, mode := field v.toNat 16 2, count := field v.toNat 32 16, stop := u.get injTargetStop
        unit := u.get injTargetUnit, value := u.get injValueValue } →
      exec (.injArm v) s = .next (if shotRefused u j = true then u.put injStatusRejected 1 else fireShot u j))) ∧
  (∀ (s : State) (j : Inj), s.inj = some j →
    (j.left = none → exec .injWindowEnd s = .next (endReading ({ s with inj := none }.puts [(injCtrlArm, 0), (injStatusArmed, 0)]) j.code j.unit)) ∧
    (∀ n, j.left = some n → exec .injWindowEnd s = .next s)) ∧
  (∀ (s : State) (u : Nat), endReading s 0x0407 u = inputReads s s.inputMv s.inputRev false ∧ endReading s 0x0805 u = settleLife s (u % 4096) ∧
    endReading s 0x0806 u = casTemp s (u % 4096) (s.bay (u % 4096)).temp false ∧ ∀ c, c ≠ 0x0407 → c ≠ 0x0805 → c ≠ 0x0806 → endReading s c u = s)

/-- O49. REG_READ, PROV_WRITE, REGISTER_WRITE and MGMT. The housekeeping port reads a word of the blocks it serves, and takes a list of 1 to
16 entries of 64 bytes before the seal; other lists are refused, with 0x10 for their form and 0x15 after the seal. An access of an address
that names no register, or is misaligned, writes nothing; any other writes its word, and so does a firmware message at its stop, unless
the stop freewheels, which counts the message in UNDELIV. A word that is not served, or has a value outside its range, is ignored whole,
and the mirror takes no write. (R9, R424, R440, R441, R447, R448) -/
def Obligations.RegisterSpaceIsReadAndWritten : Prop :=
  (∀ (o : W64) (s : State), s.get bootStatusStep ≠ 0 → housekeepingReads o.toNat = true →
    exec (.regRead o) s = .next { s with outbox := s.outbox ++ [.housekeeping (natLe 2 1 ++ natLe 2 0 ++ natLe 4 8 ++ natLe 8 (readWord s (.global o.toNat)))] }) ∧
  (∀ (n : Nat) (es : List (List Byte)) (s : State), s.get bootStatusStep ≠ 0 →
    exec (.provWrite n es) s = .next (
      if n = 0 ∨ 16 < n ∨ es.length ≠ n ∨ es.any (fun e => decide (e.length ≠ 64)) = true then housekeepingAnswer s 2 (natLe 1 0x10)
      else if sealed s = true then housekeepingAnswer s 2 (natLe 1 0x15)
      else housekeepingAnswer { s with prov := es } 2 (natLe 1 0x01))) ∧
  (∀ (p : Path) (a v : W64) (s : State), s.get bootStatusStep ≠ 0 →
    (regPlace a.toNat = none ∨ a.toNat % 8 ≠ 0 → exec (.registerWrite p a v) s = .next s) ∧
    (∀ pl, regPlace a.toNat = some pl → a.toNat % 8 = 0 → exec (.registerWrite p a v) s = .next (writeWord s p pl v.toNat))) ∧
  (∀ (st : Fin 36) (msg : MgmtMsg) (s : State), freewheels s st = true → exec (.mgmt st msg) s = .next (s.bump (stopUndelivUndeliv st) 1)) ∧
  (∀ (st : Fin 36) (a v : W64) (s : State) (pl : RegPlace), freewheels s st = false → regPlace a.toNat = some pl → a.toNat % 8 = 0 → atStop st pl = true →
    exec (.mgmt st (.regWrite a v)) s = .next (writeWord s .firmware pl v.toNat)) ∧
  (∀ (s : State) (p : Path) (pl : RegPlace) (v : Nat),
    (served s pl = false ∨ inRanges pl v = false → writeWord s p pl v = s) ∧
    (∀ o, pl = .mirror o → writeWord s p pl v = s) ∧
    (∀ k o, pl = .die k o → served s pl = true → o < 0x200000 → writeWord s p pl v = (placeFields pl).foldl (writeField v) s))

/-- O50. A step runs the command at the front of the queue on the rest, and idles on an empty queue. For every command c and state s, a step
of s with c at the front of its queue is exec of c on s with the queue's rest. On an empty queue the module idles: its ports' receive
buffers empty, a class under XOFF is sent its XON, and with nothing buffered and no XOFF out the state stands. That idling step is the
model's choice (log 1), since the table has no row for the passing of time. (95_what_each_step_holds) -/
def Obligations.StepRunsTheFrontCommand : Prop :=
  (∀ (c : Instr) (rest : List Instr) (s : State), s.pending = c :: rest → step s = exec c { s with pending := rest }) ∧
  (∀ (s : State), s.pending = [] → step s = .next (s.xoffs.foldl (fun s k => sendPfc s (k / 8) (k / 4 % 2) (k % 4) false) { s with buffers := [], xoffs := [] })) ∧
  (∀ (s : State), s.pending = [] → s.buffers = [] → s.xoffs = [] → step s = .next s)

/-- O51. The state after reset meets the invariant. After reset the byte store is in its canonical form (nothing is listed) and the error
queue holds at most 4096 records (none), and no command waits. (R189, R201, R434) -/
def Obligations.ResetMeetsTheInvariant : Prop :=
  Inv State.reset ∧ State.reset.pending = [] ∧ State.reset.errq = []

/-- O52. Every step from a state that meets the invariant answers a state that meets it. For every state, reachable or not, in which the byte
store is in its canonical form (addresses strictly rising, no byte listed that an unlisted address would read as) and the error queue
holds at most 4096 records: if a step answers a next state, both still hold there. This covers all 185 commands. (R189, R201, R434) -/
def Obligations.EveryStepKeepsTheInvariant : Prop :=
  ∀ (s t : State), Inv s → step s = .next t → Inv t

/-- O53. No command touches the waiting queue, the fused identity, or what has already left the module. Whatever command runs on whatever
state, if it answers a next state then the waiting commands, the fused vendor hash, the serial number and the identity certificate are as
before, and what the module had sent out stands, followed by what the command sends. No command calls back or rewrites something sent.
(95_what_each_step_holds, R383, R385, R398) -/
def Obligations.CommandsLeaveQueueAndFuses : Prop :=
  ∀ (c : Instr) (s t : State), exec c s = .next t →
    t.pending = s.pending ∧ t.vendorHash = s.vendorHash ∧ t.serial = s.serial ∧ t.idCert = s.idCert ∧ s.outbox <+: t.outbox

/-- O54. Every command answers a next state on every state, but for an input beyond the absolute maximum ratings. No command is refused and
none stops the module, whatever its operands and the state: exec answers a next state. The one exception is INPUT_VOLTAGE_CHANGE with a
magnitude above 75 V, beyond the ratings of R454 within which alone R324 gives behaviour: it faults under a name of its own.
(95_what_each_step_holds, R324, R454) -/
def Obligations.EveryCommandCompletes : Prop :=
  ∀ (c : Instr) (s : State), (∃ t, exec c s = .next t) ∨
    (∃ (mv : Nat) (rev : Bool) (d : Draws), c = .inputVoltageChange mv rev d ∧ 75000 < mv ∧ exec c s = .fault .beyondRatings)

/-- O55. A written word changes a register field by its type code, and a field keeps what it is given. A read of a field after a write gives
the written value cut to the field's width, and every field of another place reads as before. Under a written word an RW or RWS field
takes its bits, an RWK field takes them only before the seal, a W1C field loses the bits written as one, and an RO or WO field changes
nothing in the register file. (R9, R441) -/
def Obligations.FieldWritesFollowTheirType : Prop :=
  (∀ (s : State) (f g : Fld) (v : Nat), (s.put f v).get f = v % 2 ^ f.w ∧ (g.key ≠ f.key → (s.put f v).get g = s.get g)) ∧
  (∀ (s : State) (f : Fld) (v : Nat),
    ((f.ty = .rw ∨ f.ty = .rws ∨ (f.ty = .rwk ∧ sealed s = false)) → (writeField v s f).get f = v / 2 ^ f.lo % 2 ^ f.w) ∧
    ((f.ty = .ro ∨ f.ty = .wo ∨ (f.ty = .rwk ∧ sealed s = true)) → writeField v s f = s) ∧
    (f.ty = .w1c → s.get f < 2 ^ f.w → ∀ i, ((writeField v s f).get f).testBit i = ((s.get f).testBit i && !(v / 2 ^ f.lo % 2 ^ f.w).testBit i)) ∧
    (∀ g : Fld, g.key ≠ f.key → (writeField v s f).get g = s.get g))

/-- O56. Bytes stored at home read back, every other byte reads as before, and of the stacks only the 1 GiB they lie in lose their zero-
baseline marks. Storing a list of bytes at home from an address on, in a scratchpad, an LLM window or a stack, changes those bytes alone:
each reads as stored, and every other address as before. Of the zero-baseline marks exactly those of the 1 GiB of stack that a stored byte
lies in are taken, and every other part of the state stands. The store's canonical form is kept. (R8, R201, R422) -/
def Obligations.StoresChangeOnlyTheirBytes : Prop :=
  ∀ (s : State) (h : Nat) (l : List Byte),
    (∀ a, peek (storeBytes s h l) a = if h ≤ a ∧ a < h + l.length then l.getD (a - h) 0 else peek s a) ∧
    (∀ k, k ∈ (storeBytes s h l).unzeroed ↔ k ∈ s.unzeroed ∨ ∃ i, i < l.length ∧ inStack (h + i) = true ∧ k = (h + i) / 0x40000000) ∧
    (Memory.wf s.mem = true → Memory.wf (storeBytes s h l).mem = true) ∧
    { storeBytes s h l with mem := s.mem, unzeroed := s.unzeroed } = s

/-- O57. Every record that arrives is queued, counted into a queued one, or counted in LOST_CE. While no counter stands at its maximum, an
arriving record raises the sum of the COUNTs in the queue and LOST_CE by exactly one: it is appended under the next sequence number,
merged into the record of the same code, source, unit and step, merged under OVF into its target where the queue is full, or, if
corrected, counted in LOST_CE. The records before it stay, in their order. (R434) -/
def Obligations.ArrivingErrorsAreAccountedFor : Prop :=
  ∀ (s : State) (e : ErrRec), e.count = 1 → (∀ r ∈ s.errq, r.count < 2 ^ 32 - 1) → s.get errStatusLostCe < 2 ^ errStatusLostCe.w - 1 →
    ((enqueueErr s e).errq.map (fun r => r.count)).sum + (enqueueErr s e).get errStatusLostCe =
      (s.errq.map (fun r => r.count)).sum + s.get errStatusLostCe + 1 ∧
    ((enqueueErr s e).errq.map (fun r => r.seq) = s.errq.map (fun r => r.seq) ∨
      (enqueueErr s e).errq.map (fun r => r.seq) = s.errq.map (fun r => r.seq) ++ [s.errSeq])

/-- O58. Under EVT_EN the head record moves to the event buffer; without it, software reads and pops the head. While EVT_EN is set and the
event buffer has room, the head record joins the buffer and leaves the queue; without room, and while EVT_EN is clear, it stays. A later
record changes nothing in the buffer, so a record that has moved is never merged again. ERR_HEAD_REC reads the head record's bytes. A
write to ERR_POP removes the head while EVT_EN is clear, and is ignored while EVT_EN is set or the queue is empty. (R435) -/
def Obligations.ErrorQueueMovesAndPops : Prop :=
  (∀ (s t : State) (e : ErrRec) (rest : List ErrRec) (n : Nat), s.errq = e :: rest → s.stamp = (n, t) →
    (s.on evtCfgEvtEn = true → s.evbuf.length < 4096 → exec .errorRecordMove s = .next { t with
      errq := rest
      evbuf := s.evbuf ++ [{ kind := 2, src := e.source, time := n, timeValid := s.on ptpStatLocked, payload := errBytes e }] }) ∧
    (s.on evtCfgEvtEn = false ∨ 4096 ≤ s.evbuf.length → exec .errorRecordMove s = .next s) ∧
    (s.on evtCfgEvtEn = false → exec .errPop s = .next { s with errq := rest }) ∧
    (∀ k < 6, readWord s (.global (0x4440 + 8 * k)) = getLe (errBytes e) (8 * k) 8)) ∧
  (∀ (s : State), s.on evtCfgEvtEn = true ∨ s.errq = [] → exec .errPop s = .next s) ∧
  (∀ (s : State) (e : ErrRec), (enqueueErr s e).evbuf = s.evbuf ∧ (enqueueErr s e).evOut = s.evOut)

/-- O59. The meter's log loses nothing unacknowledged, and a power failure cancels what was scheduled and nothing else. An entry joins the log
under the next number, and the one entry it may take the place of lies 8192 numbers before it and has been acknowledged. With 8064 entries
unacknowledged OPEN and CLOSE are refused and only events of types 3 to 11 are logged; with 8192 none is. An event not logged is counted
in LOST_EVENTS. Energy registers and accounts stand. A command still scheduled when power fails is cancelled, with its entry after that of
POWER_UP; the account stays open and takes the energy of the first epoch after power-up. (R410, R413) -/
def Obligations.MeterLogKeepsWhatIsUnacknowledged : Prop :=
  (∀ (m n : Meter) (ty arg account acct : Nat) (d : List Byte), n = logEvent m ty arg account acct d →
    (8192 ≤ unacked m ∨ 8064 ≤ unacked m ∧ (ty < 3 ∨ 11 < ty) → n = { m with lost := satAdd 16 m.lost 1 }) ∧
    (unacked m < 8064 ∨ (unacked m < 8192 ∧ 3 ≤ ty ∧ ty ≤ 11) → n.logNext = m.logNext + 1 ∧ (tabFind m.logNext n.log).isSome = true ∧ n.lost = m.lost ∧
      (∀ k, k < m.logNext → tabFind k n.log ≠ tabFind k m.log → k + 8192 = m.logNext ∧ k < m.logAcked) ∧
      ((∀ k, (tabFind k m.log).isSome = true → k < m.logNext ∧ m.logNext ≤ k + 8192) →
        ∀ k, (tabFind k n.log).isSome = true → k < n.logNext ∧ n.logNext ≤ k + 8192)) ∧
    n.total = m.total ∧ n.idle = m.idle ∧ n.acct = m.acct ∧ n.account = m.account ∧ n.openEpoch = m.openEpoch ∧ n.sched = m.sched ∧ n.logAcked = m.logAcked) ∧
  (∀ (m : Meter) (c : List Byte), 8064 ≤ unacked m → mcCheck m 1 c ≠ 1 ∧ mcCheck m 2 c ≠ 1) ∧
  (∀ (s : State) (k : Nat) (sw : Bool), meterOn s = true → ∃ (t u : State) (m : Meter), exec .powerDown s = .next t ∧ exec (.powerUp ⟨k, sw, none⟩) t = .next u ∧
    m = logPlain { t.meter with on := true, utc := t.meter.utc + k, downShown := false, range := false } 4 0 [] ∧
    u.meter = refresh (sendIdentity (setService (if s.meter.sched.isSome then logPlain { m with sched := none } 11 0 [] else m) sw)) ∧
    u.meter.sched = none ∧ u.meter.account = s.meter.account ∧ u.meter.acct = s.meter.acct ∧
    (∀ (e : Nat) (o : Bool), s.meter.fault = false → s.meter.account ≠ 0 → ∃ v, exec (.epochBoundary e o) u = .next v ∧
      v.meter.account = s.meter.account ∧ v.meter.acct = s.meter.acct + e))

/-- O60. LIFE_CH at 90 % of the rated life sets EOL_WARN and at 100 % EOL, each with a record, and the cassette stays lit. With a rated life
in the bay and no injection armed, an increment of a lit cassette's life, one that its drives allow, sets EOL_WARN when LIFE_CH reaches 90
% of it and EOL when LIFE_CH reaches it; each that was clear before raises a cassette-fault record with the serial number and LIFE_CH. The
cassette stays lit, and nothing else of its bay changes but the next interval's account of its drives. A cassette that passes
authentication has the flags that the LIFE_CH and the rated life it reports call for, and stays lit if it was. (R321) -/
def Obligations.CassettesReportTheirEndOfLife : Prop :=
  (∀ (b : Fin 8) (n : Nat) (s t u : State) (life rated : Nat), isLit s b = true → n ≤ 20 → (lifeBounds s b).1 ≤ n →
    n ≤ (lifeBounds s b).2 → s.inj = none → t = (s.setBay b { (s.bay b) with low := none, high := 0 }).bump (casLifeLifeCh (b.val / 2) (b.val % 2)) n →
    life = t.get (casLifeLifeCh (b.val / 2) (b.val % 2)) → rated = t.get (casLifeRatedCh (b.val / 2) (b.val % 2)) → rated ≠ 0 →
    u = (if 9 * rated ≤ 10 * life ∧ t.on (casStatEolWarn (b.val / 2) (b.val % 2)) = false then
      raiseErr (t.put (casStatEolWarn (b.val / 2) (b.val % 2)) 1) 0x0805 0 (bayStop b) (bayUnit b) none (baySerial t b) life
      else t.put (casStatEolWarn (b.val / 2) (b.val % 2)) (b2n (decide (9 * rated ≤ 10 * life)))) →
    ∃ v, exec (.lifeIncrement b n) s = .next v ∧
      v = (if rated ≤ life ∧ u.on (casStatEol (b.val / 2) (b.val % 2)) = false then
        raiseErr (u.put (casStatEol (b.val / 2) (b.val % 2)) 1) 0x0805 0 (bayStop b) (bayUnit b) none (baySerial u b) life
        else u.put (casStatEol (b.val / 2) (b.val % 2)) (b2n (decide (rated ≤ life)))) ∧
      (9 * rated ≤ 10 * life → v.on (casStatEolWarn (b.val / 2) (b.val % 2)) = true) ∧ (rated ≤ life → v.on (casStatEol (b.val / 2) (b.val % 2)) = true) ∧
      isLit v b = true ∧ v.bays = t.bays) ∧
  (∀ (b : Fin 8) (c : CassetteReply) (s : State) (rated : Nat), (s.bay b).phase = 1 → s.inj = none → c.answers = true → c.cert.length = 832 →
    rated = getLe c.cert 6 2 * 100000 → rated ≠ 0 → rated < 2 ^ 32 → c.lifeCh < 2 ^ 32 →
    s.get (casLifeLifeCh (b.val / 2) (b.val % 2)) < 2 ^ 32 →
    ∃ x, exec (.cassetteAuthenticated b c) s = .next x ∧ (authReason s b c = 0 →
      (9 * rated ≤ 10 * c.lifeCh → x.on (casStatEolWarn (b.val / 2) (b.val % 2)) = true) ∧
      (rated ≤ c.lifeCh → x.on (casStatEol (b.val / 2) (b.val % 2)) = true) ∧ (isLit s b = true → isLit x b = true)))
end

