-- ==== Sys2Proof/Laws/Tab.lean ====
section
/-! SUPPORT. Sparse tables: reading after a write, and the canonical form of the stores. -/
namespace Sys2Proof.Machine

section
variable {β : Type} {d v : β} {k j : Nat} {t : Tab β}

@[simp] theorem tabFind_nil : tabFind k ([] : Tab β) = none := rfl

theorem tabGet_eq_find : tabGet d k t = (tabFind k t).getD d := by
  induction t with
  | nil => rfl
  | cons e t ih => simp only [tabGet, tabFind]; split <;> simp [ih]

@[simp] theorem tabFind_put_same : tabFind k (tabPut k v t) = some v := by
  induction t with
  | nil => simp [tabPut, tabFind]
  | cons e t ih =>
    simp only [tabPut]
    split
    · simp [tabFind]
    · split
      · simp [tabFind]
      · simp [tabFind, *]

theorem tabFind_put_other (h : j ≠ k) : tabFind j (tabPut k v t) = tabFind j t := by
  induction t with
  | nil => simp [tabPut, tabFind, h]
  | cons e t ih =>
    simp only [tabPut]
    split
    · simp [tabFind, h]
    · split
      · simp only [tabFind]
        rename_i h1 h2
        rw [if_neg h, if_neg (h2 ▸ h)]
      · simp only [tabFind, ih]

theorem tabFind_put : tabFind j (tabPut k v t) = if j = k then some v else tabFind j t := by
  split
  · next h => rw [h, tabFind_put_same]
  · next h => exact tabFind_put_other h

@[simp] theorem tabGet_put_same : tabGet d k (tabPut k v t) = v := by simp [tabGet_eq_find]

theorem tabGet_put_other (h : j ≠ k) : tabGet d j (tabPut k v t) = tabGet d j t := by
  simp [tabGet_eq_find, tabFind_put_other h]

theorem tabFind_erase_other (h : j ≠ k) : tabFind j (tabErase k t) = tabFind j t := by
  induction t with
  | nil => rfl
  | cons e t ih =>
    simp only [tabErase]
    split
    · next e1 => simp only [tabFind, ih, if_neg (e1 ▸ h)]
    · simp only [tabFind, ih]

@[simp] theorem tabFind_erase_same : tabFind k (tabErase k t) = none := by
  induction t with
  | nil => rfl
  | cons e t ih =>
    simp only [tabErase]
    split
    · exact ih
    · next h => simp [tabFind, h, ih]

@[simp] theorem tabGet_set_same [DecidableEq β] : tabGet d k (tabSet d k v t) = v := by
  simp only [tabSet, tabGet_eq_find]
  split
  · next h => simp [h]
  · simp

theorem tabGet_set_other [DecidableEq β] (h : j ≠ k) : tabGet d j (tabSet d k v t) = tabGet d j t := by
  simp only [tabSet, tabGet_eq_find]
  split
  · rw [tabFind_erase_other h]
  · rw [tabFind_put_other h]

/-! ## The canonical form -/

/-- The form as a property of the entries. -/
theorem tabWf_iff [DecidableEq β] : tabWf d t = true ↔ (∀ e ∈ t, e.2 ≠ d) ∧ t.Pairwise (fun a b => a.1 < b.1) := by
  induction t with
  | nil => simp [tabWf]
  | cons e t ih =>
    cases t with
    | nil => simp [tabWf]
    | cons f t =>
      simp only [tabWf, Bool.and_eq_true, decide_eq_true_eq, ih, List.pairwise_cons, List.forall_mem_cons]
      constructor
      · rintro ⟨⟨h1, h2⟩, ⟨h3, h4⟩, h5, h6⟩
        exact ⟨⟨h1, h3, h4⟩, ⟨h2, fun a ha => Nat.lt_trans h2 (h5 a ha)⟩, h5, h6⟩
      · rintro ⟨⟨h1, h3, h4⟩, ⟨h2, _⟩, h5, h6⟩
        exact ⟨⟨h1, h2⟩, ⟨h3, h4⟩, h5, h6⟩

theorem mem_tabErase {e : Nat × β} (h : e ∈ tabErase k t) : e ∈ t := by
  induction t with
  | nil => exact h
  | cons f t ih =>
    simp only [tabErase] at h
    split at h
    · exact List.mem_cons_of_mem _ (ih h)
    · rcases List.mem_cons.1 h with h | h
      · exact h ▸ List.mem_cons_self
      · exact List.mem_cons_of_mem _ (ih h)

theorem mem_tabPut {e : Nat × β} (h : e ∈ tabPut k v t) : e = (k, v) ∨ e ∈ t := by
  induction t with
  | nil => simpa [tabPut] using h
  | cons f t ih =>
    simp only [tabPut] at h
    split at h
    · rcases List.mem_cons.1 h with h | h
      · exact .inl h
      · exact .inr h
    · split at h
      · rcases List.mem_cons.1 h with h | h
        · exact .inl h
        · exact .inr (List.mem_cons_of_mem _ h)
      · rcases List.mem_cons.1 h with h | h
        · exact .inr (h ▸ List.mem_cons_self)
        · exact (ih h).imp id (List.mem_cons_of_mem _)

theorem tabErase_pairwise (h : t.Pairwise (fun a b => a.1 < b.1)) : (tabErase k t).Pairwise (fun a b => a.1 < b.1) := by
  induction t with
  | nil => exact h
  | cons f t ih =>
    simp only [tabErase]
    rw [List.pairwise_cons] at h
    split
    · exact ih h.2
    · exact List.pairwise_cons.2 ⟨fun a ha => h.1 a (mem_tabErase ha), ih h.2⟩

theorem tabPut_pairwise (h : t.Pairwise (fun a b => a.1 < b.1)) : (tabPut k v t).Pairwise (fun a b => a.1 < b.1) := by
  induction t with
  | nil => simp [tabPut]
  | cons f t ih =>
    have h' := List.pairwise_cons.1 h
    simp only [tabPut]
    split
    · next hk =>
      refine List.pairwise_cons.2 ⟨fun a ha => ?_, h⟩
      rcases List.mem_cons.1 ha with rfl | ha
      · exact hk
      · exact Nat.lt_trans hk (h'.1 a ha)
    · split
      · next he => exact List.pairwise_cons.2 ⟨fun a ha => he ▸ h'.1 a ha, h'.2⟩
      · next h1 h2 =>
        refine List.pairwise_cons.2 ⟨fun a ha => ?_, ih h'.2⟩
        rcases mem_tabPut ha with rfl | ha
        · show f.1 < k; omega
        · exact h'.1 a ha

theorem tabSet_wf [DecidableEq β] (h : tabWf d t = true) : tabWf d (tabSet d k v t) = true := by
  rw [tabWf_iff] at h ⊢
  simp only [tabSet]
  split
  · exact ⟨fun e he => h.1 e (mem_tabErase he), tabErase_pairwise h.2⟩
  · next hv =>
    refine ⟨fun e he => ?_, tabPut_pairwise h.2⟩
    rcases mem_tabPut he with rfl | he
    · exact hv
    · exact h.1 e he

theorem tabSetMany_wf [DecidableEq β] {l : List β} (h : tabWf d t = true) : tabWf d (tabSetMany d k l t) = true := by
  induction l generalizing k t with
  | nil => exact h
  | cons v l ih => exact ih (tabSet_wf h)

theorem tabDrop_wf [DecidableEq β] {p : Nat → Bool} (h : tabWf d t = true) : tabWf d (tabDrop p t) = true := by
  rw [tabWf_iff] at h ⊢
  exact ⟨fun e he => h.1 e (List.mem_filter.1 he).1, h.2.filter _⟩

/-- In the canonical form, equal readings are equal tables' entries: a listed entry reads as itself. -/
theorem tabFind_of_mem [DecidableEq β] (h : tabWf d t = true) {e : Nat × β} (he : e ∈ t) : tabFind e.1 t = some e.2 := by
  rw [tabWf_iff] at h
  replace h := h.2
  induction t with
  | nil => simp at he
  | cons f t ih =>
    rw [List.pairwise_cons] at h
    simp only [tabFind]
    rcases List.mem_cons.1 he with rfl | he
    · simp
    · rw [if_neg (by have := h.1 e he; omega)]; exact ih he h.2

end

end Sys2Proof.Machine
end

