-- ==== Sys2Proof/Laws/Keeps.lean ====
section
/-! SUPPORT. What no operation touches or breaks: the queue, the fused values, what has left the module, the form of the stores, the bound on
the error queue. One relation between the state before and after, and the laws it is proved by. -/
namespace Sys2Proof.Machine

/-- From `s` to `t`: the queue and the fused values stand (R383, R385), what has left stays left, the stores keep their form, and the error
queue stays within its 4096 records (R434). -/
structure Keeps (s t : State) : Prop where
  pending : t.pending = s.pending
  vendorHash : t.vendorHash = s.vendorHash
  serial : t.serial = s.serial
  idCert : t.idCert = s.idCert
  outbox : s.outbox <+: t.outbox
  mem : Memory.wf s.mem = true → Memory.wf t.mem = true
  errq : s.errq.length ≤ 4096 → t.errq.length ≤ 4096

/-- The same of an outcome: it speaks of a next state alone. -/
structure OutKeeps (s : State) (o : Host.Outcome State Fault Refusal) : Prop where
  next : ∀ t, o = .next t → Keeps s t

/-- The same of an operation that may have no result. -/
structure OptKeeps (s : State) (o : Option State) : Prop where
  result : ∀ t, o = some t → Keeps s t

/-- The same of an operation that may end in an error. -/
structure ExKeeps {ε : Type} (s : State) (o : Except ε State) : Prop where
  result : ∀ t, o = .ok t → Keeps s t

namespace Keeps

variable {s₀ s t : State}

theorem refl (s : State) : Keeps s s := ⟨rfl, rfl, rfl, rfl, List.prefix_refl _, id, id⟩

theorem trans {r : State} (h : Keeps r s) (k : Keeps s t) : Keeps r t :=
  ⟨k.pending.trans h.pending, k.vendorHash.trans h.vendorHash, k.serial.trans h.serial, k.idCert.trans h.idCert,
   h.outbox.trans k.outbox, fun x => k.mem (h.mem x), fun x => k.errq (h.errq x)⟩

theorem ite {c : Prop} [Decidable c] (h : Keeps s₀ s) (k : Keeps s₀ t) : Keeps s₀ (if c then s else t) := by
  split <;> assumption

theorem ite_snd {α : Type} {c : Prop} [Decidable c] {p q : α × State} (h : Keeps s₀ p.2) (k : Keeps s₀ q.2) :
    Keeps s₀ (if c then p else q).2 := by
  split <;> assumption

theorem foldl {α : Type} {g : State → α → State} {l : List α} (h : Keeps s₀ s) (k : ∀ u x, Keeps s₀ u → Keeps s₀ (g u x)) :
    Keeps s₀ (l.foldl g s) := by
  induction l generalizing s with
  | nil => exact h
  | cons x l ih => exact ih (k s x h)

theorem foldl_snd {α β : Type} {g : β × State → α → β × State} {p : β × State} {l : List α} (h : Keeps s₀ p.2)
    (k : ∀ u x, Keeps s₀ u.2 → Keeps s₀ (g u x).2) : Keeps s₀ (l.foldl g p).2 := by
  induction l generalizing p with
  | nil => exact h
  | cons x l ih => exact ih (k p x h)

theorem foldl_third {α β γ : Type} {g : β × γ × State → α → β × γ × State} {p : β × γ × State} {l : List α} (h : Keeps s₀ p.2.2)
    (k : ∀ u x, Keeps s₀ u.2.2 → Keeps s₀ (g u x).2.2) : Keeps s₀ (l.foldl g p).2.2 := by
  induction l generalizing p with
  | nil => exact h
  | cons x l ih => exact ih (k p x h)

theorem foldl_fst {α β : Type} {g : State × β → α → State × β} {p : State × β} {l : List α} (h : Keeps s₀ p.1)
    (k : ∀ u x, Keeps s₀ u.1 → Keeps s₀ (g u x).1) : Keeps s₀ (l.foldl g p).1 := by
  induction l generalizing p with
  | nil => exact h
  | cons x l ih => exact ih (k p x h)

theorem forN {n : Nat} {g : Nat → State → State} (h : Keeps s₀ s) (k : ∀ i u, Keeps s₀ u → Keeps s₀ (g i u)) :
    Keeps s₀ (Machine.forN n g s) := foldl h (fun u i hu => k i u hu)

theorem of_pair {α : Type} {p : α × State} {a : α} (e : p = (a, t)) (h : Keeps s₀ p.2) : Keeps s₀ t := by subst e; exact h

theorem of_triple {α β : Type} {p : α × β × State} {a : α} {b : β} (e : p = (a, b, t)) (h : Keeps s₀ p.2.2) : Keeps s₀ t := by
  subst e; exact h

theorem of_fst {α : Type} {p : State × α} {a : α} (e : p = (t, a)) (h : Keeps s₀ p.1) : Keeps s₀ t := by subst e; exact h

theorem of_some {o : Option State} (e : o = some t) (h : OptKeeps s₀ o) : Keeps s₀ t := h.result t e

theorem of_ok {ε : Type} {o : Except ε State} (e : o = .ok t) (h : ExKeeps s₀ o) : Keeps s₀ t := h.result t e

theorem getD {o : Option State} (h : OptKeeps s₀ o) (k : Keeps s₀ t) : Keeps s₀ (o.getD t) := by
  cases o with
  | none => exact k
  | some u => exact h.result u rfl

theorem elim {α : Type} {o : Option α} {f : α → State} (h : Keeps s₀ t) (k : ∀ x, Keeps s₀ (f x)) : Keeps s₀ (o.elim t f) := by
  cases o with
  | none => exact h
  | some u => exact k u

theorem out (h : Keeps s₀ t) : OutKeeps s₀ (.next t) := ⟨by rintro u ⟨⟩; exact h⟩

theorem out_fault {f : Fault} : OutKeeps s₀ (.fault f) := ⟨by rintro u ⟨⟩⟩

theorem out_refused {f : Refusal} : OutKeeps s₀ (.refused f) := ⟨by rintro u ⟨⟩⟩

theorem some (h : Keeps s₀ t) : OptKeeps s₀ (.some t) := ⟨by rintro u ⟨⟩; exact h⟩

theorem none : OptKeeps s₀ .none := ⟨by rintro u ⟨⟩⟩

theorem ok {ε : Type} (h : Keeps s₀ t) : ExKeeps (ε := ε) s₀ (.ok t) := ⟨by rintro u ⟨⟩; exact h⟩

theorem error {ε : Type} {e : ε} : ExKeeps s₀ (.error e : Except ε State) := ⟨by rintro u ⟨⟩⟩

/-- Any update of the other fields. -/
theorem upd {s₀ s : State} (h : Keeps s₀ s) {x_regs x_marks x_lines x_bs x_seams x_units x_retained x_hubs x_clusters x_upes x_pans x_chans x_ring x_stops x_waiters x_asked
    x_nextTag x_peers x_streams x_pages x_pdScale x_drl x_rebuilt x_gate x_flows x_errSeq x_inj x_evbuf x_evSeq x_evOut x_evPre
    x_evLost x_plants x_parkOrder x_inputStop x_inputMv x_inputRev x_shorted x_convDead x_scrubDevs x_found x_unzeroed x_stkKeys
    x_pdOff x_refreshing x_seamsDue x_chains x_snaps x_rsImage x_ckptKey x_ckptNew x_ckptOld x_macsec x_buffers x_xoffs x_paused
    x_txWait x_owners x_flash x_prov x_meas x_rootLost x_kt x_cmdBuf x_quote x_ktCert x_loadHeld x_quiescing x_activating x_bootInj
    x_linkUps x_bays x_meter x_mirror x_cmdMode x_tick} :
    Keeps s₀ (State.mk x_regs s.mem x_marks x_lines x_bs x_seams x_units x_retained x_hubs x_clusters x_upes x_pans x_chans x_ring x_stops x_waiters
      x_asked x_nextTag x_peers x_streams x_pages x_pdScale x_drl x_rebuilt s.outbox x_gate x_flows s.errq x_errSeq x_inj x_evbuf
      x_evSeq x_evOut x_evPre x_evLost x_plants x_parkOrder x_inputStop x_inputMv x_inputRev x_shorted x_convDead x_scrubDevs x_found
      x_unzeroed x_stkKeys x_pdOff x_refreshing x_seamsDue x_chains x_snaps x_rsImage x_ckptKey x_ckptNew x_ckptOld x_macsec x_buffers
      x_xoffs x_paused x_txWait s.vendorHash s.serial s.idCert x_owners x_flash x_prov x_meas x_rootLost x_kt x_cmdBuf x_quote x_ktCert
      x_loadHeld x_quiescing x_activating x_bootInj x_linkUps x_bays x_meter x_mirror x_cmdMode x_tick s.pending) :=
  ⟨h.pending, h.vendorHash, h.serial, h.idCert, h.outbox, h.mem, h.errq⟩

/-- The same as a rewriting. -/
theorem upd_iff {s₀ s : State} {x_regs x_marks x_lines x_bs x_seams x_units x_retained x_hubs x_clusters x_upes x_pans x_chans x_ring x_stops x_waiters x_asked
    x_nextTag x_peers x_streams x_pages x_pdScale x_drl x_rebuilt x_gate x_flows x_errSeq x_inj x_evbuf x_evSeq x_evOut x_evPre
    x_evLost x_plants x_parkOrder x_inputStop x_inputMv x_inputRev x_shorted x_convDead x_scrubDevs x_found x_unzeroed x_stkKeys
    x_pdOff x_refreshing x_seamsDue x_chains x_snaps x_rsImage x_ckptKey x_ckptNew x_ckptOld x_macsec x_buffers x_xoffs x_paused
    x_txWait x_owners x_flash x_prov x_meas x_rootLost x_kt x_cmdBuf x_quote x_ktCert x_loadHeld x_quiescing x_activating x_bootInj
    x_linkUps x_bays x_meter x_mirror x_cmdMode x_tick} :
    Keeps s₀ (State.mk x_regs s.mem x_marks x_lines x_bs x_seams x_units x_retained x_hubs x_clusters x_upes x_pans x_chans x_ring x_stops x_waiters
      x_asked x_nextTag x_peers x_streams x_pages x_pdScale x_drl x_rebuilt s.outbox x_gate x_flows s.errq x_errSeq x_inj x_evbuf
      x_evSeq x_evOut x_evPre x_evLost x_plants x_parkOrder x_inputStop x_inputMv x_inputRev x_shorted x_convDead x_scrubDevs x_found
      x_unzeroed x_stkKeys x_pdOff x_refreshing x_seamsDue x_chains x_snaps x_rsImage x_ckptKey x_ckptNew x_ckptOld x_macsec x_buffers
      x_xoffs x_paused x_txWait s.vendorHash s.serial s.idCert x_owners x_flash x_prov x_meas x_rootLost x_kt x_cmdBuf x_quote x_ktCert
      x_loadHeld x_quiescing x_activating x_bootInj x_linkUps x_bays x_meter x_mirror x_cmdMode x_tick s.pending) ↔ Keeps s₀ s :=
  ⟨fun h => ⟨h.pending, h.vendorHash, h.serial, h.idCert, h.outbox, h.mem, h.errq⟩, fun h => h.upd⟩

/-- Any update of the other fields and of the error queue within its bound. -/
theorem updErr {s₀ s : State} {q : List ErrRec} (h : Keeps s₀ s) (k : s.errq.length ≤ 4096 → q.length ≤ 4096) {x_regs x_marks x_lines x_bs x_seams x_units x_retained x_hubs x_clusters x_upes x_pans x_chans x_ring x_stops x_waiters x_asked
    x_nextTag x_peers x_streams x_pages x_pdScale x_drl x_rebuilt x_gate x_flows x_errSeq x_inj x_evbuf x_evSeq x_evOut x_evPre
    x_evLost x_plants x_parkOrder x_inputStop x_inputMv x_inputRev x_shorted x_convDead x_scrubDevs x_found x_unzeroed x_stkKeys
    x_pdOff x_refreshing x_seamsDue x_chains x_snaps x_rsImage x_ckptKey x_ckptNew x_ckptOld x_macsec x_buffers x_xoffs x_paused
    x_txWait x_owners x_flash x_prov x_meas x_rootLost x_kt x_cmdBuf x_quote x_ktCert x_loadHeld x_quiescing x_activating x_bootInj
    x_linkUps x_bays x_meter x_mirror x_cmdMode x_tick} :
    Keeps s₀ (State.mk x_regs s.mem x_marks x_lines x_bs x_seams x_units x_retained x_hubs x_clusters x_upes x_pans x_chans x_ring x_stops x_waiters
      x_asked x_nextTag x_peers x_streams x_pages x_pdScale x_drl x_rebuilt s.outbox x_gate x_flows q x_errSeq x_inj x_evbuf x_evSeq
      x_evOut x_evPre x_evLost x_plants x_parkOrder x_inputStop x_inputMv x_inputRev x_shorted x_convDead x_scrubDevs x_found x_unzeroed
      x_stkKeys x_pdOff x_refreshing x_seamsDue x_chains x_snaps x_rsImage x_ckptKey x_ckptNew x_ckptOld x_macsec x_buffers x_xoffs
      x_paused x_txWait s.vendorHash s.serial s.idCert x_owners x_flash x_prov x_meas x_rootLost x_kt x_cmdBuf x_quote x_ktCert
      x_loadHeld x_quiescing x_activating x_bootInj x_linkUps x_bays x_meter x_mirror x_cmdMode x_tick s.pending) :=
  ⟨h.pending, h.vendorHash, h.serial, h.idCert, h.outbox, h.mem, fun x => k (h.errq x)⟩

/-- Any update of the other fields and of the stores that keeps their form. -/
theorem updMem {s₀ s : State} {m : Tab Byte} (h : Keeps s₀ s) (k : Memory.wf s.mem = true → Memory.wf m = true) {x_regs x_marks x_lines x_bs x_seams x_units x_retained x_hubs x_clusters x_upes x_pans x_chans x_ring x_stops x_waiters x_asked
    x_nextTag x_peers x_streams x_pages x_pdScale x_drl x_rebuilt x_gate x_flows x_errSeq x_inj x_evbuf x_evSeq x_evOut x_evPre
    x_evLost x_plants x_parkOrder x_inputStop x_inputMv x_inputRev x_shorted x_convDead x_scrubDevs x_found x_unzeroed x_stkKeys
    x_pdOff x_refreshing x_seamsDue x_chains x_snaps x_rsImage x_ckptKey x_ckptNew x_ckptOld x_macsec x_buffers x_xoffs x_paused
    x_txWait x_owners x_flash x_prov x_meas x_rootLost x_kt x_cmdBuf x_quote x_ktCert x_loadHeld x_quiescing x_activating x_bootInj
    x_linkUps x_bays x_meter x_mirror x_cmdMode x_tick} :
    Keeps s₀ (State.mk x_regs m x_marks x_lines x_bs x_seams x_units x_retained x_hubs x_clusters x_upes x_pans x_chans x_ring x_stops x_waiters x_asked
      x_nextTag x_peers x_streams x_pages x_pdScale x_drl x_rebuilt s.outbox x_gate x_flows s.errq x_errSeq x_inj x_evbuf x_evSeq
      x_evOut x_evPre x_evLost x_plants x_parkOrder x_inputStop x_inputMv x_inputRev x_shorted x_convDead x_scrubDevs x_found x_unzeroed
      x_stkKeys x_pdOff x_refreshing x_seamsDue x_chains x_snaps x_rsImage x_ckptKey x_ckptNew x_ckptOld x_macsec x_buffers x_xoffs
      x_paused x_txWait s.vendorHash s.serial s.idCert x_owners x_flash x_prov x_meas x_rootLost x_kt x_cmdBuf x_quote x_ktCert
      x_loadHeld x_quiescing x_activating x_bootInj x_linkUps x_bays x_meter x_mirror x_cmdMode x_tick s.pending) :=
  ⟨h.pending, h.vendorHash, h.serial, h.idCert, h.outbox, fun x => k (h.mem x), h.errq⟩

end Keeps


section
variable {s₀ s : State}

theorem poke_keeps {h b} (k : Keeps s₀ s) : Keeps s₀ (poke s h b) :=
  ⟨k.pending, k.vendorHash, k.serial, k.idCert, k.outbox, fun x => tabSet_wf (k.mem x), k.errq⟩

theorem zeroRange_keeps {h n} (k : Keeps s₀ s) : Keeps s₀ (zeroRange s h n) :=
  ⟨k.pending, k.vendorHash, k.serial, k.idCert, k.outbox, fun x =>
    tabDrop_wf (p := fun a => decide (h ≤ a ∧ a < h + n)) (k.mem x), k.errq⟩

theorem emit_keeps {o} (k : Keeps s₀ s) : Keeps s₀ (emit s o) :=
  ⟨k.pending, k.vendorHash, k.serial, k.idCert, k.outbox.trans (List.prefix_append _ _), k.mem, k.errq⟩

theorem State.put_keeps {f v} (k : Keeps s₀ s) : Keeps s₀ (s.put f v) := k.upd

theorem State.bump_keeps {f n} (k : Keeps s₀ s) : Keeps s₀ (s.bump f n) := State.put_keeps k

theorem enqueueErr_keeps {e} (k : Keeps s₀ s) : Keeps s₀ (enqueueErr s e) := by
  have k' : Keeps s₀ (s.bump (raisedField e.sev) 1) := State.bump_keeps k
  unfold enqueueErr
  dsimp only
  split
  · with_reducible apply Keeps.updErr k'
    simp
  · split
    · exact State.bump_keeps k'
    · split
      · with_reducible apply Keeps.updErr k'
        simp; omega
      · split
        · with_reducible apply Keeps.updErr (s := (State.put _ errStatusOvf 1))
          · with_reducible apply State.put_keeps
            with_reducible apply Keeps.upd k'
          · simp
        · with_reducible exact Keeps.upd k'

theorem coldState_keeps {c} (k : Keeps s₀ s) : Keeps s₀ (coldState s c) :=
  State.put_keeps ⟨k.pending, k.vendorHash, k.serial, k.idCert, k.outbox, fun _ => rfl, fun _ => Nat.zero_le _⟩

theorem warmState_keeps (k : Keeps s₀ s) : Keeps s₀ (warmState s) :=
  State.put_keeps ⟨k.pending, k.vendorHash, k.serial, k.idCert, k.outbox, fun _ => rfl, k.errq⟩

theorem execErrPop_keeps (k : Keeps s₀ s) : OutKeeps s₀ (execErrPop s) := by
  unfold execErrPop
  split
  · exact k.out
  · refine Keeps.out ?_
    with_reducible apply Keeps.updErr k
    simp; omega

end

end Sys2Proof.Machine
end

