-- ==== Sys2Proof/Laws/KeepsOps.lean ====
section
/-! SUPPORT. What no operation of Ops.lean touches or breaks. -/
namespace Sys2Proof.Machine

theorem State.tock_keeps {s₀ s : State} (h : Keeps s₀ s) :
    Keeps s₀ (State.tock s) := by
  unfold State.tock
  repeat' first
    | intro _
    | with_reducible assumption
    | with_reducible first | apply Keeps.ite | apply Keeps.ite_snd | apply Keeps.forN | apply Keeps.getD | apply Keeps.elim | apply Keeps.foldl | apply Keeps.foldl_snd | apply Keeps.foldl_third | apply Keeps.foldl_fst
    | dsimp only
    | simp only [Keeps.upd_iff]
    | split
    | refine Keeps.of_pair (by assumption) ?_
    | refine Keeps.of_triple (by assumption) ?_
    | refine Keeps.of_fst (by assumption) ?_
    | refine Keeps.of_some (by assumption) ?_
    | refine Keeps.of_ok (by assumption) ?_

theorem State.stamp_keeps {s₀ s : State} (h : Keeps s₀ s) :
    Keeps s₀ (State.stamp s).2 := by
  unfold State.stamp
  repeat' first
    | intro _
    | with_reducible assumption
    | with_reducible first | apply State.tock_keeps
    | with_reducible first | apply Keeps.ite | apply Keeps.ite_snd | apply Keeps.forN | apply Keeps.getD | apply Keeps.elim | apply Keeps.foldl | apply Keeps.foldl_snd | apply Keeps.foldl_third | apply Keeps.foldl_fst
    | dsimp only
    | simp only [Keeps.upd_iff]
    | split
    | refine Keeps.of_pair (by assumption) ?_
    | refine Keeps.of_triple (by assumption) ?_
    | refine Keeps.of_fst (by assumption) ?_
    | refine Keeps.of_some (by assumption) ?_
    | refine Keeps.of_ok (by assumption) ?_

theorem State.setFlow_keeps {s₀ s : State} {x1} {x2} (h : Keeps s₀ s) :
    Keeps s₀ (State.setFlow s x1 x2) := by
  unfold State.setFlow
  repeat' first
    | intro _
    | with_reducible assumption
    | with_reducible first | apply Keeps.ite | apply Keeps.ite_snd | apply Keeps.forN | apply Keeps.getD | apply Keeps.elim | apply Keeps.foldl | apply Keeps.foldl_snd | apply Keeps.foldl_third | apply Keeps.foldl_fst
    | dsimp only
    | simp only [Keeps.upd_iff]
    | split
    | refine Keeps.of_pair (by assumption) ?_
    | refine Keeps.of_triple (by assumption) ?_
    | refine Keeps.of_fst (by assumption) ?_
    | refine Keeps.of_some (by assumption) ?_
    | refine Keeps.of_ok (by assumption) ?_

theorem faultStep_keeps {s₀ s : State} {x1} {x2} (h : Keeps s₀ s) :
    Keeps s₀ (faultStep s x1 x2) := by
  unfold faultStep
  repeat' first
    | intro _
    | with_reducible assumption
    | with_reducible first | apply State.setFlow_keeps
    | with_reducible first | apply Keeps.ite | apply Keeps.ite_snd | apply Keeps.forN | apply Keeps.getD | apply Keeps.elim | apply Keeps.foldl | apply Keeps.foldl_snd | apply Keeps.foldl_third | apply Keeps.foldl_fst
    | dsimp only
    | simp only [Keeps.upd_iff]
    | split
    | refine Keeps.of_pair (by assumption) ?_
    | refine Keeps.of_triple (by assumption) ?_
    | refine Keeps.of_fst (by assumption) ?_
    | refine Keeps.of_some (by assumption) ?_
    | refine Keeps.of_ok (by assumption) ?_

theorem forceFail_keeps {s₀ s : State} (h : Keeps s₀ s) :
    Keeps s₀ (forceFail s) := by
  unfold forceFail
  repeat' first
    | intro _
    | with_reducible assumption
    | with_reducible first | apply Keeps.ite | apply Keeps.ite_snd | apply Keeps.forN | apply Keeps.getD | apply Keeps.elim | apply Keeps.foldl | apply Keeps.foldl_snd | apply Keeps.foldl_third | apply Keeps.foldl_fst
    | dsimp only
    | simp only [Keeps.upd_iff]
    | split
    | refine Keeps.of_pair (by assumption) ?_
    | refine Keeps.of_triple (by assumption) ?_
    | refine Keeps.of_fst (by assumption) ?_
    | refine Keeps.of_some (by assumption) ?_
    | refine Keeps.of_ok (by assumption) ?_

theorem State.setHub_keeps {s₀ s : State} {x1} {x2} (h : Keeps s₀ s) :
    Keeps s₀ (State.setHub s x1 x2) := by
  unfold State.setHub
  repeat' first
    | intro _
    | with_reducible assumption
    | with_reducible first | apply Keeps.ite | apply Keeps.ite_snd | apply Keeps.forN | apply Keeps.getD | apply Keeps.elim | apply Keeps.foldl | apply Keeps.foldl_snd | apply Keeps.foldl_third | apply Keeps.foldl_fst
    | dsimp only
    | simp only [Keeps.upd_iff]
    | split
    | refine Keeps.of_pair (by assumption) ?_
    | refine Keeps.of_triple (by assumption) ?_
    | refine Keeps.of_fst (by assumption) ?_
    | refine Keeps.of_some (by assumption) ?_
    | refine Keeps.of_ok (by assumption) ?_

theorem State.updHub_keeps {s₀ s : State} {x1} {x2} (h : Keeps s₀ s) :
    Keeps s₀ (State.updHub s x1 x2) := by
  unfold State.updHub
  repeat' first
    | intro _
    | with_reducible assumption
    | with_reducible first | apply State.setHub_keeps
    | with_reducible first | apply Keeps.ite | apply Keeps.ite_snd | apply Keeps.forN | apply Keeps.getD | apply Keeps.elim | apply Keeps.foldl | apply Keeps.foldl_snd | apply Keeps.foldl_third | apply Keeps.foldl_fst
    | dsimp only
    | simp only [Keeps.upd_iff]
    | split
    | refine Keeps.of_pair (by assumption) ?_
    | refine Keeps.of_triple (by assumption) ?_
    | refine Keeps.of_fst (by assumption) ?_
    | refine Keeps.of_some (by assumption) ?_
    | refine Keeps.of_ok (by assumption) ?_

theorem askStall_keeps {s₀ s : State} {x1} {x2} (h : Keeps s₀ s) :
    Keeps s₀ (askStall s x1 x2) := by
  unfold askStall
  repeat' first
    | intro _
    | with_reducible assumption
    | with_reducible first | apply State.updHub_keeps
    | with_reducible first | apply Keeps.ite | apply Keeps.ite_snd | apply Keeps.forN | apply Keeps.getD | apply Keeps.elim | apply Keeps.foldl | apply Keeps.foldl_snd | apply Keeps.foldl_third | apply Keeps.foldl_fst
    | dsimp only
    | simp only [Keeps.upd_iff]
    | split
    | refine Keeps.of_pair (by assumption) ?_
    | refine Keeps.of_triple (by assumption) ?_
    | refine Keeps.of_fst (by assumption) ?_
    | refine Keeps.of_some (by assumption) ?_
    | refine Keeps.of_ok (by assumption) ?_

theorem raiseErr_keeps {s₀ s : State} {x1} {x2} {x3} {x4} {x5} {x6} {x7} {x8} (h : Keeps s₀ s) :
    Keeps s₀ (raiseErr s x1 x2 x3 x4 x5 x6 x7 x8) := by
  unfold raiseErr
  repeat' first
    | intro _
    | with_reducible assumption
    | with_reducible first | apply State.stamp_keeps | apply enqueueErr_keeps | apply faultStep_keeps | apply forceFail_keeps | apply askStall_keeps | apply State.tock_keeps
    | with_reducible first | apply Keeps.ite | apply Keeps.ite_snd | apply Keeps.forN | apply Keeps.getD | apply Keeps.elim | apply Keeps.foldl | apply Keeps.foldl_snd | apply Keeps.foldl_third | apply Keeps.foldl_fst
    | dsimp only
    | simp only [Keeps.upd_iff]
    | split
    | refine Keeps.of_pair (by assumption) ?_
    | refine Keeps.of_triple (by assumption) ?_
    | refine Keeps.of_fst (by assumption) ?_
    | refine Keeps.of_some (by assumption) ?_
    | refine Keeps.of_ok (by assumption) ?_

theorem badLine_keeps {s₀ s : State} {x1} {x2} (h : Keeps s₀ s) :
    Keeps s₀ (badLine s x1 x2) := by
  unfold badLine
  dsimp only
  split
  · apply raiseErr_keeps
    apply State.bump_keeps
    with_reducible apply Keeps.updMem h
    exact tabSetMany_wf
  · apply raiseErr_keeps
    apply State.bump_keeps
    simp only [Keeps.upd_iff]
    exact h

theorem flushLine_keeps {s₀ s : State} {x1} {x2} (h : Keeps s₀ s) :
    Keeps s₀ (flushLine s x1 x2) := by
  unfold flushLine
  repeat' first
    | intro _
    | with_reducible assumption
    | with_reducible first | apply badLine_keeps
    | with_reducible first | apply Keeps.ite | apply Keeps.ite_snd | apply Keeps.forN | apply Keeps.getD | apply Keeps.elim | apply Keeps.foldl | apply Keeps.foldl_snd | apply Keeps.foldl_third | apply Keeps.foldl_fst
    | dsimp only
    | simp only [Keeps.upd_iff]
    | split
    | refine Keeps.of_pair (by assumption) ?_
    | refine Keeps.of_triple (by assumption) ?_
    | refine Keeps.of_fst (by assumption) ?_
    | refine Keeps.of_some (by assumption) ?_
    | refine Keeps.of_ok (by assumption) ?_

theorem dropLine_keeps {s₀ s : State} {x1} {x2} (h : Keeps s₀ s) :
    Keeps s₀ (dropLine s x1 x2) := by
  unfold dropLine
  repeat' first
    | intro _
    | with_reducible assumption
    | with_reducible first | apply flushLine_keeps
    | with_reducible first | apply Keeps.ite | apply Keeps.ite_snd | apply Keeps.forN | apply Keeps.getD | apply Keeps.elim | apply Keeps.foldl | apply Keeps.foldl_snd | apply Keeps.foldl_third | apply Keeps.foldl_fst
    | dsimp only
    | simp only [Keeps.upd_iff]
    | split
    | refine Keeps.of_pair (by assumption) ?_
    | refine Keeps.of_triple (by assumption) ?_
    | refine Keeps.of_fst (by assumption) ?_
    | refine Keeps.of_some (by assumption) ?_
    | refine Keeps.of_ok (by assumption) ?_

theorem State.setStop_keeps {s₀ s : State} {x1} {x2} (h : Keeps s₀ s) :
    Keeps s₀ (State.setStop s x1 x2) := by
  unfold State.setStop
  repeat' first
    | intro _
    | with_reducible assumption
    | with_reducible first | apply Keeps.ite | apply Keeps.ite_snd | apply Keeps.forN | apply Keeps.getD | apply Keeps.elim | apply Keeps.foldl | apply Keeps.foldl_snd | apply Keeps.foldl_third | apply Keeps.foldl_fst
    | dsimp only
    | simp only [Keeps.upd_iff]
    | split
    | refine Keeps.of_pair (by assumption) ?_
    | refine Keeps.of_triple (by assumption) ?_
    | refine Keeps.of_fst (by assumption) ?_
    | refine Keeps.of_some (by assumption) ?_
    | refine Keeps.of_ok (by assumption) ?_

theorem State.setSeam_keeps {s₀ s : State} {x1} {x2} (h : Keeps s₀ s) :
    Keeps s₀ (State.setSeam s x1 x2) := by
  unfold State.setSeam
  repeat' first
    | intro _
    | with_reducible assumption
    | with_reducible first | apply Keeps.ite | apply Keeps.ite_snd | apply Keeps.forN | apply Keeps.getD | apply Keeps.elim | apply Keeps.foldl | apply Keeps.foldl_snd | apply Keeps.foldl_third | apply Keeps.foldl_fst
    | dsimp only
    | simp only [Keeps.upd_iff]
    | split
    | refine Keeps.of_pair (by assumption) ?_
    | refine Keeps.of_triple (by assumption) ?_
    | refine Keeps.of_fst (by assumption) ?_
    | refine Keeps.of_some (by assumption) ?_
    | refine Keeps.of_ok (by assumption) ?_

theorem State.setPan_keeps {s₀ s : State} {x1} {x2} (h : Keeps s₀ s) :
    Keeps s₀ (State.setPan s x1 x2) := by
  unfold State.setPan
  repeat' first
    | intro _
    | with_reducible assumption
    | with_reducible first | apply Keeps.ite | apply Keeps.ite_snd | apply Keeps.forN | apply Keeps.getD | apply Keeps.elim | apply Keeps.foldl | apply Keeps.foldl_snd | apply Keeps.foldl_third | apply Keeps.foldl_fst
    | dsimp only
    | simp only [Keeps.upd_iff]
    | split
    | refine Keeps.of_pair (by assumption) ?_
    | refine Keeps.of_triple (by assumption) ?_
    | refine Keeps.of_fst (by assumption) ?_
    | refine Keeps.of_some (by assumption) ?_
    | refine Keeps.of_ok (by assumption) ?_

theorem State.stalls_keeps {s₀ s : State} (h : Keeps s₀ s) :
    Keeps s₀ (State.stalls s).2 := by
  unfold State.stalls
  repeat' first
    | intro _
    | with_reducible assumption
    | with_reducible first | apply State.tock_keeps
    | with_reducible first | apply Keeps.ite | apply Keeps.ite_snd | apply Keeps.forN | apply Keeps.getD | apply Keeps.elim | apply Keeps.foldl | apply Keeps.foldl_snd | apply Keeps.foldl_third | apply Keeps.foldl_fst
    | dsimp only
    | simp only [Keeps.upd_iff]
    | split
    | refine Keeps.of_pair (by assumption) ?_
    | refine Keeps.of_triple (by assumption) ?_
    | refine Keeps.of_fst (by assumption) ?_
    | refine Keeps.of_some (by assumption) ?_
    | refine Keeps.of_ok (by assumption) ?_

theorem State.setChan_keeps {s₀ s : State} {x1} {x2} {x3} (h : Keeps s₀ s) :
    Keeps s₀ (State.setChan s x1 x2 x3) := by
  unfold State.setChan
  repeat' first
    | intro _
    | with_reducible assumption
    | with_reducible first | apply Keeps.ite | apply Keeps.ite_snd | apply Keeps.forN | apply Keeps.getD | apply Keeps.elim | apply Keeps.foldl | apply Keeps.foldl_snd | apply Keeps.foldl_third | apply Keeps.foldl_fst
    | dsimp only
    | simp only [Keeps.upd_iff]
    | split
    | refine Keeps.of_pair (by assumption) ?_
    | refine Keeps.of_triple (by assumption) ?_
    | refine Keeps.of_fst (by assumption) ?_
    | refine Keeps.of_some (by assumption) ?_
    | refine Keeps.of_ok (by assumption) ?_

theorem raiseMem_keeps {s₀ s : State} {x1} {x2} {x3} {x4} {x5} {x6} (h : Keeps s₀ s) :
    Keeps s₀ (raiseMem s x1 x2 x3 x4 x5 x6) := by
  unfold raiseMem
  repeat' first
    | intro _
    | with_reducible assumption
    | with_reducible first | apply raiseErr_keeps | apply faultStep_keeps
    | with_reducible first | apply Keeps.ite | apply Keeps.ite_snd | apply Keeps.forN | apply Keeps.getD | apply Keeps.elim | apply Keeps.foldl | apply Keeps.foldl_snd | apply Keeps.foldl_third | apply Keeps.foldl_fst
    | dsimp only
    | simp only [Keeps.upd_iff]
    | split
    | refine Keeps.of_pair (by assumption) ?_
    | refine Keeps.of_triple (by assumption) ?_
    | refine Keeps.of_fst (by assumption) ?_
    | refine Keeps.of_some (by assumption) ?_
    | refine Keeps.of_ok (by assumption) ?_

theorem meetUe_keeps {s₀ s : State} {x1} {x2} {x3} (h : Keeps s₀ s) :
    Keeps s₀ (meetUe s x1 x2 x3) := by
  unfold meetUe
  repeat' first
    | intro _
    | with_reducible assumption
    | with_reducible first | apply raiseMem_keeps | apply State.bump_keeps
    | with_reducible first | apply Keeps.ite | apply Keeps.ite_snd | apply Keeps.forN | apply Keeps.getD | apply Keeps.elim | apply Keeps.foldl | apply Keeps.foldl_snd | apply Keeps.foldl_third | apply Keeps.foldl_fst
    | dsimp only
    | simp only [Keeps.upd_iff]
    | split
    | refine Keeps.of_pair (by assumption) ?_
    | refine Keeps.of_triple (by assumption) ?_
    | refine Keeps.of_fst (by assumption) ?_
    | refine Keeps.of_some (by assumption) ?_
    | refine Keeps.of_ok (by assumption) ?_

theorem countDevice_keeps {s₀ s : State} {x1} {x2} {x3} (h : Keeps s₀ s) :
    Keeps s₀ (countDevice s x1 x2 x3) := by
  unfold countDevice
  repeat' first
    | intro _
    | with_reducible assumption
    | with_reducible first | apply raiseErr_keeps | apply State.put_keeps
    | with_reducible first | apply Keeps.ite | apply Keeps.ite_snd | apply Keeps.forN | apply Keeps.getD | apply Keeps.elim | apply Keeps.foldl | apply Keeps.foldl_snd | apply Keeps.foldl_third | apply Keeps.foldl_fst
    | dsimp only
    | simp only [Keeps.upd_iff]
    | split
    | refine Keeps.of_pair (by assumption) ?_
    | refine Keeps.of_triple (by assumption) ?_
    | refine Keeps.of_fst (by assumption) ?_
    | refine Keeps.of_some (by assumption) ?_
    | refine Keeps.of_ok (by assumption) ?_

theorem correctUnit_keeps {s₀ s : State} {x1} {x2} (h : Keeps s₀ s) :
    Keeps s₀ (correctUnit s x1 x2) := by
  unfold correctUnit
  repeat' first
    | intro _
    | with_reducible assumption
    | with_reducible first | apply raiseErr_keeps | apply State.bump_keeps | apply countDevice_keeps
    | with_reducible first | apply Keeps.ite | apply Keeps.ite_snd | apply Keeps.forN | apply Keeps.getD | apply Keeps.elim | apply Keeps.foldl | apply Keeps.foldl_snd | apply Keeps.foldl_third | apply Keeps.foldl_fst
    | dsimp only
    | simp only [Keeps.upd_iff]
    | split
    | refine Keeps.of_pair (by assumption) ?_
    | refine Keeps.of_triple (by assumption) ?_
    | refine Keeps.of_fst (by assumption) ?_
    | refine Keeps.of_some (by assumption) ?_
    | refine Keeps.of_ok (by assumption) ?_

theorem useLine_keeps {s₀ s : State} {x1} {x2} {x3} (h : Keeps s₀ s) :
    Keeps s₀ (useLine s x1 x2 x3) := by
  unfold useLine
  repeat' first
    | intro _
    | with_reducible assumption
    | with_reducible first | apply State.tock_keeps
    | with_reducible first | apply Keeps.ite | apply Keeps.ite_snd | apply Keeps.forN | apply Keeps.getD | apply Keeps.elim | apply Keeps.foldl | apply Keeps.foldl_snd | apply Keeps.foldl_third | apply Keeps.foldl_fst
    | dsimp only
    | simp only [Keeps.upd_iff]
    | split
    | refine Keeps.of_pair (by assumption) ?_
    | refine Keeps.of_triple (by assumption) ?_
    | refine Keeps.of_fst (by assumption) ?_
    | refine Keeps.of_some (by assumption) ?_
    | refine Keeps.of_ok (by assumption) ?_

theorem meetUnits_keeps {s₀ s : State} {x1} {x2} (h : Keeps s₀ s) :
    Keeps s₀ (meetUnits s x1 x2) := by
  unfold meetUnits
  repeat' first
    | intro _
    | with_reducible assumption
    | with_reducible first | apply meetUe_keeps | apply correctUnit_keeps
    | with_reducible first | apply Keeps.ite | apply Keeps.ite_snd | apply Keeps.forN | apply Keeps.getD | apply Keeps.elim | apply Keeps.foldl | apply Keeps.foldl_snd | apply Keeps.foldl_third | apply Keeps.foldl_fst
    | dsimp only
    | simp only [Keeps.upd_iff]
    | split
    | refine Keeps.of_pair (by assumption) ?_
    | refine Keeps.of_triple (by assumption) ?_
    | refine Keeps.of_fst (by assumption) ?_
    | refine Keeps.of_some (by assumption) ?_
    | refine Keeps.of_ok (by assumption) ?_

theorem State.pick_keeps {s₀ s : State} {x1} (h : Keeps s₀ s) :
    Keeps s₀ (State.pick s x1).2 := by
  unfold State.pick
  repeat' first
    | intro _
    | with_reducible assumption
    | with_reducible first | apply State.tock_keeps
    | with_reducible first | apply Keeps.ite | apply Keeps.ite_snd | apply Keeps.forN | apply Keeps.getD | apply Keeps.elim | apply Keeps.foldl | apply Keeps.foldl_snd | apply Keeps.foldl_third | apply Keeps.foldl_fst
    | dsimp only
    | simp only [Keeps.upd_iff]
    | split
    | refine Keeps.of_pair (by assumption) ?_
    | refine Keeps.of_triple (by assumption) ?_
    | refine Keeps.of_fst (by assumption) ?_
    | refine Keeps.of_some (by assumption) ?_
    | refine Keeps.of_ok (by assumption) ?_

theorem makeRoom_keeps {s₀ s : State} {x1} (h : Keeps s₀ s) :
    Keeps s₀ (makeRoom s x1) := by
  unfold makeRoom
  repeat' first
    | intro _
    | with_reducible assumption
    | with_reducible first | apply State.pick_keeps | apply dropLine_keeps | apply State.tock_keeps
    | with_reducible first | apply Keeps.ite | apply Keeps.ite_snd | apply Keeps.forN | apply Keeps.getD | apply Keeps.elim | apply Keeps.foldl | apply Keeps.foldl_snd | apply Keeps.foldl_third | apply Keeps.foldl_fst
    | dsimp only
    | simp only [Keeps.upd_iff]
    | split
    | refine Keeps.of_pair (by assumption) ?_
    | refine Keeps.of_triple (by assumption) ?_
    | refine Keeps.of_fst (by assumption) ?_
    | refine Keeps.of_some (by assumption) ?_
    | refine Keeps.of_ok (by assumption) ?_

theorem touchLine_keeps {s₀ s : State} {x1} {x2} {x3} {x4} {x5} (h : Keeps s₀ s) :
    Keeps s₀ (touchLine s x1 x2 x3 x4 x5).2 := by
  unfold touchLine
  repeat' first
    | intro _
    | with_reducible assumption
    | with_reducible first | apply badLine_keeps | apply useLine_keeps | apply meetUnits_keeps | apply makeRoom_keeps
    | with_reducible first | apply Keeps.ite | apply Keeps.ite_snd | apply Keeps.forN | apply Keeps.getD | apply Keeps.elim | apply Keeps.foldl | apply Keeps.foldl_snd | apply Keeps.foldl_third | apply Keeps.foldl_fst
    | dsimp only
    | simp only [Keeps.upd_iff]
    | split
    | refine Keeps.of_pair (by assumption) ?_
    | refine Keeps.of_triple (by assumption) ?_
    | refine Keeps.of_fst (by assumption) ?_
    | refine Keeps.of_some (by assumption) ?_
    | refine Keeps.of_ok (by assumption) ?_

theorem touch_keeps {s₀ s : State} {x1} {x2} {x3} {x4} {x5} (h : Keeps s₀ s) :
    Keeps s₀ (touch s x1 x2 x3 x4 x5).2 := by
  unfold touch
  repeat' first
    | intro _
    | with_reducible assumption
    | with_reducible first | apply meetUe_keeps | apply correctUnit_keeps | apply touchLine_keeps | apply State.bump_keeps | apply State.tock_keeps
    | with_reducible first | apply Keeps.ite | apply Keeps.ite_snd | apply Keeps.forN | apply Keeps.getD | apply Keeps.elim | apply Keeps.foldl | apply Keeps.foldl_snd | apply Keeps.foldl_third | apply Keeps.foldl_fst
    | dsimp only
    | simp only [Keeps.upd_iff]
    | split
    | refine Keeps.of_pair (by assumption) ?_
    | refine Keeps.of_triple (by assumption) ?_
    | refine Keeps.of_fst (by assumption) ?_
    | refine Keeps.of_some (by assumption) ?_
    | refine Keeps.of_ok (by assumption) ?_

theorem readPiece_keeps {s₀ s : State} {x1} {x2} {x3} (h : Keeps s₀ s) :
    Keeps s₀ (readPiece s x1 x2 x3).2 := by
  unfold readPiece
  repeat' first
    | intro _
    | with_reducible assumption
    | with_reducible first | apply touch_keeps
    | with_reducible first | apply Keeps.ite | apply Keeps.ite_snd | apply Keeps.forN | apply Keeps.getD | apply Keeps.elim | apply Keeps.foldl | apply Keeps.foldl_snd | apply Keeps.foldl_third | apply Keeps.foldl_fst
    | dsimp only
    | simp only [Keeps.upd_iff]
    | split
    | refine Keeps.of_pair (by assumption) ?_
    | refine Keeps.of_triple (by assumption) ?_
    | refine Keeps.of_fst (by assumption) ?_
    | refine Keeps.of_some (by assumption) ?_
    | refine Keeps.of_ok (by assumption) ?_

theorem readPieces_keeps {s₀ s : State} {x1} {x2} {x3} (h : Keeps s₀ s) :
    Keeps s₀ (readPieces s x1 x2 x3).2 := by
  unfold readPieces
  repeat' first
    | intro _
    | with_reducible assumption
    | with_reducible first | apply readPiece_keeps | apply readPieces_keeps
    | with_reducible first | apply Keeps.ite | apply Keeps.ite_snd | apply Keeps.forN | apply Keeps.getD | apply Keeps.elim | apply Keeps.foldl | apply Keeps.foldl_snd | apply Keeps.foldl_third | apply Keeps.foldl_fst
    | dsimp only
    | simp only [Keeps.upd_iff]
    | split
    | refine Keeps.of_pair (by assumption) ?_
    | refine Keeps.of_triple (by assumption) ?_
    | refine Keeps.of_fst (by assumption) ?_
    | refine Keeps.of_some (by assumption) ?_
    | refine Keeps.of_ok (by assumption) ?_

theorem readMem_keeps {s₀ s : State} {x1} {x2} {x3} (h : Keeps s₀ s) :
    Keeps s₀ (readMem s x1 x2 x3).2 := by
  unfold readMem
  repeat' first
    | intro _
    | with_reducible assumption
    | with_reducible first | apply readPieces_keeps
    | with_reducible first | apply Keeps.ite | apply Keeps.ite_snd | apply Keeps.forN | apply Keeps.getD | apply Keeps.elim | apply Keeps.foldl | apply Keeps.foldl_snd | apply Keeps.foldl_third | apply Keeps.foldl_fst
    | dsimp only
    | simp only [Keeps.upd_iff]
    | split
    | refine Keeps.of_pair (by assumption) ?_
    | refine Keeps.of_triple (by assumption) ?_
    | refine Keeps.of_fst (by assumption) ?_
    | refine Keeps.of_some (by assumption) ?_
    | refine Keeps.of_ok (by assumption) ?_

theorem writeBlocked_held {s₀ s t : State} {c : Acct} {ps : List (Nat × Nat)} {q : MemErr} (e : writeBlocked s c ps = some (q, t))
    (h : Keeps s₀ s) : Keeps s₀ t := by
  unfold writeBlocked at e
  split at e
  · cases e
    exact h
  · split at e
    · cases e
      exact meetUe_keeps h
    · cases e
      exact badLine_keeps h
    · cases e

theorem rebuildReads_keeps {s₀ s : State} {x1} {x2} {x3} {x4} (h : Keeps s₀ s) :
    Keeps s₀ (rebuildReads s x1 x2 x3 x4) := by
  unfold rebuildReads
  repeat' first
    | intro _
    | with_reducible assumption
    | with_reducible first | apply touch_keeps
    | with_reducible first | apply Keeps.ite | apply Keeps.ite_snd | apply Keeps.forN | apply Keeps.getD | apply Keeps.elim | apply Keeps.foldl | apply Keeps.foldl_snd | apply Keeps.foldl_third | apply Keeps.foldl_fst
    | dsimp only
    | simp only [Keeps.upd_iff]
    | split
    | refine Keeps.of_pair (by assumption) ?_
    | refine Keeps.of_triple (by assumption) ?_
    | refine Keeps.of_fst (by assumption) ?_
    | refine Keeps.of_some (by assumption) ?_
    | refine Keeps.of_ok (by assumption) ?_

theorem pokeStack_keeps {s₀ s : State} {x1} {x2} (h : Keeps s₀ s) :
    Keeps s₀ (pokeStack s x1 x2) := by
  unfold pokeStack
  repeat' first
    | intro _
    | with_reducible assumption
    | with_reducible first | apply poke_keeps
    | with_reducible first | apply Keeps.ite | apply Keeps.ite_snd | apply Keeps.forN | apply Keeps.getD | apply Keeps.elim | apply Keeps.foldl | apply Keeps.foldl_snd | apply Keeps.foldl_third | apply Keeps.foldl_fst
    | dsimp only
    | simp only [Keeps.upd_iff]
    | split
    | refine Keeps.of_pair (by assumption) ?_
    | refine Keeps.of_triple (by assumption) ?_
    | refine Keeps.of_fst (by assumption) ?_
    | refine Keeps.of_some (by assumption) ?_
    | refine Keeps.of_ok (by assumption) ?_

theorem storeByte_keeps {s₀ s : State} {x1} {x2} (h : Keeps s₀ s) :
    Keeps s₀ (storeByte s x1 x2) := by
  unfold storeByte
  repeat' first
    | intro _
    | with_reducible assumption
    | with_reducible first | apply pokeStack_keeps | apply poke_keeps
    | with_reducible first | apply Keeps.ite | apply Keeps.ite_snd | apply Keeps.forN | apply Keeps.getD | apply Keeps.elim | apply Keeps.foldl | apply Keeps.foldl_snd | apply Keeps.foldl_third | apply Keeps.foldl_fst
    | dsimp only
    | simp only [Keeps.upd_iff]
    | split
    | refine Keeps.of_pair (by assumption) ?_
    | refine Keeps.of_triple (by assumption) ?_
    | refine Keeps.of_fst (by assumption) ?_
    | refine Keeps.of_some (by assumption) ?_
    | refine Keeps.of_ok (by assumption) ?_

theorem storeBytes_keeps {s₀ s : State} {x1} {x2} (h : Keeps s₀ s) :
    Keeps s₀ (storeBytes s x1 x2) := by
  unfold storeBytes
  repeat' first
    | intro _
    | with_reducible assumption
    | with_reducible first | apply storeByte_keeps | apply storeBytes_keeps
    | with_reducible first | apply Keeps.ite | apply Keeps.ite_snd | apply Keeps.forN | apply Keeps.getD | apply Keeps.elim | apply Keeps.foldl | apply Keeps.foldl_snd | apply Keeps.foldl_third | apply Keeps.foldl_fst
    | dsimp only
    | simp only [Keeps.upd_iff]
    | split
    | refine Keeps.of_pair (by assumption) ?_
    | refine Keeps.of_triple (by assumption) ?_
    | refine Keeps.of_fst (by assumption) ?_
    | refine Keeps.of_some (by assumption) ?_
    | refine Keeps.of_ok (by assumption) ?_

theorem freshUnits_keeps {s₀ s : State} {x1} {x2} (h : Keeps s₀ s) :
    Keeps s₀ (freshUnits s x1 x2) := by
  unfold freshUnits
  repeat' first
    | intro _
    | with_reducible assumption
    | with_reducible first | apply Keeps.ite | apply Keeps.ite_snd | apply Keeps.forN | apply Keeps.getD | apply Keeps.elim | apply Keeps.foldl | apply Keeps.foldl_snd | apply Keeps.foldl_third | apply Keeps.foldl_fst
    | dsimp only
    | simp only [Keeps.upd_iff]
    | split
    | refine Keeps.of_pair (by assumption) ?_
    | refine Keeps.of_triple (by assumption) ?_
    | refine Keeps.of_fst (by assumption) ?_
    | refine Keeps.of_some (by assumption) ?_
    | refine Keeps.of_ok (by assumption) ?_

theorem eachUnit_keeps {s₀ s : State} {f : State → Nat → Nat → List Byte → State} {h : Nat} {a b : List Byte} {n : Nat}
    (hs : Keeps s₀ s) (k : ∀ u x y z, Keeps s₀ u → Keeps s₀ (f u x y z)) : Keeps s₀ (eachUnit f s h a b n) := by
  induction n generalizing s h a b with
  | zero => exact hs
  | succ n ih =>
    unfold eachUnit
    split
    · exact hs
    · exact ih (k _ _ _ _ hs)

theorem addParity_keeps {s₀ s : State} {x1} {x2} (h : Keeps s₀ s) :
    Keeps s₀ (addParity s x1 x2) := by
  unfold addParity
  repeat' first
    | intro _
    | with_reducible assumption
    | with_reducible first | apply touch_keeps | apply storeBytes_keeps
    | with_reducible first | apply Keeps.ite | apply Keeps.ite_snd | apply Keeps.forN | apply Keeps.getD | apply Keeps.elim | apply Keeps.foldl | apply Keeps.foldl_snd | apply Keeps.foldl_third | apply Keeps.foldl_fst
    | dsimp only
    | simp only [Keeps.upd_iff]
    | split
    | refine Keeps.of_pair (by assumption) ?_
    | refine Keeps.of_triple (by assumption) ?_
    | refine Keeps.of_fst (by assumption) ?_
    | refine Keeps.of_some (by assumption) ?_
    | refine Keeps.of_ok (by assumption) ?_

theorem deltaTo_keeps {s₀ s : State} {x0} {x2} {x3} {x4} (h : Keeps s₀ s) :
    Keeps s₀ (deltaTo x0 s x2 x3 x4) := by
  unfold deltaTo
  repeat' first
    | intro _
    | with_reducible assumption
    | with_reducible first | apply addParity_keeps
    | with_reducible first | apply Keeps.ite | apply Keeps.ite_snd | apply Keeps.forN | apply Keeps.getD | apply Keeps.elim | apply Keeps.foldl | apply Keeps.foldl_snd | apply Keeps.foldl_third | apply Keeps.foldl_fst
    | dsimp only
    | simp only [Keeps.upd_iff]
    | split
    | refine Keeps.of_pair (by assumption) ?_
    | refine Keeps.of_triple (by assumption) ?_
    | refine Keeps.of_fst (by assumption) ?_
    | refine Keeps.of_some (by assumption) ?_
    | refine Keeps.of_ok (by assumption) ?_

theorem parityDelta_keeps {s₀ s : State} {x1} {x2} {x3} (h : Keeps s₀ s) :
    Keeps s₀ (parityDelta s x1 x2 x3) := by
  unfold parityDelta
  repeat' first
    | intro _
    | with_reducible assumption
    | with_reducible first | apply deltaTo_keeps
    | with_reducible first | apply Keeps.ite | apply Keeps.ite_snd | apply Keeps.forN | apply Keeps.getD | apply Keeps.elim | apply Keeps.foldl | apply Keeps.foldl_snd | apply Keeps.foldl_third | apply Keeps.foldl_fst
    | dsimp only
    | simp only [Keeps.upd_iff]
    | split
    | refine Keeps.of_pair (by assumption) ?_
    | refine Keeps.of_triple (by assumption) ?_
    | refine Keeps.of_fst (by assumption) ?_
    | refine Keeps.of_some (by assumption) ?_
    | refine Keeps.of_ok (by assumption) ?_

theorem writePiece_keeps {s₀ s : State} {x1} {x2} {x3} (h : Keeps s₀ s) :
    Keeps s₀ (writePiece s x1 x2 x3).2 := by
  unfold writePiece
  repeat' first
    | intro _
    | with_reducible assumption
    | with_reducible first | apply rebuildReads_keeps | apply touch_keeps | apply storeBytes_keeps | apply freshUnits_keeps | apply eachUnit_keeps | apply parityDelta_keeps
    | with_reducible first | apply Keeps.ite | apply Keeps.ite_snd | apply Keeps.forN | apply Keeps.getD | apply Keeps.elim | apply Keeps.foldl | apply Keeps.foldl_snd | apply Keeps.foldl_third | apply Keeps.foldl_fst
    | dsimp only
    | simp only [Keeps.upd_iff]
    | split
    | refine Keeps.of_pair (by assumption) ?_
    | refine Keeps.of_triple (by assumption) ?_
    | refine Keeps.of_fst (by assumption) ?_
    | refine Keeps.of_some (by assumption) ?_
    | refine Keeps.of_ok (by assumption) ?_

theorem writePieces_keeps {s₀ s : State} {x1} {x2} {x3} (h : Keeps s₀ s) :
    Keeps s₀ (writePieces s x1 x2 x3).2 := by
  unfold writePieces
  repeat' first
    | intro _
    | with_reducible assumption
    | with_reducible first | apply writePiece_keeps | apply writePieces_keeps
    | with_reducible first | apply Keeps.ite | apply Keeps.ite_snd | apply Keeps.forN | apply Keeps.getD | apply Keeps.elim | apply Keeps.foldl | apply Keeps.foldl_snd | apply Keeps.foldl_third | apply Keeps.foldl_fst
    | dsimp only
    | simp only [Keeps.upd_iff]
    | split
    | refine Keeps.of_pair (by assumption) ?_
    | refine Keeps.of_triple (by assumption) ?_
    | refine Keeps.of_fst (by assumption) ?_
    | refine Keeps.of_some (by assumption) ?_
    | refine Keeps.of_ok (by assumption) ?_

theorem writeMem_keeps {s₀ s : State} {x1} {x2} {x3} (h : Keeps s₀ s) :
    Keeps s₀ (writeMem s x1 x2 x3).2 := by
  unfold writeMem
  repeat' first
    | intro _
    | with_reducible assumption
    | with_reducible first | apply writePieces_keeps
    | with_reducible first | apply Keeps.ite | apply Keeps.ite_snd | apply Keeps.some | apply Keeps.none | apply Keeps.forN | apply Keeps.getD | apply Keeps.elim | apply Keeps.foldl | apply Keeps.foldl_snd | apply Keeps.foldl_third | apply Keeps.foldl_fst
    | dsimp only
    | simp only [Keeps.upd_iff]
    | split
    | refine Keeps.of_pair (by assumption) ?_
    | refine Keeps.of_triple (by assumption) ?_
    | refine Keeps.of_fst (by assumption) ?_
    | refine Keeps.of_some (by assumption) ?_
    | refine Keeps.of_ok (by assumption) ?_
    | refine writeBlocked_held (by assumption) ?_

theorem writeNat_keeps {s₀ s : State} {x1} {x2} {x3} {x4} (h : Keeps s₀ s) :
    Keeps s₀ (writeNat s x1 x2 x3 x4).2 := by
  unfold writeNat
  repeat' first
    | intro _
    | with_reducible assumption
    | with_reducible first | apply writeMem_keeps
    | with_reducible first | apply Keeps.ite | apply Keeps.ite_snd | apply Keeps.some | apply Keeps.none | apply Keeps.forN | apply Keeps.getD | apply Keeps.elim | apply Keeps.foldl | apply Keeps.foldl_snd | apply Keeps.foldl_third | apply Keeps.foldl_fst
    | dsimp only
    | simp only [Keeps.upd_iff]
    | split
    | refine Keeps.of_pair (by assumption) ?_
    | refine Keeps.of_triple (by assumption) ?_
    | refine Keeps.of_fst (by assumption) ?_
    | refine Keeps.of_some (by assumption) ?_
    | refine Keeps.of_ok (by assumption) ?_

theorem State.setCluster_keeps {s₀ s : State} {x1} {x2} {x3} (h : Keeps s₀ s) :
    Keeps s₀ (State.setCluster s x1 x2 x3) := by
  unfold State.setCluster
  repeat' first
    | intro _
    | with_reducible assumption
    | with_reducible first | apply Keeps.ite | apply Keeps.ite_snd | apply Keeps.forN | apply Keeps.getD | apply Keeps.elim | apply Keeps.foldl | apply Keeps.foldl_snd | apply Keeps.foldl_third | apply Keeps.foldl_fst
    | dsimp only
    | simp only [Keeps.upd_iff]
    | split
    | refine Keeps.of_pair (by assumption) ?_
    | refine Keeps.of_triple (by assumption) ?_
    | refine Keeps.of_fst (by assumption) ?_
    | refine Keeps.of_some (by assumption) ?_
    | refine Keeps.of_ok (by assumption) ?_

theorem State.setPlant_keeps {s₀ s : State} {x1} {x2} (h : Keeps s₀ s) :
    Keeps s₀ (State.setPlant s x1 x2) := by
  unfold State.setPlant
  repeat' first
    | intro _
    | with_reducible assumption
    | with_reducible first | apply Keeps.ite | apply Keeps.ite_snd | apply Keeps.forN | apply Keeps.getD | apply Keeps.elim | apply Keeps.foldl | apply Keeps.foldl_snd | apply Keeps.foldl_third | apply Keeps.foldl_fst
    | dsimp only
    | simp only [Keeps.upd_iff]
    | split
    | refine Keeps.of_pair (by assumption) ?_
    | refine Keeps.of_triple (by assumption) ?_
    | refine Keeps.of_fst (by assumption) ?_
    | refine Keeps.of_some (by assumption) ?_
    | refine Keeps.of_ok (by assumption) ?_

theorem updPlant_keeps {s₀ s : State} {x1} {x2} (h : Keeps s₀ s) :
    Keeps s₀ (updPlant s x1 x2) := by
  unfold updPlant
  repeat' first
    | intro _
    | with_reducible assumption
    | with_reducible first | apply State.setPlant_keeps
    | with_reducible first | apply Keeps.ite | apply Keeps.ite_snd | apply Keeps.forN | apply Keeps.getD | apply Keeps.elim | apply Keeps.foldl | apply Keeps.foldl_snd | apply Keeps.foldl_third | apply Keeps.foldl_fst
    | dsimp only
    | simp only [Keeps.upd_iff]
    | split
    | refine Keeps.of_pair (by assumption) ?_
    | refine Keeps.of_triple (by assumption) ?_
    | refine Keeps.of_fst (by assumption) ?_
    | refine Keeps.of_some (by assumption) ?_
    | refine Keeps.of_ok (by assumption) ?_

theorem State.puts_keeps {s₀ s : State} {x1} (h : Keeps s₀ s) :
    Keeps s₀ (State.puts s x1) := by
  unfold State.puts
  repeat' first
    | intro _
    | with_reducible assumption
    | with_reducible first | apply State.put_keeps
    | with_reducible first | apply Keeps.ite | apply Keeps.ite_snd | apply Keeps.forN | apply Keeps.getD | apply Keeps.elim | apply Keeps.foldl | apply Keeps.foldl_snd | apply Keeps.foldl_third | apply Keeps.foldl_fst
    | dsimp only
    | simp only [Keeps.upd_iff]
    | split
    | refine Keeps.of_pair (by assumption) ?_
    | refine Keeps.of_triple (by assumption) ?_
    | refine Keeps.of_fst (by assumption) ?_
    | refine Keeps.of_some (by assumption) ?_
    | refine Keeps.of_ok (by assumption) ?_

theorem replaceUnit_keeps {s₀ s : State} {x1} {x2} (h : Keeps s₀ s) :
    Keeps s₀ (replaceUnit s x1 x2) := by
  unfold replaceUnit
  repeat' first
    | intro _
    | with_reducible assumption
    | with_reducible first | apply touch_keeps | apply storeBytes_keeps
    | with_reducible first | apply Keeps.ite | apply Keeps.ite_snd | apply Keeps.forN | apply Keeps.getD | apply Keeps.elim | apply Keeps.foldl | apply Keeps.foldl_snd | apply Keeps.foldl_third | apply Keeps.foldl_fst
    | dsimp only
    | simp only [Keeps.upd_iff]
    | split
    | refine Keeps.of_pair (by assumption) ?_
    | refine Keeps.of_triple (by assumption) ?_
    | refine Keeps.of_fst (by assumption) ?_
    | refine Keeps.of_some (by assumption) ?_
    | refine Keeps.of_ok (by assumption) ?_

theorem State.choose_keeps {s₀ s : State} (h : Keeps s₀ s) :
    Keeps s₀ (State.choose s).2 := by
  unfold State.choose
  repeat' first
    | intro _
    | with_reducible assumption
    | with_reducible first | apply State.tock_keeps
    | with_reducible first | apply Keeps.ite | apply Keeps.ite_snd | apply Keeps.forN | apply Keeps.getD | apply Keeps.elim | apply Keeps.foldl | apply Keeps.foldl_snd | apply Keeps.foldl_third | apply Keeps.foldl_fst
    | dsimp only
    | simp only [Keeps.upd_iff]
    | split
    | refine Keeps.of_pair (by assumption) ?_
    | refine Keeps.of_triple (by assumption) ?_
    | refine Keeps.of_fst (by assumption) ?_
    | refine Keeps.of_some (by assumption) ?_
    | refine Keeps.of_ok (by assumption) ?_

theorem State.setUpe_keeps {s₀ s : State} {x1} {x2} {x3} (h : Keeps s₀ s) :
    Keeps s₀ (State.setUpe s x1 x2 x3) := by
  unfold State.setUpe
  repeat' first
    | intro _
    | with_reducible assumption
    | with_reducible first | apply Keeps.ite | apply Keeps.ite_snd | apply Keeps.forN | apply Keeps.getD | apply Keeps.elim | apply Keeps.foldl | apply Keeps.foldl_snd | apply Keeps.foldl_third | apply Keeps.foldl_fst
    | dsimp only
    | simp only [Keeps.upd_iff]
    | split
    | refine Keeps.of_pair (by assumption) ?_
    | refine Keeps.of_triple (by assumption) ?_
    | refine Keeps.of_fst (by assumption) ?_
    | refine Keeps.of_some (by assumption) ?_
    | refine Keeps.of_ok (by assumption) ?_

theorem readNat_keeps {s₀ s : State} {x1} {x2} {x3} (h : Keeps s₀ s) :
    Keeps s₀ (readNat s x1 x2 x3).2 := by
  unfold readNat
  repeat' first
    | intro _
    | with_reducible assumption
    | with_reducible first | apply readMem_keeps
    | with_reducible first | apply Keeps.ite | apply Keeps.ite_snd | apply Keeps.forN | apply Keeps.getD | apply Keeps.elim | apply Keeps.foldl | apply Keeps.foldl_snd | apply Keeps.foldl_third | apply Keeps.foldl_fst
    | dsimp only
    | simp only [Keeps.upd_iff]
    | split
    | refine Keeps.of_pair (by assumption) ?_
    | refine Keeps.of_triple (by assumption) ?_
    | refine Keeps.of_fst (by assumption) ?_
    | refine Keeps.of_some (by assumption) ?_
    | refine Keeps.of_ok (by assumption) ?_

theorem doAtomic_keeps {s₀ s : State} {x1} {x2} {x3} {x4} {x5} (h : Keeps s₀ s) :
    Keeps s₀ (doAtomic s x1 x2 x3 x4 x5).2 := by
  unfold doAtomic
  repeat' first
    | intro _
    | with_reducible assumption
    | with_reducible first | apply readNat_keeps | apply writeNat_keeps
    | with_reducible first | apply Keeps.ite | apply Keeps.ite_snd | apply Keeps.forN | apply Keeps.getD | apply Keeps.elim | apply Keeps.foldl | apply Keeps.foldl_snd | apply Keeps.foldl_third | apply Keeps.foldl_fst
    | dsimp only
    | simp only [Keeps.upd_iff]
    | split
    | refine Keeps.of_pair (by assumption) ?_
    | refine Keeps.of_triple (by assumption) ?_
    | refine Keeps.of_fst (by assumption) ?_
    | refine Keeps.of_some (by assumption) ?_
    | refine Keeps.of_ok (by assumption) ?_

theorem writeBack_keeps {s₀ s : State} {x1} (h : Keeps s₀ s) :
    Keeps s₀ (writeBack s x1) := by
  unfold writeBack
  repeat' first
    | intro _
    | with_reducible assumption
    | with_reducible first | apply flushLine_keeps
    | with_reducible first | apply Keeps.ite | apply Keeps.ite_snd | apply Keeps.forN | apply Keeps.getD | apply Keeps.elim | apply Keeps.foldl | apply Keeps.foldl_snd | apply Keeps.foldl_third | apply Keeps.foldl_fst
    | dsimp only
    | simp only [Keeps.upd_iff]
    | split
    | refine Keeps.of_pair (by assumption) ?_
    | refine Keeps.of_triple (by assumption) ?_
    | refine Keeps.of_fst (by assumption) ?_
    | refine Keeps.of_some (by assumption) ?_
    | refine Keeps.of_ok (by assumption) ?_

theorem writeBackInv_keeps {s₀ s : State} {x1} (h : Keeps s₀ s) :
    Keeps s₀ (writeBackInv s x1) := by
  unfold writeBackInv
  repeat' first
    | intro _
    | with_reducible assumption
    | with_reducible first | apply writeBack_keeps
    | with_reducible first | apply Keeps.ite | apply Keeps.ite_snd | apply Keeps.forN | apply Keeps.getD | apply Keeps.elim | apply Keeps.foldl | apply Keeps.foldl_snd | apply Keeps.foldl_third | apply Keeps.foldl_fst
    | dsimp only
    | simp only [Keeps.upd_iff]
    | split
    | refine Keeps.of_pair (by assumption) ?_
    | refine Keeps.of_triple (by assumption) ?_
    | refine Keeps.of_fst (by assumption) ?_
    | refine Keeps.of_some (by assumption) ?_
    | refine Keeps.of_ok (by assumption) ?_

theorem releaseStall_keeps {s₀ s : State} {x1} {x2} (h : Keeps s₀ s) :
    Keeps s₀ (releaseStall s x1 x2) := by
  unfold releaseStall
  repeat' first
    | intro _
    | with_reducible assumption
    | with_reducible first | apply State.updHub_keeps
    | with_reducible first | apply Keeps.ite | apply Keeps.ite_snd | apply Keeps.forN | apply Keeps.getD | apply Keeps.elim | apply Keeps.foldl | apply Keeps.foldl_snd | apply Keeps.foldl_third | apply Keeps.foldl_fst
    | dsimp only
    | simp only [Keeps.upd_iff]
    | split
    | refine Keeps.of_pair (by assumption) ?_
    | refine Keeps.of_triple (by assumption) ?_
    | refine Keeps.of_fst (by assumption) ?_
    | refine Keeps.of_some (by assumption) ?_
    | refine Keeps.of_ok (by assumption) ?_

theorem writeGroup_keeps {s₀ s : State} {x1} {x2} (h : Keeps s₀ s) :
    Keeps s₀ (writeGroup s x1 x2).2 := by
  unfold writeGroup
  repeat' first
    | intro _
    | with_reducible assumption
    | with_reducible first | apply eachUnit_keeps | apply deltaTo_keeps | apply storeBytes_keeps | apply freshUnits_keeps | apply touch_keeps
    | with_reducible first | apply Keeps.ite | apply Keeps.ite_snd | apply Keeps.some | apply Keeps.none | apply Keeps.forN | apply Keeps.getD | apply Keeps.elim | apply Keeps.foldl | apply Keeps.foldl_snd | apply Keeps.foldl_third | apply Keeps.foldl_fst
    | dsimp only
    | simp only [Keeps.upd_iff]
    | split
    | refine Keeps.of_pair (by assumption) ?_
    | refine Keeps.of_triple (by assumption) ?_
    | refine Keeps.of_fst (by assumption) ?_
    | refine Keeps.of_some (by assumption) ?_
    | refine Keeps.of_ok (by assumption) ?_
    | refine writeBlocked_held (by assumption) ?_

theorem State.draw_keeps {s₀ s : State} {x1} (h : Keeps s₀ s) :
    Keeps s₀ (State.draw s x1).2 := by
  unfold State.draw
  repeat' first
    | intro _
    | with_reducible assumption
    | with_reducible first | apply State.tock_keeps
    | with_reducible first | apply Keeps.ite | apply Keeps.ite_snd | apply Keeps.forN | apply Keeps.getD | apply Keeps.elim | apply Keeps.foldl | apply Keeps.foldl_snd | apply Keeps.foldl_third | apply Keeps.foldl_fst
    | dsimp only
    | simp only [Keeps.upd_iff]
    | split
    | refine Keeps.of_pair (by assumption) ?_
    | refine Keeps.of_triple (by assumption) ?_
    | refine Keeps.of_fst (by assumption) ?_
    | refine Keeps.of_some (by assumption) ?_
    | refine Keeps.of_ok (by assumption) ?_

theorem State.putB_keeps {s₀ s : State} {x1} {x2} (h : Keeps s₀ s) :
    Keeps s₀ (State.putB s x1 x2) := by
  unfold State.putB
  repeat' first
    | intro _
    | with_reducible assumption
    | with_reducible first | apply State.put_keeps
    | with_reducible first | apply Keeps.ite | apply Keeps.ite_snd | apply Keeps.forN | apply Keeps.getD | apply Keeps.elim | apply Keeps.foldl | apply Keeps.foldl_snd | apply Keeps.foldl_third | apply Keeps.foldl_fst
    | dsimp only
    | simp only [Keeps.upd_iff]
    | split
    | refine Keeps.of_pair (by assumption) ?_
    | refine Keeps.of_triple (by assumption) ?_
    | refine Keeps.of_fst (by assumption) ?_
    | refine Keeps.of_some (by assumption) ?_
    | refine Keeps.of_ok (by assumption) ?_

theorem State.clear_keeps {s₀ s : State} {x1} (h : Keeps s₀ s) :
    Keeps s₀ (State.clear s x1) := by
  unfold State.clear
  repeat' first
    | intro _
    | with_reducible assumption
    | with_reducible first | apply State.put_keeps
    | with_reducible first | apply Keeps.ite | apply Keeps.ite_snd | apply Keeps.forN | apply Keeps.getD | apply Keeps.elim | apply Keeps.foldl | apply Keeps.foldl_snd | apply Keeps.foldl_third | apply Keeps.foldl_fst
    | dsimp only
    | simp only [Keeps.upd_iff]
    | split
    | refine Keeps.of_pair (by assumption) ?_
    | refine Keeps.of_triple (by assumption) ?_
    | refine Keeps.of_fst (by assumption) ?_
    | refine Keeps.of_some (by assumption) ?_
    | refine Keeps.of_ok (by assumption) ?_

end Sys2Proof.Machine
end

