-- ==== Sys2Proof/Laws/KeepsRingOps.lean ====
section
/-! SUPPORT. What no operation of RingOps.lean touches or breaks. -/
namespace Sys2Proof.Machine

theorem settleTag_keeps {s₀ s : State} {x1} (h : Keeps s₀ s) :
    Keeps s₀ (settleTag s x1) := by
  unfold settleTag
  repeat' first
    | intro _
    | with_reducible assumption
    | with_reducible first | apply Keeps.ite | apply Keeps.ite_snd | apply Keeps.forN | apply Keeps.getD | apply Keeps.elim | apply Keeps.foldl | apply Keeps.foldl_snd | apply Keeps.foldl_third | apply Keeps.foldl_fst
    | dsimp only
    | simp only [Keeps.upd_iff]
    | split
    | refine Keeps.of_pair (by assumption) ?_
    | refine Keeps.of_triple (by assumption) ?_
    | refine Keeps.of_fst (by assumption) ?_
    | refine Keeps.of_some (by assumption) ?_
    | refine Keeps.of_ok (by assumption) ?_

theorem lostMsg_keeps {s₀ s : State} {x1} (h : Keeps s₀ s) :
    Keeps s₀ (lostMsg s x1) := by
  unfold lostMsg
  repeat' first
    | intro _
    | with_reducible assumption
    | with_reducible first | apply settleTag_keeps
    | with_reducible first | apply Keeps.ite | apply Keeps.ite_snd | apply Keeps.forN | apply Keeps.getD | apply Keeps.elim | apply Keeps.foldl | apply Keeps.foldl_snd | apply Keeps.foldl_third | apply Keeps.foldl_fst
    | dsimp only
    | simp only [Keeps.upd_iff]
    | split
    | refine Keeps.of_pair (by assumption) ?_
    | refine Keeps.of_triple (by assumption) ?_
    | refine Keeps.of_fst (by assumption) ?_
    | refine Keeps.of_some (by assumption) ?_
    | refine Keeps.of_ok (by assumption) ?_

theorem sendFlit_keeps {s₀ s : State} {x1} {x2} {x3} {x4} (h : Keeps s₀ s) :
    Keeps s₀ (sendFlit s x1 x2 x3 x4) := by
  unfold sendFlit
  repeat' first
    | intro _
    | with_reducible assumption
    | with_reducible first | apply State.setStop_keeps
    | with_reducible first | apply Keeps.ite | apply Keeps.ite_snd | apply Keeps.forN | apply Keeps.getD | apply Keeps.elim | apply Keeps.foldl | apply Keeps.foldl_snd | apply Keeps.foldl_third | apply Keeps.foldl_fst
    | dsimp only
    | simp only [Keeps.upd_iff]
    | split
    | refine Keeps.of_pair (by assumption) ?_
    | refine Keeps.of_triple (by assumption) ?_
    | refine Keeps.of_fst (by assumption) ?_
    | refine Keeps.of_some (by assumption) ?_
    | refine Keeps.of_ok (by assumption) ?_

theorem sendFlits_keeps {s₀ s : State} {x1} (h : Keeps s₀ s) :
    Keeps s₀ (sendFlits s x1) := by
  unfold sendFlits
  repeat' first
    | intro _
    | with_reducible assumption
    | with_reducible first | apply sendFlit_keeps
    | with_reducible first | apply Keeps.ite | apply Keeps.ite_snd | apply Keeps.forN | apply Keeps.getD | apply Keeps.elim | apply Keeps.foldl | apply Keeps.foldl_snd | apply Keeps.foldl_third | apply Keeps.foldl_fst
    | dsimp only
    | simp only [Keeps.upd_iff]
    | split
    | refine Keeps.of_pair (by assumption) ?_
    | refine Keeps.of_triple (by assumption) ?_
    | refine Keeps.of_fst (by assumption) ?_
    | refine Keeps.of_some (by assumption) ?_
    | refine Keeps.of_ok (by assumption) ?_

theorem inject_keeps {s₀ s : State} {x1} (h : Keeps s₀ s) :
    Keeps s₀ (inject s x1) := by
  unfold inject
  repeat' first
    | intro _
    | with_reducible assumption
    | with_reducible first | apply State.setStop_keeps | apply lostMsg_keeps | apply sendFlits_keeps | apply State.bump_keeps
    | with_reducible first | apply Keeps.ite | apply Keeps.ite_snd | apply Keeps.forN | apply Keeps.getD | apply Keeps.elim | apply Keeps.foldl | apply Keeps.foldl_snd | apply Keeps.foldl_third | apply Keeps.foldl_fst
    | dsimp only
    | simp only [Keeps.upd_iff]
    | split
    | refine Keeps.of_pair (by assumption) ?_
    | refine Keeps.of_triple (by assumption) ?_
    | refine Keeps.of_fst (by assumption) ?_
    | refine Keeps.of_some (by assumption) ?_
    | refine Keeps.of_ok (by assumption) ?_

theorem newTag_keeps {s₀ s : State} {x1} (h : Keeps s₀ s) :
    Keeps s₀ (newTag s x1).2 := by
  unfold newTag
  repeat' first
    | intro _
    | with_reducible assumption
    | with_reducible first | apply Keeps.ite | apply Keeps.ite_snd | apply Keeps.forN | apply Keeps.getD | apply Keeps.elim | apply Keeps.foldl | apply Keeps.foldl_snd | apply Keeps.foldl_third | apply Keeps.foldl_fst
    | dsimp only
    | simp only [Keeps.upd_iff]
    | split
    | refine Keeps.of_pair (by assumption) ?_
    | refine Keeps.of_triple (by assumption) ?_
    | refine Keeps.of_fst (by assumption) ?_
    | refine Keeps.of_some (by assumption) ?_
    | refine Keeps.of_ok (by assumption) ?_

theorem ask_keeps {s₀ s : State} {x1} {x2} (h : Keeps s₀ s) :
    Keeps s₀ (ask s x1 x2) := by
  unfold ask
  repeat' first
    | intro _
    | with_reducible assumption
    | with_reducible first | apply newTag_keeps | apply inject_keeps
    | with_reducible first | apply Keeps.ite | apply Keeps.ite_snd | apply Keeps.forN | apply Keeps.getD | apply Keeps.elim | apply Keeps.foldl | apply Keeps.foldl_snd | apply Keeps.foldl_third | apply Keeps.foldl_fst
    | dsimp only
    | simp only [Keeps.upd_iff]
    | split
    | refine Keeps.of_pair (by assumption) ?_
    | refine Keeps.of_triple (by assumption) ?_
    | refine Keeps.of_fst (by assumption) ?_
    | refine Keeps.of_some (by assumption) ?_
    | refine Keeps.of_ok (by assumption) ?_

theorem respond_keeps {s₀ s : State} {x1} {x2} {x3} (h : Keeps s₀ s) :
    Keeps s₀ (respond s x1 x2 x3) := by
  unfold respond
  repeat' first
    | intro _
    | with_reducible assumption
    | with_reducible first | apply inject_keeps
    | with_reducible first | apply Keeps.ite | apply Keeps.ite_snd | apply Keeps.forN | apply Keeps.getD | apply Keeps.elim | apply Keeps.foldl | apply Keeps.foldl_snd | apply Keeps.foldl_third | apply Keeps.foldl_fst
    | dsimp only
    | simp only [Keeps.upd_iff]
    | split
    | refine Keeps.of_pair (by assumption) ?_
    | refine Keeps.of_triple (by assumption) ?_
    | refine Keeps.of_fst (by assumption) ?_
    | refine Keeps.of_some (by assumption) ?_
    | refine Keeps.of_ok (by assumption) ?_

theorem deliver_keeps {s₀ s : State} {x1} {x2} (h : Keeps s₀ s) :
    Keeps s₀ (deliver s x1 x2) := by
  unfold deliver
  repeat' first
    | intro _
    | with_reducible assumption
    | with_reducible first | apply State.bump_keeps
    | with_reducible first | apply Keeps.ite | apply Keeps.ite_snd | apply Keeps.forN | apply Keeps.getD | apply Keeps.elim | apply Keeps.foldl | apply Keeps.foldl_snd | apply Keeps.foldl_third | apply Keeps.foldl_fst
    | dsimp only
    | simp only [Keeps.upd_iff]
    | split
    | refine Keeps.of_pair (by assumption) ?_
    | refine Keeps.of_triple (by assumption) ?_
    | refine Keeps.of_fst (by assumption) ?_
    | refine Keeps.of_some (by assumption) ?_
    | refine Keeps.of_ok (by assumption) ?_

theorem combineOnce_keeps {s₀ s : State} {x0} {x1} {x2} {x3} (h : Keeps s₀ s) :
    Keeps s₀ (combineOnce x0 x1 x2 x3 s).2 := by
  unfold combineOnce
  repeat' first
    | intro _
    | with_reducible assumption
    | with_reducible first | apply State.pick_keeps | apply State.bump_keeps | apply State.tock_keeps
    | with_reducible first | apply Keeps.ite | apply Keeps.ite_snd | apply Keeps.forN | apply Keeps.getD | apply Keeps.elim | apply Keeps.foldl | apply Keeps.foldl_snd | apply Keeps.foldl_third | apply Keeps.foldl_fst
    | dsimp only
    | simp only [Keeps.upd_iff]
    | split
    | refine Keeps.of_pair (by assumption) ?_
    | refine Keeps.of_triple (by assumption) ?_
    | refine Keeps.of_fst (by assumption) ?_
    | refine Keeps.of_some (by assumption) ?_
    | refine Keeps.of_ok (by assumption) ?_

theorem combineAll_keeps {s₀ s : State} {x0} {x1} {x2} {x3} {x4} (h : Keeps s₀ s) :
    Keeps s₀ (combineAll x0 x1 x2 x3 x4 s).2 := by
  unfold combineAll
  repeat' first
    | intro _
    | with_reducible assumption
    | with_reducible first | apply combineOnce_keeps | apply combineAll_keeps
    | with_reducible first | apply Keeps.ite | apply Keeps.ite_snd | apply Keeps.forN | apply Keeps.getD | apply Keeps.elim | apply Keeps.foldl | apply Keeps.foldl_snd | apply Keeps.foldl_third | apply Keeps.foldl_fst
    | dsimp only
    | simp only [Keeps.upd_iff]
    | split
    | refine Keeps.of_pair (by assumption) ?_
    | refine Keeps.of_triple (by assumption) ?_
    | refine Keeps.of_fst (by assumption) ?_
    | refine Keeps.of_some (by assumption) ?_
    | refine Keeps.of_ok (by assumption) ?_

theorem fired_keeps {s₀ s : State} (h : Keeps s₀ s) :
    Keeps s₀ (fired s) := by
  unfold fired
  repeat' first
    | intro _
    | with_reducible assumption
    | with_reducible first | apply State.bump_keeps | apply State.put_keeps
    | with_reducible first | apply Keeps.ite | apply Keeps.ite_snd | apply Keeps.forN | apply Keeps.getD | apply Keeps.elim | apply Keeps.foldl | apply Keeps.foldl_snd | apply Keeps.foldl_third | apply Keeps.foldl_fst
    | dsimp only
    | simp only [Keeps.upd_iff]
    | split
    | refine Keeps.of_pair (by assumption) ?_
    | refine Keeps.of_triple (by assumption) ?_
    | refine Keeps.of_fst (by assumption) ?_
    | refine Keeps.of_some (by assumption) ?_
    | refine Keeps.of_ok (by assumption) ?_

theorem injectedFail_keeps {s₀ s : State} {x1} {x2} {x3} {x4} (h : Keeps s₀ s) :
    Keeps s₀ (injectedFail s x1 x2 x3 x4).2 := by
  unfold injectedFail
  repeat' first
    | intro _
    | with_reducible assumption
    | with_reducible first | apply fired_keeps
    | with_reducible first | apply Keeps.ite | apply Keeps.ite_snd | apply Keeps.forN | apply Keeps.getD | apply Keeps.elim | apply Keeps.foldl | apply Keeps.foldl_snd | apply Keeps.foldl_third | apply Keeps.foldl_fst
    | dsimp only
    | simp only [Keeps.upd_iff]
    | split
    | refine Keeps.of_pair (by assumption) ?_
    | refine Keeps.of_triple (by assumption) ?_
    | refine Keeps.of_fst (by assumption) ?_
    | refine Keeps.of_some (by assumption) ?_
    | refine Keeps.of_ok (by assumption) ?_

theorem askReplay_keeps {s₀ s : State} {x1} {x2} {x3} (h : Keeps s₀ s) :
    Keeps s₀ (askReplay s x1 x2 x3) := by
  unfold askReplay
  repeat' first
    | intro _
    | with_reducible assumption
    | with_reducible first | apply State.setStop_keeps
    | with_reducible first | apply Keeps.ite | apply Keeps.ite_snd | apply Keeps.forN | apply Keeps.getD | apply Keeps.elim | apply Keeps.foldl | apply Keeps.foldl_snd | apply Keeps.foldl_third | apply Keeps.foldl_fst
    | dsimp only
    | simp only [Keeps.upd_iff]
    | split
    | refine Keeps.of_pair (by assumption) ?_
    | refine Keeps.of_triple (by assumption) ?_
    | refine Keeps.of_fst (by assumption) ?_
    | refine Keeps.of_some (by assumption) ?_
    | refine Keeps.of_ok (by assumption) ?_

theorem endReplay_keeps {s₀ s : State} {x1} {x2} {x3} (h : Keeps s₀ s) :
    Keeps s₀ (endReplay s x1 x2 x3) := by
  unfold endReplay
  repeat' first
    | intro _
    | with_reducible assumption
    | with_reducible first | apply State.setStop_keeps
    | with_reducible first | apply Keeps.ite | apply Keeps.ite_snd | apply Keeps.forN | apply Keeps.getD | apply Keeps.elim | apply Keeps.foldl | apply Keeps.foldl_snd | apply Keeps.foldl_third | apply Keeps.foldl_fst
    | dsimp only
    | simp only [Keeps.upd_iff]
    | split
    | refine Keeps.of_pair (by assumption) ?_
    | refine Keeps.of_triple (by assumption) ?_
    | refine Keeps.of_fst (by assumption) ?_
    | refine Keeps.of_some (by assumption) ?_
    | refine Keeps.of_ok (by assumption) ?_

end Sys2Proof.Machine
end

