-- ==== Sys2Proof/Laws/KeepsHub.lean ====
section
/-! SUPPORT. What no operation of Hub.lean touches or breaks. -/
namespace Sys2Proof.Machine

theorem pushEvent_keeps {s₀ s : State} {x1} {x2} {x3} (h : Keeps s₀ s) :
    Keeps s₀ (pushEvent s x1 x2 x3) := by
  unfold pushEvent
  repeat' first
    | intro _
    | with_reducible assumption
    | with_reducible first | apply State.stamp_keeps | apply State.bump_keeps | apply State.tock_keeps
    | with_reducible first | apply Keeps.ite | apply Keeps.ite_snd | apply Keeps.forN | apply Keeps.getD | apply Keeps.elim | apply Keeps.foldl | apply Keeps.foldl_snd | apply Keeps.foldl_third | apply Keeps.foldl_fst
    | dsimp only
    | simp only [Keeps.upd_iff]
    | split
    | refine Keeps.of_pair (by assumption) ?_
    | refine Keeps.of_triple (by assumption) ?_
    | refine Keeps.of_fst (by assumption) ?_
    | refine Keeps.of_some (by assumption) ?_
    | refine Keeps.of_ok (by assumption) ?_

theorem requestRetire_keeps {s₀ s : State} {x1} {x2} {x3} (h : Keeps s₀ s) :
    Keeps s₀ (requestRetire s x1 x2 x3) := by
  unfold requestRetire
  repeat' first
    | intro _
    | with_reducible assumption
    | with_reducible first | apply State.updHub_keeps
    | with_reducible first | apply Keeps.ite | apply Keeps.ite_snd | apply Keeps.forN | apply Keeps.getD | apply Keeps.elim | apply Keeps.foldl | apply Keeps.foldl_snd | apply Keeps.foldl_third | apply Keeps.foldl_fst
    | dsimp only
    | simp only [Keeps.upd_iff]
    | split
    | refine Keeps.of_pair (by assumption) ?_
    | refine Keeps.of_triple (by assumption) ?_
    | refine Keeps.of_fst (by assumption) ?_
    | refine Keeps.of_some (by assumption) ?_
    | refine Keeps.of_ok (by assumption) ?_

theorem finish_keeps {s₀ s : State} {x1} {x2} {x3} (h : Keeps s₀ s) :
    Keeps s₀ (finish s x1 x2 x3) := by
  unfold finish
  repeat' first
    | intro _
    | with_reducible assumption
    | with_reducible first | apply State.stalls_keeps | apply requestRetire_keeps | apply State.tock_keeps
    | with_reducible first | apply Keeps.ite | apply Keeps.ite_snd | apply Keeps.forN | apply Keeps.getD | apply Keeps.elim | apply Keeps.foldl | apply Keeps.foldl_snd | apply Keeps.foldl_third | apply Keeps.foldl_fst
    | dsimp only
    | simp only [Keeps.upd_iff]
    | split
    | refine Keeps.of_pair (by assumption) ?_
    | refine Keeps.of_triple (by assumption) ?_
    | refine Keeps.of_fst (by assumption) ?_
    | refine Keeps.of_some (by assumption) ?_
    | refine Keeps.of_ok (by assumption) ?_

theorem settlePaths_keeps {s₀ s : State} {x1} (h : Keeps s₀ s) :
    Keeps s₀ (settlePaths s x1) := by
  unfold settlePaths
  repeat' first
    | intro _
    | with_reducible assumption
    | with_reducible first | apply Keeps.ite | apply Keeps.ite_snd | apply Keeps.forN | apply Keeps.getD | apply Keeps.elim | apply Keeps.foldl | apply Keeps.foldl_snd | apply Keeps.foldl_third | apply Keeps.foldl_fst
    | dsimp only
    | simp only [Keeps.upd_iff]
    | split
    | refine Keeps.of_pair (by assumption) ?_
    | refine Keeps.of_triple (by assumption) ?_
    | refine Keeps.of_fst (by assumption) ?_
    | refine Keeps.of_some (by assumption) ?_
    | refine Keeps.of_ok (by assumption) ?_

theorem applyMode_keeps {s₀ s : State} {x1} {x2} (h : Keeps s₀ s) :
    Keeps s₀ (applyMode s x1 x2) := by
  unfold applyMode
  repeat' first
    | intro _
    | with_reducible assumption
    | with_reducible first | apply settlePaths_keeps
    | with_reducible first | apply Keeps.ite | apply Keeps.ite_snd | apply Keeps.forN | apply Keeps.getD | apply Keeps.elim | apply Keeps.foldl | apply Keeps.foldl_snd | apply Keeps.foldl_third | apply Keeps.foldl_fst
    | dsimp only
    | simp only [Keeps.upd_iff]
    | split
    | refine Keeps.of_pair (by assumption) ?_
    | refine Keeps.of_triple (by assumption) ?_
    | refine Keeps.of_fst (by assumption) ?_
    | refine Keeps.of_some (by assumption) ?_
    | refine Keeps.of_ok (by assumption) ?_

theorem settleMode_keeps {s₀ s : State} (h : Keeps s₀ s) :
    Keeps s₀ (settleMode s) := by
  unfold settleMode
  repeat' first
    | intro _
    | with_reducible assumption
    | with_reducible first | apply State.put_keeps
    | with_reducible first | apply Keeps.ite | apply Keeps.ite_snd | apply Keeps.forN | apply Keeps.getD | apply Keeps.elim | apply Keeps.foldl | apply Keeps.foldl_snd | apply Keeps.foldl_third | apply Keeps.foldl_fst
    | dsimp only
    | simp only [Keeps.upd_iff]
    | split
    | refine Keeps.of_pair (by assumption) ?_
    | refine Keeps.of_triple (by assumption) ?_
    | refine Keeps.of_fst (by assumption) ?_
    | refine Keeps.of_some (by assumption) ?_
    | refine Keeps.of_ok (by assumption) ?_

theorem advanceStep_keeps {s₀ s : State} {x1} (h : Keeps s₀ s) :
    Keeps s₀ (advanceStep s x1) := by
  unfold advanceStep
  repeat' first
    | intro _
    | with_reducible assumption
    | with_reducible first | apply State.put_keeps | apply applyMode_keeps | apply State.updHub_keeps | apply settleMode_keeps
    | with_reducible first | apply Keeps.ite | apply Keeps.ite_snd | apply Keeps.forN | apply Keeps.getD | apply Keeps.elim | apply Keeps.foldl | apply Keeps.foldl_snd | apply Keeps.foldl_third | apply Keeps.foldl_fst
    | dsimp only
    | simp only [Keeps.upd_iff]
    | split
    | refine Keeps.of_pair (by assumption) ?_
    | refine Keeps.of_triple (by assumption) ?_
    | refine Keeps.of_fst (by assumption) ?_
    | refine Keeps.of_some (by assumption) ?_
    | refine Keeps.of_ok (by assumption) ?_

theorem queueEnable_keeps {s₀ s : State} {x1} {x2} {x3} (h : Keeps s₀ s) :
    Keeps s₀ (queueEnable s x1 x2 x3) := by
  unfold queueEnable
  repeat' first
    | intro _
    | with_reducible assumption
    | with_reducible first | apply State.updHub_keeps | apply State.put_keeps
    | with_reducible first | apply Keeps.ite | apply Keeps.ite_snd | apply Keeps.forN | apply Keeps.getD | apply Keeps.elim | apply Keeps.foldl | apply Keeps.foldl_snd | apply Keeps.foldl_third | apply Keeps.foldl_fst
    | dsimp only
    | simp only [Keeps.upd_iff]
    | split
    | refine Keeps.of_pair (by assumption) ?_
    | refine Keeps.of_triple (by assumption) ?_
    | refine Keeps.of_fst (by assumption) ?_
    | refine Keeps.of_some (by assumption) ?_
    | refine Keeps.of_ok (by assumption) ?_

theorem execQCtrlWrite_keeps {s₀ s : State} {x0} {x1} {x2} {x3} (h : Keeps s₀ s) :
    OutKeeps s₀ (execQCtrlWrite x0 x1 x2 x3 s) := by
  unfold execQCtrlWrite
  repeat' first
    | intro _
    | with_reducible assumption
    | with_reducible first | apply queueEnable_keeps
    | with_reducible first | apply Keeps.ite | apply Keeps.ite_snd | apply Keeps.out | apply Keeps.out_fault | apply Keeps.out_refused | apply Keeps.forN | apply Keeps.getD | apply Keeps.elim | apply Keeps.foldl | apply Keeps.foldl_snd | apply Keeps.foldl_third | apply Keeps.foldl_fst
    | dsimp only
    | simp only [Keeps.upd_iff]
    | split
    | refine Keeps.of_pair (by assumption) ?_
    | refine Keeps.of_triple (by assumption) ?_
    | refine Keeps.of_fst (by assumption) ?_
    | refine Keeps.of_some (by assumption) ?_
    | refine Keeps.of_ok (by assumption) ?_

theorem updLive_keeps {s₀ s : State} {x1} {x2} {x3} (h : Keeps s₀ s) :
    Keeps s₀ (updLive s x1 x2 x3) := by
  unfold updLive
  repeat' first
    | intro _
    | with_reducible assumption
    | with_reducible first | apply State.updHub_keeps
    | with_reducible first | apply Keeps.ite | apply Keeps.ite_snd | apply Keeps.forN | apply Keeps.getD | apply Keeps.elim | apply Keeps.foldl | apply Keeps.foldl_snd | apply Keeps.foldl_third | apply Keeps.foldl_fst
    | dsimp only
    | simp only [Keeps.upd_iff]
    | split
    | refine Keeps.of_pair (by assumption) ?_
    | refine Keeps.of_triple (by assumption) ?_
    | refine Keeps.of_fst (by assumption) ?_
    | refine Keeps.of_some (by assumption) ?_
    | refine Keeps.of_ok (by assumption) ?_

theorem fifoPop_keeps {s₀ s : State} {x1} {x2} (h : Keeps s₀ s) :
    Keeps s₀ (fifoPop s x1 x2) := by
  unfold fifoPop
  repeat' first
    | intro _
    | with_reducible assumption
    | with_reducible first | apply State.updHub_keeps
    | with_reducible first | apply Keeps.ite | apply Keeps.ite_snd | apply Keeps.forN | apply Keeps.getD | apply Keeps.elim | apply Keeps.foldl | apply Keeps.foldl_snd | apply Keeps.foldl_third | apply Keeps.foldl_fst
    | dsimp only
    | simp only [Keeps.upd_iff]
    | split
    | refine Keeps.of_pair (by assumption) ?_
    | refine Keeps.of_triple (by assumption) ?_
    | refine Keeps.of_fst (by assumption) ?_
    | refine Keeps.of_some (by assumption) ?_
    | refine Keeps.of_ok (by assumption) ?_

theorem signalToken_keeps {s₀ s : State} {x1} {x2} {x3} {x4} {x5} (h : Keeps s₀ s) :
    Keeps s₀ (signalToken s x1 x2 x3 x4 x5) := by
  unfold signalToken
  repeat' first
    | intro _
    | with_reducible assumption
    | with_reducible first | apply State.put_keeps | apply raiseErr_keeps
    | with_reducible first | apply Keeps.ite | apply Keeps.ite_snd | apply Keeps.forN | apply Keeps.getD | apply Keeps.elim | apply Keeps.foldl | apply Keeps.foldl_snd | apply Keeps.foldl_third | apply Keeps.foldl_fst
    | dsimp only
    | simp only [Keeps.upd_iff]
    | split
    | refine Keeps.of_pair (by assumption) ?_
    | refine Keeps.of_triple (by assumption) ?_
    | refine Keeps.of_fst (by assumption) ?_
    | refine Keeps.of_some (by assumption) ?_
    | refine Keeps.of_ok (by assumption) ?_

theorem fifoDrop_keeps {s₀ s : State} {x1} {x2} {x3} (h : Keeps s₀ s) :
    Keeps s₀ (fifoDrop s x1 x2 x3) := by
  unfold fifoDrop
  repeat' first
    | intro _
    | with_reducible assumption
    | with_reducible first | apply State.updHub_keeps
    | with_reducible first | apply Keeps.ite | apply Keeps.ite_snd | apply Keeps.forN | apply Keeps.getD | apply Keeps.elim | apply Keeps.foldl | apply Keeps.foldl_snd | apply Keeps.foldl_third | apply Keeps.foldl_fst
    | dsimp only
    | simp only [Keeps.upd_iff]
    | split
    | refine Keeps.of_pair (by assumption) ?_
    | refine Keeps.of_triple (by assumption) ?_
    | refine Keeps.of_fst (by assumption) ?_
    | refine Keeps.of_some (by assumption) ?_
    | refine Keeps.of_ok (by assumption) ?_

theorem pushLive_keeps {s₀ s : State} {x1} {x2} {x3} (h : Keeps s₀ s) :
    Keeps s₀ (pushLive s x1 x2 x3) := by
  unfold pushLive
  repeat' first
    | intro _
    | with_reducible assumption
    | with_reducible first | apply State.updHub_keeps
    | with_reducible first | apply Keeps.ite | apply Keeps.ite_snd | apply Keeps.forN | apply Keeps.getD | apply Keeps.elim | apply Keeps.foldl | apply Keeps.foldl_snd | apply Keeps.foldl_third | apply Keeps.foldl_fst
    | dsimp only
    | simp only [Keeps.upd_iff]
    | split
    | refine Keeps.of_pair (by assumption) ?_
    | refine Keeps.of_triple (by assumption) ?_
    | refine Keeps.of_fst (by assumption) ?_
    | refine Keeps.of_some (by assumption) ?_
    | refine Keeps.of_ok (by assumption) ?_

theorem fetchOne_keeps {s₀ s : State} {x1} {x2} (h : Keeps s₀ s) :
    Keeps s₀ (fetchOne s x1 x2) := by
  unfold fetchOne
  repeat' first
    | intro _
    | with_reducible assumption
    | with_reducible first | apply State.put_keeps | apply pushLive_keeps | apply readMem_keeps | apply State.updHub_keeps | apply raiseErr_keeps
    | with_reducible first | apply Keeps.ite | apply Keeps.ite_snd | apply Keeps.forN | apply Keeps.getD | apply Keeps.elim | apply Keeps.foldl | apply Keeps.foldl_snd | apply Keeps.foldl_third | apply Keeps.foldl_fst
    | dsimp only
    | simp only [Keeps.upd_iff]
    | split
    | refine Keeps.of_pair (by assumption) ?_
    | refine Keeps.of_triple (by assumption) ?_
    | refine Keeps.of_fst (by assumption) ?_
    | refine Keeps.of_some (by assumption) ?_
    | refine Keeps.of_ok (by assumption) ?_

theorem oweTerm_keeps {s₀ s : State} {x1} {x2} {x3} {x4} (h : Keeps s₀ s) :
    Keeps s₀ (oweTerm s x1 x2 x3 x4) := by
  unfold oweTerm
  repeat' first
    | intro _
    | with_reducible assumption
    | with_reducible first | apply State.setCluster_keeps
    | with_reducible first | apply Keeps.ite | apply Keeps.ite_snd | apply Keeps.forN | apply Keeps.getD | apply Keeps.elim | apply Keeps.foldl | apply Keeps.foldl_snd | apply Keeps.foldl_third | apply Keeps.foldl_fst
    | dsimp only
    | simp only [Keeps.upd_iff]
    | split
    | refine Keeps.of_pair (by assumption) ?_
    | refine Keeps.of_triple (by assumption) ?_
    | refine Keeps.of_fst (by assumption) ?_
    | refine Keeps.of_some (by assumption) ?_
    | refine Keeps.of_ok (by assumption) ?_

theorem signalArrives_keeps {s₀ s : State} {x1} {x2} (h : Keeps s₀ s) :
    Keeps s₀ (signalArrives s x1 x2) := by
  unfold signalArrives
  repeat' first
    | intro _
    | with_reducible assumption
    | with_reducible first | apply signalToken_keeps
    | with_reducible first | apply Keeps.ite | apply Keeps.ite_snd | apply Keeps.forN | apply Keeps.getD | apply Keeps.elim | apply Keeps.foldl | apply Keeps.foldl_snd | apply Keeps.foldl_third | apply Keeps.foldl_fst
    | dsimp only
    | simp only [Keeps.upd_iff]
    | split
    | refine Keeps.of_pair (by assumption) ?_
    | refine Keeps.of_triple (by assumption) ?_
    | refine Keeps.of_fst (by assumption) ?_
    | refine Keeps.of_some (by assumption) ?_
    | refine Keeps.of_ok (by assumption) ?_

theorem doorbell_keeps {s₀ s : State} {x1} {x2} {x3} (h : Keeps s₀ s) :
    Keeps s₀ (doorbell s x1 x2 x3) := by
  unfold doorbell
  repeat' first
    | intro _
    | with_reducible assumption
    | with_reducible first | apply State.put_keeps
    | with_reducible first | apply Keeps.ite | apply Keeps.ite_snd | apply Keeps.forN | apply Keeps.getD | apply Keeps.elim | apply Keeps.foldl | apply Keeps.foldl_snd | apply Keeps.foldl_third | apply Keeps.foldl_fst
    | dsimp only
    | simp only [Keeps.upd_iff]
    | split
    | refine Keeps.of_pair (by assumption) ?_
    | refine Keeps.of_triple (by assumption) ?_
    | refine Keeps.of_fst (by assumption) ?_
    | refine Keeps.of_some (by assumption) ?_
    | refine Keeps.of_ok (by assumption) ?_

theorem execCommandFetch_keeps {s₀ s : State} {x0} {x1} (h : Keeps s₀ s) :
    OutKeeps s₀ (execCommandFetch x0 x1 s) := by
  unfold execCommandFetch
  repeat' first
    | intro _
    | with_reducible assumption
    | with_reducible first | apply fetchOne_keeps
    | with_reducible first | apply Keeps.ite | apply Keeps.ite_snd | apply Keeps.out | apply Keeps.out_fault | apply Keeps.out_refused | apply Keeps.forN | apply Keeps.getD | apply Keeps.elim | apply Keeps.foldl | apply Keeps.foldl_snd | apply Keeps.foldl_third | apply Keeps.foldl_fst
    | dsimp only
    | simp only [Keeps.upd_iff]
    | split
    | refine Keeps.of_pair (by assumption) ?_
    | refine Keeps.of_triple (by assumption) ?_
    | refine Keeps.of_fst (by assumption) ?_
    | refine Keeps.of_some (by assumption) ?_
    | refine Keeps.of_ok (by assumption) ?_

theorem pickWrite_keeps {s₀ s : State} {x1} (h : Keeps s₀ s) :
    Keeps s₀ (pickWrite s x1).2 := by
  unfold pickWrite
  repeat' first
    | intro _
    | with_reducible assumption
    | with_reducible first | apply State.pick_keeps | apply State.tock_keeps
    | with_reducible first | apply Keeps.ite | apply Keeps.ite_snd | apply Keeps.some | apply Keeps.none | apply Keeps.forN | apply Keeps.getD | apply Keeps.elim | apply Keeps.foldl | apply Keeps.foldl_snd | apply Keeps.foldl_third | apply Keeps.foldl_fst
    | dsimp only
    | simp only [Keeps.upd_iff]
    | split
    | refine Keeps.of_pair (by assumption) ?_
    | refine Keeps.of_triple (by assumption) ?_
    | refine Keeps.of_fst (by assumption) ?_
    | refine Keeps.of_some (by assumption) ?_
    | refine Keeps.of_ok (by assumption) ?_

theorem writeRecord_keeps {s₀ s : State} {x1} {x2} {x3} {x4} {x5} (h : Keeps s₀ s) :
    Keeps s₀ (writeRecord s x1 x2 x3 x4 x5) := by
  unfold writeRecord
  repeat' first
    | intro _
    | with_reducible assumption
    | with_reducible first | apply raiseErr_keeps | apply State.put_keeps | apply writeMem_keeps | apply pushEvent_keeps
    | with_reducible first | apply Keeps.ite | apply Keeps.ite_snd | apply Keeps.forN | apply Keeps.getD | apply Keeps.elim | apply Keeps.foldl | apply Keeps.foldl_snd | apply Keeps.foldl_third | apply Keeps.foldl_fst
    | dsimp only
    | simp only [Keeps.upd_iff]
    | split
    | refine Keeps.of_pair (by assumption) ?_
    | refine Keeps.of_triple (by assumption) ?_
    | refine Keeps.of_fst (by assumption) ?_
    | refine Keeps.of_some (by assumption) ?_
    | refine Keeps.of_ok (by assumption) ?_

theorem sendSignal_keeps {s₀ s : State} {x1} {x2} {x3} {x4} {x5} {x6} (h : Keeps s₀ s) :
    Keeps s₀ (sendSignal s x1 x2 x3 x4 x5 x6) := by
  unfold sendSignal
  repeat' first
    | intro _
    | with_reducible assumption
    | with_reducible first | apply signalToken_keeps | apply newTag_keeps | apply inject_keeps
    | with_reducible first | apply Keeps.ite | apply Keeps.ite_snd | apply Keeps.forN | apply Keeps.getD | apply Keeps.elim | apply Keeps.foldl | apply Keeps.foldl_snd | apply Keeps.foldl_third | apply Keeps.foldl_fst
    | dsimp only
    | simp only [Keeps.upd_iff]
    | split
    | refine Keeps.of_pair (by assumption) ?_
    | refine Keeps.of_triple (by assumption) ?_
    | refine Keeps.of_fst (by assumption) ?_
    | refine Keeps.of_some (by assumption) ?_
    | refine Keeps.of_ok (by assumption) ?_

theorem execRecordVisible_keeps {s₀ s : State} {x0} (h : Keeps s₀ s) :
    OutKeeps s₀ (execRecordVisible x0 s) := by
  unfold execRecordVisible
  repeat' first
    | intro _
    | with_reducible assumption
    | with_reducible first | apply pickWrite_keeps | apply State.updHub_keeps | apply writeRecord_keeps | apply sendSignal_keeps
    | with_reducible first | apply Keeps.ite | apply Keeps.ite_snd | apply Keeps.out | apply Keeps.out_fault | apply Keeps.out_refused | apply Keeps.forN | apply Keeps.getD | apply Keeps.elim | apply Keeps.foldl | apply Keeps.foldl_snd | apply Keeps.foldl_third | apply Keeps.foldl_fst
    | dsimp only
    | simp only [Keeps.upd_iff]
    | split
    | refine Keeps.of_pair (by assumption) ?_
    | refine Keeps.of_triple (by assumption) ?_
    | refine Keeps.of_fst (by assumption) ?_
    | refine Keeps.of_some (by assumption) ?_
    | refine Keeps.of_ok (by assumption) ?_

theorem endEffects_keeps {s₀ s : State} {x1} {x2} {x3} {x4} (h : Keeps s₀ s) :
    Keeps s₀ (endEffects s x1 x2 x3 x4) := by
  unfold endEffects
  repeat' first
    | intro _
    | with_reducible assumption
    | with_reducible first | apply faultStep_keeps | apply State.setFlow_keeps | apply raiseErr_keeps
    | with_reducible first | apply Keeps.ite | apply Keeps.ite_snd | apply Keeps.forN | apply Keeps.getD | apply Keeps.elim | apply Keeps.foldl | apply Keeps.foldl_snd | apply Keeps.foldl_third | apply Keeps.foldl_fst
    | dsimp only
    | simp only [Keeps.upd_iff]
    | split
    | refine Keeps.of_pair (by assumption) ?_
    | refine Keeps.of_triple (by assumption) ?_
    | refine Keeps.of_fst (by assumption) ?_
    | refine Keeps.of_some (by assumption) ?_
    | refine Keeps.of_ok (by assumption) ?_

theorem queueBase_keeps {s₀ s : State} {x1} {x2} {x3} (h : Keeps s₀ s) :
    Keeps s₀ (queueBase s x1 x2 x3) := by
  unfold queueBase
  repeat' first
    | intro _
    | with_reducible assumption
    | with_reducible first | apply State.put_keeps
    | with_reducible first | apply Keeps.ite | apply Keeps.ite_snd | apply Keeps.forN | apply Keeps.getD | apply Keeps.elim | apply Keeps.foldl | apply Keeps.foldl_snd | apply Keeps.foldl_third | apply Keeps.foldl_fst
    | dsimp only
    | simp only [Keeps.upd_iff]
    | split
    | refine Keeps.of_pair (by assumption) ?_
    | refine Keeps.of_triple (by assumption) ?_
    | refine Keeps.of_fst (by assumption) ?_
    | refine Keeps.of_some (by assumption) ?_
    | refine Keeps.of_ok (by assumption) ?_

theorem execQBaseWrite_keeps {s₀ s : State} {x0} {x1} {x2} {x3} (h : Keeps s₀ s) :
    OutKeeps s₀ (execQBaseWrite x0 x1 x2 x3 s) := by
  unfold execQBaseWrite
  repeat' first
    | intro _
    | with_reducible assumption
    | with_reducible first | apply queueBase_keeps
    | with_reducible first | apply Keeps.ite | apply Keeps.ite_snd | apply Keeps.out | apply Keeps.out_fault | apply Keeps.out_refused | apply Keeps.forN | apply Keeps.getD | apply Keeps.elim | apply Keeps.foldl | apply Keeps.foldl_snd | apply Keeps.foldl_third | apply Keeps.foldl_fst
    | dsimp only
    | simp only [Keeps.upd_iff]
    | split
    | refine Keeps.of_pair (by assumption) ?_
    | refine Keeps.of_triple (by assumption) ?_
    | refine Keeps.of_fst (by assumption) ?_
    | refine Keeps.of_some (by assumption) ?_
    | refine Keeps.of_ok (by assumption) ?_

theorem execDoorbell_keeps {s₀ s : State} {x0} {x1} {x2} {x3} (h : Keeps s₀ s) :
    OutKeeps s₀ (execDoorbell x0 x1 x2 x3 s) := by
  unfold execDoorbell
  repeat' first
    | intro _
    | with_reducible assumption
    | with_reducible first | apply doorbell_keeps
    | with_reducible first | apply Keeps.ite | apply Keeps.ite_snd | apply Keeps.out | apply Keeps.out_fault | apply Keeps.out_refused | apply Keeps.forN | apply Keeps.getD | apply Keeps.elim | apply Keeps.foldl | apply Keeps.foldl_snd | apply Keeps.foldl_third | apply Keeps.foldl_fst
    | dsimp only
    | simp only [Keeps.upd_iff]
    | split
    | refine Keeps.of_pair (by assumption) ?_
    | refine Keeps.of_triple (by assumption) ?_
    | refine Keeps.of_fst (by assumption) ?_
    | refine Keeps.of_some (by assumption) ?_
    | refine Keeps.of_ok (by assumption) ?_

theorem cqBase_keeps {s₀ s : State} {x1} {x2} {x3} (h : Keeps s₀ s) :
    Keeps s₀ (cqBase s x1 x2 x3) := by
  unfold cqBase
  repeat' first
    | intro _
    | with_reducible assumption
    | with_reducible first | apply State.put_keeps
    | with_reducible first | apply Keeps.ite | apply Keeps.ite_snd | apply Keeps.forN | apply Keeps.getD | apply Keeps.elim | apply Keeps.foldl | apply Keeps.foldl_snd | apply Keeps.foldl_third | apply Keeps.foldl_fst
    | dsimp only
    | simp only [Keeps.upd_iff]
    | split
    | refine Keeps.of_pair (by assumption) ?_
    | refine Keeps.of_triple (by assumption) ?_
    | refine Keeps.of_fst (by assumption) ?_
    | refine Keeps.of_some (by assumption) ?_
    | refine Keeps.of_ok (by assumption) ?_

theorem execCqBaseWrite_keeps {s₀ s : State} {x0} {x1} {x2} (h : Keeps s₀ s) :
    OutKeeps s₀ (execCqBaseWrite x0 x1 x2 s) := by
  unfold execCqBaseWrite
  repeat' first
    | intro _
    | with_reducible assumption
    | with_reducible first | apply cqBase_keeps
    | with_reducible first | apply Keeps.ite | apply Keeps.ite_snd | apply Keeps.out | apply Keeps.out_fault | apply Keeps.out_refused | apply Keeps.forN | apply Keeps.getD | apply Keeps.elim | apply Keeps.foldl | apply Keeps.foldl_snd | apply Keeps.foldl_third | apply Keeps.foldl_fst
    | dsimp only
    | simp only [Keeps.upd_iff]
    | split
    | refine Keeps.of_pair (by assumption) ?_
    | refine Keeps.of_triple (by assumption) ?_
    | refine Keeps.of_fst (by assumption) ?_
    | refine Keeps.of_some (by assumption) ?_
    | refine Keeps.of_ok (by assumption) ?_

theorem cqCtrl_keeps {s₀ s : State} {x1} {x2} {x3} (h : Keeps s₀ s) :
    Keeps s₀ (cqCtrl s x1 x2 x3) := by
  unfold cqCtrl
  repeat' first
    | intro _
    | with_reducible assumption
    | with_reducible first | apply State.put_keeps
    | with_reducible first | apply Keeps.ite | apply Keeps.ite_snd | apply Keeps.forN | apply Keeps.getD | apply Keeps.elim | apply Keeps.foldl | apply Keeps.foldl_snd | apply Keeps.foldl_third | apply Keeps.foldl_fst
    | dsimp only
    | simp only [Keeps.upd_iff]
    | split
    | refine Keeps.of_pair (by assumption) ?_
    | refine Keeps.of_triple (by assumption) ?_
    | refine Keeps.of_fst (by assumption) ?_
    | refine Keeps.of_some (by assumption) ?_
    | refine Keeps.of_ok (by assumption) ?_

theorem execCqCtrlWrite_keeps {s₀ s : State} {x0} {x1} {x2} (h : Keeps s₀ s) :
    OutKeeps s₀ (execCqCtrlWrite x0 x1 x2 s) := by
  unfold execCqCtrlWrite
  repeat' first
    | intro _
    | with_reducible assumption
    | with_reducible first | apply cqCtrl_keeps
    | with_reducible first | apply Keeps.ite | apply Keeps.ite_snd | apply Keeps.out | apply Keeps.out_fault | apply Keeps.out_refused | apply Keeps.forN | apply Keeps.getD | apply Keeps.elim | apply Keeps.foldl | apply Keeps.foldl_snd | apply Keeps.foldl_third | apply Keeps.foldl_fst
    | dsimp only
    | simp only [Keeps.upd_iff]
    | split
    | refine Keeps.of_pair (by assumption) ?_
    | refine Keeps.of_triple (by assumption) ?_
    | refine Keeps.of_fst (by assumption) ?_
    | refine Keeps.of_some (by assumption) ?_
    | refine Keeps.of_ok (by assumption) ?_

theorem cqHead_keeps {s₀ s : State} {x1} {x2} {x3} (h : Keeps s₀ s) :
    Keeps s₀ (cqHead s x1 x2 x3) := by
  unfold cqHead
  repeat' first
    | intro _
    | with_reducible assumption
    | with_reducible first | apply State.put_keeps
    | with_reducible first | apply Keeps.ite | apply Keeps.ite_snd | apply Keeps.forN | apply Keeps.getD | apply Keeps.elim | apply Keeps.foldl | apply Keeps.foldl_snd | apply Keeps.foldl_third | apply Keeps.foldl_fst
    | dsimp only
    | simp only [Keeps.upd_iff]
    | split
    | refine Keeps.of_pair (by assumption) ?_
    | refine Keeps.of_triple (by assumption) ?_
    | refine Keeps.of_fst (by assumption) ?_
    | refine Keeps.of_some (by assumption) ?_
    | refine Keeps.of_ok (by assumption) ?_

theorem execCqHeadWrite_keeps {s₀ s : State} {x0} {x1} {x2} (h : Keeps s₀ s) :
    OutKeeps s₀ (execCqHeadWrite x0 x1 x2 s) := by
  unfold execCqHeadWrite
  repeat' first
    | intro _
    | with_reducible assumption
    | with_reducible first | apply cqHead_keeps
    | with_reducible first | apply Keeps.ite | apply Keeps.ite_snd | apply Keeps.out | apply Keeps.out_fault | apply Keeps.out_refused | apply Keeps.forN | apply Keeps.getD | apply Keeps.elim | apply Keeps.foldl | apply Keeps.foldl_snd | apply Keeps.foldl_third | apply Keeps.foldl_fst
    | dsimp only
    | simp only [Keeps.upd_iff]
    | split
    | refine Keeps.of_pair (by assumption) ?_
    | refine Keeps.of_triple (by assumption) ?_
    | refine Keeps.of_fst (by assumption) ?_
    | refine Keeps.of_some (by assumption) ?_
    | refine Keeps.of_ok (by assumption) ?_

theorem programEnd_keeps {s₀ s : State} {x1} {x2} (h : Keeps s₀ s) :
    Keeps s₀ (programEnd s x1 x2) := by
  unfold programEnd
  repeat' first
    | intro _
    | with_reducible assumption
    | with_reducible first | apply State.updHub_keeps | apply State.put_keeps
    | with_reducible first | apply Keeps.ite | apply Keeps.ite_snd | apply Keeps.forN | apply Keeps.getD | apply Keeps.elim | apply Keeps.foldl | apply Keeps.foldl_snd | apply Keeps.foldl_third | apply Keeps.foldl_fst
    | dsimp only
    | simp only [Keeps.upd_iff]
    | split
    | refine Keeps.of_pair (by assumption) ?_
    | refine Keeps.of_triple (by assumption) ?_
    | refine Keeps.of_fst (by assumption) ?_
    | refine Keeps.of_some (by assumption) ?_
    | refine Keeps.of_ok (by assumption) ?_

theorem consumeWaits_keeps {s₀ s : State} {x1} {x2} (h : Keeps s₀ s) :
    Keeps s₀ (consumeWaits s x1 x2) := by
  unfold consumeWaits
  repeat' first
    | intro _
    | with_reducible assumption
    | with_reducible first | apply State.put_keeps
    | with_reducible first | apply Keeps.ite | apply Keeps.ite_snd | apply Keeps.forN | apply Keeps.getD | apply Keeps.elim | apply Keeps.foldl | apply Keeps.foldl_snd | apply Keeps.foldl_third | apply Keeps.foldl_fst
    | dsimp only
    | simp only [Keeps.upd_iff]
    | split
    | refine Keeps.of_pair (by assumption) ?_
    | refine Keeps.of_triple (by assumption) ?_
    | refine Keeps.of_fst (by assumption) ?_
    | refine Keeps.of_some (by assumption) ?_
    | refine Keeps.of_ok (by assumption) ?_

theorem execHubToken_keeps {s₀ s : State} {x0} (h : Keeps s₀ s) :
    OutKeeps s₀ (execHubToken x0 s) := by
  unfold execHubToken
  repeat' first
    | intro _
    | with_reducible assumption
    | with_reducible first | apply State.put_keeps | apply finish_keeps | apply fifoPop_keeps
    | with_reducible first | apply Keeps.ite | apply Keeps.ite_snd | apply Keeps.out | apply Keeps.out_fault | apply Keeps.out_refused | apply Keeps.forN | apply Keeps.getD | apply Keeps.elim | apply Keeps.foldl | apply Keeps.foldl_snd | apply Keeps.foldl_third | apply Keeps.foldl_fst
    | dsimp only
    | simp only [Keeps.upd_iff]
    | split
    | refine Keeps.of_pair (by assumption) ?_
    | refine Keeps.of_triple (by assumption) ?_
    | refine Keeps.of_fst (by assumption) ?_
    | refine Keeps.of_some (by assumption) ?_
    | refine Keeps.of_ok (by assumption) ?_

theorem hubTerminator_keeps {s₀ s : State} {x1} {x2} {x3} (h : Keeps s₀ s) :
    Keeps s₀ (hubTerminator s x1 x2 x3) := by
  unfold hubTerminator
  repeat' first
    | intro _
    | with_reducible assumption
    | with_reducible first | apply oweTerm_keeps
    | with_reducible first | apply Keeps.ite | apply Keeps.ite_snd | apply Keeps.forN | apply Keeps.getD | apply Keeps.elim | apply Keeps.foldl | apply Keeps.foldl_snd | apply Keeps.foldl_third | apply Keeps.foldl_fst
    | dsimp only
    | simp only [Keeps.upd_iff]
    | split
    | refine Keeps.of_pair (by assumption) ?_
    | refine Keeps.of_triple (by assumption) ?_
    | refine Keeps.of_fst (by assumption) ?_
    | refine Keeps.of_some (by assumption) ?_
    | refine Keeps.of_ok (by assumption) ?_

theorem execHubNop_keeps {s₀ s : State} {x0} (h : Keeps s₀ s) :
    OutKeeps s₀ (execHubNop x0 s) := by
  unfold execHubNop
  repeat' first
    | intro _
    | with_reducible assumption
    | with_reducible first | apply finish_keeps | apply fifoPop_keeps
    | with_reducible first | apply Keeps.ite | apply Keeps.ite_snd | apply Keeps.out | apply Keeps.out_fault | apply Keeps.out_refused | apply Keeps.forN | apply Keeps.getD | apply Keeps.elim | apply Keeps.foldl | apply Keeps.foldl_snd | apply Keeps.foldl_third | apply Keeps.foldl_fst
    | dsimp only
    | simp only [Keeps.upd_iff]
    | split
    | refine Keeps.of_pair (by assumption) ?_
    | refine Keeps.of_triple (by assumption) ?_
    | refine Keeps.of_fst (by assumption) ?_
    | refine Keeps.of_some (by assumption) ?_
    | refine Keeps.of_ok (by assumption) ?_

theorem execHubStep_keeps {s₀ s : State} {x0} (h : Keeps s₀ s) :
    OutKeeps s₀ (execHubStep x0 s) := by
  unfold execHubStep
  repeat' first
    | intro _
    | with_reducible assumption
    | with_reducible first | apply finish_keeps | apply fifoPop_keeps | apply State.put_keeps | apply advanceStep_keeps
    | with_reducible first | apply Keeps.ite | apply Keeps.ite_snd | apply Keeps.out | apply Keeps.out_fault | apply Keeps.out_refused | apply Keeps.forN | apply Keeps.getD | apply Keeps.elim | apply Keeps.foldl | apply Keeps.foldl_snd | apply Keeps.foldl_third | apply Keeps.foldl_fst
    | dsimp only
    | simp only [Keeps.upd_iff]
    | split
    | refine Keeps.of_pair (by assumption) ?_
    | refine Keeps.of_triple (by assumption) ?_
    | refine Keeps.of_fst (by assumption) ?_
    | refine Keeps.of_some (by assumption) ?_
    | refine Keeps.of_ok (by assumption) ?_

theorem issueWrite_keeps {s₀ s : State} {x1} {x2} (h : Keeps s₀ s) :
    Keeps s₀ (issueWrite s x1 x2) := by
  unfold issueWrite
  repeat' first
    | intro _
    | with_reducible assumption
    | with_reducible first | apply State.updHub_keeps
    | with_reducible first | apply Keeps.ite | apply Keeps.ite_snd | apply Keeps.forN | apply Keeps.getD | apply Keeps.elim | apply Keeps.foldl | apply Keeps.foldl_snd | apply Keeps.foldl_third | apply Keeps.foldl_fst
    | dsimp only
    | simp only [Keeps.upd_iff]
    | split
    | refine Keeps.of_pair (by assumption) ?_
    | refine Keeps.of_triple (by assumption) ?_
    | refine Keeps.of_fst (by assumption) ?_
    | refine Keeps.of_some (by assumption) ?_
    | refine Keeps.of_ok (by assumption) ?_

theorem execRetireGrant_keeps {s₀ s : State} {x0} (h : Keeps s₀ s) :
    OutKeeps s₀ (execRetireGrant x0 s) := by
  unfold execRetireGrant
  repeat' first
    | intro _
    | with_reducible assumption
    | with_reducible first | apply State.updHub_keeps | apply endEffects_keeps | apply State.stamp_keeps | apply issueWrite_keeps | apply State.put_keeps | apply State.bump_keeps | apply State.tock_keeps
    | with_reducible first | apply Keeps.ite | apply Keeps.ite_snd | apply Keeps.out | apply Keeps.out_fault | apply Keeps.out_refused | apply Keeps.forN | apply Keeps.getD | apply Keeps.elim | apply Keeps.foldl | apply Keeps.foldl_snd | apply Keeps.foldl_third | apply Keeps.foldl_fst
    | dsimp only
    | simp only [Keeps.upd_iff]
    | split
    | refine Keeps.of_pair (by assumption) ?_
    | refine Keeps.of_triple (by assumption) ?_
    | refine Keeps.of_fst (by assumption) ?_
    | refine Keeps.of_some (by assumption) ?_
    | refine Keeps.of_ok (by assumption) ?_

theorem execWaitTimeout_keeps {s₀ s : State} {x0} {x1} (h : Keeps s₀ s) :
    OutKeeps s₀ (execWaitTimeout x0 x1 s) := by
  unfold execWaitTimeout
  repeat' first
    | intro _
    | with_reducible assumption
    | with_reducible first | apply updLive_keeps | apply State.put_keeps | apply raiseErr_keeps
    | with_reducible first | apply Keeps.ite | apply Keeps.ite_snd | apply Keeps.out | apply Keeps.out_fault | apply Keeps.out_refused | apply Keeps.forN | apply Keeps.getD | apply Keeps.elim | apply Keeps.foldl | apply Keeps.foldl_snd | apply Keeps.foldl_third | apply Keeps.foldl_fst
    | dsimp only
    | simp only [Keeps.upd_iff]
    | split
    | refine Keeps.of_pair (by assumption) ?_
    | refine Keeps.of_triple (by assumption) ?_
    | refine Keeps.of_fst (by assumption) ?_
    | refine Keeps.of_some (by assumption) ?_
    | refine Keeps.of_ok (by assumption) ?_

theorem execStepIncrement_keeps {s₀ s : State} {x0} (h : Keeps s₀ s) :
    OutKeeps s₀ (execStepIncrement x0 s) := by
  unfold execStepIncrement
  repeat' first
    | intro _
    | with_reducible assumption
    | with_reducible first | apply State.put_keeps | apply advanceStep_keeps | apply State.updHub_keeps
    | with_reducible first | apply Keeps.ite | apply Keeps.ite_snd | apply Keeps.out | apply Keeps.out_fault | apply Keeps.out_refused | apply Keeps.forN | apply Keeps.getD | apply Keeps.elim | apply Keeps.foldl | apply Keeps.foldl_snd | apply Keeps.foldl_third | apply Keeps.foldl_fst
    | dsimp only
    | simp only [Keeps.upd_iff]
    | split
    | refine Keeps.of_pair (by assumption) ?_
    | refine Keeps.of_triple (by assumption) ?_
    | refine Keeps.of_fst (by assumption) ?_
    | refine Keeps.of_some (by assumption) ?_
    | refine Keeps.of_ok (by assumption) ?_

end Sys2Proof.Machine
end

