-- ==== Sys2Proof/Laws/KeepsNetOps.lean ====
section
/-! SUPPORT. What no operation of NetOps.lean touches or breaks. -/
namespace Sys2Proof.Machine

theorem State.setSec_keeps {s₀ s : State} {x1} {x2} {x3} (h : Keeps s₀ s) :
    Keeps s₀ (State.setSec s x1 x2 x3) := by
  unfold State.setSec
  repeat' first
    | intro _
    | with_reducible assumption
    | with_reducible first | apply Keeps.ite | apply Keeps.ite_snd | apply Keeps.forN | apply Keeps.getD | apply Keeps.elim | apply Keeps.foldl | apply Keeps.foldl_snd | apply Keeps.foldl_third | apply Keeps.foldl_fst
    | dsimp only
    | simp only [Keeps.upd_iff]
    | split
    | refine Keeps.of_pair (by assumption) ?_
    | refine Keeps.of_triple (by assumption) ?_
    | refine Keeps.of_fst (by assumption) ?_
    | refine Keeps.of_some (by assumption) ?_
    | refine Keeps.of_ok (by assumption) ?_

theorem leave_keeps {s₀ s : State} {x1} {x2} (h : Keeps s₀ s) :
    Keeps s₀ (leave s x1 x2) := by
  unfold leave
  repeat' first
    | intro _
    | with_reducible assumption
    | with_reducible first | apply emit_keeps | apply State.setSec_keeps
    | with_reducible first | apply Keeps.ite | apply Keeps.ite_snd | apply Keeps.forN | apply Keeps.getD | apply Keeps.elim | apply Keeps.foldl | apply Keeps.foldl_snd | apply Keeps.foldl_third | apply Keeps.foldl_fst
    | dsimp only
    | simp only [Keeps.upd_iff]
    | split
    | refine Keeps.of_pair (by assumption) ?_
    | refine Keeps.of_triple (by assumption) ?_
    | refine Keeps.of_fst (by assumption) ?_
    | refine Keeps.of_some (by assumption) ?_
    | refine Keeps.of_ok (by assumption) ?_

theorem sendOn_keeps {s₀ s : State} {x1} {x2} {x3} (h : Keeps s₀ s) :
    Keeps s₀ (sendOn s x1 x2 x3) := by
  unfold sendOn
  repeat' first
    | intro _
    | with_reducible assumption
    | with_reducible first | apply leave_keeps
    | with_reducible first | apply Keeps.ite | apply Keeps.ite_snd | apply Keeps.forN | apply Keeps.getD | apply Keeps.elim | apply Keeps.foldl | apply Keeps.foldl_snd | apply Keeps.foldl_third | apply Keeps.foldl_fst
    | dsimp only
    | simp only [Keeps.upd_iff]
    | split
    | refine Keeps.of_pair (by assumption) ?_
    | refine Keeps.of_triple (by assumption) ?_
    | refine Keeps.of_fst (by assumption) ?_
    | refine Keeps.of_some (by assumption) ?_
    | refine Keeps.of_ok (by assumption) ?_

theorem sendReq_keeps {s₀ s : State} {x1} {x2} (h : Keeps s₀ s) :
    Keeps s₀ (sendReq s x1 x2) := by
  unfold sendReq
  repeat' first
    | intro _
    | with_reducible assumption
    | with_reducible first | apply sendOn_keeps
    | with_reducible first | apply Keeps.ite | apply Keeps.ite_snd | apply Keeps.forN | apply Keeps.getD | apply Keeps.elim | apply Keeps.foldl | apply Keeps.foldl_snd | apply Keeps.foldl_third | apply Keeps.foldl_fst
    | dsimp only
    | simp only [Keeps.upd_iff]
    | split
    | refine Keeps.of_pair (by assumption) ?_
    | refine Keeps.of_triple (by assumption) ?_
    | refine Keeps.of_fst (by assumption) ?_
    | refine Keeps.of_some (by assumption) ?_
    | refine Keeps.of_ok (by assumption) ?_

theorem State.setPeer_keeps {s₀ s : State} {x1} {x2} (h : Keeps s₀ s) :
    Keeps s₀ (State.setPeer s x1 x2) := by
  unfold State.setPeer
  repeat' first
    | intro _
    | with_reducible assumption
    | with_reducible first | apply Keeps.ite | apply Keeps.ite_snd | apply Keeps.forN | apply Keeps.getD | apply Keeps.elim | apply Keeps.foldl | apply Keeps.foldl_snd | apply Keeps.foldl_third | apply Keeps.foldl_fst
    | dsimp only
    | simp only [Keeps.upd_iff]
    | split
    | refine Keeps.of_pair (by assumption) ?_
    | refine Keeps.of_triple (by assumption) ?_
    | refine Keeps.of_fst (by assumption) ?_
    | refine Keeps.of_some (by assumption) ?_
    | refine Keeps.of_ok (by assumption) ?_

theorem qpPost_keeps {s₀ s : State} {x1} {x2} (h : Keeps s₀ s) :
    Keeps s₀ (qpPost s x1 x2) := by
  unfold qpPost
  repeat' first
    | intro _
    | with_reducible assumption
    | with_reducible first | apply sendReq_keeps | apply State.setPeer_keeps
    | with_reducible first | apply Keeps.ite | apply Keeps.ite_snd | apply Keeps.forN | apply Keeps.getD | apply Keeps.elim | apply Keeps.foldl | apply Keeps.foldl_snd | apply Keeps.foldl_third | apply Keeps.foldl_fst
    | dsimp only
    | simp only [Keeps.upd_iff]
    | split
    | refine Keeps.of_pair (by assumption) ?_
    | refine Keeps.of_triple (by assumption) ?_
    | refine Keeps.of_fst (by assumption) ?_
    | refine Keeps.of_some (by assumption) ?_
    | refine Keeps.of_ok (by assumption) ?_

theorem setDrive_keeps {s₀ s : State} {x1} {x2} (h : Keeps s₀ s) :
    Keeps s₀ (setDrive s x1 x2) := by
  unfold setDrive
  repeat' first
    | intro _
    | with_reducible assumption
    | with_reducible first | apply State.put_keeps
    | with_reducible first | apply Keeps.ite | apply Keeps.ite_snd | apply Keeps.forN | apply Keeps.getD | apply Keeps.elim | apply Keeps.foldl | apply Keeps.foldl_snd | apply Keeps.foldl_third | apply Keeps.foldl_fst
    | dsimp only
    | simp only [Keeps.upd_iff]
    | split
    | refine Keeps.of_pair (by assumption) ?_
    | refine Keeps.of_triple (by assumption) ?_
    | refine Keeps.of_fst (by assumption) ?_
    | refine Keeps.of_some (by assumption) ?_
    | refine Keeps.of_ok (by assumption) ?_

theorem State.setBay_keeps {s₀ s : State} {x1} {x2} (h : Keeps s₀ s) :
    Keeps s₀ (State.setBay s x1 x2) := by
  unfold State.setBay
  repeat' first
    | intro _
    | with_reducible assumption
    | with_reducible first | apply Keeps.ite | apply Keeps.ite_snd | apply Keeps.forN | apply Keeps.getD | apply Keeps.elim | apply Keeps.foldl | apply Keeps.foldl_snd | apply Keeps.foldl_third | apply Keeps.foldl_fst
    | dsimp only
    | simp only [Keeps.upd_iff]
    | split
    | refine Keeps.of_pair (by assumption) ?_
    | refine Keeps.of_triple (by assumption) ?_
    | refine Keeps.of_fst (by assumption) ?_
    | refine Keeps.of_some (by assumption) ?_
    | refine Keeps.of_ok (by assumption) ?_

theorem setPhase_keeps {s₀ s : State} {x1} {x2} (h : Keeps s₀ s) :
    Keeps s₀ (setPhase s x1 x2) := by
  unfold setPhase
  repeat' first
    | intro _
    | with_reducible assumption
    | with_reducible first | apply State.setBay_keeps
    | with_reducible first | apply Keeps.ite | apply Keeps.ite_snd | apply Keeps.forN | apply Keeps.getD | apply Keeps.elim | apply Keeps.foldl | apply Keeps.foldl_snd | apply Keeps.foldl_third | apply Keeps.foldl_fst
    | dsimp only
    | simp only [Keeps.upd_iff]
    | split
    | refine Keeps.of_pair (by assumption) ?_
    | refine Keeps.of_triple (by assumption) ?_
    | refine Keeps.of_fst (by assumption) ?_
    | refine Keeps.of_some (by assumption) ?_
    | refine Keeps.of_ok (by assumption) ?_

theorem holdDark_keeps {s₀ s : State} {x1} {x2} (h : Keeps s₀ s) :
    Keeps s₀ (holdDark s x1 x2) := by
  unfold holdDark
  repeat' first
    | intro _
    | with_reducible assumption
    | with_reducible first | apply setPhase_keeps | apply setDrive_keeps | apply State.puts_keeps
    | with_reducible first | apply Keeps.ite | apply Keeps.ite_snd | apply Keeps.forN | apply Keeps.getD | apply Keeps.elim | apply Keeps.foldl | apply Keeps.foldl_snd | apply Keeps.foldl_third | apply Keeps.foldl_fst
    | dsimp only
    | simp only [Keeps.upd_iff]
    | split
    | refine Keeps.of_pair (by assumption) ?_
    | refine Keeps.of_triple (by assumption) ?_
    | refine Keeps.of_fst (by assumption) ?_
    | refine Keeps.of_some (by assumption) ?_
    | refine Keeps.of_ok (by assumption) ?_

theorem refuse_keeps {s₀ s : State} {x1} {x2} {x3} (h : Keeps s₀ s) :
    Keeps s₀ (refuse s x1 x2 x3) := by
  unfold refuse
  repeat' first
    | intro _
    | with_reducible assumption
    | with_reducible first | apply sendOn_keeps | apply State.bump_keeps
    | with_reducible first | apply Keeps.ite | apply Keeps.ite_snd | apply Keeps.forN | apply Keeps.getD | apply Keeps.elim | apply Keeps.foldl | apply Keeps.foldl_snd | apply Keeps.foldl_third | apply Keeps.foldl_fst
    | dsimp only
    | simp only [Keeps.upd_iff]
    | split
    | refine Keeps.of_pair (by assumption) ?_
    | refine Keeps.of_triple (by assumption) ?_
    | refine Keeps.of_fst (by assumption) ?_
    | refine Keeps.of_some (by assumption) ?_
    | refine Keeps.of_ok (by assumption) ?_

end Sys2Proof.Machine
end

