-- ==== Sys2Proof/Laws/KeepsSections.lean ====
section
/-! SUPPORT. What no operation of Sections.lean touches or breaks. -/
namespace Sys2Proof.Machine

theorem submitSub_keeps {s₀ s : State} {x1} {x2} {x3} (h : Keeps s₀ s) :
    Keeps s₀ (submitSub s x1 x2 x3).2 := by
  unfold submitSub
  repeat' first
    | intro _
    | with_reducible assumption
    | with_reducible first | apply State.updHub_keeps
    | with_reducible first | apply Keeps.ite | apply Keeps.ite_snd | apply Keeps.forN | apply Keeps.getD | apply Keeps.elim | apply Keeps.foldl | apply Keeps.foldl_snd | apply Keeps.foldl_third | apply Keeps.foldl_fst
    | dsimp only
    | simp only [Keeps.upd_iff]
    | split
    | refine Keeps.of_pair (by assumption) ?_
    | refine Keeps.of_triple (by assumption) ?_
    | refine Keeps.of_fst (by assumption) ?_
    | refine Keeps.of_some (by assumption) ?_
    | refine Keeps.of_ok (by assumption) ?_

theorem clearSub_keeps {s₀ s : State} {x1} {x2} (h : Keeps s₀ s) :
    Keeps s₀ (clearSub s x1 x2) := by
  unfold clearSub
  repeat' first
    | intro _
    | with_reducible assumption
    | with_reducible first | apply State.updHub_keeps
    | with_reducible first | apply Keeps.ite | apply Keeps.ite_snd | apply Keeps.forN | apply Keeps.getD | apply Keeps.elim | apply Keeps.foldl | apply Keeps.foldl_snd | apply Keeps.foldl_third | apply Keeps.foldl_fst
    | dsimp only
    | simp only [Keeps.upd_iff]
    | split
    | refine Keeps.of_pair (by assumption) ?_
    | refine Keeps.of_triple (by assumption) ?_
    | refine Keeps.of_fst (by assumption) ?_
    | refine Keeps.of_some (by assumption) ?_
    | refine Keeps.of_ok (by assumption) ?_

end Sys2Proof.Machine
end

