-- ==== Sys2Proof/Laws/KeepsTensor.lean ====
section
/-! SUPPORT. What no operation of Tensor.lean touches or breaks. -/
namespace Sys2Proof.Machine

theorem thenRead_keeps {α : Type} {s₀ : State} {x : Except MemErr (List Byte) × State} {k : List Byte → State → Except MemErr α × State}
    (h : Keeps s₀ x.2) (hk : ∀ b u, Keeps s₀ u → Keeps s₀ (k b u).2) : Keeps s₀ (thenRead x k).2 := by
  unfold thenRead
  split
  · exact hk _ _ h
  · exact h

theorem readRows_keeps {s₀ s : State} {x1} {x2} {x3} {x4} {x5} (h : Keeps s₀ s) :
    Keeps s₀ (readRows s x1 x2 x3 x4 x5).2 := by
  unfold readRows
  repeat' first
    | intro _
    | with_reducible assumption
    | with_reducible first | apply readMem_keeps | apply readRows_keeps
    | with_reducible first | apply Keeps.ite | apply Keeps.ite_snd | apply Keeps.forN | apply Keeps.getD | apply Keeps.elim | apply Keeps.foldl | apply Keeps.foldl_snd | apply Keeps.foldl_third | apply Keeps.foldl_fst
    | dsimp only
    | simp only [Keeps.upd_iff]
    | split
    | refine Keeps.of_pair (by assumption) ?_
    | refine Keeps.of_triple (by assumption) ?_
    | refine Keeps.of_fst (by assumption) ?_
    | refine Keeps.of_some (by assumption) ?_
    | refine Keeps.of_ok (by assumption) ?_

theorem writeAll_keeps {s₀ s : State} {x1} {x2} (h : Keeps s₀ s) :
    Keeps s₀ (writeAll s x1 x2).2 := by
  unfold writeAll
  repeat' first
    | intro _
    | with_reducible assumption
    | with_reducible first | apply writeMem_keeps | apply writeAll_keeps
    | with_reducible first | apply Keeps.ite | apply Keeps.ite_snd | apply Keeps.some | apply Keeps.none | apply Keeps.forN | apply Keeps.getD | apply Keeps.elim | apply Keeps.foldl | apply Keeps.foldl_snd | apply Keeps.foldl_third | apply Keeps.foldl_fst
    | dsimp only
    | simp only [Keeps.upd_iff]
    | split
    | refine Keeps.of_pair (by assumption) ?_
    | refine Keeps.of_triple (by assumption) ?_
    | refine Keeps.of_fst (by assumption) ?_
    | refine Keeps.of_some (by assumption) ?_
    | refine Keeps.of_ok (by assumption) ?_

theorem thenWrite_keeps {α : Type} {s₀ : State} {x : Option MemErr × State} {k : State → Except MemErr α × State}
    (h : Keeps s₀ x.2) (hk : ∀ u, Keeps s₀ u → Keeps s₀ (k u).2) : Keeps s₀ (thenWrite x k).2 := by
  unfold thenWrite
  split
  · exact hk _ h
  · exact h

end Sys2Proof.Machine
end

