-- ==== Sys2Proof/Laws/KeepsSparse.lean ====
section
/-! SUPPORT. What no operation of Sparse.lean touches or breaks. -/
namespace Sys2Proof.Machine

theorem bbcSource_keeps {s₀ s : State} {x1} {x2} {x3} {x4} (h : Keeps s₀ s) :
    Keeps s₀ (bbcSource s x1 x2 x3 x4).2 := by
  unfold bbcSource
  repeat' first
    | intro _
    | with_reducible assumption
    | with_reducible first | apply readMem_keeps
    | with_reducible first | apply Keeps.ite | apply Keeps.ite_snd | apply Keeps.forN | apply Keeps.getD | apply Keeps.elim | apply Keeps.foldl | apply Keeps.foldl_snd | apply Keeps.foldl_third | apply Keeps.foldl_fst
    | dsimp only
    | simp only [Keeps.upd_iff]
    | split
    | refine Keeps.of_pair (by assumption) ?_
    | refine Keeps.of_triple (by assumption) ?_
    | refine Keeps.of_fst (by assumption) ?_
    | refine Keeps.of_some (by assumption) ?_
    | refine Keeps.of_ok (by assumption) ?_

theorem bbcCheck_keeps {s₀ s : State} {x1} {x2} {x3} {x4} {x5} (h : Keeps s₀ s) :
    Keeps s₀ (bbcCheck s x1 x2 x3 x4 x5).2 := by
  unfold bbcCheck
  repeat' first
    | intro _
    | with_reducible assumption
    | with_reducible first | apply thenRead_keeps | apply readMem_keeps | apply bbcSource_keeps
    | with_reducible first | apply Keeps.ite | apply Keeps.ite_snd | apply Keeps.forN | apply Keeps.getD | apply Keeps.elim | apply Keeps.foldl | apply Keeps.foldl_snd | apply Keeps.foldl_third | apply Keeps.foldl_fst
    | dsimp only
    | simp only [Keeps.upd_iff]
    | split
    | refine Keeps.of_pair (by assumption) ?_
    | refine Keeps.of_triple (by assumption) ?_
    | refine Keeps.of_fst (by assumption) ?_
    | refine Keeps.of_some (by assumption) ?_
    | refine Keeps.of_ok (by assumption) ?_

end Sys2Proof.Machine
end

