-- ==== Sys2Proof/Laws/KeepsMxe.lean ====
section
/-! SUPPORT. What no operation of Mxe.lean touches or breaks. -/
namespace Sys2Proof.Machine

theorem readOperand_keeps {s₀ s : State} {x1} {x2} {x3} {x4} {x5} {x6} (h : Keeps s₀ s) :
    Keeps s₀ (readOperand s x1 x2 x3 x4 x5 x6).2 := by
  unfold readOperand
  repeat' first
    | intro _
    | with_reducible assumption
    | with_reducible first | apply thenRead_keeps | apply readMem_keeps | apply readRows_keeps
    | with_reducible first | apply Keeps.ite | apply Keeps.ite_snd | apply Keeps.forN | apply Keeps.getD | apply Keeps.elim | apply Keeps.foldl | apply Keeps.foldl_snd | apply Keeps.foldl_third | apply Keeps.foldl_fst
    | dsimp only
    | simp only [Keeps.upd_iff]
    | split
    | refine Keeps.of_pair (by assumption) ?_
    | refine Keeps.of_triple (by assumption) ?_
    | refine Keeps.of_fst (by assumption) ?_
    | refine Keeps.of_some (by assumption) ?_
    | refine Keeps.of_ok (by assumption) ?_

theorem readBbc_keeps {s₀ s : State} {x1} {x2} {x3} {x4} {x5} (h : Keeps s₀ s) :
    Keeps s₀ (readBbc s x1 x2 x3 x4 x5).2 := by
  unfold readBbc
  repeat' first
    | intro _
    | with_reducible assumption
    | with_reducible first | apply thenRead_keeps | apply readMem_keeps
    | with_reducible first | apply Keeps.ite | apply Keeps.ite_snd | apply Keeps.forN | apply Keeps.getD | apply Keeps.elim | apply Keeps.foldl | apply Keeps.foldl_snd | apply Keeps.foldl_third | apply Keeps.foldl_fst
    | dsimp only
    | simp only [Keeps.upd_iff]
    | split
    | refine Keeps.of_pair (by assumption) ?_
    | refine Keeps.of_triple (by assumption) ?_
    | refine Keeps.of_fst (by assumption) ?_
    | refine Keeps.of_some (by assumption) ?_
    | refine Keeps.of_ok (by assumption) ?_

theorem mxeLoad_keeps {s₀ s : State} {c r cl op passes stream d fa fb} (h : Keeps s₀ s) :
    Keeps s₀ (mxeLoad s c r cl op passes stream d fa fb).2 := by
  unfold mxeLoad
  extract_lets stop
  split
  split
  split
  · exact h
  split
  · rename_i e
    exact Keeps.of_pair e (Keeps.ite_snd (readMem_keeps h) h)
  rename_i e
  replace h := Keeps.of_pair e (Keeps.ite_snd (readMem_keeps h) h)
  clear e
  extract_lets
  split
  · rename_i e
    exact Keeps.of_pair e (Keeps.ite_snd (readMem_keeps h) h)
  rename_i e
  replace h := Keeps.of_pair e (Keeps.ite_snd (readMem_keeps h) h)
  clear e
  extract_lets
  split
  split
  · exact h
  split
  · exact h
  split
  · rename_i e
    exact Keeps.of_pair e (Keeps.ite_snd (readMem_keeps h) h)
  rename_i e
  replace h := Keeps.of_pair e (Keeps.ite_snd (readMem_keeps h) h)
  clear e
  split
  · rename_i e
    exact Keeps.of_pair e (Keeps.ite_snd (readMem_keeps h) h)
  rename_i e
  replace h := Keeps.of_pair e (Keeps.ite_snd (readMem_keeps h) h)
  clear e
  extract_lets
  split
  · exact h
  split
  · rename_i e
    exact Keeps.of_pair e (Keeps.ite_snd (readMem_keeps h) h)
  rename_i e
  replace h := Keeps.of_pair e (Keeps.ite_snd (readMem_keeps h) h)
  clear e
  split
  · rename_i e
    exact Keeps.of_pair e (Keeps.ite_snd (readMem_keeps h) h)
  rename_i e
  replace h := Keeps.of_pair e (Keeps.ite_snd (readMem_keeps h) h)
  clear e
  split
  · exact h
  split
  · rename_i e
    exact Keeps.of_pair e (Keeps.ite_snd (readMem_keeps h) h)
  rename_i e
  replace h := Keeps.of_pair e (Keeps.ite_snd (readMem_keeps h) h)
  clear e
  extract_lets
  split
  · exact h
  split
  · rename_i e
    exact Keeps.of_pair e (Keeps.ite_snd h (readOperand_keeps h))
  rename_i e
  replace h := Keeps.of_pair e (Keeps.ite_snd h (readOperand_keeps h))
  clear e
  have hb {f a o t} : Keeps s₀ (if d.aBbc = true then
      (match readBbc ‹State› c f a o t with | (.ok x, s) => (.ok (some x), s) | (.error e, s) => (.error e, s))
      else ((.ok none : Except MemErr (Option BbcOp)), ‹State›)).2 := by
    refine Keeps.ite_snd ?_ h
    split
    · rename_i e
      exact Keeps.of_pair e (readBbc_keeps h)
    · rename_i e
      exact Keeps.of_pair e (readBbc_keeps h)
  split
  · rename_i e
    exact Keeps.of_pair e hb
  rename_i e
  replace h := Keeps.of_pair e hb
  clear e
  clear hb
  split
  · rename_i e
    exact Keeps.of_pair e (readOperand_keeps h)
  rename_i e
  replace h := Keeps.of_pair e (readOperand_keeps h)
  clear e
  split
  · rename_i e
    exact Keeps.of_pair e (Keeps.ite_snd (readRows_keeps h) h)
  rename_i e
  replace h := Keeps.of_pair e (Keeps.ite_snd (readRows_keeps h) h)
  clear e
  split
  · rename_i e
    exact Keeps.of_pair e (Keeps.ite_snd (readMem_keeps h) h)
  rename_i e
  replace h := Keeps.of_pair e (Keeps.ite_snd (readMem_keeps h) h)
  clear e
  exact h

theorem mxeCommand_keeps {s₀ s : State} {x1} {x2} {x3} {x4} {x5} {x6} {x7} {x8} (h : Keeps s₀ s) :
    Keeps s₀ (mxeCommand s x1 x2 x3 x4 x5 x6 x7 x8).2 := by
  unfold mxeCommand
  repeat' first
    | intro _
    | with_reducible first | apply readMem_keeps | apply mxeLoad_keeps
    | with_reducible first | apply Keeps.ite | apply Keeps.ite_snd | apply Keeps.forN | apply Keeps.getD | apply Keeps.elim | apply Keeps.foldl | apply Keeps.foldl_snd | apply Keeps.foldl_third | apply Keeps.foldl_fst
    | extract_lets
    | split
    | with_reducible assumption
    | refine Keeps.of_pair (by assumption) ?_
    | refine Keeps.of_triple (by assumption) ?_
    | refine Keeps.of_fst (by assumption) ?_
    | refine Keeps.of_some (by assumption) ?_
    | refine Keeps.of_ok (by assumption) ?_
    | simp -zeta only [Keeps.upd_iff]
    | dsimp -zeta only

theorem xstat_keeps {s₀ s : State} {x1} {x2} {x3} (h : Keeps s₀ s) :
    Keeps s₀ (xstat s x1 x2 x3) := by
  unfold xstat
  repeat' first
    | intro _
    | with_reducible assumption
    | with_reducible first | apply State.put_keeps | apply State.bump_keeps
    | with_reducible first | apply Keeps.ite | apply Keeps.ite_snd | apply Keeps.forN | apply Keeps.getD | apply Keeps.elim | apply Keeps.foldl | apply Keeps.foldl_snd | apply Keeps.foldl_third | apply Keeps.foldl_fst
    | dsimp only
    | simp only [Keeps.upd_iff]
    | split
    | refine Keeps.of_pair (by assumption) ?_
    | refine Keeps.of_triple (by assumption) ?_
    | refine Keeps.of_fst (by assumption) ?_
    | refine Keeps.of_some (by assumption) ?_
    | refine Keeps.of_ok (by assumption) ?_

theorem mxeStart_keeps {s₀ s : State} {x1} {x2} {x3} (h : Keeps s₀ s) :
    Keeps s₀ (mxeStart s x1 x2 x3) := by
  unfold mxeStart
  repeat' first
    | intro _
    | with_reducible assumption
    | with_reducible first | apply mxeCommand_keeps | apply updLive_keeps | apply fifoPop_keeps | apply State.setCluster_keeps | apply finish_keeps | apply xstat_keeps
    | with_reducible first | apply Keeps.ite | apply Keeps.ite_snd | apply Keeps.forN | apply Keeps.getD | apply Keeps.elim | apply Keeps.foldl | apply Keeps.foldl_snd | apply Keeps.foldl_third | apply Keeps.foldl_fst
    | dsimp only
    | simp only [Keeps.upd_iff]
    | split
    | refine Keeps.of_pair (by assumption) ?_
    | refine Keeps.of_triple (by assumption) ?_
    | refine Keeps.of_fst (by assumption) ?_
    | refine Keeps.of_some (by assumption) ?_
    | refine Keeps.of_ok (by assumption) ?_

theorem execFinishedTilePush_keeps {s₀ s : State} {x0} {x1} (h : Keeps s₀ s) :
    OutKeeps s₀ (execFinishedTilePush x0 x1 s) := by
  unfold execFinishedTilePush
  repeat' first
    | intro _
    | with_reducible assumption
    | with_reducible first | apply State.setCluster_keeps | apply xstat_keeps | apply finish_keeps
    | with_reducible first | apply Keeps.ite | apply Keeps.ite_snd | apply Keeps.out | apply Keeps.out_fault | apply Keeps.out_refused | apply Keeps.forN | apply Keeps.getD | apply Keeps.elim | apply Keeps.foldl | apply Keeps.foldl_snd | apply Keeps.foldl_third | apply Keeps.foldl_fst
    | dsimp only
    | simp only [Keeps.upd_iff]
    | split
    | refine Keeps.of_pair (by assumption) ?_
    | refine Keeps.of_triple (by assumption) ?_
    | refine Keeps.of_fst (by assumption) ?_
    | refine Keeps.of_some (by assumption) ?_
    | refine Keeps.of_ok (by assumption) ?_

theorem execMxeMmSelect_keeps {s₀ s : State} {x0} {x1} (h : Keeps s₀ s) :
    OutKeeps s₀ (execMxeMmSelect x0 x1 s) := by
  unfold execMxeMmSelect
  repeat' first
    | intro _
    | with_reducible assumption
    | with_reducible first | apply mxeStart_keeps
    | with_reducible first | apply Keeps.ite | apply Keeps.ite_snd | apply Keeps.out | apply Keeps.out_fault | apply Keeps.out_refused | apply Keeps.forN | apply Keeps.getD | apply Keeps.elim | apply Keeps.foldl | apply Keeps.foldl_snd | apply Keeps.foldl_third | apply Keeps.foldl_fst
    | dsimp only
    | simp only [Keeps.upd_iff]
    | split
    | refine Keeps.of_pair (by assumption) ?_
    | refine Keeps.of_triple (by assumption) ?_
    | refine Keeps.of_fst (by assumption) ?_
    | refine Keeps.of_some (by assumption) ?_
    | refine Keeps.of_ok (by assumption) ?_

theorem execMxeMm_keeps {s₀ s : State} {x0} {x1} (h : Keeps s₀ s) :
    OutKeeps s₀ (execMxeMm x0 x1 s) := by
  unfold execMxeMm
  repeat' first
    | intro _
    | with_reducible assumption
    | with_reducible first | apply mxeStart_keeps
    | with_reducible first | apply Keeps.ite | apply Keeps.ite_snd | apply Keeps.out | apply Keeps.out_fault | apply Keeps.out_refused | apply Keeps.forN | apply Keeps.getD | apply Keeps.elim | apply Keeps.foldl | apply Keeps.foldl_snd | apply Keeps.foldl_third | apply Keeps.foldl_fst
    | dsimp only
    | simp only [Keeps.upd_iff]
    | split
    | refine Keeps.of_pair (by assumption) ?_
    | refine Keeps.of_triple (by assumption) ?_
    | refine Keeps.of_fst (by assumption) ?_
    | refine Keeps.of_some (by assumption) ?_
    | refine Keeps.of_ok (by assumption) ?_

theorem execMxeMmSparse_keeps {s₀ s : State} {x0} {x1} (h : Keeps s₀ s) :
    OutKeeps s₀ (execMxeMmSparse x0 x1 s) := by
  unfold execMxeMmSparse
  repeat' first
    | intro _
    | with_reducible assumption
    | with_reducible first | apply mxeStart_keeps
    | with_reducible first | apply Keeps.ite | apply Keeps.ite_snd | apply Keeps.out | apply Keeps.out_fault | apply Keeps.out_refused | apply Keeps.forN | apply Keeps.getD | apply Keeps.elim | apply Keeps.foldl | apply Keeps.foldl_snd | apply Keeps.foldl_third | apply Keeps.foldl_fst
    | dsimp only
    | simp only [Keeps.upd_iff]
    | split
    | refine Keeps.of_pair (by assumption) ?_
    | refine Keeps.of_triple (by assumption) ?_
    | refine Keeps.of_fst (by assumption) ?_
    | refine Keeps.of_some (by assumption) ?_
    | refine Keeps.of_ok (by assumption) ?_

end Sys2Proof.Machine
end

