-- ==== Sys2Proof/Laws/KeepsVeStream.lean ====
section
/-! SUPPORT. What no operation of VeStream.lean touches or breaks. -/
namespace Sys2Proof.Machine

theorem readScaled_keeps {s₀ s : State} {x1} {x2} {x3} {x4} {x5} (h : Keeps s₀ s) :
    Keeps s₀ (readScaled s x1 x2 x3 x4 x5).2 := by
  unfold readScaled
  repeat' first
    | intro _
    | with_reducible assumption
    | with_reducible first | apply thenRead_keeps | apply readMem_keeps
    | with_reducible first | apply Keeps.ite | apply Keeps.ite_snd | apply Keeps.forN | apply Keeps.getD | apply Keeps.elim | apply Keeps.foldl | apply Keeps.foldl_snd | apply Keeps.foldl_third | apply Keeps.foldl_fst
    | dsimp only
    | simp only [Keeps.upd_iff]
    | split
    | refine Keeps.of_pair (by assumption) ?_
    | refine Keeps.of_triple (by assumption) ?_
    | refine Keeps.of_fst (by assumption) ?_
    | refine Keeps.of_some (by assumption) ?_
    | refine Keeps.of_ok (by assumption) ?_

theorem readPlain_keeps {s₀ s : State} {x1} {x2} {x3} {x4} (h : Keeps s₀ s) :
    Keeps s₀ (readPlain s x1 x2 x3 x4).2 := by
  unfold readPlain
  repeat' first
    | intro _
    | with_reducible assumption
    | with_reducible first | apply readMem_keeps | apply readPlain_keeps
    | with_reducible first | apply Keeps.ite | apply Keeps.ite_snd | apply Keeps.forN | apply Keeps.getD | apply Keeps.elim | apply Keeps.foldl | apply Keeps.foldl_snd | apply Keeps.foldl_third | apply Keeps.foldl_fst
    | dsimp only
    | simp only [Keeps.upd_iff]
    | split
    | refine Keeps.of_pair (by assumption) ?_
    | refine Keeps.of_triple (by assumption) ?_
    | refine Keeps.of_fst (by assumption) ?_
    | refine Keeps.of_some (by assumption) ?_
    | refine Keeps.of_ok (by assumption) ?_

theorem readStrm_keeps {s₀ s : State} {x1} {x2} {x3} (h : Keeps s₀ s) :
    Keeps s₀ (readStrm s x1 x2 x3).2 := by
  unfold readStrm
  repeat' first
    | intro _
    | with_reducible assumption
    | with_reducible first | apply readScaled_keeps | apply readPlain_keeps
    | with_reducible first | apply Keeps.ite | apply Keeps.ite_snd | apply Keeps.forN | apply Keeps.getD | apply Keeps.elim | apply Keeps.foldl | apply Keeps.foldl_snd | apply Keeps.foldl_third | apply Keeps.foldl_fst
    | dsimp only
    | simp only [Keeps.upd_iff]
    | split
    | refine Keeps.of_pair (by assumption) ?_
    | refine Keeps.of_triple (by assumption) ?_
    | refine Keeps.of_fst (by assumption) ?_
    | refine Keeps.of_some (by assumption) ?_
    | refine Keeps.of_ok (by assumption) ?_

theorem writeElems_keeps {s₀ s : State} {x1} {x2} {x3} {x4} {x5} {x6} (h : Keeps s₀ s) :
    Keeps s₀ (writeElems s x1 x2 x3 x4 x5 x6).2 := by
  unfold writeElems
  repeat' first
    | intro _
    | with_reducible assumption
    | with_reducible first | apply writeMem_keeps | apply readMem_keeps
    | with_reducible first | apply Keeps.ite | apply Keeps.ite_snd | apply Keeps.some | apply Keeps.none | apply Keeps.forN | apply Keeps.getD | apply Keeps.elim | apply Keeps.foldl | apply Keeps.foldl_snd | apply Keeps.foldl_third | apply Keeps.foldl_fst
    | dsimp only
    | simp only [Keeps.upd_iff]
    | split
    | refine Keeps.of_pair (by assumption) ?_
    | refine Keeps.of_triple (by assumption) ?_
    | refine Keeps.of_fst (by assumption) ?_
    | refine Keeps.of_some (by assumption) ?_
    | refine Keeps.of_ok (by assumption) ?_

theorem writeRows_keeps {s₀ s : State} {x1} {x2} {x3} {x4} (h : Keeps s₀ s) :
    Keeps s₀ (writeRows s x1 x2 x3 x4).2 := by
  unfold writeRows
  repeat' first
    | intro _
    | with_reducible assumption
    | with_reducible first | apply writeElems_keeps | apply writeRows_keeps
    | with_reducible first | apply Keeps.ite | apply Keeps.ite_snd | apply Keeps.some | apply Keeps.none | apply Keeps.forN | apply Keeps.getD | apply Keeps.elim | apply Keeps.foldl | apply Keeps.foldl_snd | apply Keeps.foldl_third | apply Keeps.foldl_fst
    | dsimp only
    | simp only [Keeps.upd_iff]
    | split
    | refine Keeps.of_pair (by assumption) ?_
    | refine Keeps.of_triple (by assumption) ?_
    | refine Keeps.of_fst (by assumption) ?_
    | refine Keeps.of_some (by assumption) ?_
    | refine Keeps.of_ok (by assumption) ?_

theorem headerAgrees_keeps {s₀ s : State} {x1} {x2} (h : Keeps s₀ s) :
    Keeps s₀ (headerAgrees s x1 x2).2 := by
  unfold headerAgrees
  repeat' first
    | intro _
    | with_reducible assumption
    | with_reducible first | apply thenRead_keeps | apply readMem_keeps
    | with_reducible first | apply Keeps.ite | apply Keeps.ite_snd | apply Keeps.forN | apply Keeps.getD | apply Keeps.elim | apply Keeps.foldl | apply Keeps.foldl_snd | apply Keeps.foldl_third | apply Keeps.foldl_fst
    | dsimp only
    | simp only [Keeps.upd_iff]
    | split
    | refine Keeps.of_pair (by assumption) ?_
    | refine Keeps.of_triple (by assumption) ?_
    | refine Keeps.of_fst (by assumption) ?_
    | refine Keeps.of_some (by assumption) ?_
    | refine Keeps.of_ok (by assumption) ?_

end Sys2Proof.Machine
end

