-- ==== Sys2Proof/Laws/KeepsVe.lean ====
section
/-! SUPPORT. What no operation of Ve.lean touches or breaks. -/
namespace Sys2Proof.Machine

theorem updVe_keeps {s₀ s : State} {x1} {x2} {x3} (h : Keeps s₀ s) :
    Keeps s₀ (updVe s x1 x2 x3) := by
  unfold updVe
  repeat' first
    | intro _
    | with_reducible assumption
    | with_reducible first | apply State.setCluster_keeps
    | with_reducible first | apply Keeps.ite | apply Keeps.ite_snd | apply Keeps.forN | apply Keeps.getD | apply Keeps.elim | apply Keeps.foldl | apply Keeps.foldl_snd | apply Keeps.foldl_third | apply Keeps.foldl_fst
    | dsimp only
    | simp only [Keeps.upd_iff]
    | split
    | refine Keeps.of_pair (by assumption) ?_
    | refine Keeps.of_triple (by assumption) ?_
    | refine Keeps.of_fst (by assumption) ?_
    | refine Keeps.of_some (by assumption) ?_
    | refine Keeps.of_ok (by assumption) ?_

theorem veReplay_keeps {s₀ s : State} {x1} {x2} {x3} (h : Keeps s₀ s) :
    Keeps s₀ (veReplay s x1 x2 x3) := by
  unfold veReplay
  repeat' first
    | intro _
    | with_reducible assumption
    | with_reducible first | apply mxeCommand_keeps | apply updLive_keeps | apply State.setCluster_keeps | apply updVe_keeps
    | with_reducible first | apply Keeps.ite | apply Keeps.ite_snd | apply Keeps.forN | apply Keeps.getD | apply Keeps.elim | apply Keeps.foldl | apply Keeps.foldl_snd | apply Keeps.foldl_third | apply Keeps.foldl_fst
    | dsimp only
    | simp only [Keeps.upd_iff]
    | split
    | refine Keeps.of_pair (by assumption) ?_
    | refine Keeps.of_triple (by assumption) ?_
    | refine Keeps.of_fst (by assumption) ?_
    | refine Keeps.of_some (by assumption) ?_
    | refine Keeps.of_ok (by assumption) ?_

theorem veStatus_keeps {s₀ s : State} {x1} {x2} {x3} (h : Keeps s₀ s) :
    Keeps s₀ (veStatus s x1 x2 x3) := by
  unfold veStatus
  repeat' first
    | intro _
    | with_reducible assumption
    | with_reducible first | apply updVe_keeps
    | with_reducible first | apply Keeps.ite | apply Keeps.ite_snd | apply Keeps.forN | apply Keeps.getD | apply Keeps.elim | apply Keeps.foldl | apply Keeps.foldl_snd | apply Keeps.foldl_third | apply Keeps.foldl_fst
    | dsimp only
    | simp only [Keeps.upd_iff]
    | split
    | refine Keeps.of_pair (by assumption) ?_
    | refine Keeps.of_triple (by assumption) ?_
    | refine Keeps.of_fst (by assumption) ?_
    | refine Keeps.of_some (by assumption) ?_
    | refine Keeps.of_ok (by assumption) ?_

theorem recMax_keeps {s₀ s : State} {x1} {x2} {x3} {x4} {x5} {x6} (h : Keeps s₀ s) :
    Keeps s₀ (recMax s x1 x2 x3 x4 x5 x6) := by
  unfold recMax
  repeat' first
    | intro _
    | with_reducible assumption
    | with_reducible first | apply doAtomic_keeps | apply veStatus_keeps | apply ask_keeps | apply updVe_keeps
    | with_reducible first | apply Keeps.ite | apply Keeps.ite_snd | apply Keeps.forN | apply Keeps.getD | apply Keeps.elim | apply Keeps.foldl | apply Keeps.foldl_snd | apply Keeps.foldl_third | apply Keeps.foldl_fst
    | dsimp only
    | simp only [Keeps.upd_iff]
    | split
    | refine Keeps.of_pair (by assumption) ?_
    | refine Keeps.of_triple (by assumption) ?_
    | refine Keeps.of_fst (by assumption) ?_
    | refine Keeps.of_some (by assumption) ?_
    | refine Keeps.of_ok (by assumption) ?_

theorem recSwap_keeps {s₀ s : State} {x1} {x2} {x3} {x4} {x5} {x6} {x7} (h : Keeps s₀ s) :
    Keeps s₀ (recSwap s x1 x2 x3 x4 x5 x6 x7) := by
  unfold recSwap
  repeat' first
    | intro _
    | with_reducible assumption
    | with_reducible first | apply readNat_keeps | apply writeNat_keeps | apply veStatus_keeps | apply ask_keeps | apply updVe_keeps
    | with_reducible first | apply Keeps.ite | apply Keeps.ite_snd | apply Keeps.forN | apply Keeps.getD | apply Keeps.elim | apply Keeps.foldl | apply Keeps.foldl_snd | apply Keeps.foldl_third | apply Keeps.foldl_fst
    | dsimp only
    | simp only [Keeps.upd_iff]
    | split
    | refine Keeps.of_pair (by assumption) ?_
    | refine Keeps.of_triple (by assumption) ?_
    | refine Keeps.of_fst (by assumption) ?_
    | refine Keeps.of_some (by assumption) ?_
    | refine Keeps.of_ok (by assumption) ?_

theorem veXstat_keeps {s₀ s : State} {x1} {x2} {x3} (h : Keeps s₀ s) :
    Keeps s₀ (veXstat s x1 x2 x3) := by
  unfold veXstat
  repeat' first
    | intro _
    | with_reducible assumption
    | with_reducible first | apply State.put_keeps
    | with_reducible first | apply Keeps.ite | apply Keeps.ite_snd | apply Keeps.forN | apply Keeps.getD | apply Keeps.elim | apply Keeps.foldl | apply Keeps.foldl_snd | apply Keeps.foldl_third | apply Keeps.foldl_fst
    | dsimp only
    | simp only [Keeps.upd_iff]
    | split
    | refine Keeps.of_pair (by assumption) ?_
    | refine Keeps.of_triple (by assumption) ?_
    | refine Keeps.of_fst (by assumption) ?_
    | refine Keeps.of_some (by assumption) ?_
    | refine Keeps.of_ok (by assumption) ?_

theorem orFlagWord_keeps {s₀ s : State} {x1} {x2} {x3} (h : Keeps s₀ s) :
    Keeps s₀ (orFlagWord s x1 x2 x3) := by
  unfold orFlagWord
  repeat' first
    | intro _
    | with_reducible assumption
    | with_reducible first | apply readNat_keeps | apply writeNat_keeps
    | with_reducible first | apply Keeps.ite | apply Keeps.ite_snd | apply Keeps.forN | apply Keeps.getD | apply Keeps.elim | apply Keeps.foldl | apply Keeps.foldl_snd | apply Keeps.foldl_third | apply Keeps.foldl_fst
    | dsimp only
    | simp only [Keeps.upd_iff]
    | split
    | refine Keeps.of_pair (by assumption) ?_
    | refine Keeps.of_triple (by assumption) ?_
    | refine Keeps.of_fst (by assumption) ?_
    | refine Keeps.of_some (by assumption) ?_
    | refine Keeps.of_ok (by assumption) ?_

theorem sendNotice_keeps {s₀ s : State} {x1} {x2} {x3} {x4} (h : Keeps s₀ s) :
    Keeps s₀ (sendNotice s x1 x2 x3 x4) := by
  unfold sendNotice
  repeat' first
    | intro _
    | with_reducible assumption
    | with_reducible first | apply inject_keeps
    | with_reducible first | apply Keeps.ite | apply Keeps.ite_snd | apply Keeps.forN | apply Keeps.getD | apply Keeps.elim | apply Keeps.foldl | apply Keeps.foldl_snd | apply Keeps.foldl_third | apply Keeps.foldl_fst
    | dsimp only
    | simp only [Keeps.upd_iff]
    | split
    | refine Keeps.of_pair (by assumption) ?_
    | refine Keeps.of_triple (by assumption) ?_
    | refine Keeps.of_fst (by assumption) ?_
    | refine Keeps.of_some (by assumption) ?_
    | refine Keeps.of_ok (by assumption) ?_

theorem veEnd_keeps {s₀ s : State} {x1} {x2} {x3} {x4} {x5} {x6} (h : Keeps s₀ s) :
    Keeps s₀ (veEnd s x1 x2 x3 x4 x5 x6) := by
  unfold veEnd
  repeat' first
    | intro _
    | with_reducible assumption
    | with_reducible first | apply veXstat_keeps | apply orFlagWord_keeps | apply sendNotice_keeps | apply State.setCluster_keeps | apply finish_keeps
    | with_reducible first | apply Keeps.ite | apply Keeps.ite_snd | apply Keeps.forN | apply Keeps.getD | apply Keeps.elim | apply Keeps.foldl | apply Keeps.foldl_snd | apply Keeps.foldl_third | apply Keeps.foldl_fst
    | dsimp only
    | simp only [Keeps.upd_iff]
    | split
    | refine Keeps.of_pair (by assumption) ?_
    | refine Keeps.of_triple (by assumption) ?_
    | refine Keeps.of_fst (by assumption) ?_
    | refine Keeps.of_some (by assumption) ?_
    | refine Keeps.of_ok (by assumption) ?_

theorem veSettle_keeps {s₀ s : State} {x1} {x2} (h : Keeps s₀ s) :
    Keeps s₀ (veSettle s x1 x2) := by
  unfold veSettle
  repeat' first
    | intro _
    | with_reducible assumption
    | with_reducible first | apply veEnd_keeps
    | with_reducible first | apply Keeps.ite | apply Keeps.ite_snd | apply Keeps.forN | apply Keeps.getD | apply Keeps.elim | apply Keeps.foldl | apply Keeps.foldl_snd | apply Keeps.foldl_third | apply Keeps.foldl_fst
    | dsimp only
    | simp only [Keeps.upd_iff]
    | split
    | refine Keeps.of_pair (by assumption) ?_
    | refine Keeps.of_triple (by assumption) ?_
    | refine Keeps.of_fst (by assumption) ?_
    | refine Keeps.of_some (by assumption) ?_
    | refine Keeps.of_ok (by assumption) ?_

theorem veClose_keeps {s₀ s : State} {x1} {x2} {x3} {x4} {x5} (h : Keeps s₀ s) :
    Keeps s₀ (veClose s x1 x2 x3 x4 x5) := by
  unfold veClose
  repeat' first
    | intro _
    | with_reducible assumption
    | with_reducible first | apply updVe_keeps | apply recMax_keeps | apply recSwap_keeps | apply veSettle_keeps
    | with_reducible first | apply Keeps.ite | apply Keeps.ite_snd | apply Keeps.forN | apply Keeps.getD | apply Keeps.elim | apply Keeps.foldl | apply Keeps.foldl_snd | apply Keeps.foldl_third | apply Keeps.foldl_fst
    | dsimp only
    | simp only [Keeps.upd_iff]
    | split
    | refine Keeps.of_pair (by assumption) ?_
    | refine Keeps.of_triple (by assumption) ?_
    | refine Keeps.of_fst (by assumption) ?_
    | refine Keeps.of_some (by assumption) ?_
    | refine Keeps.of_ok (by assumption) ?_

theorem veStop_keeps {s₀ s : State} {x1} {x2} {x3} {x4} {x5} (h : Keeps s₀ s) :
    Keeps s₀ (veStop s x1 x2 x3 x4 x5) := by
  unfold veStop
  repeat' first
    | intro _
    | with_reducible assumption
    | with_reducible first | apply veClose_keeps | apply veStatus_keeps
    | with_reducible first | apply Keeps.ite | apply Keeps.ite_snd | apply Keeps.forN | apply Keeps.getD | apply Keeps.elim | apply Keeps.foldl | apply Keeps.foldl_snd | apply Keeps.foldl_third | apply Keeps.foldl_fst
    | dsimp only
    | simp only [Keeps.upd_iff]
    | split
    | refine Keeps.of_pair (by assumption) ?_
    | refine Keeps.of_triple (by assumption) ?_
    | refine Keeps.of_fst (by assumption) ?_
    | refine Keeps.of_some (by assumption) ?_
    | refine Keeps.of_ok (by assumption) ?_

theorem readIns_keeps {s₀ s : State} {x1} {x2} (h : Keeps s₀ s) :
    Keeps s₀ (readIns s x1 x2).2 := by
  unfold readIns
  repeat' first
    | intro _
    | with_reducible assumption
    | with_reducible first | apply readStrm_keeps | apply readIns_keeps
    | with_reducible first | apply Keeps.ite | apply Keeps.ite_snd | apply Keeps.forN | apply Keeps.getD | apply Keeps.elim | apply Keeps.foldl | apply Keeps.foldl_snd | apply Keeps.foldl_third | apply Keeps.foldl_fst
    | dsimp only
    | simp only [Keeps.upd_iff]
    | split
    | refine Keeps.of_pair (by assumption) ?_
    | refine Keeps.of_triple (by assumption) ?_
    | refine Keeps.of_fst (by assumption) ?_
    | refine Keeps.of_some (by assumption) ?_
    | refine Keeps.of_ok (by assumption) ?_

theorem epiRows_keeps {s₀ s : State} {x1} {x2} {x3} {x4} {x5} {x6} (h : Keeps s₀ s) :
    Keeps s₀ (epiRows s x1 x2 x3 x4 x5 x6).2 := by
  unfold epiRows
  repeat' first
    | intro _
    | with_reducible assumption
    | with_reducible first | apply writeElems_keeps | apply epiRows_keeps
    | with_reducible first | apply Keeps.ite | apply Keeps.ite_snd | apply Keeps.some | apply Keeps.none | apply Keeps.forN | apply Keeps.getD | apply Keeps.elim | apply Keeps.foldl | apply Keeps.foldl_snd | apply Keeps.foldl_third | apply Keeps.foldl_fst
    | dsimp only
    | simp only [Keeps.upd_iff]
    | split
    | refine Keeps.of_pair (by assumption) ?_
    | refine Keeps.of_triple (by assumption) ?_
    | refine Keeps.of_fst (by assumption) ?_
    | refine Keeps.of_some (by assumption) ?_
    | refine Keeps.of_ok (by assumption) ?_

theorem askAdd_keeps {s₀ s : State} {x1} {x2} {x3} {x4} {x5} {x6} {x7} (h : Keeps s₀ s) :
    Keeps s₀ (askAdd s x1 x2 x3 x4 x5 x6 x7) := by
  unfold askAdd
  repeat' first
    | intro _
    | with_reducible assumption
    | with_reducible first | apply inject_keeps
    | with_reducible first | apply Keeps.ite | apply Keeps.ite_snd | apply Keeps.forN | apply Keeps.getD | apply Keeps.elim | apply Keeps.foldl | apply Keeps.foldl_snd | apply Keeps.foldl_third | apply Keeps.foldl_fst
    | dsimp only
    | simp only [Keeps.upd_iff]
    | split
    | refine Keeps.of_pair (by assumption) ?_
    | refine Keeps.of_triple (by assumption) ?_
    | refine Keeps.of_fst (by assumption) ?_
    | refine Keeps.of_some (by assumption) ?_
    | refine Keeps.of_ok (by assumption) ?_

theorem sendRun_keeps {s₀ s : State} {x1} {x2} {x3} {x4} (h : Keeps s₀ s) :
    Keeps s₀ (sendRun s x1 x2 x3 x4) := by
  unfold sendRun
  repeat' first
    | intro _
    | with_reducible assumption
    | with_reducible first | apply veStatus_keeps | apply askAdd_keeps | apply updVe_keeps
    | with_reducible first | apply Keeps.ite | apply Keeps.ite_snd | apply Keeps.forN | apply Keeps.getD | apply Keeps.elim | apply Keeps.foldl | apply Keeps.foldl_snd | apply Keeps.foldl_third | apply Keeps.foldl_fst
    | dsimp only
    | simp only [Keeps.upd_iff]
    | split
    | refine Keeps.of_pair (by assumption) ?_
    | refine Keeps.of_triple (by assumption) ?_
    | refine Keeps.of_fst (by assumption) ?_
    | refine Keeps.of_some (by assumption) ?_
    | refine Keeps.of_ok (by assumption) ?_

theorem epiEntry_keeps {s₀ s : State} {x1} {x2} {x3} {x4} {x5} {x6} (h : Keeps s₀ s) :
    Keeps s₀ (epiEntry s x1 x2 x3 x4 x5 x6).2 := by
  unfold epiEntry
  repeat' first
    | intro _
    | with_reducible assumption
    | with_reducible first | apply readIns_keeps | apply updVe_keeps | apply epiRows_keeps | apply State.bump_keeps | apply sendRun_keeps | apply writeAll_keeps
    | with_reducible first | apply Keeps.ite | apply Keeps.ite_snd | apply Keeps.forN | apply Keeps.getD | apply Keeps.elim | apply Keeps.foldl | apply Keeps.foldl_snd | apply Keeps.foldl_third | apply Keeps.foldl_fst
    | dsimp only
    | simp only [Keeps.upd_iff]
    | split
    | refine Keeps.of_pair (by assumption) ?_
    | refine Keeps.of_triple (by assumption) ?_
    | refine Keeps.of_fst (by assumption) ?_
    | refine Keeps.of_some (by assumption) ?_
    | refine Keeps.of_ok (by assumption) ?_

theorem stripEntry_keeps {s₀ s : State} {x1} {x2} {x3} {x4} {x5} {x6} (h : Keeps s₀ s) :
    Keeps s₀ (stripEntry s x1 x2 x3 x4 x5 x6).2 := by
  unfold stripEntry
  repeat' first
    | intro _
    | with_reducible assumption
    | with_reducible first | apply writeAll_keeps | apply updVe_keeps | apply readMem_keeps | apply readIns_keeps | apply State.tock_keeps | apply State.bump_keeps | apply epiRows_keeps | apply sendRun_keeps
    | with_reducible first | apply Keeps.ite | apply Keeps.ite_snd | apply Keeps.forN | apply Keeps.getD | apply Keeps.elim | apply Keeps.foldl | apply Keeps.foldl_snd | apply Keeps.foldl_third | apply Keeps.foldl_fst
    | dsimp only
    | simp only [Keeps.upd_iff]
    | split
    | refine Keeps.of_pair (by assumption) ?_
    | refine Keeps.of_triple (by assumption) ?_
    | refine Keeps.of_fst (by assumption) ?_
    | refine Keeps.of_some (by assumption) ?_
    | refine Keeps.of_ok (by assumption) ?_

theorem vePrimed_keeps {s₀ s : State} {x1} {x2} {x3} {x4} (h : Keeps s₀ s) :
    Keeps s₀ (vePrimed s x1 x2 x3 x4) := by
  unfold vePrimed
  repeat' first
    | intro _
    | with_reducible assumption
    | with_reducible first | apply recMax_keeps | apply recSwap_keeps | apply State.put_keeps | apply updVe_keeps
    | with_reducible first | apply Keeps.ite | apply Keeps.ite_snd | apply Keeps.forN | apply Keeps.getD | apply Keeps.elim | apply Keeps.foldl | apply Keeps.foldl_snd | apply Keeps.foldl_third | apply Keeps.foldl_fst
    | dsimp only
    | simp only [Keeps.upd_iff]
    | split
    | refine Keeps.of_pair (by assumption) ?_
    | refine Keeps.of_triple (by assumption) ?_
    | refine Keeps.of_fst (by assumption) ?_
    | refine Keeps.of_some (by assumption) ?_
    | refine Keeps.of_ok (by assumption) ?_

theorem veLast_keeps {s₀ s : State} {x1} {x2} {x3} {x4} (h : Keeps s₀ s) :
    Keeps s₀ (veLast s x1 x2 x3 x4) := by
  unfold veLast
  repeat' first
    | intro _
    | with_reducible assumption
    | with_reducible first | apply vePrimed_keeps | apply updVe_keeps | apply writeMem_keeps | apply veClose_keeps | apply veStatus_keeps
    | with_reducible first | apply Keeps.ite | apply Keeps.ite_snd | apply Keeps.forN | apply Keeps.getD | apply Keeps.elim | apply Keeps.foldl | apply Keeps.foldl_snd | apply Keeps.foldl_third | apply Keeps.foldl_fst
    | dsimp only
    | simp only [Keeps.upd_iff]
    | split
    | refine Keeps.of_pair (by assumption) ?_
    | refine Keeps.of_triple (by assumption) ?_
    | refine Keeps.of_fst (by assumption) ?_
    | refine Keeps.of_some (by assumption) ?_
    | refine Keeps.of_ok (by assumption) ?_

theorem veConsume_keeps {s₀ s : State} {x1} {x2} {x3} {x4} {x5} (h : Keeps s₀ s) :
    Keeps s₀ (veConsume s x1 x2 x3 x4 x5) := by
  unfold veConsume
  repeat' first
    | intro _
    | with_reducible assumption
    | with_reducible first | apply veStop_keeps | apply State.setCluster_keeps | apply updLive_keeps | apply updVe_keeps | apply epiEntry_keeps | apply stripEntry_keeps | apply veLast_keeps | apply veConsume_keeps
    | with_reducible first | apply Keeps.ite | apply Keeps.ite_snd | apply Keeps.forN | apply Keeps.getD | apply Keeps.elim | apply Keeps.foldl | apply Keeps.foldl_snd | apply Keeps.foldl_third | apply Keeps.foldl_fst
    | dsimp only
    | simp only [Keeps.upd_iff]
    | split
    | refine Keeps.of_pair (by assumption) ?_
    | refine Keeps.of_triple (by assumption) ?_
    | refine Keeps.of_fst (by assumption) ?_
    | refine Keeps.of_some (by assumption) ?_
    | refine Keeps.of_ok (by assumption) ?_

theorem veWork_keeps {s₀ s : State} {x1} {x2} {x3} {x4} {x5} {x6} (h : Keeps s₀ s) :
    Keeps s₀ (veWork s x1 x2 x3 x4 x5 x6).2 := by
  unfold veWork
  repeat' first
    | intro _
    | with_reducible assumption
    | with_reducible first | apply readIns_keeps | apply State.tock_keeps
    | with_reducible first | apply Keeps.ite | apply Keeps.ite_snd | apply Keeps.forN | apply Keeps.getD | apply Keeps.elim | apply Keeps.foldl | apply Keeps.foldl_snd | apply Keeps.foldl_third | apply Keeps.foldl_fst
    | dsimp only
    | simp only [Keeps.upd_iff]
    | split
    | refine Keeps.of_pair (by assumption) ?_
    | refine Keeps.of_triple (by assumption) ?_
    | refine Keeps.of_fst (by assumption) ?_
    | refine Keeps.of_some (by assumption) ?_
    | refine Keeps.of_ok (by assumption) ?_

theorem writePlan_keeps {s₀ s : State} {x1} {x2} (h : Keeps s₀ s) :
    Keeps s₀ (writePlan s x1 x2).2 := by
  unfold writePlan
  repeat' first
    | intro _
    | with_reducible assumption
    | with_reducible first | apply writeAll_keeps | apply writeRows_keeps
    | with_reducible first | apply Keeps.ite | apply Keeps.ite_snd | apply Keeps.some | apply Keeps.none | apply Keeps.forN | apply Keeps.getD | apply Keeps.elim | apply Keeps.foldl | apply Keeps.foldl_snd | apply Keeps.foldl_third | apply Keeps.foldl_fst
    | dsimp only
    | simp only [Keeps.upd_iff]
    | split
    | refine Keeps.of_pair (by assumption) ?_
    | refine Keeps.of_triple (by assumption) ?_
    | refine Keeps.of_fst (by assumption) ?_
    | refine Keeps.of_some (by assumption) ?_
    | refine Keeps.of_ok (by assumption) ?_

theorem writePlans_keeps {s₀ s : State} {x1} {x2} (h : Keeps s₀ s) :
    Keeps s₀ (writePlans s x1 x2).2 := by
  unfold writePlans
  repeat' first
    | intro _
    | with_reducible assumption
    | with_reducible first | apply writePlan_keeps | apply writePlans_keeps
    | with_reducible first | apply Keeps.ite | apply Keeps.ite_snd | apply Keeps.some | apply Keeps.none | apply Keeps.forN | apply Keeps.getD | apply Keeps.elim | apply Keeps.foldl | apply Keeps.foldl_snd | apply Keeps.foldl_third | apply Keeps.foldl_fst
    | dsimp only
    | simp only [Keeps.upd_iff]
    | split
    | refine Keeps.of_pair (by assumption) ?_
    | refine Keeps.of_triple (by assumption) ?_
    | refine Keeps.of_fst (by assumption) ?_
    | refine Keeps.of_some (by assumption) ?_
    | refine Keeps.of_ok (by assumption) ?_

theorem veWhole_keeps {s₀ s : State} {x1} {x2} {x3} {x4} (h : Keeps s₀ s) :
    Keeps s₀ (veWhole s x1 x2 x3 x4) := by
  unfold veWhole
  repeat' first
    | intro _
    | with_reducible assumption
    | with_reducible first | apply veWork_keeps | apply veEnd_keeps | apply vePrimed_keeps | apply updVe_keeps | apply writePlans_keeps | apply State.bump_keeps | apply sendRun_keeps | apply veClose_keeps
    | with_reducible first | apply Keeps.ite | apply Keeps.ite_snd | apply Keeps.forN | apply Keeps.getD | apply Keeps.elim | apply Keeps.foldl | apply Keeps.foldl_snd | apply Keeps.foldl_third | apply Keeps.foldl_fst
    | dsimp only
    | simp only [Keeps.upd_iff]
    | split
    | refine Keeps.of_pair (by assumption) ?_
    | refine Keeps.of_triple (by assumption) ?_
    | refine Keeps.of_fst (by assumption) ?_
    | refine Keeps.of_some (by assumption) ?_
    | refine Keeps.of_ok (by assumption) ?_

theorem veGo_keeps {s₀ s : State} {x1} {x2} {x3} {x4} (h : Keeps s₀ s) :
    Keeps s₀ (veGo s x1 x2 x3 x4) := by
  unfold veGo
  repeat' first
    | intro _
    | with_reducible assumption
    | with_reducible first | apply veConsume_keeps | apply veWhole_keeps
    | with_reducible first | apply Keeps.ite | apply Keeps.ite_snd | apply Keeps.forN | apply Keeps.getD | apply Keeps.elim | apply Keeps.foldl | apply Keeps.foldl_snd | apply Keeps.foldl_third | apply Keeps.foldl_fst
    | dsimp only
    | simp only [Keeps.upd_iff]
    | split
    | refine Keeps.of_pair (by assumption) ?_
    | refine Keeps.of_triple (by assumption) ?_
    | refine Keeps.of_fst (by assumption) ?_
    | refine Keeps.of_some (by assumption) ?_
    | refine Keeps.of_ok (by assumption) ?_

theorem veNoRecord_keeps {s₀ s : State} {x1} {x2} {x3} {x4} {x5} (h : Keeps s₀ s) :
    Keeps s₀ (veNoRecord s x1 x2 x3 x4 x5) := by
  unfold veNoRecord
  repeat' first
    | intro _
    | with_reducible assumption
    | with_reducible first | apply veGo_keeps | apply veStatus_keeps | apply updVe_keeps
    | with_reducible first | apply Keeps.ite | apply Keeps.ite_snd | apply Keeps.forN | apply Keeps.getD | apply Keeps.elim | apply Keeps.foldl | apply Keeps.foldl_snd | apply Keeps.foldl_third | apply Keeps.foldl_fst
    | dsimp only
    | simp only [Keeps.upd_iff]
    | split
    | refine Keeps.of_pair (by assumption) ?_
    | refine Keeps.of_triple (by assumption) ?_
    | refine Keeps.of_fst (by assumption) ?_
    | refine Keeps.of_some (by assumption) ?_
    | refine Keeps.of_ok (by assumption) ?_

theorem veWithRecord_keeps {s₀ s : State} {x1} {x2} {x3} {x4} {x5} (h : Keeps s₀ s) :
    Keeps s₀ (veWithRecord s x1 x2 x3 x4 x5) := by
  unfold veWithRecord
  repeat' first
    | intro _
    | with_reducible assumption
    | with_reducible first | apply veEnd_keeps | apply updVe_keeps | apply veGo_keeps
    | with_reducible first | apply Keeps.ite | apply Keeps.ite_snd | apply Keeps.forN | apply Keeps.getD | apply Keeps.elim | apply Keeps.foldl | apply Keeps.foldl_snd | apply Keeps.foldl_third | apply Keeps.foldl_fst
    | dsimp only
    | simp only [Keeps.upd_iff]
    | split
    | refine Keeps.of_pair (by assumption) ?_
    | refine Keeps.of_triple (by assumption) ?_
    | refine Keeps.of_fst (by assumption) ?_
    | refine Keeps.of_some (by assumption) ?_
    | refine Keeps.of_ok (by assumption) ?_

theorem veAnswer_keeps {s₀ s : State} {x1} {x2} {x3} {x4} (h : Keeps s₀ s) :
    Keeps s₀ (veAnswer s x1 x2 x3 x4) := by
  unfold veAnswer
  repeat' first
    | intro _
    | with_reducible assumption
    | with_reducible first | apply updVe_keeps | apply veSettle_keeps
    | with_reducible first | apply Keeps.ite | apply Keeps.ite_snd | apply Keeps.forN | apply Keeps.getD | apply Keeps.elim | apply Keeps.foldl | apply Keeps.foldl_snd | apply Keeps.foldl_third | apply Keeps.foldl_fst
    | dsimp only
    | simp only [Keeps.upd_iff]
    | split
    | refine Keeps.of_pair (by assumption) ?_
    | refine Keeps.of_triple (by assumption) ?_
    | refine Keeps.of_fst (by assumption) ?_
    | refine Keeps.of_some (by assumption) ?_
    | refine Keeps.of_ok (by assumption) ?_

theorem veRecAnswer_keeps {s₀ s : State} {x1} {x2} {x3} {x4} {x5} {x6} (h : Keeps s₀ s) :
    Keeps s₀ (veRecAnswer s x1 x2 x3 x4 x5 x6) := by
  unfold veRecAnswer
  repeat' first
    | intro _
    | with_reducible assumption
    | with_reducible first | apply veNoRecord_keeps | apply veWithRecord_keeps | apply veAnswer_keeps | apply recSwap_keeps | apply updVe_keeps
    | with_reducible first | apply Keeps.ite | apply Keeps.ite_snd | apply Keeps.forN | apply Keeps.getD | apply Keeps.elim | apply Keeps.foldl | apply Keeps.foldl_snd | apply Keeps.foldl_third | apply Keeps.foldl_fst
    | dsimp only
    | simp only [Keeps.upd_iff]
    | split
    | refine Keeps.of_pair (by assumption) ?_
    | refine Keeps.of_triple (by assumption) ?_
    | refine Keeps.of_fst (by assumption) ?_
    | refine Keeps.of_some (by assumption) ?_
    | refine Keeps.of_ok (by assumption) ?_

theorem stripChecks_keeps {s₀ s : State} {x1} {x2} {x3} (h : Keeps s₀ s) :
    Keeps s₀ (stripChecks s x1 x2 x3).2 := by
  unfold stripChecks
  repeat' first
    | intro _
    | with_reducible assumption
    | with_reducible first | apply headerAgrees_keeps | apply readStrm_keeps | apply stripChecks_keeps
    | with_reducible first | apply Keeps.ite | apply Keeps.ite_snd | apply Keeps.forN | apply Keeps.getD | apply Keeps.elim | apply Keeps.foldl | apply Keeps.foldl_snd | apply Keeps.foldl_third | apply Keeps.foldl_fst
    | dsimp only
    | simp only [Keeps.upd_iff]
    | split
    | refine Keeps.of_pair (by assumption) ?_
    | refine Keeps.of_triple (by assumption) ?_
    | refine Keeps.of_fst (by assumption) ?_
    | refine Keeps.of_some (by assumption) ?_
    | refine Keeps.of_ok (by assumption) ?_

theorem veBegin_keeps {s₀ s : State} {x1} {x2} {x3} {x4} (h : Keeps s₀ s) :
    Keeps s₀ (veBegin s x1 x2 x3 x4) := by
  unfold veBegin
  repeat' first
    | intro _
    | with_reducible assumption
    | with_reducible first | apply veEnd_keeps | apply readMem_keeps | apply updLive_keeps | apply stripChecks_keeps | apply State.setCluster_keeps | apply veGo_keeps | apply veWithRecord_keeps | apply ask_keeps | apply updVe_keeps
    | with_reducible first | apply Keeps.ite | apply Keeps.ite_snd | apply Keeps.forN | apply Keeps.getD | apply Keeps.elim | apply Keeps.foldl | apply Keeps.foldl_snd | apply Keeps.foldl_third | apply Keeps.foldl_fst
    | dsimp only
    | simp only [Keeps.upd_iff]
    | split
    | refine Keeps.of_pair (by assumption) ?_
    | refine Keeps.of_triple (by assumption) ?_
    | refine Keeps.of_fst (by assumption) ?_
    | refine Keeps.of_some (by assumption) ?_
    | refine Keeps.of_ok (by assumption) ?_

theorem execPrimeRelease_keeps {s₀ s : State} {x0} {x1} (h : Keeps s₀ s) :
    OutKeeps s₀ (execPrimeRelease x0 x1 s) := by
  unfold execPrimeRelease
  repeat' first
    | intro _
    | with_reducible assumption
    | with_reducible first | apply veReplay_keeps | apply veGo_keeps | apply State.put_keeps | apply veStatus_keeps | apply updVe_keeps | apply readMem_keeps | apply writeNat_keeps
    | with_reducible first | apply Keeps.ite | apply Keeps.ite_snd | apply Keeps.out | apply Keeps.out_fault | apply Keeps.out_refused | apply Keeps.forN | apply Keeps.getD | apply Keeps.elim | apply Keeps.foldl | apply Keeps.foldl_snd | apply Keeps.foldl_third | apply Keeps.foldl_fst
    | dsimp only
    | simp only [Keeps.upd_iff]
    | split
    | refine Keeps.of_pair (by assumption) ?_
    | refine Keeps.of_triple (by assumption) ?_
    | refine Keeps.of_fst (by assumption) ?_
    | refine Keeps.of_some (by assumption) ?_
    | refine Keeps.of_ok (by assumption) ?_

theorem veStart_keeps {s₀ s : State} {x1} {x2} {x3} (h : Keeps s₀ s) :
    Keeps s₀ (veStart s x1 x2 x3) := by
  unfold veStart
  repeat' first
    | intro _
    | with_reducible assumption
    | with_reducible first | apply veBegin_keeps | apply updLive_keeps | apply fifoPop_keeps
    | with_reducible first | apply Keeps.ite | apply Keeps.ite_snd | apply Keeps.forN | apply Keeps.getD | apply Keeps.elim | apply Keeps.foldl | apply Keeps.foldl_snd | apply Keeps.foldl_third | apply Keeps.foldl_fst
    | dsimp only
    | simp only [Keeps.upd_iff]
    | split
    | refine Keeps.of_pair (by assumption) ?_
    | refine Keeps.of_triple (by assumption) ?_
    | refine Keeps.of_fst (by assumption) ?_
    | refine Keeps.of_some (by assumption) ?_
    | refine Keeps.of_ok (by assumption) ?_

theorem execVeExec_keeps {s₀ s : State} {x0} {x1} (h : Keeps s₀ s) :
    OutKeeps s₀ (execVeExec x0 x1 s) := by
  unfold execVeExec
  repeat' first
    | intro _
    | with_reducible assumption
    | with_reducible first | apply veStart_keeps | apply veGo_keeps
    | with_reducible first | apply Keeps.ite | apply Keeps.ite_snd | apply Keeps.out | apply Keeps.out_fault | apply Keeps.out_refused | apply Keeps.forN | apply Keeps.getD | apply Keeps.elim | apply Keeps.foldl | apply Keeps.foldl_snd | apply Keeps.foldl_third | apply Keeps.foldl_fst
    | dsimp only
    | simp only [Keeps.upd_iff]
    | split
    | refine Keeps.of_pair (by assumption) ?_
    | refine Keeps.of_triple (by assumption) ?_
    | refine Keeps.of_fst (by assumption) ?_
    | refine Keeps.of_some (by assumption) ?_
    | refine Keeps.of_ok (by assumption) ?_

end Sys2Proof.Machine
end

