-- ==== Sys2Proof/Laws/KeepsUpe.lean ====
section
/-! SUPPORT. What no operation of Upe.lean touches or breaks. -/
namespace Sys2Proof.Machine

theorem setRun_keeps {s₀ s : State} {x1} {x2} {x3} (h : Keeps s₀ s) :
    Keeps s₀ (setRun s x1 x2 x3) := by
  unfold setRun
  repeat' first
    | intro _
    | with_reducible assumption
    | with_reducible first | apply State.setUpe_keeps
    | with_reducible first | apply Keeps.ite | apply Keeps.ite_snd | apply Keeps.forN | apply Keeps.getD | apply Keeps.elim | apply Keeps.foldl | apply Keeps.foldl_snd | apply Keeps.foldl_third | apply Keeps.foldl_fst
    | dsimp only
    | simp only [Keeps.upd_iff]
    | split
    | refine Keeps.of_pair (by assumption) ?_
    | refine Keeps.of_triple (by assumption) ?_
    | refine Keeps.of_fst (by assumption) ?_
    | refine Keeps.of_some (by assumption) ?_
    | refine Keeps.of_ok (by assumption) ?_

theorem upeEnd_keeps {s₀ s : State} {x1} {x2} {x3} {x4} {x5} {x6} (h : Keeps s₀ s) :
    Keeps s₀ (upeEnd s x1 x2 x3 x4 x5 x6) := by
  unfold upeEnd
  repeat' first
    | intro _
    | with_reducible assumption
    | with_reducible first | apply setRun_keeps | apply reopen_keeps | apply finish_keeps
    | with_reducible first | apply Keeps.ite | apply Keeps.ite_snd | apply Keeps.forN | apply Keeps.getD | apply Keeps.elim | apply Keeps.foldl | apply Keeps.foldl_snd | apply Keeps.foldl_third | apply Keeps.foldl_fst
    | dsimp only
    | simp only [Keeps.upd_iff]
    | split
    | refine Keeps.of_pair (by assumption) ?_
    | refine Keeps.of_triple (by assumption) ?_
    | refine Keeps.of_fst (by assumption) ?_
    | refine Keeps.of_some (by assumption) ?_
    | refine Keeps.of_ok (by assumption) ?_

theorem upeCommit_keeps {s₀ s : State} {x1} {x2} {x3} {x4} {x5} {x6} {x7} (h : Keeps s₀ s) :
    Keeps s₀ (upeCommit s x1 x2 x3 x4 x5 x6 x7) := by
  unfold upeCommit
  repeat' first
    | intro _
    | with_reducible assumption
    | with_reducible first | apply readNat_keeps | apply upeEnd_keeps | apply writeNat_keeps
    | with_reducible first | apply Keeps.ite | apply Keeps.ite_snd | apply Keeps.forN | apply Keeps.getD | apply Keeps.elim | apply Keeps.foldl | apply Keeps.foldl_snd | apply Keeps.foldl_third | apply Keeps.foldl_fst
    | dsimp only
    | simp only [Keeps.upd_iff]
    | split
    | refine Keeps.of_pair (by assumption) ?_
    | refine Keeps.of_triple (by assumption) ?_
    | refine Keeps.of_fst (by assumption) ?_
    | refine Keeps.of_some (by assumption) ?_
    | refine Keeps.of_ok (by assumption) ?_

theorem maxRec_keeps {s₀ s : State} {x1} {x2} {x3} (h : Keeps s₀ s) :
    Keeps s₀ (maxRec s x1 x2 x3).2 := by
  unfold maxRec
  repeat' first
    | intro _
    | with_reducible assumption
    | with_reducible first | apply doAtomic_keeps
    | with_reducible first | apply Keeps.ite | apply Keeps.ite_snd | apply Keeps.forN | apply Keeps.getD | apply Keeps.elim | apply Keeps.foldl | apply Keeps.foldl_snd | apply Keeps.foldl_third | apply Keeps.foldl_fst
    | dsimp only
    | simp only [Keeps.upd_iff]
    | split
    | refine Keeps.of_pair (by assumption) ?_
    | refine Keeps.of_triple (by assumption) ?_
    | refine Keeps.of_fst (by assumption) ?_
    | refine Keeps.of_some (by assumption) ?_
    | refine Keeps.of_ok (by assumption) ?_

theorem upeClose_keeps {s₀ s : State} {x1} {x2} {x3} {x4} {x5} {x6} {x7} (h : Keeps s₀ s) :
    Keeps s₀ (upeClose s x1 x2 x3 x4 x5 x6 x7) := by
  unfold upeClose
  repeat' first
    | intro _
    | with_reducible assumption
    | with_reducible first | apply upeCommit_keeps | apply upeEnd_keeps
    | with_reducible first | apply Keeps.ite | apply Keeps.ite_snd | apply Keeps.forN | apply Keeps.getD | apply Keeps.elim | apply Keeps.foldl | apply Keeps.foldl_snd | apply Keeps.foldl_third | apply Keeps.foldl_fst
    | dsimp only
    | simp only [Keeps.upd_iff]
    | split
    | refine Keeps.of_pair (by assumption) ?_
    | refine Keeps.of_triple (by assumption) ?_
    | refine Keeps.of_fst (by assumption) ?_
    | refine Keeps.of_some (by assumption) ?_
    | refine Keeps.of_ok (by assumption) ?_

theorem mastersNow_keeps {s₀ s : State} {x1} {x2} {x3} (h : Keeps s₀ s) :
    Keeps s₀ (mastersNow s x1 x2 x3).2 := by
  unfold mastersNow
  repeat' first
    | intro _
    | with_reducible assumption
    | with_reducible first | apply readMem_keeps
    | with_reducible first | apply Keeps.ite | apply Keeps.ite_snd | apply Keeps.forN | apply Keeps.getD | apply Keeps.elim | apply Keeps.foldl | apply Keeps.foldl_snd | apply Keeps.foldl_third | apply Keeps.foldl_fst
    | dsimp only
    | simp only [Keeps.upd_iff]
    | split
    | refine Keeps.of_pair (by assumption) ?_
    | refine Keeps.of_triple (by assumption) ?_
    | refine Keeps.of_fst (by assumption) ?_
    | refine Keeps.of_some (by assumption) ?_
    | refine Keeps.of_ok (by assumption) ?_

theorem upeQuant_keeps {s₀ s : State} {x1} {x2} {x3} {x4} {x5} (h : Keeps s₀ s) :
    Keeps s₀ (upeQuant s x1 x2 x3 x4 x5).2 := by
  unfold upeQuant
  repeat' first
    | intro _
    | with_reducible assumption
    | with_reducible first | apply writeAll_keeps | apply maxRec_keeps | apply readNat_keeps | apply writeNat_keeps
    | with_reducible first | apply Keeps.ite | apply Keeps.ite_snd | apply Keeps.forN | apply Keeps.getD | apply Keeps.elim | apply Keeps.foldl | apply Keeps.foldl_snd | apply Keeps.foldl_third | apply Keeps.foldl_fst
    | dsimp only
    | simp only [Keeps.upd_iff]
    | split
    | refine Keeps.of_pair (by assumption) ?_
    | refine Keeps.of_triple (by assumption) ?_
    | refine Keeps.of_fst (by assumption) ?_
    | refine Keeps.of_some (by assumption) ?_
    | refine Keeps.of_ok (by assumption) ?_

theorem upePrimed_keeps {s₀ s : State} {x1} {x2} {x3} {x4} {x5} {x6} {x7} (h : Keeps s₀ s) :
    Keeps s₀ (upePrimed s x1 x2 x3 x4 x5 x6 x7) := by
  unfold upePrimed
  repeat' first
    | intro _
    | with_reducible assumption
    | with_reducible first | apply writeNat_keeps | apply mastersNow_keeps | apply upeEnd_keeps | apply upeQuant_keeps | apply upeClose_keeps
    | with_reducible first | apply Keeps.ite | apply Keeps.ite_snd | apply Keeps.forN | apply Keeps.getD | apply Keeps.elim | apply Keeps.foldl | apply Keeps.foldl_snd | apply Keeps.foldl_third | apply Keeps.foldl_fst
    | dsimp only
    | simp only [Keeps.upd_iff]
    | split
    | refine Keeps.of_pair (by assumption) ?_
    | refine Keeps.of_triple (by assumption) ?_
    | refine Keeps.of_fst (by assumption) ?_
    | refine Keeps.of_some (by assumption) ?_
    | refine Keeps.of_ok (by assumption) ?_

theorem upeWork_keeps {s₀ s : State} {x1} {x2} {x3} {x4} {x5} {x6} {x7} {x8} (h : Keeps s₀ s) :
    Keeps s₀ (upeWork s x1 x2 x3 x4 x5 x6 x7 x8) := by
  unfold upeWork
  repeat' first
    | intro _
    | with_reducible assumption
    | with_reducible first | apply writeMem_keeps | apply upeEnd_keeps | apply upeCommit_keeps | apply maxRec_keeps | apply upeClose_keeps | apply readNat_keeps | apply writeNat_keeps | apply readMem_keeps | apply setRun_keeps | apply upePrimed_keeps | apply upeQuant_keeps
    | with_reducible first | apply Keeps.ite | apply Keeps.ite_snd | apply Keeps.forN | apply Keeps.getD | apply Keeps.elim | apply Keeps.foldl | apply Keeps.foldl_snd | apply Keeps.foldl_third | apply Keeps.foldl_fst
    | dsimp only
    | simp only [Keeps.upd_iff]
    | split
    | refine Keeps.of_pair (by assumption) ?_
    | refine Keeps.of_triple (by assumption) ?_
    | refine Keeps.of_fst (by assumption) ?_
    | refine Keeps.of_some (by assumption) ?_
    | refine Keeps.of_ok (by assumption) ?_

theorem readArrays_keeps {s₀ s : State} {x1} {x2} (h : Keeps s₀ s) :
    Keeps s₀ (readArrays s x1 x2).2 := by
  unfold readArrays
  repeat' first
    | intro _
    | with_reducible assumption
    | with_reducible first | apply readMem_keeps | apply readArrays_keeps
    | with_reducible first | apply Keeps.ite | apply Keeps.ite_snd | apply Keeps.forN | apply Keeps.getD | apply Keeps.elim | apply Keeps.foldl | apply Keeps.foldl_snd | apply Keeps.foldl_third | apply Keeps.foldl_fst
    | dsimp only
    | simp only [Keeps.upd_iff]
    | split
    | refine Keeps.of_pair (by assumption) ?_
    | refine Keeps.of_triple (by assumption) ?_
    | refine Keeps.of_fst (by assumption) ?_
    | refine Keeps.of_some (by assumption) ?_
    | refine Keeps.of_ok (by assumption) ?_

theorem upeGroup_keeps {s₀ : State} {r : Nat} {l : Live} {ud : List Byte} {x : Slice} {k : UpeCoef} {n : Nat} {z : UpeSum × State}
    {g : Nat} (h : Keeps s₀ z.2) : Keeps s₀ (upeGroup r l ud x k n z g).2 := by
  obtain ⟨acc, s⟩ := z
  have hw {b : Prop} [Decidable b] {c w} {u : State} (hu : Keeps s₀ u) :
      Keeps s₀ (if b then writeGroup u c w else writeAll u c w).2 := Keeps.ite_snd (writeGroup_keeps hu) (writeAll_keeps hu)
  unfold upeGroup
  dsimp only
  split
  · exact h
  · split
    · rename_i e
      exact Keeps.of_pair e (readArrays_keeps h)
    · rename_i e
      have h' := Keeps.of_pair e (readArrays_keeps h)
      split
      · rename_i e
        exact Keeps.of_pair e (hw h')
      · rename_i e
        exact Keeps.of_pair e (hw h')

theorem upeApply_keeps {s₀ s : State} {x1} {x2} {x3} {x4} {x5} {x6} {x7} (h : Keeps s₀ s) :
    Keeps s₀ (upeApply s x1 x2 x3 x4 x5 x6 x7) := by
  unfold upeApply
  repeat' first
    | intro _
    | with_reducible assumption
    | with_reducible first | apply readNat_keeps | apply upeEnd_keeps | apply readMem_keeps | apply upeGroup_keeps | apply updFlow_keeps | apply State.bump_keeps | apply raiseErr_keeps | apply upeCommit_keeps | apply upeWork_keeps
    | with_reducible first | apply Keeps.ite | apply Keeps.ite_snd | apply Keeps.forN | apply Keeps.getD | apply Keeps.elim | apply Keeps.foldl | apply Keeps.foldl_snd | apply Keeps.foldl_third | apply Keeps.foldl_fst
    | dsimp only
    | simp only [Keeps.upd_iff]
    | split
    | refine Keeps.of_pair (by assumption) ?_
    | refine Keeps.of_triple (by assumption) ?_
    | refine Keeps.of_fst (by assumption) ?_
    | refine Keeps.of_some (by assumption) ?_
    | refine Keeps.of_ok (by assumption) ?_

theorem upeAdvance_keeps {s₀ s : State} {x1} {x2} (h : Keeps s₀ s) :
    Keeps s₀ (upeAdvance s x1 x2) := by
  unfold upeAdvance
  repeat' first
    | intro _
    | with_reducible assumption
    | with_reducible first | apply sliceTable_keeps | apply upeEnd_keeps | apply upeCommit_keeps | apply readMem_keeps | apply upeClose_keeps | apply upePrimed_keeps | apply upeApply_keeps
    | with_reducible first | apply Keeps.ite | apply Keeps.ite_snd | apply Keeps.forN | apply Keeps.getD | apply Keeps.elim | apply Keeps.foldl | apply Keeps.foldl_snd | apply Keeps.foldl_third | apply Keeps.foldl_fst
    | dsimp only
    | simp only [Keeps.upd_iff]
    | split
    | refine Keeps.of_pair (by assumption) ?_
    | refine Keeps.of_triple (by assumption) ?_
    | refine Keeps.of_fst (by assumption) ?_
    | refine Keeps.of_some (by assumption) ?_
    | refine Keeps.of_ok (by assumption) ?_

theorem upeStart_keeps {s₀ s : State} {x1} {x2} {x3} (h : Keeps s₀ s) :
    Keeps s₀ (upeStart s x1 x2 x3) := by
  unfold upeStart
  repeat' first
    | intro _
    | with_reducible assumption
    | with_reducible first | apply updLive_keeps | apply fifoDrop_keeps | apply State.setUpe_keeps | apply finish_keeps | apply readMem_keeps | apply upeAdvance_keeps | apply setRun_keeps
    | with_reducible first | apply Keeps.ite | apply Keeps.ite_snd | apply Keeps.forN | apply Keeps.getD | apply Keeps.elim | apply Keeps.foldl | apply Keeps.foldl_snd | apply Keeps.foldl_third | apply Keeps.foldl_fst
    | dsimp only
    | simp only [Keeps.upd_iff]
    | split
    | refine Keeps.of_pair (by assumption) ?_
    | refine Keeps.of_triple (by assumption) ?_
    | refine Keeps.of_fst (by assumption) ?_
    | refine Keeps.of_some (by assumption) ?_
    | refine Keeps.of_ok (by assumption) ?_

theorem upeDiscard_keeps {s₀ s : State} {x1} {x2} {x3} (h : Keeps s₀ s) :
    Keeps s₀ (upeDiscard s x1 x2 x3) := by
  unfold upeDiscard
  repeat' first
    | intro _
    | with_reducible assumption
    | with_reducible first | apply upeAdvance_keeps | apply readMem_keeps | apply upeStart_keeps | apply setRun_keeps
    | with_reducible first | apply Keeps.ite | apply Keeps.ite_snd | apply Keeps.forN | apply Keeps.getD | apply Keeps.elim | apply Keeps.foldl | apply Keeps.foldl_snd | apply Keeps.foldl_third | apply Keeps.foldl_fst
    | dsimp only
    | simp only [Keeps.upd_iff]
    | split
    | refine Keeps.of_pair (by assumption) ?_
    | refine Keeps.of_triple (by assumption) ?_
    | refine Keeps.of_fst (by assumption) ?_
    | refine Keeps.of_some (by assumption) ?_
    | refine Keeps.of_ok (by assumption) ?_

theorem execUpeUpdate_keeps {s₀ s : State} {x0} {x1} (h : Keeps s₀ s) :
    OutKeeps s₀ (execUpeUpdate x0 x1 s) := by
  unfold execUpeUpdate
  repeat' first
    | intro _
    | with_reducible assumption
    | with_reducible first | apply upeAdvance_keeps | apply upeStart_keeps
    | with_reducible first | apply Keeps.ite | apply Keeps.ite_snd | apply Keeps.out | apply Keeps.out_fault | apply Keeps.out_refused | apply Keeps.forN | apply Keeps.getD | apply Keeps.elim | apply Keeps.foldl | apply Keeps.foldl_snd | apply Keeps.foldl_third | apply Keeps.foldl_fst
    | dsimp only
    | simp only [Keeps.upd_iff]
    | split
    | refine Keeps.of_pair (by assumption) ?_
    | refine Keeps.of_triple (by assumption) ?_
    | refine Keeps.of_fst (by assumption) ?_
    | refine Keeps.of_some (by assumption) ?_
    | refine Keeps.of_ok (by assumption) ?_

end Sys2Proof.Machine
end

