-- ==== Sys2Proof/Laws/KeepsAbort.lean ====
section
/-! SUPPORT. What no operation of Abort.lean touches or breaks. -/
namespace Sys2Proof.Machine

theorem dropUnstarted_keeps {s₀ s : State} {x1} {x2} (h : Keeps s₀ s) :
    Keeps s₀ (dropUnstarted s x1 x2) := by
  unfold dropUnstarted
  repeat' first
    | intro _
    | with_reducible assumption
    | with_reducible first | apply fifoDrop_keeps | apply State.setChan_keeps
    | with_reducible first | apply Keeps.ite | apply Keeps.ite_snd | apply Keeps.forN | apply Keeps.getD | apply Keeps.elim | apply Keeps.foldl | apply Keeps.foldl_snd | apply Keeps.foldl_third | apply Keeps.foldl_fst
    | dsimp only
    | simp only [Keeps.upd_iff]
    | split
    | refine Keeps.of_pair (by assumption) ?_
    | refine Keeps.of_triple (by assumption) ?_
    | refine Keeps.of_fst (by assumption) ?_
    | refine Keeps.of_some (by assumption) ?_
    | refine Keeps.of_ok (by assumption) ?_

theorem fetchRing_keeps {s₀ s : State} {x1} {x2} {x3} (h : Keeps s₀ s) :
    Keeps s₀ (fetchRing s x1 x2 x3) := by
  unfold fetchRing
  repeat' first
    | intro _
    | with_reducible assumption
    | with_reducible first | apply fetchOne_keeps | apply fetchRing_keeps
    | with_reducible first | apply Keeps.ite | apply Keeps.ite_snd | apply Keeps.forN | apply Keeps.getD | apply Keeps.elim | apply Keeps.foldl | apply Keeps.foldl_snd | apply Keeps.foldl_third | apply Keeps.foldl_fst
    | dsimp only
    | simp only [Keeps.upd_iff]
    | split
    | refine Keeps.of_pair (by assumption) ?_
    | refine Keeps.of_triple (by assumption) ?_
    | refine Keeps.of_fst (by assumption) ?_
    | refine Keeps.of_some (by assumption) ?_
    | refine Keeps.of_ok (by assumption) ?_

theorem retireStruck_keeps {s₀ s : State} {x1} {x2} (h : Keeps s₀ s) :
    Keeps s₀ (retireStruck s x1 x2) := by
  unfold retireStruck
  repeat' first
    | intro _
    | with_reducible assumption
    | with_reducible first | apply updLive_keeps | apply State.stalls_keeps | apply requestRetire_keeps | apply State.tock_keeps
    | with_reducible first | apply Keeps.ite | apply Keeps.ite_snd | apply Keeps.forN | apply Keeps.getD | apply Keeps.elim | apply Keeps.foldl | apply Keeps.foldl_snd | apply Keeps.foldl_third | apply Keeps.foldl_fst
    | dsimp only
    | simp only [Keeps.upd_iff]
    | split
    | refine Keeps.of_pair (by assumption) ?_
    | refine Keeps.of_triple (by assumption) ?_
    | refine Keeps.of_fst (by assumption) ?_
    | refine Keeps.of_some (by assumption) ?_
    | refine Keeps.of_ok (by assumption) ?_

theorem tellOwners_keeps {s₀ s : State} {x1} {x2} (h : Keeps s₀ s) :
    Keeps s₀ (tellOwners s x1 x2) := by
  unfold tellOwners
  repeat' first
    | intro _
    | with_reducible assumption
    | with_reducible first | apply sendNotice_keeps
    | with_reducible first | apply Keeps.ite | apply Keeps.ite_snd | apply Keeps.forN | apply Keeps.getD | apply Keeps.elim | apply Keeps.foldl | apply Keeps.foldl_snd | apply Keeps.foldl_third | apply Keeps.foldl_fst
    | dsimp only
    | simp only [Keeps.upd_iff]
    | split
    | refine Keeps.of_pair (by assumption) ?_
    | refine Keeps.of_triple (by assumption) ?_
    | refine Keeps.of_fst (by assumption) ?_
    | refine Keeps.of_some (by assumption) ?_
    | refine Keeps.of_ok (by assumption) ?_

theorem veUnstarted_keeps {s₀ s : State} {x1} {x2} {x3} (h : Keeps s₀ s) :
    Keeps s₀ (veUnstarted s x1 x2 x3) := by
  unfold veUnstarted
  repeat' first
    | intro _
    | with_reducible assumption
    | with_reducible first | apply tellOwners_keeps | apply State.setCluster_keeps
    | with_reducible first | apply Keeps.ite | apply Keeps.ite_snd | apply Keeps.forN | apply Keeps.getD | apply Keeps.elim | apply Keeps.foldl | apply Keeps.foldl_snd | apply Keeps.foldl_third | apply Keeps.foldl_fst
    | dsimp only
    | simp only [Keeps.upd_iff]
    | split
    | refine Keeps.of_pair (by assumption) ?_
    | refine Keeps.of_triple (by assumption) ?_
    | refine Keeps.of_fst (by assumption) ?_
    | refine Keeps.of_some (by assumption) ?_
    | refine Keeps.of_ok (by assumption) ?_

theorem oweStruck_keeps {s₀ s : State} {x1} {x2} {x3} (h : Keeps s₀ s) :
    Keeps s₀ (oweStruck s x1 x2 x3) := by
  unfold oweStruck
  repeat' first
    | intro _
    | with_reducible assumption
    | with_reducible first | apply oweTerm_keeps
    | with_reducible first | apply Keeps.ite | apply Keeps.ite_snd | apply Keeps.forN | apply Keeps.getD | apply Keeps.elim | apply Keeps.foldl | apply Keeps.foldl_snd | apply Keeps.foldl_third | apply Keeps.foldl_fst
    | dsimp only
    | simp only [Keeps.upd_iff]
    | split
    | refine Keeps.of_pair (by assumption) ?_
    | refine Keeps.of_triple (by assumption) ?_
    | refine Keeps.of_fst (by assumption) ?_
    | refine Keeps.of_some (by assumption) ?_
    | refine Keeps.of_ok (by assumption) ?_

theorem leaveUnstarted_keeps {s₀ s : State} {x1} {x2} {x3} (h : Keeps s₀ s) :
    Keeps s₀ (leaveUnstarted s x1 x2 x3) := by
  unfold leaveUnstarted
  repeat' first
    | intro _
    | with_reducible assumption
    | with_reducible first | apply veUnstarted_keeps | apply oweStruck_keeps
    | with_reducible first | apply Keeps.ite | apply Keeps.ite_snd | apply Keeps.forN | apply Keeps.getD | apply Keeps.elim | apply Keeps.foldl | apply Keeps.foldl_snd | apply Keeps.foldl_third | apply Keeps.foldl_fst
    | dsimp only
    | simp only [Keeps.upd_iff]
    | split
    | refine Keeps.of_pair (by assumption) ?_
    | refine Keeps.of_triple (by assumption) ?_
    | refine Keeps.of_fst (by assumption) ?_
    | refine Keeps.of_some (by assumption) ?_
    | refine Keeps.of_ok (by assumption) ?_

theorem undoComplete_keeps {s₀ s : State} {x1} {x2} (h : Keeps s₀ s) :
    Keeps s₀ (undoComplete s x1 x2) := by
  unfold undoComplete
  repeat' first
    | intro _
    | with_reducible assumption
    | with_reducible first | apply readMem_keeps | apply readNat_keeps | apply writeNat_keeps | apply inject_keeps
    | with_reducible first | apply Keeps.ite | apply Keeps.ite_snd | apply Keeps.forN | apply Keeps.getD | apply Keeps.elim | apply Keeps.foldl | apply Keeps.foldl_snd | apply Keeps.foldl_third | apply Keeps.foldl_fst
    | dsimp only
    | simp only [Keeps.upd_iff]
    | split
    | refine Keeps.of_pair (by assumption) ?_
    | refine Keeps.of_triple (by assumption) ?_
    | refine Keeps.of_fst (by assumption) ?_
    | refine Keeps.of_some (by assumption) ?_
    | refine Keeps.of_ok (by assumption) ?_

theorem voidHeld_keeps {s₀ s : State} {x1} {x2} (h : Keeps s₀ s) :
    Keeps s₀ (voidHeld s x1 x2) := by
  unfold voidHeld
  repeat' first
    | intro _
    | with_reducible assumption
    | with_reducible first | apply oweTerm_keeps | apply State.setCluster_keeps
    | with_reducible first | apply Keeps.ite | apply Keeps.ite_snd | apply Keeps.forN | apply Keeps.getD | apply Keeps.elim | apply Keeps.foldl | apply Keeps.foldl_snd | apply Keeps.foldl_third | apply Keeps.foldl_fst
    | dsimp only
    | simp only [Keeps.upd_iff]
    | split
    | refine Keeps.of_pair (by assumption) ?_
    | refine Keeps.of_triple (by assumption) ?_
    | refine Keeps.of_fst (by assumption) ?_
    | refine Keeps.of_some (by assumption) ?_
    | refine Keeps.of_ok (by assumption) ?_

theorem veStrike_keeps {s₀ s : State} {x1} {x2} {x3} (h : Keeps s₀ s) :
    Keeps s₀ (veStrike s x1 x2 x3) := by
  unfold veStrike
  repeat' first
    | intro _
    | with_reducible assumption
    | with_reducible first | apply updLive_keeps | apply State.setCluster_keeps | apply recSwap_keeps | apply State.put_keeps | apply updVe_keeps | apply veSettle_keeps
    | with_reducible first | apply Keeps.ite | apply Keeps.ite_snd | apply Keeps.forN | apply Keeps.getD | apply Keeps.elim | apply Keeps.foldl | apply Keeps.foldl_snd | apply Keeps.foldl_third | apply Keeps.foldl_fst
    | dsimp only
    | simp only [Keeps.upd_iff]
    | split
    | refine Keeps.of_pair (by assumption) ?_
    | refine Keeps.of_triple (by assumption) ?_
    | refine Keeps.of_fst (by assumption) ?_
    | refine Keeps.of_some (by assumption) ?_
    | refine Keeps.of_ok (by assumption) ?_

theorem freeRange_keeps {s₀ s : State} {x1} {x2} {x3} {x4} (h : Keeps s₀ s) :
    Keeps s₀ (freeRange s x1 x2 x3 x4) := by
  unfold freeRange
  repeat' first
    | intro _
    | with_reducible assumption
    | with_reducible first | apply State.tock_keeps | apply writeMem_keeps
    | with_reducible first | apply Keeps.ite | apply Keeps.ite_snd | apply Keeps.forN | apply Keeps.getD | apply Keeps.elim | apply Keeps.foldl | apply Keeps.foldl_snd | apply Keeps.foldl_third | apply Keeps.foldl_fst
    | dsimp only
    | simp only [Keeps.upd_iff]
    | split
    | refine Keeps.of_pair (by assumption) ?_
    | refine Keeps.of_triple (by assumption) ?_
    | refine Keeps.of_fst (by assumption) ?_
    | refine Keeps.of_some (by assumption) ?_
    | refine Keeps.of_ok (by assumption) ?_

theorem predStrike_keeps {s₀ s : State} {x1} {x2} {x3} {x4} (h : Keeps s₀ s) :
    Keeps s₀ (predStrike s x1 x2 x3 x4) := by
  unfold predStrike
  repeat' first
    | intro _
    | with_reducible assumption
    | with_reducible first | apply updLive_keeps | apply freeRange_keeps | apply veStrike_keeps
    | with_reducible first | apply Keeps.ite | apply Keeps.ite_snd | apply Keeps.forN | apply Keeps.getD | apply Keeps.elim | apply Keeps.foldl | apply Keeps.foldl_snd | apply Keeps.foldl_third | apply Keeps.foldl_fst
    | dsimp only
    | simp only [Keeps.upd_iff]
    | split
    | refine Keeps.of_pair (by assumption) ?_
    | refine Keeps.of_triple (by assumption) ?_
    | refine Keeps.of_fst (by assumption) ?_
    | refine Keeps.of_some (by assumption) ?_
    | refine Keeps.of_ok (by assumption) ?_

theorem dmaStrike_keeps {s₀ s : State} {x1} {x2} {x3} {x4} (h : Keeps s₀ s) :
    Keeps s₀ (dmaStrike s x1 x2 x3 x4) := by
  unfold dmaStrike
  repeat' first
    | intro _
    | with_reducible assumption
    | with_reducible first | apply updLive_keeps | apply updXfer_keeps | apply storeFlag_keeps
    | with_reducible first | apply Keeps.ite | apply Keeps.ite_snd | apply Keeps.forN | apply Keeps.getD | apply Keeps.elim | apply Keeps.foldl | apply Keeps.foldl_snd | apply Keeps.foldl_third | apply Keeps.foldl_fst
    | dsimp only
    | simp only [Keeps.upd_iff]
    | split
    | refine Keeps.of_pair (by assumption) ?_
    | refine Keeps.of_triple (by assumption) ?_
    | refine Keeps.of_fst (by assumption) ?_
    | refine Keeps.of_some (by assumption) ?_
    | refine Keeps.of_ok (by assumption) ?_

theorem strikeRunning_keeps {s₀ s : State} {x1} {x2} (h : Keeps s₀ s) :
    Keeps s₀ (strikeRunning s x1 x2) := by
  unfold strikeRunning
  repeat' first
    | intro _
    | with_reducible assumption
    | with_reducible first | apply State.put_keeps | apply retireStruck_keeps | apply dropUnstarted_keeps | apply leaveUnstarted_keeps | apply State.setCluster_keeps | apply updLive_keeps | apply veStrike_keeps | apply predStrike_keeps | apply dmaStrike_keeps | apply setRun_keeps
    | with_reducible first | apply Keeps.ite | apply Keeps.ite_snd | apply Keeps.forN | apply Keeps.getD | apply Keeps.elim | apply Keeps.foldl | apply Keeps.foldl_snd | apply Keeps.foldl_third | apply Keeps.foldl_fst
    | dsimp only
    | simp only [Keeps.upd_iff]
    | split
    | refine Keeps.of_pair (by assumption) ?_
    | refine Keeps.of_triple (by assumption) ?_
    | refine Keeps.of_fst (by assumption) ?_
    | refine Keeps.of_some (by assumption) ?_
    | refine Keeps.of_ok (by assumption) ?_

theorem strikeOne_keeps {s₀ s : State} {x1} {x2} (h : Keeps s₀ s) :
    Keeps s₀ (strikeOne s x1 x2).2 := by
  unfold strikeOne
  repeat' first
    | intro _
    | with_reducible assumption
    | with_reducible first | apply retireStruck_keeps | apply leaveUnstarted_keeps | apply updLive_keeps | apply undoComplete_keeps | apply voidHeld_keeps | apply State.setCluster_keeps | apply State.updHub_keeps | apply strikeRunning_keeps
    | with_reducible first | apply Keeps.ite | apply Keeps.ite_snd | apply Keeps.forN | apply Keeps.getD | apply Keeps.elim | apply Keeps.foldl | apply Keeps.foldl_snd | apply Keeps.foldl_third | apply Keeps.foldl_fst
    | dsimp only
    | simp only [Keeps.upd_iff]
    | split
    | refine Keeps.of_pair (by assumption) ?_
    | refine Keeps.of_triple (by assumption) ?_
    | refine Keeps.of_fst (by assumption) ?_
    | refine Keeps.of_some (by assumption) ?_
    | refine Keeps.of_ok (by assumption) ?_

theorem strikeAll_keeps {s₀ : State} {r : Nat} {l : List Nat} {p : List Nat × List Nat × State} (h : Keeps s₀ p.2.2) :
    Keeps s₀ (strikeAll r l p).2.2 := by
  induction l generalizing p with
  | nil => exact h
  | cons id t ih =>
    obtain ⟨hit, late, s⟩ := p
    unfold strikeAll
    split
    · exact ih h
    · have k := strikeOne_keeps (x1 := r) (x2 := ‹Live›) h
      split <;> (rename_i e; rw [e] at k; exact ih k)

theorem strikeWrites_keeps {s₀ s : State} {x1} {x2} {x3} (h : Keeps s₀ s) :
    Keeps s₀ (strikeWrites s x1 x2 x3).2 := by
  unfold strikeWrites
  repeat' first
    | intro _
    | with_reducible assumption
    | with_reducible first | apply State.choose_keeps | apply State.updHub_keeps | apply State.tock_keeps
    | with_reducible first | apply Keeps.ite | apply Keeps.ite_snd | apply Keeps.forN | apply Keeps.getD | apply Keeps.elim | apply Keeps.foldl | apply Keeps.foldl_snd | apply Keeps.foldl_third | apply Keeps.foldl_fst
    | dsimp only
    | simp only [Keeps.upd_iff]
    | split
    | refine Keeps.of_pair (by assumption) ?_
    | refine Keeps.of_triple (by assumption) ?_
    | refine Keeps.of_fst (by assumption) ?_
    | refine Keeps.of_some (by assumption) ?_
    | refine Keeps.of_ok (by assumption) ?_

theorem execHubAbort_keeps {s₀ s : State} {x0} (h : Keeps s₀ s) : OutKeeps s₀ (execHubAbort x0 s) := by
  unfold execHubAbort
  split
  · exact h.out
  · extract_lets s1 q scope tag s2
    have h1 : Keeps s₀ s1 := fifoPop_keeps h
    have h2 : Keeps s₀ s2 := fetchRing_keeps h1
    clear_value s1 s2
    split
    · exact (finish_keeps h1).out
    · split
      rename_i e
      have h3 := Keeps.of_pair e (strikeWrites_keeps h2)
      split
      rename_i e
      have h4 := Keeps.of_triple e (strikeAll_keeps h3)
      exact (finish_keeps (updLive_keeps (Keeps.ite (State.put_keeps h4) (programEnd_keeps h4)))).out

theorem execDispatch_keeps {s₀ s : State} {x0} (h : Keeps s₀ s) :
    OutKeeps s₀ (execDispatch x0 s) := by
  unfold execDispatch
  repeat' first
    | intro _
    | with_reducible assumption
    | with_reducible first | apply updLive_keeps | apply hubTerminator_keeps | apply tellOwners_keeps | apply requestRetire_keeps | apply programEnd_keeps | apply consumeWaits_keeps | apply State.setFlow_keeps | apply State.updHub_keeps
    | with_reducible first | apply Keeps.ite | apply Keeps.ite_snd | apply Keeps.out | apply Keeps.out_fault | apply Keeps.out_refused | apply Keeps.forN | apply Keeps.getD | apply Keeps.elim | apply Keeps.foldl | apply Keeps.foldl_snd | apply Keeps.foldl_third | apply Keeps.foldl_fst
    | dsimp only
    | simp only [Keeps.upd_iff]
    | split
    | refine Keeps.of_pair (by assumption) ?_
    | refine Keeps.of_triple (by assumption) ?_
    | refine Keeps.of_fst (by assumption) ?_
    | refine Keeps.of_some (by assumption) ?_
    | refine Keeps.of_ok (by assumption) ?_

end Sys2Proof.Machine
end

