-- ==== Sys2Proof/Laws/KeepsReset.lean ====
section
/-! SUPPORT. What no operation of Reset.lean touches or breaks. -/
namespace Sys2Proof.Machine

theorem retarget_keeps {s₀ s : State} {x1} (h : Keeps s₀ s) :
    Keeps s₀ (retarget s x1) := by
  unfold retarget
  repeat' first
    | intro _
    | with_reducible assumption
    | with_reducible first | apply State.puts_keeps
    | with_reducible first | apply Keeps.ite | apply Keeps.ite_snd | apply Keeps.forN | apply Keeps.getD | apply Keeps.elim | apply Keeps.foldl | apply Keeps.foldl_snd | apply Keeps.foldl_third | apply Keeps.foldl_fst
    | dsimp only
    | simp only [Keeps.upd_iff]
    | split
    | refine Keeps.of_pair (by assumption) ?_
    | refine Keeps.of_triple (by assumption) ?_
    | refine Keeps.of_fst (by assumption) ?_
    | refine Keeps.of_some (by assumption) ?_
    | refine Keeps.of_ok (by assumption) ?_

theorem retargetAll_keeps {s₀ s : State} (h : Keeps s₀ s) :
    Keeps s₀ (retargetAll s) := by
  unfold retargetAll
  repeat' first
    | intro _
    | with_reducible assumption
    | with_reducible first | apply retarget_keeps
    | with_reducible first | apply Keeps.ite | apply Keeps.ite_snd | apply Keeps.forN | apply Keeps.getD | apply Keeps.elim | apply Keeps.foldl | apply Keeps.foldl_snd | apply Keeps.foldl_third | apply Keeps.foldl_fst
    | dsimp only
    | simp only [Keeps.upd_iff]
    | split
    | refine Keeps.of_pair (by assumption) ?_
    | refine Keeps.of_triple (by assumption) ?_
    | refine Keeps.of_fst (by assumption) ?_
    | refine Keeps.of_some (by assumption) ?_
    | refine Keeps.of_ok (by assumption) ?_

theorem measure_keeps {s₀ s : State} {x1} (h : Keeps s₀ s) :
    Keeps s₀ (measure s x1) := by
  unfold measure
  repeat' first
    | intro _
    | with_reducible assumption
    | with_reducible first | apply State.puts_keeps | apply State.put_keeps
    | with_reducible first | apply Keeps.ite | apply Keeps.ite_snd | apply Keeps.forN | apply Keeps.getD | apply Keeps.elim | apply Keeps.foldl | apply Keeps.foldl_snd | apply Keeps.foldl_third | apply Keeps.foldl_fst
    | dsimp only
    | simp only [Keeps.upd_iff]
    | split
    | refine Keeps.of_pair (by assumption) ?_
    | refine Keeps.of_triple (by assumption) ?_
    | refine Keeps.of_fst (by assumption) ?_
    | refine Keeps.of_some (by assumption) ?_
    | refine Keeps.of_ok (by assumption) ?_

end Sys2Proof.Machine
end

