-- ==== Sys2Proof/Laws/KeepsBitstream.lean ====
section
/-! SUPPORT. What no operation of Bitstream.lean touches or breaks. -/
namespace Sys2Proof.Machine

theorem latchImage_keeps {s₀ s : State} {x1} (h : Keeps s₀ s) :
    Keeps s₀ (latchImage s x1) := by
  unfold latchImage
  repeat' first
    | intro _
    | with_reducible assumption
    | with_reducible first | apply State.updHub_keeps
    | with_reducible first | apply Keeps.ite | apply Keeps.ite_snd | apply Keeps.forN | apply Keeps.getD | apply Keeps.elim | apply Keeps.foldl | apply Keeps.foldl_snd | apply Keeps.foldl_third | apply Keeps.foldl_fst
    | dsimp only
    | simp only [Keeps.upd_iff]
    | split
    | refine Keeps.of_pair (by assumption) ?_
    | refine Keeps.of_triple (by assumption) ?_
    | refine Keeps.of_fst (by assumption) ?_
    | refine Keeps.of_some (by assumption) ?_
    | refine Keeps.of_ok (by assumption) ?_

theorem loadResult_keeps {s₀ s : State} {x1} {x2} {x3} (h : Keeps s₀ s) :
    Keeps s₀ (loadResult s x1 x2 x3) := by
  unfold loadResult
  repeat' first
    | intro _
    | with_reducible assumption
    | with_reducible first | apply State.puts_keeps
    | with_reducible first | apply Keeps.ite | apply Keeps.ite_snd | apply Keeps.forN | apply Keeps.getD | apply Keeps.elim | apply Keeps.foldl | apply Keeps.foldl_snd | apply Keeps.foldl_third | apply Keeps.foldl_fst
    | dsimp only
    | simp only [Keeps.upd_iff]
    | split
    | refine Keeps.of_pair (by assumption) ?_
    | refine Keeps.of_triple (by assumption) ?_
    | refine Keeps.of_fst (by assumption) ?_
    | refine Keeps.of_some (by assumption) ?_
    | refine Keeps.of_ok (by assumption) ?_

theorem staged_keeps {s₀ s : State} {x1} (h : Keeps s₀ s) :
    Keeps s₀ (staged s x1).2 := by
  unfold staged
  repeat' first
    | intro _
    | with_reducible assumption
    | with_reducible first | apply readMem_keeps
    | with_reducible first | apply Keeps.ite | apply Keeps.ite_snd | apply Keeps.some | apply Keeps.none | apply Keeps.forN | apply Keeps.getD | apply Keeps.elim | apply Keeps.foldl | apply Keeps.foldl_snd | apply Keeps.foldl_third | apply Keeps.foldl_fst
    | dsimp only
    | simp only [Keeps.upd_iff]
    | split
    | refine Keeps.of_pair (by assumption) ?_
    | refine Keeps.of_triple (by assumption) ?_
    | refine Keeps.of_fst (by assumption) ?_
    | refine Keeps.of_some (by assumption) ?_
    | refine Keeps.of_ok (by assumption) ?_

theorem loadGate_keeps {s₀ s : State} (h : Keeps s₀ s) :
    Keeps s₀ (loadGate s) := by
  unfold loadGate
  repeat' first
    | intro _
    | with_reducible assumption
    | with_reducible first | apply State.puts_keeps
    | with_reducible first | apply Keeps.ite | apply Keeps.ite_snd | apply Keeps.forN | apply Keeps.getD | apply Keeps.elim | apply Keeps.foldl | apply Keeps.foldl_snd | apply Keeps.foldl_third | apply Keeps.foldl_fst
    | dsimp only
    | simp only [Keeps.upd_iff]
    | split
    | refine Keeps.of_pair (by assumption) ?_
    | refine Keeps.of_triple (by assumption) ?_
    | refine Keeps.of_fst (by assumption) ?_
    | refine Keeps.of_some (by assumption) ?_
    | refine Keeps.of_ok (by assumption) ?_

theorem loadBudgets_keeps {s₀ s : State} (h : Keeps s₀ s) :
    Keeps s₀ (loadBudgets s) := by
  unfold loadBudgets
  repeat' first
    | intro _
    | with_reducible assumption
    | with_reducible first | apply State.setPan_keeps | apply State.put_keeps
    | with_reducible first | apply Keeps.ite | apply Keeps.ite_snd | apply Keeps.forN | apply Keeps.getD | apply Keeps.elim | apply Keeps.foldl | apply Keeps.foldl_snd | apply Keeps.foldl_third | apply Keeps.foldl_fst
    | dsimp only
    | simp only [Keeps.upd_iff]
    | split
    | refine Keeps.of_pair (by assumption) ?_
    | refine Keeps.of_triple (by assumption) ?_
    | refine Keeps.of_fst (by assumption) ?_
    | refine Keeps.of_some (by assumption) ?_
    | refine Keeps.of_ok (by assumption) ?_

theorem mapStages_keeps {s₀ s : State} (h : Keeps s₀ s) :
    Keeps s₀ (mapStages s) := by
  unfold mapStages
  repeat' first
    | intro _
    | with_reducible assumption
    | with_reducible first | apply State.puts_keeps
    | with_reducible first | apply Keeps.ite | apply Keeps.ite_snd | apply Keeps.forN | apply Keeps.getD | apply Keeps.elim | apply Keeps.foldl | apply Keeps.foldl_snd | apply Keeps.foldl_third | apply Keeps.foldl_fst
    | dsimp only
    | simp only [Keeps.upd_iff]
    | split
    | refine Keeps.of_pair (by assumption) ?_
    | refine Keeps.of_triple (by assumption) ?_
    | refine Keeps.of_fst (by assumption) ?_
    | refine Keeps.of_some (by assumption) ?_
    | refine Keeps.of_ok (by assumption) ?_

theorem loadCuffs_keeps {s₀ s : State} (h : Keeps s₀ s) :
    Keeps s₀ (loadCuffs s) := by
  unfold loadCuffs
  repeat' first
    | intro _
    | with_reducible assumption
    | with_reducible first | apply State.put_keeps
    | with_reducible first | apply Keeps.ite | apply Keeps.ite_snd | apply Keeps.forN | apply Keeps.getD | apply Keeps.elim | apply Keeps.foldl | apply Keeps.foldl_snd | apply Keeps.foldl_third | apply Keeps.foldl_fst
    | dsimp only
    | simp only [Keeps.upd_iff]
    | split
    | refine Keeps.of_pair (by assumption) ?_
    | refine Keeps.of_triple (by assumption) ?_
    | refine Keeps.of_fst (by assumption) ?_
    | refine Keeps.of_some (by assumption) ?_
    | refine Keeps.of_ok (by assumption) ?_

theorem loadPorts_keeps {s₀ s : State} (h : Keeps s₀ s) :
    Keeps s₀ (loadPorts s) := by
  unfold loadPorts
  repeat' first
    | intro _
    | with_reducible assumption
    | with_reducible first | apply State.puts_keeps | apply closePeer_keeps
    | with_reducible first | apply Keeps.ite | apply Keeps.ite_snd | apply Keeps.forN | apply Keeps.getD | apply Keeps.elim | apply Keeps.foldl | apply Keeps.foldl_snd | apply Keeps.foldl_third | apply Keeps.foldl_fst
    | dsimp only
    | simp only [Keeps.upd_iff]
    | split
    | refine Keeps.of_pair (by assumption) ?_
    | refine Keeps.of_triple (by assumption) ?_
    | refine Keeps.of_fst (by assumption) ?_
    | refine Keeps.of_some (by assumption) ?_
    | refine Keeps.of_ok (by assumption) ?_

theorem settleRegions_keeps {s₀ s : State} (h : Keeps s₀ s) :
    Keeps s₀ (settleRegions s) := by
  unfold settleRegions
  repeat' first
    | intro _
    | with_reducible assumption
    | with_reducible first | apply disarm_keeps | apply loseRegion_keeps | apply updPlant_keeps | apply State.put_keeps
    | with_reducible first | apply Keeps.ite | apply Keeps.ite_snd | apply Keeps.forN | apply Keeps.getD | apply Keeps.elim | apply Keeps.foldl | apply Keeps.foldl_snd | apply Keeps.foldl_third | apply Keeps.foldl_fst
    | dsimp only
    | simp only [Keeps.upd_iff]
    | split
    | refine Keeps.of_pair (by assumption) ?_
    | refine Keeps.of_triple (by assumption) ?_
    | refine Keeps.of_fst (by assumption) ?_
    | refine Keeps.of_some (by assumption) ?_
    | refine Keeps.of_ok (by assumption) ?_

theorem loadUnits_keeps {s₀ s : State} (h : Keeps s₀ s) :
    Keeps s₀ (loadUnits s) := by
  unfold loadUnits
  repeat' first
    | intro _
    | with_reducible assumption
    | with_reducible first | apply zeroRange_keeps
    | with_reducible first | apply Keeps.ite | apply Keeps.ite_snd | apply Keeps.forN | apply Keeps.getD | apply Keeps.elim | apply Keeps.foldl | apply Keeps.foldl_snd | apply Keeps.foldl_third | apply Keeps.foldl_fst
    | dsimp only
    | simp only [Keeps.upd_iff]
    | split
    | refine Keeps.of_pair (by assumption) ?_
    | refine Keeps.of_triple (by assumption) ?_
    | refine Keeps.of_fst (by assumption) ?_
    | refine Keeps.of_some (by assumption) ?_
    | refine Keeps.of_ok (by assumption) ?_

theorem clearCounters_keeps {s₀ s : State} (h : Keeps s₀ s) :
    Keeps s₀ (clearCounters s) := by
  unfold clearCounters
  repeat' first
    | intro _
    | with_reducible assumption
    | with_reducible first | apply State.puts_keeps | apply State.put_keeps
    | with_reducible first | apply Keeps.ite | apply Keeps.ite_snd | apply Keeps.forN | apply Keeps.getD | apply Keeps.elim | apply Keeps.foldl | apply Keeps.foldl_snd | apply Keeps.foldl_third | apply Keeps.foldl_fst
    | dsimp only
    | simp only [Keeps.upd_iff]
    | split
    | refine Keeps.of_pair (by assumption) ?_
    | refine Keeps.of_triple (by assumption) ?_
    | refine Keeps.of_fst (by assumption) ?_
    | refine Keeps.of_some (by assumption) ?_
    | refine Keeps.of_ok (by assumption) ?_

theorem loadPlan_keeps {s₀ s : State} (h : Keeps s₀ s) :
    Keeps s₀ (loadPlan s) := by
  unfold loadPlan
  repeat' first
    | intro _
    | with_reducible assumption
    | with_reducible first | apply loadBudgets_keeps | apply mapStages_keeps | apply loadCuffs_keeps | apply loadPorts_keeps | apply settleRegions_keeps | apply loadUnits_keeps | apply clearCounters_keeps
    | with_reducible first | apply Keeps.ite | apply Keeps.ite_snd | apply Keeps.forN | apply Keeps.getD | apply Keeps.elim | apply Keeps.foldl | apply Keeps.foldl_snd | apply Keeps.foldl_third | apply Keeps.foldl_fst
    | dsimp only
    | simp only [Keeps.upd_iff]
    | split
    | refine Keeps.of_pair (by assumption) ?_
    | refine Keeps.of_triple (by assumption) ?_
    | refine Keeps.of_fst (by assumption) ?_
    | refine Keeps.of_some (by assumption) ?_
    | refine Keeps.of_ok (by assumption) ?_

theorem setDigest_keeps {s₀ s : State} {x1} (h : Keeps s₀ s) :
    Keeps s₀ (setDigest s x1) := by
  unfold setDigest
  repeat' first
    | intro _
    | with_reducible assumption
    | with_reducible first | apply State.puts_keeps
    | with_reducible first | apply Keeps.ite | apply Keeps.ite_snd | apply Keeps.forN | apply Keeps.getD | apply Keeps.elim | apply Keeps.foldl | apply Keeps.foldl_snd | apply Keeps.foldl_third | apply Keeps.foldl_fst
    | dsimp only
    | simp only [Keeps.upd_iff]
    | split
    | refine Keeps.of_pair (by assumption) ?_
    | refine Keeps.of_triple (by assumption) ?_
    | refine Keeps.of_fst (by assumption) ?_
    | refine Keeps.of_some (by assumption) ?_
    | refine Keeps.of_ok (by assumption) ?_

theorem loadClear_keeps {s₀ s : State} {x1} (h : Keeps s₀ s) :
    Keeps s₀ (loadClear s x1) := by
  unfold loadClear
  repeat' first
    | intro _
    | with_reducible assumption
    | with_reducible first | apply writeBackInv_keeps | apply disarm_keeps | apply State.puts_keeps | apply setDigest_keeps
    | with_reducible first | apply Keeps.ite | apply Keeps.ite_snd | apply Keeps.forN | apply Keeps.getD | apply Keeps.elim | apply Keeps.foldl | apply Keeps.foldl_snd | apply Keeps.foldl_third | apply Keeps.foldl_fst
    | dsimp only
    | simp only [Keeps.upd_iff]
    | split
    | refine Keeps.of_pair (by assumption) ?_
    | refine Keeps.of_triple (by assumption) ?_
    | refine Keeps.of_fst (by assumption) ?_
    | refine Keeps.of_some (by assumption) ?_
    | refine Keeps.of_ok (by assumption) ?_

theorem loadPrograms_keeps {s₀ s : State} {x1} (h : Keeps s₀ s) :
    Keeps s₀ (loadPrograms s x1) := by
  unfold loadPrograms
  repeat' first
    | intro _
    | with_reducible assumption
    | with_reducible first | apply State.updHub_keeps | apply State.puts_keeps | apply State.put_keeps | apply latchImage_keeps
    | with_reducible first | apply Keeps.ite | apply Keeps.ite_snd | apply Keeps.forN | apply Keeps.getD | apply Keeps.elim | apply Keeps.foldl | apply Keeps.foldl_snd | apply Keeps.foldl_third | apply Keeps.foldl_fst
    | dsimp only
    | simp only [Keeps.upd_iff]
    | split
    | refine Keeps.of_pair (by assumption) ?_
    | refine Keeps.of_triple (by assumption) ?_
    | refine Keeps.of_fst (by assumption) ?_
    | refine Keeps.of_some (by assumption) ?_
    | refine Keeps.of_ok (by assumption) ?_

theorem loadSeams_keeps {s₀ s : State} (h : Keeps s₀ s) :
    Keeps s₀ (loadSeams s) := by
  unfold loadSeams
  repeat' first
    | intro _
    | with_reducible assumption
    | with_reducible first | apply seamPass_keeps | apply settleSeams_keeps
    | with_reducible first | apply Keeps.ite | apply Keeps.ite_snd | apply Keeps.forN | apply Keeps.getD | apply Keeps.elim | apply Keeps.foldl | apply Keeps.foldl_snd | apply Keeps.foldl_third | apply Keeps.foldl_fst
    | dsimp only
    | simp only [Keeps.upd_iff]
    | split
    | refine Keeps.of_pair (by assumption) ?_
    | refine Keeps.of_triple (by assumption) ?_
    | refine Keeps.of_fst (by assumption) ?_
    | refine Keeps.of_some (by assumption) ?_
    | refine Keeps.of_ok (by assumption) ?_

theorem newKeys_keeps {s₀ s : State} (h : Keeps s₀ s) :
    Keeps s₀ (newKeys s) := by
  unfold newKeys
  repeat' first
    | intro _
    | with_reducible assumption
    | with_reducible first | apply State.draw_keeps | apply State.put_keeps | apply sendKey_keeps | apply State.tock_keeps
    | with_reducible first | apply Keeps.ite | apply Keeps.ite_snd | apply Keeps.forN | apply Keeps.getD | apply Keeps.elim | apply Keeps.foldl | apply Keeps.foldl_snd | apply Keeps.foldl_third | apply Keeps.foldl_fst
    | dsimp only
    | simp only [Keeps.upd_iff]
    | split
    | refine Keeps.of_pair (by assumption) ?_
    | refine Keeps.of_triple (by assumption) ?_
    | refine Keeps.of_fst (by assumption) ?_
    | refine Keeps.of_some (by assumption) ?_
    | refine Keeps.of_ok (by assumption) ?_

theorem fullLoad_keeps {s₀ s : State} {x1} (h : Keeps s₀ s) :
    Keeps s₀ (fullLoad s x1) := by
  unfold fullLoad
  repeat' first
    | intro _
    | with_reducible assumption
    | with_reducible first | apply loadGate_keeps | apply loadPlan_keeps | apply loadClear_keeps | apply loadPrograms_keeps | apply setTokens_keeps | apply applyMode_keeps | apply enterMode_keeps | apply loadSeams_keeps | apply settleMode_keeps | apply State.put_keeps | apply settleGate_keeps | apply newKeys_keeps | apply firstRecord_keeps
    | with_reducible first | apply Keeps.ite | apply Keeps.ite_snd | apply Keeps.forN | apply Keeps.getD | apply Keeps.elim | apply Keeps.foldl | apply Keeps.foldl_snd | apply Keeps.foldl_third | apply Keeps.foldl_fst
    | dsimp only
    | simp only [Keeps.upd_iff]
    | split
    | refine Keeps.of_pair (by assumption) ?_
    | refine Keeps.of_triple (by assumption) ?_
    | refine Keeps.of_fst (by assumption) ?_
    | refine Keeps.of_some (by assumption) ?_
    | refine Keeps.of_ok (by assumption) ?_

theorem runLoad_keeps {s₀ s : State} (h : Keeps s₀ s) :
    Keeps s₀ (runLoad s) := by
  unfold runLoad
  repeat' first
    | intro _
    | with_reducible assumption
    | with_reducible first | apply loadResult_keeps | apply staged_keeps | apply fullLoad_keeps | apply askStall_keeps | apply State.put_keeps
    | with_reducible first | apply Keeps.ite | apply Keeps.ite_snd | apply Keeps.forN | apply Keeps.getD | apply Keeps.elim | apply Keeps.foldl | apply Keeps.foldl_snd | apply Keeps.foldl_third | apply Keeps.foldl_fst
    | dsimp only
    | simp only [Keeps.upd_iff]
    | split
    | refine Keeps.of_pair (by assumption) ?_
    | refine Keeps.of_triple (by assumption) ?_
    | refine Keeps.of_fst (by assumption) ?_
    | refine Keeps.of_some (by assumption) ?_
    | refine Keeps.of_ok (by assumption) ?_

theorem execLoad_keeps {s₀ s : State} (h : Keeps s₀ s) :
    OutKeeps s₀ (execLoad s) := by
  unfold execLoad
  repeat' first
    | intro _
    | with_reducible assumption
    | with_reducible first | apply runLoad_keeps
    | with_reducible first | apply Keeps.ite | apply Keeps.ite_snd | apply Keeps.out | apply Keeps.out_fault | apply Keeps.out_refused | apply Keeps.forN | apply Keeps.getD | apply Keeps.elim | apply Keeps.foldl | apply Keeps.foldl_snd | apply Keeps.foldl_third | apply Keeps.foldl_fst
    | dsimp only
    | simp only [Keeps.upd_iff]
    | split
    | refine Keeps.of_pair (by assumption) ?_
    | refine Keeps.of_triple (by assumption) ?_
    | refine Keeps.of_fst (by assumption) ?_
    | refine Keeps.of_some (by assumption) ?_
    | refine Keeps.of_ok (by assumption) ?_

theorem moveUnits_keeps {s₀ s : State} (h : Keeps s₀ s) :
    Keeps s₀ (moveUnits s) := by
  unfold moveUnits
  repeat' first
    | intro _
    | with_reducible assumption
    | with_reducible first | apply moveUnit_keeps
    | with_reducible first | apply Keeps.ite | apply Keeps.ite_snd | apply Keeps.forN | apply Keeps.getD | apply Keeps.elim | apply Keeps.foldl | apply Keeps.foldl_snd | apply Keeps.foldl_third | apply Keeps.foldl_fst
    | dsimp only
    | simp only [Keeps.upd_iff]
    | split
    | refine Keeps.of_pair (by assumption) ?_
    | refine Keeps.of_triple (by assumption) ?_
    | refine Keeps.of_fst (by assumption) ?_
    | refine Keeps.of_some (by assumption) ?_
    | refine Keeps.of_ok (by assumption) ?_

theorem takeImage_keeps {s₀ s : State} {x1} {x2} (h : Keeps s₀ s) :
    Keeps s₀ (takeImage s x1 x2) := by
  unfold takeImage
  repeat' first
    | intro _
    | with_reducible assumption
    | with_reducible first | apply State.puts_keeps | apply setTokens_keeps | apply State.updHub_keeps | apply updFlow_keeps
    | with_reducible first | apply Keeps.ite | apply Keeps.ite_snd | apply Keeps.forN | apply Keeps.getD | apply Keeps.elim | apply Keeps.foldl | apply Keeps.foldl_snd | apply Keeps.foldl_third | apply Keeps.foldl_fst
    | dsimp only
    | simp only [Keeps.upd_iff]
    | split
    | refine Keeps.of_pair (by assumption) ?_
    | refine Keeps.of_triple (by assumption) ?_
    | refine Keeps.of_fst (by assumption) ?_
    | refine Keeps.of_some (by assumption) ?_
    | refine Keeps.of_ok (by assumption) ?_

theorem settleCarried_keeps {s₀ s : State} {x1} {x2} (h : Keeps s₀ s) :
    Keeps s₀ (settleCarried s x1 x2) := by
  unfold settleCarried
  repeat' first
    | intro _
    | with_reducible assumption
    | with_reducible first | apply setEntries_keeps | apply loadCuffs_keeps | apply moveUnits_keeps | apply loadBudgets_keeps | apply State.put_keeps | apply loadPrograms_keeps | apply takeImage_keeps
    | with_reducible first | apply Keeps.ite | apply Keeps.ite_snd | apply Keeps.forN | apply Keeps.getD | apply Keeps.elim | apply Keeps.foldl | apply Keeps.foldl_snd | apply Keeps.foldl_third | apply Keeps.foldl_fst
    | dsimp only
    | simp only [Keeps.upd_iff]
    | split
    | refine Keeps.of_pair (by assumption) ?_
    | refine Keeps.of_triple (by assumption) ?_
    | refine Keeps.of_fst (by assumption) ?_
    | refine Keeps.of_some (by assumption) ?_
    | refine Keeps.of_ok (by assumption) ?_

theorem remap_keeps {s₀ s : State} (h : Keeps s₀ s) :
    Keeps s₀ (remap s) := by
  unfold remap
  repeat' first
    | intro _
    | with_reducible assumption
    | with_reducible first | apply mapStages_keeps | apply updFlow_keeps
    | with_reducible first | apply Keeps.ite | apply Keeps.ite_snd | apply Keeps.forN | apply Keeps.getD | apply Keeps.elim | apply Keeps.foldl | apply Keeps.foldl_snd | apply Keeps.foldl_third | apply Keeps.foldl_fst
    | dsimp only
    | simp only [Keeps.upd_iff]
    | split
    | refine Keeps.of_pair (by assumption) ?_
    | refine Keeps.of_triple (by assumption) ?_
    | refine Keeps.of_fst (by assumption) ?_
    | refine Keeps.of_some (by assumption) ?_
    | refine Keeps.of_ok (by assumption) ?_

theorem takeSections_keeps {s₀ s : State} {x1} (h : Keeps s₀ s) :
    Keeps s₀ (takeSections s x1) := by
  unfold takeSections
  repeat' first
    | intro _
    | with_reducible assumption
    | with_reducible first | apply settleRegions_keeps | apply writeBackInv_keeps | apply releaseStall_keeps | apply State.put_keeps
    | with_reducible first | apply Keeps.ite | apply Keeps.ite_snd | apply Keeps.forN | apply Keeps.getD | apply Keeps.elim | apply Keeps.foldl | apply Keeps.foldl_snd | apply Keeps.foldl_third | apply Keeps.foldl_fst
    | dsimp only
    | simp only [Keeps.upd_iff]
    | split
    | refine Keeps.of_pair (by assumption) ?_
    | refine Keeps.of_triple (by assumption) ?_
    | refine Keeps.of_fst (by assumption) ?_
    | refine Keeps.of_some (by assumption) ?_
    | refine Keeps.of_ok (by assumption) ?_

theorem applyPartial_keeps {s₀ s : State} {x1} (h : Keeps s₀ s) :
    Keeps s₀ (applyPartial s x1) := by
  unfold applyPartial
  repeat' first
    | intro _
    | with_reducible assumption
    | with_reducible first | apply settleCarried_keeps | apply remap_keeps | apply takeSections_keeps | apply State.put_keeps | apply setDigest_keeps | apply releaseStall_keeps | apply State.puts_keeps | apply settleGate_keeps | apply settleMode_keeps | apply retargetAll_keeps
    | with_reducible first | apply Keeps.ite | apply Keeps.ite_snd | apply Keeps.forN | apply Keeps.getD | apply Keeps.elim | apply Keeps.foldl | apply Keeps.foldl_snd | apply Keeps.foldl_third | apply Keeps.foldl_fst
    | dsimp only
    | simp only [Keeps.upd_iff]
    | split
    | refine Keeps.of_pair (by assumption) ?_
    | refine Keeps.of_triple (by assumption) ?_
    | refine Keeps.of_fst (by assumption) ?_
    | refine Keeps.of_some (by assumption) ?_
    | refine Keeps.of_ok (by assumption) ?_

theorem execPartialApply_keeps {s₀ s : State} (h : Keeps s₀ s) :
    OutKeeps s₀ (execPartialApply s) := by
  unfold execPartialApply
  repeat' first
    | intro _
    | with_reducible assumption
    | with_reducible first | apply drlStart_keeps | apply applyPartial_keeps
    | with_reducible first | apply Keeps.ite | apply Keeps.ite_snd | apply Keeps.out | apply Keeps.out_fault | apply Keeps.out_refused | apply Keeps.forN | apply Keeps.getD | apply Keeps.elim | apply Keeps.foldl | apply Keeps.foldl_snd | apply Keeps.foldl_third | apply Keeps.foldl_fst
    | dsimp only
    | simp only [Keeps.upd_iff]
    | split
    | refine Keeps.of_pair (by assumption) ?_
    | refine Keeps.of_triple (by assumption) ?_
    | refine Keeps.of_fst (by assumption) ?_
    | refine Keeps.of_some (by assumption) ?_
    | refine Keeps.of_ok (by assumption) ?_

theorem derailEnd_keeps {s₀ s : State} (h : Keeps s₀ s) :
    Keeps s₀ (derailEnd s) := by
  unfold derailEnd
  repeat' first
    | intro _
    | with_reducible assumption
    | with_reducible first | apply drlPump_keeps | apply State.put_keeps | apply writeBackInv_keeps | apply State.updHub_keeps | apply releaseStall_keeps | apply applyPartial_keeps
    | with_reducible first | apply Keeps.ite | apply Keeps.ite_snd | apply Keeps.forN | apply Keeps.getD | apply Keeps.elim | apply Keeps.foldl | apply Keeps.foldl_snd | apply Keeps.foldl_third | apply Keeps.foldl_fst
    | dsimp only
    | simp only [Keeps.upd_iff]
    | split
    | refine Keeps.of_pair (by assumption) ?_
    | refine Keeps.of_triple (by assumption) ?_
    | refine Keeps.of_fst (by assumption) ?_
    | refine Keeps.of_some (by assumption) ?_
    | refine Keeps.of_ok (by assumption) ?_

end Sys2Proof.Machine
end

