-- ==== Sys2Proof/Laws/KeepsRegs.lean ====
section
/-! SUPPORT. What no operation of Regs.lean touches or breaks. -/
namespace Sys2Proof.Machine

theorem evtHeadWrite_keeps {s₀ s : State} {x1} (h : Keeps s₀ s) :
    Keeps s₀ (evtHeadWrite s x1) := by
  unfold evtHeadWrite
  repeat' first
    | intro _
    | with_reducible assumption
    | with_reducible first | apply State.put_keeps
    | with_reducible first | apply Keeps.ite | apply Keeps.ite_snd | apply Keeps.forN | apply Keeps.getD | apply Keeps.elim | apply Keeps.foldl | apply Keeps.foldl_snd | apply Keeps.foldl_third | apply Keeps.foldl_fst
    | dsimp only
    | simp only [Keeps.upd_iff]
    | split
    | refine Keeps.of_pair (by assumption) ?_
    | refine Keeps.of_triple (by assumption) ?_
    | refine Keeps.of_fst (by assumption) ?_
    | refine Keeps.of_some (by assumption) ?_
    | refine Keeps.of_ok (by assumption) ?_

theorem writeField_keeps {s₀ s : State} {x0} {x2} (h : Keeps s₀ s) :
    Keeps s₀ (writeField x0 s x2) := by
  unfold writeField
  repeat' first
    | intro _
    | with_reducible assumption
    | with_reducible first | apply State.put_keeps
    | with_reducible first | apply Keeps.ite | apply Keeps.ite_snd | apply Keeps.forN | apply Keeps.getD | apply Keeps.elim | apply Keeps.foldl | apply Keeps.foldl_snd | apply Keeps.foldl_third | apply Keeps.foldl_fst
    | dsimp only
    | simp only [Keeps.upd_iff]
    | split
    | refine Keeps.of_pair (by assumption) ?_
    | refine Keeps.of_triple (by assumption) ?_
    | refine Keeps.of_fst (by assumption) ?_
    | refine Keeps.of_some (by assumption) ?_
    | refine Keeps.of_ok (by assumption) ?_

theorem writeFields_keeps {s₀ s : State} {x1} {x2} (h : Keeps s₀ s) :
    Keeps s₀ (writeFields s x1 x2) := by
  unfold writeFields
  repeat' first
    | intro _
    | with_reducible assumption
    | with_reducible first | apply writeField_keeps
    | with_reducible first | apply Keeps.ite | apply Keeps.ite_snd | apply Keeps.forN | apply Keeps.getD | apply Keeps.elim | apply Keeps.foldl | apply Keeps.foldl_snd | apply Keeps.foldl_third | apply Keeps.foldl_fst
    | dsimp only
    | simp only [Keeps.upd_iff]
    | split
    | refine Keeps.of_pair (by assumption) ?_
    | refine Keeps.of_triple (by assumption) ?_
    | refine Keeps.of_fst (by assumption) ?_
    | refine Keeps.of_some (by assumption) ?_
    | refine Keeps.of_ok (by assumption) ?_

theorem after_keeps {s₀ s : State} {o : Host.Outcome State Fault Refusal} (h : Keeps s₀ s) (k : OutKeeps s₀ o) : Keeps s₀ (after o s) := by
  unfold after
  split
  · exact k.next _ rfl
  · exact h

theorem whenBit_keeps {s₀ s : State} {v i : Nat} {m : State → Host.Outcome State Fault Refusal} (h : Keeps s₀ s)
    (k : ∀ u, Keeps s₀ u → OutKeeps s₀ (m u)) : Keeps s₀ (whenBit v i m s) := by
  unfold whenBit
  split
  · exact after_keeps h (k _ h)
  · exact h

theorem resetGo_keeps {s₀ s : State} (h : Keeps s₀ s) :
    Keeps s₀ (resetGo s) := by
  unfold resetGo
  repeat' first
    | intro _
    | with_reducible assumption
    | with_reducible first | apply after_keeps | apply execColdReset_keeps | apply State.tock_keeps | apply execModuleWarmReset_keeps | apply execRegionReset_keeps | apply execPortReset_keeps
    | with_reducible first | apply Keeps.ite | apply Keeps.ite_snd | apply Keeps.forN | apply Keeps.getD | apply Keeps.elim | apply Keeps.foldl | apply Keeps.foldl_snd | apply Keeps.foldl_third | apply Keeps.foldl_fst
    | dsimp only
    | simp only [Keeps.upd_iff]
    | split
    | refine Keeps.of_pair (by assumption) ?_
    | refine Keeps.of_triple (by assumption) ?_
    | refine Keeps.of_fst (by assumption) ?_
    | refine Keeps.of_some (by assumption) ?_
    | refine Keeps.of_ok (by assumption) ?_

theorem globalWrite_keeps {s₀ s : State} {x1} {x2} {x3} (h : Keeps s₀ s) :
    Keeps s₀ (globalWrite s x1 x2 x3) := by
  unfold globalWrite
  repeat' first
    | intro _
    | with_reducible assumption
    | with_reducible first | apply writeFields_keeps | apply whenBit_keeps | apply execLoad_keeps | apply after_keeps | apply execArm_keeps | apply execGo_keeps | apply execEvtCfgWrite_keeps | apply evtHeadWrite_keeps | apply execPwrCuffWrite_keeps | apply execReqModeWrite_keeps | apply execRefreshNow_keeps | apply execFold_keeps | apply execSnapNow_keeps | apply execCkptGo_keeps | apply execCkptRestore_keeps | apply State.tock_keeps | apply execRsGo_keeps | apply ownerCommand_keeps | apply execAttGo_keeps | apply execKtReq_keeps | apply execSeqCommit_keeps | apply execSvnCommit_keeps | apply execQuiesce_keeps | apply resetGo_keeps | apply execFwWrite_keeps | apply execFwActivate_keeps | apply execErrPop_keeps | apply execInjArm_keeps
    | with_reducible first | apply Keeps.ite | apply Keeps.ite_snd | apply Keeps.forN | apply Keeps.getD | apply Keeps.elim | apply Keeps.foldl | apply Keeps.foldl_snd | apply Keeps.foldl_third | apply Keeps.foldl_fst
    | dsimp only
    | simp only [Keeps.upd_iff]
    | split
    | refine Keeps.of_pair (by assumption) ?_
    | refine Keeps.of_triple (by assumption) ?_
    | refine Keeps.of_fst (by assumption) ?_
    | refine Keeps.of_some (by assumption) ?_
    | refine Keeps.of_ok (by assumption) ?_

theorem regionWrite_keeps {s₀ s : State} {x1} {x2} {x3} {x4} (h : Keeps s₀ s) :
    Keeps s₀ (regionWrite s x1 x2 x3 x4) := by
  unfold regionWrite
  repeat' first
    | intro _
    | with_reducible assumption
    | with_reducible first | apply writeFields_keeps | apply after_keeps | apply execQBaseWrite_keeps | apply execDoorbell_keeps | apply execQCtrlWrite_keeps | apply execCqBaseWrite_keeps | apply execCqCtrlWrite_keeps | apply execCqHeadWrite_keeps | apply execChPost_keeps | apply execChShareWrite_keeps | apply whenBit_keeps | apply execInv_keeps | apply execWb_keeps | apply execScrubNow_keeps | apply execPwrRcuffWrite_keeps | apply execResume_keeps
    | with_reducible first | apply Keeps.ite | apply Keeps.ite_snd | apply Keeps.forN | apply Keeps.getD | apply Keeps.elim | apply Keeps.foldl | apply Keeps.foldl_snd | apply Keeps.foldl_third | apply Keeps.foldl_fst
    | dsimp only
    | simp only [Keeps.upd_iff]
    | split
    | refine Keeps.of_pair (by assumption) ?_
    | refine Keeps.of_triple (by assumption) ?_
    | refine Keeps.of_fst (by assumption) ?_
    | refine Keeps.of_some (by assumption) ?_
    | refine Keeps.of_ok (by assumption) ?_

theorem dieWrite_keeps {s₀ s : State} {x1} {x2} {x3} (h : Keeps s₀ s) :
    Keeps s₀ (dieWrite s x1 x2 x3) := by
  unfold dieWrite
  repeat' first
    | intro _
    | with_reducible assumption
    | with_reducible first | apply writePeerWord_keeps | apply writeStreamWord_keeps | apply whenBit_keeps | apply execReauth_keeps | apply execRelease_keeps | apply writeFields_keeps
    | with_reducible first | apply Keeps.ite | apply Keeps.ite_snd | apply Keeps.forN | apply Keeps.getD | apply Keeps.elim | apply Keeps.foldl | apply Keeps.foldl_snd | apply Keeps.foldl_third | apply Keeps.foldl_fst
    | dsimp only
    | simp only [Keeps.upd_iff]
    | split
    | refine Keeps.of_pair (by assumption) ?_
    | refine Keeps.of_triple (by assumption) ?_
    | refine Keeps.of_fst (by assumption) ?_
    | refine Keeps.of_some (by assumption) ?_
    | refine Keeps.of_ok (by assumption) ?_

theorem writeWord_keeps {s₀ s : State} {x1} {x2} {x3} (h : Keeps s₀ s) :
    Keeps s₀ (writeWord s x1 x2 x3) := by
  unfold writeWord
  repeat' first
    | intro _
    | with_reducible assumption
    | with_reducible first | apply globalWrite_keeps | apply regionWrite_keeps | apply dieWrite_keeps
    | with_reducible first | apply Keeps.ite | apply Keeps.ite_snd | apply Keeps.forN | apply Keeps.getD | apply Keeps.elim | apply Keeps.foldl | apply Keeps.foldl_snd | apply Keeps.foldl_third | apply Keeps.foldl_fst
    | dsimp only
    | simp only [Keeps.upd_iff]
    | split
    | refine Keeps.of_pair (by assumption) ?_
    | refine Keeps.of_triple (by assumption) ?_
    | refine Keeps.of_fst (by assumption) ?_
    | refine Keeps.of_some (by assumption) ?_
    | refine Keeps.of_ok (by assumption) ?_

theorem housekeepingAnswer_keeps {s₀ s : State} {x1} {x2} (h : Keeps s₀ s) :
    Keeps s₀ (housekeepingAnswer s x1 x2) := by
  unfold housekeepingAnswer
  repeat' first
    | intro _
    | with_reducible assumption
    | with_reducible first | apply emit_keeps
    | with_reducible first | apply Keeps.ite | apply Keeps.ite_snd | apply Keeps.forN | apply Keeps.getD | apply Keeps.elim | apply Keeps.foldl | apply Keeps.foldl_snd | apply Keeps.foldl_third | apply Keeps.foldl_fst
    | dsimp only
    | simp only [Keeps.upd_iff]
    | split
    | refine Keeps.of_pair (by assumption) ?_
    | refine Keeps.of_triple (by assumption) ?_
    | refine Keeps.of_fst (by assumption) ?_
    | refine Keeps.of_some (by assumption) ?_
    | refine Keeps.of_ok (by assumption) ?_

theorem execRegRead_keeps {s₀ s : State} {x0} (h : Keeps s₀ s) :
    OutKeeps s₀ (execRegRead x0 s) := by
  unfold execRegRead
  repeat' first
    | intro _
    | with_reducible assumption
    | with_reducible first | apply housekeepingAnswer_keeps
    | with_reducible first | apply Keeps.ite | apply Keeps.ite_snd | apply Keeps.out | apply Keeps.out_fault | apply Keeps.out_refused | apply Keeps.forN | apply Keeps.getD | apply Keeps.elim | apply Keeps.foldl | apply Keeps.foldl_snd | apply Keeps.foldl_third | apply Keeps.foldl_fst
    | dsimp only
    | simp only [Keeps.upd_iff]
    | split
    | refine Keeps.of_pair (by assumption) ?_
    | refine Keeps.of_triple (by assumption) ?_
    | refine Keeps.of_fst (by assumption) ?_
    | refine Keeps.of_some (by assumption) ?_
    | refine Keeps.of_ok (by assumption) ?_

theorem execMgmt_keeps {s₀ s : State} {x0} {x1} (h : Keeps s₀ s) :
    OutKeeps s₀ (execMgmt x0 x1 s) := by
  unfold execMgmt
  repeat' first
    | intro _
    | with_reducible assumption
    | with_reducible first | apply State.bump_keeps | apply writeWord_keeps
    | with_reducible first | apply Keeps.ite | apply Keeps.ite_snd | apply Keeps.out | apply Keeps.out_fault | apply Keeps.out_refused | apply Keeps.forN | apply Keeps.getD | apply Keeps.elim | apply Keeps.foldl | apply Keeps.foldl_snd | apply Keeps.foldl_third | apply Keeps.foldl_fst
    | dsimp only
    | simp only [Keeps.upd_iff]
    | split
    | refine Keeps.of_pair (by assumption) ?_
    | refine Keeps.of_triple (by assumption) ?_
    | refine Keeps.of_fst (by assumption) ?_
    | refine Keeps.of_some (by assumption) ?_
    | refine Keeps.of_ok (by assumption) ?_

theorem execProvWrite_keeps {s₀ s : State} {x0} {x1} (h : Keeps s₀ s) :
    OutKeeps s₀ (execProvWrite x0 x1 s) := by
  unfold execProvWrite
  repeat' first
    | intro _
    | with_reducible assumption
    | with_reducible first | apply housekeepingAnswer_keeps
    | with_reducible first | apply Keeps.ite | apply Keeps.ite_snd | apply Keeps.out | apply Keeps.out_fault | apply Keeps.out_refused | apply Keeps.forN | apply Keeps.getD | apply Keeps.elim | apply Keeps.foldl | apply Keeps.foldl_snd | apply Keeps.foldl_third | apply Keeps.foldl_fst
    | dsimp only
    | simp only [Keeps.upd_iff]
    | split
    | refine Keeps.of_pair (by assumption) ?_
    | refine Keeps.of_triple (by assumption) ?_
    | refine Keeps.of_fst (by assumption) ?_
    | refine Keeps.of_some (by assumption) ?_
    | refine Keeps.of_ok (by assumption) ?_

theorem execRegisterWrite_keeps {s₀ s : State} {x0} {x1} {x2} (h : Keeps s₀ s) :
    OutKeeps s₀ (execRegisterWrite x0 x1 x2 s) := by
  unfold execRegisterWrite
  repeat' first
    | intro _
    | with_reducible assumption
    | with_reducible first | apply writeWord_keeps
    | with_reducible first | apply Keeps.ite | apply Keeps.ite_snd | apply Keeps.out | apply Keeps.out_fault | apply Keeps.out_refused | apply Keeps.forN | apply Keeps.getD | apply Keeps.elim | apply Keeps.foldl | apply Keeps.foldl_snd | apply Keeps.foldl_third | apply Keeps.foldl_fst
    | dsimp only
    | simp only [Keeps.upd_iff]
    | split
    | refine Keeps.of_pair (by assumption) ?_
    | refine Keeps.of_triple (by assumption) ?_
    | refine Keeps.of_fst (by assumption) ?_
    | refine Keeps.of_some (by assumption) ?_
    | refine Keeps.of_ok (by assumption) ?_

end Sys2Proof.Machine
end

