-- ==== Sys2Proof/Laws/State.lean ====
section
/-! SUPPORT. What each update of the state leaves alone: one lemma for each other field, true by definition;
and what a read gives after a write of the same part, and of another. -/
namespace Sys2Proof.Machine

/-! `State.put` changes `regs` alone. -/
@[simp] theorem State.put_mem (s : State) (f : Fld) (v : Nat) : (s.put f v).mem = s.mem := rfl
@[simp] theorem State.put_marks (s : State) (f : Fld) (v : Nat) : (s.put f v).marks = s.marks := rfl
@[simp] theorem State.put_lines (s : State) (f : Fld) (v : Nat) : (s.put f v).lines = s.lines := rfl
@[simp] theorem State.put_bs (s : State) (f : Fld) (v : Nat) : (s.put f v).bs = s.bs := rfl
@[simp] theorem State.put_seams (s : State) (f : Fld) (v : Nat) : (s.put f v).seams = s.seams := rfl
@[simp] theorem State.put_units (s : State) (f : Fld) (v : Nat) : (s.put f v).units = s.units := rfl
@[simp] theorem State.put_retained (s : State) (f : Fld) (v : Nat) : (s.put f v).retained = s.retained := rfl
@[simp] theorem State.put_hubs (s : State) (f : Fld) (v : Nat) : (s.put f v).hubs = s.hubs := rfl
@[simp] theorem State.put_clusters (s : State) (f : Fld) (v : Nat) : (s.put f v).clusters = s.clusters := rfl
@[simp] theorem State.put_upes (s : State) (f : Fld) (v : Nat) : (s.put f v).upes = s.upes := rfl
@[simp] theorem State.put_pans (s : State) (f : Fld) (v : Nat) : (s.put f v).pans = s.pans := rfl
@[simp] theorem State.put_chans (s : State) (f : Fld) (v : Nat) : (s.put f v).chans = s.chans := rfl
@[simp] theorem State.put_ring (s : State) (f : Fld) (v : Nat) : (s.put f v).ring = s.ring := rfl
@[simp] theorem State.put_stops (s : State) (f : Fld) (v : Nat) : (s.put f v).stops = s.stops := rfl
@[simp] theorem State.put_waiters (s : State) (f : Fld) (v : Nat) : (s.put f v).waiters = s.waiters := rfl
@[simp] theorem State.put_asked (s : State) (f : Fld) (v : Nat) : (s.put f v).asked = s.asked := rfl
@[simp] theorem State.put_nextTag (s : State) (f : Fld) (v : Nat) : (s.put f v).nextTag = s.nextTag := rfl
@[simp] theorem State.put_peers (s : State) (f : Fld) (v : Nat) : (s.put f v).peers = s.peers := rfl
@[simp] theorem State.put_streams (s : State) (f : Fld) (v : Nat) : (s.put f v).streams = s.streams := rfl
@[simp] theorem State.put_pages (s : State) (f : Fld) (v : Nat) : (s.put f v).pages = s.pages := rfl
@[simp] theorem State.put_pdScale (s : State) (f : Fld) (v : Nat) : (s.put f v).pdScale = s.pdScale := rfl
@[simp] theorem State.put_drl (s : State) (f : Fld) (v : Nat) : (s.put f v).drl = s.drl := rfl
@[simp] theorem State.put_rebuilt (s : State) (f : Fld) (v : Nat) : (s.put f v).rebuilt = s.rebuilt := rfl
@[simp] theorem State.put_outbox (s : State) (f : Fld) (v : Nat) : (s.put f v).outbox = s.outbox := rfl
@[simp] theorem State.put_gate (s : State) (f : Fld) (v : Nat) : (s.put f v).gate = s.gate := rfl
@[simp] theorem State.put_flows (s : State) (f : Fld) (v : Nat) : (s.put f v).flows = s.flows := rfl
@[simp] theorem State.put_errq (s : State) (f : Fld) (v : Nat) : (s.put f v).errq = s.errq := rfl
@[simp] theorem State.put_errSeq (s : State) (f : Fld) (v : Nat) : (s.put f v).errSeq = s.errSeq := rfl
@[simp] theorem State.put_inj (s : State) (f : Fld) (v : Nat) : (s.put f v).inj = s.inj := rfl
@[simp] theorem State.put_evbuf (s : State) (f : Fld) (v : Nat) : (s.put f v).evbuf = s.evbuf := rfl
@[simp] theorem State.put_evSeq (s : State) (f : Fld) (v : Nat) : (s.put f v).evSeq = s.evSeq := rfl
@[simp] theorem State.put_evOut (s : State) (f : Fld) (v : Nat) : (s.put f v).evOut = s.evOut := rfl
@[simp] theorem State.put_evPre (s : State) (f : Fld) (v : Nat) : (s.put f v).evPre = s.evPre := rfl
@[simp] theorem State.put_evLost (s : State) (f : Fld) (v : Nat) : (s.put f v).evLost = s.evLost := rfl
@[simp] theorem State.put_plants (s : State) (f : Fld) (v : Nat) : (s.put f v).plants = s.plants := rfl
@[simp] theorem State.put_parkOrder (s : State) (f : Fld) (v : Nat) : (s.put f v).parkOrder = s.parkOrder := rfl
@[simp] theorem State.put_inputStop (s : State) (f : Fld) (v : Nat) : (s.put f v).inputStop = s.inputStop := rfl
@[simp] theorem State.put_inputMv (s : State) (f : Fld) (v : Nat) : (s.put f v).inputMv = s.inputMv := rfl
@[simp] theorem State.put_inputRev (s : State) (f : Fld) (v : Nat) : (s.put f v).inputRev = s.inputRev := rfl
@[simp] theorem State.put_shorted (s : State) (f : Fld) (v : Nat) : (s.put f v).shorted = s.shorted := rfl
@[simp] theorem State.put_convDead (s : State) (f : Fld) (v : Nat) : (s.put f v).convDead = s.convDead := rfl
@[simp] theorem State.put_scrubDevs (s : State) (f : Fld) (v : Nat) : (s.put f v).scrubDevs = s.scrubDevs := rfl
@[simp] theorem State.put_found (s : State) (f : Fld) (v : Nat) : (s.put f v).found = s.found := rfl
@[simp] theorem State.put_unzeroed (s : State) (f : Fld) (v : Nat) : (s.put f v).unzeroed = s.unzeroed := rfl
@[simp] theorem State.put_stkKeys (s : State) (f : Fld) (v : Nat) : (s.put f v).stkKeys = s.stkKeys := rfl
@[simp] theorem State.put_pdOff (s : State) (f : Fld) (v : Nat) : (s.put f v).pdOff = s.pdOff := rfl
@[simp] theorem State.put_refreshing (s : State) (f : Fld) (v : Nat) : (s.put f v).refreshing = s.refreshing := rfl
@[simp] theorem State.put_seamsDue (s : State) (f : Fld) (v : Nat) : (s.put f v).seamsDue = s.seamsDue := rfl
@[simp] theorem State.put_chains (s : State) (f : Fld) (v : Nat) : (s.put f v).chains = s.chains := rfl
@[simp] theorem State.put_snaps (s : State) (f : Fld) (v : Nat) : (s.put f v).snaps = s.snaps := rfl
@[simp] theorem State.put_rsImage (s : State) (f : Fld) (v : Nat) : (s.put f v).rsImage = s.rsImage := rfl
@[simp] theorem State.put_ckptKey (s : State) (f : Fld) (v : Nat) : (s.put f v).ckptKey = s.ckptKey := rfl
@[simp] theorem State.put_ckptNew (s : State) (f : Fld) (v : Nat) : (s.put f v).ckptNew = s.ckptNew := rfl
@[simp] theorem State.put_ckptOld (s : State) (f : Fld) (v : Nat) : (s.put f v).ckptOld = s.ckptOld := rfl
@[simp] theorem State.put_macsec (s : State) (f : Fld) (v : Nat) : (s.put f v).macsec = s.macsec := rfl
@[simp] theorem State.put_buffers (s : State) (f : Fld) (v : Nat) : (s.put f v).buffers = s.buffers := rfl
@[simp] theorem State.put_xoffs (s : State) (f : Fld) (v : Nat) : (s.put f v).xoffs = s.xoffs := rfl
@[simp] theorem State.put_paused (s : State) (f : Fld) (v : Nat) : (s.put f v).paused = s.paused := rfl
@[simp] theorem State.put_txWait (s : State) (f : Fld) (v : Nat) : (s.put f v).txWait = s.txWait := rfl
@[simp] theorem State.put_vendorHash (s : State) (f : Fld) (v : Nat) : (s.put f v).vendorHash = s.vendorHash := rfl
@[simp] theorem State.put_serial (s : State) (f : Fld) (v : Nat) : (s.put f v).serial = s.serial := rfl
@[simp] theorem State.put_idCert (s : State) (f : Fld) (v : Nat) : (s.put f v).idCert = s.idCert := rfl
@[simp] theorem State.put_owners (s : State) (f : Fld) (v : Nat) : (s.put f v).owners = s.owners := rfl
@[simp] theorem State.put_flash (s : State) (f : Fld) (v : Nat) : (s.put f v).flash = s.flash := rfl
@[simp] theorem State.put_prov (s : State) (f : Fld) (v : Nat) : (s.put f v).prov = s.prov := rfl
@[simp] theorem State.put_meas (s : State) (f : Fld) (v : Nat) : (s.put f v).meas = s.meas := rfl
@[simp] theorem State.put_rootLost (s : State) (f : Fld) (v : Nat) : (s.put f v).rootLost = s.rootLost := rfl
@[simp] theorem State.put_kt (s : State) (f : Fld) (v : Nat) : (s.put f v).kt = s.kt := rfl
@[simp] theorem State.put_cmdBuf (s : State) (f : Fld) (v : Nat) : (s.put f v).cmdBuf = s.cmdBuf := rfl
@[simp] theorem State.put_quote (s : State) (f : Fld) (v : Nat) : (s.put f v).quote = s.quote := rfl
@[simp] theorem State.put_ktCert (s : State) (f : Fld) (v : Nat) : (s.put f v).ktCert = s.ktCert := rfl
@[simp] theorem State.put_loadHeld (s : State) (f : Fld) (v : Nat) : (s.put f v).loadHeld = s.loadHeld := rfl
@[simp] theorem State.put_quiescing (s : State) (f : Fld) (v : Nat) : (s.put f v).quiescing = s.quiescing := rfl
@[simp] theorem State.put_activating (s : State) (f : Fld) (v : Nat) : (s.put f v).activating = s.activating := rfl
@[simp] theorem State.put_bootInj (s : State) (f : Fld) (v : Nat) : (s.put f v).bootInj = s.bootInj := rfl
@[simp] theorem State.put_linkUps (s : State) (f : Fld) (v : Nat) : (s.put f v).linkUps = s.linkUps := rfl
@[simp] theorem State.put_bays (s : State) (f : Fld) (v : Nat) : (s.put f v).bays = s.bays := rfl
@[simp] theorem State.put_meter (s : State) (f : Fld) (v : Nat) : (s.put f v).meter = s.meter := rfl
@[simp] theorem State.put_mirror (s : State) (f : Fld) (v : Nat) : (s.put f v).mirror = s.mirror := rfl
@[simp] theorem State.put_cmdMode (s : State) (f : Fld) (v : Nat) : (s.put f v).cmdMode = s.cmdMode := rfl
@[simp] theorem State.put_tick (s : State) (f : Fld) (v : Nat) : (s.put f v).tick = s.tick := rfl
@[simp] theorem State.put_pending (s : State) (f : Fld) (v : Nat) : (s.put f v).pending = s.pending := rfl

/-! `State.tock` changes `tick` alone. -/
@[simp] theorem State.tock_regs (s : State) : (s.tock).regs = s.regs := rfl
@[simp] theorem State.tock_mem (s : State) : (s.tock).mem = s.mem := rfl
@[simp] theorem State.tock_marks (s : State) : (s.tock).marks = s.marks := rfl
@[simp] theorem State.tock_lines (s : State) : (s.tock).lines = s.lines := rfl
@[simp] theorem State.tock_bs (s : State) : (s.tock).bs = s.bs := rfl
@[simp] theorem State.tock_seams (s : State) : (s.tock).seams = s.seams := rfl
@[simp] theorem State.tock_units (s : State) : (s.tock).units = s.units := rfl
@[simp] theorem State.tock_retained (s : State) : (s.tock).retained = s.retained := rfl
@[simp] theorem State.tock_hubs (s : State) : (s.tock).hubs = s.hubs := rfl
@[simp] theorem State.tock_clusters (s : State) : (s.tock).clusters = s.clusters := rfl
@[simp] theorem State.tock_upes (s : State) : (s.tock).upes = s.upes := rfl
@[simp] theorem State.tock_pans (s : State) : (s.tock).pans = s.pans := rfl
@[simp] theorem State.tock_chans (s : State) : (s.tock).chans = s.chans := rfl
@[simp] theorem State.tock_ring (s : State) : (s.tock).ring = s.ring := rfl
@[simp] theorem State.tock_stops (s : State) : (s.tock).stops = s.stops := rfl
@[simp] theorem State.tock_waiters (s : State) : (s.tock).waiters = s.waiters := rfl
@[simp] theorem State.tock_asked (s : State) : (s.tock).asked = s.asked := rfl
@[simp] theorem State.tock_nextTag (s : State) : (s.tock).nextTag = s.nextTag := rfl
@[simp] theorem State.tock_peers (s : State) : (s.tock).peers = s.peers := rfl
@[simp] theorem State.tock_streams (s : State) : (s.tock).streams = s.streams := rfl
@[simp] theorem State.tock_pages (s : State) : (s.tock).pages = s.pages := rfl
@[simp] theorem State.tock_pdScale (s : State) : (s.tock).pdScale = s.pdScale := rfl
@[simp] theorem State.tock_drl (s : State) : (s.tock).drl = s.drl := rfl
@[simp] theorem State.tock_rebuilt (s : State) : (s.tock).rebuilt = s.rebuilt := rfl
@[simp] theorem State.tock_outbox (s : State) : (s.tock).outbox = s.outbox := rfl
@[simp] theorem State.tock_gate (s : State) : (s.tock).gate = s.gate := rfl
@[simp] theorem State.tock_flows (s : State) : (s.tock).flows = s.flows := rfl
@[simp] theorem State.tock_errq (s : State) : (s.tock).errq = s.errq := rfl
@[simp] theorem State.tock_errSeq (s : State) : (s.tock).errSeq = s.errSeq := rfl
@[simp] theorem State.tock_inj (s : State) : (s.tock).inj = s.inj := rfl
@[simp] theorem State.tock_evbuf (s : State) : (s.tock).evbuf = s.evbuf := rfl
@[simp] theorem State.tock_evSeq (s : State) : (s.tock).evSeq = s.evSeq := rfl
@[simp] theorem State.tock_evOut (s : State) : (s.tock).evOut = s.evOut := rfl
@[simp] theorem State.tock_evPre (s : State) : (s.tock).evPre = s.evPre := rfl
@[simp] theorem State.tock_evLost (s : State) : (s.tock).evLost = s.evLost := rfl
@[simp] theorem State.tock_plants (s : State) : (s.tock).plants = s.plants := rfl
@[simp] theorem State.tock_parkOrder (s : State) : (s.tock).parkOrder = s.parkOrder := rfl
@[simp] theorem State.tock_inputStop (s : State) : (s.tock).inputStop = s.inputStop := rfl
@[simp] theorem State.tock_inputMv (s : State) : (s.tock).inputMv = s.inputMv := rfl
@[simp] theorem State.tock_inputRev (s : State) : (s.tock).inputRev = s.inputRev := rfl
@[simp] theorem State.tock_shorted (s : State) : (s.tock).shorted = s.shorted := rfl
@[simp] theorem State.tock_convDead (s : State) : (s.tock).convDead = s.convDead := rfl
@[simp] theorem State.tock_scrubDevs (s : State) : (s.tock).scrubDevs = s.scrubDevs := rfl
@[simp] theorem State.tock_found (s : State) : (s.tock).found = s.found := rfl
@[simp] theorem State.tock_unzeroed (s : State) : (s.tock).unzeroed = s.unzeroed := rfl
@[simp] theorem State.tock_stkKeys (s : State) : (s.tock).stkKeys = s.stkKeys := rfl
@[simp] theorem State.tock_pdOff (s : State) : (s.tock).pdOff = s.pdOff := rfl
@[simp] theorem State.tock_refreshing (s : State) : (s.tock).refreshing = s.refreshing := rfl
@[simp] theorem State.tock_seamsDue (s : State) : (s.tock).seamsDue = s.seamsDue := rfl
@[simp] theorem State.tock_chains (s : State) : (s.tock).chains = s.chains := rfl
@[simp] theorem State.tock_snaps (s : State) : (s.tock).snaps = s.snaps := rfl
@[simp] theorem State.tock_rsImage (s : State) : (s.tock).rsImage = s.rsImage := rfl
@[simp] theorem State.tock_ckptKey (s : State) : (s.tock).ckptKey = s.ckptKey := rfl
@[simp] theorem State.tock_ckptNew (s : State) : (s.tock).ckptNew = s.ckptNew := rfl
@[simp] theorem State.tock_ckptOld (s : State) : (s.tock).ckptOld = s.ckptOld := rfl
@[simp] theorem State.tock_macsec (s : State) : (s.tock).macsec = s.macsec := rfl
@[simp] theorem State.tock_buffers (s : State) : (s.tock).buffers = s.buffers := rfl
@[simp] theorem State.tock_xoffs (s : State) : (s.tock).xoffs = s.xoffs := rfl
@[simp] theorem State.tock_paused (s : State) : (s.tock).paused = s.paused := rfl
@[simp] theorem State.tock_txWait (s : State) : (s.tock).txWait = s.txWait := rfl
@[simp] theorem State.tock_vendorHash (s : State) : (s.tock).vendorHash = s.vendorHash := rfl
@[simp] theorem State.tock_serial (s : State) : (s.tock).serial = s.serial := rfl
@[simp] theorem State.tock_idCert (s : State) : (s.tock).idCert = s.idCert := rfl
@[simp] theorem State.tock_owners (s : State) : (s.tock).owners = s.owners := rfl
@[simp] theorem State.tock_flash (s : State) : (s.tock).flash = s.flash := rfl
@[simp] theorem State.tock_prov (s : State) : (s.tock).prov = s.prov := rfl
@[simp] theorem State.tock_meas (s : State) : (s.tock).meas = s.meas := rfl
@[simp] theorem State.tock_rootLost (s : State) : (s.tock).rootLost = s.rootLost := rfl
@[simp] theorem State.tock_kt (s : State) : (s.tock).kt = s.kt := rfl
@[simp] theorem State.tock_cmdBuf (s : State) : (s.tock).cmdBuf = s.cmdBuf := rfl
@[simp] theorem State.tock_quote (s : State) : (s.tock).quote = s.quote := rfl
@[simp] theorem State.tock_ktCert (s : State) : (s.tock).ktCert = s.ktCert := rfl
@[simp] theorem State.tock_loadHeld (s : State) : (s.tock).loadHeld = s.loadHeld := rfl
@[simp] theorem State.tock_quiescing (s : State) : (s.tock).quiescing = s.quiescing := rfl
@[simp] theorem State.tock_activating (s : State) : (s.tock).activating = s.activating := rfl
@[simp] theorem State.tock_bootInj (s : State) : (s.tock).bootInj = s.bootInj := rfl
@[simp] theorem State.tock_linkUps (s : State) : (s.tock).linkUps = s.linkUps := rfl
@[simp] theorem State.tock_bays (s : State) : (s.tock).bays = s.bays := rfl
@[simp] theorem State.tock_meter (s : State) : (s.tock).meter = s.meter := rfl
@[simp] theorem State.tock_mirror (s : State) : (s.tock).mirror = s.mirror := rfl
@[simp] theorem State.tock_cmdMode (s : State) : (s.tock).cmdMode = s.cmdMode := rfl
@[simp] theorem State.tock_pending (s : State) : (s.tock).pending = s.pending := rfl

/-! `State.setHub` changes `hubs` alone. -/
@[simp] theorem State.setHub_regs (s : State) (r : Nat) (x : Hub) : (s.setHub r x).regs = s.regs := rfl
@[simp] theorem State.setHub_mem (s : State) (r : Nat) (x : Hub) : (s.setHub r x).mem = s.mem := rfl
@[simp] theorem State.setHub_marks (s : State) (r : Nat) (x : Hub) : (s.setHub r x).marks = s.marks := rfl
@[simp] theorem State.setHub_lines (s : State) (r : Nat) (x : Hub) : (s.setHub r x).lines = s.lines := rfl
@[simp] theorem State.setHub_bs (s : State) (r : Nat) (x : Hub) : (s.setHub r x).bs = s.bs := rfl
@[simp] theorem State.setHub_seams (s : State) (r : Nat) (x : Hub) : (s.setHub r x).seams = s.seams := rfl
@[simp] theorem State.setHub_units (s : State) (r : Nat) (x : Hub) : (s.setHub r x).units = s.units := rfl
@[simp] theorem State.setHub_retained (s : State) (r : Nat) (x : Hub) : (s.setHub r x).retained = s.retained := rfl
@[simp] theorem State.setHub_clusters (s : State) (r : Nat) (x : Hub) : (s.setHub r x).clusters = s.clusters := rfl
@[simp] theorem State.setHub_upes (s : State) (r : Nat) (x : Hub) : (s.setHub r x).upes = s.upes := rfl
@[simp] theorem State.setHub_pans (s : State) (r : Nat) (x : Hub) : (s.setHub r x).pans = s.pans := rfl
@[simp] theorem State.setHub_chans (s : State) (r : Nat) (x : Hub) : (s.setHub r x).chans = s.chans := rfl
@[simp] theorem State.setHub_ring (s : State) (r : Nat) (x : Hub) : (s.setHub r x).ring = s.ring := rfl
@[simp] theorem State.setHub_stops (s : State) (r : Nat) (x : Hub) : (s.setHub r x).stops = s.stops := rfl
@[simp] theorem State.setHub_waiters (s : State) (r : Nat) (x : Hub) : (s.setHub r x).waiters = s.waiters := rfl
@[simp] theorem State.setHub_asked (s : State) (r : Nat) (x : Hub) : (s.setHub r x).asked = s.asked := rfl
@[simp] theorem State.setHub_nextTag (s : State) (r : Nat) (x : Hub) : (s.setHub r x).nextTag = s.nextTag := rfl
@[simp] theorem State.setHub_peers (s : State) (r : Nat) (x : Hub) : (s.setHub r x).peers = s.peers := rfl
@[simp] theorem State.setHub_streams (s : State) (r : Nat) (x : Hub) : (s.setHub r x).streams = s.streams := rfl
@[simp] theorem State.setHub_pages (s : State) (r : Nat) (x : Hub) : (s.setHub r x).pages = s.pages := rfl
@[simp] theorem State.setHub_pdScale (s : State) (r : Nat) (x : Hub) : (s.setHub r x).pdScale = s.pdScale := rfl
@[simp] theorem State.setHub_drl (s : State) (r : Nat) (x : Hub) : (s.setHub r x).drl = s.drl := rfl
@[simp] theorem State.setHub_rebuilt (s : State) (r : Nat) (x : Hub) : (s.setHub r x).rebuilt = s.rebuilt := rfl
@[simp] theorem State.setHub_outbox (s : State) (r : Nat) (x : Hub) : (s.setHub r x).outbox = s.outbox := rfl
@[simp] theorem State.setHub_gate (s : State) (r : Nat) (x : Hub) : (s.setHub r x).gate = s.gate := rfl
@[simp] theorem State.setHub_flows (s : State) (r : Nat) (x : Hub) : (s.setHub r x).flows = s.flows := rfl
@[simp] theorem State.setHub_errq (s : State) (r : Nat) (x : Hub) : (s.setHub r x).errq = s.errq := rfl
@[simp] theorem State.setHub_errSeq (s : State) (r : Nat) (x : Hub) : (s.setHub r x).errSeq = s.errSeq := rfl
@[simp] theorem State.setHub_inj (s : State) (r : Nat) (x : Hub) : (s.setHub r x).inj = s.inj := rfl
@[simp] theorem State.setHub_evbuf (s : State) (r : Nat) (x : Hub) : (s.setHub r x).evbuf = s.evbuf := rfl
@[simp] theorem State.setHub_evSeq (s : State) (r : Nat) (x : Hub) : (s.setHub r x).evSeq = s.evSeq := rfl
@[simp] theorem State.setHub_evOut (s : State) (r : Nat) (x : Hub) : (s.setHub r x).evOut = s.evOut := rfl
@[simp] theorem State.setHub_evPre (s : State) (r : Nat) (x : Hub) : (s.setHub r x).evPre = s.evPre := rfl
@[simp] theorem State.setHub_evLost (s : State) (r : Nat) (x : Hub) : (s.setHub r x).evLost = s.evLost := rfl
@[simp] theorem State.setHub_plants (s : State) (r : Nat) (x : Hub) : (s.setHub r x).plants = s.plants := rfl
@[simp] theorem State.setHub_parkOrder (s : State) (r : Nat) (x : Hub) : (s.setHub r x).parkOrder = s.parkOrder := rfl
@[simp] theorem State.setHub_inputStop (s : State) (r : Nat) (x : Hub) : (s.setHub r x).inputStop = s.inputStop := rfl
@[simp] theorem State.setHub_inputMv (s : State) (r : Nat) (x : Hub) : (s.setHub r x).inputMv = s.inputMv := rfl
@[simp] theorem State.setHub_inputRev (s : State) (r : Nat) (x : Hub) : (s.setHub r x).inputRev = s.inputRev := rfl
@[simp] theorem State.setHub_shorted (s : State) (r : Nat) (x : Hub) : (s.setHub r x).shorted = s.shorted := rfl
@[simp] theorem State.setHub_convDead (s : State) (r : Nat) (x : Hub) : (s.setHub r x).convDead = s.convDead := rfl
@[simp] theorem State.setHub_scrubDevs (s : State) (r : Nat) (x : Hub) : (s.setHub r x).scrubDevs = s.scrubDevs := rfl
@[simp] theorem State.setHub_found (s : State) (r : Nat) (x : Hub) : (s.setHub r x).found = s.found := rfl
@[simp] theorem State.setHub_unzeroed (s : State) (r : Nat) (x : Hub) : (s.setHub r x).unzeroed = s.unzeroed := rfl
@[simp] theorem State.setHub_stkKeys (s : State) (r : Nat) (x : Hub) : (s.setHub r x).stkKeys = s.stkKeys := rfl
@[simp] theorem State.setHub_pdOff (s : State) (r : Nat) (x : Hub) : (s.setHub r x).pdOff = s.pdOff := rfl
@[simp] theorem State.setHub_refreshing (s : State) (r : Nat) (x : Hub) : (s.setHub r x).refreshing = s.refreshing := rfl
@[simp] theorem State.setHub_seamsDue (s : State) (r : Nat) (x : Hub) : (s.setHub r x).seamsDue = s.seamsDue := rfl
@[simp] theorem State.setHub_chains (s : State) (r : Nat) (x : Hub) : (s.setHub r x).chains = s.chains := rfl
@[simp] theorem State.setHub_snaps (s : State) (r : Nat) (x : Hub) : (s.setHub r x).snaps = s.snaps := rfl
@[simp] theorem State.setHub_rsImage (s : State) (r : Nat) (x : Hub) : (s.setHub r x).rsImage = s.rsImage := rfl
@[simp] theorem State.setHub_ckptKey (s : State) (r : Nat) (x : Hub) : (s.setHub r x).ckptKey = s.ckptKey := rfl
@[simp] theorem State.setHub_ckptNew (s : State) (r : Nat) (x : Hub) : (s.setHub r x).ckptNew = s.ckptNew := rfl
@[simp] theorem State.setHub_ckptOld (s : State) (r : Nat) (x : Hub) : (s.setHub r x).ckptOld = s.ckptOld := rfl
@[simp] theorem State.setHub_macsec (s : State) (r : Nat) (x : Hub) : (s.setHub r x).macsec = s.macsec := rfl
@[simp] theorem State.setHub_buffers (s : State) (r : Nat) (x : Hub) : (s.setHub r x).buffers = s.buffers := rfl
@[simp] theorem State.setHub_xoffs (s : State) (r : Nat) (x : Hub) : (s.setHub r x).xoffs = s.xoffs := rfl
@[simp] theorem State.setHub_paused (s : State) (r : Nat) (x : Hub) : (s.setHub r x).paused = s.paused := rfl
@[simp] theorem State.setHub_txWait (s : State) (r : Nat) (x : Hub) : (s.setHub r x).txWait = s.txWait := rfl
@[simp] theorem State.setHub_vendorHash (s : State) (r : Nat) (x : Hub) : (s.setHub r x).vendorHash = s.vendorHash := rfl
@[simp] theorem State.setHub_serial (s : State) (r : Nat) (x : Hub) : (s.setHub r x).serial = s.serial := rfl
@[simp] theorem State.setHub_idCert (s : State) (r : Nat) (x : Hub) : (s.setHub r x).idCert = s.idCert := rfl
@[simp] theorem State.setHub_owners (s : State) (r : Nat) (x : Hub) : (s.setHub r x).owners = s.owners := rfl
@[simp] theorem State.setHub_flash (s : State) (r : Nat) (x : Hub) : (s.setHub r x).flash = s.flash := rfl
@[simp] theorem State.setHub_prov (s : State) (r : Nat) (x : Hub) : (s.setHub r x).prov = s.prov := rfl
@[simp] theorem State.setHub_meas (s : State) (r : Nat) (x : Hub) : (s.setHub r x).meas = s.meas := rfl
@[simp] theorem State.setHub_rootLost (s : State) (r : Nat) (x : Hub) : (s.setHub r x).rootLost = s.rootLost := rfl
@[simp] theorem State.setHub_kt (s : State) (r : Nat) (x : Hub) : (s.setHub r x).kt = s.kt := rfl
@[simp] theorem State.setHub_cmdBuf (s : State) (r : Nat) (x : Hub) : (s.setHub r x).cmdBuf = s.cmdBuf := rfl
@[simp] theorem State.setHub_quote (s : State) (r : Nat) (x : Hub) : (s.setHub r x).quote = s.quote := rfl
@[simp] theorem State.setHub_ktCert (s : State) (r : Nat) (x : Hub) : (s.setHub r x).ktCert = s.ktCert := rfl
@[simp] theorem State.setHub_loadHeld (s : State) (r : Nat) (x : Hub) : (s.setHub r x).loadHeld = s.loadHeld := rfl
@[simp] theorem State.setHub_quiescing (s : State) (r : Nat) (x : Hub) : (s.setHub r x).quiescing = s.quiescing := rfl
@[simp] theorem State.setHub_activating (s : State) (r : Nat) (x : Hub) : (s.setHub r x).activating = s.activating := rfl
@[simp] theorem State.setHub_bootInj (s : State) (r : Nat) (x : Hub) : (s.setHub r x).bootInj = s.bootInj := rfl
@[simp] theorem State.setHub_linkUps (s : State) (r : Nat) (x : Hub) : (s.setHub r x).linkUps = s.linkUps := rfl
@[simp] theorem State.setHub_bays (s : State) (r : Nat) (x : Hub) : (s.setHub r x).bays = s.bays := rfl
@[simp] theorem State.setHub_meter (s : State) (r : Nat) (x : Hub) : (s.setHub r x).meter = s.meter := rfl
@[simp] theorem State.setHub_mirror (s : State) (r : Nat) (x : Hub) : (s.setHub r x).mirror = s.mirror := rfl
@[simp] theorem State.setHub_cmdMode (s : State) (r : Nat) (x : Hub) : (s.setHub r x).cmdMode = s.cmdMode := rfl
@[simp] theorem State.setHub_tick (s : State) (r : Nat) (x : Hub) : (s.setHub r x).tick = s.tick := rfl
@[simp] theorem State.setHub_pending (s : State) (r : Nat) (x : Hub) : (s.setHub r x).pending = s.pending := rfl

/-! `State.setCluster` changes `clusters` alone. -/
@[simp] theorem State.setCluster_regs (s : State) (r c : Nat) (x : Cluster) : (s.setCluster r c x).regs = s.regs := rfl
@[simp] theorem State.setCluster_mem (s : State) (r c : Nat) (x : Cluster) : (s.setCluster r c x).mem = s.mem := rfl
@[simp] theorem State.setCluster_marks (s : State) (r c : Nat) (x : Cluster) : (s.setCluster r c x).marks = s.marks := rfl
@[simp] theorem State.setCluster_lines (s : State) (r c : Nat) (x : Cluster) : (s.setCluster r c x).lines = s.lines := rfl
@[simp] theorem State.setCluster_bs (s : State) (r c : Nat) (x : Cluster) : (s.setCluster r c x).bs = s.bs := rfl
@[simp] theorem State.setCluster_seams (s : State) (r c : Nat) (x : Cluster) : (s.setCluster r c x).seams = s.seams := rfl
@[simp] theorem State.setCluster_units (s : State) (r c : Nat) (x : Cluster) : (s.setCluster r c x).units = s.units := rfl
@[simp] theorem State.setCluster_retained (s : State) (r c : Nat) (x : Cluster) : (s.setCluster r c x).retained = s.retained := rfl
@[simp] theorem State.setCluster_hubs (s : State) (r c : Nat) (x : Cluster) : (s.setCluster r c x).hubs = s.hubs := rfl
@[simp] theorem State.setCluster_upes (s : State) (r c : Nat) (x : Cluster) : (s.setCluster r c x).upes = s.upes := rfl
@[simp] theorem State.setCluster_pans (s : State) (r c : Nat) (x : Cluster) : (s.setCluster r c x).pans = s.pans := rfl
@[simp] theorem State.setCluster_chans (s : State) (r c : Nat) (x : Cluster) : (s.setCluster r c x).chans = s.chans := rfl
@[simp] theorem State.setCluster_ring (s : State) (r c : Nat) (x : Cluster) : (s.setCluster r c x).ring = s.ring := rfl
@[simp] theorem State.setCluster_stops (s : State) (r c : Nat) (x : Cluster) : (s.setCluster r c x).stops = s.stops := rfl
@[simp] theorem State.setCluster_waiters (s : State) (r c : Nat) (x : Cluster) : (s.setCluster r c x).waiters = s.waiters := rfl
@[simp] theorem State.setCluster_asked (s : State) (r c : Nat) (x : Cluster) : (s.setCluster r c x).asked = s.asked := rfl
@[simp] theorem State.setCluster_nextTag (s : State) (r c : Nat) (x : Cluster) : (s.setCluster r c x).nextTag = s.nextTag := rfl
@[simp] theorem State.setCluster_peers (s : State) (r c : Nat) (x : Cluster) : (s.setCluster r c x).peers = s.peers := rfl
@[simp] theorem State.setCluster_streams (s : State) (r c : Nat) (x : Cluster) : (s.setCluster r c x).streams = s.streams := rfl
@[simp] theorem State.setCluster_pages (s : State) (r c : Nat) (x : Cluster) : (s.setCluster r c x).pages = s.pages := rfl
@[simp] theorem State.setCluster_pdScale (s : State) (r c : Nat) (x : Cluster) : (s.setCluster r c x).pdScale = s.pdScale := rfl
@[simp] theorem State.setCluster_drl (s : State) (r c : Nat) (x : Cluster) : (s.setCluster r c x).drl = s.drl := rfl
@[simp] theorem State.setCluster_rebuilt (s : State) (r c : Nat) (x : Cluster) : (s.setCluster r c x).rebuilt = s.rebuilt := rfl
@[simp] theorem State.setCluster_outbox (s : State) (r c : Nat) (x : Cluster) : (s.setCluster r c x).outbox = s.outbox := rfl
@[simp] theorem State.setCluster_gate (s : State) (r c : Nat) (x : Cluster) : (s.setCluster r c x).gate = s.gate := rfl
@[simp] theorem State.setCluster_flows (s : State) (r c : Nat) (x : Cluster) : (s.setCluster r c x).flows = s.flows := rfl
@[simp] theorem State.setCluster_errq (s : State) (r c : Nat) (x : Cluster) : (s.setCluster r c x).errq = s.errq := rfl
@[simp] theorem State.setCluster_errSeq (s : State) (r c : Nat) (x : Cluster) : (s.setCluster r c x).errSeq = s.errSeq := rfl
@[simp] theorem State.setCluster_inj (s : State) (r c : Nat) (x : Cluster) : (s.setCluster r c x).inj = s.inj := rfl
@[simp] theorem State.setCluster_evbuf (s : State) (r c : Nat) (x : Cluster) : (s.setCluster r c x).evbuf = s.evbuf := rfl
@[simp] theorem State.setCluster_evSeq (s : State) (r c : Nat) (x : Cluster) : (s.setCluster r c x).evSeq = s.evSeq := rfl
@[simp] theorem State.setCluster_evOut (s : State) (r c : Nat) (x : Cluster) : (s.setCluster r c x).evOut = s.evOut := rfl
@[simp] theorem State.setCluster_evPre (s : State) (r c : Nat) (x : Cluster) : (s.setCluster r c x).evPre = s.evPre := rfl
@[simp] theorem State.setCluster_evLost (s : State) (r c : Nat) (x : Cluster) : (s.setCluster r c x).evLost = s.evLost := rfl
@[simp] theorem State.setCluster_plants (s : State) (r c : Nat) (x : Cluster) : (s.setCluster r c x).plants = s.plants := rfl
@[simp] theorem State.setCluster_parkOrder (s : State) (r c : Nat) (x : Cluster) : (s.setCluster r c x).parkOrder = s.parkOrder := rfl
@[simp] theorem State.setCluster_inputStop (s : State) (r c : Nat) (x : Cluster) : (s.setCluster r c x).inputStop = s.inputStop := rfl
@[simp] theorem State.setCluster_inputMv (s : State) (r c : Nat) (x : Cluster) : (s.setCluster r c x).inputMv = s.inputMv := rfl
@[simp] theorem State.setCluster_inputRev (s : State) (r c : Nat) (x : Cluster) : (s.setCluster r c x).inputRev = s.inputRev := rfl
@[simp] theorem State.setCluster_shorted (s : State) (r c : Nat) (x : Cluster) : (s.setCluster r c x).shorted = s.shorted := rfl
@[simp] theorem State.setCluster_convDead (s : State) (r c : Nat) (x : Cluster) : (s.setCluster r c x).convDead = s.convDead := rfl
@[simp] theorem State.setCluster_scrubDevs (s : State) (r c : Nat) (x : Cluster) : (s.setCluster r c x).scrubDevs = s.scrubDevs := rfl
@[simp] theorem State.setCluster_found (s : State) (r c : Nat) (x : Cluster) : (s.setCluster r c x).found = s.found := rfl
@[simp] theorem State.setCluster_unzeroed (s : State) (r c : Nat) (x : Cluster) : (s.setCluster r c x).unzeroed = s.unzeroed := rfl
@[simp] theorem State.setCluster_stkKeys (s : State) (r c : Nat) (x : Cluster) : (s.setCluster r c x).stkKeys = s.stkKeys := rfl
@[simp] theorem State.setCluster_pdOff (s : State) (r c : Nat) (x : Cluster) : (s.setCluster r c x).pdOff = s.pdOff := rfl
@[simp] theorem State.setCluster_refreshing (s : State) (r c : Nat) (x : Cluster) : (s.setCluster r c x).refreshing = s.refreshing := rfl
@[simp] theorem State.setCluster_seamsDue (s : State) (r c : Nat) (x : Cluster) : (s.setCluster r c x).seamsDue = s.seamsDue := rfl
@[simp] theorem State.setCluster_chains (s : State) (r c : Nat) (x : Cluster) : (s.setCluster r c x).chains = s.chains := rfl
@[simp] theorem State.setCluster_snaps (s : State) (r c : Nat) (x : Cluster) : (s.setCluster r c x).snaps = s.snaps := rfl
@[simp] theorem State.setCluster_rsImage (s : State) (r c : Nat) (x : Cluster) : (s.setCluster r c x).rsImage = s.rsImage := rfl
@[simp] theorem State.setCluster_ckptKey (s : State) (r c : Nat) (x : Cluster) : (s.setCluster r c x).ckptKey = s.ckptKey := rfl
@[simp] theorem State.setCluster_ckptNew (s : State) (r c : Nat) (x : Cluster) : (s.setCluster r c x).ckptNew = s.ckptNew := rfl
@[simp] theorem State.setCluster_ckptOld (s : State) (r c : Nat) (x : Cluster) : (s.setCluster r c x).ckptOld = s.ckptOld := rfl
@[simp] theorem State.setCluster_macsec (s : State) (r c : Nat) (x : Cluster) : (s.setCluster r c x).macsec = s.macsec := rfl
@[simp] theorem State.setCluster_buffers (s : State) (r c : Nat) (x : Cluster) : (s.setCluster r c x).buffers = s.buffers := rfl
@[simp] theorem State.setCluster_xoffs (s : State) (r c : Nat) (x : Cluster) : (s.setCluster r c x).xoffs = s.xoffs := rfl
@[simp] theorem State.setCluster_paused (s : State) (r c : Nat) (x : Cluster) : (s.setCluster r c x).paused = s.paused := rfl
@[simp] theorem State.setCluster_txWait (s : State) (r c : Nat) (x : Cluster) : (s.setCluster r c x).txWait = s.txWait := rfl
@[simp] theorem State.setCluster_vendorHash (s : State) (r c : Nat) (x : Cluster) : (s.setCluster r c x).vendorHash = s.vendorHash := rfl
@[simp] theorem State.setCluster_serial (s : State) (r c : Nat) (x : Cluster) : (s.setCluster r c x).serial = s.serial := rfl
@[simp] theorem State.setCluster_idCert (s : State) (r c : Nat) (x : Cluster) : (s.setCluster r c x).idCert = s.idCert := rfl
@[simp] theorem State.setCluster_owners (s : State) (r c : Nat) (x : Cluster) : (s.setCluster r c x).owners = s.owners := rfl
@[simp] theorem State.setCluster_flash (s : State) (r c : Nat) (x : Cluster) : (s.setCluster r c x).flash = s.flash := rfl
@[simp] theorem State.setCluster_prov (s : State) (r c : Nat) (x : Cluster) : (s.setCluster r c x).prov = s.prov := rfl
@[simp] theorem State.setCluster_meas (s : State) (r c : Nat) (x : Cluster) : (s.setCluster r c x).meas = s.meas := rfl
@[simp] theorem State.setCluster_rootLost (s : State) (r c : Nat) (x : Cluster) : (s.setCluster r c x).rootLost = s.rootLost := rfl
@[simp] theorem State.setCluster_kt (s : State) (r c : Nat) (x : Cluster) : (s.setCluster r c x).kt = s.kt := rfl
@[simp] theorem State.setCluster_cmdBuf (s : State) (r c : Nat) (x : Cluster) : (s.setCluster r c x).cmdBuf = s.cmdBuf := rfl
@[simp] theorem State.setCluster_quote (s : State) (r c : Nat) (x : Cluster) : (s.setCluster r c x).quote = s.quote := rfl
@[simp] theorem State.setCluster_ktCert (s : State) (r c : Nat) (x : Cluster) : (s.setCluster r c x).ktCert = s.ktCert := rfl
@[simp] theorem State.setCluster_loadHeld (s : State) (r c : Nat) (x : Cluster) : (s.setCluster r c x).loadHeld = s.loadHeld := rfl
@[simp] theorem State.setCluster_quiescing (s : State) (r c : Nat) (x : Cluster) : (s.setCluster r c x).quiescing = s.quiescing := rfl
@[simp] theorem State.setCluster_activating (s : State) (r c : Nat) (x : Cluster) : (s.setCluster r c x).activating = s.activating := rfl
@[simp] theorem State.setCluster_bootInj (s : State) (r c : Nat) (x : Cluster) : (s.setCluster r c x).bootInj = s.bootInj := rfl
@[simp] theorem State.setCluster_linkUps (s : State) (r c : Nat) (x : Cluster) : (s.setCluster r c x).linkUps = s.linkUps := rfl
@[simp] theorem State.setCluster_bays (s : State) (r c : Nat) (x : Cluster) : (s.setCluster r c x).bays = s.bays := rfl
@[simp] theorem State.setCluster_meter (s : State) (r c : Nat) (x : Cluster) : (s.setCluster r c x).meter = s.meter := rfl
@[simp] theorem State.setCluster_mirror (s : State) (r c : Nat) (x : Cluster) : (s.setCluster r c x).mirror = s.mirror := rfl
@[simp] theorem State.setCluster_cmdMode (s : State) (r c : Nat) (x : Cluster) : (s.setCluster r c x).cmdMode = s.cmdMode := rfl
@[simp] theorem State.setCluster_tick (s : State) (r c : Nat) (x : Cluster) : (s.setCluster r c x).tick = s.tick := rfl
@[simp] theorem State.setCluster_pending (s : State) (r c : Nat) (x : Cluster) : (s.setCluster r c x).pending = s.pending := rfl

/-! `State.setUpe` changes `upes` alone. -/
@[simp] theorem State.setUpe_regs (s : State) (r d : Nat) (x : Upe) : (s.setUpe r d x).regs = s.regs := rfl
@[simp] theorem State.setUpe_mem (s : State) (r d : Nat) (x : Upe) : (s.setUpe r d x).mem = s.mem := rfl
@[simp] theorem State.setUpe_marks (s : State) (r d : Nat) (x : Upe) : (s.setUpe r d x).marks = s.marks := rfl
@[simp] theorem State.setUpe_lines (s : State) (r d : Nat) (x : Upe) : (s.setUpe r d x).lines = s.lines := rfl
@[simp] theorem State.setUpe_bs (s : State) (r d : Nat) (x : Upe) : (s.setUpe r d x).bs = s.bs := rfl
@[simp] theorem State.setUpe_seams (s : State) (r d : Nat) (x : Upe) : (s.setUpe r d x).seams = s.seams := rfl
@[simp] theorem State.setUpe_units (s : State) (r d : Nat) (x : Upe) : (s.setUpe r d x).units = s.units := rfl
@[simp] theorem State.setUpe_retained (s : State) (r d : Nat) (x : Upe) : (s.setUpe r d x).retained = s.retained := rfl
@[simp] theorem State.setUpe_hubs (s : State) (r d : Nat) (x : Upe) : (s.setUpe r d x).hubs = s.hubs := rfl
@[simp] theorem State.setUpe_clusters (s : State) (r d : Nat) (x : Upe) : (s.setUpe r d x).clusters = s.clusters := rfl
@[simp] theorem State.setUpe_pans (s : State) (r d : Nat) (x : Upe) : (s.setUpe r d x).pans = s.pans := rfl
@[simp] theorem State.setUpe_chans (s : State) (r d : Nat) (x : Upe) : (s.setUpe r d x).chans = s.chans := rfl
@[simp] theorem State.setUpe_ring (s : State) (r d : Nat) (x : Upe) : (s.setUpe r d x).ring = s.ring := rfl
@[simp] theorem State.setUpe_stops (s : State) (r d : Nat) (x : Upe) : (s.setUpe r d x).stops = s.stops := rfl
@[simp] theorem State.setUpe_waiters (s : State) (r d : Nat) (x : Upe) : (s.setUpe r d x).waiters = s.waiters := rfl
@[simp] theorem State.setUpe_asked (s : State) (r d : Nat) (x : Upe) : (s.setUpe r d x).asked = s.asked := rfl
@[simp] theorem State.setUpe_nextTag (s : State) (r d : Nat) (x : Upe) : (s.setUpe r d x).nextTag = s.nextTag := rfl
@[simp] theorem State.setUpe_peers (s : State) (r d : Nat) (x : Upe) : (s.setUpe r d x).peers = s.peers := rfl
@[simp] theorem State.setUpe_streams (s : State) (r d : Nat) (x : Upe) : (s.setUpe r d x).streams = s.streams := rfl
@[simp] theorem State.setUpe_pages (s : State) (r d : Nat) (x : Upe) : (s.setUpe r d x).pages = s.pages := rfl
@[simp] theorem State.setUpe_pdScale (s : State) (r d : Nat) (x : Upe) : (s.setUpe r d x).pdScale = s.pdScale := rfl
@[simp] theorem State.setUpe_drl (s : State) (r d : Nat) (x : Upe) : (s.setUpe r d x).drl = s.drl := rfl
@[simp] theorem State.setUpe_rebuilt (s : State) (r d : Nat) (x : Upe) : (s.setUpe r d x).rebuilt = s.rebuilt := rfl
@[simp] theorem State.setUpe_outbox (s : State) (r d : Nat) (x : Upe) : (s.setUpe r d x).outbox = s.outbox := rfl
@[simp] theorem State.setUpe_gate (s : State) (r d : Nat) (x : Upe) : (s.setUpe r d x).gate = s.gate := rfl
@[simp] theorem State.setUpe_flows (s : State) (r d : Nat) (x : Upe) : (s.setUpe r d x).flows = s.flows := rfl
@[simp] theorem State.setUpe_errq (s : State) (r d : Nat) (x : Upe) : (s.setUpe r d x).errq = s.errq := rfl
@[simp] theorem State.setUpe_errSeq (s : State) (r d : Nat) (x : Upe) : (s.setUpe r d x).errSeq = s.errSeq := rfl
@[simp] theorem State.setUpe_inj (s : State) (r d : Nat) (x : Upe) : (s.setUpe r d x).inj = s.inj := rfl
@[simp] theorem State.setUpe_evbuf (s : State) (r d : Nat) (x : Upe) : (s.setUpe r d x).evbuf = s.evbuf := rfl
@[simp] theorem State.setUpe_evSeq (s : State) (r d : Nat) (x : Upe) : (s.setUpe r d x).evSeq = s.evSeq := rfl
@[simp] theorem State.setUpe_evOut (s : State) (r d : Nat) (x : Upe) : (s.setUpe r d x).evOut = s.evOut := rfl
@[simp] theorem State.setUpe_evPre (s : State) (r d : Nat) (x : Upe) : (s.setUpe r d x).evPre = s.evPre := rfl
@[simp] theorem State.setUpe_evLost (s : State) (r d : Nat) (x : Upe) : (s.setUpe r d x).evLost = s.evLost := rfl
@[simp] theorem State.setUpe_plants (s : State) (r d : Nat) (x : Upe) : (s.setUpe r d x).plants = s.plants := rfl
@[simp] theorem State.setUpe_parkOrder (s : State) (r d : Nat) (x : Upe) : (s.setUpe r d x).parkOrder = s.parkOrder := rfl
@[simp] theorem State.setUpe_inputStop (s : State) (r d : Nat) (x : Upe) : (s.setUpe r d x).inputStop = s.inputStop := rfl
@[simp] theorem State.setUpe_inputMv (s : State) (r d : Nat) (x : Upe) : (s.setUpe r d x).inputMv = s.inputMv := rfl
@[simp] theorem State.setUpe_inputRev (s : State) (r d : Nat) (x : Upe) : (s.setUpe r d x).inputRev = s.inputRev := rfl
@[simp] theorem State.setUpe_shorted (s : State) (r d : Nat) (x : Upe) : (s.setUpe r d x).shorted = s.shorted := rfl
@[simp] theorem State.setUpe_convDead (s : State) (r d : Nat) (x : Upe) : (s.setUpe r d x).convDead = s.convDead := rfl
@[simp] theorem State.setUpe_scrubDevs (s : State) (r d : Nat) (x : Upe) : (s.setUpe r d x).scrubDevs = s.scrubDevs := rfl
@[simp] theorem State.setUpe_found (s : State) (r d : Nat) (x : Upe) : (s.setUpe r d x).found = s.found := rfl
@[simp] theorem State.setUpe_unzeroed (s : State) (r d : Nat) (x : Upe) : (s.setUpe r d x).unzeroed = s.unzeroed := rfl
@[simp] theorem State.setUpe_stkKeys (s : State) (r d : Nat) (x : Upe) : (s.setUpe r d x).stkKeys = s.stkKeys := rfl
@[simp] theorem State.setUpe_pdOff (s : State) (r d : Nat) (x : Upe) : (s.setUpe r d x).pdOff = s.pdOff := rfl
@[simp] theorem State.setUpe_refreshing (s : State) (r d : Nat) (x : Upe) : (s.setUpe r d x).refreshing = s.refreshing := rfl
@[simp] theorem State.setUpe_seamsDue (s : State) (r d : Nat) (x : Upe) : (s.setUpe r d x).seamsDue = s.seamsDue := rfl
@[simp] theorem State.setUpe_chains (s : State) (r d : Nat) (x : Upe) : (s.setUpe r d x).chains = s.chains := rfl
@[simp] theorem State.setUpe_snaps (s : State) (r d : Nat) (x : Upe) : (s.setUpe r d x).snaps = s.snaps := rfl
@[simp] theorem State.setUpe_rsImage (s : State) (r d : Nat) (x : Upe) : (s.setUpe r d x).rsImage = s.rsImage := rfl
@[simp] theorem State.setUpe_ckptKey (s : State) (r d : Nat) (x : Upe) : (s.setUpe r d x).ckptKey = s.ckptKey := rfl
@[simp] theorem State.setUpe_ckptNew (s : State) (r d : Nat) (x : Upe) : (s.setUpe r d x).ckptNew = s.ckptNew := rfl
@[simp] theorem State.setUpe_ckptOld (s : State) (r d : Nat) (x : Upe) : (s.setUpe r d x).ckptOld = s.ckptOld := rfl
@[simp] theorem State.setUpe_macsec (s : State) (r d : Nat) (x : Upe) : (s.setUpe r d x).macsec = s.macsec := rfl
@[simp] theorem State.setUpe_buffers (s : State) (r d : Nat) (x : Upe) : (s.setUpe r d x).buffers = s.buffers := rfl
@[simp] theorem State.setUpe_xoffs (s : State) (r d : Nat) (x : Upe) : (s.setUpe r d x).xoffs = s.xoffs := rfl
@[simp] theorem State.setUpe_paused (s : State) (r d : Nat) (x : Upe) : (s.setUpe r d x).paused = s.paused := rfl
@[simp] theorem State.setUpe_txWait (s : State) (r d : Nat) (x : Upe) : (s.setUpe r d x).txWait = s.txWait := rfl
@[simp] theorem State.setUpe_vendorHash (s : State) (r d : Nat) (x : Upe) : (s.setUpe r d x).vendorHash = s.vendorHash := rfl
@[simp] theorem State.setUpe_serial (s : State) (r d : Nat) (x : Upe) : (s.setUpe r d x).serial = s.serial := rfl
@[simp] theorem State.setUpe_idCert (s : State) (r d : Nat) (x : Upe) : (s.setUpe r d x).idCert = s.idCert := rfl
@[simp] theorem State.setUpe_owners (s : State) (r d : Nat) (x : Upe) : (s.setUpe r d x).owners = s.owners := rfl
@[simp] theorem State.setUpe_flash (s : State) (r d : Nat) (x : Upe) : (s.setUpe r d x).flash = s.flash := rfl
@[simp] theorem State.setUpe_prov (s : State) (r d : Nat) (x : Upe) : (s.setUpe r d x).prov = s.prov := rfl
@[simp] theorem State.setUpe_meas (s : State) (r d : Nat) (x : Upe) : (s.setUpe r d x).meas = s.meas := rfl
@[simp] theorem State.setUpe_rootLost (s : State) (r d : Nat) (x : Upe) : (s.setUpe r d x).rootLost = s.rootLost := rfl
@[simp] theorem State.setUpe_kt (s : State) (r d : Nat) (x : Upe) : (s.setUpe r d x).kt = s.kt := rfl
@[simp] theorem State.setUpe_cmdBuf (s : State) (r d : Nat) (x : Upe) : (s.setUpe r d x).cmdBuf = s.cmdBuf := rfl
@[simp] theorem State.setUpe_quote (s : State) (r d : Nat) (x : Upe) : (s.setUpe r d x).quote = s.quote := rfl
@[simp] theorem State.setUpe_ktCert (s : State) (r d : Nat) (x : Upe) : (s.setUpe r d x).ktCert = s.ktCert := rfl
@[simp] theorem State.setUpe_loadHeld (s : State) (r d : Nat) (x : Upe) : (s.setUpe r d x).loadHeld = s.loadHeld := rfl
@[simp] theorem State.setUpe_quiescing (s : State) (r d : Nat) (x : Upe) : (s.setUpe r d x).quiescing = s.quiescing := rfl
@[simp] theorem State.setUpe_activating (s : State) (r d : Nat) (x : Upe) : (s.setUpe r d x).activating = s.activating := rfl
@[simp] theorem State.setUpe_bootInj (s : State) (r d : Nat) (x : Upe) : (s.setUpe r d x).bootInj = s.bootInj := rfl
@[simp] theorem State.setUpe_linkUps (s : State) (r d : Nat) (x : Upe) : (s.setUpe r d x).linkUps = s.linkUps := rfl
@[simp] theorem State.setUpe_bays (s : State) (r d : Nat) (x : Upe) : (s.setUpe r d x).bays = s.bays := rfl
@[simp] theorem State.setUpe_meter (s : State) (r d : Nat) (x : Upe) : (s.setUpe r d x).meter = s.meter := rfl
@[simp] theorem State.setUpe_mirror (s : State) (r d : Nat) (x : Upe) : (s.setUpe r d x).mirror = s.mirror := rfl
@[simp] theorem State.setUpe_cmdMode (s : State) (r d : Nat) (x : Upe) : (s.setUpe r d x).cmdMode = s.cmdMode := rfl
@[simp] theorem State.setUpe_tick (s : State) (r d : Nat) (x : Upe) : (s.setUpe r d x).tick = s.tick := rfl
@[simp] theorem State.setUpe_pending (s : State) (r d : Nat) (x : Upe) : (s.setUpe r d x).pending = s.pending := rfl

/-! `State.setPan` changes `pans` alone. -/
@[simp] theorem State.setPan_regs (s : State) (r : Nat) (x : Pannier) : (s.setPan r x).regs = s.regs := rfl
@[simp] theorem State.setPan_mem (s : State) (r : Nat) (x : Pannier) : (s.setPan r x).mem = s.mem := rfl
@[simp] theorem State.setPan_marks (s : State) (r : Nat) (x : Pannier) : (s.setPan r x).marks = s.marks := rfl
@[simp] theorem State.setPan_lines (s : State) (r : Nat) (x : Pannier) : (s.setPan r x).lines = s.lines := rfl
@[simp] theorem State.setPan_bs (s : State) (r : Nat) (x : Pannier) : (s.setPan r x).bs = s.bs := rfl
@[simp] theorem State.setPan_seams (s : State) (r : Nat) (x : Pannier) : (s.setPan r x).seams = s.seams := rfl
@[simp] theorem State.setPan_units (s : State) (r : Nat) (x : Pannier) : (s.setPan r x).units = s.units := rfl
@[simp] theorem State.setPan_retained (s : State) (r : Nat) (x : Pannier) : (s.setPan r x).retained = s.retained := rfl
@[simp] theorem State.setPan_hubs (s : State) (r : Nat) (x : Pannier) : (s.setPan r x).hubs = s.hubs := rfl
@[simp] theorem State.setPan_clusters (s : State) (r : Nat) (x : Pannier) : (s.setPan r x).clusters = s.clusters := rfl
@[simp] theorem State.setPan_upes (s : State) (r : Nat) (x : Pannier) : (s.setPan r x).upes = s.upes := rfl
@[simp] theorem State.setPan_chans (s : State) (r : Nat) (x : Pannier) : (s.setPan r x).chans = s.chans := rfl
@[simp] theorem State.setPan_ring (s : State) (r : Nat) (x : Pannier) : (s.setPan r x).ring = s.ring := rfl
@[simp] theorem State.setPan_stops (s : State) (r : Nat) (x : Pannier) : (s.setPan r x).stops = s.stops := rfl
@[simp] theorem State.setPan_waiters (s : State) (r : Nat) (x : Pannier) : (s.setPan r x).waiters = s.waiters := rfl
@[simp] theorem State.setPan_asked (s : State) (r : Nat) (x : Pannier) : (s.setPan r x).asked = s.asked := rfl
@[simp] theorem State.setPan_nextTag (s : State) (r : Nat) (x : Pannier) : (s.setPan r x).nextTag = s.nextTag := rfl
@[simp] theorem State.setPan_peers (s : State) (r : Nat) (x : Pannier) : (s.setPan r x).peers = s.peers := rfl
@[simp] theorem State.setPan_streams (s : State) (r : Nat) (x : Pannier) : (s.setPan r x).streams = s.streams := rfl
@[simp] theorem State.setPan_pages (s : State) (r : Nat) (x : Pannier) : (s.setPan r x).pages = s.pages := rfl
@[simp] theorem State.setPan_pdScale (s : State) (r : Nat) (x : Pannier) : (s.setPan r x).pdScale = s.pdScale := rfl
@[simp] theorem State.setPan_drl (s : State) (r : Nat) (x : Pannier) : (s.setPan r x).drl = s.drl := rfl
@[simp] theorem State.setPan_rebuilt (s : State) (r : Nat) (x : Pannier) : (s.setPan r x).rebuilt = s.rebuilt := rfl
@[simp] theorem State.setPan_outbox (s : State) (r : Nat) (x : Pannier) : (s.setPan r x).outbox = s.outbox := rfl
@[simp] theorem State.setPan_gate (s : State) (r : Nat) (x : Pannier) : (s.setPan r x).gate = s.gate := rfl
@[simp] theorem State.setPan_flows (s : State) (r : Nat) (x : Pannier) : (s.setPan r x).flows = s.flows := rfl
@[simp] theorem State.setPan_errq (s : State) (r : Nat) (x : Pannier) : (s.setPan r x).errq = s.errq := rfl
@[simp] theorem State.setPan_errSeq (s : State) (r : Nat) (x : Pannier) : (s.setPan r x).errSeq = s.errSeq := rfl
@[simp] theorem State.setPan_inj (s : State) (r : Nat) (x : Pannier) : (s.setPan r x).inj = s.inj := rfl
@[simp] theorem State.setPan_evbuf (s : State) (r : Nat) (x : Pannier) : (s.setPan r x).evbuf = s.evbuf := rfl
@[simp] theorem State.setPan_evSeq (s : State) (r : Nat) (x : Pannier) : (s.setPan r x).evSeq = s.evSeq := rfl
@[simp] theorem State.setPan_evOut (s : State) (r : Nat) (x : Pannier) : (s.setPan r x).evOut = s.evOut := rfl
@[simp] theorem State.setPan_evPre (s : State) (r : Nat) (x : Pannier) : (s.setPan r x).evPre = s.evPre := rfl
@[simp] theorem State.setPan_evLost (s : State) (r : Nat) (x : Pannier) : (s.setPan r x).evLost = s.evLost := rfl
@[simp] theorem State.setPan_plants (s : State) (r : Nat) (x : Pannier) : (s.setPan r x).plants = s.plants := rfl
@[simp] theorem State.setPan_parkOrder (s : State) (r : Nat) (x : Pannier) : (s.setPan r x).parkOrder = s.parkOrder := rfl
@[simp] theorem State.setPan_inputStop (s : State) (r : Nat) (x : Pannier) : (s.setPan r x).inputStop = s.inputStop := rfl
@[simp] theorem State.setPan_inputMv (s : State) (r : Nat) (x : Pannier) : (s.setPan r x).inputMv = s.inputMv := rfl
@[simp] theorem State.setPan_inputRev (s : State) (r : Nat) (x : Pannier) : (s.setPan r x).inputRev = s.inputRev := rfl
@[simp] theorem State.setPan_shorted (s : State) (r : Nat) (x : Pannier) : (s.setPan r x).shorted = s.shorted := rfl
@[simp] theorem State.setPan_convDead (s : State) (r : Nat) (x : Pannier) : (s.setPan r x).convDead = s.convDead := rfl
@[simp] theorem State.setPan_scrubDevs (s : State) (r : Nat) (x : Pannier) : (s.setPan r x).scrubDevs = s.scrubDevs := rfl
@[simp] theorem State.setPan_found (s : State) (r : Nat) (x : Pannier) : (s.setPan r x).found = s.found := rfl
@[simp] theorem State.setPan_unzeroed (s : State) (r : Nat) (x : Pannier) : (s.setPan r x).unzeroed = s.unzeroed := rfl
@[simp] theorem State.setPan_stkKeys (s : State) (r : Nat) (x : Pannier) : (s.setPan r x).stkKeys = s.stkKeys := rfl
@[simp] theorem State.setPan_pdOff (s : State) (r : Nat) (x : Pannier) : (s.setPan r x).pdOff = s.pdOff := rfl
@[simp] theorem State.setPan_refreshing (s : State) (r : Nat) (x : Pannier) : (s.setPan r x).refreshing = s.refreshing := rfl
@[simp] theorem State.setPan_seamsDue (s : State) (r : Nat) (x : Pannier) : (s.setPan r x).seamsDue = s.seamsDue := rfl
@[simp] theorem State.setPan_chains (s : State) (r : Nat) (x : Pannier) : (s.setPan r x).chains = s.chains := rfl
@[simp] theorem State.setPan_snaps (s : State) (r : Nat) (x : Pannier) : (s.setPan r x).snaps = s.snaps := rfl
@[simp] theorem State.setPan_rsImage (s : State) (r : Nat) (x : Pannier) : (s.setPan r x).rsImage = s.rsImage := rfl
@[simp] theorem State.setPan_ckptKey (s : State) (r : Nat) (x : Pannier) : (s.setPan r x).ckptKey = s.ckptKey := rfl
@[simp] theorem State.setPan_ckptNew (s : State) (r : Nat) (x : Pannier) : (s.setPan r x).ckptNew = s.ckptNew := rfl
@[simp] theorem State.setPan_ckptOld (s : State) (r : Nat) (x : Pannier) : (s.setPan r x).ckptOld = s.ckptOld := rfl
@[simp] theorem State.setPan_macsec (s : State) (r : Nat) (x : Pannier) : (s.setPan r x).macsec = s.macsec := rfl
@[simp] theorem State.setPan_buffers (s : State) (r : Nat) (x : Pannier) : (s.setPan r x).buffers = s.buffers := rfl
@[simp] theorem State.setPan_xoffs (s : State) (r : Nat) (x : Pannier) : (s.setPan r x).xoffs = s.xoffs := rfl
@[simp] theorem State.setPan_paused (s : State) (r : Nat) (x : Pannier) : (s.setPan r x).paused = s.paused := rfl
@[simp] theorem State.setPan_txWait (s : State) (r : Nat) (x : Pannier) : (s.setPan r x).txWait = s.txWait := rfl
@[simp] theorem State.setPan_vendorHash (s : State) (r : Nat) (x : Pannier) : (s.setPan r x).vendorHash = s.vendorHash := rfl
@[simp] theorem State.setPan_serial (s : State) (r : Nat) (x : Pannier) : (s.setPan r x).serial = s.serial := rfl
@[simp] theorem State.setPan_idCert (s : State) (r : Nat) (x : Pannier) : (s.setPan r x).idCert = s.idCert := rfl
@[simp] theorem State.setPan_owners (s : State) (r : Nat) (x : Pannier) : (s.setPan r x).owners = s.owners := rfl
@[simp] theorem State.setPan_flash (s : State) (r : Nat) (x : Pannier) : (s.setPan r x).flash = s.flash := rfl
@[simp] theorem State.setPan_prov (s : State) (r : Nat) (x : Pannier) : (s.setPan r x).prov = s.prov := rfl
@[simp] theorem State.setPan_meas (s : State) (r : Nat) (x : Pannier) : (s.setPan r x).meas = s.meas := rfl
@[simp] theorem State.setPan_rootLost (s : State) (r : Nat) (x : Pannier) : (s.setPan r x).rootLost = s.rootLost := rfl
@[simp] theorem State.setPan_kt (s : State) (r : Nat) (x : Pannier) : (s.setPan r x).kt = s.kt := rfl
@[simp] theorem State.setPan_cmdBuf (s : State) (r : Nat) (x : Pannier) : (s.setPan r x).cmdBuf = s.cmdBuf := rfl
@[simp] theorem State.setPan_quote (s : State) (r : Nat) (x : Pannier) : (s.setPan r x).quote = s.quote := rfl
@[simp] theorem State.setPan_ktCert (s : State) (r : Nat) (x : Pannier) : (s.setPan r x).ktCert = s.ktCert := rfl
@[simp] theorem State.setPan_loadHeld (s : State) (r : Nat) (x : Pannier) : (s.setPan r x).loadHeld = s.loadHeld := rfl
@[simp] theorem State.setPan_quiescing (s : State) (r : Nat) (x : Pannier) : (s.setPan r x).quiescing = s.quiescing := rfl
@[simp] theorem State.setPan_activating (s : State) (r : Nat) (x : Pannier) : (s.setPan r x).activating = s.activating := rfl
@[simp] theorem State.setPan_bootInj (s : State) (r : Nat) (x : Pannier) : (s.setPan r x).bootInj = s.bootInj := rfl
@[simp] theorem State.setPan_linkUps (s : State) (r : Nat) (x : Pannier) : (s.setPan r x).linkUps = s.linkUps := rfl
@[simp] theorem State.setPan_bays (s : State) (r : Nat) (x : Pannier) : (s.setPan r x).bays = s.bays := rfl
@[simp] theorem State.setPan_meter (s : State) (r : Nat) (x : Pannier) : (s.setPan r x).meter = s.meter := rfl
@[simp] theorem State.setPan_mirror (s : State) (r : Nat) (x : Pannier) : (s.setPan r x).mirror = s.mirror := rfl
@[simp] theorem State.setPan_cmdMode (s : State) (r : Nat) (x : Pannier) : (s.setPan r x).cmdMode = s.cmdMode := rfl
@[simp] theorem State.setPan_tick (s : State) (r : Nat) (x : Pannier) : (s.setPan r x).tick = s.tick := rfl
@[simp] theorem State.setPan_pending (s : State) (r : Nat) (x : Pannier) : (s.setPan r x).pending = s.pending := rfl

/-! `State.setChan` changes `chans` alone. -/
@[simp] theorem State.setChan_regs (s : State) (r c : Nat) (x : Chan) : (s.setChan r c x).regs = s.regs := rfl
@[simp] theorem State.setChan_mem (s : State) (r c : Nat) (x : Chan) : (s.setChan r c x).mem = s.mem := rfl
@[simp] theorem State.setChan_marks (s : State) (r c : Nat) (x : Chan) : (s.setChan r c x).marks = s.marks := rfl
@[simp] theorem State.setChan_lines (s : State) (r c : Nat) (x : Chan) : (s.setChan r c x).lines = s.lines := rfl
@[simp] theorem State.setChan_bs (s : State) (r c : Nat) (x : Chan) : (s.setChan r c x).bs = s.bs := rfl
@[simp] theorem State.setChan_seams (s : State) (r c : Nat) (x : Chan) : (s.setChan r c x).seams = s.seams := rfl
@[simp] theorem State.setChan_units (s : State) (r c : Nat) (x : Chan) : (s.setChan r c x).units = s.units := rfl
@[simp] theorem State.setChan_retained (s : State) (r c : Nat) (x : Chan) : (s.setChan r c x).retained = s.retained := rfl
@[simp] theorem State.setChan_hubs (s : State) (r c : Nat) (x : Chan) : (s.setChan r c x).hubs = s.hubs := rfl
@[simp] theorem State.setChan_clusters (s : State) (r c : Nat) (x : Chan) : (s.setChan r c x).clusters = s.clusters := rfl
@[simp] theorem State.setChan_upes (s : State) (r c : Nat) (x : Chan) : (s.setChan r c x).upes = s.upes := rfl
@[simp] theorem State.setChan_pans (s : State) (r c : Nat) (x : Chan) : (s.setChan r c x).pans = s.pans := rfl
@[simp] theorem State.setChan_ring (s : State) (r c : Nat) (x : Chan) : (s.setChan r c x).ring = s.ring := rfl
@[simp] theorem State.setChan_stops (s : State) (r c : Nat) (x : Chan) : (s.setChan r c x).stops = s.stops := rfl
@[simp] theorem State.setChan_waiters (s : State) (r c : Nat) (x : Chan) : (s.setChan r c x).waiters = s.waiters := rfl
@[simp] theorem State.setChan_asked (s : State) (r c : Nat) (x : Chan) : (s.setChan r c x).asked = s.asked := rfl
@[simp] theorem State.setChan_nextTag (s : State) (r c : Nat) (x : Chan) : (s.setChan r c x).nextTag = s.nextTag := rfl
@[simp] theorem State.setChan_peers (s : State) (r c : Nat) (x : Chan) : (s.setChan r c x).peers = s.peers := rfl
@[simp] theorem State.setChan_streams (s : State) (r c : Nat) (x : Chan) : (s.setChan r c x).streams = s.streams := rfl
@[simp] theorem State.setChan_pages (s : State) (r c : Nat) (x : Chan) : (s.setChan r c x).pages = s.pages := rfl
@[simp] theorem State.setChan_pdScale (s : State) (r c : Nat) (x : Chan) : (s.setChan r c x).pdScale = s.pdScale := rfl
@[simp] theorem State.setChan_drl (s : State) (r c : Nat) (x : Chan) : (s.setChan r c x).drl = s.drl := rfl
@[simp] theorem State.setChan_rebuilt (s : State) (r c : Nat) (x : Chan) : (s.setChan r c x).rebuilt = s.rebuilt := rfl
@[simp] theorem State.setChan_outbox (s : State) (r c : Nat) (x : Chan) : (s.setChan r c x).outbox = s.outbox := rfl
@[simp] theorem State.setChan_gate (s : State) (r c : Nat) (x : Chan) : (s.setChan r c x).gate = s.gate := rfl
@[simp] theorem State.setChan_flows (s : State) (r c : Nat) (x : Chan) : (s.setChan r c x).flows = s.flows := rfl
@[simp] theorem State.setChan_errq (s : State) (r c : Nat) (x : Chan) : (s.setChan r c x).errq = s.errq := rfl
@[simp] theorem State.setChan_errSeq (s : State) (r c : Nat) (x : Chan) : (s.setChan r c x).errSeq = s.errSeq := rfl
@[simp] theorem State.setChan_inj (s : State) (r c : Nat) (x : Chan) : (s.setChan r c x).inj = s.inj := rfl
@[simp] theorem State.setChan_evbuf (s : State) (r c : Nat) (x : Chan) : (s.setChan r c x).evbuf = s.evbuf := rfl
@[simp] theorem State.setChan_evSeq (s : State) (r c : Nat) (x : Chan) : (s.setChan r c x).evSeq = s.evSeq := rfl
@[simp] theorem State.setChan_evOut (s : State) (r c : Nat) (x : Chan) : (s.setChan r c x).evOut = s.evOut := rfl
@[simp] theorem State.setChan_evPre (s : State) (r c : Nat) (x : Chan) : (s.setChan r c x).evPre = s.evPre := rfl
@[simp] theorem State.setChan_evLost (s : State) (r c : Nat) (x : Chan) : (s.setChan r c x).evLost = s.evLost := rfl
@[simp] theorem State.setChan_plants (s : State) (r c : Nat) (x : Chan) : (s.setChan r c x).plants = s.plants := rfl
@[simp] theorem State.setChan_parkOrder (s : State) (r c : Nat) (x : Chan) : (s.setChan r c x).parkOrder = s.parkOrder := rfl
@[simp] theorem State.setChan_inputStop (s : State) (r c : Nat) (x : Chan) : (s.setChan r c x).inputStop = s.inputStop := rfl
@[simp] theorem State.setChan_inputMv (s : State) (r c : Nat) (x : Chan) : (s.setChan r c x).inputMv = s.inputMv := rfl
@[simp] theorem State.setChan_inputRev (s : State) (r c : Nat) (x : Chan) : (s.setChan r c x).inputRev = s.inputRev := rfl
@[simp] theorem State.setChan_shorted (s : State) (r c : Nat) (x : Chan) : (s.setChan r c x).shorted = s.shorted := rfl
@[simp] theorem State.setChan_convDead (s : State) (r c : Nat) (x : Chan) : (s.setChan r c x).convDead = s.convDead := rfl
@[simp] theorem State.setChan_scrubDevs (s : State) (r c : Nat) (x : Chan) : (s.setChan r c x).scrubDevs = s.scrubDevs := rfl
@[simp] theorem State.setChan_found (s : State) (r c : Nat) (x : Chan) : (s.setChan r c x).found = s.found := rfl
@[simp] theorem State.setChan_unzeroed (s : State) (r c : Nat) (x : Chan) : (s.setChan r c x).unzeroed = s.unzeroed := rfl
@[simp] theorem State.setChan_stkKeys (s : State) (r c : Nat) (x : Chan) : (s.setChan r c x).stkKeys = s.stkKeys := rfl
@[simp] theorem State.setChan_pdOff (s : State) (r c : Nat) (x : Chan) : (s.setChan r c x).pdOff = s.pdOff := rfl
@[simp] theorem State.setChan_refreshing (s : State) (r c : Nat) (x : Chan) : (s.setChan r c x).refreshing = s.refreshing := rfl
@[simp] theorem State.setChan_seamsDue (s : State) (r c : Nat) (x : Chan) : (s.setChan r c x).seamsDue = s.seamsDue := rfl
@[simp] theorem State.setChan_chains (s : State) (r c : Nat) (x : Chan) : (s.setChan r c x).chains = s.chains := rfl
@[simp] theorem State.setChan_snaps (s : State) (r c : Nat) (x : Chan) : (s.setChan r c x).snaps = s.snaps := rfl
@[simp] theorem State.setChan_rsImage (s : State) (r c : Nat) (x : Chan) : (s.setChan r c x).rsImage = s.rsImage := rfl
@[simp] theorem State.setChan_ckptKey (s : State) (r c : Nat) (x : Chan) : (s.setChan r c x).ckptKey = s.ckptKey := rfl
@[simp] theorem State.setChan_ckptNew (s : State) (r c : Nat) (x : Chan) : (s.setChan r c x).ckptNew = s.ckptNew := rfl
@[simp] theorem State.setChan_ckptOld (s : State) (r c : Nat) (x : Chan) : (s.setChan r c x).ckptOld = s.ckptOld := rfl
@[simp] theorem State.setChan_macsec (s : State) (r c : Nat) (x : Chan) : (s.setChan r c x).macsec = s.macsec := rfl
@[simp] theorem State.setChan_buffers (s : State) (r c : Nat) (x : Chan) : (s.setChan r c x).buffers = s.buffers := rfl
@[simp] theorem State.setChan_xoffs (s : State) (r c : Nat) (x : Chan) : (s.setChan r c x).xoffs = s.xoffs := rfl
@[simp] theorem State.setChan_paused (s : State) (r c : Nat) (x : Chan) : (s.setChan r c x).paused = s.paused := rfl
@[simp] theorem State.setChan_txWait (s : State) (r c : Nat) (x : Chan) : (s.setChan r c x).txWait = s.txWait := rfl
@[simp] theorem State.setChan_vendorHash (s : State) (r c : Nat) (x : Chan) : (s.setChan r c x).vendorHash = s.vendorHash := rfl
@[simp] theorem State.setChan_serial (s : State) (r c : Nat) (x : Chan) : (s.setChan r c x).serial = s.serial := rfl
@[simp] theorem State.setChan_idCert (s : State) (r c : Nat) (x : Chan) : (s.setChan r c x).idCert = s.idCert := rfl
@[simp] theorem State.setChan_owners (s : State) (r c : Nat) (x : Chan) : (s.setChan r c x).owners = s.owners := rfl
@[simp] theorem State.setChan_flash (s : State) (r c : Nat) (x : Chan) : (s.setChan r c x).flash = s.flash := rfl
@[simp] theorem State.setChan_prov (s : State) (r c : Nat) (x : Chan) : (s.setChan r c x).prov = s.prov := rfl
@[simp] theorem State.setChan_meas (s : State) (r c : Nat) (x : Chan) : (s.setChan r c x).meas = s.meas := rfl
@[simp] theorem State.setChan_rootLost (s : State) (r c : Nat) (x : Chan) : (s.setChan r c x).rootLost = s.rootLost := rfl
@[simp] theorem State.setChan_kt (s : State) (r c : Nat) (x : Chan) : (s.setChan r c x).kt = s.kt := rfl
@[simp] theorem State.setChan_cmdBuf (s : State) (r c : Nat) (x : Chan) : (s.setChan r c x).cmdBuf = s.cmdBuf := rfl
@[simp] theorem State.setChan_quote (s : State) (r c : Nat) (x : Chan) : (s.setChan r c x).quote = s.quote := rfl
@[simp] theorem State.setChan_ktCert (s : State) (r c : Nat) (x : Chan) : (s.setChan r c x).ktCert = s.ktCert := rfl
@[simp] theorem State.setChan_loadHeld (s : State) (r c : Nat) (x : Chan) : (s.setChan r c x).loadHeld = s.loadHeld := rfl
@[simp] theorem State.setChan_quiescing (s : State) (r c : Nat) (x : Chan) : (s.setChan r c x).quiescing = s.quiescing := rfl
@[simp] theorem State.setChan_activating (s : State) (r c : Nat) (x : Chan) : (s.setChan r c x).activating = s.activating := rfl
@[simp] theorem State.setChan_bootInj (s : State) (r c : Nat) (x : Chan) : (s.setChan r c x).bootInj = s.bootInj := rfl
@[simp] theorem State.setChan_linkUps (s : State) (r c : Nat) (x : Chan) : (s.setChan r c x).linkUps = s.linkUps := rfl
@[simp] theorem State.setChan_bays (s : State) (r c : Nat) (x : Chan) : (s.setChan r c x).bays = s.bays := rfl
@[simp] theorem State.setChan_meter (s : State) (r c : Nat) (x : Chan) : (s.setChan r c x).meter = s.meter := rfl
@[simp] theorem State.setChan_mirror (s : State) (r c : Nat) (x : Chan) : (s.setChan r c x).mirror = s.mirror := rfl
@[simp] theorem State.setChan_cmdMode (s : State) (r c : Nat) (x : Chan) : (s.setChan r c x).cmdMode = s.cmdMode := rfl
@[simp] theorem State.setChan_tick (s : State) (r c : Nat) (x : Chan) : (s.setChan r c x).tick = s.tick := rfl
@[simp] theorem State.setChan_pending (s : State) (r c : Nat) (x : Chan) : (s.setChan r c x).pending = s.pending := rfl

/-! `State.setStop` changes `stops` alone. -/
@[simp] theorem State.setStop_regs (s : State) (r : Nat) (x : Stop) : (s.setStop r x).regs = s.regs := rfl
@[simp] theorem State.setStop_mem (s : State) (r : Nat) (x : Stop) : (s.setStop r x).mem = s.mem := rfl
@[simp] theorem State.setStop_marks (s : State) (r : Nat) (x : Stop) : (s.setStop r x).marks = s.marks := rfl
@[simp] theorem State.setStop_lines (s : State) (r : Nat) (x : Stop) : (s.setStop r x).lines = s.lines := rfl
@[simp] theorem State.setStop_bs (s : State) (r : Nat) (x : Stop) : (s.setStop r x).bs = s.bs := rfl
@[simp] theorem State.setStop_seams (s : State) (r : Nat) (x : Stop) : (s.setStop r x).seams = s.seams := rfl
@[simp] theorem State.setStop_units (s : State) (r : Nat) (x : Stop) : (s.setStop r x).units = s.units := rfl
@[simp] theorem State.setStop_retained (s : State) (r : Nat) (x : Stop) : (s.setStop r x).retained = s.retained := rfl
@[simp] theorem State.setStop_hubs (s : State) (r : Nat) (x : Stop) : (s.setStop r x).hubs = s.hubs := rfl
@[simp] theorem State.setStop_clusters (s : State) (r : Nat) (x : Stop) : (s.setStop r x).clusters = s.clusters := rfl
@[simp] theorem State.setStop_upes (s : State) (r : Nat) (x : Stop) : (s.setStop r x).upes = s.upes := rfl
@[simp] theorem State.setStop_pans (s : State) (r : Nat) (x : Stop) : (s.setStop r x).pans = s.pans := rfl
@[simp] theorem State.setStop_chans (s : State) (r : Nat) (x : Stop) : (s.setStop r x).chans = s.chans := rfl
@[simp] theorem State.setStop_ring (s : State) (r : Nat) (x : Stop) : (s.setStop r x).ring = s.ring := rfl
@[simp] theorem State.setStop_waiters (s : State) (r : Nat) (x : Stop) : (s.setStop r x).waiters = s.waiters := rfl
@[simp] theorem State.setStop_asked (s : State) (r : Nat) (x : Stop) : (s.setStop r x).asked = s.asked := rfl
@[simp] theorem State.setStop_nextTag (s : State) (r : Nat) (x : Stop) : (s.setStop r x).nextTag = s.nextTag := rfl
@[simp] theorem State.setStop_peers (s : State) (r : Nat) (x : Stop) : (s.setStop r x).peers = s.peers := rfl
@[simp] theorem State.setStop_streams (s : State) (r : Nat) (x : Stop) : (s.setStop r x).streams = s.streams := rfl
@[simp] theorem State.setStop_pages (s : State) (r : Nat) (x : Stop) : (s.setStop r x).pages = s.pages := rfl
@[simp] theorem State.setStop_pdScale (s : State) (r : Nat) (x : Stop) : (s.setStop r x).pdScale = s.pdScale := rfl
@[simp] theorem State.setStop_drl (s : State) (r : Nat) (x : Stop) : (s.setStop r x).drl = s.drl := rfl
@[simp] theorem State.setStop_rebuilt (s : State) (r : Nat) (x : Stop) : (s.setStop r x).rebuilt = s.rebuilt := rfl
@[simp] theorem State.setStop_outbox (s : State) (r : Nat) (x : Stop) : (s.setStop r x).outbox = s.outbox := rfl
@[simp] theorem State.setStop_gate (s : State) (r : Nat) (x : Stop) : (s.setStop r x).gate = s.gate := rfl
@[simp] theorem State.setStop_flows (s : State) (r : Nat) (x : Stop) : (s.setStop r x).flows = s.flows := rfl
@[simp] theorem State.setStop_errq (s : State) (r : Nat) (x : Stop) : (s.setStop r x).errq = s.errq := rfl
@[simp] theorem State.setStop_errSeq (s : State) (r : Nat) (x : Stop) : (s.setStop r x).errSeq = s.errSeq := rfl
@[simp] theorem State.setStop_inj (s : State) (r : Nat) (x : Stop) : (s.setStop r x).inj = s.inj := rfl
@[simp] theorem State.setStop_evbuf (s : State) (r : Nat) (x : Stop) : (s.setStop r x).evbuf = s.evbuf := rfl
@[simp] theorem State.setStop_evSeq (s : State) (r : Nat) (x : Stop) : (s.setStop r x).evSeq = s.evSeq := rfl
@[simp] theorem State.setStop_evOut (s : State) (r : Nat) (x : Stop) : (s.setStop r x).evOut = s.evOut := rfl
@[simp] theorem State.setStop_evPre (s : State) (r : Nat) (x : Stop) : (s.setStop r x).evPre = s.evPre := rfl
@[simp] theorem State.setStop_evLost (s : State) (r : Nat) (x : Stop) : (s.setStop r x).evLost = s.evLost := rfl
@[simp] theorem State.setStop_plants (s : State) (r : Nat) (x : Stop) : (s.setStop r x).plants = s.plants := rfl
@[simp] theorem State.setStop_parkOrder (s : State) (r : Nat) (x : Stop) : (s.setStop r x).parkOrder = s.parkOrder := rfl
@[simp] theorem State.setStop_inputStop (s : State) (r : Nat) (x : Stop) : (s.setStop r x).inputStop = s.inputStop := rfl
@[simp] theorem State.setStop_inputMv (s : State) (r : Nat) (x : Stop) : (s.setStop r x).inputMv = s.inputMv := rfl
@[simp] theorem State.setStop_inputRev (s : State) (r : Nat) (x : Stop) : (s.setStop r x).inputRev = s.inputRev := rfl
@[simp] theorem State.setStop_shorted (s : State) (r : Nat) (x : Stop) : (s.setStop r x).shorted = s.shorted := rfl
@[simp] theorem State.setStop_convDead (s : State) (r : Nat) (x : Stop) : (s.setStop r x).convDead = s.convDead := rfl
@[simp] theorem State.setStop_scrubDevs (s : State) (r : Nat) (x : Stop) : (s.setStop r x).scrubDevs = s.scrubDevs := rfl
@[simp] theorem State.setStop_found (s : State) (r : Nat) (x : Stop) : (s.setStop r x).found = s.found := rfl
@[simp] theorem State.setStop_unzeroed (s : State) (r : Nat) (x : Stop) : (s.setStop r x).unzeroed = s.unzeroed := rfl
@[simp] theorem State.setStop_stkKeys (s : State) (r : Nat) (x : Stop) : (s.setStop r x).stkKeys = s.stkKeys := rfl
@[simp] theorem State.setStop_pdOff (s : State) (r : Nat) (x : Stop) : (s.setStop r x).pdOff = s.pdOff := rfl
@[simp] theorem State.setStop_refreshing (s : State) (r : Nat) (x : Stop) : (s.setStop r x).refreshing = s.refreshing := rfl
@[simp] theorem State.setStop_seamsDue (s : State) (r : Nat) (x : Stop) : (s.setStop r x).seamsDue = s.seamsDue := rfl
@[simp] theorem State.setStop_chains (s : State) (r : Nat) (x : Stop) : (s.setStop r x).chains = s.chains := rfl
@[simp] theorem State.setStop_snaps (s : State) (r : Nat) (x : Stop) : (s.setStop r x).snaps = s.snaps := rfl
@[simp] theorem State.setStop_rsImage (s : State) (r : Nat) (x : Stop) : (s.setStop r x).rsImage = s.rsImage := rfl
@[simp] theorem State.setStop_ckptKey (s : State) (r : Nat) (x : Stop) : (s.setStop r x).ckptKey = s.ckptKey := rfl
@[simp] theorem State.setStop_ckptNew (s : State) (r : Nat) (x : Stop) : (s.setStop r x).ckptNew = s.ckptNew := rfl
@[simp] theorem State.setStop_ckptOld (s : State) (r : Nat) (x : Stop) : (s.setStop r x).ckptOld = s.ckptOld := rfl
@[simp] theorem State.setStop_macsec (s : State) (r : Nat) (x : Stop) : (s.setStop r x).macsec = s.macsec := rfl
@[simp] theorem State.setStop_buffers (s : State) (r : Nat) (x : Stop) : (s.setStop r x).buffers = s.buffers := rfl
@[simp] theorem State.setStop_xoffs (s : State) (r : Nat) (x : Stop) : (s.setStop r x).xoffs = s.xoffs := rfl
@[simp] theorem State.setStop_paused (s : State) (r : Nat) (x : Stop) : (s.setStop r x).paused = s.paused := rfl
@[simp] theorem State.setStop_txWait (s : State) (r : Nat) (x : Stop) : (s.setStop r x).txWait = s.txWait := rfl
@[simp] theorem State.setStop_vendorHash (s : State) (r : Nat) (x : Stop) : (s.setStop r x).vendorHash = s.vendorHash := rfl
@[simp] theorem State.setStop_serial (s : State) (r : Nat) (x : Stop) : (s.setStop r x).serial = s.serial := rfl
@[simp] theorem State.setStop_idCert (s : State) (r : Nat) (x : Stop) : (s.setStop r x).idCert = s.idCert := rfl
@[simp] theorem State.setStop_owners (s : State) (r : Nat) (x : Stop) : (s.setStop r x).owners = s.owners := rfl
@[simp] theorem State.setStop_flash (s : State) (r : Nat) (x : Stop) : (s.setStop r x).flash = s.flash := rfl
@[simp] theorem State.setStop_prov (s : State) (r : Nat) (x : Stop) : (s.setStop r x).prov = s.prov := rfl
@[simp] theorem State.setStop_meas (s : State) (r : Nat) (x : Stop) : (s.setStop r x).meas = s.meas := rfl
@[simp] theorem State.setStop_rootLost (s : State) (r : Nat) (x : Stop) : (s.setStop r x).rootLost = s.rootLost := rfl
@[simp] theorem State.setStop_kt (s : State) (r : Nat) (x : Stop) : (s.setStop r x).kt = s.kt := rfl
@[simp] theorem State.setStop_cmdBuf (s : State) (r : Nat) (x : Stop) : (s.setStop r x).cmdBuf = s.cmdBuf := rfl
@[simp] theorem State.setStop_quote (s : State) (r : Nat) (x : Stop) : (s.setStop r x).quote = s.quote := rfl
@[simp] theorem State.setStop_ktCert (s : State) (r : Nat) (x : Stop) : (s.setStop r x).ktCert = s.ktCert := rfl
@[simp] theorem State.setStop_loadHeld (s : State) (r : Nat) (x : Stop) : (s.setStop r x).loadHeld = s.loadHeld := rfl
@[simp] theorem State.setStop_quiescing (s : State) (r : Nat) (x : Stop) : (s.setStop r x).quiescing = s.quiescing := rfl
@[simp] theorem State.setStop_activating (s : State) (r : Nat) (x : Stop) : (s.setStop r x).activating = s.activating := rfl
@[simp] theorem State.setStop_bootInj (s : State) (r : Nat) (x : Stop) : (s.setStop r x).bootInj = s.bootInj := rfl
@[simp] theorem State.setStop_linkUps (s : State) (r : Nat) (x : Stop) : (s.setStop r x).linkUps = s.linkUps := rfl
@[simp] theorem State.setStop_bays (s : State) (r : Nat) (x : Stop) : (s.setStop r x).bays = s.bays := rfl
@[simp] theorem State.setStop_meter (s : State) (r : Nat) (x : Stop) : (s.setStop r x).meter = s.meter := rfl
@[simp] theorem State.setStop_mirror (s : State) (r : Nat) (x : Stop) : (s.setStop r x).mirror = s.mirror := rfl
@[simp] theorem State.setStop_cmdMode (s : State) (r : Nat) (x : Stop) : (s.setStop r x).cmdMode = s.cmdMode := rfl
@[simp] theorem State.setStop_tick (s : State) (r : Nat) (x : Stop) : (s.setStop r x).tick = s.tick := rfl
@[simp] theorem State.setStop_pending (s : State) (r : Nat) (x : Stop) : (s.setStop r x).pending = s.pending := rfl

/-! `State.setFlow` changes `flows` alone. -/
@[simp] theorem State.setFlow_regs (s : State) (r : Nat) (x : Flow) : (s.setFlow r x).regs = s.regs := rfl
@[simp] theorem State.setFlow_mem (s : State) (r : Nat) (x : Flow) : (s.setFlow r x).mem = s.mem := rfl
@[simp] theorem State.setFlow_marks (s : State) (r : Nat) (x : Flow) : (s.setFlow r x).marks = s.marks := rfl
@[simp] theorem State.setFlow_lines (s : State) (r : Nat) (x : Flow) : (s.setFlow r x).lines = s.lines := rfl
@[simp] theorem State.setFlow_bs (s : State) (r : Nat) (x : Flow) : (s.setFlow r x).bs = s.bs := rfl
@[simp] theorem State.setFlow_seams (s : State) (r : Nat) (x : Flow) : (s.setFlow r x).seams = s.seams := rfl
@[simp] theorem State.setFlow_units (s : State) (r : Nat) (x : Flow) : (s.setFlow r x).units = s.units := rfl
@[simp] theorem State.setFlow_retained (s : State) (r : Nat) (x : Flow) : (s.setFlow r x).retained = s.retained := rfl
@[simp] theorem State.setFlow_hubs (s : State) (r : Nat) (x : Flow) : (s.setFlow r x).hubs = s.hubs := rfl
@[simp] theorem State.setFlow_clusters (s : State) (r : Nat) (x : Flow) : (s.setFlow r x).clusters = s.clusters := rfl
@[simp] theorem State.setFlow_upes (s : State) (r : Nat) (x : Flow) : (s.setFlow r x).upes = s.upes := rfl
@[simp] theorem State.setFlow_pans (s : State) (r : Nat) (x : Flow) : (s.setFlow r x).pans = s.pans := rfl
@[simp] theorem State.setFlow_chans (s : State) (r : Nat) (x : Flow) : (s.setFlow r x).chans = s.chans := rfl
@[simp] theorem State.setFlow_ring (s : State) (r : Nat) (x : Flow) : (s.setFlow r x).ring = s.ring := rfl
@[simp] theorem State.setFlow_stops (s : State) (r : Nat) (x : Flow) : (s.setFlow r x).stops = s.stops := rfl
@[simp] theorem State.setFlow_waiters (s : State) (r : Nat) (x : Flow) : (s.setFlow r x).waiters = s.waiters := rfl
@[simp] theorem State.setFlow_asked (s : State) (r : Nat) (x : Flow) : (s.setFlow r x).asked = s.asked := rfl
@[simp] theorem State.setFlow_nextTag (s : State) (r : Nat) (x : Flow) : (s.setFlow r x).nextTag = s.nextTag := rfl
@[simp] theorem State.setFlow_peers (s : State) (r : Nat) (x : Flow) : (s.setFlow r x).peers = s.peers := rfl
@[simp] theorem State.setFlow_streams (s : State) (r : Nat) (x : Flow) : (s.setFlow r x).streams = s.streams := rfl
@[simp] theorem State.setFlow_pages (s : State) (r : Nat) (x : Flow) : (s.setFlow r x).pages = s.pages := rfl
@[simp] theorem State.setFlow_pdScale (s : State) (r : Nat) (x : Flow) : (s.setFlow r x).pdScale = s.pdScale := rfl
@[simp] theorem State.setFlow_drl (s : State) (r : Nat) (x : Flow) : (s.setFlow r x).drl = s.drl := rfl
@[simp] theorem State.setFlow_rebuilt (s : State) (r : Nat) (x : Flow) : (s.setFlow r x).rebuilt = s.rebuilt := rfl
@[simp] theorem State.setFlow_outbox (s : State) (r : Nat) (x : Flow) : (s.setFlow r x).outbox = s.outbox := rfl
@[simp] theorem State.setFlow_gate (s : State) (r : Nat) (x : Flow) : (s.setFlow r x).gate = s.gate := rfl
@[simp] theorem State.setFlow_errq (s : State) (r : Nat) (x : Flow) : (s.setFlow r x).errq = s.errq := rfl
@[simp] theorem State.setFlow_errSeq (s : State) (r : Nat) (x : Flow) : (s.setFlow r x).errSeq = s.errSeq := rfl
@[simp] theorem State.setFlow_inj (s : State) (r : Nat) (x : Flow) : (s.setFlow r x).inj = s.inj := rfl
@[simp] theorem State.setFlow_evbuf (s : State) (r : Nat) (x : Flow) : (s.setFlow r x).evbuf = s.evbuf := rfl
@[simp] theorem State.setFlow_evSeq (s : State) (r : Nat) (x : Flow) : (s.setFlow r x).evSeq = s.evSeq := rfl
@[simp] theorem State.setFlow_evOut (s : State) (r : Nat) (x : Flow) : (s.setFlow r x).evOut = s.evOut := rfl
@[simp] theorem State.setFlow_evPre (s : State) (r : Nat) (x : Flow) : (s.setFlow r x).evPre = s.evPre := rfl
@[simp] theorem State.setFlow_evLost (s : State) (r : Nat) (x : Flow) : (s.setFlow r x).evLost = s.evLost := rfl
@[simp] theorem State.setFlow_plants (s : State) (r : Nat) (x : Flow) : (s.setFlow r x).plants = s.plants := rfl
@[simp] theorem State.setFlow_parkOrder (s : State) (r : Nat) (x : Flow) : (s.setFlow r x).parkOrder = s.parkOrder := rfl
@[simp] theorem State.setFlow_inputStop (s : State) (r : Nat) (x : Flow) : (s.setFlow r x).inputStop = s.inputStop := rfl
@[simp] theorem State.setFlow_inputMv (s : State) (r : Nat) (x : Flow) : (s.setFlow r x).inputMv = s.inputMv := rfl
@[simp] theorem State.setFlow_inputRev (s : State) (r : Nat) (x : Flow) : (s.setFlow r x).inputRev = s.inputRev := rfl
@[simp] theorem State.setFlow_shorted (s : State) (r : Nat) (x : Flow) : (s.setFlow r x).shorted = s.shorted := rfl
@[simp] theorem State.setFlow_convDead (s : State) (r : Nat) (x : Flow) : (s.setFlow r x).convDead = s.convDead := rfl
@[simp] theorem State.setFlow_scrubDevs (s : State) (r : Nat) (x : Flow) : (s.setFlow r x).scrubDevs = s.scrubDevs := rfl
@[simp] theorem State.setFlow_found (s : State) (r : Nat) (x : Flow) : (s.setFlow r x).found = s.found := rfl
@[simp] theorem State.setFlow_unzeroed (s : State) (r : Nat) (x : Flow) : (s.setFlow r x).unzeroed = s.unzeroed := rfl
@[simp] theorem State.setFlow_stkKeys (s : State) (r : Nat) (x : Flow) : (s.setFlow r x).stkKeys = s.stkKeys := rfl
@[simp] theorem State.setFlow_pdOff (s : State) (r : Nat) (x : Flow) : (s.setFlow r x).pdOff = s.pdOff := rfl
@[simp] theorem State.setFlow_refreshing (s : State) (r : Nat) (x : Flow) : (s.setFlow r x).refreshing = s.refreshing := rfl
@[simp] theorem State.setFlow_seamsDue (s : State) (r : Nat) (x : Flow) : (s.setFlow r x).seamsDue = s.seamsDue := rfl
@[simp] theorem State.setFlow_chains (s : State) (r : Nat) (x : Flow) : (s.setFlow r x).chains = s.chains := rfl
@[simp] theorem State.setFlow_snaps (s : State) (r : Nat) (x : Flow) : (s.setFlow r x).snaps = s.snaps := rfl
@[simp] theorem State.setFlow_rsImage (s : State) (r : Nat) (x : Flow) : (s.setFlow r x).rsImage = s.rsImage := rfl
@[simp] theorem State.setFlow_ckptKey (s : State) (r : Nat) (x : Flow) : (s.setFlow r x).ckptKey = s.ckptKey := rfl
@[simp] theorem State.setFlow_ckptNew (s : State) (r : Nat) (x : Flow) : (s.setFlow r x).ckptNew = s.ckptNew := rfl
@[simp] theorem State.setFlow_ckptOld (s : State) (r : Nat) (x : Flow) : (s.setFlow r x).ckptOld = s.ckptOld := rfl
@[simp] theorem State.setFlow_macsec (s : State) (r : Nat) (x : Flow) : (s.setFlow r x).macsec = s.macsec := rfl
@[simp] theorem State.setFlow_buffers (s : State) (r : Nat) (x : Flow) : (s.setFlow r x).buffers = s.buffers := rfl
@[simp] theorem State.setFlow_xoffs (s : State) (r : Nat) (x : Flow) : (s.setFlow r x).xoffs = s.xoffs := rfl
@[simp] theorem State.setFlow_paused (s : State) (r : Nat) (x : Flow) : (s.setFlow r x).paused = s.paused := rfl
@[simp] theorem State.setFlow_txWait (s : State) (r : Nat) (x : Flow) : (s.setFlow r x).txWait = s.txWait := rfl
@[simp] theorem State.setFlow_vendorHash (s : State) (r : Nat) (x : Flow) : (s.setFlow r x).vendorHash = s.vendorHash := rfl
@[simp] theorem State.setFlow_serial (s : State) (r : Nat) (x : Flow) : (s.setFlow r x).serial = s.serial := rfl
@[simp] theorem State.setFlow_idCert (s : State) (r : Nat) (x : Flow) : (s.setFlow r x).idCert = s.idCert := rfl
@[simp] theorem State.setFlow_owners (s : State) (r : Nat) (x : Flow) : (s.setFlow r x).owners = s.owners := rfl
@[simp] theorem State.setFlow_flash (s : State) (r : Nat) (x : Flow) : (s.setFlow r x).flash = s.flash := rfl
@[simp] theorem State.setFlow_prov (s : State) (r : Nat) (x : Flow) : (s.setFlow r x).prov = s.prov := rfl
@[simp] theorem State.setFlow_meas (s : State) (r : Nat) (x : Flow) : (s.setFlow r x).meas = s.meas := rfl
@[simp] theorem State.setFlow_rootLost (s : State) (r : Nat) (x : Flow) : (s.setFlow r x).rootLost = s.rootLost := rfl
@[simp] theorem State.setFlow_kt (s : State) (r : Nat) (x : Flow) : (s.setFlow r x).kt = s.kt := rfl
@[simp] theorem State.setFlow_cmdBuf (s : State) (r : Nat) (x : Flow) : (s.setFlow r x).cmdBuf = s.cmdBuf := rfl
@[simp] theorem State.setFlow_quote (s : State) (r : Nat) (x : Flow) : (s.setFlow r x).quote = s.quote := rfl
@[simp] theorem State.setFlow_ktCert (s : State) (r : Nat) (x : Flow) : (s.setFlow r x).ktCert = s.ktCert := rfl
@[simp] theorem State.setFlow_loadHeld (s : State) (r : Nat) (x : Flow) : (s.setFlow r x).loadHeld = s.loadHeld := rfl
@[simp] theorem State.setFlow_quiescing (s : State) (r : Nat) (x : Flow) : (s.setFlow r x).quiescing = s.quiescing := rfl
@[simp] theorem State.setFlow_activating (s : State) (r : Nat) (x : Flow) : (s.setFlow r x).activating = s.activating := rfl
@[simp] theorem State.setFlow_bootInj (s : State) (r : Nat) (x : Flow) : (s.setFlow r x).bootInj = s.bootInj := rfl
@[simp] theorem State.setFlow_linkUps (s : State) (r : Nat) (x : Flow) : (s.setFlow r x).linkUps = s.linkUps := rfl
@[simp] theorem State.setFlow_bays (s : State) (r : Nat) (x : Flow) : (s.setFlow r x).bays = s.bays := rfl
@[simp] theorem State.setFlow_meter (s : State) (r : Nat) (x : Flow) : (s.setFlow r x).meter = s.meter := rfl
@[simp] theorem State.setFlow_mirror (s : State) (r : Nat) (x : Flow) : (s.setFlow r x).mirror = s.mirror := rfl
@[simp] theorem State.setFlow_cmdMode (s : State) (r : Nat) (x : Flow) : (s.setFlow r x).cmdMode = s.cmdMode := rfl
@[simp] theorem State.setFlow_tick (s : State) (r : Nat) (x : Flow) : (s.setFlow r x).tick = s.tick := rfl
@[simp] theorem State.setFlow_pending (s : State) (r : Nat) (x : Flow) : (s.setFlow r x).pending = s.pending := rfl

/-! `State.setSeam` changes `seams` alone. -/
@[simp] theorem State.setSeam_regs (s : State) (r : Nat) (x : Seam) : (s.setSeam r x).regs = s.regs := rfl
@[simp] theorem State.setSeam_mem (s : State) (r : Nat) (x : Seam) : (s.setSeam r x).mem = s.mem := rfl
@[simp] theorem State.setSeam_marks (s : State) (r : Nat) (x : Seam) : (s.setSeam r x).marks = s.marks := rfl
@[simp] theorem State.setSeam_lines (s : State) (r : Nat) (x : Seam) : (s.setSeam r x).lines = s.lines := rfl
@[simp] theorem State.setSeam_bs (s : State) (r : Nat) (x : Seam) : (s.setSeam r x).bs = s.bs := rfl
@[simp] theorem State.setSeam_units (s : State) (r : Nat) (x : Seam) : (s.setSeam r x).units = s.units := rfl
@[simp] theorem State.setSeam_retained (s : State) (r : Nat) (x : Seam) : (s.setSeam r x).retained = s.retained := rfl
@[simp] theorem State.setSeam_hubs (s : State) (r : Nat) (x : Seam) : (s.setSeam r x).hubs = s.hubs := rfl
@[simp] theorem State.setSeam_clusters (s : State) (r : Nat) (x : Seam) : (s.setSeam r x).clusters = s.clusters := rfl
@[simp] theorem State.setSeam_upes (s : State) (r : Nat) (x : Seam) : (s.setSeam r x).upes = s.upes := rfl
@[simp] theorem State.setSeam_pans (s : State) (r : Nat) (x : Seam) : (s.setSeam r x).pans = s.pans := rfl
@[simp] theorem State.setSeam_chans (s : State) (r : Nat) (x : Seam) : (s.setSeam r x).chans = s.chans := rfl
@[simp] theorem State.setSeam_ring (s : State) (r : Nat) (x : Seam) : (s.setSeam r x).ring = s.ring := rfl
@[simp] theorem State.setSeam_stops (s : State) (r : Nat) (x : Seam) : (s.setSeam r x).stops = s.stops := rfl
@[simp] theorem State.setSeam_waiters (s : State) (r : Nat) (x : Seam) : (s.setSeam r x).waiters = s.waiters := rfl
@[simp] theorem State.setSeam_asked (s : State) (r : Nat) (x : Seam) : (s.setSeam r x).asked = s.asked := rfl
@[simp] theorem State.setSeam_nextTag (s : State) (r : Nat) (x : Seam) : (s.setSeam r x).nextTag = s.nextTag := rfl
@[simp] theorem State.setSeam_peers (s : State) (r : Nat) (x : Seam) : (s.setSeam r x).peers = s.peers := rfl
@[simp] theorem State.setSeam_streams (s : State) (r : Nat) (x : Seam) : (s.setSeam r x).streams = s.streams := rfl
@[simp] theorem State.setSeam_pages (s : State) (r : Nat) (x : Seam) : (s.setSeam r x).pages = s.pages := rfl
@[simp] theorem State.setSeam_pdScale (s : State) (r : Nat) (x : Seam) : (s.setSeam r x).pdScale = s.pdScale := rfl
@[simp] theorem State.setSeam_drl (s : State) (r : Nat) (x : Seam) : (s.setSeam r x).drl = s.drl := rfl
@[simp] theorem State.setSeam_rebuilt (s : State) (r : Nat) (x : Seam) : (s.setSeam r x).rebuilt = s.rebuilt := rfl
@[simp] theorem State.setSeam_outbox (s : State) (r : Nat) (x : Seam) : (s.setSeam r x).outbox = s.outbox := rfl
@[simp] theorem State.setSeam_gate (s : State) (r : Nat) (x : Seam) : (s.setSeam r x).gate = s.gate := rfl
@[simp] theorem State.setSeam_flows (s : State) (r : Nat) (x : Seam) : (s.setSeam r x).flows = s.flows := rfl
@[simp] theorem State.setSeam_errq (s : State) (r : Nat) (x : Seam) : (s.setSeam r x).errq = s.errq := rfl
@[simp] theorem State.setSeam_errSeq (s : State) (r : Nat) (x : Seam) : (s.setSeam r x).errSeq = s.errSeq := rfl
@[simp] theorem State.setSeam_inj (s : State) (r : Nat) (x : Seam) : (s.setSeam r x).inj = s.inj := rfl
@[simp] theorem State.setSeam_evbuf (s : State) (r : Nat) (x : Seam) : (s.setSeam r x).evbuf = s.evbuf := rfl
@[simp] theorem State.setSeam_evSeq (s : State) (r : Nat) (x : Seam) : (s.setSeam r x).evSeq = s.evSeq := rfl
@[simp] theorem State.setSeam_evOut (s : State) (r : Nat) (x : Seam) : (s.setSeam r x).evOut = s.evOut := rfl
@[simp] theorem State.setSeam_evPre (s : State) (r : Nat) (x : Seam) : (s.setSeam r x).evPre = s.evPre := rfl
@[simp] theorem State.setSeam_evLost (s : State) (r : Nat) (x : Seam) : (s.setSeam r x).evLost = s.evLost := rfl
@[simp] theorem State.setSeam_plants (s : State) (r : Nat) (x : Seam) : (s.setSeam r x).plants = s.plants := rfl
@[simp] theorem State.setSeam_parkOrder (s : State) (r : Nat) (x : Seam) : (s.setSeam r x).parkOrder = s.parkOrder := rfl
@[simp] theorem State.setSeam_inputStop (s : State) (r : Nat) (x : Seam) : (s.setSeam r x).inputStop = s.inputStop := rfl
@[simp] theorem State.setSeam_inputMv (s : State) (r : Nat) (x : Seam) : (s.setSeam r x).inputMv = s.inputMv := rfl
@[simp] theorem State.setSeam_inputRev (s : State) (r : Nat) (x : Seam) : (s.setSeam r x).inputRev = s.inputRev := rfl
@[simp] theorem State.setSeam_shorted (s : State) (r : Nat) (x : Seam) : (s.setSeam r x).shorted = s.shorted := rfl
@[simp] theorem State.setSeam_convDead (s : State) (r : Nat) (x : Seam) : (s.setSeam r x).convDead = s.convDead := rfl
@[simp] theorem State.setSeam_scrubDevs (s : State) (r : Nat) (x : Seam) : (s.setSeam r x).scrubDevs = s.scrubDevs := rfl
@[simp] theorem State.setSeam_found (s : State) (r : Nat) (x : Seam) : (s.setSeam r x).found = s.found := rfl
@[simp] theorem State.setSeam_unzeroed (s : State) (r : Nat) (x : Seam) : (s.setSeam r x).unzeroed = s.unzeroed := rfl
@[simp] theorem State.setSeam_stkKeys (s : State) (r : Nat) (x : Seam) : (s.setSeam r x).stkKeys = s.stkKeys := rfl
@[simp] theorem State.setSeam_pdOff (s : State) (r : Nat) (x : Seam) : (s.setSeam r x).pdOff = s.pdOff := rfl
@[simp] theorem State.setSeam_refreshing (s : State) (r : Nat) (x : Seam) : (s.setSeam r x).refreshing = s.refreshing := rfl
@[simp] theorem State.setSeam_seamsDue (s : State) (r : Nat) (x : Seam) : (s.setSeam r x).seamsDue = s.seamsDue := rfl
@[simp] theorem State.setSeam_chains (s : State) (r : Nat) (x : Seam) : (s.setSeam r x).chains = s.chains := rfl
@[simp] theorem State.setSeam_snaps (s : State) (r : Nat) (x : Seam) : (s.setSeam r x).snaps = s.snaps := rfl
@[simp] theorem State.setSeam_rsImage (s : State) (r : Nat) (x : Seam) : (s.setSeam r x).rsImage = s.rsImage := rfl
@[simp] theorem State.setSeam_ckptKey (s : State) (r : Nat) (x : Seam) : (s.setSeam r x).ckptKey = s.ckptKey := rfl
@[simp] theorem State.setSeam_ckptNew (s : State) (r : Nat) (x : Seam) : (s.setSeam r x).ckptNew = s.ckptNew := rfl
@[simp] theorem State.setSeam_ckptOld (s : State) (r : Nat) (x : Seam) : (s.setSeam r x).ckptOld = s.ckptOld := rfl
@[simp] theorem State.setSeam_macsec (s : State) (r : Nat) (x : Seam) : (s.setSeam r x).macsec = s.macsec := rfl
@[simp] theorem State.setSeam_buffers (s : State) (r : Nat) (x : Seam) : (s.setSeam r x).buffers = s.buffers := rfl
@[simp] theorem State.setSeam_xoffs (s : State) (r : Nat) (x : Seam) : (s.setSeam r x).xoffs = s.xoffs := rfl
@[simp] theorem State.setSeam_paused (s : State) (r : Nat) (x : Seam) : (s.setSeam r x).paused = s.paused := rfl
@[simp] theorem State.setSeam_txWait (s : State) (r : Nat) (x : Seam) : (s.setSeam r x).txWait = s.txWait := rfl
@[simp] theorem State.setSeam_vendorHash (s : State) (r : Nat) (x : Seam) : (s.setSeam r x).vendorHash = s.vendorHash := rfl
@[simp] theorem State.setSeam_serial (s : State) (r : Nat) (x : Seam) : (s.setSeam r x).serial = s.serial := rfl
@[simp] theorem State.setSeam_idCert (s : State) (r : Nat) (x : Seam) : (s.setSeam r x).idCert = s.idCert := rfl
@[simp] theorem State.setSeam_owners (s : State) (r : Nat) (x : Seam) : (s.setSeam r x).owners = s.owners := rfl
@[simp] theorem State.setSeam_flash (s : State) (r : Nat) (x : Seam) : (s.setSeam r x).flash = s.flash := rfl
@[simp] theorem State.setSeam_prov (s : State) (r : Nat) (x : Seam) : (s.setSeam r x).prov = s.prov := rfl
@[simp] theorem State.setSeam_meas (s : State) (r : Nat) (x : Seam) : (s.setSeam r x).meas = s.meas := rfl
@[simp] theorem State.setSeam_rootLost (s : State) (r : Nat) (x : Seam) : (s.setSeam r x).rootLost = s.rootLost := rfl
@[simp] theorem State.setSeam_kt (s : State) (r : Nat) (x : Seam) : (s.setSeam r x).kt = s.kt := rfl
@[simp] theorem State.setSeam_cmdBuf (s : State) (r : Nat) (x : Seam) : (s.setSeam r x).cmdBuf = s.cmdBuf := rfl
@[simp] theorem State.setSeam_quote (s : State) (r : Nat) (x : Seam) : (s.setSeam r x).quote = s.quote := rfl
@[simp] theorem State.setSeam_ktCert (s : State) (r : Nat) (x : Seam) : (s.setSeam r x).ktCert = s.ktCert := rfl
@[simp] theorem State.setSeam_loadHeld (s : State) (r : Nat) (x : Seam) : (s.setSeam r x).loadHeld = s.loadHeld := rfl
@[simp] theorem State.setSeam_quiescing (s : State) (r : Nat) (x : Seam) : (s.setSeam r x).quiescing = s.quiescing := rfl
@[simp] theorem State.setSeam_activating (s : State) (r : Nat) (x : Seam) : (s.setSeam r x).activating = s.activating := rfl
@[simp] theorem State.setSeam_bootInj (s : State) (r : Nat) (x : Seam) : (s.setSeam r x).bootInj = s.bootInj := rfl
@[simp] theorem State.setSeam_linkUps (s : State) (r : Nat) (x : Seam) : (s.setSeam r x).linkUps = s.linkUps := rfl
@[simp] theorem State.setSeam_bays (s : State) (r : Nat) (x : Seam) : (s.setSeam r x).bays = s.bays := rfl
@[simp] theorem State.setSeam_meter (s : State) (r : Nat) (x : Seam) : (s.setSeam r x).meter = s.meter := rfl
@[simp] theorem State.setSeam_mirror (s : State) (r : Nat) (x : Seam) : (s.setSeam r x).mirror = s.mirror := rfl
@[simp] theorem State.setSeam_cmdMode (s : State) (r : Nat) (x : Seam) : (s.setSeam r x).cmdMode = s.cmdMode := rfl
@[simp] theorem State.setSeam_tick (s : State) (r : Nat) (x : Seam) : (s.setSeam r x).tick = s.tick := rfl
@[simp] theorem State.setSeam_pending (s : State) (r : Nat) (x : Seam) : (s.setSeam r x).pending = s.pending := rfl

/-! `State.setPeer` changes `peers` alone. -/
@[simp] theorem State.setPeer_regs (s : State) (r : Nat) (x : Peer) : (s.setPeer r x).regs = s.regs := rfl
@[simp] theorem State.setPeer_mem (s : State) (r : Nat) (x : Peer) : (s.setPeer r x).mem = s.mem := rfl
@[simp] theorem State.setPeer_marks (s : State) (r : Nat) (x : Peer) : (s.setPeer r x).marks = s.marks := rfl
@[simp] theorem State.setPeer_lines (s : State) (r : Nat) (x : Peer) : (s.setPeer r x).lines = s.lines := rfl
@[simp] theorem State.setPeer_bs (s : State) (r : Nat) (x : Peer) : (s.setPeer r x).bs = s.bs := rfl
@[simp] theorem State.setPeer_seams (s : State) (r : Nat) (x : Peer) : (s.setPeer r x).seams = s.seams := rfl
@[simp] theorem State.setPeer_units (s : State) (r : Nat) (x : Peer) : (s.setPeer r x).units = s.units := rfl
@[simp] theorem State.setPeer_retained (s : State) (r : Nat) (x : Peer) : (s.setPeer r x).retained = s.retained := rfl
@[simp] theorem State.setPeer_hubs (s : State) (r : Nat) (x : Peer) : (s.setPeer r x).hubs = s.hubs := rfl
@[simp] theorem State.setPeer_clusters (s : State) (r : Nat) (x : Peer) : (s.setPeer r x).clusters = s.clusters := rfl
@[simp] theorem State.setPeer_upes (s : State) (r : Nat) (x : Peer) : (s.setPeer r x).upes = s.upes := rfl
@[simp] theorem State.setPeer_pans (s : State) (r : Nat) (x : Peer) : (s.setPeer r x).pans = s.pans := rfl
@[simp] theorem State.setPeer_chans (s : State) (r : Nat) (x : Peer) : (s.setPeer r x).chans = s.chans := rfl
@[simp] theorem State.setPeer_ring (s : State) (r : Nat) (x : Peer) : (s.setPeer r x).ring = s.ring := rfl
@[simp] theorem State.setPeer_stops (s : State) (r : Nat) (x : Peer) : (s.setPeer r x).stops = s.stops := rfl
@[simp] theorem State.setPeer_waiters (s : State) (r : Nat) (x : Peer) : (s.setPeer r x).waiters = s.waiters := rfl
@[simp] theorem State.setPeer_asked (s : State) (r : Nat) (x : Peer) : (s.setPeer r x).asked = s.asked := rfl
@[simp] theorem State.setPeer_nextTag (s : State) (r : Nat) (x : Peer) : (s.setPeer r x).nextTag = s.nextTag := rfl
@[simp] theorem State.setPeer_streams (s : State) (r : Nat) (x : Peer) : (s.setPeer r x).streams = s.streams := rfl
@[simp] theorem State.setPeer_pages (s : State) (r : Nat) (x : Peer) : (s.setPeer r x).pages = s.pages := rfl
@[simp] theorem State.setPeer_pdScale (s : State) (r : Nat) (x : Peer) : (s.setPeer r x).pdScale = s.pdScale := rfl
@[simp] theorem State.setPeer_drl (s : State) (r : Nat) (x : Peer) : (s.setPeer r x).drl = s.drl := rfl
@[simp] theorem State.setPeer_rebuilt (s : State) (r : Nat) (x : Peer) : (s.setPeer r x).rebuilt = s.rebuilt := rfl
@[simp] theorem State.setPeer_outbox (s : State) (r : Nat) (x : Peer) : (s.setPeer r x).outbox = s.outbox := rfl
@[simp] theorem State.setPeer_gate (s : State) (r : Nat) (x : Peer) : (s.setPeer r x).gate = s.gate := rfl
@[simp] theorem State.setPeer_flows (s : State) (r : Nat) (x : Peer) : (s.setPeer r x).flows = s.flows := rfl
@[simp] theorem State.setPeer_errq (s : State) (r : Nat) (x : Peer) : (s.setPeer r x).errq = s.errq := rfl
@[simp] theorem State.setPeer_errSeq (s : State) (r : Nat) (x : Peer) : (s.setPeer r x).errSeq = s.errSeq := rfl
@[simp] theorem State.setPeer_inj (s : State) (r : Nat) (x : Peer) : (s.setPeer r x).inj = s.inj := rfl
@[simp] theorem State.setPeer_evbuf (s : State) (r : Nat) (x : Peer) : (s.setPeer r x).evbuf = s.evbuf := rfl
@[simp] theorem State.setPeer_evSeq (s : State) (r : Nat) (x : Peer) : (s.setPeer r x).evSeq = s.evSeq := rfl
@[simp] theorem State.setPeer_evOut (s : State) (r : Nat) (x : Peer) : (s.setPeer r x).evOut = s.evOut := rfl
@[simp] theorem State.setPeer_evPre (s : State) (r : Nat) (x : Peer) : (s.setPeer r x).evPre = s.evPre := rfl
@[simp] theorem State.setPeer_evLost (s : State) (r : Nat) (x : Peer) : (s.setPeer r x).evLost = s.evLost := rfl
@[simp] theorem State.setPeer_plants (s : State) (r : Nat) (x : Peer) : (s.setPeer r x).plants = s.plants := rfl
@[simp] theorem State.setPeer_parkOrder (s : State) (r : Nat) (x : Peer) : (s.setPeer r x).parkOrder = s.parkOrder := rfl
@[simp] theorem State.setPeer_inputStop (s : State) (r : Nat) (x : Peer) : (s.setPeer r x).inputStop = s.inputStop := rfl
@[simp] theorem State.setPeer_inputMv (s : State) (r : Nat) (x : Peer) : (s.setPeer r x).inputMv = s.inputMv := rfl
@[simp] theorem State.setPeer_inputRev (s : State) (r : Nat) (x : Peer) : (s.setPeer r x).inputRev = s.inputRev := rfl
@[simp] theorem State.setPeer_shorted (s : State) (r : Nat) (x : Peer) : (s.setPeer r x).shorted = s.shorted := rfl
@[simp] theorem State.setPeer_convDead (s : State) (r : Nat) (x : Peer) : (s.setPeer r x).convDead = s.convDead := rfl
@[simp] theorem State.setPeer_scrubDevs (s : State) (r : Nat) (x : Peer) : (s.setPeer r x).scrubDevs = s.scrubDevs := rfl
@[simp] theorem State.setPeer_found (s : State) (r : Nat) (x : Peer) : (s.setPeer r x).found = s.found := rfl
@[simp] theorem State.setPeer_unzeroed (s : State) (r : Nat) (x : Peer) : (s.setPeer r x).unzeroed = s.unzeroed := rfl
@[simp] theorem State.setPeer_stkKeys (s : State) (r : Nat) (x : Peer) : (s.setPeer r x).stkKeys = s.stkKeys := rfl
@[simp] theorem State.setPeer_pdOff (s : State) (r : Nat) (x : Peer) : (s.setPeer r x).pdOff = s.pdOff := rfl
@[simp] theorem State.setPeer_refreshing (s : State) (r : Nat) (x : Peer) : (s.setPeer r x).refreshing = s.refreshing := rfl
@[simp] theorem State.setPeer_seamsDue (s : State) (r : Nat) (x : Peer) : (s.setPeer r x).seamsDue = s.seamsDue := rfl
@[simp] theorem State.setPeer_chains (s : State) (r : Nat) (x : Peer) : (s.setPeer r x).chains = s.chains := rfl
@[simp] theorem State.setPeer_snaps (s : State) (r : Nat) (x : Peer) : (s.setPeer r x).snaps = s.snaps := rfl
@[simp] theorem State.setPeer_rsImage (s : State) (r : Nat) (x : Peer) : (s.setPeer r x).rsImage = s.rsImage := rfl
@[simp] theorem State.setPeer_ckptKey (s : State) (r : Nat) (x : Peer) : (s.setPeer r x).ckptKey = s.ckptKey := rfl
@[simp] theorem State.setPeer_ckptNew (s : State) (r : Nat) (x : Peer) : (s.setPeer r x).ckptNew = s.ckptNew := rfl
@[simp] theorem State.setPeer_ckptOld (s : State) (r : Nat) (x : Peer) : (s.setPeer r x).ckptOld = s.ckptOld := rfl
@[simp] theorem State.setPeer_macsec (s : State) (r : Nat) (x : Peer) : (s.setPeer r x).macsec = s.macsec := rfl
@[simp] theorem State.setPeer_buffers (s : State) (r : Nat) (x : Peer) : (s.setPeer r x).buffers = s.buffers := rfl
@[simp] theorem State.setPeer_xoffs (s : State) (r : Nat) (x : Peer) : (s.setPeer r x).xoffs = s.xoffs := rfl
@[simp] theorem State.setPeer_paused (s : State) (r : Nat) (x : Peer) : (s.setPeer r x).paused = s.paused := rfl
@[simp] theorem State.setPeer_txWait (s : State) (r : Nat) (x : Peer) : (s.setPeer r x).txWait = s.txWait := rfl
@[simp] theorem State.setPeer_vendorHash (s : State) (r : Nat) (x : Peer) : (s.setPeer r x).vendorHash = s.vendorHash := rfl
@[simp] theorem State.setPeer_serial (s : State) (r : Nat) (x : Peer) : (s.setPeer r x).serial = s.serial := rfl
@[simp] theorem State.setPeer_idCert (s : State) (r : Nat) (x : Peer) : (s.setPeer r x).idCert = s.idCert := rfl
@[simp] theorem State.setPeer_owners (s : State) (r : Nat) (x : Peer) : (s.setPeer r x).owners = s.owners := rfl
@[simp] theorem State.setPeer_flash (s : State) (r : Nat) (x : Peer) : (s.setPeer r x).flash = s.flash := rfl
@[simp] theorem State.setPeer_prov (s : State) (r : Nat) (x : Peer) : (s.setPeer r x).prov = s.prov := rfl
@[simp] theorem State.setPeer_meas (s : State) (r : Nat) (x : Peer) : (s.setPeer r x).meas = s.meas := rfl
@[simp] theorem State.setPeer_rootLost (s : State) (r : Nat) (x : Peer) : (s.setPeer r x).rootLost = s.rootLost := rfl
@[simp] theorem State.setPeer_kt (s : State) (r : Nat) (x : Peer) : (s.setPeer r x).kt = s.kt := rfl
@[simp] theorem State.setPeer_cmdBuf (s : State) (r : Nat) (x : Peer) : (s.setPeer r x).cmdBuf = s.cmdBuf := rfl
@[simp] theorem State.setPeer_quote (s : State) (r : Nat) (x : Peer) : (s.setPeer r x).quote = s.quote := rfl
@[simp] theorem State.setPeer_ktCert (s : State) (r : Nat) (x : Peer) : (s.setPeer r x).ktCert = s.ktCert := rfl
@[simp] theorem State.setPeer_loadHeld (s : State) (r : Nat) (x : Peer) : (s.setPeer r x).loadHeld = s.loadHeld := rfl
@[simp] theorem State.setPeer_quiescing (s : State) (r : Nat) (x : Peer) : (s.setPeer r x).quiescing = s.quiescing := rfl
@[simp] theorem State.setPeer_activating (s : State) (r : Nat) (x : Peer) : (s.setPeer r x).activating = s.activating := rfl
@[simp] theorem State.setPeer_bootInj (s : State) (r : Nat) (x : Peer) : (s.setPeer r x).bootInj = s.bootInj := rfl
@[simp] theorem State.setPeer_linkUps (s : State) (r : Nat) (x : Peer) : (s.setPeer r x).linkUps = s.linkUps := rfl
@[simp] theorem State.setPeer_bays (s : State) (r : Nat) (x : Peer) : (s.setPeer r x).bays = s.bays := rfl
@[simp] theorem State.setPeer_meter (s : State) (r : Nat) (x : Peer) : (s.setPeer r x).meter = s.meter := rfl
@[simp] theorem State.setPeer_mirror (s : State) (r : Nat) (x : Peer) : (s.setPeer r x).mirror = s.mirror := rfl
@[simp] theorem State.setPeer_cmdMode (s : State) (r : Nat) (x : Peer) : (s.setPeer r x).cmdMode = s.cmdMode := rfl
@[simp] theorem State.setPeer_tick (s : State) (r : Nat) (x : Peer) : (s.setPeer r x).tick = s.tick := rfl
@[simp] theorem State.setPeer_pending (s : State) (r : Nat) (x : Peer) : (s.setPeer r x).pending = s.pending := rfl

/-! `State.setStrm` changes `streams` alone. -/
@[simp] theorem State.setStrm_regs (s : State) (r : Nat) (x : Stream) : (s.setStrm r x).regs = s.regs := rfl
@[simp] theorem State.setStrm_mem (s : State) (r : Nat) (x : Stream) : (s.setStrm r x).mem = s.mem := rfl
@[simp] theorem State.setStrm_marks (s : State) (r : Nat) (x : Stream) : (s.setStrm r x).marks = s.marks := rfl
@[simp] theorem State.setStrm_lines (s : State) (r : Nat) (x : Stream) : (s.setStrm r x).lines = s.lines := rfl
@[simp] theorem State.setStrm_bs (s : State) (r : Nat) (x : Stream) : (s.setStrm r x).bs = s.bs := rfl
@[simp] theorem State.setStrm_seams (s : State) (r : Nat) (x : Stream) : (s.setStrm r x).seams = s.seams := rfl
@[simp] theorem State.setStrm_units (s : State) (r : Nat) (x : Stream) : (s.setStrm r x).units = s.units := rfl
@[simp] theorem State.setStrm_retained (s : State) (r : Nat) (x : Stream) : (s.setStrm r x).retained = s.retained := rfl
@[simp] theorem State.setStrm_hubs (s : State) (r : Nat) (x : Stream) : (s.setStrm r x).hubs = s.hubs := rfl
@[simp] theorem State.setStrm_clusters (s : State) (r : Nat) (x : Stream) : (s.setStrm r x).clusters = s.clusters := rfl
@[simp] theorem State.setStrm_upes (s : State) (r : Nat) (x : Stream) : (s.setStrm r x).upes = s.upes := rfl
@[simp] theorem State.setStrm_pans (s : State) (r : Nat) (x : Stream) : (s.setStrm r x).pans = s.pans := rfl
@[simp] theorem State.setStrm_chans (s : State) (r : Nat) (x : Stream) : (s.setStrm r x).chans = s.chans := rfl
@[simp] theorem State.setStrm_ring (s : State) (r : Nat) (x : Stream) : (s.setStrm r x).ring = s.ring := rfl
@[simp] theorem State.setStrm_stops (s : State) (r : Nat) (x : Stream) : (s.setStrm r x).stops = s.stops := rfl
@[simp] theorem State.setStrm_waiters (s : State) (r : Nat) (x : Stream) : (s.setStrm r x).waiters = s.waiters := rfl
@[simp] theorem State.setStrm_asked (s : State) (r : Nat) (x : Stream) : (s.setStrm r x).asked = s.asked := rfl
@[simp] theorem State.setStrm_nextTag (s : State) (r : Nat) (x : Stream) : (s.setStrm r x).nextTag = s.nextTag := rfl
@[simp] theorem State.setStrm_peers (s : State) (r : Nat) (x : Stream) : (s.setStrm r x).peers = s.peers := rfl
@[simp] theorem State.setStrm_pages (s : State) (r : Nat) (x : Stream) : (s.setStrm r x).pages = s.pages := rfl
@[simp] theorem State.setStrm_pdScale (s : State) (r : Nat) (x : Stream) : (s.setStrm r x).pdScale = s.pdScale := rfl
@[simp] theorem State.setStrm_drl (s : State) (r : Nat) (x : Stream) : (s.setStrm r x).drl = s.drl := rfl
@[simp] theorem State.setStrm_rebuilt (s : State) (r : Nat) (x : Stream) : (s.setStrm r x).rebuilt = s.rebuilt := rfl
@[simp] theorem State.setStrm_outbox (s : State) (r : Nat) (x : Stream) : (s.setStrm r x).outbox = s.outbox := rfl
@[simp] theorem State.setStrm_gate (s : State) (r : Nat) (x : Stream) : (s.setStrm r x).gate = s.gate := rfl
@[simp] theorem State.setStrm_flows (s : State) (r : Nat) (x : Stream) : (s.setStrm r x).flows = s.flows := rfl
@[simp] theorem State.setStrm_errq (s : State) (r : Nat) (x : Stream) : (s.setStrm r x).errq = s.errq := rfl
@[simp] theorem State.setStrm_errSeq (s : State) (r : Nat) (x : Stream) : (s.setStrm r x).errSeq = s.errSeq := rfl
@[simp] theorem State.setStrm_inj (s : State) (r : Nat) (x : Stream) : (s.setStrm r x).inj = s.inj := rfl
@[simp] theorem State.setStrm_evbuf (s : State) (r : Nat) (x : Stream) : (s.setStrm r x).evbuf = s.evbuf := rfl
@[simp] theorem State.setStrm_evSeq (s : State) (r : Nat) (x : Stream) : (s.setStrm r x).evSeq = s.evSeq := rfl
@[simp] theorem State.setStrm_evOut (s : State) (r : Nat) (x : Stream) : (s.setStrm r x).evOut = s.evOut := rfl
@[simp] theorem State.setStrm_evPre (s : State) (r : Nat) (x : Stream) : (s.setStrm r x).evPre = s.evPre := rfl
@[simp] theorem State.setStrm_evLost (s : State) (r : Nat) (x : Stream) : (s.setStrm r x).evLost = s.evLost := rfl
@[simp] theorem State.setStrm_plants (s : State) (r : Nat) (x : Stream) : (s.setStrm r x).plants = s.plants := rfl
@[simp] theorem State.setStrm_parkOrder (s : State) (r : Nat) (x : Stream) : (s.setStrm r x).parkOrder = s.parkOrder := rfl
@[simp] theorem State.setStrm_inputStop (s : State) (r : Nat) (x : Stream) : (s.setStrm r x).inputStop = s.inputStop := rfl
@[simp] theorem State.setStrm_inputMv (s : State) (r : Nat) (x : Stream) : (s.setStrm r x).inputMv = s.inputMv := rfl
@[simp] theorem State.setStrm_inputRev (s : State) (r : Nat) (x : Stream) : (s.setStrm r x).inputRev = s.inputRev := rfl
@[simp] theorem State.setStrm_shorted (s : State) (r : Nat) (x : Stream) : (s.setStrm r x).shorted = s.shorted := rfl
@[simp] theorem State.setStrm_convDead (s : State) (r : Nat) (x : Stream) : (s.setStrm r x).convDead = s.convDead := rfl
@[simp] theorem State.setStrm_scrubDevs (s : State) (r : Nat) (x : Stream) : (s.setStrm r x).scrubDevs = s.scrubDevs := rfl
@[simp] theorem State.setStrm_found (s : State) (r : Nat) (x : Stream) : (s.setStrm r x).found = s.found := rfl
@[simp] theorem State.setStrm_unzeroed (s : State) (r : Nat) (x : Stream) : (s.setStrm r x).unzeroed = s.unzeroed := rfl
@[simp] theorem State.setStrm_stkKeys (s : State) (r : Nat) (x : Stream) : (s.setStrm r x).stkKeys = s.stkKeys := rfl
@[simp] theorem State.setStrm_pdOff (s : State) (r : Nat) (x : Stream) : (s.setStrm r x).pdOff = s.pdOff := rfl
@[simp] theorem State.setStrm_refreshing (s : State) (r : Nat) (x : Stream) : (s.setStrm r x).refreshing = s.refreshing := rfl
@[simp] theorem State.setStrm_seamsDue (s : State) (r : Nat) (x : Stream) : (s.setStrm r x).seamsDue = s.seamsDue := rfl
@[simp] theorem State.setStrm_chains (s : State) (r : Nat) (x : Stream) : (s.setStrm r x).chains = s.chains := rfl
@[simp] theorem State.setStrm_snaps (s : State) (r : Nat) (x : Stream) : (s.setStrm r x).snaps = s.snaps := rfl
@[simp] theorem State.setStrm_rsImage (s : State) (r : Nat) (x : Stream) : (s.setStrm r x).rsImage = s.rsImage := rfl
@[simp] theorem State.setStrm_ckptKey (s : State) (r : Nat) (x : Stream) : (s.setStrm r x).ckptKey = s.ckptKey := rfl
@[simp] theorem State.setStrm_ckptNew (s : State) (r : Nat) (x : Stream) : (s.setStrm r x).ckptNew = s.ckptNew := rfl
@[simp] theorem State.setStrm_ckptOld (s : State) (r : Nat) (x : Stream) : (s.setStrm r x).ckptOld = s.ckptOld := rfl
@[simp] theorem State.setStrm_macsec (s : State) (r : Nat) (x : Stream) : (s.setStrm r x).macsec = s.macsec := rfl
@[simp] theorem State.setStrm_buffers (s : State) (r : Nat) (x : Stream) : (s.setStrm r x).buffers = s.buffers := rfl
@[simp] theorem State.setStrm_xoffs (s : State) (r : Nat) (x : Stream) : (s.setStrm r x).xoffs = s.xoffs := rfl
@[simp] theorem State.setStrm_paused (s : State) (r : Nat) (x : Stream) : (s.setStrm r x).paused = s.paused := rfl
@[simp] theorem State.setStrm_txWait (s : State) (r : Nat) (x : Stream) : (s.setStrm r x).txWait = s.txWait := rfl
@[simp] theorem State.setStrm_vendorHash (s : State) (r : Nat) (x : Stream) : (s.setStrm r x).vendorHash = s.vendorHash := rfl
@[simp] theorem State.setStrm_serial (s : State) (r : Nat) (x : Stream) : (s.setStrm r x).serial = s.serial := rfl
@[simp] theorem State.setStrm_idCert (s : State) (r : Nat) (x : Stream) : (s.setStrm r x).idCert = s.idCert := rfl
@[simp] theorem State.setStrm_owners (s : State) (r : Nat) (x : Stream) : (s.setStrm r x).owners = s.owners := rfl
@[simp] theorem State.setStrm_flash (s : State) (r : Nat) (x : Stream) : (s.setStrm r x).flash = s.flash := rfl
@[simp] theorem State.setStrm_prov (s : State) (r : Nat) (x : Stream) : (s.setStrm r x).prov = s.prov := rfl
@[simp] theorem State.setStrm_meas (s : State) (r : Nat) (x : Stream) : (s.setStrm r x).meas = s.meas := rfl
@[simp] theorem State.setStrm_rootLost (s : State) (r : Nat) (x : Stream) : (s.setStrm r x).rootLost = s.rootLost := rfl
@[simp] theorem State.setStrm_kt (s : State) (r : Nat) (x : Stream) : (s.setStrm r x).kt = s.kt := rfl
@[simp] theorem State.setStrm_cmdBuf (s : State) (r : Nat) (x : Stream) : (s.setStrm r x).cmdBuf = s.cmdBuf := rfl
@[simp] theorem State.setStrm_quote (s : State) (r : Nat) (x : Stream) : (s.setStrm r x).quote = s.quote := rfl
@[simp] theorem State.setStrm_ktCert (s : State) (r : Nat) (x : Stream) : (s.setStrm r x).ktCert = s.ktCert := rfl
@[simp] theorem State.setStrm_loadHeld (s : State) (r : Nat) (x : Stream) : (s.setStrm r x).loadHeld = s.loadHeld := rfl
@[simp] theorem State.setStrm_quiescing (s : State) (r : Nat) (x : Stream) : (s.setStrm r x).quiescing = s.quiescing := rfl
@[simp] theorem State.setStrm_activating (s : State) (r : Nat) (x : Stream) : (s.setStrm r x).activating = s.activating := rfl
@[simp] theorem State.setStrm_bootInj (s : State) (r : Nat) (x : Stream) : (s.setStrm r x).bootInj = s.bootInj := rfl
@[simp] theorem State.setStrm_linkUps (s : State) (r : Nat) (x : Stream) : (s.setStrm r x).linkUps = s.linkUps := rfl
@[simp] theorem State.setStrm_bays (s : State) (r : Nat) (x : Stream) : (s.setStrm r x).bays = s.bays := rfl
@[simp] theorem State.setStrm_meter (s : State) (r : Nat) (x : Stream) : (s.setStrm r x).meter = s.meter := rfl
@[simp] theorem State.setStrm_mirror (s : State) (r : Nat) (x : Stream) : (s.setStrm r x).mirror = s.mirror := rfl
@[simp] theorem State.setStrm_cmdMode (s : State) (r : Nat) (x : Stream) : (s.setStrm r x).cmdMode = s.cmdMode := rfl
@[simp] theorem State.setStrm_tick (s : State) (r : Nat) (x : Stream) : (s.setStrm r x).tick = s.tick := rfl
@[simp] theorem State.setStrm_pending (s : State) (r : Nat) (x : Stream) : (s.setStrm r x).pending = s.pending := rfl

/-! `State.setSec` changes `macsec` alone. -/
@[simp] theorem State.setSec_regs (s : State) (r h : Nat) (x : MacSec) : (s.setSec r h x).regs = s.regs := rfl
@[simp] theorem State.setSec_mem (s : State) (r h : Nat) (x : MacSec) : (s.setSec r h x).mem = s.mem := rfl
@[simp] theorem State.setSec_marks (s : State) (r h : Nat) (x : MacSec) : (s.setSec r h x).marks = s.marks := rfl
@[simp] theorem State.setSec_lines (s : State) (r h : Nat) (x : MacSec) : (s.setSec r h x).lines = s.lines := rfl
@[simp] theorem State.setSec_bs (s : State) (r h : Nat) (x : MacSec) : (s.setSec r h x).bs = s.bs := rfl
@[simp] theorem State.setSec_seams (s : State) (r h : Nat) (x : MacSec) : (s.setSec r h x).seams = s.seams := rfl
@[simp] theorem State.setSec_units (s : State) (r h : Nat) (x : MacSec) : (s.setSec r h x).units = s.units := rfl
@[simp] theorem State.setSec_retained (s : State) (r h : Nat) (x : MacSec) : (s.setSec r h x).retained = s.retained := rfl
@[simp] theorem State.setSec_hubs (s : State) (r h : Nat) (x : MacSec) : (s.setSec r h x).hubs = s.hubs := rfl
@[simp] theorem State.setSec_clusters (s : State) (r h : Nat) (x : MacSec) : (s.setSec r h x).clusters = s.clusters := rfl
@[simp] theorem State.setSec_upes (s : State) (r h : Nat) (x : MacSec) : (s.setSec r h x).upes = s.upes := rfl
@[simp] theorem State.setSec_pans (s : State) (r h : Nat) (x : MacSec) : (s.setSec r h x).pans = s.pans := rfl
@[simp] theorem State.setSec_chans (s : State) (r h : Nat) (x : MacSec) : (s.setSec r h x).chans = s.chans := rfl
@[simp] theorem State.setSec_ring (s : State) (r h : Nat) (x : MacSec) : (s.setSec r h x).ring = s.ring := rfl
@[simp] theorem State.setSec_stops (s : State) (r h : Nat) (x : MacSec) : (s.setSec r h x).stops = s.stops := rfl
@[simp] theorem State.setSec_waiters (s : State) (r h : Nat) (x : MacSec) : (s.setSec r h x).waiters = s.waiters := rfl
@[simp] theorem State.setSec_asked (s : State) (r h : Nat) (x : MacSec) : (s.setSec r h x).asked = s.asked := rfl
@[simp] theorem State.setSec_nextTag (s : State) (r h : Nat) (x : MacSec) : (s.setSec r h x).nextTag = s.nextTag := rfl
@[simp] theorem State.setSec_peers (s : State) (r h : Nat) (x : MacSec) : (s.setSec r h x).peers = s.peers := rfl
@[simp] theorem State.setSec_streams (s : State) (r h : Nat) (x : MacSec) : (s.setSec r h x).streams = s.streams := rfl
@[simp] theorem State.setSec_pages (s : State) (r h : Nat) (x : MacSec) : (s.setSec r h x).pages = s.pages := rfl
@[simp] theorem State.setSec_pdScale (s : State) (r h : Nat) (x : MacSec) : (s.setSec r h x).pdScale = s.pdScale := rfl
@[simp] theorem State.setSec_drl (s : State) (r h : Nat) (x : MacSec) : (s.setSec r h x).drl = s.drl := rfl
@[simp] theorem State.setSec_rebuilt (s : State) (r h : Nat) (x : MacSec) : (s.setSec r h x).rebuilt = s.rebuilt := rfl
@[simp] theorem State.setSec_outbox (s : State) (r h : Nat) (x : MacSec) : (s.setSec r h x).outbox = s.outbox := rfl
@[simp] theorem State.setSec_gate (s : State) (r h : Nat) (x : MacSec) : (s.setSec r h x).gate = s.gate := rfl
@[simp] theorem State.setSec_flows (s : State) (r h : Nat) (x : MacSec) : (s.setSec r h x).flows = s.flows := rfl
@[simp] theorem State.setSec_errq (s : State) (r h : Nat) (x : MacSec) : (s.setSec r h x).errq = s.errq := rfl
@[simp] theorem State.setSec_errSeq (s : State) (r h : Nat) (x : MacSec) : (s.setSec r h x).errSeq = s.errSeq := rfl
@[simp] theorem State.setSec_inj (s : State) (r h : Nat) (x : MacSec) : (s.setSec r h x).inj = s.inj := rfl
@[simp] theorem State.setSec_evbuf (s : State) (r h : Nat) (x : MacSec) : (s.setSec r h x).evbuf = s.evbuf := rfl
@[simp] theorem State.setSec_evSeq (s : State) (r h : Nat) (x : MacSec) : (s.setSec r h x).evSeq = s.evSeq := rfl
@[simp] theorem State.setSec_evOut (s : State) (r h : Nat) (x : MacSec) : (s.setSec r h x).evOut = s.evOut := rfl
@[simp] theorem State.setSec_evPre (s : State) (r h : Nat) (x : MacSec) : (s.setSec r h x).evPre = s.evPre := rfl
@[simp] theorem State.setSec_evLost (s : State) (r h : Nat) (x : MacSec) : (s.setSec r h x).evLost = s.evLost := rfl
@[simp] theorem State.setSec_plants (s : State) (r h : Nat) (x : MacSec) : (s.setSec r h x).plants = s.plants := rfl
@[simp] theorem State.setSec_parkOrder (s : State) (r h : Nat) (x : MacSec) : (s.setSec r h x).parkOrder = s.parkOrder := rfl
@[simp] theorem State.setSec_inputStop (s : State) (r h : Nat) (x : MacSec) : (s.setSec r h x).inputStop = s.inputStop := rfl
@[simp] theorem State.setSec_inputMv (s : State) (r h : Nat) (x : MacSec) : (s.setSec r h x).inputMv = s.inputMv := rfl
@[simp] theorem State.setSec_inputRev (s : State) (r h : Nat) (x : MacSec) : (s.setSec r h x).inputRev = s.inputRev := rfl
@[simp] theorem State.setSec_shorted (s : State) (r h : Nat) (x : MacSec) : (s.setSec r h x).shorted = s.shorted := rfl
@[simp] theorem State.setSec_convDead (s : State) (r h : Nat) (x : MacSec) : (s.setSec r h x).convDead = s.convDead := rfl
@[simp] theorem State.setSec_scrubDevs (s : State) (r h : Nat) (x : MacSec) : (s.setSec r h x).scrubDevs = s.scrubDevs := rfl
@[simp] theorem State.setSec_found (s : State) (r h : Nat) (x : MacSec) : (s.setSec r h x).found = s.found := rfl
@[simp] theorem State.setSec_unzeroed (s : State) (r h : Nat) (x : MacSec) : (s.setSec r h x).unzeroed = s.unzeroed := rfl
@[simp] theorem State.setSec_stkKeys (s : State) (r h : Nat) (x : MacSec) : (s.setSec r h x).stkKeys = s.stkKeys := rfl
@[simp] theorem State.setSec_pdOff (s : State) (r h : Nat) (x : MacSec) : (s.setSec r h x).pdOff = s.pdOff := rfl
@[simp] theorem State.setSec_refreshing (s : State) (r h : Nat) (x : MacSec) : (s.setSec r h x).refreshing = s.refreshing := rfl
@[simp] theorem State.setSec_seamsDue (s : State) (r h : Nat) (x : MacSec) : (s.setSec r h x).seamsDue = s.seamsDue := rfl
@[simp] theorem State.setSec_chains (s : State) (r h : Nat) (x : MacSec) : (s.setSec r h x).chains = s.chains := rfl
@[simp] theorem State.setSec_snaps (s : State) (r h : Nat) (x : MacSec) : (s.setSec r h x).snaps = s.snaps := rfl
@[simp] theorem State.setSec_rsImage (s : State) (r h : Nat) (x : MacSec) : (s.setSec r h x).rsImage = s.rsImage := rfl
@[simp] theorem State.setSec_ckptKey (s : State) (r h : Nat) (x : MacSec) : (s.setSec r h x).ckptKey = s.ckptKey := rfl
@[simp] theorem State.setSec_ckptNew (s : State) (r h : Nat) (x : MacSec) : (s.setSec r h x).ckptNew = s.ckptNew := rfl
@[simp] theorem State.setSec_ckptOld (s : State) (r h : Nat) (x : MacSec) : (s.setSec r h x).ckptOld = s.ckptOld := rfl
@[simp] theorem State.setSec_buffers (s : State) (r h : Nat) (x : MacSec) : (s.setSec r h x).buffers = s.buffers := rfl
@[simp] theorem State.setSec_xoffs (s : State) (r h : Nat) (x : MacSec) : (s.setSec r h x).xoffs = s.xoffs := rfl
@[simp] theorem State.setSec_paused (s : State) (r h : Nat) (x : MacSec) : (s.setSec r h x).paused = s.paused := rfl
@[simp] theorem State.setSec_txWait (s : State) (r h : Nat) (x : MacSec) : (s.setSec r h x).txWait = s.txWait := rfl
@[simp] theorem State.setSec_vendorHash (s : State) (r h : Nat) (x : MacSec) : (s.setSec r h x).vendorHash = s.vendorHash := rfl
@[simp] theorem State.setSec_serial (s : State) (r h : Nat) (x : MacSec) : (s.setSec r h x).serial = s.serial := rfl
@[simp] theorem State.setSec_idCert (s : State) (r h : Nat) (x : MacSec) : (s.setSec r h x).idCert = s.idCert := rfl
@[simp] theorem State.setSec_owners (s : State) (r h : Nat) (x : MacSec) : (s.setSec r h x).owners = s.owners := rfl
@[simp] theorem State.setSec_flash (s : State) (r h : Nat) (x : MacSec) : (s.setSec r h x).flash = s.flash := rfl
@[simp] theorem State.setSec_prov (s : State) (r h : Nat) (x : MacSec) : (s.setSec r h x).prov = s.prov := rfl
@[simp] theorem State.setSec_meas (s : State) (r h : Nat) (x : MacSec) : (s.setSec r h x).meas = s.meas := rfl
@[simp] theorem State.setSec_rootLost (s : State) (r h : Nat) (x : MacSec) : (s.setSec r h x).rootLost = s.rootLost := rfl
@[simp] theorem State.setSec_kt (s : State) (r h : Nat) (x : MacSec) : (s.setSec r h x).kt = s.kt := rfl
@[simp] theorem State.setSec_cmdBuf (s : State) (r h : Nat) (x : MacSec) : (s.setSec r h x).cmdBuf = s.cmdBuf := rfl
@[simp] theorem State.setSec_quote (s : State) (r h : Nat) (x : MacSec) : (s.setSec r h x).quote = s.quote := rfl
@[simp] theorem State.setSec_ktCert (s : State) (r h : Nat) (x : MacSec) : (s.setSec r h x).ktCert = s.ktCert := rfl
@[simp] theorem State.setSec_loadHeld (s : State) (r h : Nat) (x : MacSec) : (s.setSec r h x).loadHeld = s.loadHeld := rfl
@[simp] theorem State.setSec_quiescing (s : State) (r h : Nat) (x : MacSec) : (s.setSec r h x).quiescing = s.quiescing := rfl
@[simp] theorem State.setSec_activating (s : State) (r h : Nat) (x : MacSec) : (s.setSec r h x).activating = s.activating := rfl
@[simp] theorem State.setSec_bootInj (s : State) (r h : Nat) (x : MacSec) : (s.setSec r h x).bootInj = s.bootInj := rfl
@[simp] theorem State.setSec_linkUps (s : State) (r h : Nat) (x : MacSec) : (s.setSec r h x).linkUps = s.linkUps := rfl
@[simp] theorem State.setSec_bays (s : State) (r h : Nat) (x : MacSec) : (s.setSec r h x).bays = s.bays := rfl
@[simp] theorem State.setSec_meter (s : State) (r h : Nat) (x : MacSec) : (s.setSec r h x).meter = s.meter := rfl
@[simp] theorem State.setSec_mirror (s : State) (r h : Nat) (x : MacSec) : (s.setSec r h x).mirror = s.mirror := rfl
@[simp] theorem State.setSec_cmdMode (s : State) (r h : Nat) (x : MacSec) : (s.setSec r h x).cmdMode = s.cmdMode := rfl
@[simp] theorem State.setSec_tick (s : State) (r h : Nat) (x : MacSec) : (s.setSec r h x).tick = s.tick := rfl
@[simp] theorem State.setSec_pending (s : State) (r h : Nat) (x : MacSec) : (s.setSec r h x).pending = s.pending := rfl

/-! `State.setBay` changes `bays` alone. -/
@[simp] theorem State.setBay_regs (s : State) (r : Nat) (x : Bay) : (s.setBay r x).regs = s.regs := rfl
@[simp] theorem State.setBay_mem (s : State) (r : Nat) (x : Bay) : (s.setBay r x).mem = s.mem := rfl
@[simp] theorem State.setBay_marks (s : State) (r : Nat) (x : Bay) : (s.setBay r x).marks = s.marks := rfl
@[simp] theorem State.setBay_lines (s : State) (r : Nat) (x : Bay) : (s.setBay r x).lines = s.lines := rfl
@[simp] theorem State.setBay_bs (s : State) (r : Nat) (x : Bay) : (s.setBay r x).bs = s.bs := rfl
@[simp] theorem State.setBay_seams (s : State) (r : Nat) (x : Bay) : (s.setBay r x).seams = s.seams := rfl
@[simp] theorem State.setBay_units (s : State) (r : Nat) (x : Bay) : (s.setBay r x).units = s.units := rfl
@[simp] theorem State.setBay_retained (s : State) (r : Nat) (x : Bay) : (s.setBay r x).retained = s.retained := rfl
@[simp] theorem State.setBay_hubs (s : State) (r : Nat) (x : Bay) : (s.setBay r x).hubs = s.hubs := rfl
@[simp] theorem State.setBay_clusters (s : State) (r : Nat) (x : Bay) : (s.setBay r x).clusters = s.clusters := rfl
@[simp] theorem State.setBay_upes (s : State) (r : Nat) (x : Bay) : (s.setBay r x).upes = s.upes := rfl
@[simp] theorem State.setBay_pans (s : State) (r : Nat) (x : Bay) : (s.setBay r x).pans = s.pans := rfl
@[simp] theorem State.setBay_chans (s : State) (r : Nat) (x : Bay) : (s.setBay r x).chans = s.chans := rfl
@[simp] theorem State.setBay_ring (s : State) (r : Nat) (x : Bay) : (s.setBay r x).ring = s.ring := rfl
@[simp] theorem State.setBay_stops (s : State) (r : Nat) (x : Bay) : (s.setBay r x).stops = s.stops := rfl
@[simp] theorem State.setBay_waiters (s : State) (r : Nat) (x : Bay) : (s.setBay r x).waiters = s.waiters := rfl
@[simp] theorem State.setBay_asked (s : State) (r : Nat) (x : Bay) : (s.setBay r x).asked = s.asked := rfl
@[simp] theorem State.setBay_nextTag (s : State) (r : Nat) (x : Bay) : (s.setBay r x).nextTag = s.nextTag := rfl
@[simp] theorem State.setBay_peers (s : State) (r : Nat) (x : Bay) : (s.setBay r x).peers = s.peers := rfl
@[simp] theorem State.setBay_streams (s : State) (r : Nat) (x : Bay) : (s.setBay r x).streams = s.streams := rfl
@[simp] theorem State.setBay_pages (s : State) (r : Nat) (x : Bay) : (s.setBay r x).pages = s.pages := rfl
@[simp] theorem State.setBay_pdScale (s : State) (r : Nat) (x : Bay) : (s.setBay r x).pdScale = s.pdScale := rfl
@[simp] theorem State.setBay_drl (s : State) (r : Nat) (x : Bay) : (s.setBay r x).drl = s.drl := rfl
@[simp] theorem State.setBay_rebuilt (s : State) (r : Nat) (x : Bay) : (s.setBay r x).rebuilt = s.rebuilt := rfl
@[simp] theorem State.setBay_outbox (s : State) (r : Nat) (x : Bay) : (s.setBay r x).outbox = s.outbox := rfl
@[simp] theorem State.setBay_gate (s : State) (r : Nat) (x : Bay) : (s.setBay r x).gate = s.gate := rfl
@[simp] theorem State.setBay_flows (s : State) (r : Nat) (x : Bay) : (s.setBay r x).flows = s.flows := rfl
@[simp] theorem State.setBay_errq (s : State) (r : Nat) (x : Bay) : (s.setBay r x).errq = s.errq := rfl
@[simp] theorem State.setBay_errSeq (s : State) (r : Nat) (x : Bay) : (s.setBay r x).errSeq = s.errSeq := rfl
@[simp] theorem State.setBay_inj (s : State) (r : Nat) (x : Bay) : (s.setBay r x).inj = s.inj := rfl
@[simp] theorem State.setBay_evbuf (s : State) (r : Nat) (x : Bay) : (s.setBay r x).evbuf = s.evbuf := rfl
@[simp] theorem State.setBay_evSeq (s : State) (r : Nat) (x : Bay) : (s.setBay r x).evSeq = s.evSeq := rfl
@[simp] theorem State.setBay_evOut (s : State) (r : Nat) (x : Bay) : (s.setBay r x).evOut = s.evOut := rfl
@[simp] theorem State.setBay_evPre (s : State) (r : Nat) (x : Bay) : (s.setBay r x).evPre = s.evPre := rfl
@[simp] theorem State.setBay_evLost (s : State) (r : Nat) (x : Bay) : (s.setBay r x).evLost = s.evLost := rfl
@[simp] theorem State.setBay_plants (s : State) (r : Nat) (x : Bay) : (s.setBay r x).plants = s.plants := rfl
@[simp] theorem State.setBay_parkOrder (s : State) (r : Nat) (x : Bay) : (s.setBay r x).parkOrder = s.parkOrder := rfl
@[simp] theorem State.setBay_inputStop (s : State) (r : Nat) (x : Bay) : (s.setBay r x).inputStop = s.inputStop := rfl
@[simp] theorem State.setBay_inputMv (s : State) (r : Nat) (x : Bay) : (s.setBay r x).inputMv = s.inputMv := rfl
@[simp] theorem State.setBay_inputRev (s : State) (r : Nat) (x : Bay) : (s.setBay r x).inputRev = s.inputRev := rfl
@[simp] theorem State.setBay_shorted (s : State) (r : Nat) (x : Bay) : (s.setBay r x).shorted = s.shorted := rfl
@[simp] theorem State.setBay_convDead (s : State) (r : Nat) (x : Bay) : (s.setBay r x).convDead = s.convDead := rfl
@[simp] theorem State.setBay_scrubDevs (s : State) (r : Nat) (x : Bay) : (s.setBay r x).scrubDevs = s.scrubDevs := rfl
@[simp] theorem State.setBay_found (s : State) (r : Nat) (x : Bay) : (s.setBay r x).found = s.found := rfl
@[simp] theorem State.setBay_unzeroed (s : State) (r : Nat) (x : Bay) : (s.setBay r x).unzeroed = s.unzeroed := rfl
@[simp] theorem State.setBay_stkKeys (s : State) (r : Nat) (x : Bay) : (s.setBay r x).stkKeys = s.stkKeys := rfl
@[simp] theorem State.setBay_pdOff (s : State) (r : Nat) (x : Bay) : (s.setBay r x).pdOff = s.pdOff := rfl
@[simp] theorem State.setBay_refreshing (s : State) (r : Nat) (x : Bay) : (s.setBay r x).refreshing = s.refreshing := rfl
@[simp] theorem State.setBay_seamsDue (s : State) (r : Nat) (x : Bay) : (s.setBay r x).seamsDue = s.seamsDue := rfl
@[simp] theorem State.setBay_chains (s : State) (r : Nat) (x : Bay) : (s.setBay r x).chains = s.chains := rfl
@[simp] theorem State.setBay_snaps (s : State) (r : Nat) (x : Bay) : (s.setBay r x).snaps = s.snaps := rfl
@[simp] theorem State.setBay_rsImage (s : State) (r : Nat) (x : Bay) : (s.setBay r x).rsImage = s.rsImage := rfl
@[simp] theorem State.setBay_ckptKey (s : State) (r : Nat) (x : Bay) : (s.setBay r x).ckptKey = s.ckptKey := rfl
@[simp] theorem State.setBay_ckptNew (s : State) (r : Nat) (x : Bay) : (s.setBay r x).ckptNew = s.ckptNew := rfl
@[simp] theorem State.setBay_ckptOld (s : State) (r : Nat) (x : Bay) : (s.setBay r x).ckptOld = s.ckptOld := rfl
@[simp] theorem State.setBay_macsec (s : State) (r : Nat) (x : Bay) : (s.setBay r x).macsec = s.macsec := rfl
@[simp] theorem State.setBay_buffers (s : State) (r : Nat) (x : Bay) : (s.setBay r x).buffers = s.buffers := rfl
@[simp] theorem State.setBay_xoffs (s : State) (r : Nat) (x : Bay) : (s.setBay r x).xoffs = s.xoffs := rfl
@[simp] theorem State.setBay_paused (s : State) (r : Nat) (x : Bay) : (s.setBay r x).paused = s.paused := rfl
@[simp] theorem State.setBay_txWait (s : State) (r : Nat) (x : Bay) : (s.setBay r x).txWait = s.txWait := rfl
@[simp] theorem State.setBay_vendorHash (s : State) (r : Nat) (x : Bay) : (s.setBay r x).vendorHash = s.vendorHash := rfl
@[simp] theorem State.setBay_serial (s : State) (r : Nat) (x : Bay) : (s.setBay r x).serial = s.serial := rfl
@[simp] theorem State.setBay_idCert (s : State) (r : Nat) (x : Bay) : (s.setBay r x).idCert = s.idCert := rfl
@[simp] theorem State.setBay_owners (s : State) (r : Nat) (x : Bay) : (s.setBay r x).owners = s.owners := rfl
@[simp] theorem State.setBay_flash (s : State) (r : Nat) (x : Bay) : (s.setBay r x).flash = s.flash := rfl
@[simp] theorem State.setBay_prov (s : State) (r : Nat) (x : Bay) : (s.setBay r x).prov = s.prov := rfl
@[simp] theorem State.setBay_meas (s : State) (r : Nat) (x : Bay) : (s.setBay r x).meas = s.meas := rfl
@[simp] theorem State.setBay_rootLost (s : State) (r : Nat) (x : Bay) : (s.setBay r x).rootLost = s.rootLost := rfl
@[simp] theorem State.setBay_kt (s : State) (r : Nat) (x : Bay) : (s.setBay r x).kt = s.kt := rfl
@[simp] theorem State.setBay_cmdBuf (s : State) (r : Nat) (x : Bay) : (s.setBay r x).cmdBuf = s.cmdBuf := rfl
@[simp] theorem State.setBay_quote (s : State) (r : Nat) (x : Bay) : (s.setBay r x).quote = s.quote := rfl
@[simp] theorem State.setBay_ktCert (s : State) (r : Nat) (x : Bay) : (s.setBay r x).ktCert = s.ktCert := rfl
@[simp] theorem State.setBay_loadHeld (s : State) (r : Nat) (x : Bay) : (s.setBay r x).loadHeld = s.loadHeld := rfl
@[simp] theorem State.setBay_quiescing (s : State) (r : Nat) (x : Bay) : (s.setBay r x).quiescing = s.quiescing := rfl
@[simp] theorem State.setBay_activating (s : State) (r : Nat) (x : Bay) : (s.setBay r x).activating = s.activating := rfl
@[simp] theorem State.setBay_bootInj (s : State) (r : Nat) (x : Bay) : (s.setBay r x).bootInj = s.bootInj := rfl
@[simp] theorem State.setBay_linkUps (s : State) (r : Nat) (x : Bay) : (s.setBay r x).linkUps = s.linkUps := rfl
@[simp] theorem State.setBay_meter (s : State) (r : Nat) (x : Bay) : (s.setBay r x).meter = s.meter := rfl
@[simp] theorem State.setBay_mirror (s : State) (r : Nat) (x : Bay) : (s.setBay r x).mirror = s.mirror := rfl
@[simp] theorem State.setBay_cmdMode (s : State) (r : Nat) (x : Bay) : (s.setBay r x).cmdMode = s.cmdMode := rfl
@[simp] theorem State.setBay_tick (s : State) (r : Nat) (x : Bay) : (s.setBay r x).tick = s.tick := rfl
@[simp] theorem State.setBay_pending (s : State) (r : Nat) (x : Bay) : (s.setBay r x).pending = s.pending := rfl

/-! `State.setChain` changes `chains` alone. -/
@[simp] theorem State.setChain_regs (s : State) (r : Nat) (x : Chain) : (s.setChain r x).regs = s.regs := rfl
@[simp] theorem State.setChain_mem (s : State) (r : Nat) (x : Chain) : (s.setChain r x).mem = s.mem := rfl
@[simp] theorem State.setChain_marks (s : State) (r : Nat) (x : Chain) : (s.setChain r x).marks = s.marks := rfl
@[simp] theorem State.setChain_lines (s : State) (r : Nat) (x : Chain) : (s.setChain r x).lines = s.lines := rfl
@[simp] theorem State.setChain_bs (s : State) (r : Nat) (x : Chain) : (s.setChain r x).bs = s.bs := rfl
@[simp] theorem State.setChain_seams (s : State) (r : Nat) (x : Chain) : (s.setChain r x).seams = s.seams := rfl
@[simp] theorem State.setChain_units (s : State) (r : Nat) (x : Chain) : (s.setChain r x).units = s.units := rfl
@[simp] theorem State.setChain_retained (s : State) (r : Nat) (x : Chain) : (s.setChain r x).retained = s.retained := rfl
@[simp] theorem State.setChain_hubs (s : State) (r : Nat) (x : Chain) : (s.setChain r x).hubs = s.hubs := rfl
@[simp] theorem State.setChain_clusters (s : State) (r : Nat) (x : Chain) : (s.setChain r x).clusters = s.clusters := rfl
@[simp] theorem State.setChain_upes (s : State) (r : Nat) (x : Chain) : (s.setChain r x).upes = s.upes := rfl
@[simp] theorem State.setChain_pans (s : State) (r : Nat) (x : Chain) : (s.setChain r x).pans = s.pans := rfl
@[simp] theorem State.setChain_chans (s : State) (r : Nat) (x : Chain) : (s.setChain r x).chans = s.chans := rfl
@[simp] theorem State.setChain_ring (s : State) (r : Nat) (x : Chain) : (s.setChain r x).ring = s.ring := rfl
@[simp] theorem State.setChain_stops (s : State) (r : Nat) (x : Chain) : (s.setChain r x).stops = s.stops := rfl
@[simp] theorem State.setChain_waiters (s : State) (r : Nat) (x : Chain) : (s.setChain r x).waiters = s.waiters := rfl
@[simp] theorem State.setChain_asked (s : State) (r : Nat) (x : Chain) : (s.setChain r x).asked = s.asked := rfl
@[simp] theorem State.setChain_nextTag (s : State) (r : Nat) (x : Chain) : (s.setChain r x).nextTag = s.nextTag := rfl
@[simp] theorem State.setChain_peers (s : State) (r : Nat) (x : Chain) : (s.setChain r x).peers = s.peers := rfl
@[simp] theorem State.setChain_streams (s : State) (r : Nat) (x : Chain) : (s.setChain r x).streams = s.streams := rfl
@[simp] theorem State.setChain_pages (s : State) (r : Nat) (x : Chain) : (s.setChain r x).pages = s.pages := rfl
@[simp] theorem State.setChain_pdScale (s : State) (r : Nat) (x : Chain) : (s.setChain r x).pdScale = s.pdScale := rfl
@[simp] theorem State.setChain_drl (s : State) (r : Nat) (x : Chain) : (s.setChain r x).drl = s.drl := rfl
@[simp] theorem State.setChain_rebuilt (s : State) (r : Nat) (x : Chain) : (s.setChain r x).rebuilt = s.rebuilt := rfl
@[simp] theorem State.setChain_outbox (s : State) (r : Nat) (x : Chain) : (s.setChain r x).outbox = s.outbox := rfl
@[simp] theorem State.setChain_gate (s : State) (r : Nat) (x : Chain) : (s.setChain r x).gate = s.gate := rfl
@[simp] theorem State.setChain_flows (s : State) (r : Nat) (x : Chain) : (s.setChain r x).flows = s.flows := rfl
@[simp] theorem State.setChain_errq (s : State) (r : Nat) (x : Chain) : (s.setChain r x).errq = s.errq := rfl
@[simp] theorem State.setChain_errSeq (s : State) (r : Nat) (x : Chain) : (s.setChain r x).errSeq = s.errSeq := rfl
@[simp] theorem State.setChain_inj (s : State) (r : Nat) (x : Chain) : (s.setChain r x).inj = s.inj := rfl
@[simp] theorem State.setChain_evbuf (s : State) (r : Nat) (x : Chain) : (s.setChain r x).evbuf = s.evbuf := rfl
@[simp] theorem State.setChain_evSeq (s : State) (r : Nat) (x : Chain) : (s.setChain r x).evSeq = s.evSeq := rfl
@[simp] theorem State.setChain_evOut (s : State) (r : Nat) (x : Chain) : (s.setChain r x).evOut = s.evOut := rfl
@[simp] theorem State.setChain_evPre (s : State) (r : Nat) (x : Chain) : (s.setChain r x).evPre = s.evPre := rfl
@[simp] theorem State.setChain_evLost (s : State) (r : Nat) (x : Chain) : (s.setChain r x).evLost = s.evLost := rfl
@[simp] theorem State.setChain_plants (s : State) (r : Nat) (x : Chain) : (s.setChain r x).plants = s.plants := rfl
@[simp] theorem State.setChain_parkOrder (s : State) (r : Nat) (x : Chain) : (s.setChain r x).parkOrder = s.parkOrder := rfl
@[simp] theorem State.setChain_inputStop (s : State) (r : Nat) (x : Chain) : (s.setChain r x).inputStop = s.inputStop := rfl
@[simp] theorem State.setChain_inputMv (s : State) (r : Nat) (x : Chain) : (s.setChain r x).inputMv = s.inputMv := rfl
@[simp] theorem State.setChain_inputRev (s : State) (r : Nat) (x : Chain) : (s.setChain r x).inputRev = s.inputRev := rfl
@[simp] theorem State.setChain_shorted (s : State) (r : Nat) (x : Chain) : (s.setChain r x).shorted = s.shorted := rfl
@[simp] theorem State.setChain_convDead (s : State) (r : Nat) (x : Chain) : (s.setChain r x).convDead = s.convDead := rfl
@[simp] theorem State.setChain_scrubDevs (s : State) (r : Nat) (x : Chain) : (s.setChain r x).scrubDevs = s.scrubDevs := rfl
@[simp] theorem State.setChain_found (s : State) (r : Nat) (x : Chain) : (s.setChain r x).found = s.found := rfl
@[simp] theorem State.setChain_unzeroed (s : State) (r : Nat) (x : Chain) : (s.setChain r x).unzeroed = s.unzeroed := rfl
@[simp] theorem State.setChain_stkKeys (s : State) (r : Nat) (x : Chain) : (s.setChain r x).stkKeys = s.stkKeys := rfl
@[simp] theorem State.setChain_pdOff (s : State) (r : Nat) (x : Chain) : (s.setChain r x).pdOff = s.pdOff := rfl
@[simp] theorem State.setChain_refreshing (s : State) (r : Nat) (x : Chain) : (s.setChain r x).refreshing = s.refreshing := rfl
@[simp] theorem State.setChain_seamsDue (s : State) (r : Nat) (x : Chain) : (s.setChain r x).seamsDue = s.seamsDue := rfl
@[simp] theorem State.setChain_snaps (s : State) (r : Nat) (x : Chain) : (s.setChain r x).snaps = s.snaps := rfl
@[simp] theorem State.setChain_rsImage (s : State) (r : Nat) (x : Chain) : (s.setChain r x).rsImage = s.rsImage := rfl
@[simp] theorem State.setChain_ckptKey (s : State) (r : Nat) (x : Chain) : (s.setChain r x).ckptKey = s.ckptKey := rfl
@[simp] theorem State.setChain_ckptNew (s : State) (r : Nat) (x : Chain) : (s.setChain r x).ckptNew = s.ckptNew := rfl
@[simp] theorem State.setChain_ckptOld (s : State) (r : Nat) (x : Chain) : (s.setChain r x).ckptOld = s.ckptOld := rfl
@[simp] theorem State.setChain_macsec (s : State) (r : Nat) (x : Chain) : (s.setChain r x).macsec = s.macsec := rfl
@[simp] theorem State.setChain_buffers (s : State) (r : Nat) (x : Chain) : (s.setChain r x).buffers = s.buffers := rfl
@[simp] theorem State.setChain_xoffs (s : State) (r : Nat) (x : Chain) : (s.setChain r x).xoffs = s.xoffs := rfl
@[simp] theorem State.setChain_paused (s : State) (r : Nat) (x : Chain) : (s.setChain r x).paused = s.paused := rfl
@[simp] theorem State.setChain_txWait (s : State) (r : Nat) (x : Chain) : (s.setChain r x).txWait = s.txWait := rfl
@[simp] theorem State.setChain_vendorHash (s : State) (r : Nat) (x : Chain) : (s.setChain r x).vendorHash = s.vendorHash := rfl
@[simp] theorem State.setChain_serial (s : State) (r : Nat) (x : Chain) : (s.setChain r x).serial = s.serial := rfl
@[simp] theorem State.setChain_idCert (s : State) (r : Nat) (x : Chain) : (s.setChain r x).idCert = s.idCert := rfl
@[simp] theorem State.setChain_owners (s : State) (r : Nat) (x : Chain) : (s.setChain r x).owners = s.owners := rfl
@[simp] theorem State.setChain_flash (s : State) (r : Nat) (x : Chain) : (s.setChain r x).flash = s.flash := rfl
@[simp] theorem State.setChain_prov (s : State) (r : Nat) (x : Chain) : (s.setChain r x).prov = s.prov := rfl
@[simp] theorem State.setChain_meas (s : State) (r : Nat) (x : Chain) : (s.setChain r x).meas = s.meas := rfl
@[simp] theorem State.setChain_rootLost (s : State) (r : Nat) (x : Chain) : (s.setChain r x).rootLost = s.rootLost := rfl
@[simp] theorem State.setChain_kt (s : State) (r : Nat) (x : Chain) : (s.setChain r x).kt = s.kt := rfl
@[simp] theorem State.setChain_cmdBuf (s : State) (r : Nat) (x : Chain) : (s.setChain r x).cmdBuf = s.cmdBuf := rfl
@[simp] theorem State.setChain_quote (s : State) (r : Nat) (x : Chain) : (s.setChain r x).quote = s.quote := rfl
@[simp] theorem State.setChain_ktCert (s : State) (r : Nat) (x : Chain) : (s.setChain r x).ktCert = s.ktCert := rfl
@[simp] theorem State.setChain_loadHeld (s : State) (r : Nat) (x : Chain) : (s.setChain r x).loadHeld = s.loadHeld := rfl
@[simp] theorem State.setChain_quiescing (s : State) (r : Nat) (x : Chain) : (s.setChain r x).quiescing = s.quiescing := rfl
@[simp] theorem State.setChain_activating (s : State) (r : Nat) (x : Chain) : (s.setChain r x).activating = s.activating := rfl
@[simp] theorem State.setChain_bootInj (s : State) (r : Nat) (x : Chain) : (s.setChain r x).bootInj = s.bootInj := rfl
@[simp] theorem State.setChain_linkUps (s : State) (r : Nat) (x : Chain) : (s.setChain r x).linkUps = s.linkUps := rfl
@[simp] theorem State.setChain_bays (s : State) (r : Nat) (x : Chain) : (s.setChain r x).bays = s.bays := rfl
@[simp] theorem State.setChain_meter (s : State) (r : Nat) (x : Chain) : (s.setChain r x).meter = s.meter := rfl
@[simp] theorem State.setChain_mirror (s : State) (r : Nat) (x : Chain) : (s.setChain r x).mirror = s.mirror := rfl
@[simp] theorem State.setChain_cmdMode (s : State) (r : Nat) (x : Chain) : (s.setChain r x).cmdMode = s.cmdMode := rfl
@[simp] theorem State.setChain_tick (s : State) (r : Nat) (x : Chain) : (s.setChain r x).tick = s.tick := rfl
@[simp] theorem State.setChain_pending (s : State) (r : Nat) (x : Chain) : (s.setChain r x).pending = s.pending := rfl

/-! ## Reading after a write -/

@[simp] theorem State.get_put_same (s : State) (f : Fld) (v : Nat) : (s.put f v).get f = v % 2 ^ f.w := by
  simp [State.get, State.put]

theorem State.get_put_other {s : State} {f g : Fld} {v : Nat} (h : g.key ≠ f.key) : (s.put f v).get g = s.get g := by
  simp [State.get, State.put, tabFind_put_other h]

@[simp] theorem State.hub_setHub_same (s : State) (k : Nat) (x : Hub) : (s.setHub k x).hub k = x := tabGet_put_same
theorem State.hub_setHub_other {s : State} {j k : Nat} {x : Hub} (h : j ≠ k) : (s.setHub k x).hub j = s.hub j := tabGet_put_other h
@[simp] theorem State.pan_setPan_same (s : State) (k : Nat) (x : Pannier) : (s.setPan k x).pan k = x := tabGet_put_same
theorem State.pan_setPan_other {s : State} {j k : Nat} {x : Pannier} (h : j ≠ k) : (s.setPan k x).pan j = s.pan j := tabGet_put_other h
@[simp] theorem State.stop_setStop_same (s : State) (k : Nat) (x : Stop) : (s.setStop k x).stop k = x := tabGet_put_same
theorem State.stop_setStop_other {s : State} {j k : Nat} {x : Stop} (h : j ≠ k) : (s.setStop k x).stop j = s.stop j := tabGet_put_other h
@[simp] theorem State.flow_setFlow_same (s : State) (k : Nat) (x : Flow) : (s.setFlow k x).flow k = x := tabGet_put_same
theorem State.flow_setFlow_other {s : State} {j k : Nat} {x : Flow} (h : j ≠ k) : (s.setFlow k x).flow j = s.flow j := tabGet_put_other h
@[simp] theorem State.seam_setSeam_same (s : State) (k : Nat) (x : Seam) : (s.setSeam k x).seam k = x := tabGet_put_same
theorem State.seam_setSeam_other {s : State} {j k : Nat} {x : Seam} (h : j ≠ k) : (s.setSeam k x).seam j = s.seam j := tabGet_put_other h
@[simp] theorem State.peer_setPeer_same (s : State) (k : Nat) (x : Peer) : (s.setPeer k x).peer k = x := tabGet_put_same
theorem State.peer_setPeer_other {s : State} {j k : Nat} {x : Peer} (h : j ≠ k) : (s.setPeer k x).peer j = s.peer j := tabGet_put_other h
@[simp] theorem State.strm_setStrm_same (s : State) (k : Nat) (x : Stream) : (s.setStrm k x).strm k = x := tabGet_put_same
theorem State.strm_setStrm_other {s : State} {j k : Nat} {x : Stream} (h : j ≠ k) : (s.setStrm k x).strm j = s.strm j := tabGet_put_other h
@[simp] theorem State.bay_setBay_same (s : State) (k : Nat) (x : Bay) : (s.setBay k x).bay k = x := tabGet_put_same
theorem State.bay_setBay_other {s : State} {j k : Nat} {x : Bay} (h : j ≠ k) : (s.setBay k x).bay j = s.bay j := tabGet_put_other h
@[simp] theorem State.chain_setChain_same (s : State) (k : Nat) (x : Chain) : (s.setChain k x).chain k = x := tabGet_put_same
theorem State.chain_setChain_other {s : State} {j k : Nat} {x : Chain} (h : j ≠ k) : (s.setChain k x).chain j = s.chain j := tabGet_put_other h
@[simp] theorem State.cluster_setCluster_same (s : State) (r k : Nat) (x : Cluster) : (s.setCluster r k x).cluster r k = x := tabGet_put_same
@[simp] theorem State.upe_setUpe_same (s : State) (r k : Nat) (x : Upe) : (s.setUpe r k x).upe r k = x := tabGet_put_same
@[simp] theorem State.chan_setChan_same (s : State) (r k : Nat) (x : Chan) : (s.setChan r k x).chan r k = x := tabGet_put_same
@[simp] theorem State.sec_setSec_same (s : State) (r k : Nat) (x : MacSec) : (s.setSec r k x).sec r k = x := tabGet_put_same

end Sys2Proof.Machine
end

