-- ==== Sys2Proof/WellFormed.lean ====
section
/-! DEFINITION. When a command's operands have the sizes that the spec gives them. Unit numbers are bounded by their types. -/
namespace Sys2Proof

/-- An IP address as the module holds it: 16 bytes. -/
def PktSrc.wf (p : PktSrc) : Bool := p.ip.length == 16

/-- Does what a new meter brings fit the layouts of its certificate, its identification record and its log (R401, R405, R412)? -/
def NewMeter.wf (x : NewMeter) : Bool :=
  decide (x.serial < 2 ^ 64 ∧ x.version < 2 ^ 48) && x.pubkey.length == 384 && x.certSig.length == 384 && x.lrDigest.length == 32 &&
  x.paramDigest.length == 32 && x.taNumber.length == 32 && x.log.all (fun e => decide (e.1 < x.logNext) && e.2.length == 128)

/-- The checks of each command's operands: lengths of flits (R251), commands (R390, R407), headers (R301), readings (R346), draws (R337),
table writes (R292, R303, R447). -/
def Instr.wf : Instr → Bool
  | .flitReceive _ _ _ flit _ => flit.length == 512
  | .monitorSample _ m => m.temps.length == 16 && m.volts.length == 8 && m.freqs.length == 4 && m.stack.length == 4
  | .resumeRegion _ d | .inputVoltageChange _ _ d | .admissionRetest _ d | .quarter _ d | .cuffEnforce d | .unpark d =>
    d.regions.length == 32 && d.segs.length == 8 && d.segPeaks.length == 8
  | .reqModeWrite m => decide (m ≠ 3)
  | .frameReceive _ _ f => f.src.wf
  | .rdmaWrite p _ _ _ | .rdmaWriteWithImmediate p _ _ _ _ | .rdmaRead p _ _ _ | .send p _ => p.wf
  | .peerEntryWrite _ o d => o % 8 == 0 && d.length % 8 == 0 && o + d.length ≤ 64
  | .streamEntryWrite _ _ o d => o % 8 == 0 && d.length % 8 == 0 && o + d.length ≤ 32
  | .stepOpen _ h | .wtDone _ h | .credit _ h | .replicaDrop _ h => h.length == 64
  | .wtPush _ h p => h.length == 64 && p.length ≤ 0x100000
  | .cassetteAuthenticated _ r => r.cert.length == 832
  | .meterOpen c | .meterClose c | .logAck c | .setTime c | .meterRotate c | .enrol c => c.length == 832
  | .meterRead n => n.length == 32
  | .provWrite n e => decide (1 ≤ n ∧ n ≤ 16) && e.length == n && e.all (fun x => x.length == 64)
  | .swChange l p _ => l.length == 32 && p.length == 32
  | .powerUp b => b.incoming.all NewMeter.wf
  | _ => true

end Sys2Proof
end

