-- ==== Sys2Proof/Tests/Slice0.lean ====
section
/-! SUPPORT. The project's own tests: ill-formed terms refused, single commands on small states, and a witness for the hypotheses of every
statement. -/
namespace Sys2Proof.Tests

open Sys2Proof.Machine

set_option Elab.async false

/-- Region 0 running, everything else as after reset. -/
def run0 : State := State.reset.put (clkStatRstate 0) 1

/-- A 64-byte command with an opcode, else zeros. -/
def cmdOf (op : Nat) : List Byte := BitVec.ofNat 8 op :: List.replicate 63 0

/-- A waiting command of queue 0. -/
def liveWith (op : Nat) : Live := { id := 7, q := 0, bytes := cmdOf op }

/-- Region 0 with one waiting command. -/
def hubWith (op : Nat) : State := run0.setHub 0 { live := [liveWith op] }

/-- A dispatched command of queue 0. -/
def liveAt (op : Nat) : Live := { id := 7, q := 0, bytes := cmdOf op, st := .dispatched, disp := 1 }

/-- Region 0 with one dispatched command in the FIFO of a unit. -/
def atUnit (op key : Nat) : State := run0.setHub 0 { live := [liveAt op], fifo := [(key, [7])] }

/-- An abort of tag 0 on queue 0 at the hub, and a waiting command with that tag. -/
def abortState : State :=
  run0.setHub 0 { live := [liveAt 0x04, { id := 9, q := 0, bytes := cmdOf 0x01 }], fifo := [(1, [7])] }

/-- An abort from queue 0 at queue 4. -/
def abortHighLive : Live := { liveAt 0x04 with bytes := BitVec.ofNat 8 0x04 :: (List.replicate 47 0 ++ [4] ++ List.replicate 15 0) }
def abortHigh : State := run0.setHub 0 { live := [abortHighLive], fifo := [(1, [7])] }

/-- Region 0 with its first cluster in a given state. -/
def clusterState (c : Cluster) : State := (run0.setHub 0 { live := [liveAt 0x20] }).setCluster 0 0 c

/-- A cluster whose MXE drains one entry, and one that owes a terminator. -/
def draining : Cluster := { mxe := some { cmd := some 7, stream := 0, drain := [{ stream := 0, last := true }], res := {} } }
def owing : Cluster := { owed := [(3, terminator 0 0 0 0)] }

/-- The cells of a memory that holds the given bytes from address `a` on. -/
def cellsAt (a : Nat) (l : List (Nat × Nat)) : Tab Byte := l.map (fun e => (a + e.1, BitVec.ofNat 8 e.2))

/-- A command with an operand address. -/
def cmdWith (op a : Nat) : List Byte :=
  BitVec.ofNat 8 op :: (List.replicate 39 0 ++ (List.range 8).map (fun i => BitVec.ofNat 8 (a / 256 ^ i)) ++ List.replicate 16 0)

/-- A dispatched command of queue 0 with an operand address, in step 0. -/
def liveTo (op a : Nat) : Live := { id := 7, q := 0, bytes := cmdWith op a, st := .dispatched, disp := 1 }

/-- Region 0 with such a command in the FIFO of a unit, and a memory. -/
def unitState (op key a : Nat) (m : Tab Byte) : State := { (run0.setHub 0 { live := [liveTo op a], fifo := [(key, [7])] }) with mem := m }

/-- The product of one bfloat16 element, 1.0, with another, 2.0, described at the start of cluster 0's scratchpad. -/
def mxeCells : Tab Byte := cellsAt (scratchBase 0 0) [(1, 1), (5, 8), (9, 2), (13, 8), (0x28, 1), (0x2C, 1), (0x30, 1), (0x38, 1), (0x3C, 1), (0x44, 16), (0x46, 16), (0x48, 8),
  (0x49, 8), (0x100, 0x80), (0x101, 0x3F), (0x201, 0x40)]

/-- The first cluster with that product waiting. -/
def mxeState : State := unitState 0x20 100 (scratchBase 0 0) mxeCells
def mxeLive : Live := liveTo 0x20 (scratchBase 0 0)

/-- A COPY of one binary32 element, described at the start of cluster 0's scratchpad. -/
def veCells : Tab Byte := cellsAt (scratchBase 0 0) [(1, 2), (5, 8), (8, 9), (0xC, 1), (0x10, 1), (0x14, 1), (0x81, 4), (0x85, 8), (0x88, 9), (0x8C, 1),
  (0x90, 1), (0x94, 1), (0xC0, 1), (0xC2, 9), (0x202, 0x80), (0x203, 0x3F)]
def veState : State := unitState 0x30 200 (scratchBase 0 0) veCells
def veLive : Live := liveTo 0x30 (scratchBase 0 0)
def veDesc : List Byte := tabRange 0 veCells (scratchBase 0 0) 256
/-- The same command begun, and a producer that waits for the others. -/
def veRunning (p : Nat) : State := veState.setCluster 0 0 { ve := some { cmd := 7, desc := veDesc, phase := p } }

/-- A slice of state `st`, one UPE update on it in step 0, and the verdict `v` of step 0. -/
def upeState (st v : Nat) : State :=
  ((({ (run0.setHub 0 { live := [liveAt 0x40] }) with mem := cellsAt 0x1000 [(0x14, st)] }).puts [(dfSliceTableAddr 0, 0x1000), (dfSliceTableN 0, 1)]).setUpe 0 0
    { run := some { cmd := 7, ud := List.replicate 256 0 } }).setFlow 0 { scanned := [(0, 1)], verds := [(0, { v := v, clip := 0, scale := 0, used := 0 })] }

/-- A pannier command whose descriptor at 0x4000 names 64 bytes from 0x1000 on, with an area of 4 MiB and entries. -/
def panState (op : Nat) (es : List PanEntry) : State :=
  ((unitState op 310 0x4000 (cellsAt 0x4000 [(9, 0x10), (0x10, 0x40)])).put (panBudgetBudget 0) 0x400000).setPan 0 { entries := es }
def panEntry0 : PanEntry :=
  { layer := 0, mb := 0, seg := 0, bytes := 64, st := .stored 0x1000, anchor := false, rprog := 0, rprogN := 0, anchorPatch := 0, destPatch := 0 }

/-- A PRED_RUN over a given list whose pair, number 3, has ended OK. -/
def predState : State :=
  (run0.setHub 0 { live := [liveAt 0x60], subs := [(3, {})] }).setCluster 0 0
    { pred := some { cmd := 7, prd := List.replicate 128 0, stage := 1, useList := true, sub := some 3 } }

/-- PRED_EXPAND of one binary32 column into column 1 of two. -/
def expandCells : Tab Byte := cellsAt (scratchBase 0 0) [(1, 0x10), (9, 0x20), (0x11, 0x30), (0x18, 1), (0x1C, 2), (0x20, 1), (0x24, 9), (0x25, 1)]
def expandState : State := unitState 0x61 400 (scratchBase 0 0) ((0x3000, 1) :: expandCells)
def expandLive : Live := liveTo 0x61 (scratchBase 0 0)
def expandDesc : List Byte := tabRange 0 expandCells (scratchBase 0 0) 64

/-- A command that asks to retire OK with a record in ring 0, and its record in flight. -/
def reqOk : Req := { cmd := some 7, q := 0, disp := 1, cq := 0, tag := 0, ts := false, noCq := false, res := {} }
def retiring : State := (run0.puts [(cqCtrlLog2N 0 0, 6), (cqCtrlEnable 0 0, 1)]).setHub 0 { live := [liveAt 0x01], reqs := [reqOk] }
def recOk : RecWrite := { cmd := some 7, q := 0, cq := some 0, addr := 0, bytes := List.replicate 32 0, status := 0, event := false }
def recording : State := run0.setHub 0 { live := [liveAt 0x01], writes := [recOk] }

/-- A command that waits for 1 of token 0. -/
def waitLive : Live := { id := 7, q := 0, bytes := BitVec.ofNat 8 0x01 :: (List.replicate 15 0 ++ [0, 0x60] ++ List.replicate 46 0) }
def waiting : State := run0.setHub 0 { live := [waitLive] }

/-- A looping program on q4 at its wrap point. -/
def looping : State := ((run0.puts [(qCtrlProg 0 4, 1), (qCtrlLoop 0 4, 1), (qCtrlEnable 0 4, 1)]).setHub 0 { atWrap := [4] }).setFlow 0 { done := 1 }

/-- Start-up past step 13, and a staged image of 1024 zero bytes. -/
def booted : State := run0.put bootStatusStep 14
def loadState : State := booted.put bsLenLen 1024

/-- A channel of region 0 with a job, and one with a transfer in progress. -/
def fillDesc : List Byte := tabRange 0 (cellsAt 0x4000 [(0, 1), (0x11, 0x50), (0x18, 1)]) 0x4000 64
def jobState : State :=
  (((run0.setHub 0 { live := [liveTo 0x10 0x4000] }).put (chShareShareCap 0 0) 256).setChan 0 0 { fifo := [{ addr := 0x4000, cmd := some 7 }] })
def descCells : Tab Byte := cellsAt 0x4000 [(0, 1), (0x11, 0x50), (0x18, 1), (0x1001, 0x60), (0x1008, 0x40)]
def descState : State := { jobState with mem := descCells }
def xferOn (x : Xfer) : State := jobState.setChan 0 0 { xfer := some x }
def xfer0 : Xfer := { id := 0, job := { addr := 0x4000, cmd := some 7 }, desc := fillDesc, list := [{ off := 0, addr := 0x6000, len := 64 }], total := 64 }
def xferBar : Xfer := { xfer0 with next := 64, started := 1, barWait := true }
def partialState : State := { run0 with bs := { run0.bs with part := some { secs := [], digest := [], seq := 0, affected := [] } } }

/-- One message in flight, and region 0 parked. -/
def ringWith (m : Msg) : State := { run0 with ring := [m], waiters := [(3, .dmaAck 0 0 0)] }
def parkedRegion (s : State) : State := s.put (clkStatRstate 0) 4
def msgWr : Msg := { cls := 0, src := 32, dst := 0, ackReq := true, len := 8, addr := 0x1000, data := List.replicate 8 1 }
def msgRd : Msg := { cls := 1, src := 32, dst := 0, len := 8, addr := 0x1000 }
def msgAt : Msg := { cls := 3, src := 32, dst := 0, addr := llmBase, step := 1, data := [5, 0, 0, 0] }
def atomicState : State := { run0 with ring := [msgAt], units := [(0, 2)] }
def msgRsp : Msg := { cls := 2, src := 0, dst := 32, mtag := 3 }
def msgAck : Msg := { cls := 5, src := 0, dst := 32, ackSlot := 3 }
def msgAdd : Msg := { cls := 4, src := 32, dst := 0, addr := 0x1000, len := 4, data := [0, 0, 0, 0], srcMap := [(32, 0)] }
def msgAddPd : Msg := { msgAdd with src := 0, dst := 32 }
/-- An add for the stream of tensor 1 while every page of the port die collects another tensor. -/
def msgAddStream : Msg := { msgAddPd with addr := 1 }
def otherPage : Page := { pd := 0, tensor := 9, off := 0, step := 0, pw16 := false, data := [], count := 0, st := 1 }
def msgSig : Msg := { cls := 6, src := 32, dst := 0, token := 1, scount := 1 }
def msgNote : Msg := { cls := 7, src := 32, dst := 0 }
def msgVote : Msg := { cls := 8, src := 0, dst := 33, count := 1 }
def msgVer (dst : Nat) : Msg := { cls := 9, src := 33, dst := dst }
def msgDrl : Msg := { cls := 0xA, src := 32, dst := 0 }
def refusedState : State := run0.setHub 0 { unsettled := [{ cmd := 7, q := 0, region := 0, token := 1, count := 1 }] }
def heldState : State := run0.setStop 32 { held := [msgWr] }

/-- A released slice of one binary32 zero with a descriptor of zeros; a voter past step 0 without slices; a step with one vote. -/
def scanState : State :=
  { run0 with mem := cellsAt 0x1000 [(1, 0x20), (8, 4), (0x14, 1), (0x19, 0x30)] }.puts [(dfSliceTableAddr 0, 0x1000), (dfSliceTableN 0, 1)]
def votingState : State := { run0 with bs := { run0.bs with loaded := true, use := [(0, 1)] } }.put (hubStepCntStep 0) 1
def tallied : State := { run0 with gate := { run0.gate with tally := [(0, { count := 1, voters := [0] })] } }
def lostRun : State := { run0 with drl := some { table := 0, armed := false, named := [0, 1], fencedAt := [], entries := [
  { src := 0, srcOff := 0, dst := 1, dstOff := 0, len := 64, group := 0, cycle := false }] } }

/-- A cool region with a thermal target of 1300 MHz; a region that is parking; parked regions, one cool with headroom and one hot. -/
def coolState : State := updPlant (run0.puts [(thermCtrlTjThrottle 0, 105), (stkThermLimit 0, 95)]) 0 (fun p => { p with thermMhz := some 1300 })
def parkingState : State := run0.puts [(clkStatRstate 0, 2), (clkStatParkTherm 0, 1), (clkStatParkCuff 0, 1)]
def parkedCool : State := run0.puts [(clkStatRstate 0, 3), (clkStatParkTherm 0, 1)]
def parkedHot : State := (run0.puts [(clkStatRstate 0, 3), (clkStatParkTherm 0, 1)]).put (tmonT 0 0) 2000

/-- Draws: none, a full segment, over the module's cuff. A region that awaits admission, with and without the quarter slope; region 0 on at
2000 MHz; region 0 parked for a cuff. -/
def draw0 : Draws := { regions := [], segs := [], segPeaks := [], input := 0 }
def drawFull : Draws := { regions := [], segs := [], segPeaks := [4500], input := 0 }
def drawOver : Draws := { regions := [], segs := [], segPeaks := [], input := 60000 }
def awaiting : State := run0.put (pwrStatPstate 1) 1
def quartering : State := awaiting.put (pwrStatQuarter 1) 1
/-- The same with region 0 cut; region 0 above what the cut leaves, in a full segment. -/
def quarterCut : State := updPlant quartering 0 (fun p => { p with cut := 50 })
def drawOne : Draws := { drawFull with regions := [750] }
def rampedUp : State := run0.puts [(pwrStatPstate 0, 3), (clkStatRootMhz 0, 2000)]
def cuffParked : State := { run0.puts [(clkStatRstate 0, 3), (clkStatParkCuff 0, 1), (pwrParkedParked, 1)] with parkOrder := [0] }

/-- A hub that drains, before and after its strike; a rerun of step 0 whose one voter has reported. -/
def drainingHub (struck : Bool) : State := run0.setHub 0 { draining := true, drainStruck := struck }
def rerunning : State :=
  { run0 with bs := { run0.bs with loaded := true, use := [(0, 1)] }, gate := { run0.gate with rerun := some 0, drained := [0] } }

/-- A seam of regions 0 and 1 with parity on 2; the rebuild of region 1, fenced, on the spare 0. -/
def seam0 (st : Nat) : Seam := { members := [1, 3], pa := 2, pb := 4, off := 0, len := 0x100000, st := st }
def seamed (st : Nat) : State := { run0 with seams := [(0, seam0 st)] }
def rebuilding : State :=
  { (seamed 2) with bs := { run0.bs with loaded := true, use := [(0, 2), (1, 1), (2, 1), (3, 1), (4, 1)] } }.puts [(seamCtrlRbEn, 1), (fencedMask, 2)]

/-- A snapshot that is due, with a usable peer of class S, and step 0 committed; a chain of one object. -/
def snapping : State :=
  (({ run0 with
    ckptKey := some (List.replicate 32 0), snaps := { run0.snaps with due := true }, bs := { run0.bs with loaded := true, use := [(0, 1)] } }.put snapCtrlSnapEn 1).setPeer 0
      { entry := [1, 2] ++ List.replicate 62 0 }).setFlow 0 { verds := [(0, { v := 1, clip := 0, scale := 0, used := 0 })] }
def chained : State := run0.setChain 0 { objs := [{ kind := 0, step := 3, digest := [], off := 0, entries := [] }] }

/-- Port 0 of class H with its link up, peer 0 on it, and a memory region of the first megabyte, readable and writable by class H. -/
def netState : State :=
  ({ run0 with bs := { run0.bs with loaded := true, use := [(0, 1)], secs := [(3, tabRange 0 (cellsAt 0 [(256, 1), (270, 0x10), (276, 3), (277, 1)]) 0 292)] } }.puts
    [(portCfgClass 0 0, 1), (portStatLink 0 0, 1), (portCfgPrioBulk 0 0, 3), (rdmaKeysKeyNonce, 0)]).setPeer 0 { entry := [1, 1] ++ List.replicate 62 0 }
def src0 : PktSrc := { port := 0, half := false, qpn := 0x1000, ip := List.replicate 16 0 }
def frame0 : Frame :=
  { fcsOk := true, sec := none, pcp := none, dscp := 0, ce := true, icrcOk := true, src := src0, bytes := List.replicate 64 0, drained := 0 }
def req0 : QpReq := { op := 0, addr := 0, len := 64, data := [], use := .tail }
def asking : State := netState.setPeer 0 { (netState.peer 0) with out := [req0] }
def eventful : State :=
  { netState.puts [(evtCfgEvtEn, 1), (evtCfgLog2N, 6)] with evbuf := [{ kind := 1, src := 0, time := 0, timeValid := false, payload := [] }] }

/-- Port 0 of class W with peer 0 and a valid stream of tensor 1 in step 2 that awaits a rerun, tensor 1 on the first 4 KiB of region 0. -/
def skojo : State :=
  (({ run0 with bs := { run0.bs with loaded := true, use := [(0, 1)], secs := [(4, tabRange 0 (cellsAt 0 [(4, 1), (8, 1), (25, 0x10)]) 0 40)] } }.puts
    [(portCfgClass 0 0, 3), (portStatLink 0 0, 1)]).setPeer 0 { entry := [1, 3] ++ List.replicate 62 0 }).setStrm 0
      { entry := tabRange 0 (cellsAt 0 [(0, 1), (6, 1), (0x10, 2), (0x18, 4)]) 0 32, waitOpen := false, curSet := true, afterFail := true }
def pagesFull : State := { skojo with ring := [msgAddStream], pages := List.replicate 16384 otherPage }
def skHdr (ty : Nat) : List Byte := tabRange 0 (cellsAt 0 [(0, 0x53), (1, 0x4B), (2, 1), (3, ty), (8, 2), (0x10, 1)]) 0 64
def skPush : List Byte := tabRange 0 (cellsAt 0 [(0, 0x53), (1, 0x4B), (2, 1), (3, 2), (5, 0x10), (8, 2), (0x10, 1)]) 0 64
def pushing : State := { skojo with pages := [{ pd := 0, tensor := 1, off := 0, step := 0, pw16 := false, data := List.replicate 4096 0, count := 1, st := 2 }] }

/-- Bay 3 with a cassette of a given state and phase; an overheated one held dark. -/
def bayAt (st phase : Nat) : State := (booted.puts [(casStatPresent 1 1, 1), (bayStateF 3, st)]).setBay 3 { phase := phase }
def hotBay (t : Nat) : State := (bayAt 3 0).puts [(casStatDarkReason 1 1, 5), (casStatTemp 1 1, t)]
/-- Every region follows a sprint entry with the saving of the subnormal path. -/
def subIdle : State := { run0 with bs := { run0.bs with loaded := true, use := [(0, 1)], secs := [(5, tabRange 0 (cellsAt 0 [(26, 1)]) 0 64)] } }

/-- A meter with an OPEN of account 7 scheduled, one without power, and one with something to send. -/
def scheduled (e : Nat) : State := { run0 with meter := { run0.meter with sched := some { epoch := e, account := 7 } } }
def unpowered : State := { run0 with meter := { run0.meter with on := false } }
def sending (ty : Nat) : State := { booted with meter := { booted.meter with tx := [(ty, List.replicate 128 0)] } }

/-- A firmware activation that waits for no hub; an armed injection. -/
def activatingState : State := { State.reset.put fwUpdateFwBusy 1 with activating := true }
def armedState (n : Option Nat) : State := { run0 with inj := some { code := 0x0201, mode := 2, stop := 0, unit := 0, value := 0, left := n } }

/-- A sealed module, and one with a record in its error queue. -/
def sealedState : State := run0.put secStateOwnState 2
def oneError : State := raiseErr run0 0x0105 0 0 0 none 0 0
/-- A lit cassette in bay 3 with a rated life of 1000 and a given use. -/
def worn (n : Nat) : State := (bayAt 2 0).puts [(casDriveDrive 1 1, 100), (casLifeRatedCh 1 1, 1000), (casLifeLifeCh 1 1, n)]
/-- What a meter that takes another's place brings, all zeros. -/
def meter0 : NewMeter := {
  serial := 0, mfgDate := 0, pubkey := List.replicate 384 0, certSig := List.replicate 384 0, lrDigest := List.replicate 32 0
  paramDigest := List.replicate 32 0, version := 0, taNumber := List.replicate 32 0, epoch := 0, utc := 0, total := 0, log := [], logNext := 0 }

/-! ### Ill-formed operands are refused, one for each check -/

/-- Readings and draws of the lengths of R346 and R337, and variants. -/
def readings (a b c d : Nat) : Readings :=
  { temps := List.replicate a 0, volts := List.replicate b 0, freqs := List.replicate c 0, stack := List.replicate d 0 }
def draws (a b c : Nat) : Draws := { regions := List.replicate a 0, segs := List.replicate b 0, segPeaks := List.replicate c 0, input := 0 }
def badSrc : PktSrc := { src0 with ip := [] }

theorem test_wf_flit : (Instr.flitReceive 0 0 false (List.replicate 511 0) 0).wf = false ∧ (Instr.flitReceive 0 0 false (List.replicate 512 0) 0).wf = true := by
  decide +kernel

theorem test_wf_readings : (Instr.monitorSample 0 (readings 16 8 4 4)).wf = true ∧ (Instr.monitorSample 0 (readings 15 8 4 4)).wf = false ∧
    (Instr.monitorSample 0 (readings 16 7 4 4)).wf = false ∧ (Instr.monitorSample 0 (readings 16 8 3 4)).wf = false ∧
    (Instr.monitorSample 0 (readings 16 8 4 5)).wf = false := by decide

theorem test_wf_draws : (Instr.cuffEnforce (draws 32 8 8)).wf = true ∧ (Instr.cuffEnforce (draws 31 8 8)).wf = false ∧
    (Instr.unpark (draws 32 7 8)).wf = false ∧ (Instr.quarter 0 (draws 32 8 9)).wf = false := by decide

theorem test_wf_mode : (Instr.reqModeWrite 3).wf = false ∧ (Instr.reqModeWrite 2).wf = true := by decide

theorem test_wf_origin : (Instr.send badSrc []).wf = false ∧ (Instr.send src0 []).wf = true ∧ (Instr.rdmaRead badSrc 0 0 0).wf = false ∧
    (Instr.frameReceive 0 0 { frame0 with src := badSrc }).wf = false := by decide

theorem test_wf_entries : (Instr.peerEntryWrite 0 4 (List.replicate 8 0)).wf = false ∧ (Instr.peerEntryWrite 0 0 (List.replicate 7 0)).wf = false ∧
    (Instr.peerEntryWrite 0 60 (List.replicate 8 0)).wf = false ∧ (Instr.streamEntryWrite 0 0 24 (List.replicate 16 0)).wf = false ∧
    (Instr.streamEntryWrite 0 0 24 (List.replicate 8 0)).wf = true := by decide

theorem test_wf_messages : (Instr.stepOpen 0 []).wf = false ∧ (Instr.credit 0 (List.replicate 64 0)).wf = true ∧ (Instr.wtPush 0 (List.replicate 63 0) []).wf = false := by
  decide

theorem test_wf_meter : (Instr.meterOpen []).wf = false ∧ (Instr.meterRead []).wf = false ∧ (Instr.swChange [] (List.replicate 32 0) 0).wf = false ∧
    (Instr.cassetteAuthenticated 0 { answers := true, cert := [], lifeCh := 0, response := [] }).wf = false := by decide

theorem test_wf_incoming : (Instr.powerUp ⟨0, false, some meter0⟩).wf = true ∧ (Instr.powerUp ⟨0, false, none⟩).wf = true ∧
    (Instr.powerUp ⟨0, false, some { meter0 with serial := 2 ^ 64 }⟩).wf = false ∧ (Instr.powerUp ⟨0, false, some { meter0 with version := 2 ^ 48 }⟩).wf = false ∧
    (Instr.powerUp ⟨0, false, some { meter0 with pubkey := [] }⟩).wf = false ∧ (Instr.powerUp ⟨0, false, some { meter0 with certSig := [] }⟩).wf = false ∧
    (Instr.powerUp ⟨0, false, some { meter0 with lrDigest := [] }⟩).wf = false ∧ (Instr.powerUp ⟨0, false, some { meter0 with paramDigest := [] }⟩).wf = false ∧
    (Instr.powerUp ⟨0, false, some { meter0 with taNumber := [] }⟩).wf = false ∧
    (Instr.powerUp ⟨0, false, some { meter0 with log := [(1, List.replicate 128 0)] }⟩).wf = false ∧
    (Instr.powerUp ⟨0, false, some { meter0 with log := [(0, [])], logNext := 1 }⟩).wf = false := by decide +kernel

theorem test_wf_prov : (Instr.provWrite 0 []).wf = false ∧ (Instr.provWrite 2 [List.replicate 64 0]).wf = false ∧ (Instr.provWrite 1 [List.replicate 63 0]).wf = false ∧
    (Instr.provWrite 1 [List.replicate 64 0]).wf = true := by decide

/-! ### The table gives no row any bits -/

theorem test_no_bits : decodeTableWord 32 0 = none ∧ run0.withFetchWord 32 5 = run0 := ⟨rfl, rfl⟩

/-! ### Worked examples of the spec -/

/-- The pool of 01's worked example: 64 GiB to 112 GiB on all 32 regions. -/
def pooled : State := { run0 with bs := { run0.bs with loaded := true, secs := [(1, [64, 112, 0, 0, 0xFF, 0xFF, 0xFF, 0xFF])] } }

/-- 01, worked example: the byte at 0x70_0000_5123 is stored in rg05.m at offset 0x11_2000_0123, the next page's in rg06.m. -/
theorem test_pool_example : interleave pooled 0x7000005123 = stackBase 5 + 0x1120000123 ∧ interleave pooled 0x7000006123 = stackBase 6 + 0x1120000123 := by
  decide +kernel

/-- 03, worked conversion: the binary32 value nearest 0.3 becomes PW16 0x3E9A. -/
theorem test_pw16_example : toPw16 0x3E99999A = 0x3E9A := by decide +kernel

/-- 03, worked scale and quantisation: with scale 1.5 a block amax of 45 gives e = −3, and 7.3 (0x40E9999A) becomes 0x62; a block amax of 400
is held at e = 0; an amax of 400 gives the scale 0x3FD55555. -/
theorem test_quant_example : blockExp .pw8 0x3FC00000 0x42340000 = -3 ∧ (quantElem .pw8 0x3FC00000 (-3) 0x40E9999A).1 = 0x62 ∧
    blockExp .pw8 0x3FC00000 0x43C80000 = 0 ∧ scaleFor .pw8 0x43C80000 = 0x3FD55555 ∧ scaleFor .pw8 0x43B40000 = 0x3FC00000 := by decide +kernel

/-- 03, worked split master: 0x3E99999A splits into 0x3E9A and 0x999A, which hold it exactly. -/
theorem test_split_example : splitMaster 0x3E99999A = some (0x3E9A, 0x999A) ∧ masterOf 0x3E9A 0x999A = 0x3E99999A := by decide +kernel

/-- 22, worked example: the four addresses of registers. -/
theorem test_register_addresses : (cqHeadHead 21 3).addr = 0x0E00161010D8 ∧ (tokenValue 0 4095).addr = 0x0E0001117FF8 ∧
    (chShareShareCap 3 63).addr = 0x0E0004403F08 ∧ dAddr 1 (0x200000 + 0x40 * 476) = 0x0E0041207700 := by decide

/-- 08, worked example: the slice of rg05.b, and a byte of its accumulator-buffer partition against one of its cache. -/
def sliced : State := { run0 with units := (List.range 8).map (fun i => (11 * 16 + 4 + i, 3)) }
theorem test_slice_example : llmBase + 11 * 0x8000000 = 0x0C0058000000 ∧ homeOf sliced 0x0C0058000000 = none ∧
    homeOf sliced 0x0C005A000000 = some 0x0C005A000000 ∧ homeOf sliced 0x0C005DFFFFFF = some 0x0C005DFFFFFF ∧ homeOf sliced 0x0C005E000000 = none := by
  decide +kernel

/-- 14, worked example: `EOL_WARN` sets at `LIFE_CH` = 3 600 000 of a rated 40 000 hours. -/
theorem test_eol_example : ((settleLife ((bayAt 2 0).puts [(casLifeRatedCh 1 1, 4000000), (casLifeLifeCh 1 1, 3600000)]) 3).on (casStatEolWarn 1 1)) = true ∧
    ((settleLife ((bayAt 2 0).puts [(casLifeRatedCh 1 1, 4000000), (casLifeLifeCh 1 1, 3599999)]) 3).on (casStatEolWarn 1 1)) = false := by decide +kernel

/-- 21, worked example: a device address in rg06 at stack offset 0x100040. -/
theorem test_inject_address : regionOf 0xC000100040 = 6 ∧ stackBase 6 = 0xC000000000 := by decide

/-- 18, worked example: with AN 1 installed, the switch transmits on it, and 10 s later AN 0's key is gone. -/
def switched : State :=
  match execTxSwitch 20 ⟨0, 1⟩ (run0.setSec 20 0 { rx := [(0, []), (1, [])], tx := some 0, next := [1] }) with
  | .next t => t
  | _ => run0
theorem test_rollover_example : (switched.sec 20 0).tx = some 1 ∧ (tabFind 0 (switched.sec 20 0).rx).isSome = true ∧
    (match execRxKeyErase 20 ⟨0, 0⟩ switched with | .next u => ((tabFind 0 (u.sec 20 0).rx).isSome, (tabFind 1 (u.sec 20 0).rx).isSome) | _ => (true, false)) =
      (false, true) := by decide +kernel

/-! ### Published check values -/

/-- The check value of CRC-32C: the digits 1 to 9. -/
theorem test_crc32c : crc32c (ascii "123456789") = 0xE3069283 := by decide +kernel

/-- FIPS 180-4: the digest of "abc". -/
theorem test_sha256 : beNat (sha256 (ascii "abc")) = 0xBA7816BF8F01CFEA414140DE5DAE2223B00361A396177A9CB410FF61F20015AD := by decide +kernel

/-! ### Corners -/

/-- R63: quantisation saturates an infinity-sized element to the largest finite magnitude, with its sign. -/
theorem test_quant_saturates : (quantElem .pw8 0x3F800000 0 0xC4000000).1 = 0x80 + fmtMax .pw8 ∧ (quantElem .pw8 0x3F800000 0 0xC4000000).2.2 = true := by decide +kernel

/-- R62: round to nearest, ties to even. -/
theorem test_ties_to_even : toPw16 0x3F808000 = 0x3F80 ∧ toPw16 0x3F818000 = 0x3F82 := by decide +kernel

/-- R435: a pop leaves the record in place while events are enabled. -/
theorem test_errPop : (match execErrPop oneError with | .next t => t.errq.length | _ => 9) = 0 ∧
    (match execErrPop (oneError.put evtCfgEvtEn 1) with | .next t => t.errq.length | _ => 9) = 1 := by decide +kernel

/-- R434: a second record of the same code, source, unit and step is counted into the first. -/
theorem test_errMerge : ((raiseErr oneError 0x0105 0 0 0 none 0 7).errq.map (fun r => (r.count, r.d1))) = [(2, 7)] := by decide +kernel

/-- R412: the first entry of the meter's log stays while there is room. -/
theorem test_firstEntryStays : (tabFind 0 (logPlain (logPlain {} 3 0 []) 4 0 []).log).isSome = true := by decide +kernel

/-! ### Witnesses for `Obligations.QueueRegisterWritesTakeEffect` -/

theorem wit_queueRegisters : running run0 0 = true ∧ run0.get (qCtrlProg 0 0) = 0 ∧ run0.get (qCtrlEnable 0 0) = 0 ∧
    (run0.hub 0).live = [] ∧ inside 0 65536 (stackBase 0) 0x2000000000 = true ∧ built run0 0 = true := by decide

/-! ### Witnesses for `Obligations.CompletionQueueRegisterWritesTakeEffect` -/

theorem wit_completionRegisters : running run0 0 = true ∧ run0.get (cqCtrlEnable 0 0) = 0 ∧ 6 ≤ field 0x601 8 5 ∧ field 0x1001 8 5 ≤ 16 ∧ bitAt 0x601 0 = true ∧
    inside 0 (32 * 2 ^ run0.get (cqCtrlLog2N 0 0)) (stackBase 0) 0x2000000000 = true := by decide

/-! ### Witnesses for `Obligations.CommandsAreFetchedAndDispatched` -/

theorem wit_fetch : canFetch (run0.puts [(qCtrlEnable 0 0, 1), (qTailTail 0 0, 1)]) 0 0 = true ∧ run0.get (qCtrlProg 0 0) = 0 := by decide

theorem wit_fetchReads : (readMem run0 { region := 0, step := none } 0 64).1 = .ok (List.replicate 64 0) := by rfl

theorem wit_dispatch : (queueTurn ((hubWith 0x01).hub 0).lastQ).findSome? (ready (hubWith 0x01) 0) = some (liveWith 0x01) ∧
    dispatchCheck (hubWith 0x01) 0 (liveWith 0x01).bytes = none := by decide

theorem wit_handOver : handOvers ((atUnit 0x10 1000).hub 0) = [(0, liveAt 0x10)] := by decide

/-! ### Witnesses for `Obligations.HubCommandsRetireWithTheirEffect` -/

theorem wit_hubNop : hubTurn (atUnit 0x01 0) 0 0x01 = some (liveAt 0x01) := by decide

theorem wit_hubToken : hubTurn (atUnit 0x02 0) 0 0x02 = some (liveAt 0x02) := by decide

theorem wit_hubStep : hubTurn (atUnit 0x03 0) 0 0x03 = some (liveAt 0x03) ∧ loopQueues (atUnit 0x03 0) 0 = [] ∧
    (atUnit 0x03 0).get (hubStepCntStep 0) ≤ ((atUnit 0x03 0).flow 0).done ∧
    ((atUnit 0x03 0).flow 0).done < ((atUnit 0x03 0).put (hubStepCntStep 0) 1).get (hubStepCntStep 0) ∧ loopQueues looping 0 ≠ [] := by decide +kernel

theorem wit_hubAbortBarred : hubTurn abortHigh 0 0x04 = some abortHighLive ∧ abortHighLive.q < 4 ∧ 4 ≤ getLe abortHighLive.bytes 0x30 1 % 8 := by decide +kernel

theorem wit_hubAbort : hubTurn abortState 0 0x04 = some (liveAt 0x04) ∧ getLe (liveAt 0x04).bytes 0x30 1 % 8 < 4 ∧ getLe (liveAt 0x04).bytes 0x31 1 = 0 := by decide

theorem wit_hubAbortHits : (strikeAll 0 (targetsOf (fifoPop abortState 0 1) 0 0 (some 0)) ([], [], fifoPop abortState 0 1)).1 = [9] := by decide

/-! ### Witnesses for `Obligations.MxeCommandsDrainTheirProduct` -/

theorem wit_mxe : mxeTurn mxeState 0 0 0x20 = some mxeLive ∧ mxeTurn (atUnit 0x21 100) 0 0 0x21 = some (liveAt 0x21) ∧
    mxeTurn (atUnit 0x22 100) 0 0 0x22 = some (liveAt 0x22) := by decide +kernel

theorem wit_mxeProduct : (mxeCommand mxeState (acctOf 0 mxeLive) 0 0 0x20 0 0 (opAddr mxeLive.bytes) id).1.held = none ∧
    (mxeCommand mxeState (acctOf 0 mxeLive) 0 0 0x20 0 0 (opAddr mxeLive.bytes) id).1.status = stOk ∧
    (mxeCommand mxeState (acctOf 0 mxeLive) 0 0 0x20 0 0 (opAddr mxeLive.bytes) id).1.entries.map (·.rows) = [1] := by decide +kernel

/-! ### Witnesses for `Obligations.FinishedTilesEnterTheQueue` -/

theorem wit_tilePush : running (clusterState draining) 0 = true ∧ ((clusterState draining).cluster 0 0).tq.length < 16 ∧
    (some 7 : Option Nat).bind (findLive ((clusterState draining).hub 0)) = some (liveAt 0x20) ∧ fifoOf (clusterState owing) 0 100 = [] ∧
    ((clusterState owing).cluster 0 0).pred = none := by decide

/-! ### Witnesses for `Obligations.VeCommandsExecute` -/

theorem wit_veStart : running veState 0 = true ∧ (veState.cluster 0 0).ve = none ∧ (veState.cluster 0 0).pred = none ∧
    fifoHead veState 0 200 = some veLive ∧ opAddr veLive.bytes % 64 = 0 ∧
    inPad 0 0 (opAddr veLive.bytes) 256 = true ∧ vdOk (vdOf veDesc) 0 = true ∧ vdPlaces veState 0 0 (vdOf veDesc) = true ∧
    (vdOf veDesc).out0.scaled = false ∧ (vdOf veDesc).qfed = false := by decide +kernel

theorem wit_veReads : (readMem veState (acctOf 0 veLive) (opAddr veLive.bytes) 256).1.toOption = some veDesc := by decide +kernel

theorem wit_veWhole : (veWork (veRunning 0) (acctOf 0 veLive) (vdOf veDesc) 0 0 0 false).1.status = stOk ∧
    (veWork (veRunning 0) (acctOf 0 veLive) (vdOf veDesc) 0 0 0 false).1.adds = [] ∧
    (writePlans (veRunning 0) (acctOf 0 veLive) (veWork (veRunning 0) (acctOf 0 veLive) (vdOf veDesc) 0 0 0 false).1.plans).1 = none := by
  decide +kernel

theorem wit_veRelease : ((veRunning 2).cluster 0 0).ve = some { cmd := 7, desc := veDesc, phase := 2 } ∧ findLive ((veRunning 2).hub 0) 7 = some veLive ∧
    (vdHere { cmd := 7, desc := veDesc, phase := 2 }).qfed = false ∧ (vdHere { cmd := 7, desc := veDesc, phase := 2 }).srec = 0 := by decide +kernel

theorem wit_veReleaseReads : (readMem (veRunning 2) (acctOf 0 veLive) 0 320).1.toOption = some (List.replicate 320 0) ∧
    srProducers (List.replicate 320 0) ≤ getLe (List.replicate 320 0) 32 8 := by decide +kernel

/-! ### Witnesses for `Obligations.OptimizerUpdatesApplyTheVerdict` -/

theorem wit_upeCommit : running (upeState 2 1) 0 = true ∧ findLive ((upeState 2 1).hub 0) 7 = some (liveAt 0x40) ∧
    (sliceTable (upeState 2 1) 0).1.map (·.st) = [2] ∧ journalHolds (sliceTable (upeState 2 1) 0).2 0 0 = false ∧
    (sliceTable (upeState 2 1) 0).1.map (updateStep (sliceTable (upeState 2 1) 0).2 0 (liveAt 0x40)) = [0] ∧
    tabFind 0 ((sliceTable (upeState 2 1) 0).2.flow 0).verds =
      some { v := 1, clip := 0, scale := 0, used := 0 } := by decide +kernel

theorem wit_upeSkip : running (upeState 1 2) 0 = true ∧ findLive ((upeState 1 2).hub 0) 7 = some (liveAt 0x40) ∧
    (sliceTable (upeState 1 2) 0).1.map (·.st) = [1] ∧ (sliceTable (upeState 1 2) 0).1.map (updateStep (sliceTable (upeState 1 2) 0).2 0 (liveAt 0x40)) = [0] ∧
    tabFind 0 ((sliceTable (upeState 1 2) 0).2.flow 0).verds = some { v := 2, clip := 0, scale := 0, used := 0 } := by decide +kernel

/-! ### Witnesses for `Obligations.PannierCommandsActOnEntries` -/

theorem wit_panPut : panTurn (panState 0x50 []) 0 0x50 = some (liveTo 0x50 0x4000) ∧
    ((panDesc (panStarted (panState 0x50 []) 0 (liveTo 0x50 0x4000)) 0 (liveTo 0x50 0x4000)).1.toOption.map (fun b => (pdSrc b, pdBytes b))) = some (0x1000, 64) ∧
    inRegion (panState 0x50 []) 0 0x1000 64 = true ∧ panFind (panState 0x50 []) 0 0 0 = none ∧ (panFits (panState 0x50 []) 0 64).isSome = true := by
  decide +kernel

theorem wit_panPutStarts : ((panState 0x50 []).pan 0).run = none ∧ (liveTo 0x50 0x4000).barred = false ∧
    panFits { panState 0x50 [] with pans := [] } 0 (2 ^ 41) = none ∧ panFind (panState 0x50 [panEntry0]) 0 0 0 = some panEntry0 := by decide +kernel

theorem wit_panDone : panEntry0.st = .stored 0x1000 ∧ ({} : Res).status = stOk ∧ running (panState 0x50 []) 0 = true ∧
    findLive ((panState 0x50 []).hub 0) 7 = some (liveTo 0x50 0x4000) ∧ cmdOpcode (liveTo 0x50 0x4000).bytes = 0x50 ∧
    findLive ((panState 0x51 []).hub 0) 7 = some (liveTo 0x51 0x4000) ∧ cmdOpcode (liveTo 0x51 0x4000).bytes = 0x51 := by decide +kernel

theorem wit_panGet : ((panState 0x51 [panEntry0]).pan 0).run = none ∧ panTurn (panState 0x51 [panEntry0]) 0 0x51 = some (liveTo 0x51 0x4000) ∧
    panFind (panState 0x51 [panEntry0]) 0 0 0 = some panEntry0 ∧ panDst (liveTo 0x51 0x4000) = 0 ∧ inRegion (panState 0x51 [panEntry0]) 0 0 64 = true := by
  decide +kernel

theorem wit_panFree : panTurn (panState 0x52 [panEntry0]) 0 0x52 = some (liveTo 0x52 0x4000) ∧
    (panDesc (panStarted (panState 0x52 [panEntry0]) 0 (liveTo 0x52 0x4000)) 0 (liveTo 0x52 0x4000)).1.isOk = true ∧
    dependants (panState 0x52 [panEntry0]) 0 panEntry0 = false := by decide +kernel

/-! ### Witnesses for `Obligations.PredictorCommandsComplete` -/

theorem wit_predRun : running predState 0 = true ∧ ((predState.cluster 0 0).pred.map (fun p => (p.stage, p.useList, predHeld predState 0 p.prd))) = some (1, true, false) ∧
    findLive (predState.hub 0) 7 = some (liveAt 0x60) ∧ subEnd predState 0 3 = some {} := by decide +kernel

theorem wit_predExpand : predTurn expandState 0 0 0x61 = some expandLive ∧ opAddr expandLive.bytes % 64 = 0 ∧ inPad 0 0 (opAddr expandLive.bytes) 64 = true ∧
    fmtOfCode (getLe expandDesc 0x24 1) = some .b32 ∧ getLe expandDesc 0x25 1 = 1 ∧ getLe expandDesc 0x18 4 = 1 ∧ getLe expandDesc 0x1C 4 = 2 ∧
    getLe expandDesc 0x20 4 = 1 ∧ (∀ e ∈ expandRanges expandDesc 4 1 2 1, addrOk expandState e.1 e.2 = true ∧ predAt 0 0 e.1 e.2 = true ∧ reach expandState 0 e.1 e.2 = .serve) ∧
    ((chunksOf 4 1 [1, 0, 0, 0]).map leNat).all (fun j => decide (j < 2)) = true ∧
    (predWrite expandState (acctOf 0 expandLive) 0 0 0x2000 (packElems .b32 (expand true 2 1 [1] [0]))).1 = none := by decide +kernel

theorem wit_predExpandReads : (readMem expandState (acctOf 0 expandLive) (opAddr expandLive.bytes) 64).1 = .ok expandDesc ∧
    (predRead expandState (acctOf 0 expandLive) 0 0 0x3000 4).1 = .ok [1, 0, 0, 0] := ⟨by rfl, by rfl⟩

/-! ### Witnesses for `Obligations.CommandsRetireAndBecomeVisible` -/

theorem wit_retire : running retiring 0 = true ∧ (retiring.hub 0).reqs = [reqOk] ∧ grantable retiring 0 reqOk = true ∧
    findLive ((retiring.updHub 0 (fun h => { h with reqs := h.reqs.tail })).hub 0) 7 = some (liveAt 0x01) ∧
    writesRecord (retiring.updHub 0 (fun h => { h with reqs := h.reqs.tail })) 0 reqOk = true ∧ (liveAt 0x01).disp ≠ 0 := by decide +kernel

theorem wit_visible : running recording 0 = true ∧ (recording.hub 0).writes = [recOk] ∧
    findLive ((recording.updHub 0 (fun h => { h with writes := [] })).hub 0) 7 = some (liveAt 0x01) ∧ signalsOn recOk.status = true ∧
    ((writeRecord (recording.updHub 0 (fun h => { h with writes := [] })) 0 0 recOk none 0).hub 0).draining = false := by decide +kernel

theorem wit_waitTimeout : headCmd (waiting.hub 0) 0 = some waitLive ∧
    ([0, 1, 2, 3].map (waitWord waitLive.bytes)).find? (fun w => bitAt w 13 && decide (waiting.get (tokenValue 0 (waitOf w).token) < (waitOf w).threshold)) =
      some 0x6000 ∧ queueOpen waiting 0 0 = true ∧ dispatchCheck waiting 0 waitLive.bytes = none := by decide +kernel

/-! ### Witnesses for `Obligations.StepCounterAdvances` -/

theorem wit_stepIncrement : loopers looping 0 = [4] ∧ (looping.hub 0).atWrap = [4] ∧ (looping.hub 0).draining = false ∧
    looping.on (resStatRerunHold 0) = false ∧ looping.get (hubStepCntStep 0) ≤ (looping.flow 0).done ∧
    ((advanceStep (looping.put (dfStatusAheadStall 0) 0) 0).hub 0).stepLimit = 0 ∧
    aheadOf (((loopers looping 0).foldl (fun s q => s.put (qPassesPasses 0 q) (s.get (qPassesPasses 0 q) + 1))
      (advanceStep (looping.put (dfStatusAheadStall 0) 0) 0)).updHub 0 (fun h => { h with atWrap := [] })) 0 = false := by decide +kernel

/-! ### Witnesses for `Obligations.LoadsReplaceThePlanInForce` -/

theorem wit_load : loadState.rootLost = false ∧ 13 ≤ loadState.get bootStatusStep ∧ loadBusy loadState = false ∧ loadState.on fwUpdateFwBusy = false ∧
    quiesced loadState = false ∧ loadState.quiescing = 0 ∧ loadState.get bsLenLen = 1024 ∧
    ((staged { loadState with loadHeld := false } 1024).1.map bhKind) = some 0 := by decide +kernel

theorem wit_partial : partialState.bs.part.isSome = true ∧ partialState.drl = none ∧ partialState.on drlCtrlArm = false ∧
    (partialState.put drlCtrlArm 1).on drlCtrlArm = true := by decide +kernel

/-! ### Witnesses for `Obligations.DmaPostsAndShares` -/

theorem wit_chPost : quiesced run0 = false ∧ blockUp run0 0 = true ∧ (run0.chan 0 0).fifo.length + (fifoOf run0 0 1000).length < 4 := by decide +kernel

/-! ### Witnesses for `Obligations.DmaTransfersRunToTheirRecord` -/

theorem wit_descStart : quiesced descState = false ∧ (descState.chan 0 0).xfer = none ∧ (descState.chan 0 0).fifo.length = 1 ∧ running descState 0 = true ∧
    descWay descState 0 { addr := 0x4000, cmd := some 7 } = .serve ∧
    (checkDesc descState (jobAcct descState 0 { addr := 0x4000, cmd := some 7 }) 0x4000).1.status = stOk ∧
    (checkDesc descState (jobAcct descState 0 { addr := 0x4000, cmd := some 7 }) 0x4000).1.total = 64 ∧
    dCompress (checkDesc descState (jobAcct descState 0 { addr := 0x4000, cmd := some 7 }) 0x4000).1.desc = false := by decide +kernel

theorem wit_burst : ((xferOn xfer0).chan 0 0).xfer = some xfer0 ∧ burstDue (xferOn xfer0) 0 0 xfer0 = true ∧ listWay (xferOn xfer0) 0 xfer0 = .serve ∧
    dDop xfer0.desc = 1 := by decide +kernel

theorem wit_lastLeft : running (xferOn { xfer0 with next := 64 }) 0 = true ∧ lastLeft { xfer0 with next := 64 } = true := by decide +kernel

theorem wit_barrier : ((xferOn xferBar).chan 0 0).xfer = some xferBar ∧ running (xferOn xferBar) 0 = true ∧ xferBar.barWait = true ∧ xferBar.acks = 0 := by
  decide +kernel

/-! ### Witnesses for `Obligations.LinkFlitsAreCheckedAndOrdered` -/

theorem wit_flit : bitAt (run0.get ringStatusRingUp) 0 = true ∧ run0.inj = none := by decide +kernel

/-! ### Witnesses for `Obligations.MemoryMessagesAreServed` -/

theorem wit_memMessages : arriving (ringWith msgWr) 0 0 = some msgWr ∧ freewheels (ringWith msgWr) 0 = false ∧
    arriving (ringWith msgRd) 0 1 = some msgRd ∧ arriving (ringWith msgAt) 0 3 = some msgAt ∧ freewheels (parkedRegion (ringWith msgAt)) 0 = true ∧
    arriving (parkedRegion (ringWith msgRd)) 0 1 = some msgRd ∧ arriving (parkedRegion (ringWith msgWr)) 0 0 = some msgWr ∧ arriving (parkedRegion (ringWith msgAt)) 0 3 = some msgAt ∧
    (readMem (deliver (ringWith msgRd) 0 msgRd) (noStep 0) 0x1000 8).1.toOption = some (List.replicate 8 0) := by decide +kernel

theorem wit_atomicDone : arriving atomicState 0 3 = some msgAt ∧ (match (doAtomic (deliver atomicState 0 msgAt) (inStep 32 1) 0 llmBase 5 0).1 with
    | .done old _ => some old
    | _ => none) = some 0 := by decide +kernel

/-! ### Witnesses for `Obligations.AnswersReachTheirAsker` -/

theorem wit_answers : arriving (ringWith msgRsp) 0 2 = some msgRsp ∧ arriving (ringWith msgAck) 0 5 = some msgAck ∧
    tabFind 3 (deliver (ringWith msgRsp) 0 msgRsp).waiters = some (.dmaAck 0 0 0) ∧ tabFind 3 (deliver (ringWith msgAck) 0 msgAck).waiters = some (.dmaAck 0 0 0) ∧
    mapSt (deliver (ringWith msgRsp) 0 msgRsp) 0 ≠ .off := by decide +kernel

/-! ### Witnesses for `Obligations.AddsAndSignalsLand` -/

theorem wit_adds : arriving (ringWith msgAdd) 0 4 = some msgAdd ∧ arriving (ringWith msgAddPd) 0 4 = some msgAddPd ∧
    pageBlocked (ringWith msgAddPd) msgAddPd = false := by decide +kernel

theorem wit_blocked : arriving pagesFull 0 4 = some msgAddStream ∧ pageBlocked pagesFull msgAddStream = true := by
  have h1 : pdStream pagesFull 0 1 = some 0 := by decide +kernel
  have h2 : seFrozen (pagesFull.strm 0) = false := by decide +kernel
  obtain ⟨n, hn, h3⟩ : ∃ n, 16384 ≤ n ∧ pagesFull.pages = List.replicate n otherPage := ⟨16384, Nat.le_refl _, rfl⟩
  refine ⟨by decide +kernel, ?_⟩
  show (match pdStream pagesFull 0 1 with
    | none => false
    | some k => !seFrozen (pagesFull.strm k) && (pageIdx pagesFull 0 1 0 0).isNone && decide (16384 ≤ pagesFull.pages.countP (fun p => decide (p.pd = 0)))) = true
  rw [h1]
  simp [h2, h3, pageIdx, otherPage, List.findIdx?_replicate, List.countP_replicate, hn]

theorem wit_signal : arriving (ringWith msgSig) 0 6 = some msgSig ∧ fenced (ringWith msgSig) 0 = false ∧ excluded (ringWith msgSig) 0 = false ∧
    freewheels (ringWith msgSig) 0 = false := by decide +kernel

theorem wit_signalDropped : arriving ((ringWith msgSig).put fencedMask 1) 0 6 = some msgSig ∧ fenced ((ringWith msgSig).put fencedMask 1) 0 = true := by
  decide +kernel

theorem wit_signalResend : nextRefused refusedState 0 = some 0 ∧ running refusedState 0 = true ∧ fenced refusedState 0 = false ∧
    excluded refusedState 0 = false := by decide +kernel

theorem wit_heldResend : (heldState.stop 32).held.findIdx? (fun m => decide (32 ≤ m.dst ∨ mapSt heldState m.dst ≠ .parked)) = some 0 ∧
    freewheels heldState 32 = false := by decide +kernel

/-! ### Witnesses for `Obligations.SlicesAreScannedAndVotedOn` -/

theorem wit_notice : arriving (ringWith msgNote) 0 7 = some msgNote ∧ freewheels (ringWith msgNote) 0 = false := by decide +kernel

theorem wit_scan : (sliceTable scanState 0).1.map (fun x => (x.st, x.dest, x.pw16, x.bytes, x.base, x.target)) = [(1, 0, false, 4, 0x2000, 0x3000)] ∧ running scanState 0 = true ∧
    (readMem scanState (inStep 0 0) 0x2000 4).1.toOption = some [0, 0, 0, 0] ∧ isFinite (decNum .b32 0) = true ∧
    (readMem scanState (inStep 0 0) 0x3000 128).1.toOption = some (List.replicate 128 0) := by decide +kernel

theorem wit_voteCast : (voters votingState).contains 0 = true ∧ running votingState 0 = true ∧ lateTrouble (votingState.flow 0) = none ∧ (sliceTable votingState 0).1 = [] ∧
    (votingState.flow 0).voted < votingState.get (hubStepCntStep 0) ∧ stepDone votingState 0 (votingState.flow 0).voted = true := by decide +kernel

theorem wit_vote : arriving (ringWith msgVote) 0 8 = some msgVote := by decide +kernel

theorem wit_voteCounts : (ringWith msgVote).gate.next ≤ msgVote.step ∧ ({ msgVote with count := 0 } : Msg).step < (tallied.gate.next + 1) := by decide

theorem wit_voteLate : lateTrouble { voted := 1, nf := [0] } = some 0 := by decide

theorem wit_noticeAway : freewheels (parkedRegion (ringWith msgNote)) 0 = true ∧ arriving (parkedRegion (ringWith msgNote)) 0 7 = some msgNote ∧
    (slicesIn (sliceTable scanState 0).1 0x2000 4).length = 1 ∧ slicesIn (sliceTable scanState 0).1 0x4000 4 = [] := by decide +kernel

theorem wit_contribute (x : Slice) : ({ x with st := 0, contrib0 := 0, expect := 2 } : Slice).contrib 0 + 1 < 2 ∧
    ({ x with st := 0, contrib0 := 1, expect := 2 } : Slice).contrib 0 + 1 = 2 ∧ ({ x with st := 0, contrib0 := 2, expect := 2 } : Slice).expect < 3 := by
  simp [Slice.contrib]

/-! ### Witnesses for `Obligations.VerdictsReachHubsAndPortDies` -/

theorem wit_verdict : arriving (ringWith (msgVer 0)) 0 9 = some (msgVer 0) ∧ mapSt (ringWith (msgVer 0)) 0 = .running ∧
    arriving (ringWith (msgVer 32)) 0 9 = some (msgVer 32) ∧ mapSt (parkedRegion (ringWith (msgVer 0))) 0 = .parked ∧
    arriving (ringWith (msgVer 1)) 0 9 = some (msgVer 1) ∧ mapSt ((ringWith (msgVer 1)).put (clkStatRstate 1) 0) 1 = .off := by decide +kernel

theorem wit_gateTimeout : tabFind tallied.gate.next tallied.gate.tally = some { count := 1, voters := [0] } ∧ tallied.gate.warned.contains tallied.gate.next = false := by
  decide +kernel

/-! ### Witnesses for `Obligations.DerailleurCommandsMoveARun` -/

theorem wit_derail : quiesced run0 = false ∧ arriving (ringWith msgDrl) 0 0xA = some msgDrl ∧ freewheels (ringWith msgDrl) 0 = false := by decide +kernel

theorem wit_targetLost : (lostRun.drl.map (fun d => d.entries.map (·.dst))) = some [1] ∧ running lostRun 1 = false := by decide +kernel

theorem wit_mgmt : regPlace (regSpace + 0x01000000) = some (.region 0 0) ∧ (regSpace + 0x01000000) % 8 = 0 ∧ atStop 0 (.region 0 0) = true ∧
    freewheels run0 0 = false ∧ freewheels (parkedRegion run0) 0 = true ∧ run0.bs.part = none ∧
    arriving (parkedRegion (ringWith msgDrl)) 0 0xA = some msgDrl := by decide +kernel

/-! ### Witnesses for `Obligations.CachesScrubbersAndModesFollowTheirCommands` -/

theorem wit_cacheCommands : running run0 0 = true ∧ blockUp run0 0 = true ∧ quiesced run0 = false ∧ run0.marks = [] ∧ run0.get (clkStatRstate 0) = 1 ∧ (2 : BitVec 2) ≠ 3 := by decide +kernel

/-! ### Witnesses for `Obligations.HeatMovesTheTarget` -/

theorem wit_sample : run0.get (clkStatRstate 0) ≠ 0 := by decide +kernel

theorem wit_throttle : run0.get (clkStatRstate 0) = 1 ∧ 16 * ((run0.put (thermCtrlTjThrottle 0) 0).get (thermCtrlTjThrottle 0) : Int) ≤
    tj16 (run0.put (thermCtrlTjThrottle 0) 0) 0 := by decide +kernel

theorem wit_release : tj16 coolState 0 < 16 * (coolState.get (thermCtrlTjThrottle 0) : Int) - 48 ∧ coolState.get (stkThermTemp 0) < coolState.get (stkThermLimit 0) ∧
    coolState.on (stkThermThrottle 0) = false ∧ (coolState.plant 0).thermMhz = some 1300 ∧ coolState.get (clkStatRstate 0) = 1 := by decide +kernel

/-! ### Witnesses for `Obligations.RegionsParkResumeAndTrip` -/

theorem wit_park : parkingState.get (clkStatRstate 0) = 2 ∧ parkingState.on (clkStatParkTherm 0) = true ∧ quiet parkingState 0 = true ∧
    parkingState.on (clkStatParkCuff 0) = true := by decide +kernel

theorem wit_resume : mayResume (measure parkedCool {regions := [], segs := [], segPeaks := [], input := 0 }) 0 { regions := [], segs := [], segPeaks := [], input := 0 } = true := by
  decide +kernel

theorem wit_parkLimit : parkedHot.get (clkStatRstate 0) = 3 ∧ parkedHot.on (clkStatParkTherm 0) = true ∧ tooHot parkedHot 0 = true := by decide +kernel

/-! ### Witnesses for `Obligations.InputVoltageDecidesTheStop` -/

theorem wit_input : (48000 : Nat) ≤ 75000 ∧ 75000 < 80000 ∧ forcedInput run0 = false ∧
    forcedInput { run0 with inj := some { code := 0x0407, mode := 0, stop := 33, unit := 0, value := 0, left := none } } = true := by decide +kernel

/-! ### Witnesses for `Obligations.SupplyFailuresAreRecorded` -/

theorem wit_supply : run0.convDead.contains 0 = false ∧ run0.get (clkStatRstate 0) ≠ 0 ∧ cellsOf run0 0 0 < 48 ∧ built run0 0 = true ∧
    ((updPlant run0 0 (fun p => { p with probe := some false })).plant 0).probe = some false ∧ hasSupply run0 0 = true := by decide +kernel

/-! ### Witnesses for `Obligations.AdmissionServesTheHead` -/

theorem wit_admission : admitHead (measure awaiting draw0) 0 = some 1 ∧
    (measure awaiting draw0).on (pwrStatQuarter 1) = false := by decide +kernel

theorem wit_quarter : admitHead (measure quartering draw0) 0 = some 1 ∧ (measure quartering draw0).on (pwrStatQuarter 1) = true ∧
    coversInrush (headroom ((measure quartering draw0).put (pwrAdmitInrushW 1) (inrush (4 * softStart (measure quartering draw0)))) 0 draw0)
      (4 * softStart (measure quartering draw0)) = true := by decide +kernel

theorem wit_quarterCut : admitHead (measure quartering drawFull) 0 = some 1 ∧ (measure quartering drawFull).on (pwrStatQuarter 1) = true ∧
    coversInrush (headroom ((measure quartering drawFull).put (pwrAdmitInrushW 1) (inrush (4 * softStart (measure quartering drawFull)))) 0 drawFull)
      (4 * softStart (measure quartering drawFull)) = false ∧ segRunning (measure quartering drawFull) 0 = [0] ∧
    (((measure quartering drawFull).put (pwrAdmitInrushW 1) (inrush (4 * softStart (measure quartering drawFull)))).plant 0).cut = 0 := by decide +kernel

theorem wit_admissionNone : admitHead (measure run0 draw0) 0 = none := by decide +kernel

theorem wit_quarterKept : admitHead (measure quarterCut draw0) 0 = some 1 ∧ (measure quarterCut draw0).on (pwrStatQuarter 1) = true ∧
    segRunning (measure quarterCut draw0) 0 = [0] ∧
    (((measure quarterCut draw0).put (pwrAdmitInrushW 1) (inrush (4 * softStart (measure quarterCut draw0)))).plant 0).cut = 50 ∧
    effRegion ((measure quarterCut draw0).put (pwrAdmitInrushW 1) (inrush (4 * softStart (measure quarterCut draw0)))) 0 = some 710 := by decide +kernel

theorem wit_quarterWaits : admitHead (measure quarterCut drawOne) 0 = some 1 ∧ (measure quarterCut drawOne).on (pwrStatQuarter 1) = true ∧
    coversInrush (headroom ((measure quarterCut drawOne).put (pwrAdmitInrushW 1) (inrush (4 * softStart (measure quarterCut drawOne)))) 0 drawOne)
      (4 * softStart (measure quarterCut drawOne)) = false ∧ drawOne.regions.getD 0 0 = 750 ∧
    effRegion ((measure quarterCut drawOne).put (pwrAdmitInrushW 1) (inrush (4 * softStart (measure quarterCut drawOne)))) 0 = some 710 := by decide +kernel

theorem wit_rampEnd : (run0.put (pwrStatPstate 0) 2).get (pwrStatPstate 0) = 2 := by decide +kernel

/-! ### Witnesses for `Obligations.CuffsHoldTheDraw` -/

theorem wit_cuffEnforce : effModule (measure rampedUp drawOver) * 975 < cuffDraw (measure rampedUp drawOver) drawOver ∧
    (cuffable (measure rampedUp drawOver)).any (canThrottle (measure rampedUp drawOver)) = true ∧
    effRegion ((cuffable (measure rampedUp drawOver)).foldl throttleStep (measure rampedUp drawOver)) 0 = none ∧
    cuffable ((cuffable (measure rampedUp drawOver)).foldl throttleStep (measure rampedUp drawOver)) = [0] := by decide +kernel

theorem wit_unpark : (measure cuffParked draw0).parkOrder = [0] ∧ unparkFits (measure cuffParked draw0) draw0 0 = true ∧
    (measure rampedUp draw0).parkOrder = [] ∧ cuffDraw (measure rampedUp draw0) draw0 * 100 ≤ 95 * (effModule (measure rampedUp draw0) * 975) ∧
    ((measure cuffParked draw0).plant 0).ownPark = false ∧ ((updPlant cuffParked 0 (fun p => { p with ownPark := true })).plant 0).ownPark = true := by
  decide +kernel

/-! ### Witnesses for `Obligations.FencesDrainAndRerun` -/

theorem wit_resumeBlock : blockUp run0 0 = true := by decide +kernel

theorem wit_fence : ((updPlant run0 0 (fun p => { p with due := some (0x0901, 0, 0, false) })).plant 0).due = some ((0x0901 : BitVec 16).toNat, 0, 0, false) := by
  decide +kernel

theorem wit_drained : ((drainingHub false).hub 0).draining = true ∧ running (drainingHub false) 0 = true ∧ (drainingHub false).on (resStatDrained 0) = false ∧
    updatesDone (drainingHub false) 0 = true ∧ ((drainingHub true).hub 0).drainStruck = true ∧ ((drainingHub true).hub 0).live = [] ∧
    ((drainingHub true).hub 0).writes = [] ∧ signalsSettled (drainingHub true) 0 = true := by decide +kernel

theorem wit_rerun : rerunning.gate.rerun = some 0 ∧ voters rerunning = [0] ∧ rerunning.gate.drained = [0] ∧ rerunning.ring = [] := by decide +kernel

/-! ### Witnesses for `Obligations.SeamsAreRefreshedAndFolded` -/

theorem wit_seams : passable (seamed 1) 0 = true ∧ quiesced run0 = false ∧ ((seamed 2).seam 0).st = 2 ∧ ((seamed 3).seam 0).st = 3 := by decide +kernel

theorem wit_rebuild : quiesced rebuilding = false ∧ nextChunk rebuilding = some (0, 1, 0) ∧ rebuilding.get seamCtrlRbTarget = 0 ∧ rebuilding.on seamCtrlRbEn = true ∧
    useOf rebuilding 0 = 2 ∧ running rebuilding 0 = true ∧ drlReads rebuilding 1 = false := by decide +kernel

/-! ### Witnesses for `Obligations.SnapshotsAndJournalsAreWritten` -/

theorem wit_snap : quiesced snapping = false ∧ snapReady snapping = true ∧ snapping.snaps.due = true ∧ snapping.snaps.out = 0 ∧ snapping.ckptKey ≠ none ∧
    (List.range 32).filter (fun r => running snapping r) = [0] ∧ updatesDone snapping 0 = true ∧ journalDue snapping 0 = some 0 := by decide +kernel

theorem wit_ckptGo : snapping.snaps.ckpt = 0 ∧ peerUsable snapping (snapping.get snapCtrlSnapPeer) = true ∧
    peerClass (snapping.peer (snapping.get snapCtrlSnapPeer)) = 2 ∧ (snapping.ckptKey.or snapping.ckptNew).isSome = true ∧ snapping.bs.loaded = true := by decide +kernel

/-! ### Witnesses for `Obligations.RestoresCheckWhatTheyRead` -/

theorem wit_restore : quiesced chained = false ∧ ((chained.chain (chained.get rsCtrlRsRegion)).objs.getLast?.map (·.step)) = some 3 := by decide +kernel

/-! ### Witnesses for `Obligations.OwnerCommandsRunTheirChecks` -/

theorem wit_owner : run0.rootLost = false ∧ quiesced run0 = false ∧ ocOp (List.replicate 8 0 ++ [3]) = 3 ∧ run0.get secStateOwnerSlot < 3 ∧
    3 ≤ (run0.put secStateOwnerSlot 3).get secStateOwnerSlot ∧ ocOp (List.replicate 8 0 ++ [1]) = 1 ∧ ocOp (List.replicate 8 0 ++ [2]) = 2 ∧
    ocOp (List.replicate 8 0 ++ [4]) = 4 := by decide +kernel

/-! ### Witnesses for `Obligations.RootServicesAnswer` -/

theorem wit_root : quotesServed (run0.put bootStatusStep 0x1F) = true ∧ quiesced run0 = false ∧ run0.rootLost = false ∧ loadBusy run0 = false := by
  decide +kernel

/-! ### Witnesses for `Obligations.FramesPassTheLinkLayer` -/

theorem wit_frame : portPasses netState 0 0 = true ∧ netState.inj = none ∧ macsecPass (netState.sec 0 0) frame0 = true ∧
    frameClass (notePn netState 0 0 frame0) 0 frame0 = 0 := by decide +kernel

theorem wit_link : portClass netState 0 ≠ 0 ∧ netState.pdOff.contains 0 = false := by decide +kernel

theorem wit_pfc : (0 : Fin 8).val = prioOf netState 0 0 ∨ (0 : Fin 8).val = prioOf netState 0 1 ∨ (3 : Fin 8).val = prioOf netState 0 0 := by decide +kernel

theorem wit_cnp : peerLinked netState 0 = true ∧ sliceFits netState 0 = true ∧ (netState.peer 0).err = false ∧ qpOpen netState 0 = true ∧
    sliceFits (netState.put sliceSliceId 9) 0 = false := by decide +kernel

/-! ### Witnesses for `Obligations.PeersRequestsAreServed` -/

theorem wit_skOther : peerLinked netState 0 = true ∧ peerUsable netState 0 = true ∧ peerClass (netState.peer 0) ≠ 3 := by decide +kernel

theorem wit_arrive : (arrive netState src0).1 = some 0 ∧ ((arrive netState src0).2.peer 0).held = [] := by decide +kernel

theorem wit_rdma : (5 : Nat) ≠ regKey netState ∧ rangeOk netState 0 0 0x1000 8 1 = true ∧ rangeOk netState 0 0 0x1000 8 0 = true ∧
    fateOf netState 0x1000 8 = .serve ∧ (0 : Nat) ≠ regKey netState ∧ (writeMem netState (noStep ((regionsOf netState 0x1000 8).headD 0)) 0x1000 (List.replicate 8 1)).1 = none ∧
    (readMem netState (noStep ((regionsOf netState 0x1000 8).headD 0)) 0x1000 8).1.toOption = some (List.replicate 8 0) ∧
    immSignal netState 0x20001 = some (1, 0, 1) ∧ regSpaceOk netState 0 (regSpace + 0x4418) 8 = true := by decide +kernel

theorem wit_rdmaAfter : immSignal (writeMem netState (noStep ((regionsOf netState 0x1000 8).headD 0)) 0x1000 (List.replicate 8 1)).2 0x20001 = some (1, 0, 1) := by
  decide +kernel

/-! ### Witnesses for `Obligations.OwnRequestsAndEntriesFollowTheirAnswers` -/

theorem wit_ack : (asking.peer 0).out = [req0] ∧ peerLinked asking 0 = true ∧ sliceFits asking 0 = true ∧ (asking.peer 0).err = false ∧ qpOpen asking 0 = true ∧
    peerRetry (asking.peer 0) = 0 ∧ peerLinked (asking.put sliceSliceId 9) 0 = true ∧ sliceFits (asking.put sliceSliceId 9) 0 = false := by decide +kernel

theorem wit_entries : peerValid (run0.peer 5) = false ∧ seValid (run0.strm 5) = false ∧ 6 ≤ field 0x1A000 14 5 ∧ field 0x50000 14 5 ≤ 20 ∧
    getLe (maskPeerWord 0 [0, 1, 0, 8, 0, 0, 0, 0]) 0 1 % 2 = 0 ∧ peerRange (maskPeerWord 0 [0, 1, 0, 8, 0, 0, 0, 0]) = true := by decide +kernel

theorem wit_eventWrite : eventful.on evtCfgEvtEn = true ∧ eventful.get evtCfgEvtPeer = 0 ∧ peerUsable eventful 0 = true ∧ peerClass (eventful.peer 0) = 1 ∧
    evtFill eventful < 2 ^ eventful.get evtCfgLog2N ∧ eventful.evLost = 0 ∧ (eventful.evbuf[eventful.evOut]?).isSome = true := by decide +kernel

theorem wit_ptp : (netState.put ptpCtrlPtpEn 1).on ptpCtrlPtpEn = true ∧ (netState.put ptpCtrlPtpEn 1).get ptpCtrlPtpPort = 0 ∧
    portClass (netState.put ptpCtrlPtpEn 1) 0 = 1 ∧ portPasses (netState.put ptpCtrlPtpEn 1) 0 0 = true ∧ (netState.put ptpCtrlPtpEn 1).get ptpCtrlDomain = 0 := by decide +kernel

/-! ### Witnesses for `Obligations.SkojoMessagesAct` -/

theorem wit_skPeer : skPeer skojo 0 = true := by decide +kernel

theorem wit_skMessages : skAccept (sendTaken skojo 0 (skHdr 1)) 0 1 (skHdr 1) = some 0 ∧ skAccept (sendTaken skojo 0 (skHdr 3)) 0 3 (skHdr 3) = some 0 ∧
    skAccept (sendTaken skojo 0 (skHdr 9)) 0 9 (skHdr 9) = some 0 ∧ skAccept (sendTaken skojo 0 (skHdr 8)) 0 8 (skHdr 8) = some 0 ∧
    [1, 2, 3, 8, 9].all (fun ty => (skAccept (sendTaken skojo 0 (skHdr 7)) 0 ty (skHdr 7)).isNone) = true ∧ seFrozen (skojo.strm 0) = false ∧ stepFits (skojo.strm 0) (skHdr 1) = true ∧
    hdStep (skHdr 8) = seStep (skojo.strm 0) ∧ (skojo.strm 0).afterFail = true ∧
    hdStep (skHdr 8) < seStep ((updStrm skojo 0 (fun x => seSetStep x 3)).strm 0) := by decide +kernel

theorem wit_wtPush : skAccept (sendTaken skojo 0 skPush) 0 2 skPush = some 0 ∧ (pushWeights 0 skPush (List.replicate 4096 0) (sendTaken skojo 0 skPush) 0).isSome = true := by
  decide +kernel

theorem wit_grPush : pushing.pages.findIdx? (fun g => decide (g.pd = 0 ∧ g.tensor = seTensor (pushing.strm 0) ∧ g.st = 2 ∧ some g.step = curModule pushing 0)) = some 0 ∧
    seValid (pushing.strm 0) = true ∧ seFrozen (pushing.strm 0) = false ∧ seCredit (pushing.strm 0) ≠ 0 ∧ (pushing.strm 0).done = false ∧
    (pushing.strm 0).waitOpen = false ∧ peerUsable pushing (sePeer 0 (pushing.strm 0)) = true := by decide +kernel

/-! ### Witnesses for `Obligations.CassettesAuthenticateAndWarmUp` -/

theorem wit_detect : booted.on (casStatPresent 1 0) = false ∧ dieRuns (booted.put (casStatPresent 1 0) 1) 2 = true ∧
    dieRuns (State.reset.put (casStatPresent 1 0) 1) 2 = false := by decide +kernel

theorem wit_authentic : ((bayAt 1 1).bay 3).phase = 1 ∧ (bayAt 1 1).inj = none := by decide +kernel

theorem wit_ramp : ((bayAt 1 2).bay 3).phase = 2 ∧ ((bayAt 2 3).bay 3).phase = 3 ∧ ((bayAt 2 4).bay 3).phase = 4 ∧ ((bayAt 2 5).bay 3).phase = 5 := by decide +kernel

theorem wit_reauth : bayState (bayAt 3 0) 3 ≠ 0 ∧ dieRuns (bayAt 3 0) 3 = true ∧ dieRuns (hotBay 65) 3 = true ∧ ((bayAt 3 0).bay 3).phase ≠ 4 ∧ ((bayAt 3 0).bay 3).phase ≠ 5 ∧ ((hotBay 65).bay 3).phase ≠ 5 ∧ (bayAt 3 0).get (casStatDarkReason 1 1) ≠ 5 ∧
    (hotBay 64).get (casStatDarkReason 1 1) = 5 ∧ (hotBay 64).get (casStatTemp 1 1) < 65 ∧ 65 ≤ (hotBay 65).get (casStatTemp 1 1) ∧
    bayState (hotBay 65) 3 ≠ 0 ∧ ((hotBay 65).bay 3).phase ≠ 4 := by decide +kernel

/-! ### Witnesses for `Obligations.CassettesFailAndLeave` -/

theorem wit_laser : isLit (bayAt 2 0) 3 = true ∧ bitAt (laserFails (bayAt 2 0) 3) 15 = false := by decide +kernel

theorem wit_overtemp : bayState (bayAt 2 0) 3 ≠ 0 ∧ dieRuns (bayAt 2 0) 3 = true ∧ (bayAt 2 0).inj = none ∧
    overheated ((bayAt 2 0).put (casStatTemp 1 1) 75) 3 = false ∧ overheated (hotBay 75) 3 = true := by decide +kernel

theorem wit_casRelease : (bayAt 2 0).on (casStatReleased 1 1) = false ∧ ((bayAt 2 0).bay 3).phase ≠ 4 ∧ ((bayAt 2 0).bay 3).phase ≠ 5 ∧ mayRelease (bayAt 2 0) 3 = false ∧
    mayRelease ((bayAt 2 0).put (bayStateF 2) 2) 3 = true ∧ isLit (bayAt 1 0) 3 = false := by decide +kernel

theorem wit_withdrawn : (bayAt 2 0).on (casStatPresent 1 1) = true ∧ ((bayAt 3 0).put (casStatReleased 1 1) 1).on (casStatReleased 1 1) = true := by decide +kernel

/-! ### Witnesses for `Obligations.SuccessorKeysTakeOver` -/

theorem wit_keys : 1 ∈ ((run0.setSec 0 0 { next := [1], old := [0] }).sec 0 0).next ∧ 0 ∈ ((run0.setSec 0 0 { next := [1], old := [0] }).sec 0 0).old := by
  decide +kernel

theorem wit_subnormal : running subIdle 0 = true ∧ modeByte subIdle 0 10 = 1 := by decide +kernel

/-! ### Witnesses for `Obligations.TheMeterAnswersAndIsWatched` -/

theorem wit_meter : meterOn run0 = true ∧ run0.meter.service = false ∧ run0.meter.fault = false ∧
    meterOn { run0 with meter := { run0.meter with service := true } } = true := by decide +kernel

/-! ### Witnesses for `Obligations.MeterCommandsRunTheirChecks` -/

theorem wit_meterCommands : meterOn run0 = true ∧ mcAt (List.replicate 832 0) = 0 ∧ mcAt (tabRange 0 (cellsAt 0 [(0x20, 9)]) 0 832) = 9 ∧
    mcCheck run0.meter 3 [] = 0x10 := by decide +kernel

/-! ### Witnesses for `Obligations.TheMeterKeepsItsAccounts` -/

theorem wit_epoch : meterOn (scheduled 1) = true ∧ (scheduled 1).meter.fault = false ∧ (scheduled 1).meter.sched = some { epoch := 1, account := 7 } ∧
    (scheduled 1).meter.epoch = 0 ∧ run0.meter.sched = none := by decide +kernel

theorem wit_power : meterFitted unpowered = true ∧ unpowered.meter.on = false := by decide +kernel

theorem wit_transmission : (sending 1).meter.tx = [(1, List.replicate 128 0)] ∧ (sending 1).inj = none ∧ cpcRuns (sending 1) = true := by decide +kernel

theorem wit_linkLoss : (run0.put mirrorStatMLink 1).on mirrorStatMLink = true ∧ ((run0.put mirrorStatMLink 1).stop 33).tainted.contains 900 = false := by decide +kernel

/-! ### Witnesses for `Obligations.StartUpRunsItsSteps` -/

theorem wit_coldStart : State.reset.get bootStatusStep = 0 ∧ State.reset.inputStop = 0 ∧
    4050 ≤ (State.reset.put pwrInVinCv 4800).get pwrInVinCv ∧ State.reset.get pwrInVinCv < 4050 ∧ booted.get bootStatusStep ≠ 0 := by decide +kernel

theorem wit_roots : (rootFail (State.reset.put bootStatusStep 3) false false false).rootLost = true ∧
    (rootFail (State.reset.put bootStatusStep 3) false true false).rootLost = false := by decide +kernel

/-! ### Witnesses for `Obligations.ResetsAndUpdatesAct` -/

theorem wit_regionReset : running run0 0 = true ∧ (0x0A01, 0) ∉ run0.bootInj ∧ (0x0A01, 0) ∈ ({ run0 with bootInj := [(0x0A01, 0)] } : State).bootInj := by decide +kernel

theorem wit_portReset : portClass netState 0 ≠ 0 ∧ netState.pdOff.contains 0 = false := by decide +kernel

theorem wit_quiesce : quiesced booted = false ∧ booted.quiescing = 0 ∧ loadBusy booted = false ∧ booted.on fwUpdateFwBusy = false ∧
    (stallAll { booted with quiescing := 1 } 5).quiescing = 1 ∧ quiesceFlushed { booted with quiescing := 2 } = true := by decide +kernel

theorem wit_fwWrite : booted.rootLost = false ∧ 13 ≤ booted.get bootStatusStep := by decide +kernel

theorem wit_activating : (activatingState).on fwUpdateFwBusy = true ∧ activatingState.activating = true ∧ allStalled activatingState 5 = true := by decide +kernel

/-! ### Witnesses for `Obligations.ErrorsArriveAndAreInjected` -/

theorem wit_inj : (armedState none).inj = some { code := 0x0201, mode := 2, stop := 0, unit := 0, value := 0, left := none } ∧
    (armedState (some 1)).inj = some { code := 0x0201, mode := 2, stop := 0, unit := 0, value := 0, left := some 1 } := by decide +kernel

theorem wit_injArm : field 0x100000000 32 16 ≠ 0 ∧ bitAt 0x100040000 18 = true ∧ bitAt 0x100000000 18 = false ∧ field 0x40000 32 16 = 0 := by decide

theorem wit_injRefused : shotRefused run0 { code := 0x0201, mode := 0, count := 1, stop := 0, unit := 0, value := 0 } = true := by decide +kernel

/-! ### Witnesses for `Obligations.RegisterSpaceIsReadAndWritten` -/

theorem wit_regRead : booted.get bootStatusStep ≠ 0 ∧ housekeepingReads 0 = true ∧ housekeepingReads 0x2410 = true ∧ sealed booted = false ∧
    [List.replicate 64 (0 : Byte)].any (fun e => decide (e.length ≠ 64)) = false := by decide +kernel

theorem wit_registers : regPlace 0 = none ∧ (regPlace regSpace).isSome = true ∧ served run0 (.global 0) = true ∧ served run0 (.region 1 0x100000) = false ∧
    inRanges (.global 0x4418) 0 = false ∧ inRanges (.global 0x4418) 1 = true ∧ served run0 (.die 0 0x100000) = true := by decide +kernel

theorem wit_firmwareWrite : freewheels run0 32 = false ∧ freewheels run0 1 = true ∧ atStop 32 (.global 0) = true ∧ (regPlace regSpace = some (.global 0)) := by decide +kernel

/-! ### Witnesses for `Obligations.StepRunsTheFrontCommand` -/

theorem wit_front : ({ run0 with pending := [Instr.eventWrite] }).pending = Instr.eventWrite :: [] ∧ run0.pending = [] ∧ run0.buffers = [] ∧ run0.xoffs = [] := by decide +kernel

/-! ### Witnesses for `Obligations.EveryStepKeepsTheInvariant` -/

theorem wit_inv : Inv run0 ∧ step run0 = .next run0 := ⟨⟨by decide +kernel, by decide +kernel⟩, rfl⟩

/-! ### Witnesses for `Obligations.CommandsLeaveQueueAndFuses` -/

theorem wit_completing : exec .pageReturn run0 = .next { run0 with meter := { run0.meter with page := 1 } } := rfl

/-! ### Witnesses for `Obligations.EveryCommandCompletes` -/

theorem wit_beyond : exec (.inputVoltageChange 75001 false draw0) run0 = .fault .beyondRatings := rfl

/-! ### Witnesses for `Obligations.FieldWritesFollowTheirType` -/

theorem wit_fieldTypes : injTargetStop.ty = .rw ∧ errStatusOvf.ty = .w1c ∧ injCtrlInjEn.ty = .rwk ∧ errStatusFill.ty = .ro ∧ sealed run0 = false ∧
    (run0.put errStatusOvf 1).get errStatusOvf < 2 ^ errStatusOvf.w ∧ injTargetStop.key ≠ errStatusOvf.key := by decide +kernel

theorem wit_sealed : sealed sealedState = true := by decide +kernel

/-! ### Witnesses for `Obligations.ArrivingErrorsAreAccountedFor` -/

theorem wit_arriving : (∀ r ∈ oneError.errq, r.count < 2 ^ 32 - 1) ∧ oneError.errq.length = 1 ∧ oneError.get errStatusLostCe < 2 ^ errStatusLostCe.w - 1 := by decide +kernel

/-! ### Witnesses for `Obligations.ErrorQueueMovesAndPops` -/

theorem wit_errorHead : oneError.errq.length = 1 ∧ oneError.on evtCfgEvtEn = false ∧ (oneError.put evtCfgEvtEn 1).on evtCfgEvtEn = true ∧
    (oneError.put evtCfgEvtEn 1).evbuf.length < 4096 ∧ run0.errq = [] := by decide +kernel

/-! ### Witnesses for `Obligations.MeterLogKeepsWhatIsUnacknowledged` -/

theorem wit_log : 8192 ≤ unacked { run0.meter with logNext := 8192 } ∧ unacked { run0.meter with logNext := 8191 } < 8192 ∧
    8064 ≤ unacked { run0.meter with logNext := 8064 } ∧ unacked { run0.meter with logNext := 8063 } < 8064 := by decide +kernel

theorem wit_powerFails : meterOn (scheduled 5) = true ∧ (scheduled 5).meter.sched.isSome = true ∧ (scheduled 5).meter.fault = false ∧
    meterOn { run0 with meter := { run0.meter with account := 3 } } = true := by decide +kernel

/-! ### Witnesses for `Obligations.CassettesReportTheirEndOfLife` -/

theorem wit_endOfLife : isLit (worn 900) 3 = true ∧ (worn 900).inj = none ∧ (lifeBounds (worn 900) 3).1 ≤ 16 ∧ 16 ≤ (lifeBounds (worn 900) 3).2 ∧ (worn 900).get (casLifeRatedCh 1 1) = 1000 ∧ (worn 900).get (casLifeLifeCh 1 1) = 900 ∧
    (worn 999).get (casLifeLifeCh 1 1) = 999 ∧ (worn 900).on (casStatEolWarn 1 1) = false := by decide +kernel

theorem wit_reported : ((bayAt 2 1).bay 3).phase = 1 ∧ (bayAt 2 1).inj = none ∧ getLe (tabRange 0 (cellsAt 0 [(6, 40)]) 0 832) 6 2 = 40 ∧ isLit (bayAt 2 1) 3 = true := by decide +kernel

end Sys2Proof.Tests
end

section
/-! SUPPORT. A written word and the fields of a register (R9, R441), and the statement that a field follows its type code. -/
namespace Sys2Proof.Machine

section
variable {s : State} {f g : Fld} {v : Nat}

/-- A field cut to its width is cut already. -/
@[simp] theorem field_mod_width (n lo w : Nat) : field n lo w % 2 ^ w = field n lo w := Nat.mod_mod _ _

/-- Subtracting the bits that two numbers share clears them, without a borrow. -/
theorem testBit_sub_and (a x i : Nat) : (a - (a &&& x)).testBit i = (a.testBit i && !x.testBit i) := by
  induction i generalizing a x with
  | zero =>
    have hle : a &&& x ≤ a := Nat.and_le_left
    have hpar : (a &&& x) % 2 = if x % 2 = 1 then a % 2 else 0 := by
      rw [Nat.and_mod_two_pow (n := 1)]
      rcases Nat.mod_two_eq_zero_or_one x with hx | hx <;> simp [hx]
    rw [Bool.eq_iff_iff]
    simp only [Nat.testBit_zero, Bool.and_eq_true, Bool.not_eq_true', decide_eq_true_eq, decide_eq_false_iff_not]
    split at hpar <;> omega
  | succ i ih =>
    have hle : a &&& x ≤ a := Nat.and_le_left
    have hpar : (a &&& x) % 2 ≤ a % 2 := by rw [Nat.and_mod_two_pow (n := 1)]; exact Nat.and_le_left
    have hhalf : (a - (a &&& x)) / 2 = a / 2 - (a / 2 &&& x / 2) := by rw [← Nat.and_div_two]; omega
    rw [Nat.testBit_succ, hhalf, ih, ← Nat.testBit_succ, ← Nat.testBit_succ]

/-! ## One field, by its type code -/

theorem writeField_of_taken (h : f.ty = .rw ∨ f.ty = .rws ∨ (f.ty = .rwk ∧ sealed s = false)) :
    writeField v s f = s.put f (field v f.lo f.w) := by
  rcases h with h | h | ⟨h, hk⟩
  · simp only [writeField, h]
  · simp only [writeField, h]
  · simp [writeField, h, hk]

theorem writeField_of_ignored (h : f.ty = .ro ∨ f.ty = .wo ∨ (f.ty = .rwk ∧ sealed s = true)) : writeField v s f = s := by
  rcases h with h | h | ⟨h, hk⟩
  · simp only [writeField, h]
  · simp only [writeField, h]
  · simp [writeField, h, hk]

theorem writeField_of_w1c (h : f.ty = .w1c) : writeField v s f = s.put f (s.get f - (s.get f &&& field v f.lo f.w)) := by
  simp only [writeField, h]

/-- Whatever its type code, a field under a written word stands or is put to some value. -/
theorem writeField_eq_or_put (v : Nat) (s : State) (f : Fld) : writeField v s f = s ∨ ∃ x, writeField v s f = s.put f x := by
  cases hty : f.ty with
  | ro => exact .inl (writeField_of_ignored (.inl hty))
  | wo => exact .inl (writeField_of_ignored (.inr (.inl hty)))
  | rw => exact .inr ⟨_, writeField_of_taken (.inl hty)⟩
  | rws => exact .inr ⟨_, writeField_of_taken (.inr (.inl hty))⟩
  | w1c => exact .inr ⟨_, writeField_of_w1c hty⟩
  | rwk =>
    cases hk : sealed s with
    | true => exact .inl (writeField_of_ignored (.inr (.inr ⟨hty, hk⟩)))
    | false => exact .inr ⟨_, writeField_of_taken (.inr (.inr ⟨hty, hk⟩))⟩

theorem get_writeField_of_taken (h : f.ty = .rw ∨ f.ty = .rws ∨ (f.ty = .rwk ∧ sealed s = false)) :
    (writeField v s f).get f = field v f.lo f.w := by
  rw [writeField_of_taken h, State.get_put_same, field_mod_width]

theorem testBit_get_writeField_of_w1c (h : f.ty = .w1c) (hw : s.get f < 2 ^ f.w) (i : Nat) :
    ((writeField v s f).get f).testBit i = ((s.get f).testBit i && !(field v f.lo f.w).testBit i) := by
  have hfits : s.get f - (s.get f &&& field v f.lo f.w) < 2 ^ f.w := Nat.lt_of_le_of_lt (Nat.sub_le _ _) hw
  rw [writeField_of_w1c h, State.get_put_same, Nat.mod_eq_of_lt hfits, testBit_sub_and]

theorem get_writeField_other (h : g.key ≠ f.key) : (writeField v s f).get g = s.get g := by
  rcases writeField_eq_or_put v s f with hs | ⟨x, hx⟩
  · rw [hs]
  · rw [hx, State.get_put_other h]

end

/-- Settles O55: reading after a put, and one lemma per type code for what a written word does to a field. -/
theorem fieldWritesFollowTheirType : Obligations.FieldWritesFollowTheirType := by
  unfold Obligations.FieldWritesFollowTheirType
  refine ⟨fun s f g v => ⟨State.get_put_same s f v, State.get_put_other⟩, fun s f v => ⟨?taken, ?ignored, ?cleared, ?other⟩⟩
  case taken => exact get_writeField_of_taken
  case ignored => exact writeField_of_ignored
  case cleared => exact testBit_get_writeField_of_w1c
  case other => exact fun g => get_writeField_other

end Sys2Proof.Machine
end

section
/-! SUPPORT. Bytes stored at home (R8, R201, R422): what reads back, which zero-baseline marks go, what stands. -/
namespace Sys2Proof.Machine

theorem mem_setIns {k j : Nat} {l : List Nat} : j ∈ setIns k l ↔ j = k ∨ j ∈ l := by
  induction l with
  | nil => simp [setIns]
  | cons x t ih =>
    simp only [setIns]
    split
    · simp
    · split
      · next hk => simp [hk]
      · simp only [List.mem_cons, ih]
        exact or_left_comm

section
variable (s : State) (h : Nat) (b : Byte) (l : List Byte)

/-! ## One byte -/

@[simp] theorem storeByte_mem : (storeByte s h b).mem = tabSet 0 h b s.mem := by
  unfold storeByte
  split <;> rfl

theorem mem_storeByte_unzeroed (k : Nat) :
    k ∈ (storeByte s h b).unzeroed ↔ k ∈ s.unzeroed ∨ (inStack h = true ∧ k = h / 0x40000000) := by
  unfold storeByte
  split
  · next hst => simp [pokeStack, mem_setIns, hst, or_comm]
  · next hst => simp [poke, hst]

/-- A stored byte changes nothing but the bytes and the zero-baseline marks. -/
theorem storeByte_frame (m : Tab Byte) (u : List Nat) :
    { storeByte s h b with mem := m, unzeroed := u } = { s with mem := m, unzeroed := u } := by
  unfold storeByte
  split <;> rfl

theorem peek_storeByte (a : Nat) : peek (storeByte s h b) a = if a = h then b else peek s a := by
  unfold peek
  rw [storeByte_mem]
  split
  · next ha => rw [ha, tabGet_set_same]
  · next ha => exact tabGet_set_other ha

/-! ## A list of bytes -/

theorem peek_storeBytes (a : Nat) :
    peek (storeBytes s h l) a = if h ≤ a ∧ a < h + l.length then l.getD (a - h) 0 else peek s a := by
  induction l generalizing s h with
  | nil => rw [if_neg (by simp)]; rfl
  | cons b t ih =>
    simp only [storeBytes, ih, peek_storeByte, List.length_cons]
    by_cases hin : h + 1 ≤ a ∧ a < h + 1 + t.length
    · obtain ⟨i, rfl⟩ : ∃ i, a = h + 1 + i := ⟨a - (h + 1), by omega⟩
      rw [if_pos hin, if_pos (by omega), Nat.add_sub_cancel_left, show h + 1 + i - h = i + 1 by omega, List.getD_cons_succ]
    · rw [if_neg hin]
      by_cases ha : a = h
      · rw [if_pos ha, if_pos (by omega), ha, Nat.sub_self, List.getD_cons_zero]
      · rw [if_neg ha, if_neg (by omega)]

theorem mem_storeBytes_unzeroed (k : Nat) :
    k ∈ (storeBytes s h l).unzeroed ↔ k ∈ s.unzeroed ∨ ∃ i, i < l.length ∧ inStack (h + i) = true ∧ k = (h + i) / 0x40000000 := by
  induction l generalizing s h with
  | nil => simp [storeBytes]
  | cons b t ih =>
    rw [storeBytes, ih, mem_storeByte_unzeroed, or_assoc, List.length_cons]
    refine or_congr_right ?_
    constructor
    · rintro (hhead | ⟨i, hi, htail⟩)
      · exact ⟨0, Nat.succ_pos _, hhead⟩
      · exact ⟨i + 1, Nat.succ_lt_succ hi, by rwa [Nat.add_right_comm h 1 i] at htail⟩
    · rintro ⟨i, hi, hbyte⟩
      cases i with
      | zero => exact .inl hbyte
      | succ i => exact .inr ⟨i, Nat.lt_of_succ_lt_succ hi, by rwa [Nat.add_right_comm h 1 i]⟩

/-- Stored bytes change nothing but the bytes and the zero-baseline marks. -/
theorem storeBytes_frame (m : Tab Byte) (u : List Nat) :
    { storeBytes s h l with mem := m, unzeroed := u } = { s with mem := m, unzeroed := u } := by
  induction l generalizing s h with
  | nil => rfl
  | cons b t ih => exact (ih (storeByte s h b) (h + 1)).trans (storeByte_frame s h b m u)

end

/-- Settles O56, by induction on the stored bytes; the canonical form is one of the laws of `storeBytes_keeps`. -/
theorem storesChangeOnlyTheirBytes : Obligations.StoresChangeOnlyTheirBytes := by
  unfold Obligations.StoresChangeOnlyTheirBytes
  exact fun s h l => ⟨peek_storeBytes s h l, mem_storeBytes_unzeroed s h l, (storeBytes_keeps (Keeps.refl s)).mem,
    storeBytes_frame s h l s.mem s.unzeroed⟩

end Sys2Proof.Machine
end

section
/-! SUPPORT. Register space (R9, R440-R448): the housekeeping port, accesses of an address, messages of firmware, and one written word. -/
namespace Sys2Proof.Machine

@[simp] theorem natLe_length (k n : Nat) : (natLe k n).length = k := by
  induction k generalizing n with
  | zero => rfl
  | succ k ih => simp [natLe, ih]

theorem started_iff {s : State} : started s = true ↔ s.get bootStatusStep ≠ 0 := by simp [started]

/-! ## The commands, by their meanings -/

theorem exec_regRead (o : W64) (s : State) : exec (.regRead o) s = execRegRead o s := rfl

theorem exec_provWrite (n : Nat) (es : List (List Byte)) (s : State) : exec (.provWrite n es) s = execProvWrite n es s := rfl

theorem exec_registerWrite (p : Path) (a v : W64) (s : State) : exec (.registerWrite p a v) s = execRegisterWrite p a v s := rfl

theorem exec_mgmt (st : Fin 36) (msg : MgmtMsg) (s : State) : exec (.mgmt st msg) s = execMgmt st msg s := rfl

/-! ## The housekeeping port (R447) -/

theorem execRegRead_of_read {o : W64} {s : State} (hs : started s = true) (ho : housekeepingReads o.toNat = true) :
    execRegRead o s = .next (housekeepingAnswer s 1 (natLe 8 (readWord s (.global o.toNat)))) := by
  simp [execRegRead, hs, ho]

theorem execProvWrite_of_started {s : State} (hs : started s = true) (n : Nat) (es : List (List Byte)) :
    execProvWrite n es s = .next (
      if n = 0 ∨ 16 < n ∨ es.length ≠ n ∨ es.any (fun e => decide (e.length ≠ 64)) = true then housekeepingAnswer s 2 (natLe 1 0x10)
      else if sealed s = true then housekeepingAnswer s 2 (natLe 1 0x15)
      else housekeepingAnswer { s with prov := es } 2 (natLe 1 0x01)) := by
  rw [apply_ite Host.Outcome.next, apply_ite Host.Outcome.next]
  exact if_neg (by simp [hs])

/-! ## An access of an address (R440) and a message of firmware (R446) -/

section
variable {s : State} {p : Path} {a v : W64} {pl : RegPlace}

theorem execRegisterWrite_of_noPlace (h : regPlace a.toNat = none ∨ a.toNat % 8 ≠ 0) : execRegisterWrite p a v s = .next s := by
  unfold execRegisterWrite
  split
  · rfl
  · next hpl =>
    have hmis : a.toNat % 8 ≠ 0 := h.resolve_left (by simp [hpl])
    rw [if_neg (fun hc => hmis hc.1)]

theorem execRegisterWrite_of_place (hs : started s = true) (hpl : regPlace a.toNat = some pl) (hal : a.toNat % 8 = 0) :
    execRegisterWrite p a v s = .next (writeWord s p pl v.toNat) := by
  simp [execRegisterWrite, hpl, hal, hs]

theorem execMgmt_of_freewheels {st : Fin 36} {msg : MgmtMsg} (h : freewheels s st = true) :
    execMgmt st msg s = .next (s.bump (stopUndelivUndeliv st) 1) := by
  simp only [execMgmt, h, if_true]

theorem execMgmt_regWrite {st : Fin 36} (hf : freewheels s st = false) (hpl : regPlace a.toNat = some pl) (hal : a.toNat % 8 = 0)
    (hst : atStop st pl = true) : execMgmt st (.regWrite a v) s = .next (writeWord s .firmware pl v.toNat) := by
  simp [execMgmt, hf, hpl, hal, hst]

end

/-! ## One written word (R441, R448) -/

section
variable {s : State} {p : Path} {pl : RegPlace} {v : Nat}

theorem writeWord_of_ignored (h : served s pl = false ∨ inRanges pl v = false) : writeWord s p pl v = s := by
  unfold writeWord
  rw [if_pos (by rcases h with h | h <;> simp [h])]

theorem writeWord_mirror (s : State) (p : Path) (o v : Nat) : writeWord s p (.mirror o) v = s := by
  unfold writeWord
  split <;> rfl

/-- Below 0x200000 a port die's block holds plain fields alone: the tables and the bays' commands lie above. -/
theorem dieWrite_of_fields (s : State) (k v : Nat) {o : Nat} (ho : o < 0x200000) :
    dieWrite s k o v = writeFields s (.die k o) v := by
  unfold dieWrite
  rw [if_neg (by omega), if_neg (by omega), dif_neg (by omega)]

theorem writeWord_die_of_fields {k o : Nat} (hs : served s (.die k o) = true) (ho : o < 0x200000) :
    writeWord s p (.die k o) v = writeFields s (.die k o) v := by
  have hr : inRanges (.die k o) v = true := rfl
  simp only [writeWord, hs, hr, Bool.not_true, Bool.or_self, Bool.false_eq_true, if_false, dieWrite_of_fields s k v ho]

end

/-- Settles O49: each command by the meaning it calls, and a written word by its place. -/
theorem registerSpaceIsReadAndWritten : Obligations.RegisterSpaceIsReadAndWritten := by
  unfold Obligations.RegisterSpaceIsReadAndWritten
  refine ⟨?regRead, ?provWrite, ?registerWrite, ?freewheels, ?firmware, ?word⟩
  case regRead =>
    intro o s hs ho
    rw [exec_regRead, execRegRead_of_read (started_iff.2 hs) ho, housekeepingAnswer, natLe_length, emit]
  case provWrite => exact fun n es s hs => execProvWrite_of_started (started_iff.2 hs) n es
  case registerWrite =>
    exact fun p a v s hs => ⟨execRegisterWrite_of_noPlace, fun pl => execRegisterWrite_of_place (started_iff.2 hs)⟩
  case freewheels => exact fun st msg s => execMgmt_of_freewheels
  case firmware => exact fun st a v s pl => execMgmt_regWrite
  case word =>
    intro s p pl v
    refine ⟨writeWord_of_ignored, ?_, ?_⟩
    · rintro o rfl; exact writeWord_mirror s p o v
    · rintro k o rfl hs ho; exact writeWord_die_of_fields hs ho

end Sys2Proof.Machine
end

section
/-! SUPPORT. LOAD of a full image and the application of a partial (R47-R52, R270): the two commands by their branches. -/
namespace Sys2Proof.Machine

/-! ## The commands, by their meanings -/

theorem exec_load (s : State) : exec .load s = execLoad s := rfl

theorem exec_partialApply (s : State) : exec .partialApply s = execPartialApply s := rfl

/-! ## LOAD (R47-R51) -/

@[simp] theorem get_loadHeld (s : State) (h : Bool) (f : Fld) : State.get { s with loadHeld := h } f = s.get f := rfl

section
variable {s t : State} {b : List Byte}

/-- Past step 13, with a working root and nothing under way for which R49, R428 and R429 ignore a load, LOAD runs. -/
theorem execLoad_of_ready (hroot : s.rootLost = false) (hstep : 13 ≤ s.get bootStatusStep) (hbusy : loadBusy s = false)
    (hfw : s.on fwUpdateFwBusy = false) (hq : quiesced s = false) (hqg : s.quiescing = 0) :
    execLoad s = .next (runLoad s) := by
  have hway : ¬ (loadBusy s || s.on fwUpdateFwBusy || quiesced s || decide (s.quiescing ≠ 0)) = true := by simp [hbusy, hfw, hq, hqg]
  unfold execLoad
  rw [if_neg (by simp [hroot]), if_neg (Nat.not_lt.2 hstep), if_neg hway]

variable (hmin : 1024 ≤ s.get bsLenLen) (hmax : s.get bsLenLen ≤ 0x40000000)
  (hst : staged { s with loadHeld := false } (s.get bsLenLen) = (some b, t))
include hmin hmax hst

/-- The first check of R49 that fails gives the result, and nothing of the image takes effect. -/
theorem runLoad_of_fault {f : LoadFault} (hf : loadFault t b = some f) : runLoad s = loadResult t f.code f.sec f.off := by
  simp only [runLoad, get_loadHeld, Nat.not_lt.2 hmin, Nat.not_lt.2 hmax, or_self, if_false, hst, hf]

/-- A full image that passes every check replaces the plan (R51). -/
theorem runLoad_of_full (hf : loadFault t b = none) (hkind : bhKind b = 0) : runLoad s = loadResult (fullLoad t b) 1 0xFF 0 := by
  simp only [runLoad, get_loadHeld, Nat.not_lt.2 hmin, Nat.not_lt.2 hmax, or_self, if_false, hst, hf, if_pos hkind]

end

/-! ## PARTIAL_APPLY (R52, R270) -/

section
variable {s : State} {p : Partial}

/-- With every affected hub stalled and no run under way, a pending partial is applied, behind the run of a table that is armed. -/
theorem execPartialApply_of_stalled (hp : s.bs.part = some p) (hst : ∀ r ∈ p.affected, stalledFor s 1 r = true) (hrun : s.drl = none) :
    execPartialApply s = .next (
      if s.on drlCtrlArm = true then
        if (drlStart s (s.get drlCtrlTableId) true).drl = none then applyPartial (drlStart s (s.get drlCtrlTableId) true) p
        else drlStart s (s.get drlCtrlTableId) true
      else applyPartial s p) := by
  have hall : p.affected.all (stalledFor s 1) = true := List.all_eq_true.2 hst
  have hgo : ¬ (!p.affected.all (stalledFor s 1) || s.drl.isSome) = true := by simp [hall, hrun]
  simp only [execPartialApply, hp, if_neg hgo, apply_ite Host.Outcome.next]
  cases (drlStart s (s.get drlCtrlTableId) true).drl <;> rfl

end

/-- Settles O13: LOAD by the outcome of the image's checks, PARTIAL_APPLY with and without an armed table by one lemma. -/
theorem loadsReplaceThePlanInForce : Obligations.LoadsReplaceThePlanInForce := by
  unfold Obligations.LoadsReplaceThePlanInForce
  refine ⟨?load, ?unarmed, ?armed⟩
  case load =>
    intro s t b hroot hstep hbusy hfw hq hqg hmin hmax hst hkind
    rw [exec_load, execLoad_of_ready hroot hstep hbusy hfw hq hqg]
    cases hf : loadFault t b with
    | some f => rw [runLoad_of_fault hmin hmax hst hf]
    | none => rw [runLoad_of_full hmin hmax hst hf hkind]
  case unarmed =>
    intro s p hp hst hrun harm
    rw [exec_partialApply, execPartialApply_of_stalled hp hst hrun, if_neg (by simp [harm])]
  case armed =>
    intro s t p hp hst hrun harm ht
    rw [exec_partialApply, execPartialApply_of_stalled hp hst hrun, if_pos harm, ht]

end Sys2Proof.Machine
end

section
/-! SUPPORT. The start of an MXE command (R88-R99, R110) and the finished-tile queue (R106-R109): the commands by their branches. -/
namespace Sys2Proof.Machine

/-! ## The commands, by their meanings -/

theorem exec_mxeMm (r : Fin 32) (cl : Fin 96) (s : State) : exec (.mxeMm r cl) s = execMxeMm r cl s := rfl

theorem exec_mxeMmSparse (r : Fin 32) (cl : Fin 96) (s : State) : exec (.mxeMmSparse r cl) s = execMxeMmSparse r cl s := rfl

theorem exec_mxeMmSelect (r : Fin 32) (cl : Fin 96) (s : State) : exec (.mxeMmSelect r cl) s = execMxeMmSelect r cl s := rfl

theorem exec_finishedTilePush (r : Fin 32) (cl : Fin 96) (s : State) : exec (.finishedTilePush r cl) s = execFinishedTilePush r cl s := rfl

/-! ## An MXE command starts (R98, R99) -/

section
variable {r : Fin 32} {cl : Fin 96} {s : State} {l : Live}

theorem execMxeMm_of_turn (h : mxeTurn s r cl 0x20 = some l) : execMxeMm r cl s = .next (mxeStart s r cl l) := by
  simp only [execMxeMm, h]

theorem execMxeMmSparse_of_turn (h : mxeTurn s r cl 0x21 = some l) : execMxeMmSparse r cl s = .next (mxeStart s r cl l) := by
  simp only [execMxeMmSparse, h]

theorem execMxeMmSelect_of_turn (h : mxeTurn s r cl 0x22 = some l) : execMxeMmSelect r cl s = .next (mxeStart s r cl l) := by
  simp only [execMxeMmSelect, h]

/-- The three opcodes differ in the turn that they wait for, and in nothing after it. -/
theorem exec_mxe_of_turn {c : Instr} {op : Nat}
    (hc : c = .mxeMm r cl ∧ op = 0x20 ∨ c = .mxeMmSparse r cl ∧ op = 0x21 ∨ c = .mxeMmSelect r cl ∧ op = 0x22)
    (h : mxeTurn s r cl op = some l) : exec c s = .next (mxeStart s r cl l) := by
  rcases hc with ⟨rfl, rfl⟩ | ⟨rfl, rfl⟩ | ⟨rfl, rfl⟩
  · exact (exec_mxeMm r cl s).trans (execMxeMm_of_turn h)
  · exact (exec_mxeMmSparse r cl s).trans (execMxeMmSparse_of_turn h)
  · exact (exec_mxeMmSelect r cl s).trans (execMxeMmSelect_of_turn h)

end

/-- A command with product `o` taken from its FIFO: it has started, and a held product stays in the cluster under its number. -/
def takeMxe (s : State) (r cl : Nat) (l : Live) (o : MxeOut) : State :=
  let u := updLive (fifoPop s r (100 + cl)) r l.id (fun x => { x with started := true, holds := o.held.isSome })
  u.setCluster r cl { (u.cluster r cl) with held := o.held.map (fun h => { h with cmd := l.id }) }

/-- What a product gives its command's record beside the counts of its tiles. -/
def MxeOut.res (o : MxeOut) : Res := { status := o.status, flags := o.flags, cycles := o.cycles }

/-- The run that drains a product which is not held: its entries, or a terminator where there is none (R107, R108). -/
def MxeOut.run (o : MxeOut) (l : Live) : MxeRun :=
  { cmd := some l.id, stream := opStream l.bytes
    drain := if o.entries = [] then [terminator (opStream l.bytes) o.status 0 o.flags] else o.entries
    stats := o.stats, res := o.res }

section
variable {s t : State} {r cl : Nat} {l : Live} {o : MxeOut}
  (hcmd : mxeCommand s (acctOf r l) r cl (cmdOpcode l.bytes) (getLe l.bytes 0x31 1) (opStream l.bytes) (opAddr l.bytes) id = (o, t))
include hcmd

theorem mxeStart_of_held (hheld : o.held.isSome = true) :
    mxeStart s r cl l = finish (xstat (takeMxe t r cl l o) r cl (o.stats.foldl statOr {})) r l (o.res.withStat (o.stats.foldl statOr {})) := by
  simp only [mxeStart, hcmd, hheld, if_true, takeMxe, MxeOut.res]

theorem mxeStart_of_not_held (hheld : ¬ o.held.isSome = true) :
    mxeStart s r cl l = (takeMxe t r cl l o).setCluster r cl (((takeMxe t r cl l o).cluster r cl).addRun (o.run l)) := by
  simp only [mxeStart, hcmd, hheld, Bool.false_eq_true, if_false, List.isEmpty_iff, takeMxe, MxeOut.run, MxeOut.res]

end

/-- Settles O5: the opcodes start a command alike, and its product is held or drains. -/
theorem mxeCommandsDrainTheirProduct : Obligations.MxeCommandsDrainTheirProduct := by
  unfold Obligations.MxeCommandsDrainTheirProduct
  rintro r cl s t _ _ l o c op _ hc hturn hcmd rfl rfl rfl
  rw [exec_mxe_of_turn hc hturn]
  split
  case isTrue hheld => exact congrArg _ (mxeStart_of_held hcmd hheld)
  case isFalse hheld => exact congrArg _ (mxeStart_of_not_held hcmd hheld)

/-! ## Register flags leave the hubs alone (R110) -/

theorem hubs_ite_put (s : State) (f : Fld) (v : Nat) (p : Prop) [Decidable p] : (if p then s.put f v else s).hubs = s.hubs := by
  split
  · exact s.put_hubs f v
  · rfl

@[simp] theorem xstat_hubs (s : State) (r cl : Nat) (st : MxeStat) : (xstat s r cl st).hubs = s.hubs := by
  simp only [xstat, State.bump, State.put_hubs, hubs_ite_put]

/-- Setting register flags and changing a cluster leave the hubs, and so the live commands, as they are. -/
theorem hub_setCluster_xstat (s : State) (r cl : Nat) (st : MxeStat) (c : Cluster) (k : Nat) :
    ((xstat s r cl st).setCluster r cl c).hub k = s.hub k := by
  simp only [State.hub, State.setCluster_hubs, xstat_hubs]

/-! ## An entry enters the finished-tile queue (R107, R108) -/

/-- What is left of a run once entry `e` of it has entered the queue, with `rest` to follow. -/
def MxeRun.advance (run : MxeRun) (e : TqEntry) (rest : List TqEntry) : MxeRun :=
  { run with
    drain := rest, stats := run.stats.drop 1, seen := statOr run.seen (run.stats.headD {}), pushed := run.pushed + b2n (!e.term)
    res := { run.res with flags := flagsOr run.res.flags (statFlags {} e.nonfinite) } }

/-- With no run, no waiting command and no `PRED_RUN` on the cluster, the first terminator owed is due. -/
theorem owedTurn_of_idle {s : State} {r cl k : Nat} {c : Cluster} {e : TqEntry} {rest : List (Nat × TqEntry)}
    (howed : c.owed = (k, e) :: rest) (hmxe : c.mxe = none) (hfifo : fifoOf s r (100 + cl) = []) (hpred : c.pred = none) :
    owedTurn s r cl c = some (e, rest) := by
  simp [owedTurn, howed, hmxe, hfifo, hpred]

section
variable {r : Fin 32} {cl : Fin 96} {s : State} {e : TqEntry}
  (hrun : running s r = true) (hroom : (s.cluster r cl).tq.length < 16)
include hrun hroom

theorem execFinishedTilePush_of_owed {rest : List (Nat × TqEntry)} (howed : owedTurn s r cl (s.cluster r cl) = some (e, rest)) :
    execFinishedTilePush r cl s = .next (s.setCluster r cl
      (pushEntry { (s.cluster r cl) with owed := rest, held := if (s.cluster r cl).mxe.isNone then none else (s.cluster r cl).held } e)) := by
  simp [execFinishedTilePush, hrun, Nat.not_le.2 hroom, howed]

variable {run : MxeRun} (howed : owedTurn s r cl (s.cluster r cl) = none) (hmxe : (s.cluster r cl).mxe = some run)
include howed hmxe

theorem execFinishedTilePush_of_more {e' : TqEntry} {rest : List TqEntry} (hdrain : run.drain = e :: e' :: rest) :
    execFinishedTilePush r cl s = .next ((xstat s r cl (run.stats.headD {})).setCluster r cl
      { (pushEntry (s.cluster r cl) e) with mxe := some (run.advance e (e' :: rest)) }) := by
  simp [execFinishedTilePush, hrun, Nat.not_le.2 hroom, howed, hmxe, hdrain, MxeRun.advance]

theorem execFinishedTilePush_of_last {l : Live} (hdrain : run.drain = [e]) (hlive : run.cmd.bind (findLive (s.hub r)) = some l) :
    execFinishedTilePush r cl s = .next (finish ((xstat s r cl (run.stats.headD {})).setCluster r cl
      { (pushEntry (s.cluster r cl) e) with
        mxe := (pushEntry (s.cluster r cl) e).mxeNext.head?, mxeNext := (pushEntry (s.cluster r cl) e).mxeNext.drop 1 }) r l
      { (Res.withStat (run.advance e []).res (run.advance e []).seen) with work := (run.advance e []).pushed }) := by
  simp [execFinishedTilePush, hrun, Nat.not_le.2 hroom, howed, hmxe, hdrain, hub_setCluster_xstat, hlive, MxeRun.advance]

end

/-- Settles O6, by what enters the queue: an entry with others behind it, a command's last one, a terminator that is due. -/
theorem finishedTilesEnterTheQueue : Obligations.FinishedTilesEnterTheQueue := by
  unfold Obligations.FinishedTilesEnterTheQueue
  refine ⟨?more, ?last, ?owed⟩
  case more =>
    intro r cl s run e e' rest hrun hmxe hdrain hroom howed
    exact (exec_finishedTilePush r cl s).trans (execFinishedTilePush_of_more hrun hroom howed hmxe hdrain)
  case last =>
    intro r cl s run e l hrun hmxe hdrain hroom howed hlive
    exact (exec_finishedTilePush r cl s).trans (execFinishedTilePush_of_last hrun hroom howed hmxe hdrain hlive)
  case owed =>
    intro r cl s e rest hrun howed hroom
    exact ⟨(exec_finishedTilePush r cl s).trans (execFinishedTilePush_of_owed hrun hroom howed), fun k => owedTurn_of_idle⟩

end Sys2Proof.Machine
end

section
/-! SUPPORT. The vector engine (R111, R112, R466) and the release of a waiting producer (R72, R74): a command that takes nothing from the
finished-tile queue, by its branches. -/
namespace Sys2Proof.Machine

/-! ## The commands, by their meanings -/

theorem exec_veExec (r : Fin 32) (cl : Fin 96) (s : State) : exec (.veExec r cl) s = execVeExec r cl s := rfl

theorem exec_primeRelease (r : Fin 32) (cl : Fin 96) (s : State) : exec (.primeRelease r cl) s = execPrimeRelease r cl s := rfl

theorem veGo_of_not_qfed {s : State} {r cl : Nat} {l : Live} {d : Vd} (hq : d.qfed = false) : veGo s r cl l d = veWhole s r cl l d := by
  simp only [veGo, hq, Bool.false_eq_true, if_false]

/-! ## A command starts (R111, R466) -/

/-- A free engine starts the front command of its FIFO, unless a `PRED_RUN` holds the cluster (R179). -/
theorem execVeExec_of_free {r : Fin 32} {cl : Fin 96} {s : State} {l : Live} (hrun : running s r = true)
    (hve : (s.cluster r cl).ve = none) (hpred : (s.cluster r cl).pred = none) (hhead : fifoHead s r (200 + cl) = some l) :
    execVeExec r cl s = .next (veStart s r cl l) := by
  simp only [execVeExec, hrun, hve, hpred, hhead, Bool.not_true, Option.isSome_none, Bool.false_eq_true, if_false]

/-- Does the command name a long format and find the subnormal path powered down, under `SUBNORMAL` 1 (R356)? -/
def veWakes (s : State) (r cl : Nat) (d : Vd) : Bool := namesLong d && (s.cluster r cl).subDown && decide (modeByte s r 10 = 1)

/-- The engine takes command `l` with descriptor `b`; it waits 32 cycles for a subnormal path that it finds down (R356). -/
def veTake (s : State) (r cl : Nat) (l : Live) (b : List Byte) : State :=
  s.setCluster r cl { s.cluster r cl with
    ve := some { cmd := l.id, desc := b, cycles := if veWakes s r cl (vdOf b) then 32 else 0 }
    subDown := (s.cluster r cl).subDown && !veWakes s r cl (vdOf b) }

/-- A function outside the queue whose checks pass and whose output has no scale record executes as soon as it has its descriptor. -/
theorem veBegin_of_unscaled {u v : State} {r cl : Nat} {l : Live} {b : List Byte}
    (halign : opAddr l.bytes % 64 = 0) (hpad : inPad r cl (opAddr l.bytes) 256 = true)
    (hread : readMem u (acctOf r l) (opAddr l.bytes) 256 = (.ok b, v)) (hok : vdOk (vdOf b) (getLe l.bytes 0x31 1 % 8) = true)
    (hplaces : vdPlaces (updLive v r l.id (fun x => { x with unread := false })) r cl (vdOf b) = true)
    (hscaled : (vdOf b).out0.scaled = false) (hq : (vdOf b).qfed = false) :
    veBegin u r cl l id = veWhole (veTake (updLive v r l.id (fun x => { x with unread := false })) r cl l b) r cl l (vdOf b) := by
  have hplace : ¬ (opAddr l.bytes % 64 ≠ 0 ∨ (!inPad r cl (opAddr l.bytes) 256) = true) := by simp [halign, hpad]
  unfold veBegin
  simp only [if_neg hplace, hread, id_eq, hq, hok, hplaces, hscaled, Bool.not_true, Bool.not_false, Bool.false_eq_true, false_and, if_false,
    if_true, ne_eq, not_true_eq_false]
  exact veGo_of_not_qfed hq

/-! ## The work of a function (R112) -/

/-- What a function that has executed leaves in its run: the greatest amax and the saturations of its outputs, its flags, cycles and bytes,
and progress over all of its rows. -/
def VeRun.worked (v : VeRun) (d : Vd) (w : VeWork) : VeRun :=
  { v with
    amax := w.plans.foldl (fun m p => max32 m p.amax) 0, sat := (w.plans.map (fun p => p.sat)).sum, flags := v.flags ||| w.flags
    cycles := v.cycles + w.cycles, bytes := v.bytes + w.bytes, progress := d.out0.n1 * d.out0.n2 }

/-- Outside its prime pass a function whose work is `OK`, and all of whose outputs are written, counts it, sends its adds and closes. -/
theorem veWhole_of_written {r cl : Nat} {l : Live} {d : Vd} {s t u : State} {v : VeRun} {w : VeWork}
    (hve : (s.cluster r cl).ve = some v) (hprime : v.prime = false)
    (hwork : veWork s (acctOf r l) d (getLe l.bytes 0x31 1 % 8) v.scale l.step v.noRec = (w, t)) (hok : w.status = stOk)
    (hwrite : writePlans t (acctOf r l) w.plans = (none, u)) :
    veWhole s r cl l d = veClose (w.adds.foldl (fun x a => sendRun x r cl l.step a)
      (updVe (u.bump (veXstatNfCount r cl) ((w.plans.map (fun p => p.nfCount)).sum + w.nfAdds)) r cl (fun v => v.worked d w))) r cl l d true := by
  simp only [veWhole, hve, hprime, hwork, hok, hwrite, ne_eq, not_true_eq_false, Bool.false_eq_true, if_false, VeRun.worked]

/-! ## PRIME_RELEASE (R74) -/

/-- The release of a producer: the scale of the combined maximum is written with the flag `PRIMED`, and the run takes it and waits no more. -/
def primeReleased (s : State) (r cl : Nat) (l : Live) (d : Vd) (rec' : List Byte) : State :=
  (updVe (writeNat (writeNat s (acctOf r l) d.srec 4 (scaleFor d.out0.fmtOf (getLe rec' 12 4))).2
      (acctOf r l) (d.srec + 19) 1 (srFlags rec' ||| 1)).2 r cl
    (fun x => { x with phase := 0, prime := false, scale := scaleFor d.out0.fmtOf (getLe rec' 12 4) })).put (veXstatPrimeWait r cl) 0

/-- A waiting producer whose record shows `PRIME_DONE` at `PRODUCERS` is released and executes again. -/
theorem execPrimeRelease_of_reached {r : Fin 32} {cl : Fin 96} {s t : State} {v : VeRun} {l : Live} {b : List Byte}
    (hrun : running s r = true) (hve : (s.cluster r cl).ve = some v) (hlive : findLive (s.hub r) v.cmd = some l) (hphase : v.phase = 2)
    (hout : v.outstanding = 0) (hstruck : l.struck = false) (hq : (vdHere v).qfed = false)
    (hreach : reach s r (vdHere v).srec 320 = .serve) (hread : readMem s (acctOf r l) (vdHere v).srec 320 = (.ok b, t))
    (hdone : srProducers b ≤ getLe b 32 8) :
    execPrimeRelease r cl s = .next (veWhole (primeReleased t r cl l (vdHere v) b) r cl l (vdHere v)) := by
  have hwaits : ¬ ((!running s r) = true ∨ v.phase ≠ 2 ∨ v.outstanding ≠ 0 ∨ l.struck = true) := by simp [hrun, hphase, hout, hstruck]
  simp only [execPrimeRelease, hve, hlive, if_neg hwaits, hreach, hread, if_neg (Nat.not_lt.2 hdone), hq, Bool.false_eq_true, if_false,
    veGo_of_not_qfed hq, primeReleased]

/-- Settles O7: the start of a command, the work of a function, the release of a producer, by one lemma each. -/
theorem veCommandsExecute : Obligations.VeCommandsExecute := by
  unfold Obligations.VeCommandsExecute
  refine ⟨?start, ?work, ?release⟩
  case start =>
    rintro r cl s _ v _ l b _ hrun hve hpred hhead rfl halign hpad hread rfl rfl hok hplaces hscaled hq
    rw [exec_veExec, execVeExec_of_free hrun hve hpred hhead]
    exact congrArg _ (veBegin_of_unscaled halign hpad hread hok hplaces hscaled hq)
  case work =>
    intro r cl l d s t u v w hve hprime hwork hok hwrite
    exact veWhole_of_written hve hprime hwork hok hwrite
  case release =>
    intro r cl s t v l b hrun hve hlive hphase hout hstruck hq hreach hread hdone
    exact (exec_primeRelease r cl s).trans (execPrimeRelease_of_reached hrun hve hlive hphase hout hstruck hq hreach hread hdone)

end Sys2Proof.Machine
end

section
/-! SUPPORT. UPE_UPDATE (R158-R160): an update in progress whose step has its verdict, by that verdict. -/
namespace Sys2Proof.Machine

theorem exec_upeUpdate (r : Fin 32) (d : Fin 2) (s : State) : exec (.upeUpdate r d) s = execUpeUpdate r d s := rfl

/-- An engine of a running region with an update in progress goes on with it. -/
theorem execUpeUpdate_of_run {r : Fin 32} {d : Fin 2} {s : State} {run : UpeRun} (hrun : running s r = true)
    (hupe : (s.upe r d).run = some run) : execUpeUpdate r d s = .next (upeAdvance s r d) := by
  simp only [execUpeUpdate, hrun, hupe, Bool.not_true, Bool.false_eq_true, if_false]

section
variable {r d : Nat} {s u : State} {run : UpeRun} {l : Live} {tbl : List Slice} {x : Slice} {v : Verd}
  (hupe : (s.upe r d).run = some run) (hlive : findLive (s.hub r) run.cmd = some l) (hphase : run.phase ≠ 2)
  (htbl : sliceTable s r = (tbl, u)) (hx : tbl[udSlice run.ud]? = some x) (hv : tabFind (updateStep u r l x) (u.flow r).verds = some v)
include hupe hlive hphase htbl hx hv

/-- What an update does once the verdict of its step is there: COMMIT applies it, behind the slice's scan and the journal (R374); SKIP and
FAIL end it (R160). -/
theorem upeAdvance_of_verdict :
    upeAdvance s r d =
      if v.v = 1 then (if x.st ≠ 2 ∨ journalHolds u r (updateStep u r l x) = true then u else upeApply u r d l run x (updateStep u r l x) v)
      else if v.v = 2 then upeEnd u r d l { run with flags := flNonfinite } stOk none
      else upeEnd u r d l run stStepFailed none := by
  simp only [upeAdvance, hupe, hlive, htbl, hx, if_neg hphase, hv]
  split
  · next h => rw [if_pos h]
  · next h => rw [if_neg (by omega), if_pos h]
  · next h₁ h₂ => rw [if_neg h₁, if_neg h₂]

theorem upeAdvance_of_commit (hst : x.st = 2) (hj : journalHolds u r (updateStep u r l x) = false) (hc : v.v = 1) :
    upeAdvance s r d = upeApply u r d l run x (updateStep u r l x) v := by
  rw [upeAdvance_of_verdict hupe hlive hphase htbl hx hv, if_pos hc, if_neg (by simp [hst, hj])]

theorem upeAdvance_of_skip (hc : v.v = 2) :
    upeAdvance s r d = upeEnd u r d l { run with flags := flNonfinite } stOk none := by
  rw [upeAdvance_of_verdict hupe hlive hphase htbl hx hv, if_neg (by omega), if_pos hc]

theorem upeAdvance_of_fail (hc : v.v = 3) : upeAdvance s r d = upeEnd u r d l run stStepFailed none := by
  rw [upeAdvance_of_verdict hupe hlive hphase htbl hx hv, if_neg (by omega), if_neg (by omega)]

end

/-! ## The step of an update (R159) -/

theorem updateStep_of_not_scanned {s : State} {r : Nat} {l : Live} {x : Slice} (h : x.st ≠ 2) : updateStep s r l x = l.step := if_neg h

theorem updateStep_of_scanned {s : State} {r t : Nat} {l : Live} {x : Slice} (h : x.st = 2)
    (hs : tabFind x.idx (s.flow r).scanned = some (t + 1)) : updateStep s r l x = t := by
  rw [updateStep, if_pos h, tabGet_eq_find, hs, Option.getD_some, Nat.add_sub_cancel]

/-- Settles O8: the update goes on by its verdict, and its step by whether its slice is SCANNED. -/
theorem optimizerUpdatesApplyTheVerdict : Obligations.OptimizerUpdatesApplyTheVerdict := by
  unfold Obligations.OptimizerUpdatesApplyTheVerdict
  refine ⟨?commit, ?passedOver, ?step⟩
  case commit =>
    intro r d s u run l tbl x v hrun hupe hlive hphase htbl hx hst hj hv hc
    rw [exec_upeUpdate, execUpeUpdate_of_run hrun hupe, upeAdvance_of_commit hupe hlive hphase htbl hx hv hst hj hc]
  case passedOver =>
    intro r d s u run l tbl x v hrun hupe hlive hphase htbl hx hv
    rw [exec_upeUpdate, execUpeUpdate_of_run hrun hupe]
    exact ⟨fun hc => congrArg _ (upeAdvance_of_skip hupe hlive hphase htbl hx hv hc),
      fun hc => congrArg _ (upeAdvance_of_fail hupe hlive hphase htbl hx hv hc)⟩
  case step => exact fun s r l x => ⟨updateStep_of_not_scanned, fun t => updateStep_of_scanned⟩

end Sys2Proof.Machine
end

section
/-! SUPPORT. The pannier's commands (R140-R146, R232): their starts, and what the end of a transfer does to them. -/
namespace Sys2Proof.Machine

/-! ## The commands, by their meanings -/

theorem exec_panPut (r : Fin 32) (s : State) : exec (.panPut r) s = execPanPut r s := rfl

theorem exec_panGet (r : Fin 32) (s : State) : exec (.panGet r) s = execPanGet r s := rfl

theorem exec_panFree (r : Fin 32) (s : State) : exec (.panFree r) s = execPanFree r s := rfl

/-! ## A command in progress (R141, R232) -/

theorem execPanPut_of_run {r : Fin 32} {s : State} {run : PanRun} (h : (s.pan r).run = some run) :
    execPanPut r s = .next (panGo s r 0x50 run) := by
  simp only [execPanPut, h]

theorem execPanGet_of_run {r : Fin 32} {s : State} {run : PanRun} (h : (s.pan r).run = some run) :
    execPanGet r s = .next (panGo s r 0x51 run) := by
  simp only [execPanGet, h]

/-- The record of a command in progress with what its transfer adds to it. -/
def PanRun.resWith (run : PanRun) (x : Res) : Res :=
  { run.res with flags := flagsOr run.res.flags x.flags, bytes := run.res.bytes + x.bytes, cycles := run.res.cycles + x.cycles }

/-- The end of the transfer has been taken. -/
def panTaken (s : State) (r : Nat) : State := updPanRun s r (fun p => { p with done := none })

section
variable {s : State} {r : Nat} {run : PanRun} {l : Live} {x : Res}

/-- In a running region the end of the transfer goes to the command whose opcode the row names. -/
theorem panGo_of_done {op : Nat} (hrun : running s r = true) (hlive : findLive (s.hub r) run.cmd = some l) (hop : cmdOpcode l.bytes = op)
    (hdone : run.done = some x) : panGo s r op run = panMoved s r l run x := by
  simp only [panGo, hlive, hrun, hop, hdone, decide_true, Bool.not_true, Bool.or_self, Bool.false_eq_true, if_false]

theorem panMoved_of_put {e : PanEntry} (hok : x.status = stOk) (hback : run.back = none) (hentry : run.entry = some e) :
    panMoved s r l run x = panPutDone (panTaken s r) r l e (run.resWith x) := by
  simp only [panMoved, hok, hback, hentry, ne_eq, not_true_eq_false, if_false, panTaken, PanRun.resWith]

theorem panMoved_of_get (hok : x.status = stOk) (hentry : run.entry = none) :
    panMoved s r l run x = panGot (panTaken s r) r l (pdLayer run.pd) (run.resWith x) := by
  simp only [panMoved, hok, hentry, ne_eq, not_true_eq_false, if_false, panTaken, PanRun.resWith]

theorem panPutDone_of_stored {e : PanEntry} {res : Res} {o : Nat} (h : e.st = .stored o) :
    panPutDone s r l e res = panEnd (setEntries s r ((s.pan r).entries ++ [e])) r l res := by
  simp only [panPutDone, h]

end

/-! ## A put starts (R141-R144) -/

section
variable {r : Fin 32} {s t : State} {l : Live} {b : List Byte}
  (hfree : (s.pan r).run = none) (hturn : panTurn s r 0x50 = some l) (hbar : l.barred = false)
  (hdesc : panDesc (panStarted s r l) r l = (.ok b, t)) (hsrc : inRegion t r (pdSrc b) (pdBytes b) = true)
include hfree hturn hbar hdesc hsrc

/-- Past the checks of its descriptor a put ends `PAN_KEY_LIVE` for a live key, is stored where it fits, and else overflows. -/
theorem execPanPut_of_turn :
    execPanPut r s = .next (if (panFind t r (pdLayer b) (panMb l)).isSome = true then panEnd t r l { status := stPanKeyLive }
      else (panFits t r (pdBytes b)).elim (panOverflow t r l b) (panStore t r l b)) := by
  simp only [execPanPut, hfree, hturn, hbar, hdesc, hsrc, Bool.not_true, Bool.false_eq_true, if_false]
  split
  case isTrue => rfl
  case isFalse =>
    split
    · next o hfit => rw [hfit, Option.elim_some]
    · next hfit => rw [hfit, Option.elim_none]

end

/-! ## A get starts (R145) -/

theorem execPanGet_of_turn {r : Fin 32} {s : State} {l : Live} (hfree : (s.pan r).run = none) (hturn : panTurn s r 0x51 = some l) :
    execPanGet r s = .next (panGetStart s r l) := by
  simp only [execPanGet, hfree, hturn]

section
variable {s t : State} {r : Nat} {l : Live} {b : List Byte} (hdesc : panDesc (panStarted s r l) r l = (.ok b, t))
include hdesc

theorem panGetStart_of_stored {e : PanEntry} {o : Nat} (hkey : panFind t r (pdLayer b) (panMb l) = some e) (hst : e.st = .stored o)
    (hdst : inRegion t r (panDst l) e.bytes = true) :
    panGetStart s r l = panMove t r { cmd := l.id, pd := b, mb := panMb l } 0 0 (stackBase r + o) (panDst l) e.bytes := by
  simp only [panGetStart, hdesc, hkey, hst, hdst, Bool.not_true, Bool.false_eq_true, if_false]

theorem panGetStart_of_missing (hkey : panFind t r (pdLayer b) (panMb l) = none) :
    panGetStart s r l = panEnd t r l { status := stPanNoEntry } := by
  simp only [panGetStart, hdesc, hkey]

end

/-! ## A free (R146) -/

theorem execPanFree_of_entry {r : Fin 32} {s t : State} {l : Live} {b : List Byte} {e : PanEntry} (hturn : panTurn s r 0x52 = some l)
    (hdesc : panDesc (panStarted s r l) r l = (.ok b, t)) (hkey : panFind t r (pdLayer b) (panMb l) = some e) :
    execPanFree r s = .next (if dependants t r e then panEnd t r l { status := stPanAnchorBusy }
      else panEnd (panDel t r e.layer e.mb) r l {}) := by
  simp only [execPanFree, hturn, hdesc, hkey, apply_ite Host.Outcome.next]

/-- Settles O9: each command by its start, and a put and a get by the end of their transfer. -/
theorem pannierCommandsActOnEntries : Obligations.PannierCommandsActOnEntries := by
  unfold Obligations.PannierCommandsActOnEntries
  refine ⟨?put, ?putLive, ?putDone, ?get, ?getDone, ?free⟩
  case put =>
    intro r s t l b hturn hfree hbar hdesc hsrc hkey
    rw [exec_panPut, execPanPut_of_turn hfree hturn hbar hdesc hsrc, if_neg (by simp [hkey])]
    exact ⟨fun o hfit => by rw [hfit, Option.elim_some, panStore], fun hfit => by rw [hfit, Option.elim_none]⟩
  case putLive =>
    intro r s t l b e hturn hfree hbar hdesc hsrc hkey
    rw [exec_panPut, execPanPut_of_turn hfree hturn hbar hdesc hsrc, if_pos (by simp [hkey])]
  case putDone =>
    intro r s run l x e o hpan hrun hlive hop hdone hok hback hentry hst
    rw [exec_panPut, execPanPut_of_run hpan, panGo_of_done hrun hlive hop hdone, panMoved_of_put hok hback hentry, panPutDone_of_stored hst]
    rfl
  case get =>
    intro r s t l b hfree hturn hdesc
    rw [exec_panGet, execPanGet_of_turn hfree hturn]
    exact ⟨fun e o hkey hst hdst => congrArg _ (panGetStart_of_stored hdesc hkey hst hdst),
      fun hkey => congrArg _ (panGetStart_of_missing hdesc hkey)⟩
  case getDone =>
    intro r s run l x hpan hrun hlive hop hdone hok hentry
    rw [exec_panGet, execPanGet_of_run hpan, panGo_of_done hrun hlive hop hdone, panMoved_of_get hok hentry]
    rfl
  case free =>
    intro r s t l b e hturn hdesc hkey
    exact (exec_panFree r s).trans (execPanFree_of_entry hturn hdesc hkey)

end Sys2Proof.Machine
end

section
/-! SUPPORT. Contributions, scans and votes (R149-R153, R264, R267): each row by its branches. -/
namespace Sys2Proof.Machine

/-! ## The commands, by their meanings -/

theorem exec_notice (i : Nat) (s : State) : exec (.notice i) s = execNotice i s := rfl

theorem exec_sliceScan (r : Fin 32) (index : Nat) (s : State) : exec (.sliceScan r index) s = execSliceScan r index s := rfl

theorem exec_voteCast (r : Fin 32) (s : State) : exec (.voteCast r) s = execVoteCast r s := rfl

theorem exec_vote (i : Nat) (s : State) : exec (.vote i) s = execVote i s := rfl

/-! ## A notice (R149, R150, R267) -/

section
variable {i : Nat} {s : State} {m : Msg} (harr : arriving s i 7 = some m)
include harr

theorem execNotice_of_freewheels (h : freewheels s m.dst = true) :
    execNotice i s = .next ({ s with ring := s.ring.eraseIdx i }.bump (stopUndelivUndeliv m.dst) 1) := by
  simp only [execNotice, harr, h, if_true]

theorem execNotice_of_stops (h : freewheels s m.dst = false) : execNotice i s = .next (noticeArrives (deliver s i m) m) := by
  simp only [execNotice, harr, h, Bool.false_eq_true, if_false]

end

section
variable {s t : State} {m : Msg} {l : List Slice} (htbl : sliceTable s m.dst = (l, t))
include htbl

theorem noticeArrives_of_contribution (hk : m.nkind ≠ 1) :
    noticeArrives s m = (slicesIn l m.addr m.rangeLen).foldl (fun u x => contribute u m.dst m.step x) t := by
  simp only [noticeArrives, htbl, if_neg hk]

/-- An abort notice faults the first slice that its range meets. -/
theorem noticeArrives_of_abort (hk : m.nkind = 1) :
    noticeArrives s m = (slicesIn l m.addr m.rangeLen).head?.elim t (fun x => ownerFault t m.dst m.step x.base) := by
  simp only [noticeArrives, htbl, if_pos hk]

end

/-! ## A contribution (R149, R150) -/

section
variable {s : State} {r t : Nat} {x : Slice}

theorem contribute_of_fault (h : x.st ≠ 0 ∨ x.expect < x.contrib t + 1) : contribute s r t x = sliceFault s r t x.base := if_pos h

/-- An open slice that is not full counts the contribution, and is released by its last one. -/
theorem contribute_of_open (hst : x.st = 0) (hle : x.contrib t + 1 ≤ x.expect) :
    contribute s r t x =
      if x.contrib t + 1 = x.expect then release (putSlice s r x (0x10 + 2 * (t % 2)) 2 (x.contrib t + 1)) r t x
      else putSlice s r x (0x10 + 2 * (t % 2)) 2 (x.contrib t + 1) :=
  if_neg (not_or.2 ⟨fun hne => hne hst, Nat.not_lt.2 hle⟩)

end

/-! ## A scan (R151) -/

/-- The region learns that step `t` has an element that is not finite, where `vals` holds one. -/
def noteNonfinite (s : State) (r t : Nat) (f : Fmt) (vals : List Nat) : State :=
  if vals.all (fun v => isFinite (decNum f v)) then s else updFlow s r (fun g => { g with nf := setIns t g.nf })

/-- The region's sum of squares of step `t` grows by a scanned slice's, where the update descriptor `ud` asks for it. -/
def addSumsq (s : State) (r t : Nat) (f : Fmt) (vals : List Nat) (ud : List Byte) : State :=
  if bitAt (getLe ud 0x3D 1) 1 then
    updFlow s r (fun g => { g with sumsq := tabPut t (add32 (tabGet 0 t g.sumsq) (clipSum f (lossOf s r t) vals)) g.sumsq }) else s

/-- The format of a slice's elements. -/
def Slice.fmt (x : Slice) : Fmt := if x.pw16 then Fmt.pw16 else Fmt.b32

/-- The encodings of a slice's elements, from its bytes. -/
def Slice.elems (x : Slice) (b : List Byte) : List Nat := unpackBytes x.fmt (x.bytes / (if x.pw16 then 2 else 4)) b

section
variable {r : Fin 32} {index : Nat} {s t u : State} {l : List Slice} {x : Slice}
  (hrun : running s r = true) (htbl : sliceTable s r = (l, t)) (hx : l[index]? = some x) (hst : x.st = 1) (hdest : x.dest = 0)
include hrun htbl hx hst hdest

theorem execSliceScan_of_unreadable {e : MemErr}
    (hread : readMem t (inStep r (tabGet 1 index (t.flow r).released - 1)) x.base x.bytes = (.error e, u)) :
    execSliceScan r index s = .next (markScanned u r x (tabGet 1 index (t.flow r).released - 1)) := by
  simp only [execSliceScan, htbl, hx, hrun, hst, hdest, hread, Bool.not_true, Bool.false_eq_true, ne_eq, not_true_eq_false, or_self, if_false]

theorem execSliceScan_of_read {v : State} {b ud : List Byte}
    (hread : readMem t (inStep r (tabGet 1 index (t.flow r).released - 1)) x.base x.bytes = (.ok b, u))
    (hud : readMem (noteNonfinite u r (tabGet 1 index (t.flow r).released - 1) x.fmt (x.elems b))
      (inStep r (tabGet 1 index (t.flow r).released - 1)) x.target 128 = (.ok ud, v)) :
    execSliceScan r index s = .next (markScanned (addSumsq v r (tabGet 1 index (t.flow r).released - 1) x.fmt (x.elems b) ud) r x
      (tabGet 1 index (t.flow r).released - 1)) := by
  unfold noteNonfinite Slice.elems Slice.fmt at hud
  simp only [execSliceScan, htbl, hx, hrun, hst, hdest, hread, hud, Bool.not_true, Bool.false_eq_true, ne_eq, not_true_eq_false, or_self, if_false,
    addSumsq, Slice.elems, Slice.fmt]

end

/-! ## A region votes (R152) -/

section
variable {r : Fin 32} {s : State} (hrun : running s r = true) (hvoter : (voters s).contains r.val = true) (hdrain : (s.hub r).draining = false)
include hrun hvoter hdrain

theorem execVoteCast_of_late {t : Nat} (hlate : lateTrouble (s.flow r) = some t) :
    execVoteCast r s = .next (sendVote s r t 0 (voteBits (s.flow r) t) 0) := by
  simp only [execVoteCast, hrun, hvoter, hdrain, hlate, Bool.not_true, Bool.or_self, Bool.false_eq_true, if_false]

/-- With no vote to correct, the step not voted on is voted on once it is over and every slice is scanned for it. -/
theorem execVoteCast_of_over {t : State} {l : List Slice} (hlate : lateTrouble (s.flow r) = none) (htbl : sliceTable s r = (l, t))
    (hstep : (s.flow r).voted < s.get (hubStepCntStep r)) (hdone : stepDone s r (s.flow r).voted = true)
    (hscan : ∀ x ∈ l, (s.flow r).voted + 1 ≤ tabGet 0 x.idx (s.flow r).scanned) :
    execVoteCast r s = .next ((updFlow (sendVote t r (s.flow r).voted 1 (voteBits (s.flow r) (s.flow r).voted)
      (tabGet 0 (s.flow r).voted (s.flow r).sumsq)) r (fun f => { f with voted := (s.flow r).voted + 1 })).put (dfStatusVotedStep r) (s.flow r).voted) := by
  have hall : l.all (fun x => decide ((s.flow r).voted + 1 ≤ tabGet 0 x.idx (s.flow r).scanned)) = true := by simpa using hscan
  simp only [execVoteCast, hrun, hvoter, hdrain, hlate, htbl, hstep, hdone, hall, Bool.not_true, Bool.or_self, Bool.false_eq_true, if_false,
    and_self, if_true]

end

/-! ## A vote at the gate (R152, R153, R264) -/

theorem execVote_of_arriving {i j : Nat} {s u : State} {m : Msg} (harr : arriving s i 8 = some m) (hcomb : combineVotes s i = (j, u)) :
    execVote i s = .next (settleGate (countVote (deliver u j ((u.ring[j]?).getD m)) ((u.ring[j]?).getD m))) := by
  simp only [execVote, harr, hcomb]

theorem countVote_of_decided {s : State} {m : Msg} (h : m.step < s.gate.next) : countVote s m = s := if_pos h

/-- A step's tally with one more vote. -/
def Tally.counted (y : Tally) (m : Msg) : Tally :=
  { y with
    count := y.count + m.count, nf := y.nf || bitAt m.vnf 0, fail := y.fail || bitAt m.vnf 1,
    sumsq := if m.count = 0 then y.sumsq else add32 y.sumsq m.sumsq, voters := m.srcMap.foldl (fun l e => setIns e.1 l) y.voters }

theorem tally_countVote {s : State} {m : Msg} (h : s.gate.next ≤ m.step) :
    tabGet {} m.step (countVote s m).gate.tally = (tabGet {} m.step s.gate.tally).counted m := by
  simp only [countVote, if_neg (Nat.not_lt.2 h), tabGet_put_same, Tally.counted]

/-- Settles O20: each row by its branches, and the count of a vote by the tally that it leaves. -/
theorem slicesAreScannedAndVotedOn : Obligations.SlicesAreScannedAndVotedOn := by
  unfold Obligations.SlicesAreScannedAndVotedOn
  refine ⟨?notice, ?contribution, ?scan, ?late, ?cast, ?vote, ?counts, ?decided⟩
  case notice =>
    intro i s t m l harr
    rw [exec_notice]
    refine ⟨execNotice_of_freewheels harr, fun hstops htbl => ?_⟩
    rw [execNotice_of_stops harr hstops]
    refine ⟨fun hk => congrArg _ (noticeArrives_of_contribution htbl hk), fun hk hnone => ?_, fun x rest hk hhit => ?_⟩
    · rw [noticeArrives_of_abort htbl hk, hnone]; rfl
    · rw [noticeArrives_of_abort htbl hk, hhit]; rfl
  case contribution =>
    intro s r t x
    refine ⟨fun hst hlt => ?_, fun hst heq => ?_, contribute_of_fault⟩
    · rw [contribute_of_open hst (Nat.le_of_lt hlt), if_neg (Nat.ne_of_lt hlt)]
    · rw [contribute_of_open hst (Nat.le_of_eq heq), if_pos heq]
  case scan =>
    rintro r index _ s t u _ l x _ _ hrun htbl hx hst hdest rfl
    rw [exec_sliceScan]
    refine ⟨fun e => execSliceScan_of_unreadable hrun htbl hx hst hdest, ?_⟩
    rintro b hread rfl rfl rfl ud v hud
    exact execSliceScan_of_read hrun htbl hx hst hdest hread hud
  case late =>
    intro r s t hrun hvoter hdrain hlate
    exact (exec_voteCast r s).trans (execVoteCast_of_late hrun hvoter hdrain hlate)
  case cast =>
    intro r s t l hrun hvoter hdrain hlate htbl hstep hdone hscan
    exact (exec_voteCast r s).trans (execVoteCast_of_over hrun hvoter hdrain hlate htbl hstep hdone hscan)
  case vote =>
    rintro i j s u m _ harr hcomb rfl
    exact (exec_vote i s).trans (execVote_of_arriving harr hcomb)
  case counts =>
    rintro s m _ _ hnext rfl rfl
    rw [tally_countVote hnext]
    exact ⟨rfl, rfl, rfl, fun hc => if_neg hc⟩
  case decided => exact fun s m => countVote_of_decided

end Sys2Proof.Machine
end

section
/-! SUPPORT. A verdict on its way (R155, R265) and the gate's timeout (R154): the rows by their branches. -/
namespace Sys2Proof.Machine

/-! ## The commands, by their meanings -/

theorem exec_verdict (i : Nat) (s : State) : exec (.verdict i) s = execVerdict i s := rfl

theorem exec_gateTimeout (s : State) : exec .gateTimeout s = execGateTimeout s := rfl

/-! ## The stops that copy a verdict (R265) -/

theorem mem_copiers {s : State} {l : List Nat} {st : Nat} : st ∈ copiers s l ↔ st ∈ l ∧ (32 ≤ st ∨ st ∈ voters s) := by
  simp [copiers]

section
variable {i : Nat} {s : State} {m : Msg} (harr : arriving s i 9 = some m)
include harr

theorem execVerdict_of_copier {st : Nat} {rest : List Nat} (hway : copiers s (verdictWay m) = st :: rest) :
    execVerdict i s = .next (copyVerdict (passedStop s i st m) st m) := by
  simp only [execVerdict, harr, hway]

theorem execVerdict_of_noCopier (hway : copiers s (verdictWay m) = []) : execVerdict i s = .next (deliver s i m) := by
  simp only [execVerdict, harr, hway]

end

/-- Between two stops, a verdict that has passed one goes on where a stop ahead copies it, and else is delivered. -/
theorem passedStop_of_between {i st : Nat} {s : State} {m : Msg} (h : m.src ≠ m.dst) :
    passedStop s i st m =
      if (copiers s ((verdictWay m).dropWhile (fun x => decide (x ≠ st)))).length ≤ 1 then deliver s i m
      else { s with ring := s.ring.set i { m with via := some st } } := by
  simp only [passedStop, h, false_or]

/-! ## The copy of a verdict at a stop (R155, R265) -/

section
variable {s : State} {st : Nat} {m : Msg}

theorem copyVerdict_of_portDie (h : 32 ≤ st) :
    copyVerdict s st m = pdVerdict s (st - 32) m.step m.verdict m.lossScale (decide (m.nkind = 1)) := if_pos h

variable (h : st < 32)
include h

theorem copyVerdict_of_running (hmap : mapSt s st = .running) : copyVerdict s st m = hubVerdict s st m := by
  simp only [copyVerdict, if_neg (Nat.not_le.2 h), hmap]

/-- A parked voter's copy waits at its own stop (log 21). -/
theorem copyVerdict_of_parked (hmap : mapSt s st = .parked) :
    copyVerdict s st m = s.setStop st { s.stop st with held := (s.stop st).held ++ [{ m with src := st, dst := st, via := none }] } := by
  simp only [copyVerdict, if_neg (Nat.not_le.2 h), hmap]

theorem copyVerdict_of_off (hmap : mapSt s st = .off) : copyVerdict s st m = s := by
  simp only [copyVerdict, if_neg (Nat.not_le.2 h), hmap]

end

/-! ## GATE_TIMEOUT (R154) -/

/-- The voters that a tally lacks. -/
def missingVoters (s : State) (y : Tally) : List Nat := (voters s).filter (fun r => !y.voters.contains r)

/-- The timeout of the gate's next step is noted, so that it is raised once. -/
def noteWarned (s : State) : State := { s with gate := { s.gate with warned := setIns s.gate.next s.gate.warned } }

theorem execGateTimeout_of_missing {s : State} {y : Tally} (hy : tabFind s.gate.next s.gate.tally = some y) (hcount : y.count ≠ 0)
    (hwarned : s.gate.warned.contains s.gate.next = false) :
    execGateTimeout s = .next (raiseErr ((noteWarned s).put gateStatusTimedOut 1) 0x0604 0 33 0 (some s.gate.next) 0 (maskOf (missingVoters s y))
      ((missingVoters s y).any (fun r => decide ((noteWarned s).get (clkStatRstate r) = 3) && ((noteWarned s).plant r).parkInj))) := by
  simp only [execGateTimeout, hy, hcount, hwarned, Bool.false_eq_true, or_self, if_false]
  rfl

/-- Settles O21: a verdict by its next copier and that stop's state, and the timeout by its one report. -/
theorem verdictsReachHubsAndPortDies : Obligations.VerdictsReachHubsAndPortDies := by
  unfold Obligations.VerdictsReachHubsAndPortDies
  refine ⟨?copied, ?passed, ?onward, ?copiers, ?timeout⟩
  case copied =>
    rintro i s _ m st rest harr hway rfl
    rw [exec_verdict, execVerdict_of_copier harr hway]
    exact ⟨fun h => congrArg _ (copyVerdict_of_portDie h), fun h hmap => congrArg _ (copyVerdict_of_running h hmap),
      fun h hmap => congrArg _ (copyVerdict_of_parked h hmap), fun h hmap => congrArg _ (copyVerdict_of_off h hmap)⟩
  case passed => exact fun i s m harr hway => (exec_verdict i s).trans (execVerdict_of_noCopier harr hway)
  case onward =>
    rintro i st s m _ hne rfl
    rw [passedStop_of_between hne]
    exact ⟨fun hlen => if_neg (Nat.not_le.2 hlen), fun hlen => if_pos hlen⟩
  case copiers => exact fun s l st => mem_copiers
  case timeout =>
    rintro s _ y _ hy hcount hwarned rfl rfl
    exact (exec_gateTimeout s).trans (execGateTimeout_of_missing hy hcount hwarned)

end Sys2Proof.Machine
end

section
/-! SUPPORT. The predictor unit: a `PRED_RUN` over a given list whose pair has ended (R179, R180), and the work of a `PRED_EXPAND` by rows
whose checks pass (R183, R186, R466). -/
namespace Sys2Proof.Machine

/-! ## The commands, by their meanings -/

theorem exec_predRun (r : Fin 32) (cl : Fin 96) (s : State) : exec (.predRun r cl) s = execPredRun r cl s := rfl

theorem exec_predExpand (r : Fin 32) (cl : Fin 96) (s : State) : exec (.predExpand r cl) s = execPredExpand r cl s := rfl

/-! ## A run in progress (R179) -/

/-- A run in progress of a running region goes on, unless an address of its descriptor lies in a parked region. -/
theorem execPredRun_of_run {r : Fin 32} {cl : Fin 96} {s : State} {p : PredRun} {l : Live} (hrun : running s r = true)
    (hpred : (s.cluster r cl).pred = some p) (hlive : findLive (s.hub r) p.cmd = some l) (hheld : predHeld s r p.prd = false) :
    execPredRun r cl s = .next (predNext s r cl l p) := by
  simp only [execPredRun, hpred, hlive, hrun, hheld, Bool.not_false, Bool.and_self, if_true]

/-- The run has taken the end of the pair it submitted, with that pair's flags, cycles and bytes. -/
def PredRun.pairTaken (p : PredRun) (x : Res) : PredRun :=
  { p with sub := none, res := { p.res with
      flags := flagsOr p.res.flags x.flags, cycles := p.res.cycles + x.cycles, bytes := p.res.bytes + x.bytes } }

section
variable {s : State} {r cl : Nat} {l : Live} {p : PredRun} {x : Res} (hsub : p.sub.bind (subEnd s r) = some x)
include hsub

/-- A pair that fails ends the run with its status. -/
theorem predNext_of_failed (hfail : x.status ≠ stOk) :
    predNext s r cl l p = predEnd (clearSub s r (p.sub.getD 0)) r cl l (p.pairTaken x) x.status := by
  simp only [predNext, hsub, if_neg hfail, if_pos (Or.inr hfail : l.struck = true ∨ x.status ≠ stOk), PredRun.pairTaken]

variable (hok : x.status = stOk) (hstruck : l.struck = false) (hstage : p.stage = 1) (hlist : p.useList = true)
include hok hstruck hstage hlist

/-- With columns of the given list left, the run submits the next of them. -/
theorem predNext_of_listLeft (hleft : p.k < p.f.length) :
    predNext s r cl l p = predListed (clearSub s r (p.sub.getD 0)) r cl l { p.pairTaken x with steps := 2 } := by
  simp [predNext, hsub, hok, hstruck, hstage, hlist, hleft, PredRun.pairTaken]

/-- At the end of the given list the run completes. -/
theorem predNext_of_listDone (hdone : ¬ p.k < p.f.length) :
    predNext s r cl l p = predEnd (clearSub s r (p.sub.getD 0)) r cl l { p.pairTaken x with steps := 3 } stOk := by
  simp [predNext, hsub, hok, hstruck, hstage, hlist, hdone, PredRun.pairTaken]

end

/-! ## PRED_EXPAND by rows (R183) -/

/-- The checks of an expand descriptor that names rows of elements of format `f`. -/
structure ExpandRowsOk (b : List Byte) (f : Fmt) : Prop where
  format : fmtOfCode (getLe b 0x24 1) = some f
  unscaled : fmtScaled f = false
  byRow : getLe b 0x25 1 = 1
  listFits : getLe b 0x18 4 ≤ getLe b 0x1C 4
  rowsBound : getLe b 0x1C 4 ≤ 65536
  rowsPos : getLe b 0x1C 4 ≠ 0
  colsPos : getLe b 0x20 4 ≠ 0

/-- None of the conditions that end a `PRED_EXPAND` with the invalid-field status is met. -/
theorem ExpandRowsOk.fieldsValid {b : List Byte} {f : Fmt} (h : ExpandRowsOk b f) :
    ¬ (fmtScaled f = true ∨ 1 < getLe b 0x25 1 ∨ getLe b 0x1C 4 < getLe b 0x18 4 ∨ 65536 < getLe b 0x1C 4 ∨ getLe b 0x1C 4 = 0 ∨
      getLe b 0x20 4 = 0) := by
  simp [h.unscaled, h.byRow, h.listFits, h.rowsBound, h.rowsPos, h.colsPos]

/-- The unit may touch the range, and it is served. -/
def ExpandServed (s : State) (r cl : Nat) (e : Nat × Nat) : Prop :=
  addrOk s e.1 e.2 = true ∧ predAt r cl e.1 e.2 = true ∧ reach s r e.1 e.2 = .serve

section
variable {s : State} {r cl : Nat} {ranges : List (Nat × Nat)} (h : ∀ e ∈ ranges, ExpandServed s r cl e)
include h

/-- Ranges that are served lie in no parked region. -/
theorem not_waits_of_served : ranges.any (fun e => decide (reach s r e.1 e.2 = .wait)) = false := by
  refine List.any_eq_false.2 fun e he => ?_
  obtain ⟨-, -, hserve⟩ := h e he
  simp [hserve]

/-- Ranges that are served pass the address checks. -/
theorem addressesPass_of_served :
    ranges.all (fun e => addrOk s e.1 e.2 && predAt r cl e.1 e.2 && decide (reach s r e.1 e.2 ≠ .off)) = true := by
  refine List.all_eq_true.2 fun e he => ?_
  obtain ⟨haddr, hat, hserve⟩ := h e he
  simp [haddr, hat, hserve]

end

/-- The `count` indices of a list in memory. -/
def listOf (count : Nat) (lb : List Byte) : List Nat := (chunksOf 4 count lb).map leNat

/-- What a `PRED_EXPAND` by rows writes: the elements of source `sb` at the rows that list `lb` names, zero elsewhere. -/
def expandedRows (b : List Byte) (f : Fmt) (lb sb : List Byte) : List Byte :=
  packElems f (expand true (getLe b 0x1C 4) (getLe b 0x20 4) (listOf (getLe b 0x18 4) lb) (unpackBytes f (getLe b 0x20 4 * getLe b 0x18 4) sb))

/-- The front command of the unit's FIFO has left it and is started. -/
def predStarted (s : State) (r cl : Nat) (l : Live) : State :=
  updLive (fifoPop s r (400 + cl)) r l.id (fun x => { x with started := true })

/-- A `PRED_EXPAND` by rows whose checks pass writes the expanded matrix and counts the elements read and written. -/
theorem execPredExpand_of_rows {r : Fin 32} {cl : Fin 96} {s t u v w : State} {l : Live} {b lb sb : List Byte} {f : Fmt}
    (hturn : predTurn s r cl 0x61 = some l) (halign : opAddr l.bytes % 64 = 0) (hpad : inPad r cl (opAddr l.bytes) 64 = true)
    (hread : readMem (predStarted s r cl l) (acctOf r l) (opAddr l.bytes) 64 = (.ok b, t)) (hok : ExpandRowsOk b f)
    (hserved : ∀ e ∈ expandRanges b (fmtBits f / 8) (getLe b 0x18 4) (getLe b 0x1C 4) (getLe b 0x20 4), ExpandServed t r cl e)
    (hlist : predRead t (acctOf r l) r cl (getLe b 0x10 8) (4 * getLe b 0x18 4) = (.ok lb, u))
    (hbelow : (listOf (getLe b 0x18 4) lb).all (fun j => decide (j < getLe b 0x1C 4)) = true)
    (hsource : predRead u (acctOf r l) r cl (getLe b 0 8) (fmtBits f / 8 * getLe b 0x20 4 * getLe b 0x18 4) = (.ok sb, v))
    (hwrite : predWrite v (acctOf r l) r cl (getLe b 8 8) (expandedRows b f lb sb) = (none, w)) :
    execPredExpand r cl s =
      .next (finish w r l { bytes := fmtBits f / 8 * getLe b 0x20 4 * (getLe b 0x18 4 + getLe b 0x1C 4) }) := by
  have hplace : ¬ (opAddr l.bytes % 64 ≠ 0 ∨ (!inPad r cl (opAddr l.bytes) 64) = true) := by simp [halign, hpad]
  have haxis : decide (getLe b 0x25 1 = 1) = true := decide_eq_true hok.byRow
  rw [predStarted] at hread
  rw [listOf] at hbelow
  rw [expandedRows, listOf] at hwrite
  simp only [execPredExpand, hturn, if_neg hplace, hread, hok.format, if_neg hok.fieldsValid, not_waits_of_served hserved,
    addressesPass_of_served hserved, hlist, hbelow, hsource, haxis, hwrite, Bool.not_true, Bool.false_eq_true, if_false, if_true]

/-- Settles O10: the run by the end of its pair and what is left of its list, the expansion by its checks, reads and write. -/
theorem predictorCommandsComplete : Obligations.PredictorCommandsComplete := by
  unfold Obligations.PredictorCommandsComplete
  refine ⟨?listed, ?expanded⟩
  case listed =>
    intro r cl s p l x hrun hpred hlive hsub hstruck hstage hlist hheld
    refine ⟨p.pairTaken x, rfl, ?_⟩
    rw [exec_predRun, execPredRun_of_run hrun hpred hlive hheld]
    split
    · next hfail => rw [predNext_of_failed hsub hfail]
    · next hok =>
      have hok := Decidable.not_not.1 hok
      split
      · next hleft => rw [predNext_of_listLeft hsub hok hstruck hstage hlist hleft]
      · next hdone => rw [predNext_of_listDone hsub hok hstruck hstage hlist hdone]
  case expanded =>
    intro r cl s t u v w l b lb sb f hturn halign hpad hread hformat hunscaled hbyRow hfits hbound hrows hcols hserved hlist hbelow hsource hwrite
    exact (exec_predExpand r cl s).trans (execPredExpand_of_rows hturn halign hpad hread
      ⟨hformat, hunscaled, hbyRow, hfits, hbound, hrows, hcols⟩ hserved hlist hbelow hsource hwrite)

end Sys2Proof.Machine
end

section
/-! SUPPORT. The invariant of the module's state (R189, R201, R434): it holds after reset, every command keeps it, and so does a step. -/
namespace Sys2Proof.Machine

/-- The waiting commands are no part of the invariant. -/
theorem inv_withPending {s : State} {l : List Instr} : Inv { s with pending := l } ↔ Inv s := Iff.rfl

theorem Keeps.inv {s t : State} (h : Keeps s t) (hs : Inv s) : Inv t := by
  obtain ⟨hmem, herrq⟩ := hs
  exact ⟨h.mem hmem, h.errq herrq⟩

theorem OutKeeps.inv {s t : State} {o : Host.Outcome State Fault Refusal} (h : OutKeeps s o) (hs : Inv s) (ho : o = .next t) : Inv t :=
  (h.next t ho).inv hs

/-! ## Every command -/

/-- No command touches the queue or the fused values, takes back what has left the module, or breaks the form of the stores or the bound on
the error queue: one law of a command's meaning for each command. -/
theorem exec_keeps {s₀ s : State} (h : Keeps s₀ s) (c : Instr) : OutKeeps s₀ (exec c s) := by
  unfold exec
  cases c with
  | load => exact execLoad_keeps h
  | partialApply => exact execPartialApply_keeps h
  | doorbell => exact execDoorbell_keeps h
  | qCtrlWrite => exact execQCtrlWrite_keeps h
  | qBaseWrite => exact execQBaseWrite_keeps h
  | cqCtrlWrite => exact execCqCtrlWrite_keeps h
  | cqBaseWrite => exact execCqBaseWrite_keeps h
  | cqHeadWrite => exact execCqHeadWrite_keeps h
  | commandFetch => exact execCommandFetch_keeps h
  | dispatch => exact execDispatch_keeps h
  | hubNop => exact execHubNop_keeps h
  | hubToken => exact execHubToken_keeps h
  | hubStep => exact execHubStep_keeps h
  | hubAbort => exact execHubAbort_keeps h
  | dmaSubmit => exact execDmaSubmit_keeps h
  | mxeMm => exact execMxeMm_keeps h
  | mxeMmSparse => exact execMxeMmSparse_keeps h
  | mxeMmSelect => exact execMxeMmSelect_keeps h
  | finishedTilePush => exact execFinishedTilePush_keeps h
  | veExec => exact execVeExec_keeps h
  | primeRelease => exact execPrimeRelease_keeps h
  | upeUpdate => exact execUpeUpdate_keeps h
  | panPut => exact execPanPut_keeps h
  | panGet => exact execPanGet_keeps h
  | panFree => exact execPanFree_keeps h
  | predRun => exact execPredRun_keeps h
  | predExpand => exact execPredExpand_keeps h
  | retireGrant => exact execRetireGrant_keeps h
  | recordVisible => exact execRecordVisible_keeps h
  | waitTimeout => exact execWaitTimeout_keeps h
  | stepIncrement => exact execStepIncrement_keeps h
  | chPost => exact execChPost_keeps h
  | chShareWrite => exact execChShareWrite_keeps h
  | dmaDescStart => exact execDmaDescStart_keeps h
  | dmaBurst => exact execDmaBurst_keeps h
  | dmaLastWriteLeft => exact execDmaLastWriteLeft_keeps h
  | dmaBarrierAck => exact execDmaBarrierAck_keeps h
  | dmaBarrierTimeout => exact execDmaBarrierTimeout_keeps h
  | flitReceive => exact execFlitReceive_keeps h
  | memWr => exact execMemWr_keeps h
  | memRd => exact execMemRd_keeps h
  | memRsp => exact execMemRsp_keeps h
  | atomic => exact execAtomic_keeps h
  | redAdd => exact execRedAdd_keeps h
  | redAck => exact execRedAck_keeps h
  | signal => exact execSignal_keeps h
  | signalResend => exact execSignalResend_keeps h
  | heldRequestResend => exact execHeldRequestResend_keeps h
  | notice => exact execNotice_keeps h
  | sliceScan => exact execSliceScan_keeps h
  | voteCast => exact execVoteCast_keeps h
  | vote => exact execVote_keeps h
  | gateTimeout => exact execGateTimeout_keeps h
  | verdict => exact execVerdict_keeps h
  | derail => exact execDerail_keeps h
  | mgmt => exact execMgmt_keeps h
  | go => exact execGo_keeps h
  | arm => exact execArm_keeps h
  | derailDone => exact execDerailDone_keeps h
  | targetLost => exact execTargetLost_keeps h
  | scrubPass => exact execScrubPass_keeps h
  | scrubNow => exact execScrubNow_keeps h
  | wb => exact execWb_keeps h
  | inv => exact execInv_keeps h
  | monitorSample => exact execMonitorSample_keeps h
  | thermalTargetStep => exact execThermalTargetStep_keeps h
  | dvfsStep => exact execDvfsStep_keeps h
  | park => exact execPark_keeps h
  | resumeRegion => exact execResumeRegion_keeps h
  | parkLimitExpiry => exact execParkLimitExpiry_keeps h
  | hwTrip => exact execHwTrip_keeps h
  | reqModeWrite => exact execReqModeWrite_keeps h
  | inputVoltageChange => exact execInputVoltageChange_keeps h
  | convFail => exact execConvFail_keeps h
  | segShort => exact execSegShort_keeps h
  | cellFail => exact execCellFail_keeps h
  | s2Fail => exact execS2Fail_keeps h
  | s2Trip => exact execS2Trip_keeps h
  | tripProbe => exact execTripProbe_keeps h
  | admissionRetest => exact execAdmissionRetest_keeps h
  | quarter => exact execQuarter_keeps h
  | rampEnd => exact execRampEnd_keeps h
  | cuffEnforce => exact execCuffEnforce_keeps h
  | unpark => exact execUnpark_keeps h
  | pwrCuffWrite => exact execPwrCuffWrite_keeps h
  | pwrRcuffWrite => exact execPwrRcuffWrite_keeps h
  | fence => exact execFence_keeps h
  | drained => exact execDrained_keeps h
  | rerunStart => exact execRerunStart_keeps h
  | resume => exact execResume_keeps h
  | fold => exact execFold_keeps h
  | foldDone => exact execFoldDone_keeps h
  | backgroundRebuildChunk => exact execBackgroundRebuildChunk_keeps h
  | seamRefresh => exact execSeamRefresh_keeps h
  | refreshNow => exact execRefreshNow_keeps h
  | snapshot => exact execSnapshot_keeps h
  | snapNow => exact execSnapNow_keeps h
  | journalRecord => exact execJournalRecord_keeps h
  | rsGo => exact execRsGo_keeps h
  | ckptGo => exact execCkptGo_keeps h
  | ckptRestore => exact execCkptRestore_keeps h
  | enroll => exact execEnroll_keeps h
  | ownerSeal => exact execOwnerSeal_keeps h
  | rotate => exact execRotate_keeps h
  | setSlice => exact execSetSlice_keeps h
  | keyInstall => exact execKeyInstall_keeps h
  | attGo => exact execAttGo_keeps h
  | ktReq => exact execKtReq_keeps h
  | seqCommit => exact execSeqCommit_keeps h
  | svnCommit => exact execSvnCommit_keeps h
  | rootFailover => exact execRootFailover_keeps h
  | txSwitch => exact execTxSwitch_keeps h
  | rxKeyErase => exact execRxKeyErase_keeps h
  | frameReceive => exact execFrameReceive_keeps h
  | pfcPause => exact execPfcPause_keeps h
  | cnp => exact execCnp_keeps h
  | rateIncrease => exact execRateIncrease_keeps h
  | rdmaWrite => exact execRdmaWrite_keeps h
  | rdmaWriteWithImmediate => exact execRdmaWriteWithImmediate_keeps h
  | rdmaRead => exact execRdmaRead_keeps h
  | send => exact execSend_keeps h
  | rdmaAck => exact execRdmaAck_keeps h
  | ackTimeout => exact execAckTimeout_keeps h
  | peerEntryWrite => exact execPeerEntryWrite_keeps h
  | streamEntryWrite => exact execStreamEntryWrite_keeps h
  | evtCfgWrite => exact execEvtCfgWrite_keeps h
  | eventWrite => exact execEventWrite_keeps h
  | ptpMessage => exact execPtpMessage_keeps h
  | stepOpen => exact execStepOpen_keeps h
  | wtPush => exact execWtPush_keeps h
  | wtDone => exact execWtDone_keeps h
  | credit => exact execCredit_keeps h
  | replicaDrop => exact execReplicaDrop_keeps h
  | grPush => exact execGrPush_keeps h
  | cassetteDetect => exact execCassetteDetect_keeps h
  | cassetteAuthenticated => exact execCassetteAuthenticated_keeps h
  | lasersLocked => exact execLasersLocked_keeps h
  | driveRampEnd => exact execDriveRampEnd_keeps h
  | laserFail => exact execLaserFail_keeps h
  | casOvertemp => exact execCasOvertemp_keeps h
  | release => exact execRelease_keeps h
  | reauth => exact execReauth_keeps h
  | casRemoved => exact execCasRemoved_keeps h
  | lifeIncrement => exact execLifeIncrement_keeps h
  | epochBoundary => exact execEpochBoundary_keeps h
  | meterOpen => exact execMeterOpen_keeps h
  | meterClose => exact execMeterClose_keeps h
  | logAck => exact execLogAck_keeps h
  | setTime => exact execSetTime_keeps h
  | meterRotate => exact execMeterRotate_keeps h
  | enrol => exact execEnrol_keeps h
  | meterRead => exact execMeterRead_keeps h
  | logRead => exact execLogRead_keeps h
  | swid => exact execSwid_keeps h
  | cert => exact execCert_keeps h
  | tamper => exact execTamper_keeps h
  | tamperClear => exact execTamperClear_keeps h
  | powerDown => exact execPowerDown_keeps h
  | powerUp => exact execPowerUp_keeps h
  | buttonPress => exact execButtonPress_keeps h
  | pageReturn => exact execPageReturn_keeps h
  | meterTransmission => exact execMeterTransmission_keeps h
  | mLinkLoss => exact execMLinkLoss_keeps h
  | coldStart => exact execColdStart_keeps h
  | coldReset => exact execColdReset_keeps h
  | moduleWarmReset => exact execModuleWarmReset_keeps h
  | regionReset => exact execRegionReset_keeps h
  | portReset => exact execPortReset_keeps h
  | quiesce => exact execQuiesce_keeps h
  | fwWrite => exact execFwWrite_keeps h
  | fwActivate => exact execFwActivate_keeps h
  | errorRecord => exact execErrorRecord_keeps h
  | errorRecordMove => exact execErrorRecordMove_keeps h
  | errPop => exact execErrPop_keeps h
  | injArm => exact execInjArm_keeps h
  | injWindowEnd => exact execInjWindowEnd_keeps h
  | regRead => exact execRegRead_keeps h
  | provWrite => exact execProvWrite_keeps h
  | registerWrite => exact execRegisterWrite_keeps h
  | portLinkChange => exact execPortLinkChange_keeps h
  | pfcPauseExpiry => exact execPfcPauseExpiry_keeps h
  | cassetteWithdrawn => exact execCassetteWithdrawn_keeps h
  | meterFault => exact execMeterFault_keeps h
  | swChange => exact execSwChange_keeps h
  | subnormalPathDown => exact execSubnormalPathDown_keeps h

/-! ## A step -/

theorem step_of_empty {s : State} (h : s.pending = []) : step s = .next (drainBuffers s) := by
  simp only [step, h]

theorem step_of_front {s : State} {c : Instr} {rest : List Instr} (h : s.pending = c :: rest) :
    step s = exec c { s with pending := rest } := by
  simp only [step, h]

/-- Settles O52: by what is at the front of the queue, the idling or the command, each of which keeps the invariant. -/
theorem everyStepKeepsTheInvariant : Obligations.EveryStepKeepsTheInvariant := by
  unfold Obligations.EveryStepKeepsTheInvariant
  intro s t hinv hstep
  cases hqueue : s.pending with
  | nil =>
    rw [step_of_empty hqueue] at hstep
    exact (drainBuffers_keeps (.refl s)).out.inv hinv hstep
  | cons c rest =>
    rw [step_of_front hqueue] at hstep
    exact (exec_keeps (.refl _) c).inv (inv_withPending.2 hinv) hstep

/-! ## Reset -/

/-- A state that stores nothing and has no error record waiting meets the invariant. -/
theorem inv_of_empty {s : State} (hmem : s.mem = []) (herrq : s.errq = []) : Inv s := by
  simp [Inv, Memory.wf, tabWf, hmem, herrq]

/-- Settles O51: the state after reset stores nothing, and its queues are empty. -/
theorem resetMeetsTheInvariant : Obligations.ResetMeetsTheInvariant := by
  unfold Obligations.ResetMeetsTheInvariant
  exact ⟨inv_of_empty rfl rfl, rfl, rfl⟩

end Sys2Proof.Machine
end

section
/-! SUPPORT. The cache's write-back (R192, R205), the scrubber (R202, R203), the root's clock (R344) and the ride modes (R355): the commands
by their branches. -/
namespace Sys2Proof.Machine

/-! ## The commands, by their meanings -/

theorem exec_wb (r : Fin 32) (s : State) : exec (.wb r) s = execWb r s := rfl

theorem exec_inv (r : Fin 32) (s : State) : exec (.inv r) s = execInv r s := rfl

theorem exec_scrubNow (r : Fin 32) (s : State) : exec (.scrubNow r) s = execScrubNow r s := rfl

theorem exec_scrubPass (r : Fin 32) (s : State) : exec (.scrubPass r) s = execScrubPass r s := rfl

theorem exec_dvfsStep (r : Fin 32) (s : State) : exec (.dvfsStep r) s = execDvfsStep r s := rfl

theorem exec_reqModeWrite (mode : BitVec 2) (s : State) : exec (.reqModeWrite mode) s = execReqModeWrite mode s := rfl

/-! ## The cache (R192, R205) -/

section
variable {r : Fin 32} {s : State} (hup : blockUp s r = true)
include hup

theorem execWb_of_up : execWb r s = .next (writeBack s r) := if_pos hup

theorem execInv_of_up : execInv r s = .next (writeBackInv s r) := if_pos hup

/-! ## The scrubber (R202, R203) -/

/-- An extra pass starts, and one in progress goes on. -/
theorem execScrubNow_of_up (hquiet : quiesced s = false) :
    execScrubNow r s = .next (if s.on (stkScrubScrubBusy r) then s else s.put (stkScrubScrubBusy r) 1) := by
  cases hbusy : s.on (stkScrubScrubBusy r) <;> simp [execScrubNow, hquiet, hup, hbusy]

end

/-- The ECC units of region `r`'s stack that carry a mark. -/
def faultyUnits (s : State) (r : Nat) : Tab Mark := s.marks.filter (fun e => inStack e.1 && decide (regionOf e.1 = r))

theorem faultyUnits_eq_nil {s : State} {r : Nat} (h : ∀ e ∈ s.marks, ¬ (inStack e.1 = true ∧ regionOf e.1 = r)) : faultyUnits s r = [] :=
  List.filter_eq_nil_iff.2 fun e he => by simpa using h e he

/-- A pass that meets no faulty unit mends nothing: its devices are forgotten, it is over, and it counts. -/
theorem execScrubPass_of_clean {r : Fin 32} {s : State} (hrun : running s r = true) (hclean : faultyUnits s r = []) :
    execScrubPass r s = .next
      (({ s with scrubDevs := tabDrop (fun i => decide (i / 32 = r.val * 2 + b2n (s.on (stkScrubScrubBusy r)))) s.scrubDevs }.put
        (stkScrubScrubBusy r) 0).bump (stkScrubPasses r) 1) := by
  rw [faultyUnits] at hclean
  simp only [execScrubPass, hrun, hclean, Bool.not_true, Bool.false_eq_true, if_false, List.foldl_nil]

/-! ## The root's clock and the ride modes (R344, R355) -/

theorem execDvfsStep_of_running {r : Fin 32} {s : State} (h : s.get (clkStatRstate r) = 1) :
    execDvfsStep r s = .next (settleMode (s.put (clkStatRootMhz r)
      (if s.get (clkStatRootMhz r) < s.get (clkStatTargetMhz r) then min (s.get (clkStatTargetMhz r)) (s.get (clkStatRootMhz r) + 100)
        else max (s.get (clkStatTargetMhz r)) (s.get (clkStatRootMhz r) - 100)))) :=
  if_neg (not_not_intro h)

theorem execReqModeWrite_of_ne {mode : BitVec 2} {s : State} (h : mode ≠ 3) :
    execReqModeWrite mode s = .next (settleMode ((enterMode s mode.toNat).put modeCtrlSwitching 1)) := if_neg h

/-- Settles O23: each command by the branch that its hypotheses choose. -/
theorem cachesScrubbersAndModesFollowTheirCommands : Obligations.CachesScrubbersAndModesFollowTheirCommands := by
  unfold Obligations.CachesScrubbersAndModesFollowTheirCommands
  refine ⟨?wb, ?inv, ?scrubNow, ?scrubPass, ?dvfs, ?mode⟩
  case wb => exact fun r s hup => (exec_wb r s).trans (execWb_of_up hup)
  case inv => exact fun r s hup => (exec_inv r s).trans (execInv_of_up hup)
  case scrubNow => exact fun r s hquiet hup => (exec_scrubNow r s).trans (execScrubNow_of_up hup hquiet)
  case scrubPass => exact fun r s hrun hmarks => (exec_scrubPass r s).trans (execScrubPass_of_clean hrun (faultyUnits_eq_nil hmarks))
  case dvfs =>
    rintro r s _ _ hstate rfl rfl
    exact (exec_dvfsStep r s).trans (execDvfsStep_of_running hstate)
  case mode => exact fun mode s hmode => (exec_reqModeWrite mode s).trans (execReqModeWrite_of_ne hmode)

end Sys2Proof.Machine
end

section
/-! SUPPORT. The registers of the command queues (R207, R208, R230, R446) and of the completion queues (R224): each write by its branches. -/
namespace Sys2Proof.Machine

/-! ## The commands, by their meanings -/

theorem exec_doorbell (p : Path) (r : Fin 32) (q : Fin 8) (tail : BitVec 11) (s : State) : exec (.doorbell p r q tail) s = execDoorbell p r q tail s := rfl

theorem exec_qCtrlWrite (p : Path) (r : Fin 32) (q : Fin 8) (on : Bool) (s : State) : exec (.qCtrlWrite p r q on) s = execQCtrlWrite p r q on s := rfl

theorem exec_qBaseWrite (p : Path) (r : Fin 32) (q : Fin 8) (v : W64) (s : State) : exec (.qBaseWrite p r q v) s = execQBaseWrite p r q v s := rfl

theorem exec_cqCtrlWrite (r : Fin 32) (c : Fin 16) (v : W64) (s : State) : exec (.cqCtrlWrite r c v) s = execCqCtrlWrite r c v s := rfl

theorem exec_cqBaseWrite (r : Fin 32) (c : Fin 16) (v : W64) (s : State) : exec (.cqBaseWrite r c v) s = execCqBaseWrite r c v s := rfl

theorem exec_cqHeadWrite (r : Fin 32) (c : Fin 16) (v : W64) (s : State) : exec (.cqHeadWrite r c v) s = execCqHeadWrite r c v s := rfl

/-! ## Flags, rights and places -/

theorem State.on_of_get_zero {s : State} {f : Fld} (h : s.get f = 0) : s.on f = false := by simp [State.on, h]

theorem queueWritable_of_up {s : State} {p : Path} {r q : Nat} (hup : blockUp s r = true) (hpath : p = .firmware ∨ q < 4) :
    queueWritable s p r q = true := by
  simp [queueWritable, hup, hpath]

/-- A 4 KiB aligned ring in the region's own stack window has its place (R207). -/
theorem ringPlaceOk_of_ownStack {s : State} {r a n : Nat} (halign : a % 4096 = 0) (hin : inside a n (stackBase r) 0x2000000000 = true)
    (hbuilt : built s r = true) : ringPlaceOk s r a n = true := by
  simp [ringPlaceOk, halign, hin, hbuilt]

theorem liveOf_eq_zero {h : Hub} {q : Nat} (hnone : ∀ l ∈ h.live, l.q ≠ q) : liveOf h q = 0 := by
  simpa [liveOf] using hnone

/-! ## The registers of a command queue -/

section
variable {p : Path} {r : Fin 32} {q : Fin 8} {s : State} (hup : blockUp s r = true) (hpath : p = .firmware ∨ q.val < 4)
include hup hpath

theorem execDoorbell_of_writable (tail : BitVec 11) : execDoorbell p r q tail s = .next (doorbell s r q tail.toNat) :=
  if_pos (queueWritable_of_up hup hpath)

theorem execQCtrlWrite_of_writable (on : Bool) : execQCtrlWrite p r q on s = .next (queueEnable s r q on) :=
  if_pos (queueWritable_of_up hup hpath)

theorem execQBaseWrite_of_writable (v : W64) : execQBaseWrite p r q v s = .next (queueBase s r q v.toNat) :=
  if_pos (queueWritable_of_up hup hpath)

end

section
variable {s : State} {r q : Nat}

/-- A queue without a program takes a doorbell by its distance from the head alone. -/
theorem doorbell_of_noProgram (hprog : s.get (qCtrlProg r q) = 0) (tail : Nat) :
    doorbell s r q tail =
      if (s.get (qTailTail r q) + 2048 - s.get (qHeadHead r q)) % 2048 ≤ (tail + 2048 - s.get (qHeadHead r q)) % 2048 ∧
          (tail + 2048 - s.get (qHeadHead r q)) % 2048 ≤ 1024 then s.put (qTailTail r q) tail
      else s.put (qStatusDoorbellErr r q) 1 := by
  simp only [doorbell, State.on_of_get_zero hprog, Bool.false_eq_true, if_false]

theorem queueEnable_of_disabled (hoff : s.get (qCtrlEnable r q) = 0) :
    queueEnable s r q true =
      (s.puts [(qCtrlEnable r q, 1), (qHeadHead r q, 0), (qTailTail r q, 0)]).updHub r (fun h => { h with noFetch := setDel q h.noFetch }) := by
  simp only [queueEnable, State.on_of_get_zero hoff, Bool.false_eq_true, if_true, if_false, State.puts, List.foldl_cons, List.foldl_nil]

theorem queueEnable_of_idle (hidle : ∀ l ∈ (s.hub r).live, l.q ≠ q) : queueEnable s r q false = s.put (qCtrlEnable r q) 0 := by
  simp only [queueEnable, liveOf_eq_zero hidle, Bool.false_eq_true, if_true, if_false]

theorem queueBase_of_place {v : Nat} (hoff : s.get (qCtrlEnable r q) = 0) (hplace : ringPlaceOk s r (v % 2 ^ 48) 65536 = true) :
    queueBase s r q v = s.put (qBaseBase r q) v := by
  simp only [queueBase, State.on_of_get_zero hoff, hplace, Bool.false_eq_true, if_true, if_false]

end

/-- Settles O1: each register of a writable queue by its branches. -/
theorem queueRegisterWritesTakeEffect : Obligations.QueueRegisterWritesTakeEffect := by
  unfold Obligations.QueueRegisterWritesTakeEffect
  refine ⟨?doorbell, ?enable, ?disable, ?base⟩
  case doorbell =>
    intro p r q tail s hup hpath hprog
    rw [exec_doorbell, execDoorbell_of_writable hup hpath, doorbell_of_noProgram hprog]
  case enable =>
    intro p r q s hup hpath hoff
    rw [exec_qCtrlWrite, execQCtrlWrite_of_writable hup hpath, queueEnable_of_disabled hoff]
  case disable =>
    intro p r q s hup hpath hidle
    rw [exec_qCtrlWrite, execQCtrlWrite_of_writable hup hpath, queueEnable_of_idle hidle]
  case base =>
    intro p r q v s hup hpath hoff halign hin hbuilt
    rw [exec_qBaseWrite, execQBaseWrite_of_writable hup hpath, queueBase_of_place hoff (ringPlaceOk_of_ownStack halign hin hbuilt)]

/-! ## The registers of a completion queue (R224) -/

section
variable {r : Fin 32} {c : Fin 16} {s : State} (hup : blockUp s r = true) (v : W64)
include hup

theorem execCqCtrlWrite_of_up : execCqCtrlWrite r c v s = .next (cqCtrl s r c v.toNat) := if_pos hup

theorem execCqBaseWrite_of_up : execCqBaseWrite r c v s = .next (cqBase s r c v.toNat) := if_pos hup

theorem execCqHeadWrite_of_up : execCqHeadWrite r c v s = .next (cqHead s r c v.toNat) := if_pos hup

end

section
variable {s : State} {r c v : Nat} (hoff : s.get (cqCtrlEnable r c) = 0)
include hoff

/-- `ENABLE` of a disabled completion queue starts its ring at 0. -/
theorem cqCtrl_of_starting (hlow : 6 ≤ field v 8 5) (hhigh : field v 8 5 ≤ 16) (hon : bitAt v 0 = true) :
    cqCtrl s r c v = s.puts [(cqCtrlEvent r c, field v 1 1), (cqCtrlLog2N r c, field v 8 5), (cqCtrlEnable r c, field v 0 1),
      (cqTailTail r c, 0), (cqHeadHead r c, 0)] := by
  have hsize : ¬ (field v 8 5 < 6 ∨ 16 < field v 8 5) := by omega
  simp only [cqCtrl, if_neg hsize, hon, State.on_of_get_zero hoff, Bool.not_false, Bool.and_self, if_true, State.puts, List.foldl_cons, List.foldl_nil]

theorem cqBase_of_place (hplace : ringPlaceOk s r (v % 2 ^ 48) (32 * 2 ^ s.get (cqCtrlLog2N r c)) = true) :
    cqBase s r c v = s.put (cqBaseBase r c) v := by
  simp only [cqBase, State.on_of_get_zero hoff, hplace, Bool.false_eq_true, if_true, if_false]

end

/-- Settles O2: each register of a completion queue by its branches; the write of `CQ_HEAD` is its own definition. -/
theorem completionQueueRegisterWritesTakeEffect : Obligations.CompletionQueueRegisterWritesTakeEffect := by
  unfold Obligations.CompletionQueueRegisterWritesTakeEffect
  refine ⟨?ctrl, ?base, ?head⟩
  case ctrl =>
    intro r c v s hup hlow hhigh hoff hon
    rw [exec_cqCtrlWrite, execCqCtrlWrite_of_up hup, cqCtrl_of_starting hoff hlow hhigh hon]
  case base =>
    intro r c v s hup hoff halign hin hbuilt
    rw [exec_cqBaseWrite, execCqBaseWrite_of_up hup, cqBase_of_place hoff (ringPlaceOk_of_ownStack halign hin hbuilt)]
  case head => exact fun r c v s hup => (exec_cqHeadWrite r c v s).trans (execCqHeadWrite_of_up hup v)

end Sys2Proof.Machine
end

section
/-! SUPPORT. The fetch (R207, R208), the dispatch of a command that passes its checks (R213, R214) and the hand-over of a descriptor to its
channel (R212, R231). -/
namespace Sys2Proof.Machine

/-! ## The commands, by their meanings -/

theorem exec_commandFetch (r : Fin 32) (q : Fin 8) (s : State) : exec (.commandFetch r q) s = execCommandFetch r q s := rfl

theorem exec_dispatch (r : Fin 32) (s : State) : exec (.dispatch r) s = execDispatch r s := rfl

theorem exec_dmaSubmit (r : Fin 32) (s : State) : exec (.dmaSubmit r) s = execDmaSubmit r s := rfl

/-! ## Fetch (R207, R208) -/

theorem execCommandFetch_of_canFetch {r : Fin 32} {q : Fin 8} {s : State} (h : canFetch s r q = true) :
    execCommandFetch r q s = .next (fetchOne s r q) := if_pos h

/-- A slot of a ring that can be read joins the live set, and the head moves on. -/
theorem fetchOne_of_ring {s t : State} {r q : Nat} {b : List Byte} (hprog : s.get (qCtrlProg r q) = 0)
    (hread : readMem s { region := r, step := none } (s.get (qBaseBase r q) + 64 * (s.get (qHeadHead r q) % 1024)) 64 = (.ok b, t)) :
    fetchOne s r q = (pushLive t r q b).put (qHeadHead r q) ((s.get (qHeadHead r q) + 1) % 2048) := by
  simp only [fetchOne, State.on_of_get_zero hprog, hread, Bool.false_eq_true, if_false]

/-! ## Dispatch (R214, R277) -/

/-- The region knows that step `k` has dispatched a `PAN_GET`, where command `b` is one. -/
def noteGet (s : State) (r k : Nat) (b : List Byte) : State :=
  if cmdOpcode b = 0x51 then s.setFlow r { s.flow r with gets := setIns k (s.flow r).gets } else s

/-- Is command `b` a `PAN_PUT` under always-forward that comes after a `PAN_GET` of its step `k` (R277)? -/
def barsPut (s : State) (r k : Nat) (b : List Byte) : Bool :=
  decide (cmdOpcode b = 0x50) && s.on mapStatusAf && decide ((s.flow r).afFrom ≤ k) && (s.flow r).gets.contains k

/-- The hub takes note of the dispatch number that it has given and of the queue that it dispatched from. -/
def Hub.dispatchedFrom (h : Hub) (n q : Nat) : Hub :=
  { h with nextDisp := n + 1, lastQ := q, fresh := h.fresh && decide (q < 4) }

/-- Command `id` joins a unit's FIFO. -/
def Hub.joinFifo (h : Hub) (key id : Nat) : Hub :=
  { h with fifo := tabPut key (tabGet [] key h.fifo ++ [id]) h.fifo }

/-- The ready command `l` leaves its queue for its unit, under step `k`. -/
def dispatchLive (s : State) (r k : Nat) (l : Live) : State :=
  let u := consumeWaits s r l.bytes
  let v := updLive (noteGet u r k l.bytes) r l.id (fun x => { x with
    st := .dispatched, step := k, disp := (s.hub r).nextDisp, barred := barsPut u r k l.bytes })
  (v.updHub r (fun h => h.dispatchedFrom (s.hub r).nextDisp l.q)).updHub r (fun h => h.joinFifo (unitKey l.bytes) l.id)

theorem execDispatch_of_passing {r : Fin 32} {s : State} {l : Live} (hready : (queueTurn (s.hub r).lastQ).findSome? (ready s r) = some l)
    (hcheck : dispatchCheck s r l.bytes = none) :
    execDispatch r s = .next (programEnd (dispatchLive s r (s.get (hubStepCntStep r)) l) r l.q) := by
  simp only [execDispatch, hready, hcheck]
  rfl

/-! ## The hand-over of a descriptor (R212, R231) -/

/-- The only descriptor that waits for its channel is the oldest. -/
theorem execDmaSubmit_of_single {r : Fin 32} {s : State} {ch : Nat} {x : Live} (hrun : running s r = true) (hover : handOvers (s.hub r) = [(ch, x)]) :
    execDmaSubmit r s = .next ((fifoDrop s r (1000 + ch) x.id).setChan r ch
      { (s.chan r ch) with fifo := (s.chan r ch).fifo ++ [{ addr := opAddr x.bytes, cmd := some x.id }] }) := by
  have holdest : ([(ch, x)] : List (Nat × Live)).find? (fun e => [(ch, x)].all (fun y => decide (e.2.disp ≤ y.2.disp))) = some (ch, x) := by simp
  simp only [execDmaSubmit, hover, holdest, hrun, Bool.not_true, Bool.false_eq_true, if_false]
  rfl

/-- Settles O3: a fetch from a ring, the dispatch of a command that passes its checks, the hand-over of a single descriptor. -/
theorem commandsAreFetchedAndDispatched : Obligations.CommandsAreFetchedAndDispatched := by
  unfold Obligations.CommandsAreFetchedAndDispatched
  refine ⟨?fetch, ?dispatch, ?submit⟩
  case fetch =>
    intro r q s t b hfetch hprog hread
    rw [exec_commandFetch, execCommandFetch_of_canFetch hfetch, fetchOne_of_ring hprog hread]
  case dispatch =>
    rintro r s _ _ l _ hready hcheck rfl rfl rfl
    exact (exec_dispatch r s).trans (execDispatch_of_passing hready hcheck)
  case submit => exact fun r s ch x hrun hover => (exec_dmaSubmit r s).trans (execDmaSubmit_of_single hrun hover)

end Sys2Proof.Machine
end

section
/-! SUPPORT. The hub's own commands (R212, R219, R220, R227, R228) and the counter of a looping program (R219, R136): each by its branches. -/
namespace Sys2Proof.Machine

/-! ## The commands, by their meanings -/

theorem exec_hubNop (r : Fin 32) (s : State) : exec (.hubNop r) s = execHubNop r s := rfl

theorem exec_hubToken (r : Fin 32) (s : State) : exec (.hubToken r) s = execHubToken r s := rfl

theorem exec_hubStep (r : Fin 32) (s : State) : exec (.hubStep r) s = execHubStep r s := rfl

theorem exec_hubAbort (r : Fin 32) (s : State) : exec (.hubAbort r) s = execHubAbort r s := rfl

theorem exec_stepIncrement (r : Fin 32) (s : State) : exec (.stepIncrement r) s = execStepIncrement r s := rfl

/-! ## HUB_NOP and HUB_TOKEN (R212) -/

theorem execHubNop_of_turn {r : Fin 32} {s : State} {l : Live} (h : hubTurn s r 0x01 = some l) :
    execHubNop r s = .next (finish (fifoPop s r 0) r l {}) := by
  simp only [execHubNop, h]

theorem execHubToken_of_turn {r : Fin 32} {s : State} {l : Live} (h : hubTurn s r 0x02 = some l) :
    execHubToken r s = .next (finish (fifoPop (s.put (tokenValue r (getLe l.bytes 0x2A 2))
      (tokenOp (getLe l.bytes 0x28 1) (s.get (tokenValue r (getLe l.bytes 0x2A 2))) (getLe l.bytes 0x2C 4))) r 0) r l {}) := by
  simp only [execHubToken, h]

/-! ## HUB_STEP (R220, R136) -/

theorem aheadOf_of_lt {s : State} {r : Nat} (h : (s.flow r).done < s.get (hubStepCntStep r)) : aheadOf s r = true := decide_eq_true h

theorem aheadOf_of_le {s : State} {r : Nat} (h : s.get (hubStepCntStep r) ≤ (s.flow r).done) : aheadOf s r = false :=
  decide_eq_false (Nat.not_lt.2 h)

section
variable {r : Fin 32} {s : State} {l : Live} (hturn : hubTurn s r 0x03 = some l)
include hturn

theorem execHubStep_of_loop (hloop : loopQueues s r ≠ []) :
    execHubStep r s = .next (finish (fifoPop s r 0) r l { status := stInvalidField }) := by
  have hsome : (loopQueues s r).isEmpty = false := List.isEmpty_eq_false_iff.2 hloop
  simp only [execHubStep, hturn, hsome, Bool.not_false, if_true]

/-- Without a looping program the counter advances, unless the last verdict is missing. -/
theorem execHubStep_of_noLoop (hloop : loopQueues s r = []) :
    execHubStep r s = .next (if aheadOf s r then s.put (dfStatusAheadStall r) 1 else finish (advanceStep (fifoPop s r 0) r) r l {}) := by
  simp only [execHubStep, hturn, hloop, List.isEmpty_nil, Bool.not_true, Bool.false_eq_true, if_false]
  split
  · rfl
  · rfl

end

/-! ## HUB_ABORT (R227, R228, R230) -/

/-- The queue that a `HUB_ABORT` aims at. -/
def abortQueue (l : Live) : Nat := getLe l.bytes 0x30 1 % 8

/-- The tag that narrows a `HUB_ABORT` of `SCOPE` 0. -/
def abortTag (l : Live) : Option Nat := if getLe l.bytes 0x31 1 = 0 then some (opAddr l.bytes) else none

/-- Commands of the last 32 of queue `q` that a tag names. -/
def pastTagged (s : State) (r q : Nat) (tag : Option Nat) : Nat :=
  match tag with
  | some a => (tabGet [] q (s.hub r).hist).count (some a)
  | none => 0

/-- `SCOPE` 1 stops the program of the queue; else a strike may have taken its last command (R219, R227). -/
def stopProgram (s : State) (r : Nat) (l : Live) : State :=
  if getLe l.bytes 0x31 1 = 1 ∧ s.on (qCtrlProg r (abortQueue l)) = true then s.put (qStatusProgStopped r (abortQueue l)) 1
  else programEnd s r (abortQueue l)

/-- What a `HUB_ABORT` answers that struck `hit` and met `past` commands past striking. -/
def abortRes (hit : List Nat) (past : Nat) : Res :=
  { status := if !hit.isEmpty then stOk else if 0 < past then stAlreadyDone else stNotFound, progress := hit.length }

theorem abortRes_eq (hit : List Nat) (past : Nat) :
    abortRes hit past =
      { status := if hit ≠ [] then stOk else if 0 < past then stAlreadyDone else stNotFound, progress := hit.length } := by
  cases hit with
  | nil => rfl
  | cons id hit => rfl

section
variable {r : Fin 32} {s : State} {l : Live} (hturn : hubTurn s r 0x04 = some l)
include hturn

theorem execHubAbort_of_barred (hlow : l.q < 4) (hhigh : 4 ≤ abortQueue l) :
    execHubAbort r s = .next (finish (fifoPop s r 1) r l { status := stInvalidField }) := by
  unfold abortQueue at hhigh
  simp only [execHubAbort, hturn, hlow, hhigh, and_self, if_true]

theorem execHubAbort_of_allowed {t u : State} {n hit late : List Nat} (hmay : 4 ≤ l.q ∨ abortQueue l < 4)
    (hwrites : strikeWrites (fetchRing (fifoPop s r 1) r (abortQueue l) 2048) r (abortQueue l) (abortTag l) = (n, t))
    (hlive : strikeAll r (targetsOf t r (abortQueue l) (abortTag l)) ([], n, t) = (hit, late, u)) :
    execHubAbort r s = .next (finish (updLive (stopProgram u r l) r l.id (fun x => { x with waitFor := hit ++ late })) r
      { l with waitFor := hit ++ late } (abortRes hit (late.length + pastTagged u r (abortQueue l) (abortTag l)))) := by
  have hmay' : ¬ (l.q < 4 ∧ 4 ≤ getLe l.bytes 0x30 1 % 8) := by
    unfold abortQueue at hmay
    omega
  unfold abortQueue abortTag at hwrites hlive
  simp only [execHubAbort, hturn, if_neg hmay', hwrites, hlive]
  rfl

end

/-- Settles O4: each command by its branches; an abort by what its two strikes leave. -/
theorem hubCommandsRetireWithTheirEffect : Obligations.HubCommandsRetireWithTheirEffect := by
  unfold Obligations.HubCommandsRetireWithTheirEffect
  refine ⟨?nop, ?token, ?step, ?barred, ?abort⟩
  case nop => exact fun r s l hturn => (exec_hubNop r s).trans (execHubNop_of_turn hturn)
  case token => exact fun r s l hturn => (exec_hubToken r s).trans (execHubToken_of_turn hturn)
  case step =>
    intro r s l hturn
    rw [exec_hubStep]
    refine ⟨execHubStep_of_loop hturn, fun hloop hlt => ?_, fun hloop hle => ?_⟩
    · rw [execHubStep_of_noLoop hturn hloop, aheadOf_of_lt hlt, if_pos rfl]
    · rw [execHubStep_of_noLoop hturn hloop, aheadOf_of_le hle, if_neg Bool.false_ne_true]
  case barred => exact fun r s l hturn hlow hhigh => (exec_hubAbort r s).trans (execHubAbort_of_barred hturn hlow hhigh)
  case abort =>
    rintro r s t u _ l _ _ n hit late _ hturn rfl hmay rfl hwrites hlive rfl rfl
    rw [exec_hubAbort, execHubAbort_of_allowed hturn hmay hwrites hlive, abortRes_eq]
    rfl

/-! ## STEP_INCREMENT (R219) -/

/-- Every queue of `qs` counts a pass, and none stands at its wrap point any more. -/
def countPasses (s : State) (r : Nat) (qs : List Nat) : State :=
  (qs.foldl (fun s q => s.put (qPassesPasses r q) (s.get (qPassesPasses r q) + 1)) s).updHub r (fun h => { h with atWrap := [] })

/-- The looping programs of a running region all stand at their wrap point, and nothing holds the counter. -/
theorem execStepIncrement_of_wrapped {r : Fin 32} {s : State} (hrun : running s r = true) (hsome : loopers s r ≠ [])
    (hwrap : ∀ q ∈ loopers s r, q ∈ (s.hub r).atWrap) (hdrain : (s.hub r).draining = false) (hrerun : s.on (resStatRerunHold r) = false)
    (hahead : aheadOf s r = false) (hlimit : ((advanceStep (s.put (dfStatusAheadStall r) 0) r).hub r).stepLimit = 0) :
    execStepIncrement r s = .next ((loopers s r).foldl (fun s q => s.put (qHeadHead r q) 0)
      (countPasses (advanceStep (s.put (dfStatusAheadStall r) 0) r) r (loopers s r))) := by
  have hempty : (loopers s r).isEmpty = false := List.isEmpty_eq_false_iff.2 hsome
  have hall : (loopers s r).all (fun q => (s.hub r).atWrap.contains q) = true := by simpa using hwrap
  simp only [execStepIncrement, hrun, hempty, hall, hdrain, hrerun, hahead, hlimit, Bool.not_true, Bool.or_self, Bool.false_eq_true, ne_eq,
    not_true_eq_false, false_and, if_false, countPasses]

/-- Settles O12: with the last verdict known the counter is not ahead, and without a limit the programs start again. -/
theorem stepCounterAdvances : Obligations.StepCounterAdvances := by
  unfold Obligations.StepCounterAdvances
  rintro r s _ hrun hsome hwrap hdrain hrerun hverdict rfl hlimit _
  exact (exec_stepIncrement r s).trans (execStepIncrement_of_wrapped hrun hsome hwrap hdrain hrerun (aheadOf_of_le hverdict) hlimit)

end Sys2Proof.Machine
end

section
/-! SUPPORT. Retirement (R221-R224), the record that becomes visible and the signals it sends (R217, R226, R380), and the wait that takes too
long (R218). -/
namespace Sys2Proof.Machine

/-! ## The commands, by their meanings -/

theorem exec_retireGrant (r : Fin 32) (s : State) : exec (.retireGrant r) s = execRetireGrant r s := rfl

theorem exec_recordVisible (r : Fin 32) (s : State) : exec (.recordVisible r) s = execRecordVisible r s := rfl

theorem exec_waitTimeout (r : Fin 32) (q : Fin 8) (s : State) : exec (.waitTimeout r q) s = execWaitTimeout r q s := rfl

/-! ## The record of a granted request (R221, R222, R224) -/

/-- The record of command `l` for its request `x`, in the slot at the tail of the completion queue. -/
def recordOf (s : State) (r : Nat) (x : Req) (l : Live) : RecWrite :=
  let n := s.get (cqCtrlLog2N r x.cq)
  let tail := s.get (cqTailTail r x.cq)
  { cmd := some l.id, q := x.q, cq := some x.cq, addr := s.get (cqBaseBase r x.cq) + 32 * (tail % 2 ^ n), status := x.res.status
    bytes := recordBytes x.tag x.res.status x.q false (!bitAt tail n) (if l.late then flagsOr x.res.flags flAbortLate else x.res.flags) x.res.progress
      x.res.cycles x.res.bytes
    event := s.on (cqCtrlEvent r x.cq), live := some { l with st := .retiring } }

/-- The tail of a completion queue moves on from `tail` in a ring of `2 ^ n` slots; a queue that is full then says so. -/
def takeSlot (s : State) (r c n tail : Nat) : State :=
  let v := s.put (cqTailTail r c) ((tail + 1) % 2 ^ (n + 1))
  if cqFull v r c then v.bump (cqStatusFullEvents r c) 1 else v

/-- A request leaves the arbiter. -/
def dropReq (s : State) (r i : Nat) : State := s.updHub r (fun h => { h with reqs := h.reqs.eraseIdx i })

/-- A dispatched command without a timestamp that writes a record: the record carries the command's own step and cycles. -/
theorem execRetireGrant_of_record {r : Fin 32} {s : State} {x : Req} {l : Live} {i : Nat}
    (hgrant : (s.hub r).reqs.findIdx? (fun x => running s r && grantable s r x) = some i) (hx : (s.hub r).reqs[i]? = some x)
    (hcmd : x.cmd = some l.id) (hlive : findLive ((dropReq s r i).hub r) l.id = some l) (hts : x.ts = false)
    (hrec : writesRecord (dropReq s r i) r x = true) (hdisp : l.disp ≠ 0) :
    execRetireGrant r s = .next
      (let u := endEffects (dropReq s r i) r x l.step (decide (cmdOpcode l.bytes = 0x10))
       takeSlot (issueWrite u r (recordOf u r x l)) r x.cq (u.get (cqCtrlLog2N r x.cq)) (u.get (cqTailTail r x.cq))) := by
  unfold dropReq at hlive hrec
  simp only [execRetireGrant, hgrant, hx, hcmd, Option.bind_some, hlive, hts, hrec, if_pos hdisp, Option.isNone_some, Bool.false_eq_true, if_false,
    if_true]
  rfl

/-! ## The hub once a record is issued (R221) -/

section
variable {s : State} {r : Nat} {w : RecWrite}

/-- Of the records in flight before, every one but the last is known to be issued (R221). -/
theorem hub_issueWrite_writes : ((issueWrite s r w).hub r).writes =
    (s.hub r).writes.zipIdx.map (fun (x, i) => if i + 1 < (s.hub r).writes.length then { x with issued := true } else x) ++ [w] := by
  cases hw : w.live <;> simp [issueWrite, State.updHub, hw]

theorem getLast?_issueWrite_writes : ((issueWrite s r w).hub r).writes.getLast? = some w := by
  rw [hub_issueWrite_writes, List.getLast?_concat]

variable {l : Live} (hw : w.live = some l)
include hw

theorem hub_issueWrite_live : ((issueWrite s r w).hub r).live = (s.hub r).live.filter (fun x => decide (x.id ≠ l.id)) := by
  simp only [issueWrite, State.updHub, hw, State.hub_setHub_same]

theorem hub_issueWrite_hist : tabGet [] l.q ((issueWrite s r w).hub r).hist =
    ((if cmdOpcode l.bytes = 0x04 then none else some (cmdTag l.bytes)) :: tabGet [] l.q (s.hub r).hist).take 32 := by
  simp only [issueWrite, State.updHub, hw, State.hub_setHub_same, tabGet_put_same]

end

/-! ## RECORD_VISIBLE (R217, R223, R226, R380) -/

/-- A record in flight leaves the hub. -/
def dropWrite (s : State) (r i : Nat) : State := s.updHub r (fun h => { h with writes := h.writes.eraseIdx i })

/-- The signals of a command, in their order, unless its status sends none or the drain struck it. -/
def sendSignals (s : State) (r : Nat) (l : Live) (status : Nat) : State :=
  if signalsOn status && !(l.drained && decide (status = stAborted)) then
    (cmdSigs l.bytes).foldl (fun t g => sendSignal t r l.id l.q (cmdTag l.bytes) l.step g) s
  else s

theorem execRecordVisible_of_command {r : Fin 32} {s t : State} {w : RecWrite} {l : Live} {i c : Nat} (hrun : running s r = true)
    (hpick : pickWrite s r = (some (i, w), t)) (hlive : w.live = some l) (hcq : w.cq = some c) :
    execRecordVisible r s = .next
      (sendSignals (writeRecord (dropWrite t r i) r c w (if 4 ≤ l.q then some l.step else none) (getLe w.bytes 0 8)) r l w.status) := by
  simp only [execRecordVisible, hrun, hpick, hlive, hcq, Bool.not_true, Bool.false_eq_true, if_false, dropWrite, sendSignals]
  split
  · rfl
  · rfl

theorem signalsGoOut_iff {status : Nat} {drained : Bool} :
    (signalsOn status && !(drained && decide (status = stAborted))) = true ↔ signalsOn status = true ∧ ¬ (drained = true ∧ status = stAborted) := by
  rw [Bool.and_eq_true, Bool.not_eq_true', ← Bool.not_eq_true, Bool.and_eq_true, decide_eq_true_eq]

/-! ## WAIT_TIMEOUT (R218) -/

/-- The first wait with a limit that is not met, as its word. -/
def lateWait (s : State) (r : Nat) (b : List Byte) : Option Nat :=
  ([0, 1, 2, 3].map (waitWord b)).find? (fun w => bitAt w 13 && decide (s.get (tokenValue r (waitOf w).token) < (waitOf w).threshold))

theorem execWaitTimeout_of_late {r : Fin 32} {q : Fin 8} {s : State} {l : Live} {w : Nat} (hhead : headCmd (s.hub r) q = some l)
    (hwait : lateWait s r l.bytes = some w) (honce : l.timedOut = false) (hopen : queueOpen s r q = true) (hcheck : dispatchCheck s r l.bytes = none) :
    execWaitTimeout r q s = .next
      (raiseErr (updLive (s.put (hubStatWaitTo r) 1) r l.id (fun x => { x with timedOut := true })) 0x0601 0 r (unitOf 6 q) none (cmdTag l.bytes) w) := by
  unfold lateWait at hwait
  simp only [execWaitTimeout, hhead, hwait, honce, hopen, hcheck, Option.isSome_none, Bool.not_true, Bool.or_self, Bool.false_eq_true, if_false]

/-- Settles O11: the granted record, the hub that its issue leaves, the record that becomes visible, the late wait. -/
theorem commandsRetireAndBecomeVisible : Obligations.CommandsRetireAndBecomeVisible := by
  unfold Obligations.CommandsRetireAndBecomeVisible
  refine ⟨?grant, ?issue, ?visible, ?timeout⟩
  case grant =>
    rintro r s _ _ x l i _ _ hgrant hx hcmd rfl hlive hts hrec hdisp rfl rfl rfl
    exact (exec_retireGrant r s).trans (execRetireGrant_of_record hgrant hx hcmd hlive hts hrec hdisp)
  case issue => exact fun s r w l hw => ⟨hub_issueWrite_live hw, hub_issueWrite_hist hw, getLast?_issueWrite_writes⟩
  case visible =>
    rintro r s t _ w l i c hrun hpick hlive hcq rfl
    rw [exec_recordVisible, execRecordVisible_of_command hrun hpick hlive hcq]
    simp only [sendSignals, signalsGoOut_iff]
    rfl
  case timeout =>
    intro r q s l w hhead hwait honce hopen hcheck
    exact (exec_waitTimeout r q s).trans (execWaitTimeout_of_late hhead hwait honce hopen hcheck)

end Sys2Proof.Machine
end

section
/-! SUPPORT. Adds (R261-R263, R305) and signals (R216, R217, R267) at the stop they reach, and what a stop or a hub sends again (R217, R350). -/
namespace Sys2Proof.Machine

/-! ## The commands, by their meanings -/

theorem exec_redAdd (i : Nat) (s : State) : exec (.redAdd i) s = execRedAdd i s := rfl

theorem exec_signal (i : Nat) (s : State) : exec (.signal i) s = execSignal i s := rfl

theorem exec_signalResend (r : Fin 32) (s : State) : exec (.signalResend r) s = execSignalResend r s := rfl

theorem exec_heldRequestResend (stop : Fin 36) (s : State) : exec (.heldRequestResend stop) s = execHeldRequestResend stop s := rfl

/-! ## An add (R262, R263, R305) -/

/-- What the add `m` at place `j` does at the stop that it reaches. -/
def landAdd (s : State) (j : Nat) (m : Msg) : State :=
  if freewheels s m.dst then redAcks { s with ring := s.ring.eraseIdx j } m.dst m.ring m.addr 1 false m.srcMap
  else if 32 ≤ m.dst then pageAdd (deliver s j m) m else regionAdd (deliver s j m) m

section
variable {i : Nat} {s : State} {m : Msg} (harr : arriving s i 4 = some m)
include harr

theorem execRedAdd_of_blocked (hdst : 32 ≤ m.dst) (hpage : pageBlocked s m = true) : execRedAdd i s = .next s := by
  simp only [execRedAdd, harr, if_pos (And.intro hdst hpage)]

theorem execRedAdd_of_free {j : Nat} {u : State} (hpage : 32 ≤ m.dst → pageBlocked s m = false) (hcomb : combineAdds s i = (j, u)) :
    execRedAdd i s = .next (landAdd u j ((u.ring[j]?).getD m)) := by
  have hfree : ¬ (32 ≤ m.dst ∧ pageBlocked s m = true) := fun ⟨hdst, hb⟩ => Bool.false_ne_true ((hpage hdst).symm.trans hb)
  simp only [execRedAdd, harr, if_neg hfree, hcomb, landAdd]
  split
  · rfl
  · split
    · rfl
    · rfl

end

/-! ## A signal (R216, R217, R267) -/

section
variable {i : Nat} {s : State} {m : Msg} (harr : arriving s i 6 = some m)
include harr

theorem execSignal_of_gone (h : fenced s m.dst = true ∨ excluded s m.dst = true) :
    execSignal i s = .next (dropSignal (undelivered s i m) m.src m.mtag) := by
  have hgone : (fenced s m.dst || excluded s m.dst) = true := by simpa using h
  simp only [execSignal, harr, hgone, if_true]

variable (hfenced : fenced s m.dst = false) (hexcluded : excluded s m.dst = false)
include hfenced hexcluded

theorem execSignal_of_running (hstops : freewheels s m.dst = false) :
    execSignal i s = .next (signalArrives (settleTag (deliver s i m) m.mtag) m.dst m) := by
  simp only [execSignal, harr, hfenced, hexcluded, hstops, Bool.or_self, Bool.false_eq_true, if_false]

/-- A region that does not take part stores the signal, or refuses it once 256 wait. -/
theorem execSignal_of_freewheels (hwheels : freewheels s m.dst = true) :
    execSignal i s = .next
      (if (s.stop m.dst).signals.length < 256 then
        (settleTag { s with ring := s.ring.eraseIdx i } m.mtag).setStop m.dst { (s.stop m.dst) with signals := (s.stop m.dst).signals ++ [m] }
       else inject (undelivered s i m) { cls := 2, src := m.dst, dst := m.src, ring := m.ring, mtag := m.mtag, rstatus := 1, token := m.token,
                                                scount := m.scount, acct := m.acct }) := by
  simp only [execSignal, harr, hfenced, hexcluded, hwheels, Bool.or_self, Bool.false_eq_true, if_false, if_true]
  split
  · rfl
  · rfl

end

/-! ## What goes again (R217, R350) -/

theorem newTag_fst (s : State) (w : Waiter) : (newTag s w).1 = s.nextTag := rfl

/-- The hub takes up a refused signal again. -/
def takeRefused (s : State) (r n : Nat) : State := s.updHub r (fun h => { h with unsettled := h.unsettled.eraseIdx n })

/-- The message of a refused signal that goes again under tag `tag`. -/
def Refused.msg (x : Refused) (r tag : Nat) : Msg :=
  { cls := 6, src := r, dst := x.region, token := x.token, scount := x.count, mtag := tag, acct := some (x.step, x.tag) }

theorem execSignalResend_of_running {r : Fin 32} {s : State} {n : Nat} {x : Refused} (hnext : nextRefused s r = some n)
    (hx : (s.hub r).unsettled[n]? = some x) (hrun : running s r = true) (hfenced : fenced (takeRefused s r n) x.region = false)
    (hexcluded : excluded (takeRefused s r n) x.region = false) :
    execSignalResend r s = .next (inject (newTag (takeRefused s r n) (.signal r x.cmd x.q x.step)).2 (x.msg r (takeRefused s r n).nextTag)) := by
  unfold takeRefused at hfenced hexcluded
  simp only [execSignalResend, hnext, hx, hrun, hfenced, hexcluded, Bool.not_true, Bool.or_self, Bool.false_eq_true, if_false, newTag_fst, takeRefused,
    Refused.msg]

theorem execHeldRequestResend_of_due {stop : Fin 36} {s : State} {n : Nat} {m : Msg}
    (hdue : (s.stop stop).held.findIdx? (fun m => decide (32 ≤ m.dst ∨ mapSt s m.dst ≠ .parked)) = some n) (hm : (s.stop stop).held[n]? = some m)
    (hstops : freewheels s stop = false) :
    execHeldRequestResend stop s = .next (inject (s.setStop stop { (s.stop stop) with held := (s.stop stop).held.eraseIdx n }) m) := by
  simp only [execHeldRequestResend, hdue, hm, hstops, Bool.false_eq_true, if_false]

/-- Settles O19: an add by the page it needs, a signal by its destination's state, and each sort of resend. -/
theorem addsAndSignalsLand : Obligations.AddsAndSignalsLand := by
  unfold Obligations.AddsAndSignalsLand
  refine ⟨?add, ?blocked, ?signal, ?gone, ?resend, ?held⟩
  case add =>
    rintro i j s u m _ harr hpage hcomb rfl
    exact (exec_redAdd i s).trans (execRedAdd_of_free harr hpage hcomb)
  case blocked => exact fun i s m harr hdst hpage => (exec_redAdd i s).trans (execRedAdd_of_blocked harr hdst hpage)
  case signal =>
    intro i s m harr hfenced hexcluded
    rw [exec_signal]
    cases hwheels : freewheels s m.dst with
    | false =>
      rw [execSignal_of_running harr hfenced hexcluded hwheels, if_pos rfl]
      rfl
    | true => rw [execSignal_of_freewheels harr hfenced hexcluded hwheels, if_neg Bool.false_ne_true.symm]
  case gone => exact fun i s m harr h => (exec_signal i s).trans (execSignal_of_gone harr h)
  case resend =>
    rintro r s _ _ n x hnext hx hrun rfl hfenced hexcluded rfl
    exact (exec_signalResend r s).trans (execSignalResend_of_running hnext hx hrun hfenced hexcluded)
  case held => exact fun stop s n m hdue hm hstops => (exec_heldRequestResend stop s).trans (execHeldRequestResend_of_due hdue hm hstops)

end Sys2Proof.Machine
end

section
/-! SUPPORT. The DMA engine: posts and shares (R231, R232, R244), the start of a descriptor (R239, R242), its bursts (R235, R240, R241, R350)
and its end (R245-R248): each command by its branches. -/
namespace Sys2Proof.Machine

/-! ## The commands, by their meanings -/

theorem exec_chPost (p : Path) (r : Fin 32) (ch : Fin 64) (v : W64) (s : State) : exec (.chPost p r ch v) s = execChPost p r ch v s := rfl

theorem exec_chShareWrite (r : Fin 32) (ch : Fin 64) (v : W64) (s : State) : exec (.chShareWrite r ch v) s = execChShareWrite r ch v s := rfl

theorem exec_dmaDescStart (r : Fin 32) (ch : Fin 64) (s : State) : exec (.dmaDescStart r ch) s = execDmaDescStart r ch s := rfl

theorem exec_dmaBurst (r : Fin 32) (ch : Fin 64) (s : State) : exec (.dmaBurst r ch) s = execDmaBurst r ch s := rfl

theorem exec_dmaLastWriteLeft (r : Fin 32) (ch : Fin 64) (s : State) : exec (.dmaLastWriteLeft r ch) s = execDmaLastWriteLeft r ch s := rfl

theorem exec_dmaBarrierAck (r : Fin 32) (ch : Fin 64) (s : State) : exec (.dmaBarrierAck r ch) s = execDmaBarrierAck r ch s := rfl

theorem exec_dmaBarrierTimeout (r : Fin 32) (ch : Fin 64) (s : State) : exec (.dmaBarrierTimeout r ch) s = execDmaBarrierTimeout r ch s := rfl

/-! ## Posts and shares (R231, R232, R244, R446) -/

theorem execChPost_of_rdma (r : Fin 32) (ch : Fin 64) (v : W64) (s : State) : execChPost .rdma r ch v s = .next s := by
  simp only [execChPost, true_or, if_true, ite_self]

/-- A post from firmware joins the FIFO of a channel that has room and is not the pannier's. -/
theorem execChPost_of_firmware {r : Fin 32} {s : State} (hq : quiesced s = false) (hup : blockUp s r = true) (ch : Fin 64) (v : W64) :
    execChPost .firmware r ch v s = .next
      (if ch.val ≠ panChannel ∧ (s.chan r ch).fifo.length + (fifoOf s r (1000 + ch)).length < 4 then
        s.setChan r ch { (s.chan r ch) with fifo := (s.chan r ch).fifo ++ [{ addr := v.toNat % 2 ^ 48, cmd := none }] }
       else s.put (chStatusPostErr r ch) 1) := by
  simp only [execChPost, hq, hup, Bool.not_true, reduceCtorEq, Bool.false_eq_true, or_self, if_false]
  by_cases hfree : ch.val ≠ panChannel ∧ (s.chan r ch).fifo.length + (fifoOf s r (1000 + ch)).length < 4
  · rw [if_pos hfree, if_neg (by omega)]
  · rw [if_neg hfree, if_pos (by omega)]

theorem shareWrite_eq (s : State) (r ch v : Nat) :
    shareWrite s r ch v = if ch ≠ panChannel ∧ v % 512 ≤ 256 then
        (s.put (chShareShareCap r ch) (v % 512)).put (chStatusPaused r ch) (if v % 512 = 0 then 1 else 0)
      else s := by
  by_cases hfree : ch ≠ panChannel ∧ v % 512 ≤ 256
  · rw [if_pos hfree, shareWrite, if_neg (by omega), State.putB, b2n]
    simp only [decide_eq_true_eq]
  · rw [if_neg hfree, shareWrite, if_pos (by omega)]

theorem execChShareWrite_of_up {r : Fin 32} {s : State} (hup : blockUp s r = true) (ch : Fin 64) (v : W64) :
    execChShareWrite r ch v s = .next (shareWrite s r ch v.toNat) := if_pos hup

/-- Settles O14: a post by the room for it and by who posts it, a share by its bounds. -/
theorem dmaPostsAndShares : Obligations.DmaPostsAndShares := by
  unfold Obligations.DmaPostsAndShares
  refine ⟨?post, ?rdma, ?share⟩
  case post => exact fun r ch v s hq hup => (exec_chPost .firmware r ch v s).trans (execChPost_of_firmware hq hup ch v)
  case rdma => exact fun r ch v s => (exec_chPost .rdma r ch v s).trans (execChPost_of_rdma r ch v s)
  case share =>
    intro r ch v s hup
    rw [exec_chShareWrite, execChShareWrite_of_up hup, shareWrite_eq]

/-! ## A descriptor starts (R239, R242) -/

/-- The channel has taken the descriptor of command `id`, whose checks left state `t`; `rest` is still in its FIFO. -/
def descTaken (s t : State) (r ch id : Nat) (rest : List DmaJob) : State :=
  updLive ({ t with nextTag := t.nextTag + 1 }.setChan r ch { (s.chan r ch) with fifo := rest }) r id (fun l => { l with started := true })

/-- A descriptor that passed its checks is in progress as transfer `tag`. -/
def xferBegun (s : State) (r ch tag : Nat) (job : DmaJob) (k : Checked) (elem : Bool) : State :=
  s.setChan r ch { (s.chan r ch) with
    xfer := some { id := tag, job := job, desc := k.desc, raw := k.raw, list := k.list, total := k.total, elem := elem } }

/-- What check 8 makes of a compressing store: its transfer, or its record (R171, R172). -/
def storeBegun (r ch tag : Nat) (job : DmaJob) (k : Checked) : Except MemErr (Option BbcPlan) × State → State
  | (.error e, s) => dmaRetire s r ch job k.desc { status := memStatus e, cycles := 33 }
  | (.ok none, s) => dmaRetire s r ch job k.desc { status := stInvalidField, cycles := 33 }
  | (.ok (some plan), s) => xferBegun s r ch tag job k plan.m.elemMask

section
variable {r : Fin 32} {ch : Fin 64} {s : State} {job : DmaJob} {rest : List DmaJob}
  (hq : quiesced s = false) (hxfer : (s.chan r ch).xfer = none) (hfifo : (s.chan r ch).fifo = job :: rest) (hrun : running s r = true)
include hq hxfer hfifo hrun

theorem execDmaDescStart_of_wait (hway : descWay s r job = .wait) : execDmaDescStart r ch s = .next s := by
  simp only [execDmaDescStart, hq, hxfer, hfifo, hrun, hway, decide_true, Bool.or_true, Bool.false_eq_true, if_false, if_true]

variable {t : State} {k : Checked} {id : Nat} (hcmd : job.cmd = some id) (hcheck : checkDesc s (jobAcct s r job) job.addr = (k, t))
include hcmd hcheck

/-- A descriptor without compression ends as lost, or as its checks say, or is in progress. -/
theorem execDmaDescStart_of_plain (hway : descWay s r job ≠ .wait) (hplain : dCompress k.desc = false) :
    execDmaDescStart r ch s = .next
      (if descWay s r job = .off then dmaRetire (descTaken s t r ch id rest) r ch job k.desc { status := stDmaTargetLost, cycles := 33 }
       else if k.status = stOk then xferBegun (descTaken s t r ch id rest) r ch t.nextTag job k false
       else dmaRetire (descTaken s t r ch id rest) r ch job k.desc { status := k.status, cycles := 33 }) := by
  simp only [execDmaDescStart, descTaken, hq, hxfer, hfifo, hrun, hcmd, hcheck, hplain, decide_eq_false hway, Bool.not_true, Bool.or_self, Bool.false_and,
    Bool.false_eq_true, if_false, decide_eq_true_eq]
  by_cases hoff : descWay s r job = .off
  · simp only [if_pos hoff]
  · by_cases hok : k.status = stOk
    · simp only [if_neg hoff, hok, ne_eq, not_true_eq_false, if_false, if_true]
      rfl
    · simp only [if_neg hoff, hok, ne_eq, not_false_eq_true, if_false, if_true]

/-- A compressing store that passes the other checks takes check 8, of its first entry's bytes and the object at `DST`. -/
theorem execDmaDescStart_of_compress (hway : descWay s r job = .serve) (hok : k.status = stOk) (hcompress : dCompress k.desc = true) {p : Piece}
    (hp : p = k.list.headD { off := 0, addr := 0, len := 0 }) :
    execDmaDescStart r ch s = .next
      (storeBegun r ch t.nextTag job k (bbcCheck (descTaken s t r ch id rest) (jobAcct s r job) p.addr p.len p.zero (dDst k.desc))) := by
  subst hp
  simp only [execDmaDescStart, hq, hxfer, hfifo, hrun, hcmd, hcheck, hcompress, hway, hok, reduceCtorEq, decide_false, ne_eq, not_true_eq_false,
    Bool.not_true, Bool.or_self, Bool.true_and, Bool.false_eq_true, if_false, if_true]
  rcases hplan : bbcCheck (descTaken s t r ch id rest) (jobAcct s r job) _ _ _ (dDst k.desc) with ⟨_ | _ | plan, v⟩ <;>
  · simp only [descTaken, hxfer] at hplan
    simp only [hplan]
    rfl

end

/-! ## A burst (R235, R240, R241, R350) -/

/-- A burst of `n` bytes from stream offset `off` is under way; `x` is the transfer as the second reading of its list left it. -/
def burstBegun (s : State) (r ch : Nat) (x : Xfer) (off n : Nat) : State :=
  updXfer (updXfer s r ch (fun _ => x)) r ch (fun z => { z with next := off + n, started := z.started + 1 })

/-- The burst joins those that the transfer still has open. -/
def burstOpened (s : State) (r ch : Nat) (b : Burst) : State := updXfer s r ch (fun z => { z with bursts := z.bursts ++ [b] })

/-- What becomes of a burst whose parts at home have been gathered into `b`: it is posted, written, or waits for the other parts. -/
def burstGathered (r ch : Nat) (x : Xfer) (off : Nat) : Burst × State → State
  | (b, s) =>
    if dDop x.desc = 2 then postReady (burstOpened s r ch b) r ch x.id 8
    else if b.reads = 0 then compressGo (landBurst s r ch x off b.buf) r ch 2
    else burstOpened s r ch b

/-- What the burst of `n` bytes from `off` does, by opcode: the pattern of a `FILL`, the read of an `RDMA_READ`, and else a gathering. -/
def moveBurst (s : State) (r ch : Nat) (x : Xfer) (off n : Nat) : State :=
  if dDop x.desc = 1 then
    landBurst s r ch x off ((List.range n).map (fun i => (slice (slice x.desc 0x28 8) ((off + i) % 8) 1).headD 0))
  else if dDop x.desc = 3 then
    burstOpened (qpPost s (dPeer x.desc) { op := 1, addr := dDst x.desc + off, len := n, use := .dmaRead r ch x.id off }) r ch
      { off := off, len := n, buf := List.replicate n 0, reads := 1 }
  else burstGathered r ch x off (gatherPieces s r ch x off (piecesIn (sourceList x) off n) { off := off, len := 0, buf := [], reads := 0 })

section
variable {s : State} {r ch : Nat} {x : Xfer} {off n : Nat}

theorem moveBurst_of_fill (h : dDop x.desc = 1) : moveBurst s r ch x off n =
    landBurst s r ch x off ((List.range n).map (fun i => (slice (slice x.desc 0x28 8) ((off + i) % 8) 1).headD 0)) := if_pos h

theorem moveBurst_of_rdmaRead (h : dDop x.desc = 3) : moveBurst s r ch x off n =
    burstOpened (qpPost s (dPeer x.desc) { op := 1, addr := dDst x.desc + off, len := n, use := .dmaRead r ch x.id off }) r ch
      { off := off, len := n, buf := List.replicate n 0, reads := 1 } := by
  have hfill : dDop x.desc ≠ 1 := by rw [h]; decide
  rw [moveBurst, if_neg hfill, if_pos h]

theorem moveBurst_of_gather (hfill : dDop x.desc ≠ 1) (hread : dDop x.desc ≠ 3) : moveBurst s r ch x off n =
    burstGathered r ch x off (gatherPieces s r ch x off (piecesIn (sourceList x) off n) { off := off, len := 0, buf := [], reads := 0 }) := by
  rw [moveBurst, if_neg hfill, if_neg hread]

end

section
variable {r : Fin 32} {ch : Fin 64} {s : State} {x : Xfer} (hxfer : (s.chan r ch).xfer = some x)
include hxfer

theorem execDmaBurst_of_notDue (hdue : burstDue s r ch x = false) (hrun : running s r = true) :
    execDmaBurst r ch s = .next (compressGo s r ch 2) := by
  simp only [execDmaBurst, hxfer, hdue, hrun, Bool.not_false, Bool.true_or, if_true]

section
variable (hdue : burstDue s r ch x = true)
include hdue

theorem execDmaBurst_of_off (hway : listWay s r x = .off) : execDmaBurst r ch s = .next (failXfer s r ch stDmaTargetLost) := by
  simp only [execDmaBurst, hxfer, hdue, hway, reduceCtorEq, decide_false, Bool.not_true, Bool.or_self, Bool.false_eq_true, if_false, if_true]

variable (hway : listWay s r x = .serve)
include hway

theorem execDmaBurst_of_peerLost (hrdma : dRdma x.desc = true) (hpeer : peerUsable s (dPeer x.desc) = false) :
    execDmaBurst r ch s = .next (failXfer s r ch stDmaRdmaRetry) := by
  simp only [execDmaBurst, hxfer, hdue, hway, hrdma, hpeer, reduceCtorEq, decide_false, Bool.not_true, Bool.not_false, Bool.or_self, Bool.and_self,
    Bool.false_eq_true, if_false, if_true]

/-- A burst that is due, of a list that is read again without a failed read, moves by its opcode. -/
theorem execDmaBurst_of_reread (hpeer : dRdma x.desc = true → peerUsable s (dPeer x.desc) = true) {n : Nat} (hn : n = min 4096 (x.total - x.next))
    {y : Xfer} {t : State} (hreread : rereadTo r ch (x.next + n) x.raw.length s x = (stOk, y, t)) :
    execDmaBurst r ch s = .next (moveBurst (burstBegun t r ch y x.next n) r ch y x.next n) := by
  have hreach : (dRdma x.desc && !peerUsable s (dPeer x.desc)) = false := by
    cases hrdma : dRdma x.desc with
    | false => rfl
    | true => rw [hpeer hrdma]; rfl
  subst hn
  simp only [execDmaBurst, hxfer, hdue, hway, hreach, hreread, reduceCtorEq, decide_false, ne_eq, not_true_eq_false, Bool.not_true, Bool.or_self,
    Bool.false_eq_true, if_false]
  split
  · next hfill => rw [moveBurst_of_fill hfill, burstBegun]
  · next hread => rw [moveBurst_of_rdmaRead hread, burstBegun, burstOpened]
  · next hfill hread =>
    rw [moveBurst_of_gather hfill hread, burstGathered, burstBegun]
    split
    · rfl
    · split
      · rfl
      · rfl

end

/-! ## The end of a transfer (R245, R246) -/

variable (hrun : running s r = true)
include hrun

theorem execDmaLastWriteLeft_of_left (hleft : lastLeft x = true) : execDmaLastWriteLeft r ch s = .next
    (if dBarrier x.desc then updXfer s r ch (fun x => { x with barWait := true }) else endXfer s r ch x) := by
  simp only [execDmaLastWriteLeft, hxfer, hrun, hleft, Bool.not_true, Bool.or_self, Bool.false_eq_true, if_false]
  split
  · rfl
  · rfl

variable (hwait : x.barWait = true)
include hwait

theorem execDmaBarrierAck_of_acked (hacks : x.acks = 0) : execDmaBarrierAck r ch s = .next (endXfer s r ch x) := by
  simp only [execDmaBarrierAck, hxfer, hrun, hwait, hacks, decide_true, Bool.and_self, if_true]

theorem execDmaBarrierTimeout_of_waiting : execDmaBarrierTimeout r ch s = .next
    (endXfer s r ch { x with status := if x.status = stOk then stDmaBarrierTimeout else x.status }) := by
  simp only [execDmaBarrierTimeout, hxfer, hrun, hwait, Bool.and_self, if_true]

end

/-- Settles O15: a descriptor by its checks, a burst by its opcode once its list has been read again, a transfer's end by its barrier. -/
theorem dmaTransfersRunToTheirRecord : Obligations.DmaTransfersRunToTheirRecord := by
  unfold Obligations.DmaTransfersRunToTheirRecord
  refine ⟨?plain, ?wait, ?compress, ?burst, ?notDue, ?off, ?peerLost, ?left, ?acked, ?timeout⟩
  case plain =>
    rintro r ch s t _ job rest k id hq hxfer hfifo hrun hcmd hway hcheck hplain rfl
    exact (exec_dmaDescStart r ch s).trans (execDmaDescStart_of_plain hq hxfer hfifo hrun hcmd hcheck hway hplain)
  case wait => exact fun r ch s job rest hq hxfer hfifo hrun hway => (exec_dmaDescStart r ch s).trans (execDmaDescStart_of_wait hq hxfer hfifo hrun hway)
  case compress =>
    rintro r ch s t _ v job rest k id p hq hxfer hfifo hrun hcmd hway hcheck hok hcompress hp rfl
    have hstart := (exec_dmaDescStart r ch s).trans (execDmaDescStart_of_compress hq hxfer hfifo hrun hcmd hcheck hway hok hcompress hp)
    unfold descTaken at hstart
    refine ⟨fun plan hplan => ?_, fun hplan => ?_, fun e hplan => ?_⟩ <;>
    · rw [hstart, hplan]
      rfl
  case burst =>
    rintro r ch s t _ _ x y n hxfer hdue hway hpeer hn hreread rfl rfl
    have hmove := (exec_dmaBurst r ch s).trans (execDmaBurst_of_reread hxfer hdue hway hpeer hn hreread)
    refine ⟨fun hfill => ?_, fun hread => ?_, fun b w hfill hread hgather => ?_⟩
    · rw [hmove, moveBurst_of_fill hfill, burstBegun]
    · rw [hmove, moveBurst_of_rdmaRead hread, burstBegun, burstOpened]
    · rw [hmove, moveBurst_of_gather hfill hread, burstBegun, hgather]
      rfl
  case notDue => exact fun r ch s x hxfer hdue hrun => (exec_dmaBurst r ch s).trans (execDmaBurst_of_notDue hxfer hdue hrun)
  case off => exact fun r ch s x hxfer hdue hway => (exec_dmaBurst r ch s).trans (execDmaBurst_of_off hxfer hdue hway)
  case peerLost => exact fun r ch s x hxfer hdue hway hrdma hpeer => (exec_dmaBurst r ch s).trans (execDmaBurst_of_peerLost hxfer hdue hway hrdma hpeer)
  case left => exact fun r ch s x hxfer hrun hleft => (exec_dmaLastWriteLeft r ch s).trans (execDmaLastWriteLeft_of_left hxfer hrun hleft)
  case acked => exact fun r ch s x hxfer hrun hwait hacks => (exec_dmaBarrierAck r ch s).trans (execDmaBarrierAck_of_acked hxfer hrun hwait hacks)
  case timeout => exact fun r ch s x hxfer hrun hwait => (exec_dmaBarrierTimeout r ch s).trans (execDmaBarrierTimeout_of_waiting hxfer hrun hwait)

end Sys2Proof.Machine
end

section
/-! SUPPORT. A flit at an incoming link (R252, R253, R259): the row by the checks, the sequence number and the count of failed checks. -/
namespace Sys2Proof.Machine

/-! ## The command, by its meaning -/

theorem exec_flitReceive (stop : Fin 36) (ring : Fin 16) (d : Bool) (flit : List Byte) (sb : W64) (s : State) :
    exec (.flitReceive stop ring d flit sb) s = execFlitReceive stop ring d flit sb s := rfl

theorem injectedFail_of_unarmed {s : State} (h : s.inj = none) (codes : List Nat) (st unit : Nat) (value : Option Nat) :
    injectedFail s codes st unit value = (false, s) := by
  simp only [injectedFail, h]

/-! ## What a stop keeps of a link -/

/-- The key of an incoming link in a stop's tables. -/
def linkKey (ring : Fin 16) (d : Bool) : Nat := ring.val * 2 + b2n d

theorem linkKey_eq (ring : Fin 16) (d : Bool) : ring.val * 2 + b2n d = linkKey ring d := rfl

/-- A flit passes its checks: it is whole, and its bytes and sequence half match the sideband's CRC (R252). -/
def FlitPasses (flit : List Byte) (sb : W64) : Prop := flit.length = 512 ∧ field sb.toNat 16 32 = crc32c (flit ++ natLe 2 (sb.toNat % 2 ^ 16))

theorem flitChecks_eq_true {flit : List Byte} {sb : W64} (h : FlitPasses flit sb) :
    (decide (flit.length = 512) && decide (field sb.toNat 16 32 = crc32c (flit ++ natLe 2 (sb.toNat % 2 ^ 16)))) = true :=
  (Bool.decide_and _ _).symm.trans (decide_eq_true h)

theorem flitChecks_eq_false {flit : List Byte} {sb : W64} (h : ¬ FlitPasses flit sb) :
    (decide (flit.length = 512) && decide (field sb.toNat 16 32 = crc32c (flit ++ natLe 2 (sb.toNat % 2 ^ 16)))) = false :=
  (Bool.decide_and _ _).symm.trans (decide_eq_false h)

/-- The stop expects the number after `n` on link `k`, and forgets the failed checks of the flit that it has taken. -/
def Stop.tookFlit (x : Stop) (k n : Nat) : Stop :=
  { x with lseq := tabPut k ((n + 1) % 256) x.lseq, fails := tabErase k x.fails, tainted := setDel k x.tainted }

/-- The stop counts a failed check of the flit in hand on link `k`; `c` replays are counted towards a record. -/
def Stop.failedFlit (x : Stop) (k c : Nat) : Stop := { x with fails := tabPut k (tabGet 0 k x.fails + 1) x.fails, replays := tabPut k c x.replays }

/-- The stop gives up the flit in hand on link `k`. -/
def Stop.gaveUpFlit (x : Stop) (k : Nat) : Stop := { x with fails := tabErase k x.fails, tainted := setDel k x.tainted }

/-- The failed check of a flit is counted, and its sender asked to replay (R253). -/
def flitFailed (s : State) (stop : Fin 36) (ring : Fin 16) (d : Bool) (c : Nat) : State :=
  askReplay ((s.setStop stop ((s.stop stop).failedFlit (linkKey ring d) c)).bump (stopLinkCrcErr stop ring) 1) stop (linkKey ring d)
    (tabGet 0 (linkKey ring d) (s.stop stop).lseq)

/-! ## FLIT_RECEIVE -/

section
variable {stop : Fin 36} {ring : Fin 16} {d : Bool} {flit : List Byte} {sb : W64} {s : State}
  (hup : bitAt (s.get ringStatusRingUp) ring = true) (hinj : s.inj = none)
include hup hinj

section
variable (hpass : FlitPasses flit sb)
include hpass

theorem execFlitReceive_of_due (hseq : field sb.toNat 8 8 = tabGet 0 (linkKey ring d) (s.stop stop).lseq) :
    execFlitReceive stop ring d flit sb s = .next (takeFlit
      (endReplay (s.setStop stop ((s.stop stop).tookFlit (linkKey ring d) (field sb.toNat 8 8))) stop (linkKey ring d) (field sb.toNat 8 8))
      stop ring (linkKey ring d) (sb.toNat % 8) flit) := by
  simp only [execFlitReceive, hup, injectedFail_of_unarmed hinj, flitChecks_eq_true hpass, if_pos hseq, Bool.not_true, Bool.not_false,
    Bool.and_self, Bool.false_eq_true, if_false, if_true, linkKey_eq, Stop.tookFlit]

/-- A flit out of its order is dropped. -/
theorem execFlitReceive_of_notDue (hseq : field sb.toNat 8 8 ≠ tabGet 0 (linkKey ring d) (s.stop stop).lseq) :
    execFlitReceive stop ring d flit sb s = .next s := by
  simp only [execFlitReceive, hup, injectedFail_of_unarmed hinj, flitChecks_eq_true hpass, if_neg hseq, Bool.not_true, Bool.not_false,
    Bool.and_self, Bool.false_eq_true, if_false, if_true, linkKey_eq]

end

variable (hfail : ¬ FlitPasses flit sb)
include hfail

/-- The ninth failed check of a flit fails the link (R259). -/
theorem execFlitReceive_of_ninth (hn : 8 ≤ tabGet 0 (linkKey ring d) (s.stop stop).fails) :
    execFlitReceive stop ring d flit sb s = .next (linkFail (s.setStop stop ((s.stop stop).gaveUpFlit (linkKey ring d))) stop ring (b2n d)
      ((s.stop stop).tainted.contains (linkKey ring d))) := by
  simp only [execFlitReceive, hup, injectedFail_of_unarmed hinj, flitChecks_eq_false hfail, if_pos (Nat.succ_le_succ hn), Bool.not_true, Bool.false_and,
    Bool.false_eq_true, if_false, linkKey_eq, Stop.gaveUpFlit]

/-- An earlier failed check has the flit replayed, and leaves a record at each REPLAY_STEP of them (R253). -/
theorem execFlitReceive_of_failed (hn : ¬ 8 ≤ tabGet 0 (linkKey ring d) (s.stop stop).fails) :
    execFlitReceive stop ring d flit sb s = .next
      (if tabGet 0 (linkKey ring d) (s.stop stop).replays + 1 < s.get errThreshReplayStep then
        flitFailed s stop ring d (tabGet 0 (linkKey ring d) (s.stop stop).replays + 1)
       else raiseErr (flitFailed s stop ring d 0) 0x0201 0 stop (unitOf 5 ring) none 0 (tabGet 0 (linkKey ring d) (s.stop stop).replays + 1)
        ((s.stop stop).tainted.contains (linkKey ring d))) := by
  simp only [execFlitReceive, hup, injectedFail_of_unarmed hinj, flitChecks_eq_false hfail, if_neg (fun h => hn (Nat.le_of_succ_le_succ h)),
    Bool.not_true, Bool.false_and, Bool.false_eq_true, if_false, linkKey_eq, flitFailed, Stop.failedFlit]
  by_cases hlt : tabGet 0 (linkKey ring d) (s.stop stop).replays + 1 < s.get errThreshReplayStep
  · simp only [if_pos hlt, decide_eq_false (Nat.not_le.2 hlt), Bool.false_eq_true, if_false]
  · simp only [if_neg hlt, decide_eq_true (Nat.not_lt.1 hlt), if_true]

end

/-- Settles O16: a flit that passes by its sequence number, one that fails by the failed checks before it. -/
theorem linkFlitsAreCheckedAndOrdered : Obligations.LinkFlitsAreCheckedAndOrdered := by
  unfold Obligations.LinkFlitsAreCheckedAndOrdered
  rintro stop ring d flit sb s _ _ hup hinj rfl rfl
  rw [exec_flitReceive]
  split
  · next hpass =>
    split
    · next hseq => exact execFlitReceive_of_due hup hinj hpass hseq
    · next hseq => exact execFlitReceive_of_notDue hup hinj hpass hseq
  · next hfail =>
    split
    · next hn => exact execFlitReceive_of_ninth hup hinj hfail hn
    · next hn => exact execFlitReceive_of_failed hup hinj hfail hn

end Sys2Proof.Machine
end

section
/-! SUPPORT. Memory messages at their destination (R195, R249, R255, R267, R270), and the answers at the stop that asked (R217, R263, R350). -/
namespace Sys2Proof.Machine

/-! ## The commands, by their meanings -/

theorem exec_memWr (i : Nat) (s : State) : exec (.memWr i) s = execMemWr i s := rfl

theorem exec_memRd (i : Nat) (s : State) : exec (.memRd i) s = execMemRd i s := rfl

theorem exec_atomic (i : Nat) (s : State) : exec (.atomic i) s = execAtomic i s := rfl

theorem exec_memRsp (i : Nat) (s : State) : exec (.memRsp i) s = execMemRsp i s := rfl

theorem exec_redAck (i : Nat) (s : State) : exec (.redAck i) s = execRedAck i s := rfl

/-! ## MEM_WR (R255) -/

section
variable {i : Nat} {s : State} {m : Msg} (harr : arriving s i 0 = some m)
include harr

theorem execMemWr_of_held (h : heldAtStop s m = true) : execMemWr i s = .next s := by
  simp only [execMemWr, harr, h, if_true]

variable (hheld : heldAtStop s m = false)
include hheld

theorem execMemWr_of_freewheels (h : freewheels s m.dst = true) : execMemWr i s = .next
    (if m.ackReq then respond { s with ring := s.ring.eraseIdx i } m 1 [] else undelivered s i m) := by
  simp only [execMemWr, harr, hheld, h, Bool.false_eq_true, if_false, if_true]

theorem execMemWr_of_stops (h : freewheels s m.dst = false) {e : Option MemErr} {t : State}
    (hwrite : writeMem (deliver s i m) { noStep m.dst with posted := m.posted } m.addr m.data = (e, t)) :
    execMemWr i s = .next (if m.ackReq then respond t m ((e.map rstatusOfErr).getD 0) [] else t) := by
  simp only [execMemWr, harr, hheld, h, hwrite, Bool.false_eq_true, if_false]
  split
  · rfl
  · rfl

end

/-! ## MEM_RD (R249, R255) -/

/-- The answer to a read, from what the read found; of a read that met an uncorrectable unit the bytes before it are read again (R249). -/
def answerRead (m : Msg) (c : Acct) (good : Nat) : Except MemErr (List Byte) × State → State
  | (.ok b, s) => respond s m 0 b
  | (.error .fault, s) => respond s m 3 []
  | (.error .uncorrectable, s) =>
    match readMem s c m.addr good with
    | (.ok b, s) => respond s m 2 b
    | (.error _, s) => respond s m 2 []

theorem answerRead_of_good {m : Msg} {c : Acct} {good : Nat} {s t : State} {b : List Byte} (h : readMem s c m.addr good = (.ok b, t)) :
    answerRead m c good (.error .uncorrectable, s) = respond t m 2 b := by
  simp only [answerRead, h]

theorem answerRead_of_bad {m : Msg} {c : Acct} {good : Nat} {s t : State} {e : MemErr} (h : readMem s c m.addr good = (.error e, t)) :
    answerRead m c good (.error .uncorrectable, s) = respond t m 2 [] := by
  simp only [answerRead, h]

section
variable {i : Nat} {s : State} {m : Msg} (harr : arriving s i 1 = some m)
include harr

theorem execMemRd_of_held (h : heldAtStop s m = true) : execMemRd i s = .next s := by
  simp only [execMemRd, harr, h, if_true]

variable (hheld : heldAtStop s m = false)
include hheld

theorem execMemRd_of_freewheels (h : freewheels s m.dst = true) : execMemRd i s = .next (respond { s with ring := s.ring.eraseIdx i } m 1 []) := by
  simp only [execMemRd, harr, hheld, h, Bool.false_eq_true, if_false, if_true]

theorem execMemRd_of_stops (h : freewheels s m.dst = false) : execMemRd i s = .next
    (answerRead m { noStep m.dst with posted := m.posted } (goodBytes (deliver s i m) m.addr m.len)
      (readMem (deliver s i m) { noStep m.dst with posted := m.posted } m.addr m.len)) := by
  simp only [execMemRd, harr, hheld, h, Bool.false_eq_true, if_false]
  split
  · next hread => rw [hread]; rfl
  · next hread => rw [hread]; rfl
  · next hread =>
    rw [hread]
    split
    · next hgood => exact congrArg Host.Outcome.next (answerRead_of_good hgood).symm
    · next hbad => exact congrArg Host.Outcome.next (answerRead_of_bad hbad).symm

end

/-! ## ATOMIC (R195) -/

/-- The operands in an atomic's payload: the value, and what a compare-and-swap compares. -/
def atomicOperands (m : Msg) : Nat × Nat := if m.mfmt = 5 then (getLe m.data 8 8, getLe m.data 0 8) else (getLe m.data 0 (atomicBytes m.mfmt), 0)

/-- The account of an atomic. -/
def atomicAcct (m : Msg) : Acct :=
  match m.acct with
  | some (t, _) => inStep m.src t
  | none => noStep m.src

/-- The answer to an atomic, from its outcome. -/
def answerAtomic (m : Msg) : AtomicRes × State → State
  | (.done old _, s) => respond s m 0 (natLe (atomicBytes m.mfmt) old)
  | (.fault, s) => respond s m 3 []
  | (.misaligned, s) => respond s m 4 []
  | (.uncorrectable, s) => respond s m 2 []

section
variable {i : Nat} {s : State} {m : Msg} (harr : arriving s i 3 = some m)
include harr

theorem execAtomic_of_freewheels (h : freewheels s m.dst = true) :
    execAtomic i s = .next (respond { s with ring := s.ring.eraseIdx i } m 1 []) := by
  simp only [execAtomic, harr, h, if_true]

theorem execAtomic_of_stops (h : freewheels s m.dst = false) : execAtomic i s = .next
    (answerAtomic m (doAtomic (deliver s i m) (atomicAcct m) m.mfmt m.addr (atomicOperands m).1 (atomicOperands m).2)) := by
  simp only [execAtomic, harr, h, Bool.false_eq_true, if_false]
  split
  all_goals
    next hdone => exact congrArg (Host.Outcome.next ∘ answerAtomic m) hdone.symm

end

/-- Settles O17: a message by its destination's state, what it did there by the answer to it. -/
theorem memoryMessagesAreServed : Obligations.MemoryMessagesAreServed := by
  unfold Obligations.MemoryMessagesAreServed
  refine ⟨?write, ?read, ?atomic, ?held, ?freewheels⟩
  case write => exact fun i s t m e harr hheld hstops hwrite => (exec_memWr i s).trans (execMemWr_of_stops harr hheld hstops hwrite)
  case read =>
    rintro i s t m _ harr hheld hstops rfl
    rw [exec_memRd, execMemRd_of_stops harr hheld hstops]
    refine ⟨fun b hread => ?_, fun hread => ?_, fun b u hread hgood => ?_⟩
    · rw [hread]; rfl
    · rw [hread]; rfl
    · rw [hread, answerRead_of_good hgood]
  case atomic =>
    rintro i _ v cmp s t m c harr hstops rfl hc hoperands
    obtain ⟨rfl, rfl⟩ : v = (atomicOperands m).1 ∧ cmp = (atomicOperands m).2 := Prod.mk.inj hoperands
    obtain rfl : c = atomicAcct m := hc
    rw [exec_atomic, execAtomic_of_stops harr hstops]
    exact ⟨fun old nf hdone => by rw [hdone]; rfl, fun hdone => by rw [hdone]; rfl, fun hdone => by rw [hdone]; rfl, fun hdone => by rw [hdone]; rfl⟩
  case held =>
    exact fun i s m hheld => ⟨fun harr => (exec_memWr i s).trans (execMemWr_of_held harr hheld),
      fun harr => (exec_memRd i s).trans (execMemRd_of_held harr hheld)⟩
  case freewheels =>
    exact fun i s m hwheels hheld => ⟨fun harr => (exec_memWr i s).trans (execMemWr_of_freewheels harr hheld hwheels),
      fun harr => (exec_memRd i s).trans (execMemRd_of_freewheels harr hheld hwheels),
      fun harr => (exec_atomic i s).trans (execAtomic_of_freewheels harr hwheels)⟩

/-! ## Answers (R217, R263, R350) -/

theorem execMemRsp_of_arriving {i : Nat} {s : State} {m : Msg} (harr : arriving s i 2 = some m) :
    execMemRsp i s = .next (takeAnswer (deliver s i m) m) := by
  simp only [execMemRsp, harr]

theorem execRedAck_of_arriving {i : Nat} {s : State} {m : Msg} (harr : arriving s i 5 = some m) :
    execRedAck i s = .next (takeAnswer (deliver s i m) { m with mtag := slotTag m.dst m.ackSlot }) := by
  simp only [execRedAck, harr]

section
variable {s : State} {m : Msg}

theorem takeAnswer_of_signal {r cmd q step : Nat} (h : tabFind m.mtag s.waiters = some (.signal r cmd q step)) :
    takeAnswer s m = refusedSignal s m r cmd q := by
  simp only [takeAnswer, h]

/-- The answer to anything but a signal is a refusal that is held, or its waiter takes it. -/
theorem takeAnswer_of_request {w : Waiter} (h : tabFind m.mtag s.waiters = some w) (hw : ∀ r cmd q step, w ≠ .signal r cmd q step) :
    takeAnswer s m = if m.rstatus = 1 ∧ m.src < 32 ∧ mapSt s m.src ≠ .off then holdRequest s m.dst m.mtag else settleAnswer s m w := by
  cases w with
  | signal r cmd q step => exact absurd rfl (hw r cmd q step)
  | _ => simp only [takeAnswer, h]

end

/-- Settles O18: either sort of answer under the tag that it settles, by its waiter and its RSTATUS. -/
theorem answersReachTheirAsker : Obligations.AnswersReachTheirAsker := by
  unfold Obligations.AnswersReachTheirAsker
  intro i s m n c w hanswer hw
  obtain ⟨hexec, hsrc, hdst, hrstatus⟩ :
      exec c s = .next (takeAnswer (deliver s i m) n) ∧ n.src = m.src ∧ n.dst = m.dst ∧ n.rstatus = m.rstatus := by
    obtain ⟨rfl, harr, rfl⟩ | ⟨rfl, harr, rfl⟩ := hanswer
    · exact ⟨(exec_memRsp i s).trans (execMemRsp_of_arriving harr), rfl, rfl, rfl⟩
    · exact ⟨(exec_redAck i s).trans (execRedAck_of_arriving harr), rfl, rfl, rfl⟩
  rw [hexec, ← hsrc, ← hdst, ← hrstatus]
  refine ⟨fun hrequest hne => ?_, fun hrequest hrefused hregion hmap => ?_, ?_⟩
  · rw [takeAnswer_of_request hw hrequest, if_neg (fun h => hne h.1)]
  · rw [takeAnswer_of_request hw hrequest, if_pos ⟨hrefused, hregion, hmap⟩]
  · rintro r d q k rfl
    rw [takeAnswer_of_signal hw]

end Sys2Proof.Machine
end

section
/-! SUPPORT. The derailleur (R268, R270, R271): its commands and messages by their branches. -/
namespace Sys2Proof.Machine

/-! ## The commands, by their meanings -/

theorem exec_go (table : BitVec 16) (s : State) : exec (.go table) s = execGo table s := rfl

theorem exec_arm (table : BitVec 16) (set : Bool) (s : State) : exec (.arm table set) s = execArm table set s := rfl

theorem exec_derail (i : Nat) (s : State) : exec (.derail i) s = execDerail i s := rfl

theorem exec_derailDone (s : State) : exec .derailDone s = .next (serveAllHeld (derailEnd s)) := rfl

theorem exec_targetLost (r : Fin 32) (s : State) : exec (.targetLost r) s = execTargetLost r s := rfl

/-! ## GO and ARM (R268) -/

/-- GO starts a run only where none is in progress and no partial is pending. -/
theorem execGo_of_notQuiesced {s : State} (h : quiesced s = false) (table : BitVec 16) :
    execGo table s = .next (if (s.put drlCtrlTableId table.toNat).drl = none ∧ (s.put drlCtrlTableId table.toNat).on bsStatusPending = false then
      drlStart (s.put drlCtrlTableId table.toNat) table.toNat false else s.put drlCtrlTableId table.toNat) := by
  simp only [execGo, h, Bool.false_eq_true, if_false]
  split
  · next hbusy =>
    rw [if_neg]
    rintro ⟨hidle, hfree⟩
    rw [hidle, hfree] at hbusy
    simp at hbusy
  · next hstart =>
    rw [if_pos]
    simpa using hstart

theorem execArm_eq (table : BitVec 16) (set : Bool) (s : State) :
    execArm table set s = .next (affectArmed ((s.put drlCtrlTableId table.toNat).put drlCtrlArm (if set then 1 else 0))) := rfl

theorem affectArmed_of_noPartial {s : State} (h : s.bs.part = none) : affectArmed s = s := by
  simp only [affectArmed, h]

/-! ## DERAIL and TARGET_LOST (R270, R271) -/

section
variable {i : Nat} {s : State} {m : Msg} (harr : arriving s i 0xA = some m)
include harr

theorem execDerail_of_stops (h : freewheels s m.dst = false) :
    execDerail i s = .next (drlPump (respond (derailLand (deliver s i m) m) m 0 [])) := by
  simp only [execDerail, harr, h, Bool.false_eq_true, if_false]

theorem execDerail_of_freewheels (h : freewheels s m.dst = true) :
    execDerail i s = .next (respond { s with ring := s.ring.eraseIdx i } m 1 []) := by
  simp only [execDerail, harr, h, if_true]

end

theorem execTargetLost_of_destination {r : Fin 32} {s : State} {d : DrlRun} (hdrl : s.drl = some d) (hrun : running s r = false)
    (hdest : d.entries.any (fun e => decide (e.dst = r.val)) = true) :
    execTargetLost r s = .next (updDrl s (fun d => { d with lost := true })) := by
  simp only [execTargetLost, hdrl, hrun, hdest, Bool.not_false, Bool.true_or, and_self, if_true]

/-- Settles O22: each command by the branch that its hypotheses choose. -/
theorem derailleurCommandsMoveARun : Obligations.DerailleurCommandsMoveARun := by
  unfold Obligations.DerailleurCommandsMoveARun
  refine ⟨?go, ?arm, ?noPartial, ?lands, ?refused, exec_derailDone, ?lost, ?firmware, ?undelivered⟩
  case go => exact fun table s hquiet => (exec_go table s).trans (execGo_of_notQuiesced hquiet table)
  case arm => exact fun table set s => (exec_arm table set s).trans (execArm_eq table set s)
  case noPartial => exact fun s => affectArmed_of_noPartial
  case lands => exact fun i s m harr hstops => (exec_derail i s).trans (execDerail_of_stops harr hstops)
  case refused => exact fun i s m harr hwheels => (exec_derail i s).trans (execDerail_of_freewheels harr hwheels)
  case lost => exact fun r s d hdrl hrun hdest => (exec_targetLost r s).trans (execTargetLost_of_destination hdrl hrun hdest)
  case firmware => exact fun stop a v s pl hstops hpl hal hst => (exec_mgmt stop _ s).trans (execMgmt_regWrite hstops hpl hal hst)
  case undelivered => exact fun stop m s hwheels => (exec_mgmt stop m s).trans (execMgmt_of_freewheels hwheels)

end Sys2Proof.Machine
end

section
/-! SUPPORT. A server's Skojo messages and the gradient pushes (R302 to R311): who is served, and each act by its branches. -/
namespace Sys2Proof.Machine

/-! ## The commands, by their meanings -/

theorem exec_stepOpen (p : Fin 4096) (h : List Byte) (s : State) : exec (.stepOpen p h) s = .next (skTake s p 1 h (openStep h)) := rfl

theorem exec_wtPush (p : Fin 4096) (h payload : List Byte) (s : State) :
    exec (.wtPush p h payload) s = .next (skTake s p 2 h (pushWeights p h payload)) := rfl

theorem exec_wtDone (p : Fin 4096) (h : List Byte) (s : State) : exec (.wtDone p h) s = .next (skTake s p 3 h (endWeights p h)) := rfl

theorem exec_replicaDrop (p : Fin 4096) (h : List Byte) (s : State) : exec (.replicaDrop p h) s = .next (skTake s p 8 h (takeDrop p h)) := rfl

theorem exec_credit (p : Fin 4096) (h : List Byte) (s : State) : exec (.credit p h) s = .next (skTake s p 9 h (addCredit h)) := rfl

theorem exec_grPush (pd : Fin 4) (i : Fin 1024) (s : State) : exec (.grPush pd i) s = execGrPush pd i s := rfl

/-! ## Peers and the messages taken from them (R285, R296, R311) -/

theorem err_of_peerUsable {s : State} {p : Nat} (h : peerUsable s p = true) : (s.peer p).err = false := by
  simp only [peerUsable, Bool.and_eq_true, Bool.not_eq_true'] at h
  obtain ⟨⟨-, herr⟩, -⟩ := h
  exact herr

theorem usable_linked_of_skPeer {s : State} {p : Nat} (h : skPeer s p = true) : peerUsable s p = true ∧ peerLinked s p = true := by
  simp only [skPeer, Bool.and_eq_true] at h
  obtain ⟨husableLinked, -⟩ := h
  exact husableLinked

section
variable {s : State} {p ty : Nat} {h : List Byte} {act : State → Nat → Option State}

section
variable (hpeer : skPeer s p = true)
include hpeer

/-- A message of a valid Skojo peer is acknowledged; then it acts on the stream that it names, or is refused. -/
theorem skTake_of_skPeer : skTake s p ty h act =
    ((skAccept (sendTaken s p h) p ty h).bind (act (sendTaken s p h))).getD (skRefuse (sendTaken s p h) p (hdType h)) := by
  obtain ⟨husable, hlinked⟩ := usable_linked_of_skPeer hpeer
  simp only [skTake, hpeer, husable, hlinked, err_of_peerUsable husable, Bool.not_true, Bool.or_self, Bool.false_eq_true, if_false]
  cases (skAccept (sendTaken s p h) p ty h).bind (act (sendTaken s p h)) <;> rfl

theorem skTake_of_acts {v : State} {k : Nat} (haccept : skAccept (sendTaken s p h) p ty h = some k) (hact : act (sendTaken s p h) k = some v) :
    skTake s p ty h act = v := by
  rw [skTake_of_skPeer hpeer, haccept, Option.bind_some, hact, Option.getD_some]

theorem skTake_of_refused (haccept : skAccept (sendTaken s p h) p ty h = none) :
    skTake s p ty h act = skRefuse (sendTaken s p h) p (hdType h) := by
  rw [skTake_of_skPeer hpeer, haccept, Option.bind_none, Option.getD_none]

end

end

/-! ## What a message does on its stream (R304, R307, R308, R310) -/

section
variable {s : State} {h : List Byte} {k : Nat}

theorem openStep_of_fits (htrainable : seFrozen (s.strm k) = false) (hfits : (s.strm k).curSet = true → stepFits (s.strm k) h = true) :
    openStep h s k = some (updStrm s k (fun x => { seSetStep x (hdStep h) with curSet := true, waitOpen := false })) := by
  simp only [openStep]
  rw [if_neg]
  rintro (hfrozen | ⟨hset, hunfit⟩)
  · simp [htrainable] at hfrozen
  · simp [hfits hset] at hunfit

theorem endWeights_of_fits {p : Nat} (hfits : stepFits (s.strm k) h = true) : endWeights p h s k =
    some (drainWtDone (s.setPeer p { (s.peer p) with wtDone := (s.peer p).wtDone ++ [(k, (s.peer p).wt)] }) p ((s.peer p).wtDone.length + 1)) := by
  simp only [endWeights, hfits, Bool.not_true, Bool.false_eq_true, if_false]

theorem addCredit_of_fits (hfits : stepFits (s.strm k) h = true) :
    addCredit h s k = some (updStrm s k (fun x => seSetCredit x ((seCredit x + hdCount h) % 2 ^ 64))) := by
  simp only [addCredit, hfits, Bool.not_true, Bool.false_eq_true, if_false]

section
variable (p : Nat) (htrainable : seFrozen (s.strm k) = false)
include htrainable

theorem takeDrop_of_earlier (hstep : hdStep h < seStep (s.strm k)) : takeDrop p h s k = some (skEvent s (k / 1024) 8 (hdStep h) p) := by
  simp only [takeDrop, htrainable, Nat.not_lt_of_gt hstep, hstep, Bool.false_eq_true, or_self, if_false, if_true]

/-- The step of a stream that has failed already owes no fault of its own (R310, third row). -/
theorem takeDrop_of_failed (hstep : hdStep h = seStep (s.strm k)) (hfailed : (s.strm k).afterFail = true) :
    takeDrop p h s k = some (dropReplica (skEvent s (k / 1024) 8 (hdStep h) p) k false) := by
  simp only [takeDrop, htrainable, hstep, hfailed, Nat.lt_irrefl, Bool.false_eq_true, or_self, true_or, if_false, if_true]

end

end

/-! ## A push (R306) -/

/-- The stream's next scaled page is on its way: its credit is taken, and it counts as pushed. -/
def pushPage (s : State) (k n : Nat) (g : Page) : State :=
  let t := (qpPost s (sePeer k (s.strm k)) {
    op := 2, len := 64 + g.data.length, use := .gradient k g.off (g.step % 2)
    data := skHeader s 4 g.data.length (seStep (s.strm k)) g.tensor g.off (b2n g.pw16) ++ g.data }).tock.tock
  updStrm { t with pages := t.pages.set n { g with st := 3 } } k
    (fun x => { seSetCredit x (seCredit x - 1) with mstep := some g.step, pushed := x.pushed + 1 })

theorem execGrPush_of_page {pd : Fin 4} {i : Fin 1024} {s : State} {k n : Nat} {g : Page} (hk : pd.val * 1024 + i.val = k)
    (hfind : s.pages.findIdx? (fun g => decide (g.pd = pd.val ∧ g.tensor = seTensor (s.strm k) ∧ g.st = 2 ∧ some g.step = curModule s k)) = some n)
    (hpage : s.pages[n]? = some g) (hvalid : seValid (s.strm k) = true) (htrainable : seFrozen (s.strm k) = false)
    (hcredit : seCredit (s.strm k) ≠ 0) (hdone : (s.strm k).done = false) (hopen : (s.strm k).waitOpen = false)
    (hpeer : peerUsable s (sePeer k (s.strm k)) = true) :
    execGrPush pd i s = .next (if ((pushPage s k n g).strm k).pushed < tensorPages (pushPage s k n g) k then pushPage s k n g
      else tryClose (updStrm (skSend (pushPage s k n g) k 5 (seStep (s.strm k))) k (fun x => { x with done := true })) k) := by
  simp only [execGrPush, hk, hfind, hpage, hvalid, htrainable, decide_eq_false hcredit, hdone, hopen, hpeer, Bool.not_true, Bool.or_self,
    Bool.false_eq_true, if_false]
  exact (apply_ite _ _ _ _).symm

/-- Settles O39: each message by the stream that it names and what it does there, the push by the page that it sends. -/
theorem skojoMessagesAct : Obligations.SkojoMessagesAct := by
  unfold Obligations.SkojoMessagesAct
  refine ⟨?messages, ?push⟩
  case messages =>
    rintro p h s _ k hpeer rfl
    refine ⟨?opens, ?pushes, ?ends, ?adds, ?reports, ?leaves, ?openRefused, ?pushRefused, ?endRefused, ?dropRefused, ?creditRefused⟩
    case opens =>
      exact fun haccept htrainable hfits => (exec_stepOpen p h s).trans
        (congrArg _ (skTake_of_acts hpeer haccept (openStep_of_fits htrainable hfits)))
    case pushes => exact fun payload v haccept hpush => (exec_wtPush p h payload s).trans (congrArg _ (skTake_of_acts hpeer haccept hpush))
    case ends => exact fun haccept hfits => (exec_wtDone p h s).trans (congrArg _ (skTake_of_acts hpeer haccept (endWeights_of_fits hfits)))
    case adds => exact fun haccept hfits => (exec_credit p h s).trans (congrArg _ (skTake_of_acts hpeer haccept (addCredit_of_fits hfits)))
    case reports =>
      exact fun haccept htrainable hstep => (exec_replicaDrop p h s).trans
        (congrArg _ (skTake_of_acts hpeer haccept (takeDrop_of_earlier p htrainable hstep)))
    case leaves =>
      exact fun haccept htrainable hstep hfailed => (exec_replicaDrop p h s).trans
        (congrArg _ (skTake_of_acts hpeer haccept (takeDrop_of_failed p htrainable hstep hfailed)))
    case openRefused => exact fun haccept => (exec_stepOpen p h s).trans (congrArg _ (skTake_of_refused hpeer haccept))
    case pushRefused => exact fun payload haccept => (exec_wtPush p h payload s).trans (congrArg _ (skTake_of_refused hpeer haccept))
    case endRefused => exact fun haccept => (exec_wtDone p h s).trans (congrArg _ (skTake_of_refused hpeer haccept))
    case dropRefused => exact fun haccept => (exec_replicaDrop p h s).trans (congrArg _ (skTake_of_refused hpeer haccept))
    case creditRefused => exact fun haccept => (exec_credit p h s).trans (congrArg _ (skTake_of_refused hpeer haccept))
  case push =>
    rintro pd i s _ _ _ n g rfl hfind hpage hvalid htrainable hcredit hdone hopen hpeer rfl rfl
    exact (exec_grPush pd i s).trans (execGrPush_of_page rfl hfind hpage hvalid htrainable hcredit hdone hopen hpeer)

end Sys2Proof.Machine
end

section
/-! SUPPORT. The module as RDMA responder (R291 to R296): a request that nothing held precedes, and the SEND. -/
namespace Sys2Proof.Machine

/-! ## The commands, by their meanings -/

theorem exec_rdmaWrite (src : PktSrc) (key : W32) (a : W64) (data : List Byte) (s : State) :
    exec (.rdmaWrite src key a data) s = .next (takeReq s src (.write src key a data)) := rfl

theorem exec_rdmaWriteWithImmediate (src : PktSrc) (key : W32) (a : W64) (data : List Byte) (imm : W32) (s : State) :
    exec (.rdmaWriteWithImmediate src key a data imm) s = .next (takeReq s src (.writeImm src key a data imm)) := rfl

theorem exec_rdmaRead (src : PktSrc) (key : W32) (a : W64) (len : Nat) (s : State) :
    exec (.rdmaRead src key a len) s = .next (takeReq s src (.read src key a len)) := rfl

theorem exec_send (src : PktSrc) (data : List Byte) (s : State) : exec (.send src data) s = execSend src data s := rfl

/-! ## Requests (R294, R295, R296, R443) -/

/-- A request that nothing held precedes is served at once. -/
theorem takeReq_of_served {src : PktSrc} {s t v : State} {p : Nat} {q : HeldReq} (harr : arrive s src = (some p, t)) (hheld : (t.peer p).held = [])
    (hserve : serveReq t p q = some v) : takeReq s src q = v := by
  simp only [takeReq, harr, hheld, List.length_nil, serveHeld, List.isEmpty_nil, if_true, hserve, Option.getD_some]

section
variable {s u : State} {p key addr : Nat} {src : PktSrc} {data : List Byte}

/-- A write that passes its checks is stored and acknowledged, after the signal of its immediate where it has one. -/
theorem serveWrite_of_stored {imm : Option Nat} (hkey : key ≠ regKey s) (hrange : rangeOk s src.port key addr data.length 1 = true)
    (himm : imm.any (fun v => (immSignal s v).isNone) = false) (hfate : fateOf s addr data.length = .serve)
    (hwrite : writeMem s (noStep ((regionsOf s addr data.length).headD 0)) addr data = (none, u)) :
    serveWrite s p src key addr data imm = some (answer
      ((imm.bind (immSignal u)).elim u (fun e => pdSignal u (p / 1024) e.2.1 e.1 e.2.2)) p (answerClass s key) data.length (.ack p)) := by
  simp only [serveWrite, if_neg hkey, hrange, himm, hfate, hwrite, Bool.not_true, Bool.false_eq_true, if_false]
  cases imm.bind (immSignal u) <;> rfl

theorem serveWrite_of_register (hkey : key = regKey s) (hspace : regSpaceOk s src.port addr data.length = true) :
    serveWrite s p src key addr data none = some (answer (regWrites s src addr data) p (answerClass s key) data.length (.ack p)) := by
  simp only [serveWrite, if_pos hkey, hspace, Option.isSome_none, Bool.not_true, Bool.false_eq_true, if_false]

theorem serveRead_of_stored {len : Nat} {b : List Byte} (hkey : key ≠ regKey s) (hrange : rangeOk s src.port key addr len 0 = true)
    (hfate : fateOf s addr len = .serve) (hread : readMem s (noStep ((regionsOf s addr len).headD 0)) addr len = (.ok b, u)) :
    serveRead s p src key addr len = some (answer u p (answerClass s key) len (.data p b)) := by
  simp only [serveRead, if_neg hkey, hrange, hfate, hread, Bool.not_true, Bool.false_eq_true, if_false]

end

/-! ## SEND (R285, R296) -/

theorem execSend_of_arrived {src : PktSrc} {data : List Byte} {s t : State} {p : Nat} (harr : arrive s src = (some p, t)) :
    execSend src data s = .next (if 64 ≤ data.length then skMessage t p (data.take 64) (data.drop 64) else refuse t p 0 nakInvalid) := by
  simp only [execSend, harr]
  exact (apply_ite _ _ _ _).symm

section
variable {s : State} {p : Nat} {h : List Byte} (hlinked : peerLinked s p = true) (husable : peerUsable s p = true)
  (hclass : peerClass (s.peer p) ≠ 3 ∨ portClass s (peerPort p (s.peer p)) ≠ 3)
include hlinked husable hclass

/-- A message of any type is an invalid request, of a peer or on a port that is not of class W. -/
theorem skTake_of_otherClass (ty : Nat) (act : State → Nat → Option State) :
    skTake s p ty h act = refuse s p (b2n (decide (hdType h ≠ 2))) nakInvalid := by
  have hother : skPeer s p = false := by
    simp only [skPeer, husable, hlinked, Bool.and_self, Bool.true_and, decide_eq_false_iff_not, Decidable.not_and_iff_not_or_not]
    exact hclass
  simp only [skTake, hlinked, husable, err_of_peerUsable husable, hother, Bool.not_true, Bool.not_false, Bool.or_self, Bool.false_eq_true,
    if_false, if_true]

theorem skMessage_of_otherClass (payload : List Byte) : skMessage s p h payload = refuse s p (b2n (decide (hdType h ≠ 2))) nakInvalid := by
  unfold skMessage
  split <;> exact skTake_of_otherClass hlinked husable hclass _ _

end

/-- Settles O37: each request by its checks and the memory's answer, a SEND by its length and its peer's class. -/
theorem peersRequestsAreServed : Obligations.PeersRequestsAreServed := by
  unfold Obligations.PeersRequestsAreServed
  refine ⟨?write, ?register, ?read, ?send, ?otherClass⟩
  case write =>
    intro src key a data s t u p harr hheld hkey hrange hfate hwrite
    refine ⟨?plain, ?immediate⟩
    case plain =>
      exact (exec_rdmaWrite src key a data s).trans
        (congrArg _ (takeReq_of_served harr hheld (serveWrite_of_stored hkey hrange rfl hfate hwrite)))
    case immediate =>
      intro imm tok r n hbefore hafter
      have hserve := serveWrite_of_stored (p := p) (imm := some imm.toNat) hkey hrange (by simp [hbefore]) hfate hwrite
      simp only [Option.bind_some, hafter, Option.elim_some] at hserve
      exact (exec_rdmaWriteWithImmediate src key a data imm s).trans (congrArg _ (takeReq_of_served harr hheld hserve))
  case register =>
    exact fun src key a data s t p harr hheld hkey hspace => (exec_rdmaWrite src key a data s).trans
      (congrArg _ (takeReq_of_served harr hheld (serveWrite_of_register hkey hspace)))
  case read =>
    exact fun src key a len s t u p b harr hheld hkey hrange hfate hread => (exec_rdmaRead src key a len s).trans
      (congrArg _ (takeReq_of_served harr hheld (serveRead_of_stored hkey hrange hfate hread)))
  case send => exact fun src data s t p harr => (exec_send src data s).trans (execSend_of_arrived harr)
  case otherClass => exact fun s p h payload hlinked husable hclass => skMessage_of_otherClass hlinked husable hclass payload

end Sys2Proof.Machine
end

section
/-! SUPPORT. The link layer of a port (R284 to R290): frames, link changes, pauses, and the rate of a queue pair. -/
namespace Sys2Proof.Machine

/-! ## The commands, by their meanings -/

theorem exec_frameReceive (p : Fin 64) (h : Fin 2) (f : Frame) (s : State) : exec (.frameReceive p h f) s = execFrameReceive p h f s := rfl

theorem exec_portLinkChange (p : Fin 64) (h : Fin 2) (up : Bool) (s : State) : exec (.portLinkChange p h up) s = execPortLinkChange p h up s := rfl

theorem exec_pfcPause (p : Fin 64) (h : Fin 2) (prio : Fin 8) (quanta : BitVec 16) (s : State) :
    exec (.pfcPause p h prio quanta) s = execPfcPause p h prio quanta s := rfl

theorem exec_pfcPauseExpiry (p : Fin 64) (h : Fin 2) (prio : Fin 8) (s : State) :
    exec (.pfcPauseExpiry p h prio) s = .next (unpause s (p.val * 16 + h.val * 8 + prio.val)) := rfl

theorem exec_cnp (peer : Fin 4096) (s : State) : exec (.cnp peer) s = execCnp peer s := rfl

theorem exec_rateIncrease (peer : Fin 4096) (s : State) : exec (.rateIncrease peer) s = execRateIncrease peer s := rfl

/-! ## FRAME_RECEIVE (R286, R289, R290, R293) -/

section
variable {p : Fin 64} {h : Fin 2} {f : Frame} {s u : State} (hport : portPasses s p h = true) (hinj : s.inj = none) (hfcs : f.fcsOk = true)
  (hlen : f.bytes.length ≤ 9216) (hsec : macsecPass (s.sec p h) f = true) (hicrc : f.icrcOk = true)
include hport hinj hfcs hlen hsec hicrc

/-- A frame that its buffer cannot hold ends there; a kept one answers for its mark, then for a request that the module does not support. -/
theorem execFrameReceive_of_buffered {kept : Bool}
    (hbuffer : bufferFrame (notePn s p h f) p h (frameClass (notePn s p h f) p f) f.bytes.length f.drained = (kept, u)) :
    execFrameReceive p h f s = .next (if kept then answerUnsupported (if f.ce then answerCe u f.src else u) p f else u) := by
  simp only [execFrameReceive, hport, injectedFail_of_unarmed hinj, hfcs, Nat.not_lt.2 hlen, ite_self, hsec, hicrc, hbuffer, Bool.not_true,
    Bool.or_self, Bool.false_eq_true, if_false]
  cases kept <;> rfl

end

/-! ## PORT_LINK_CHANGE (R284, R314) -/

/-- A link can always go down; it comes up on an enabled port of a powered die, on a half that exists, with the light of its lasers. -/
theorem execPortLinkChange_of_allowed {p : Fin 64} {h : Fin 2} {up : Bool} {s : State}
    (hallowed : up = false ∨ (portClass s p ≠ 0 ∧ s.pdOff.contains (p.val / 16) = false ∧ (h = 0 ∨ breakout s p = true) ∧ hasLight s p = true)) :
    execPortLinkChange p h up s =
      .next (s.put (portStatLink (p.val / 16) (p.val % 16)) (setBit (s.get (portStatLink (p.val / 16) (p.val % 16))) h up)) := by
  simp only [execPortLinkChange]
  rw [if_neg]
  obtain rfl | ⟨hclass, hdie, hhalf, hlight⟩ := hallowed
  · simp only [Bool.false_and, Bool.false_eq_true, not_false_eq_true]
  · have hexists : (decide (h.val = 1) && !breakout s p) = false := by
      obtain rfl | hbreakout := hhalf
      · rfl
      · rw [hbreakout, Bool.not_true, Bool.and_false]
    simp only [decide_eq_false hclass, hdie, hexists, hlight, Bool.not_true, Bool.or_self, Bool.and_false, Bool.false_eq_true, not_false_eq_true]

/-! ## PFC_PAUSE (R288) -/

theorem execPfcPause_of_lossless {p : Fin 64} {h : Fin 2} {prio : Fin 8} {s t : State} (hport : portPasses s p h = true)
    (ht : s.bump (portPfcPauseRx (p.val / 16) (p.val % 16)) 1 = t) (hprio : prio.val = prioOf t p 0 ∨ prio.val = prioOf t p 1) (quanta : BitVec 16) :
    execPfcPause p h prio quanta s = .next (if quanta = 0 then unpause t (p.val * 16 + h.val * 8 + prio.val)
      else { t with paused := setIns (p.val * 16 + h.val * 8 + prio.val) t.paused }) := by
  have hlossless : ¬ (prio.val ≠ prioOf t p 0 ∧ prio.val ≠ prioOf t p 1) := fun hne => hprio.elim hne.1 hne.2
  simp only [execPfcPause, hport, ht, if_neg hlossless, Bool.not_true, Bool.false_eq_true, if_false]
  exact (apply_ite _ _ _ _).symm

/-! ## CNP and RATE_INCREASE (R289, R291) -/

section
variable {peer : Fin 4096} {s : State}

theorem execCnp_of_matched {b : Bool} {u : State} (hlinked : peerLinked s peer = true) (hslice : sliceFits s peer = true)
    (herr : (s.peer peer).err = false)
    (hchoose : (s.bump (portEcnCnpRx (peerPort peer (s.peer peer) / 16) (peerPort peer (s.peer peer) % 16)) 1).choose = (b, u)) :
    execCnp peer s = .next (if b then u.setPeer peer { (u.peer peer) with rateLog := (u.peer peer).rateLog + 1 } else u) := by
  simp only [execCnp, hlinked, hslice, herr, hchoose, Bool.not_true, Bool.false_eq_true, if_false]

theorem execCnp_of_otherSlice (hlinked : peerLinked s peer = true) (hslice : sliceFits s peer = false) :
    execCnp peer s = .next (sliceDrop s peer) := by
  simp only [execCnp, hlinked, hslice, Bool.not_true, Bool.not_false, Bool.false_eq_true, if_false, if_true]

theorem execRateIncrease_of_open (hopen : qpOpen s peer = true) :
    execRateIncrease peer s = .next (s.setPeer peer (
      if 100 * 2 ^ (s.peer peer).rateLog ≤ (s.peer peer).rateNum + 2 ^ (s.peer peer).rateLog then { (s.peer peer) with rateNum := 100, rateLog := 0 }
      else { (s.peer peer) with rateNum := (s.peer peer).rateNum + 2 ^ (s.peer peer).rateLog })) := by
  simp only [execRateIncrease, hopen, Bool.not_true, Bool.false_eq_true, if_false]
  split <;> rfl

end

/-- Settles O36: a frame by what its buffer does with it, each other command by the branch that its hypotheses choose. -/
theorem framesPassTheLinkLayer : Obligations.FramesPassTheLinkLayer := by
  unfold Obligations.FramesPassTheLinkLayer
  refine ⟨?frame, ?link, ?pause, ?cnp, ?otherSlice, ?rate⟩
  case frame =>
    rintro p h f s _ _ hport hinj hfcs hlen hsec hicrc rfl rfl
    rw [exec_frameReceive]
    split
    · next u hbuffer => exact execFrameReceive_of_buffered hport hinj hfcs hlen hsec hicrc hbuffer
    · next u hbuffer => exact execFrameReceive_of_buffered hport hinj hfcs hlen hsec hicrc hbuffer
  case link => exact fun p h up s hallowed => (exec_portLinkChange p h up s).trans (execPortLinkChange_of_allowed hallowed)
  case pause =>
    rintro p h prio quanta s _ _ hport hprio rfl rfl hprioOf
    refine ⟨(exec_pfcPause p h prio quanta s).trans (execPfcPause_of_lossless hport rfl ?_ quanta), exec_pfcPauseExpiry p h prio s⟩
    rwa [hprioOf, hprioOf]
  case cnp =>
    rintro peer s _ u b hlinked hslice herr rfl hchoose
    exact (exec_cnp peer s).trans (execCnp_of_matched hlinked hslice herr hchoose)
  case otherSlice => exact fun peer s hlinked hslice => (exec_cnp peer s).trans (execCnp_of_otherSlice hlinked hslice)
  case rate =>
    rintro peer s _ hopen rfl
    exact (exec_rateIncrease peer s).trans (execRateIncrease_of_open hopen)

end Sys2Proof.Machine
end

section
/-! SUPPORT. The module's own requests (R297), its peer and stream entries (R292, R303), the event ring (R298, R299) and the clock (R300). -/
namespace Sys2Proof.Machine

/-! ## The commands, by their meanings -/

theorem exec_rdmaAck (peer : Fin 4096) (a : AckResult) (s : State) : exec (.rdmaAck peer a) s = execRdmaAck peer a s := rfl

theorem exec_ackTimeout (peer : Fin 4096) (s : State) : exec (.ackTimeout peer) s = execAckTimeout peer s := rfl

theorem exec_peerEntryWrite (peer : Fin 4096) (offset : Nat) (d : List Byte) (s : State) :
    exec (.peerEntryWrite peer offset d) s = .next (writePeer s peer offset d) := rfl

theorem exec_streamEntryWrite (pd : Fin 4) (i : Fin 1024) (offset : Nat) (d : List Byte) (s : State) :
    exec (.streamEntryWrite pd i offset d) s = execStreamEntryWrite pd i offset d s := rfl

theorem exec_evtCfgWrite (v : W64) (s : State) : exec (.evtCfgWrite v) s = execEvtCfgWrite v s := rfl

theorem exec_eventWrite (s : State) : exec .eventWrite s = execEventWrite s := rfl

theorem exec_ptpMessage (port : Fin 64) (dom : BitVec 8) (off : Int) (s : State) :
    exec (.ptpMessage port dom off) s = execPtpMessage port dom off s := rfl

/-! ## RDMA_ACK and ACK_TIMEOUT (R291, R297) -/

section
variable {peer : Fin 4096} {s : State}

section
variable {q : QpReq} {rest : List QpReq} (hout : (s.peer peer).out = q :: rest)
include hout

section
variable (hlinked : peerLinked s peer = true) (hslice : sliceFits s peer = true) (herr : (s.peer peer).err = false)
include hlinked hslice herr

theorem execRdmaAck_of_ok (d : List Byte) : execRdmaAck peer (.ok d) s =
    .next (settleUse (s.setPeer peer { (s.peer peer) with out := rest }) q.use (.ok (if q.op = 1 then padTo q.len d else []))) := by
  simp only [execRdmaAck, hout, hlinked, hslice, herr, Bool.not_true, Bool.false_eq_true, if_false]

theorem execRdmaAck_of_nakAccess : execRdmaAck peer .nakAccess s =
    .next (settleUse (s.setPeer peer { (s.peer peer) with out := rest }) q.use (.error stDmaRdmaRemote)) := by
  simp only [execRdmaAck, hout, hlinked, hslice, herr, Bool.not_true, Bool.false_eq_true, if_false]

end

theorem execAckTimeout_of_open (hopen : qpOpen s peer = true) : execAckTimeout peer s =
    .next (if q.tries < peerRetry (s.peer peer) then
      resendAll (s.setPeer peer { (s.peer peer) with out := { q with tries := q.tries + 1 } :: rest }) peer else qpError s peer) := by
  simp only [execAckTimeout, hout, hopen, Bool.not_true, Bool.false_eq_true, if_false]
  by_cases hleft : q.tries < peerRetry (s.peer peer)
  · simp only [if_pos hleft, if_neg (Nat.not_le.2 hleft)]
  · simp only [if_neg hleft, if_pos (Nat.not_lt.1 hleft)]

end

theorem execRdmaAck_of_otherSlice (hlinked : peerLinked s peer = true) (hslice : sliceFits s peer = false) (a : AckResult) :
    execRdmaAck peer a s = .next (sliceDrop s peer) := by
  simp only [execRdmaAck, hlinked, hslice, Bool.not_true, Bool.not_false, Bool.false_eq_true, if_false, if_true]

end

/-! ## Entries: a write of one word is that word's own (R443) -/

theorem chunksOf_length_one {α : Type} (l : List α) : chunksOf l.length 1 l = [l] := by
  simp only [chunksOf, List.take_length]

section
variable {d : List Byte} (hd : d.length = 8)
include hd

theorem zipIdx_chunksOf_word : (chunksOf 8 (d.length / 8) d).zipIdx = [(d, 0)] := by
  have hword := chunksOf_length_one d
  rw [hd] at hword
  rw [hd, hword, List.zipIdx_singleton]

theorem writePeer_word {w : Nat} (hw : w < 8) (s : State) (p : Nat) : writePeer s p (8 * w) d = writePeerWord s p w d := by
  simp only [writePeer, zipIdx_chunksOf_word hd, List.foldl_cons, List.foldl_nil, Nat.add_zero, Nat.mul_div_cancel_left w (show 0 < 8 by decide),
    if_pos hw]

theorem execStreamEntryWrite_word {w : Nat} (hw : w < 4) (pd : Fin 4) (i : Fin 1024) (s : State) :
    execStreamEntryWrite pd i (8 * w) d s = .next (writeStreamWord s (pd.val * 1024 + i.val) w d) := by
  simp only [execStreamEntryWrite, writeStream, zipIdx_chunksOf_word hd, List.foldl_cons, List.foldl_nil, Nat.add_zero,
    Nat.mul_div_cancel_left w (show 0 < 8 by decide)]
  rw [if_neg (by omega)]

end

/-! ## What a word of an entry that is not valid becomes (R292, R303) -/

section
variable {s : State} {p w : Nat} {d : List Byte} (hvalid : peerValid (s.peer p) = false)
include hvalid

theorem writePeerWord_of_later (hw : w ≠ 0) :
    writePeerWord s p w d = s.setPeer p { (s.peer p) with entry := patch (s.peer p).entry (8 * w) (maskPeerWord w d) } := by
  simp only [writePeerWord, hvalid, hw, false_and, Bool.false_eq_true, if_false]

/-- A first word that leaves `VALID` at 0 is taken up where its fields are in range. -/
theorem writePeerWord_of_first (hclear : getLe (maskPeerWord 0 d) 0 1 % 2 = 0) :
    writePeerWord s p 0 d = if peerRange (maskPeerWord 0 d) = true then
      s.setPeer p { (s.peer p) with entry := patch (s.peer p).entry 0 (maskPeerWord 0 d) } else s := by
  cases hrange : peerRange (maskPeerWord 0 d) with
  | true => simp [writePeerWord, hvalid, hclear, hrange]
  | false => simp [writePeerWord, hvalid, hrange]

end

theorem bitAt_zero_iff {n : Nat} : bitAt n 0 = true ↔ n % 2 = 1 := by
  simp [bitAt]

/-- The entry of a stream after a write of its first word. -/
def streamFirstWord (x : Stream) (d : List Byte) : Stream :=
  { entry := slice d 0 6 ++ natLe 1 (getLe d 6 1 % 8) ++ slice d 7 1 ++ slice x.entry 8 8 ++ List.replicate 16 0 }

section
variable {s : State} {k : Nat} {d : List Byte} (hvalid : seValid (s.strm k) = false)
include hvalid

theorem writeStreamWord_of_second :
    writeStreamWord s k 1 d = s.setStrm k { (s.strm k) with entry := patch (s.strm k).entry 8 (natLe 4 (getLe d 0 4)) } := by
  simp [writeStreamWord, hvalid]

/-- A first word is taken up, unless it sets `VALID` on fields that do not fit the tensor, or on a tensor that has a valid entry. -/
theorem writeStreamWord_of_first {y : Stream} {port : Nat} (hy : streamFirstWord (s.strm k) d = y)
    (hport : peerPort (sePeer k y) (s.peer (sePeer k y)) = port) :
    writeStreamWord s k 0 d =
      if bitAt (getLe d 6 1) 0 = true ∧ (entryFits s k y = false ∨ ∃ e ∈ s.streams, e.1 ≠ k ∧ seValid e.2 = true ∧ seTensor e.2 = getLe d 0 4) then
        s.put (portStatCfgErr (port / 16) (port % 16)) 1
      else s.setStrm k y := by
  have hflag : getLe d 6 1 % 8 % 2 = getLe d 6 1 % 2 := Nat.mod_mod_of_dvd _ (by decide)
  have hbars : (getLe d 6 1 % 8 % 2 = 1 ∧ ((!entryFits s k y) = true ∨
      s.streams.any (fun e => decide (e.1 ≠ k) && seValid e.2 && decide (seTensor e.2 = getLe d 0 4)) = true)) ↔
      (bitAt (getLe d 6 1) 0 = true ∧ (entryFits s k y = false ∨ ∃ e ∈ s.streams, e.1 ≠ k ∧ seValid e.2 = true ∧ seTensor e.2 = getLe d 0 4)) := by
    simp only [bitAt_zero_iff, hflag, Bool.not_eq_true', List.any_eq_true, Bool.and_eq_true, decide_eq_true_eq, and_assoc]
  subst hport hy
  simp only [writeStreamWord, hvalid, if_neg (show ¬ 2 ≤ 0 by decide), Nat.zero_ne_one, Bool.false_eq_true, if_false]
  exact ite_congr (propext hbars) (fun _ => rfl) (fun _ => rfl)

end

/-! ## EVT_CFG_WRITE and EVENT_WRITE (R298, R299, R441) -/

theorem execEvtCfgWrite_of_size {v : W64} (hlow : 6 ≤ field v.toNat 14 5) (hhigh : field v.toNat 14 5 ≤ 20) (s : State) :
    execEvtCfgWrite v s = .next
      ((if bitAt v.toNat 13 = true ∧ s.on evtCfgEvtEn = false then { s with evPre := s.evOut }.puts [(evtTailTail, 0), (evtHeadHead, 0)] else s).puts
        [(evtCfgEvtPeer, field v.toNat 0 12), (evtCfgSendEn, field v.toNat 12 1), (evtCfgEvtEn, field v.toNat 13 1), (evtCfgLog2N, field v.toNat 14 5)]) := by
  have hsize : ¬ (field v.toNat 14 5 < 6 ∨ 20 < field v.toNat 14 5) := by omega
  simp only [execEvtCfgWrite, if_neg hsize, Bool.and_eq_true, Bool.not_eq_true']

theorem noteLoss_of_none {s : State} (h : s.evLost = 0) : noteLoss s = s := by
  simp only [noteLoss, h, if_true]

/-- The ring's tail has moved on to `n`, and the event that it stood at is out. -/
def eventOut (s : State) (n : Nat) : State :=
  { s.put evtTailTail n with evOut := (s.put evtTailTail n).evOut + 1, evSeq := (s.put evtTailTail n).evSeq + 1 }

section
variable {s : State} (hen : s.on evtCfgEvtEn = true) (husable : peerUsable s (s.get evtCfgEvtPeer) = true)
  (hclass : peerClass (s.peer (s.get evtCfgEvtPeer)) = 1) (hroom : evtFill s < 2 ^ s.get evtCfgLog2N) (hlost : s.evLost = 0)
include hen husable hclass hroom hlost

/-- The next event is written at the tail, which a SEND tells the host under `SEND_EN`. -/
theorem execEventWrite_of_room {t : State} {n : Nat} {e : Event} (hnext : s.evbuf[s.evOut]? = some e)
    (hn : (s.get evtTailTail + 1) % 2 ^ (s.get evtCfgLog2N + 1) = n)
    (ht : qpPost s (s.get evtCfgEvtPeer) {
      op := 0, addr := s.get evtAddrAddr + 64 * (s.get evtTailTail % 2 ^ s.get evtCfgLog2N), len := 64
      data := eventBytes e s.evSeq (!bitAt (s.get evtTailTail) (s.get evtCfgLog2N)), use := .event } = t) :
    execEventWrite s = .next (if (eventOut t n).on evtCfgSendEn then
      qpPost (eventOut t n) (s.get evtCfgEvtPeer) { op := 2, len := 8, data := natLe 8 n, use := .tail } else eventOut t n) := by
  subst hn ht
  simp only [execEventWrite, hen, husable, hclass, decide_eq_false (Nat.not_le.2 hroom), noteLoss_of_none hlost, hnext, ne_eq, not_true_eq_false,
    decide_false, Bool.not_true, Bool.or_self, Bool.false_eq_true, if_false]
  rfl

end

/-! ## PTP_MESSAGE (R300) -/

theorem execPtpMessage_of_own {port : Fin 64} {dom : BitVec 8} {s : State} (hen : s.on ptpCtrlPtpEn = true) (hport : s.get ptpCtrlPtpPort = port.val)
    (hclass : portClass s port = 1) (hpasses : portPasses s port 0 = true) (hdomain : s.get ptpCtrlDomain = dom.toNat) (off : Int) :
    execPtpMessage port dom off s =
      .next (s.puts [(ptpStatOffsetNs, unsigned 32 off), (ptpStatLocked, b2n (decide (off.natAbs < 1000)))]) := by
  simp only [execPtpMessage, hen, hport, hclass, hpasses, hdomain, ne_eq, not_true_eq_false, decide_false, Bool.not_true, Bool.or_self,
    Bool.false_eq_true, if_false]

/-- Settles O38: an answer and a timeout by the oldest request, an entry's write by its one word, the rest by their checks. -/
theorem ownRequestsAndEntriesFollowTheirAnswers : Obligations.OwnRequestsAndEntriesFollowTheirAnswers := by
  unfold Obligations.OwnRequestsAndEntriesFollowTheirAnswers
  refine ⟨?answer, ?otherSlice, ?timeout, ?peerLater, ?peerFirst, ?streamSecond, ?streamFirst, ?ring, ?event, ?clock⟩
  case answer =>
    exact fun peer s q rest d hout hlinked hslice herr => ⟨(exec_rdmaAck peer _ s).trans (execRdmaAck_of_ok hout hlinked hslice herr d),
      (exec_rdmaAck peer _ s).trans (execRdmaAck_of_nakAccess hout hlinked hslice herr)⟩
  case otherSlice => exact fun peer s a hlinked hslice => (exec_rdmaAck peer a s).trans (execRdmaAck_of_otherSlice hlinked hslice a)
  case timeout => exact fun peer s q rest hout hopen => (exec_ackTimeout peer s).trans (execAckTimeout_of_open hout hopen)
  case peerLater =>
    intro peer w d s hd hpos hw hvalid
    rw [exec_peerEntryWrite, writePeer_word hd hw, writePeerWord_of_later hvalid (Nat.ne_of_gt hpos)]
  case peerFirst =>
    intro peer d s hd hvalid hclear
    rw [exec_peerEntryWrite, writePeer_word hd (w := 0) (by decide), writePeerWord_of_first hvalid hclear]
  case streamSecond =>
    rintro pd i d s _ hd rfl hvalid
    rw [exec_streamEntryWrite, execStreamEntryWrite_word hd (w := 1) (by decide), writeStreamWord_of_second hvalid]
  case streamFirst =>
    rintro pd i d s _ port y hd rfl hvalid hy hport
    rw [exec_streamEntryWrite, execStreamEntryWrite_word hd (w := 0) (by decide), writeStreamWord_of_first hvalid hy.symm hport.symm]
  case ring => exact fun v s hlow hhigh => (exec_evtCfgWrite v s).trans (execEvtCfgWrite_of_size hlow hhigh s)
  case event =>
    rintro s t _ _ _ e _ rfl rfl hen husable hclass hroom hlost hnext rfl rfl rfl
    exact (exec_eventWrite s).trans (execEventWrite_of_room hen husable hclass hroom hlost hnext rfl rfl)
  case clock =>
    exact fun port dom off s hen hport hclass hpasses hdomain => (exec_ptpMessage port dom off s).trans
      (execPtpMessage_of_own hen hport hclass hpasses hdomain off)

end Sys2Proof.Machine
end

section
/-! SUPPORT. The queue of commands: a step runs the one at its front, no command touches those behind it, and each answers a next state, but for
an input beyond the ratings (95_what_each_step_holds, R454). -/
namespace Sys2Proof.Machine

/-- Settles O50: by what is at the front of the queue. -/
theorem stepRunsTheFrontCommand : Obligations.StepRunsTheFrontCommand := by
  unfold Obligations.StepRunsTheFrontCommand
  refine ⟨fun c rest s hfront => step_of_front hfront, fun s hempty => step_of_empty hempty, fun s hempty hbuf hxoff => ?_⟩
  rw [step_of_empty hempty]
  simp only [drainBuffers, hxoff, List.foldl_nil]
  rw [← hbuf, ← hxoff]

/-- Settles O53: what every command keeps holds of the queue, the fused values and what has left. -/
theorem commandsLeaveQueueAndFuses : Obligations.CommandsLeaveQueueAndFuses := by
  unfold Obligations.CommandsLeaveQueueAndFuses
  intro c s t hexec
  have hkeeps : Keeps s t := (exec_keeps (.refl s) c).next t hexec
  exact ⟨hkeeps.pending, hkeeps.vendorHash, hkeeps.serial, hkeeps.idCert, hkeeps.outbox⟩

/-! ## A command completes

A meaning is a tree of checks and cases, and what it answers at each of its leaves is a next state. -/

/-- The outcome is a next state. -/
def Completes (o : Host.Outcome State Fault Refusal) : Prop := ∃ t, o = .next t

theorem completes_next (s : State) : Completes (.next s) := ⟨s, rfl⟩

theorem completes_ite {c : Prop} [Decidable c] {a b : Host.Outcome State Fault Refusal} :
    Completes (if c then a else b) ↔ (c → Completes a) ∧ (¬c → Completes b) := by
  split <;> simp_all

/-! ## The commands that go by cases -/

theorem execHubNop_completes (r : Fin 32) (s : State) : Completes (execHubNop r s) := by
  unfold execHubNop
  repeat' first | exact completes_next _ | split

theorem execHubToken_completes (r : Fin 32) (s : State) : Completes (execHubToken r s) := by
  unfold execHubToken
  repeat' first | exact completes_next _ | split

theorem execHubStep_completes (r : Fin 32) (s : State) : Completes (execHubStep r s) := by
  unfold execHubStep
  repeat' first | exact completes_next _ | split

theorem execRetireGrant_completes (r : Fin 32) (s : State) : Completes (execRetireGrant r s) := by
  unfold execRetireGrant
  repeat' first | exact completes_next _ | split | dsimp only

theorem execRecordVisible_completes (r : Fin 32) (s : State) : Completes (execRecordVisible r s) := by
  unfold execRecordVisible
  repeat' first | exact completes_next _ | split | dsimp only

theorem execWaitTimeout_completes (r : Fin 32) (q : Fin 8) (s : State) : Completes (execWaitTimeout r q s) := by
  unfold execWaitTimeout
  repeat' first | exact completes_next _ | split

theorem execDmaSubmit_completes (r : Fin 32) (s : State) : Completes (execDmaSubmit r s) := by
  unfold execDmaSubmit
  repeat' first | exact completes_next _ | split | dsimp only

theorem execDmaDescStart_completes (r : Fin 32) (ch : Fin 64) (s : State) : Completes (execDmaDescStart r ch s) := by
  unfold execDmaDescStart
  repeat' first | exact completes_next _ | split | dsimp only

theorem execDmaBurst_completes (r : Fin 32) (ch : Fin 64) (s : State) : Completes (execDmaBurst r ch s) := by
  unfold execDmaBurst
  repeat' first | exact completes_next _ | split | dsimp only

theorem execDmaLastWriteLeft_completes (r : Fin 32) (ch : Fin 64) (s : State) : Completes (execDmaLastWriteLeft r ch s) := by
  unfold execDmaLastWriteLeft
  repeat' first | exact completes_next _ | split

theorem execDmaBarrierAck_completes (r : Fin 32) (ch : Fin 64) (s : State) : Completes (execDmaBarrierAck r ch s) := by
  unfold execDmaBarrierAck
  repeat' first | exact completes_next _ | split

theorem execDmaBarrierTimeout_completes (r : Fin 32) (ch : Fin 64) (s : State) : Completes (execDmaBarrierTimeout r ch s) := by
  unfold execDmaBarrierTimeout
  repeat' first | exact completes_next _ | split

theorem execMxeMm_completes (r : Fin 32) (cl : Fin 96) (s : State) : Completes (execMxeMm r cl s) := by
  unfold execMxeMm
  repeat' first | exact completes_next _ | split

theorem execMxeMmSparse_completes (r : Fin 32) (cl : Fin 96) (s : State) : Completes (execMxeMmSparse r cl s) := by
  unfold execMxeMmSparse
  repeat' first | exact completes_next _ | split

theorem execMxeMmSelect_completes (r : Fin 32) (cl : Fin 96) (s : State) : Completes (execMxeMmSelect r cl s) := by
  unfold execMxeMmSelect
  repeat' first | exact completes_next _ | split

theorem execFinishedTilePush_completes (r : Fin 32) (cl : Fin 96) (s : State) : Completes (execFinishedTilePush r cl s) := by
  unfold execFinishedTilePush
  repeat' first | exact completes_next _ | split | dsimp only

theorem execVeExec_completes (r : Fin 32) (cl : Fin 96) (s : State) : Completes (execVeExec r cl s) := by
  unfold execVeExec
  repeat' first | exact completes_next _ | split

theorem execPrimeRelease_completes (r : Fin 32) (cl : Fin 96) (s : State) : Completes (execPrimeRelease r cl s) := by
  unfold execPrimeRelease
  repeat' first | exact completes_next _ | split | dsimp only

theorem execSliceScan_completes (r : Fin 32) (index : Nat) (s : State) : Completes (execSliceScan r index s) := by
  unfold execSliceScan
  repeat' first | exact completes_next _ | split | dsimp only

theorem execNotice_completes (i : Nat) (s : State) : Completes (execNotice i s) := by
  unfold execNotice
  repeat' first | exact completes_next _ | split

theorem execUpeUpdate_completes (r : Fin 32) (die : Fin 2) (s : State) : Completes (execUpeUpdate r die s) := by
  unfold execUpeUpdate
  repeat' first | exact completes_next _ | split

theorem execPanPut_completes (r : Fin 32) (s : State) : Completes (execPanPut r s) := by
  unfold execPanPut
  repeat' first | exact completes_next _ | split

theorem execPanGet_completes (r : Fin 32) (s : State) : Completes (execPanGet r s) := by
  unfold execPanGet
  repeat' first | exact completes_next _ | split

theorem execPanFree_completes (r : Fin 32) (s : State) : Completes (execPanFree r s) := by
  unfold execPanFree
  repeat' first | exact completes_next _ | split

theorem execPredRun_completes (r : Fin 32) (cl : Fin 96) (s : State) : Completes (execPredRun r cl s) := by
  unfold execPredRun
  repeat' first | exact completes_next _ | split

theorem execPredExpand_completes (r : Fin 32) (cl : Fin 96) (s : State) : Completes (execPredExpand r cl s) := by
  unfold execPredExpand
  repeat' first | exact completes_next _ | split | dsimp only

theorem execDispatch_completes (r : Fin 32) (s : State) : Completes (execDispatch r s) := by
  unfold execDispatch
  repeat' first | exact completes_next _ | split

theorem execHubAbort_completes (r : Fin 32) (s : State) : Completes (execHubAbort r s) := by
  unfold execHubAbort
  repeat' first | exact completes_next _ | split | dsimp only

theorem execGrPush_completes (pd : Fin 4) (index : Fin 1024) (s : State) : Completes (execGrPush pd index s) := by
  unfold execGrPush
  repeat' first | exact completes_next _ | split | dsimp only

theorem execVoteCast_completes (r : Fin 32) (s : State) : Completes (execVoteCast r s) := by
  unfold execVoteCast
  repeat' first | exact completes_next _ | split | dsimp only

theorem execVote_completes (i : Nat) (s : State) : Completes (execVote i s) := by
  unfold execVote
  repeat' first | exact completes_next _ | split

theorem execGateTimeout_completes (s : State) : Completes (execGateTimeout s) := by
  unfold execGateTimeout
  repeat' first | exact completes_next _ | split | dsimp only

theorem execVerdict_completes (i : Nat) (s : State) : Completes (execVerdict i s) := by
  unfold execVerdict
  repeat' first | exact completes_next _ | split

theorem execFlitReceive_completes (stop : Fin 36) (ring : Fin 16) (descending : Bool) (flit : List Byte) (sideband : W64) (s : State) :
    Completes (execFlitReceive stop ring descending flit sideband s) := by
  unfold execFlitReceive
  repeat' first | exact completes_next _ | split | dsimp only

theorem execMemWr_completes (i : Nat) (s : State) : Completes (execMemWr i s) := by
  unfold execMemWr
  repeat' first | exact completes_next _ | split

theorem execMemRd_completes (i : Nat) (s : State) : Completes (execMemRd i s) := by
  unfold execMemRd
  repeat' first | exact completes_next _ | split | dsimp only

theorem execAtomic_completes (i : Nat) (s : State) : Completes (execAtomic i s) := by
  unfold execAtomic
  repeat' first | exact completes_next _ | split | dsimp only

theorem execMemRsp_completes (i : Nat) (s : State) : Completes (execMemRsp i s) := by
  unfold execMemRsp
  repeat' first | exact completes_next _ | split

theorem execRedAck_completes (i : Nat) (s : State) : Completes (execRedAck i s) := by
  unfold execRedAck
  repeat' first | exact completes_next _ | split

theorem execRedAdd_completes (i : Nat) (s : State) : Completes (execRedAdd i s) := by
  unfold execRedAdd
  repeat' first | exact completes_next _ | split | dsimp only

theorem execSignal_completes (i : Nat) (s : State) : Completes (execSignal i s) := by
  unfold execSignal
  repeat' first | exact completes_next _ | split | dsimp only

theorem execSignalResend_completes (r : Fin 32) (s : State) : Completes (execSignalResend r s) := by
  unfold execSignalResend
  repeat' first | exact completes_next _ | split | dsimp only

theorem execHeldRequestResend_completes (stop : Fin 36) (s : State) : Completes (execHeldRequestResend stop s) := by
  unfold execHeldRequestResend
  repeat' first | exact completes_next _ | split | dsimp only

theorem execDerail_completes (i : Nat) (s : State) : Completes (execDerail i s) := by
  unfold execDerail
  repeat' first | exact completes_next _ | split

theorem execTargetLost_completes (r : Fin 32) (s : State) : Completes (execTargetLost r s) := by
  unfold execTargetLost
  repeat' first | exact completes_next _ | split | dsimp only

theorem execFoldDone_completes (seam : Fin 16) (s : State) : Completes (execFoldDone seam s) := by
  unfold execFoldDone
  repeat' first | exact completes_next _ | split | dsimp only

theorem execBackgroundRebuildChunk_completes (s : State) : Completes (execBackgroundRebuildChunk s) := by
  unfold execBackgroundRebuildChunk
  repeat' first | exact completes_next _ | split | dsimp only

theorem execScrubPass_completes (r : Fin 32) (s : State) : Completes (execScrubPass r s) := by
  unfold execScrubPass
  repeat' first | exact completes_next _ | split

theorem execFence_completes (r : Fin 32) (code : BitVec 16) (s : State) : Completes (execFence r code s) := by
  unfold execFence
  repeat' first | exact completes_next _ | split

theorem execRerunStart_completes (s : State) : Completes (execRerunStart s) := by
  unfold execRerunStart
  repeat' first | exact completes_next _ | split

theorem execSnapshot_completes (s : State) : Completes (execSnapshot s) := by
  unfold execSnapshot
  repeat' first | exact completes_next _ | split | dsimp only

theorem execJournalRecord_completes (r : Fin 32) (s : State) : Completes (execJournalRecord r s) := by
  unfold execJournalRecord
  repeat' first | split | exact completes_next _

theorem execRsGo_completes (objects : List (List Byte)) (s : State) : Completes (execRsGo objects s) := by
  unfold execRsGo
  repeat' first | exact completes_next _ | split | dsimp only

theorem execCkptRestore_completes (objects : List (List Byte)) (manifest : List Byte) (s : State) :
    Completes (execCkptRestore objects manifest s) := by
  unfold execCkptRestore
  repeat' first | exact completes_next _ | split | dsimp only

theorem execRdmaAck_completes (peer : Fin 4096) (result : AckResult) (s : State) : Completes (execRdmaAck peer result s) := by
  unfold execRdmaAck
  repeat' first | exact completes_next _ | split | dsimp only

theorem execAckTimeout_completes (peer : Fin 4096) (s : State) : Completes (execAckTimeout peer s) := by
  unfold execAckTimeout
  repeat' first | exact completes_next _ | split | dsimp only

theorem execEventWrite_completes (s : State) : Completes (execEventWrite s) := by
  unfold execEventWrite
  repeat' first | exact completes_next _ | split | dsimp only

theorem execFrameReceive_completes (port : Fin 64) (half : Fin 2) (frame : Frame) (s : State) : Completes (execFrameReceive port half frame s) := by
  unfold execFrameReceive
  repeat' first | exact completes_next _ | split | dsimp only

theorem execCnp_completes (peer : Fin 4096) (s : State) : Completes (execCnp peer s) := by
  unfold execCnp
  repeat' first | exact completes_next _ | split

theorem execTripProbe_completes (r : Fin 32) (tripsAgain : Bool) (s : State) : Completes (execTripProbe r tripsAgain s) := by
  unfold execTripProbe
  repeat' first | exact completes_next _ | split | dsimp only

theorem execAdmissionRetest_completes (seg : Fin 8) (draws : Draws) (s : State) : Completes (execAdmissionRetest seg draws s) := by
  unfold execAdmissionRetest
  generalize measure s draws = s
  repeat' first | exact completes_next _ | split | dsimp only

theorem execQuarter_completes (seg : Fin 8) (draws : Draws) (s : State) : Completes (execQuarter seg draws s) := by
  unfold execQuarter
  generalize measure s draws = s
  repeat' first | exact completes_next _ | split | dsimp only

theorem execCuffEnforce_completes (draws : Draws) (s : State) : Completes (execCuffEnforce draws s) := completes_next _

theorem execUnpark_completes (draws : Draws) (s : State) : Completes (execUnpark draws s) := by
  unfold execUnpark
  generalize measure s draws = s
  repeat' first | exact completes_next _ | split | dsimp only

theorem execCassetteAuthenticated_completes (bay : Fin 8) (reply : CassetteReply) (s : State) :
    Completes (execCassetteAuthenticated bay reply s) := by
  unfold execCassetteAuthenticated
  repeat' first | exact completes_next _ | split | dsimp only

theorem execDriveRampEnd_completes (bay : Fin 8) (s : State) : Completes (execDriveRampEnd bay s) := by
  unfold execDriveRampEnd
  repeat' first | exact completes_next _ | split

theorem execThermalTargetStep_completes (r : Fin 32) (s : State) : Completes (execThermalTargetStep r s) := by
  unfold execThermalTargetStep
  repeat' first | exact completes_next _ | split | dsimp only

theorem execAttGo_completes (s : State) : Completes (execAttGo s) := by
  unfold execAttGo
  repeat' first | exact completes_next _ | split

theorem execPartialApply_completes (s : State) : Completes (execPartialApply s) := by
  unfold execPartialApply
  repeat' first | exact completes_next _ | split

theorem execFwWrite_completes (target : Fin 3) (s : State) : Completes (execFwWrite target s) := by
  unfold execFwWrite
  repeat' first | exact completes_next _ | split | dsimp only

theorem execErrorRecord_completes (stop : Fin 36) (code unit : BitVec 16) (step detail0 detail1 : W64) (s : State) :
    Completes (execErrorRecord stop code unit step detail0 detail1 s) := by
  unfold execErrorRecord
  repeat' first | exact completes_next _ | split | dsimp only

theorem execErrorRecordMove_completes (s : State) : Completes (execErrorRecordMove s) := by
  unfold execErrorRecordMove
  repeat' first | exact completes_next _ | split

theorem execInjWindowEnd_completes (s : State) : Completes (execInjWindowEnd s) := by
  unfold execInjWindowEnd
  repeat' first | exact completes_next _ | split

theorem execRegisterWrite_completes (path : Path) (addr value : W64) (s : State) : Completes (execRegisterWrite path addr value s) := by
  unfold execRegisterWrite
  repeat' first | exact completes_next _ | split

theorem execMgmt_completes (stop : Fin 36) (msg : MgmtMsg) (s : State) : Completes (execMgmt stop msg s) := by
  unfold execMgmt
  repeat' first | exact completes_next _ | split

theorem execSend_completes (src : PktSrc) (data : List Byte) (s : State) : Completes (execSend src data s) := by
  unfold execSend
  repeat' first | exact completes_next _ | split

theorem execTamper_completes (event : Fin 4) (s : State) : Completes (execTamper event s) := by
  unfold execTamper
  repeat' first | exact completes_next _ | split

theorem execMeterTransmission_completes (arrived : Bool) (s : State) : Completes (execMeterTransmission arrived s) := by
  unfold execMeterTransmission
  repeat' first | exact completes_next _ | split | dsimp only

/-! ## Every command, but for INPUT_VOLTAGE_CHANGE (R454) -/

theorem exec_completes {c : Instr} (hc : ∀ mv rev d, c ≠ .inputVoltageChange mv rev d) (s : State) : Completes (exec c s) := by
  unfold exec
  cases c with
  | inputVoltageChange mv rev d => exact absurd rfl (hc mv rev d)
  | hubNop => exact execHubNop_completes ..
  | hubToken => exact execHubToken_completes ..
  | hubStep => exact execHubStep_completes ..
  | retireGrant => exact execRetireGrant_completes ..
  | recordVisible => exact execRecordVisible_completes ..
  | waitTimeout => exact execWaitTimeout_completes ..
  | dmaSubmit => exact execDmaSubmit_completes ..
  | dmaDescStart => exact execDmaDescStart_completes ..
  | dmaBurst => exact execDmaBurst_completes ..
  | dmaLastWriteLeft => exact execDmaLastWriteLeft_completes ..
  | dmaBarrierAck => exact execDmaBarrierAck_completes ..
  | dmaBarrierTimeout => exact execDmaBarrierTimeout_completes ..
  | mxeMm => exact execMxeMm_completes ..
  | mxeMmSparse => exact execMxeMmSparse_completes ..
  | mxeMmSelect => exact execMxeMmSelect_completes ..
  | finishedTilePush => exact execFinishedTilePush_completes ..
  | veExec => exact execVeExec_completes ..
  | primeRelease => exact execPrimeRelease_completes ..
  | sliceScan => exact execSliceScan_completes ..
  | notice => exact execNotice_completes ..
  | upeUpdate => exact execUpeUpdate_completes ..
  | panPut => exact execPanPut_completes ..
  | panGet => exact execPanGet_completes ..
  | panFree => exact execPanFree_completes ..
  | predRun => exact execPredRun_completes ..
  | predExpand => exact execPredExpand_completes ..
  | dispatch => exact execDispatch_completes ..
  | hubAbort => exact execHubAbort_completes ..
  | grPush => exact execGrPush_completes ..
  | voteCast => exact execVoteCast_completes ..
  | vote => exact execVote_completes ..
  | gateTimeout => exact execGateTimeout_completes ..
  | verdict => exact execVerdict_completes ..
  | flitReceive => exact execFlitReceive_completes ..
  | memWr => exact execMemWr_completes ..
  | memRd => exact execMemRd_completes ..
  | atomic => exact execAtomic_completes ..
  | memRsp => exact execMemRsp_completes ..
  | redAck => exact execRedAck_completes ..
  | redAdd => exact execRedAdd_completes ..
  | signal => exact execSignal_completes ..
  | signalResend => exact execSignalResend_completes ..
  | heldRequestResend => exact execHeldRequestResend_completes ..
  | derail => exact execDerail_completes ..
  | targetLost => exact execTargetLost_completes ..
  | foldDone => exact execFoldDone_completes ..
  | backgroundRebuildChunk => exact execBackgroundRebuildChunk_completes ..
  | scrubPass => exact execScrubPass_completes ..
  | fence => exact execFence_completes ..
  | rerunStart => exact execRerunStart_completes ..
  | snapshot => exact execSnapshot_completes ..
  | journalRecord => exact execJournalRecord_completes ..
  | rsGo => exact execRsGo_completes ..
  | ckptRestore => exact execCkptRestore_completes ..
  | rdmaAck => exact execRdmaAck_completes ..
  | ackTimeout => exact execAckTimeout_completes ..
  | eventWrite => exact execEventWrite_completes ..
  | frameReceive => exact execFrameReceive_completes ..
  | cnp => exact execCnp_completes ..
  | tripProbe => exact execTripProbe_completes ..
  | admissionRetest => exact execAdmissionRetest_completes ..
  | quarter => exact execQuarter_completes ..
  | cuffEnforce => exact execCuffEnforce_completes ..
  | unpark => exact execUnpark_completes ..
  | cassetteAuthenticated => exact execCassetteAuthenticated_completes ..
  | driveRampEnd => exact execDriveRampEnd_completes ..
  | thermalTargetStep => exact execThermalTargetStep_completes ..
  | attGo => exact execAttGo_completes ..
  | partialApply => exact execPartialApply_completes ..
  | fwWrite => exact execFwWrite_completes ..
  | errorRecord => exact execErrorRecord_completes ..
  | errorRecordMove => exact execErrorRecordMove_completes ..
  | injWindowEnd => exact execInjWindowEnd_completes ..
  | registerWrite => exact execRegisterWrite_completes ..
  | mgmt => exact execMgmt_completes ..
  | send => exact execSend_completes ..
  | tamper => exact execTamper_completes ..
  | meterTransmission => exact execMeterTransmission_completes ..
  | commandFetch | stepIncrement | doorbell | qCtrlWrite | qBaseWrite | cqCtrlWrite | cqBaseWrite | cqHeadWrite | chPost | chShareWrite |
  stepOpen | wtPush | wtDone | credit | replicaDrop | streamEntryWrite | drained | go | arm | wb | inv | scrubNow | seamRefresh |
  refreshNow | fold | resume | snapNow | ckptGo | peerEntryWrite | evtCfgWrite | ptpMessage | portLinkChange | pfcPause | pfcPauseExpiry |
  rateIncrease | convFail | segShort | cellFail | s2Trip | s2Fail | rampEnd | pwrCuffWrite | pwrRcuffWrite | cassetteDetect |
  lasersLocked | laserFail | casOvertemp | release | reauth | casRemoved | cassetteWithdrawn | lifeIncrement | monitorSample | dvfsStep |
  park | parkLimitExpiry | hwTrip | reqModeWrite | subnormalPathDown | ktReq | txSwitch | rxKeyErase | enroll | ownerSeal | rotate |
  setSlice | keyInstall | seqCommit | svnCommit | rootFailover | load | fwActivate | quiesce | coldStart | coldReset | moduleWarmReset |
  regionReset | portReset | errPop | injArm | regRead | provWrite | rdmaWrite | rdmaWriteWithImmediate | rdmaRead | derailDone |
  resumeRegion | meterRead | logRead | swid | cert | meterOpen | meterClose | logAck | setTime | meterRotate | enrol | epochBoundary |
  tamperClear | powerDown | powerUp | buttonPress | pageReturn | meterFault | swChange | mLinkLoss =>
    simp only [completes_ite, completes_next, implies_true, and_self, execCommandFetch, execStepIncrement, execDoorbell, execQCtrlWrite,
      execQBaseWrite, execCqCtrlWrite, execCqBaseWrite, execCqHeadWrite, execChPost, execChShareWrite, execStepOpen, execWtPush,
      execWtDone, execCredit, execReplicaDrop, execStreamEntryWrite, execDrained, execGo, execArm, execWb, execInv, execScrubNow,
      execSeamRefresh, execRefreshNow, execFold, execResume, execSnapNow, execCkptGo, execPeerEntryWrite, execEvtCfgWrite, execPtpMessage,
      execPortLinkChange, execPfcPause, execPfcPauseExpiry, execRateIncrease, execConvFail, execSegShort, execCellFail, execS2Trip,
      execS2Fail, execRampEnd, execPwrCuffWrite, execPwrRcuffWrite, execCassetteDetect, execLasersLocked, execLaserFail, execCasOvertemp,
      execRelease, execReauth, execCasRemoved, execCassetteWithdrawn, execLifeIncrement, execMonitorSample, execDvfsStep, execPark,
      execParkLimitExpiry, execHwTrip, execReqModeWrite, execSubnormalPathDown, execKtReq, execTxSwitch, execRxKeyErase, execEnroll,
      execOwnerSeal, execRotate, execSetSlice, execKeyInstall, execSeqCommit, execSvnCommit, execRootFailover, execLoad, execFwActivate,
      execQuiesce, execColdStart, execColdReset, execModuleWarmReset, execRegionReset, execPortReset, execErrPop, execInjArm, execRegRead,
      execProvWrite, execRdmaWrite, execRdmaWriteWithImmediate, execRdmaRead, execDerailDone, execResumeRegion, execMeterRead, execLogRead,
      execSwid, execCert, execMeterOpen, execMeterClose, execLogAck, execSetTime, execMeterRotate, execEnrol, execEpochBoundary,
      execTamperClear, execPowerDown, execPowerUp, execButtonPress, execPageReturn, execMeterFault, execSwChange, execMLinkLoss]

theorem execInputVoltageChange_of_beyond {mv : Nat} (h : 75000 < mv) (rev : Bool) (d : Draws) (s : State) :
    execInputVoltageChange mv rev d s = .fault .beyondRatings := if_pos h

theorem execInputVoltageChange_of_rated {mv : Nat} (h : mv ≤ 75000) (rev : Bool) (d : Draws) (s : State) :
    execInputVoltageChange mv rev d s = .next (measure (if forcedInput { s with inputMv := mv, inputRev := rev } then
      { s with inputMv := mv, inputRev := rev } else inputReads { s with inputMv := mv, inputRev := rev } mv rev false) d) :=
  if_neg (Nat.not_lt.2 h)

theorem exec_inputVoltageChange (mv : Nat) (rev : Bool) (d : Draws) (s : State) :
    exec (.inputVoltageChange mv rev d) s = execInputVoltageChange mv rev d s := rfl

/-- Settles O54: an input beyond the ratings faults, one within them is measured, and every other command completes. -/
theorem everyCommandCompletes : Obligations.EveryCommandCompletes := by
  unfold Obligations.EveryCommandCompletes
  intro c s
  by_cases hc : ∃ mv rev d, c = .inputVoltageChange mv rev d
  · obtain ⟨mv, rev, d, rfl⟩ := hc
    rw [exec_inputVoltageChange]
    by_cases hmv : 75000 < mv
    · exact .inr ⟨mv, rev, d, rfl, hmv, execInputVoltageChange_of_beyond hmv rev d s⟩
    · exact .inl ⟨_, execInputVoltageChange_of_rated (Nat.not_lt.1 hmv) rev d s⟩
  · exact .inl (exec_completes (fun mv rev d h => hc ⟨mv, rev, d, h⟩) s)

end Sys2Proof.Machine
end

section
/-! SUPPORT. Error records: what an arriving one can do to the queue (R434), how the head leaves it (R435), and injections (R436-R438, R471). -/
namespace Sys2Proof.Machine

/-! ## The commands, by their meanings -/

theorem exec_errorRecord (st : Fin 36) (c u : BitVec 16) (w d0 d1 : W64) (s : State) :
    exec (.errorRecord st c u w d0 d1) s = execErrorRecord st c u w d0 d1 s := rfl

theorem exec_errorRecordMove (s : State) : exec .errorRecordMove s = execErrorRecordMove s := rfl

theorem exec_errPop (s : State) : exec .errPop s = execErrPop s := rfl

theorem exec_injArm (v : W64) (s : State) : exec (.injArm v) s = execInjArm v s := rfl

theorem exec_injWindowEnd (s : State) : exec .injWindowEnd s = execInjWindowEnd s := rfl

/-! ## The record that takes a merge under a full queue (R434) -/

theorem lt_length_of_lastIdx {α : Type} {p : α → Bool} {l : List α} {i : Nat} (h : lastIdx p l = some i) : i < l.length :=
  List.mem_range.1 (List.mem_filter.1 (List.mem_of_getLast? h)).1

theorem lastIdx_ne_none {α : Type} {p : α → Bool} {l : List α} {x : α} (hx : x ∈ l) (hp : p x = true) : lastIdx p l ≠ none := by
  obtain ⟨i, hi, rfl⟩ := List.getElem_of_mem hx
  have hmem : i ∈ (List.range l.length).filter (fun i => (l[i]?.map p).getD false) := by simp [hi, hp]
  exact fun hnone => List.ne_nil_of_mem hmem (List.getLast?_eq_none_iff.1 hnone)

theorem foldl_max_sev (q : List ErrRec) : ∀ m : Nat, q.foldl (fun m r => max m r.sev) m = m ∨ ∃ r ∈ q, r.sev = q.foldl (fun m r => max m r.sev) m := by
  induction q with
  | nil => exact fun m => .inl rfl
  | cons x q ih =>
    intro m
    rw [List.foldl_cons]
    rcases ih (max m x.sev) with hmax | ⟨r, hr, hsev⟩
    · rcases Nat.le_total x.sev m with hle | hle
      · exact .inl (hmax.trans (Nat.max_eq_left hle))
      · exact .inr ⟨x, List.mem_cons_self, (hmax.trans (Nat.max_eq_right hle)).symm⟩
    · exact .inr ⟨r, List.mem_cons_of_mem _ hr, hsev⟩

/-- The highest severity of a queue that holds any record is that of one of them. -/
theorem exists_sev_eq_foldl_max {q : List ErrRec} (hq : q ≠ []) : ∃ r ∈ q, r.sev = q.foldl (fun m r => max m r.sev) 0 := by
  cases q with
  | nil => exact absurd rfl hq
  | cons x q =>
    rw [List.foldl_cons, Nat.zero_max]
    rcases foldl_max_sev q x.sev with hmax | ⟨r, hr, hsev⟩
    · exact ⟨x, List.mem_cons_self, hmax.symm⟩
    · exact ⟨r, List.mem_cons_of_mem _ hr, hsev⟩

theorem mergeTarget_ne_none {q : List ErrRec} (hq : q ≠ []) (sev : Nat) : mergeTarget q sev ≠ none := by
  obtain ⟨r, hr, hsev⟩ := exists_sev_eq_foldl_max hq
  unfold mergeTarget
  split
  · simp
  · split
    · simp
    · exact lastIdx_ne_none hr (decide_eq_true hsev)

theorem lt_length_of_mergeTarget {q : List ErrRec} {sev i : Nat} (h : mergeTarget q sev = some i) : i < q.length := by
  unfold mergeTarget at h
  split at h
  next hlast => exact lt_length_of_lastIdx (hlast.trans h)
  · split at h
    next hlast => exact lt_length_of_lastIdx (hlast.trans h)
    · exact lt_length_of_lastIdx h

/-! ## What an arriving record can do (R434) -/

theorem lostCe_key_ne_raisedField (sev : Nat) : errStatusLostCe.key ≠ (raisedField sev).key := by
  unfold raisedField
  split <;> decide

/-- An arriving record is counted into a queued one, whose number stands; or in `LOST_CE`; or it joins the queue under the next number. -/
theorem enqueueErr_cases (s : State) (e : ErrRec) :
    (∃ (i : Nat) (g : ErrRec → ErrRec), i < s.errq.length ∧ (∀ r, (g r).count = satAdd 32 r.count 1 ∧ (g r).seq = r.seq) ∧
      (enqueueErr s e).errq = s.errq.modify i g ∧ (enqueueErr s e).get errStatusLostCe = s.get errStatusLostCe) ∨
    ((enqueueErr s e).errq = s.errq ∧
      (enqueueErr s e).get errStatusLostCe = satAdd errStatusLostCe.w (s.get errStatusLostCe) 1 % 2 ^ errStatusLostCe.w) ∨
    ((enqueueErr s e).errq = s.errq ++ [{ e with seq := s.errSeq }] ∧ (enqueueErr s e).get errStatusLostCe = s.get errStatusLostCe) := by
  have hlost : (s.bump (raisedField e.sev) 1).get errStatusLostCe = s.get errStatusLostCe := State.get_put_other (lostCe_key_ne_raisedField e.sev)
  unfold enqueueErr
  dsimp only
  split
  next i hsame =>
    refine .inl ⟨i, _, (List.findIdx?_eq_some_iff_findIdx_eq.1 hsame).1, ?_, rfl, hlost⟩
    exact fun r => ⟨rfl, rfl⟩
  · split
    · exact .inr (.inl ⟨rfl, by rw [State.bump, State.get_put_same, hlost]⟩)
    · split
      · exact .inr (.inr ⟨rfl, hlost⟩)
      next hfull =>
        split
        next i htarget =>
          refine .inl ⟨i, _, lt_length_of_mergeTarget htarget, ?_, rfl, (State.get_put_other (by decide)).trans hlost⟩
          exact fun r => ⟨rfl, rfl⟩
        next hnone =>
          have hsome : s.errq ≠ [] := by rintro hnil; exact hfull (by simp [State.bump, hnil])
          exact absurd hnone (mergeTarget_ne_none hsome _)

theorem sum_map_modify {α : Type} {f : α → Nat} {g : α → α} {l : List α} {i : Nat} (hi : i < l.length) (hg : f (g l[i]) = f l[i] + 1) :
    ((l.modify i g).map f).sum = (l.map f).sum + 1 := by
  induction l generalizing i with
  | nil => simp at hi
  | cons x l ih =>
    cases i with
    | zero => simp at hg; simp [hg]; omega
    | succ i => simp at hi hg; simp [ih hi hg]; omega

theorem map_modify_of_eq {α β : Type} {f : α → β} {g : α → α} (hg : ∀ x, f (g x) = f x) (l : List α) (i : Nat) : (l.modify i g).map f = l.map f := by
  induction l generalizing i with
  | nil => simp
  | cons x l ih => cases i <;> simp [hg, ih]

theorem satAdd_one_of_lt {w a : Nat} (h : a < 2 ^ w - 1) : satAdd w a 1 = a + 1 := by
  unfold satAdd; omega

/-- Settles O57: by what an arriving record can do. -/
theorem arrivingErrorsAreAccountedFor : Obligations.ArrivingErrorsAreAccountedFor := by
  unfold Obligations.ArrivingErrorsAreAccountedFor
  intro s e hone hcounts hlost
  rcases enqueueErr_cases s e with ⟨i, g, hi, hg, herrq, hget⟩ | ⟨herrq, hget⟩ | ⟨herrq, hget⟩
  · have hcount : (g s.errq[i]).count = s.errq[i].count + 1 :=
      (hg _).1.trans (satAdd_one_of_lt (hcounts _ (List.getElem_mem hi)))
    rw [herrq, hget, sum_map_modify (f := fun r => r.count) hi hcount, map_modify_of_eq (fun r => (hg r).2)]
    exact ⟨by omega, .inl rfl⟩
  · rw [herrq, hget, satAdd_one_of_lt hlost, Nat.mod_eq_of_lt (by omega)]
    exact ⟨by omega, .inl rfl⟩
  · rw [herrq, hget]
    exact ⟨by simp [hone]; omega, .inr (by simp)⟩

/-! ## The head leaves the queue (R435) -/

theorem length_errBytes (e : ErrRec) : (errBytes e).length = 48 := by
  simp only [errBytes, List.length_append, natLe_length]

theorem padTo_of_length {n : Nat} {l : List Byte} (h : l.length = n) : padTo n l = l := by
  subst h
  exact List.ext_getElem (by simp [padTo, slice]) (fun i hi hi' => by simp [padTo, slice])

section
variable {s : State} {e : ErrRec} {rest : List ErrRec} (hq : s.errq = e :: rest)
include hq

theorem execErrorRecordMove_of_room {n : Nat} {t : State} (hstamp : s.stamp = (n, t)) (hen : s.on evtCfgEvtEn = true) (hroom : s.evbuf.length < 4096) :
    execErrorRecordMove s = .next { t with
      errq := rest
      evbuf := s.evbuf ++ [{ kind := 2, src := e.source, time := n, timeValid := s.on ptpStatLocked, payload := errBytes e }] } := by
  obtain ⟨rfl, rfl⟩ := Prod.mk.inj hstamp
  simp only [execErrorRecordMove, hq, hen, hroom, and_self, if_true, pushEvent, padTo_of_length (length_errBytes e)]
  rfl

theorem execErrorRecordMove_of_not_moving (h : s.on evtCfgEvtEn = false ∨ 4096 ≤ s.evbuf.length) : execErrorRecordMove s = .next s := by
  have hstays : ¬ (s.on evtCfgEvtEn = true ∧ s.evbuf.length < 4096) := by
    rintro ⟨hen, hroom⟩
    rcases h with hoff | hfull
    · exact absurd (hen.symm.trans hoff) (by decide)
    · omega
  simp only [execErrorRecordMove, hq, if_neg hstays]

theorem execErrPop_of_head (hoff : s.on evtCfgEvtEn = false) : execErrPop s = .next { s with errq := rest } := by
  simp only [execErrPop, hoff, hq, Bool.false_eq_true, if_false, List.drop_one, List.tail_cons]

theorem readWord_of_headRecord {k : Nat} (hk : k < 6) : readWord s (.global (0x4440 + 8 * k)) = getLe (errBytes e) (8 * k) 8 := by
  have hplace : byteWord s (.global (0x4440 + 8 * k)) = some (wordOf (errBytes e) (8 * k)) := by
    simp only [byteWord, hq, List.head?_cons, Option.map_some, Option.getD_some]
    rw [if_neg (by omega), if_neg (by omega), if_neg (by omega), if_pos (by omega), Nat.add_sub_cancel_left]
  simp only [readWord, served, hplace, wordOf, Bool.not_true, Bool.false_eq_true, if_false]

end

theorem execErrPop_of_ignored {s : State} (h : s.on evtCfgEvtEn = true ∨ s.errq = []) : execErrPop s = .next s := by
  unfold execErrPop
  rcases h with hen | hempty
  · exact if_pos hen
  · split
    · rfl
    · rw [hempty, List.drop_nil, ← hempty]

theorem enqueueErr_events (s : State) (e : ErrRec) : (enqueueErr s e).evbuf = s.evbuf ∧ (enqueueErr s e).evOut = s.evOut := by
  unfold enqueueErr
  repeat' first | exact ⟨rfl, rfl⟩ | split | dsimp only

/-- Settles O58: the head by `EVT_EN` and by the room in the event buffer, its bytes by the place of their register. -/
theorem errorQueueMovesAndPops : Obligations.ErrorQueueMovesAndPops := by
  unfold Obligations.ErrorQueueMovesAndPops
  refine ⟨fun s t e rest n hq hstamp => ⟨?_, ?_, ?_, ?_⟩, fun s h => ?_, enqueueErr_events⟩
  · exact fun hen hroom => (exec_errorRecordMove s).trans (execErrorRecordMove_of_room hq hstamp hen hroom)
  · exact fun h => (exec_errorRecordMove s).trans (execErrorRecordMove_of_not_moving hq h)
  · exact fun hoff => (exec_errPop s).trans (execErrPop_of_head hq hoff)
  · exact fun k hk => readWord_of_headRecord hq hk
  · exact (exec_errPop s).trans (execErrPop_of_ignored h)

/-! ## A record arrives (R434, R436) -/

theorem execErrorRecord_eq {s t : State} {n : Nat} (hstamp : s.stamp = (n, t)) (st : Fin 36) (c u : BitVec 16) (w d0 d1 : W64) :
    execErrorRecord st c u w d0 d1 s = .next (match sevOf c.toNat u.toNat (stepField w.toNat) with
      | none => s
      | some v => enqueueErr t {
          code := c.toNat, sev := v, source := st.val, unit := u.toNat, step := stepField w.toNat, d0 := d0.toNat, d1 := d1.toNat
          time := n, timeValid := t.on ptpStatLocked }) := by
  simp only [execErrorRecord, hstamp]
  cases sevOf c.toNat u.toNat (stepField w.toNat) <;> rfl

/-! ## INJ_ARM (R438, R441, R471) -/

/-- What a write of `INJ_CTRL` asks for, with its target's registers. -/
def shotOf (s : State) (v : Nat) : Shot where
  code := field v 0 16
  mode := field v 16 2
  count := field v 32 16
  stop := s.get injTargetStop
  unit := s.get injTargetUnit
  value := s.get injValueValue

theorem execInjArm_of_noCount {v : W64} (h : field v.toNat 32 16 = 0) (s : State) : execInjArm v s = .next s := if_pos h

theorem execInjArm_of_count {v : W64} {s t u : State} (h : field v.toNat 32 16 ≠ 0)
    (ht : t = s.puts [(injCtrlCode, field v.toNat 0 16), (injCtrlMode, field v.toNat 16 2), (injCtrlCount, field v.toNat 32 16)])
    (hu : u = if sealed t then t else t.put injCtrlInjEn (field v.toNat 63 1)) :
    execInjArm v s = if bitAt v.toNat 18 = false then .next u
      else if shotRefused u (shotOf u v.toNat) = true then .next (u.put injStatusRejected 1) else .next (fireShot u (shotOf u v.toNat)) := by
  simp only [execInjArm, if_neg h, ← ht, ← hu, shotOf, Bool.not_eq_true']
  rfl

/-! ## INJ_WINDOW_END (R471) -/

section
variable {s : State} {j : Inj} (hinj : s.inj = some j)
include hinj

theorem execInjWindowEnd_of_timed (hleft : j.left = none) : execInjWindowEnd s =
    .next (endReading ({ s with inj := none }.puts [(injCtrlArm, 0), (injStatusArmed, 0)]) j.code j.unit) := by
  simp only [execInjWindowEnd, hinj, hleft, Option.isNone_none, if_true]

theorem execInjWindowEnd_of_counted {n : Nat} (hleft : j.left = some n) : execInjWindowEnd s = .next s := by
  simp only [execInjWindowEnd, hinj, hleft, Option.isNone_some, Bool.false_eq_true, if_false]

end

theorem endReading_of_otherCode {c : Nat} (hinput : c ≠ 0x0407) (hlife : c ≠ 0x0805) (htemp : c ≠ 0x0806) (s : State) (u : Nat) :
    endReading s c u = s := by
  unfold endReading
  split <;> first | contradiction | rfl

/-- Settles O48: a record by its code, a write of `INJ_CTRL` by `COUNT` and `ARM`, a window by what is left of its injection. -/
theorem errorsArriveAndAreInjected : Obligations.ErrorsArriveAndAreInjected := by
  unfold Obligations.ErrorsArriveAndAreInjected
  refine ⟨?record, ?noCount, ?arm, ?window, ?reading⟩
  case record => exact fun st c u w d0 d1 s t n hstamp => (exec_errorRecord ..).trans (execErrorRecord_eq hstamp st c u w d0 d1)
  case noCount => exact fun v s h => (exec_injArm v s).trans (execInjArm_of_noCount h s)
  case arm =>
    intro v s t u j hcount ht hu
    rw [exec_injArm, execInjArm_of_count hcount ht hu]
    refine ⟨fun hidle => if_pos hidle, ?_⟩
    rintro harm rfl
    rw [if_neg (by simp [harm]), ← apply_ite Host.Outcome.next]
    rfl
  case window =>
    exact fun s j hinj => ⟨fun hleft => (exec_injWindowEnd s).trans (execInjWindowEnd_of_timed hinj hleft),
      fun n hleft => (exec_injWindowEnd s).trans (execInjWindowEnd_of_counted hinj hleft)⟩
  case reading =>
    exact fun s u => ⟨rfl, rfl, rfl, fun c hinput hlife htemp => endReading_of_otherCode hinput hlife htemp s u⟩

end Sys2Proof.Machine
end

section
/-! SUPPORT. Laser cassettes (R312-R323): authentication and warm-up, failures, releases and withdrawals, and the flags of a cassette's age. -/
namespace Sys2Proof.Machine

/-! ## The commands, by their meanings -/

theorem exec_cassetteDetect (b : Fin 8) (s : State) : exec (.cassetteDetect b) s = execCassetteDetect b s := rfl

theorem exec_cassetteAuthenticated (b : Fin 8) (c : CassetteReply) (s : State) :
    exec (.cassetteAuthenticated b c) s = execCassetteAuthenticated b c s := rfl

theorem exec_lasersLocked (b : Fin 8) (s : State) : exec (.lasersLocked b) s = execLasersLocked b s := rfl

theorem exec_driveRampEnd (b : Fin 8) (s : State) : exec (.driveRampEnd b) s = execDriveRampEnd b s := rfl

theorem exec_reauth (b : Fin 8) (s : State) : exec (.reauth b) s = execReauth b s := rfl

theorem exec_laserFail (b : Fin 8) (l : Fin 16) (s : State) : exec (.laserFail b l) s = .next (laserFail s b l false) := rfl

theorem exec_casOvertemp (b : Fin 8) (n : Nat) (s : State) : exec (.casOvertemp b n) s = execCasOvertemp b n s := rfl

theorem exec_release (b : Fin 8) (force : Bool) (s : State) : exec (.release b force) s = execRelease b force s := rfl

theorem exec_casRemoved (b : Fin 8) (s : State) : exec (.casRemoved b) s = execCasRemoved b s := rfl

theorem exec_cassetteWithdrawn (b : Fin 8) (s : State) : exec (.cassetteWithdrawn b) s = execCassetteWithdrawn b s := rfl

theorem exec_lifeIncrement (b : Fin 8) (n : Nat) (s : State) : exec (.lifeIncrement b n) s = execLifeIncrement b n s := rfl

/-! ## Insertion and authentication (R317, R318) -/

theorem admitCassette_of_draw {s u : State} {b : Nat} {n : List Byte}
    (hdraw : ((s.setBay b { s.bay b with green := false }).put (bayStateF b) 1).draw 32 = (n, u)) :
    admitCassette s b = u.setBay b { u.bay b with phase := 1, nonce := n } := by
  simp only [admitCassette, startAuth, hdraw]

theorem execCassetteDetect_of_empty {b : Fin 8} {s : State} (h : s.on (casStatPresent (b.val / 2) (b.val % 2)) = false) :
    execCassetteDetect b s = .next (if dieRuns (s.put (casStatPresent (b.val / 2) (b.val % 2)) 1) b then
      admitCassette (s.put (casStatPresent (b.val / 2) (b.val % 2)) 1) b else s.put (casStatPresent (b.val / 2) (b.val % 2)) 1) := by
  simp only [execCassetteDetect, h, Bool.false_eq_true, if_false]

/-- The certificate of a cassette and its serial number as they are read (R317). -/
def certRead (s : State) (b : Nat) (c : CassetteReply) : State :=
  (s.setBay b { s.bay b with cert := c.cert }).put (casSerialSerial (b / 2) (b % 2)) (getLe c.cert 8 8)

/-- The life and the rated life of a cassette that passes: never below what the module holds of it (R320). -/
def takeLife (s : State) (b : Nat) (c : CassetteReply) : State :=
  (certRead s b c).puts [(casLifeLifeCh (b / 2) (b % 2), if baySerial s b = getLe c.cert 8 8 then
      max c.lifeCh ((certRead s b c).get (casLifeLifeCh (b / 2) (b % 2))) else c.lifeCh),
    (casLifeRatedCh (b / 2) (b % 2), getLe c.cert 6 2 * 100000)]

/-- A cassette whose life is settled stays lit, or begins its warm-up (R319). -/
def passCassette (s : State) (b : Nat) : State :=
  if isLit s b then setPhase s b 0
  else setDrive (setPhase (s.puts [(bayStateF b, 1), (casStatDarkReason (b / 2) (b % 2), 0)]) b 2) b 5

/-- A cassette that fails a check is held dark, with a record (R318). -/
def failCassette (s : State) (b why : Nat) : State :=
  raiseErr (changeBay s b false (fun x => stopRelease (holdDark x b why) b)) 0x0803 0 (bayStop b) (bayUnit b) none (baySerial s b) why

theorem authReason_of_silent {s : State} {b : Nat} {c : CassetteReply} (h : c.answers = false) : authReason s b c = 6 := by
  simp only [authReason, h, Bool.not_false, Bool.true_or, if_true]

section
variable {b : Fin 8} {c : CassetteReply} {s : State} (hphase : (s.bay b).phase = 1) (hinj : s.inj = none)
include hphase hinj

theorem execCassetteAuthenticated_of_silent (hans : c.answers = false) : execCassetteAuthenticated b c s = .next (failCassette s b 6) := by
  simp only [execCassetteAuthenticated, if_neg (not_not_intro hphase), injectedFail_of_unarmed hinj, authReason_of_silent hans, hans, failCassette]
  rfl

theorem execCassetteAuthenticated_of_read (hans : c.answers = true) (hlen : c.cert.length = 832) : execCassetteAuthenticated b c s = .next (
    if authReason s b c ≠ 0 then failCassette (certRead s b c) b (authReason s b c)
    else passCassette (settleLife (takeLife s b c) b) b) := by
  have hread : (c.answers && decide (c.cert.length = 832)) = true := by simp only [hans, hlen, decide_true, Bool.and_self]
  simp only [execCassetteAuthenticated, if_neg (not_not_intro hphase), injectedFail_of_unarmed hinj, hread, if_true, Bool.false_eq_true, and_false,
    if_false]
  by_cases hpass : authReason s b c = 0
  · simp only [hpass, ne_eq, not_true_eq_false, if_false, passCassette, apply_ite Host.Outcome.next]
    rfl
  · simp only [hpass, ne_eq, not_false_eq_true, if_true]
    rfl

end

/-! ## Warm-up, ramps and REAUTH (R315, R317, R319, R322) -/

theorem execLasersLocked_of_warm {b : Fin 8} {s : State} (h : (s.bay b).phase = 2) :
    execLasersLocked b s = .next (changeBay s b false (fun x => setPhase (x.put (bayStateF b) 2) b 3)) := by
  simp only [execLasersLocked, h, ne_eq, not_true_eq_false, if_false]

theorem execDriveRampEnd_eq (b : Fin 8) (s : State) : execDriveRampEnd b s = .next (if (s.bay b).phase = 3 then setPhase s b 0
    else if (s.bay b).phase = 4 then settleDrive (setPhase s b 5) (b.val / 2) else if (s.bay b).phase = 5 then finishRelease s b else s) := by
  unfold execDriveRampEnd
  split <;> simp_all

theorem execReauth_of_ready {b : Fin 8} {s : State} (hbay : bayState s b ≠ 0) (hdie : dieRuns s b = true) (hout : releasing s b = false)
    (hcool : s.get (casStatDarkReason (b.val / 2) (b.val % 2)) ≠ 5 ∨ s.get (casStatTemp (b.val / 2) (b.val % 2)) < 65) {t : State}
    (ht : t = if overheated s b then s.put (casStatLaserFail (b.val / 2) (b.val % 2)) (s.bay b).fails else s) :
    execReauth b s = .next (if isLit t b then startAuth t b
      else admitCassette (t.puts [(casStatDarkReason (b.val / 2) (b.val % 2), 0), (casStatReleased (b.val / 2) (b.val % 2), 0)]) b) := by
  have hready : ¬ (bayState s b = 0 ∨ (!dieRuns s b) = true ∨ releasing s b = true ∨
      overheated s b = true ∧ 65 ≤ s.get (casStatTemp (b.val / 2) (b.val % 2))) := by
    simp only [hbay, hdie, hout, overheated, decide_eq_true_eq, Bool.not_true, Bool.false_eq_true, false_or, not_and, Nat.not_le]
    exact fun hhot => hcool.resolve_left (not_not_intro hhot)
  simp only [execReauth, if_neg hready, ← ht]
  split <;> rfl

theorem execReauth_of_hot {b : Fin 8} {s : State} (hhot : s.get (casStatDarkReason (b.val / 2) (b.val % 2)) = 5)
    (htemp : 65 ≤ s.get (casStatTemp (b.val / 2) (b.val % 2))) : execReauth b s = .next s :=
  if_pos (.inr (.inr (.inr ⟨decide_eq_true hhot, htemp⟩)))

/-- Settles O40: a cassette found, one whose checks end, one that warms up or is released, by its phase. -/
theorem cassettesAuthenticateAndWarmUp : Obligations.CassettesAuthenticateAndWarmUp := by
  unfold Obligations.CassettesAuthenticateAndWarmUp
  refine ⟨?detect, ?read, ?silent, ?locked, ?ramp, ?reauth⟩
  case detect =>
    rintro b s _ hempty rfl
    rw [exec_cassetteDetect, execCassetteDetect_of_empty hempty]
    refine ⟨fun hdie => by rw [hdie]; rfl, fun n u hdie hdraw => ?_⟩
    rw [hdie, if_pos rfl, admitCassette_of_draw hdraw]
  case read =>
    rintro b c s _ _ _ _ hphase hinj hans hlen rfl rfl rfl rfl
    exact (exec_cassetteAuthenticated b c s).trans (execCassetteAuthenticated_of_read hphase hinj hans hlen)
  case silent =>
    rintro b c s _ hphase hinj hans rfl
    exact (exec_cassetteAuthenticated b c s).trans (execCassetteAuthenticated_of_silent hphase hinj hans)
  case locked => exact fun b s h => (exec_lasersLocked b s).trans (execLasersLocked_of_warm h)
  case ramp =>
    intro b s
    rw [exec_driveRampEnd, execDriveRampEnd_eq]
    exact ⟨fun h => by rw [h]; rfl, fun h => by rw [h]; rfl, fun h => by rw [h]; rfl⟩
  case reauth =>
    intro b s t hbay hdie hup hdown
    have hout : releasing s b = false := decide_eq_false (by rintro (h | h) <;> contradiction)
    exact ⟨fun ht hcool => (exec_reauth b s).trans (execReauth_of_ready hbay hdie hout hcool ht),
      fun hhot htemp => (exec_reauth b s).trans (execReauth_of_hot hhot htemp)⟩

/-! ## Failures (R314, R315) -/

theorem laserFail_of_light {b : Nat} {l : Nat} {s : State} (hlight : isLit s b = true ∨ (s.bay b).phase = 2) (hworks : bitAt (laserFails s b) l = false) :
    laserFail s b l false = changeBay s b false (fun x => stopRelease (raiseErr (x.put (casStatLaserFail (b / 2) (b % 2))
      (setBit (laserFails x b) l true)) 0x0801 0 (bayStop b) (bayUnit b) none (baySerial x b) l) b) := by
  have hfails : ((!isLit s b && decide ((s.bay b).phase ≠ 2)) || bitAt (laserFails s b) l) = false := by
    rcases hlight with h | h <;> simp [h, hworks]
  exact if_neg (by rw [hfails]; decide)

theorem execCasOvertemp_of_unarmed {b : Fin 8} {n : Nat} {s : State} (hbay : bayState s b ≠ 0) (hdie : dieRuns s b = true) (hinj : s.inj = none) {t : State}
    (ht : t = (s.setBay b { s.bay b with temp := n }).put (casStatTemp (b.val / 2) (b.val % 2)) n) :
    execCasOvertemp b n s = .next (if n < 75 ∨ overheated t b = true then t
      else raiseErr (changeBay t b false (fun x => overheat x b)) 0x0806 0 (bayStop b) (unitOf 8 25) none (baySerial t b) n) := by
  have hfree : forcedTemp (s.setBay b { s.bay b with temp := n }) b = false := by simp [forcedTemp, hinj]
  have hruns : ¬ (bayState (s.setBay b { s.bay b with temp := n }) b = 0 ∨ (!dieRuns (s.setBay b { s.bay b with temp := n }) b) = true) :=
    not_or.2 ⟨hbay, by rw [show dieRuns (s.setBay b { s.bay b with temp := n }) b = true from hdie]; decide⟩
  simp only [execCasOvertemp, if_neg hbay, hfree, Bool.false_eq_true, if_false, casTemp, if_neg hruns, ← ht]

/-! ## Releases and withdrawals (R322, R323) -/

theorem execRelease_of_runs {b : Fin 8} {s : State} (hdie : dieRuns s b = true) (f : Bool) : execRelease b f s = .next (
    if f = false ∧ mayRelease s b = false then s.put (casStatRelDenied (b.val / 2) (b.val % 2)) 1
    else if bayState s b = 0 ∨ releasing s b = true ∨ s.on (casStatReleased (b.val / 2) (b.val % 2)) = true then s
    else if isLit s b then settleDrive (setPhase s b 4) (b.val / 2) else finishRelease s b) := by
  simp only [execRelease, hdie, Bool.not_true, Bool.false_eq_true, if_false, Bool.and_eq_true, Bool.not_eq_true', apply_ite Host.Outcome.next]

theorem execCasRemoved_of_present {b : Fin 8} {s : State} (hpresent : s.on (casStatPresent (b.val / 2) (b.val % 2)) = true)
    (hheld : s.on (casStatReleased (b.val / 2) (b.val % 2)) = false) : execCasRemoved b s = .next (if dieRuns s b then
      raiseErr (changeBay s b false (fun x => stopRelease (emptyBay x b) b)) 0x0804 0 (bayStop b) (bayUnit b) none (baySerial s b) 0
      else emptyBay s b) := by
  simp only [execCasRemoved, hpresent, hheld, Bool.not_true, Bool.or_self, Bool.false_eq_true, if_false]
  cases dieRuns s b <;> rfl

/-! ## The age of a cassette (R320) -/

theorem execLifeIncrement_of_lit {b : Fin 8} {s : State} (hlit : isLit s b = true) (n : Nat) : execLifeIncrement b n s =
    .next (if n ≤ 20 ∧ (lifeBounds s b).1 ≤ n ∧ n ≤ (lifeBounds s b).2 then addLife s b n else s) := by
  unfold execLifeIncrement
  dsimp only
  by_cases hok : n ≤ 20 ∧ (lifeBounds s b).1 ≤ n ∧ n ≤ (lifeBounds s b).2
  · rw [if_pos hok, if_neg (by simp only [hlit]; simp; omega)]
  · rw [if_neg hok, if_pos (by simp only [hlit]; simp; omega)]

/-- Settles O41: a failure or a withdrawal by what the bay holds, a release by its partner, an increment by its bounds. -/
theorem cassettesFailAndLeave : Obligations.CassettesFailAndLeave := by
  unfold Obligations.CassettesFailAndLeave
  refine ⟨?laser, ?heat, ?denied, ?release, ?removed, ?withdrawn, ?increment⟩
  case laser =>
    exact fun b l s hlight hworks => (exec_laserFail b l s).trans (congrArg Host.Outcome.next (laserFail_of_light hlight hworks))
  case heat =>
    rintro b n s t _ hbay hdie hinj ht rfl
    rw [exec_casOvertemp, execCasOvertemp_of_unarmed hbay hdie hinj ht]
    exact ⟨fun h => by rw [if_pos h], fun hhot hnot => by rw [if_neg (by simp [hnot, hhot])]; rfl⟩
  case denied =>
    intro b s hdie hmay
    rw [exec_release, execRelease_of_runs hdie, if_pos ⟨rfl, hmay⟩]
  case release =>
    intro b f s hdie hbay hup hdown hheld
    have hleft : ¬ (bayState s b = 0 ∨ releasing s b = true ∨ s.on (casStatReleased (b.val / 2) (b.val % 2)) = true) := by
      simp [hbay, hheld, releasing, hup, hdown]
    rw [exec_release, execRelease_of_runs hdie, if_neg hleft]
  case removed =>
    rintro b s _ hpresent hheld rfl
    exact (exec_casRemoved b s).trans (execCasRemoved_of_present hpresent hheld)
  case withdrawn => exact fun b s h => (exec_cassetteWithdrawn b s).trans (if_pos h)
  case increment => exact fun b n s hlit => (exec_lifeIncrement b n s).trans (execLifeIncrement_of_lit hlit n)

/-! ## What a record leaves alone

A record of severity 0 changes the error queue, its counters and the index of free values, and no register of a port die. -/

theorem get_enqueueErr_of_die {f : Fld} (hdie : regSpace + 0x40000000 ≤ f.addr) (s : State) (e : ErrRec) : (enqueueErr s e).get f = s.get f := by
  have hne : ∀ g : Fld, g.key < (regSpace + 0x40000000) * 8 → f.key ≠ g.key := fun g hg => by simp only [Fld.key] at hg ⊢; omega
  have hraised : ∀ t : State, (t.bump (raisedField e.sev) 1).get f = t.get f := fun t =>
    State.get_put_other (hne _ (by unfold raisedField; split <;> decide))
  have hlost : ∀ t : State, (t.bump errStatusLostCe 1).get f = t.get f := fun t => State.get_put_other (hne _ (by decide))
  have hovf : ∀ t : State, (t.put errStatusOvf 1).get f = t.get f := fun t => State.get_put_other (hne _ (by decide))
  unfold enqueueErr
  dsimp only
  split
  · exact hraised s
  · split
    · exact (hlost _).trans (hraised s)
    · split
      · exact hraised s
      · split
        · exact (hovf _).trans (hraised s)
        · exact hraised s

theorem bays_enqueueErr (s : State) (e : ErrRec) : (enqueueErr s e).bays = s.bays := by
  unfold enqueueErr
  repeat' first | rfl | split | dsimp only

section
variable (s : State) (code source unit d0 d1 : Nat) (inj : Bool)

theorem get_raiseErr_of_die {f : Fld} (hdie : regSpace + 0x40000000 ≤ f.addr) : (raiseErr s code 0 source unit none d0 d1 inj).get f = s.get f :=
  (get_enqueueErr_of_die hdie _ _).trans rfl

theorem bays_raiseErr : (raiseErr s code 0 source unit none d0 d1 inj).bays = s.bays := (bays_enqueueErr _ _).trans rfl

end

/-! ## The flags of a cassette's age (R321) -/

/-- An end-of-life flag as the life compared calls for it, its setting with a record. -/
def eolFlag (s : State) (b : Nat) (f : Fld) (reached : Prop) [Decidable reached] (life : Nat) : State :=
  if reached ∧ s.on f = false then raiseErr (s.put f 1) 0x0805 0 (bayStop b) (bayUnit b) none (baySerial s b) life
  else s.put f (b2n (decide reached))

section
variable (s : State) (b : Nat) (f : Fld) (reached : Prop) [Decidable reached] (life : Nat)

theorem bays_eolFlag : (eolFlag s b f reached life).bays = s.bays := by
  unfold eolFlag
  split
  · exact bays_raiseErr ..
  · rfl

variable {f}

theorem get_eolFlag_other {g : Fld} (hdie : regSpace + 0x40000000 ≤ g.addr) (hne : g.key ≠ f.key) :
    (eolFlag s b f reached life).get g = s.get g := by
  unfold eolFlag
  split
  · exact (get_raiseErr_of_die _ _ _ _ _ _ _ hdie).trans (State.get_put_other hne)
  · exact State.get_put_other hne

variable {reached}

theorem on_eolFlag_of_reached (hdie : regSpace + 0x40000000 ≤ f.addr) (hw : f.w = 1) (hreached : reached) :
    (eolFlag s b f reached life).on f = true := by
  have hput : (eolFlag s b f reached life).get f = (s.put f 1).get f := by
    unfold eolFlag
    split
    · exact get_raiseErr_of_die _ _ _ _ _ _ _ hdie
    · rw [decide_eq_true hreached]; rfl
  simp [State.on, hput, hw]

end

theorem settleLife_of_unarmed {s : State} {b life rated : Nat} (hinj : s.inj = none) (hlife : life = s.get (casLifeLifeCh (b / 2) (b % 2)))
    (hrated : rated = s.get (casLifeRatedCh (b / 2) (b % 2))) (hne : rated ≠ 0) : settleLife s b =
    eolFlag (eolFlag s b (casStatEolWarn (b / 2) (b % 2)) (9 * rated ≤ 10 * life) life) b (casStatEol (b / 2) (b % 2)) (rated ≤ life) life := by
  have hforced : forcedLife s b = none := by simp only [forcedLife, hinj]
  simp only [settleLife, hforced, Option.getD_none, Option.isSome_none, ← hlife, ← hrated, if_neg hne, eolFlag, State.putB,
    Bool.and_eq_true, Bool.not_eq_true', decide_eq_true_eq]
  rfl

section
variable {s : State} {b life rated : Nat} (hinj : s.inj = none) (hlife : life = s.get (casLifeLifeCh (b / 2) (b % 2)))
  (hrated : rated = s.get (casLifeRatedCh (b / 2) (b % 2))) (hne : rated ≠ 0)
include hinj hlife hrated hne

theorem on_eolWarn_settleLife (h : 9 * rated ≤ 10 * life) : (settleLife s b).on (casStatEolWarn (b / 2) (b % 2)) = true := by
  have hdie : regSpace + 0x40000000 ≤ (casStatEolWarn (b / 2) (b % 2)).addr := by simp only [casStatEolWarn, dAddr]; omega
  rw [settleLife_of_unarmed hinj hlife hrated hne, State.on, get_eolFlag_other _ _ _ _ hdie (by simp [Fld.key, casStatEolWarn, casStatEol])]
  exact on_eolFlag_of_reached _ _ _ hdie rfl h

theorem on_eol_settleLife (h : rated ≤ life) : (settleLife s b).on (casStatEol (b / 2) (b % 2)) = true := by
  rw [settleLife_of_unarmed hinj hlife hrated hne]
  exact on_eolFlag_of_reached _ _ _ (by simp only [casStatEol, dAddr]; omega) rfl h

theorem isLit_settleLife : isLit (settleLife s b) b = isLit s b := by
  have hdie : regSpace + 0x40000000 ≤ (bayStateF b).addr := by simp only [bayStateF, casStatState, dAddr]; omega
  rw [settleLife_of_unarmed hinj hlife hrated hne, isLit, isLit, bayState, bayState,
    get_eolFlag_other _ _ _ _ hdie (by simp [Fld.key, bayStateF, casStatState, casStatEol]),
    get_eolFlag_other _ _ _ _ hdie (by simp [Fld.key, bayStateF, casStatState, casStatEolWarn])]

theorem bays_settleLife : (settleLife s b).bays = s.bays := by
  rw [settleLife_of_unarmed hinj hlife hrated hne, bays_eolFlag, bays_eolFlag]

end

/-! ## A cassette that passes authentication (R320, R321) -/

@[simp] theorem get_setPhase (s : State) (b n : Nat) (f : Fld) : (setPhase s b n).get f = s.get f := rfl

theorem get_passCassette_other {s : State} {b : Nat} {f : Fld} (hstate : f.key ≠ (bayStateF b).key)
    (hdark : f.key ≠ (casStatDarkReason (b / 2) (b % 2)).key) (hdrive : f.key ≠ (casDriveDrive (b / 2) (b % 2)).key) :
    (passCassette s b).get f = s.get f := by
  unfold passCassette
  split
  · rfl
  · rw [setDrive, State.get_put_other hdrive, get_setPhase, State.puts, List.foldl_cons, List.foldl_cons, List.foldl_nil, State.get_put_other hdark,
      State.get_put_other hstate]

theorem isLit_passCassette {s : State} {b : Nat} (h : isLit s b = true) : isLit (passCassette s b) b = true := by
  unfold passCassette
  rw [if_pos h]
  exact h

/-- Two fields of one port die, told apart by their offsets and bits. -/
theorem key_ne_of_die {f g : Fld} {k x y : Nat} (hf : f.addr = dAddr k x) (hg : g.addr = dAddr k y) (h : x * 8 + f.lo ≠ y * 8 + g.lo) : f.key ≠ g.key := by
  rw [Fld.key, Fld.key, hf, hg]
  unfold dAddr
  omega

section
variable (s : State) (b : Nat) (c : CassetteReply)

theorem get_rated_takeLife (hrated : getLe c.cert 6 2 * 100000 < 2 ^ 32) :
    (takeLife s b c).get (casLifeRatedCh (b / 2) (b % 2)) = getLe c.cert 6 2 * 100000 := by
  simp only [takeLife, State.puts, List.foldl_cons, List.foldl_nil, State.get_put_same]
  exact Nat.mod_eq_of_lt hrated

theorem get_life_certRead : (certRead s b c).get (casLifeLifeCh (b / 2) (b % 2)) = s.get (casLifeLifeCh (b / 2) (b % 2)) :=
  State.get_put_other (key_ne_of_die rfl rfl (by simp only [casLifeLifeCh, casSerialSerial]; omega))

theorem lifeCh_le_get_life_takeLife (hlife : c.lifeCh < 2 ^ 32) (hheld : s.get (casLifeLifeCh (b / 2) (b % 2)) < 2 ^ 32) :
    c.lifeCh ≤ (takeLife s b c).get (casLifeLifeCh (b / 2) (b % 2)) := by
  have hget : (takeLife s b c).get (casLifeLifeCh (b / 2) (b % 2)) = (if baySerial s b = getLe c.cert 8 8 then
      max c.lifeCh (s.get (casLifeLifeCh (b / 2) (b % 2))) else c.lifeCh) % 2 ^ 32 := by
    rw [← get_life_certRead s b c]
    exact (State.get_put_other (key_ne_of_die rfl rfl (by simp only [casLifeLifeCh, casLifeRatedCh]; omega))).trans (State.get_put_same _ _ _)
  rw [hget]
  split
  · rw [Nat.mod_eq_of_lt (Nat.max_lt.2 ⟨hlife, hheld⟩)]; exact Nat.le_max_left ..
  · exact Nat.le_of_eq (Nat.mod_eq_of_lt hlife).symm

theorem isLit_takeLife : isLit (takeLife s b c) b = isLit s b := by
  have hget : (takeLife s b c).get (bayStateF b) = s.get (bayStateF b) :=
    (State.get_put_other (key_ne_of_die rfl rfl (by simp only [bayStateF, casStatState, casLifeRatedCh]; omega))).trans
      ((State.get_put_other (key_ne_of_die rfl rfl (by simp only [bayStateF, casStatState, casLifeLifeCh]; omega))).trans
        (State.get_put_other (key_ne_of_die rfl rfl (by simp only [bayStateF, casStatState, casSerialSerial]; omega))))
  exact congrArg (fun k => decide (k = 2)) hget

end

/-- Settles O60: the flags as the life compared calls for them, after an increment and after a reading. -/
theorem cassettesReportTheirEndOfLife : Obligations.CassettesReportTheirEndOfLife := by
  unfold Obligations.CassettesReportTheirEndOfLife
  refine ⟨?increment, ?passes⟩
  case increment =>
    rintro b n s t u life rated hlit hmax hlow hhigh hinj ht hlife hrated hne hu
    have hadd : addLife s b n = settleLife t b := by rw [ht]; rfl
    have hunarmed : t.inj = none := by rw [ht]; exact hinj
    have hstays : isLit t b = isLit s b := by
      rw [ht]
      exact congrArg (fun k => decide (k = 2)) (State.get_put_other (key_ne_of_die rfl rfl (by simp only [bayStateF, casStatState, casLifeLifeCh]; omega)))
    refine ⟨settleLife t b, ?_, ?_, fun h => on_eolWarn_settleLife hunarmed hlife hrated hne h, fun h => on_eol_settleLife hunarmed hlife hrated hne h,
      (isLit_settleLife hunarmed hlife hrated hne).trans (hstays.trans hlit), bays_settleLife hunarmed hlife hrated hne⟩
    · rw [exec_lifeIncrement, execLifeIncrement_of_lit hlit, if_pos ⟨hmax, hlow, hhigh⟩, hadd]
    · rw [settleLife_of_unarmed hunarmed hlife hrated hne, hu]
      rfl
  case passes =>
    rintro b c s rated hphase hinj hans hlen rfl hne hrated hlife hheld
    refine ⟨_, (exec_cassetteAuthenticated b c s).trans (execCassetteAuthenticated_of_read hphase hinj hans hlen), fun hpass => ?_⟩
    have hunarmed : (takeLife s b c).inj = none := hinj
    have hget : getLe c.cert 6 2 * 100000 = (takeLife s b c).get (casLifeRatedCh (b / 2) (b % 2)) := (get_rated_takeLife s b c hrated).symm
    have hread := lifeCh_le_get_life_takeLife s b c hlife hheld
    rw [if_neg (not_not_intro hpass)]
    refine ⟨fun h => ?_, fun h => ?_, fun hlit => ?_⟩
    · rw [State.on, get_passCassette_other (key_ne_of_die rfl rfl (by simp only [casStatEolWarn, bayStateF, casStatState]; omega))
        (key_ne_of_die rfl rfl (by simp only [casStatEolWarn, casStatDarkReason]; omega))
        (key_ne_of_die rfl rfl (by simp only [casStatEolWarn, casDriveDrive]; omega))]
      exact on_eolWarn_settleLife hunarmed rfl hget hne (by omega)
    · rw [State.on, get_passCassette_other (key_ne_of_die rfl rfl (by simp only [casStatEol, bayStateF, casStatState]; omega))
        (key_ne_of_die rfl rfl (by simp only [casStatEol, casStatDarkReason]; omega))
        (key_ne_of_die rfl rfl (by simp only [casStatEol, casDriveDrive]; omega))]
      exact on_eol_settleLife hunarmed rfl hget hne (by omega)
    · exact isLit_passCassette ((isLit_settleLife hunarmed rfl hget hne).trans ((isLit_takeLife s b c).trans hlit))

end Sys2Proof.Machine
end

section
/-! SUPPORT. Heat and parks (R346-R354), the idle subnormal path (R356) and the successors of MACsec keys (R395): the commands by their branches. -/
namespace Sys2Proof.Machine

/-! ## The commands, by their meanings -/

theorem exec_monitorSample (r : Fin 32) (m : Readings) (s : State) : exec (.monitorSample r m) s = execMonitorSample r m s := rfl

theorem exec_thermalTargetStep (r : Fin 32) (s : State) : exec (.thermalTargetStep r) s = execThermalTargetStep r s := rfl

theorem exec_park (r : Fin 32) (thermal : Bool) (s : State) : exec (.park r thermal) s = execPark r thermal s := rfl

theorem exec_resumeRegion (r : Fin 32) (d : Draws) (s : State) : exec (.resumeRegion r d) s = execResumeRegion r d s := rfl

theorem exec_parkLimitExpiry (r : Fin 32) (s : State) : exec (.parkLimitExpiry r) s = execParkLimitExpiry r s := rfl

theorem exec_hwTrip (r : Fin 32) (sensor : Fin 16) (s : State) : exec (.hwTrip r sensor) s = .next (hwTrip s r sensor false) := rfl

theorem exec_txSwitch (p : Fin 64) (key : SecAssoc) (s : State) : exec (.txSwitch p key) s = execTxSwitch p key s := rfl

theorem exec_rxKeyErase (p : Fin 64) (key : SecAssoc) (s : State) : exec (.rxKeyErase p key) s = execRxKeyErase p key s := rfl

theorem exec_subnormalPathDown (r : Fin 32) (u : Fin 98) (s : State) : exec (.subnormalPathDown r u) s = execSubnormalPathDown r u s := rfl

/-! ## Samples and the thermal target (R346, R347, R353) -/

/-- The monitors of a region once they have been sampled, and its stack (R204, R346). -/
def monitorsSampled (s : State) (r : Nat) (m : Readings) : State :=
  sampleStack (forN 4 (fun i u => u.put (pmonFRo r i) (m.freqs.getD i 0).toNat) (forN 8 (fun i u => sampleVolt u r i (m.volts.getD i 0).toNat)
    (forN 16 (fun i u => sampleTemp u r i (m.temps.getD i 0).toNat) s))) r (m.stack.foldl (fun a b => max a b.toNat) 0)

/-- `TJ` as the readings give it and `TJ_MAX` (R346). -/
def showTj (s : State) (r : Nat) : State :=
  s.puts [(thermStatTj r, tjShown s r), (thermStatTjMax r, max (tjShown s r) (s.get (thermStatTjMax r)))]

/-- The park that a sample decides (R348). -/
def parkIfHot (s : State) (r : Nat) : State := if 115 * 16 ≤ tj16 s r ∨ 100 ≤ s.get (stkThermTemp r) then decideThermalPark s r else s

theorem execMonitorSample_of_powered {r : Fin 32} {s : State} (h : s.get (clkStatRstate r) ≠ 0) (m : Readings) :
    execMonitorSample r m s = .next (parkIfHot (showTj (monitorsSampled s r m) r) r) :=
  (if_neg h).trans (apply_ite Host.Outcome.next _ _ _).symm

section
variable {r : Fin 32} {s : State} (hrun : s.get (clkStatRstate r) = 1)
include hrun

theorem execThermalTargetStep_of_hot {ceil : Nat} (hceil : ceil = modeRoot s (s.get modeCtrlCurMode))
    (hhot : 16 * (s.get (thermCtrlTjThrottle r) : Int) ≤ tj16 s r ∨ s.get (stkThermLimit r) ≤ s.get (stkThermTemp r)) {t : State}
    (ht : t = retarget (updPlant s r (fun p => { p with
      thermMhz := some (max 1200 ((s.plant r).thermMhz.getD (min ceil ((s.plant r).cuffMhz.getD ceil)) - 100)) })) r) :
    execThermalTargetStep r s = .next
      (if t.on (thermStatThrottled r) then t else (t.put (thermStatThrottled r) 1).bump (thermStatThrottleEvents r) 1) := by
  simp only [execThermalTargetStep, if_neg (not_not_intro hrun), if_pos hhot, ← hceil, ← ht]

theorem execThermalTargetStep_of_cool (hcool : tj16 s r < 16 * (s.get (thermCtrlTjThrottle r) : Int) - 48)
    (hstack : s.get (stkThermTemp r) < s.get (stkThermLimit r)) (hclear : s.on (stkThermThrottle r) = false) {m top : Nat}
    (hm : (s.plant r).thermMhz = some m) (htop : top = min (modeRoot s (s.get modeCtrlCurMode)) ((s.plant r).cuffMhz.getD 4095)) :
    execThermalTargetStep r s = .next
      (if top ≤ m + 100 then (retarget (updPlant s r (fun p => { p with thermMhz := none })) r).put (thermStatThrottled r) 0
       else retarget (updPlant s r (fun p => { p with thermMhz := some (m + 100) })) r) := by
  have hbelow : ¬ (16 * (s.get (thermCtrlTjThrottle r) : Int) ≤ tj16 s r ∨ s.get (stkThermLimit r) ≤ s.get (stkThermTemp r)) := by omega
  have hrelease : tj16 s r < 16 * (s.get (thermCtrlTjThrottle r) : Int) - 48 ∧ (!s.on (stkThermThrottle r)) = true := ⟨hcool, by rw [hclear]; rfl⟩
  simp only [execThermalTargetStep, if_neg (not_not_intro hrun), if_neg hbelow, if_pos hrelease, hm, ← htop, apply_ite Host.Outcome.next]

end

/-- Settles O24: a sample of a powered region, a target step while a source is hot and while none is near. -/
theorem heatMovesTheTarget : Obligations.HeatMovesTheTarget := by
  unfold Obligations.HeatMovesTheTarget
  refine ⟨?sample, ?hot, ?cool⟩
  case sample =>
    intro r m s t hpower ht
    have hsampled : monitorsSampled s r m = t := ht.symm
    rw [exec_monitorSample, execMonitorSample_of_powered hpower, hsampled]
    rfl
  case hot =>
    exact fun r s t ceil hrun hceil hhot ht => (exec_thermalTargetStep r s).trans (execThermalTargetStep_of_hot hrun hceil hhot ht)
  case cool =>
    exact fun r s m top hrun hcool hstack hclear hm htop => (exec_thermalTargetStep r s).trans
      (execThermalTargetStep_of_cool hrun hcool hstack hclear hm htop)

/-! ## Parks, resumption and trips (R348-R354) -/

theorem execPark_of_quiet {r : Fin 32} {thermal : Bool} {s : State} (hparking : s.get (clkStatRstate r) = 2)
    (hcause : s.on (if thermal then clkStatParkTherm r else clkStatParkCuff r) = true) (hquiet : quiet s r = true) :
    execPark r thermal s = .next ((writeBack s r).puts [(clkStatRstate r, 3), (clkStatRootMhz r, 0), (pwrStatPstate r, 4)]) := by
  simp only [execPark, hparking, hcause, hquiet, ne_eq, not_true_eq_false, Bool.not_true, Bool.false_eq_true, or_self, if_false]

/-- The region is RUNNING again, its root at 1200 MHz (R353). -/
def runsAgain (s : State) (r : Nat) : State :=
  s.puts [(clkStatRstate r, 1), (clkStatParkTherm r, 0), (clkStatRootMhz r, 1200), (pwrStatPstate r, 3)]

/-- The target that parked a region starts again from 1200 MHz (R340, R347). -/
def restartTargets (s : State) (r : Nat) (hot : Bool) : State :=
  retarget (updPlant s r (fun p => { p with
    thermMhz := if hot then some 1200 else p.thermMhz, cuffMhz := if p.unparked then some 1200 else p.cuffMhz
    unparked := false, parkInj := false })) r

/-- A thermal park that ends leaves the region throttled, its start counted (R347). -/
def noteThrottled (s : State) (r : Nat) (hot : Bool) : State :=
  if hot = true ∧ s.on (thermStatThrottled r) = false then (s.put (thermStatThrottled r) 1).bump (thermStatThrottleEvents r) 1 else s

/-- The signals that a stop held for its region are applied, in order (R217). -/
def applyHeld (s : State) (r : Nat) : State :=
  (s.stop r).signals.foldl (fun s m => signalToken s r m.token m.scount (m.acct.map (·.1)) ((m.acct.map (·.2)).getD 0))
    (s.setStop r { s.stop r with signals := [] })

theorem execResumeRegion_of_mayResume {r : Fin 32} {d : Draws} {s : State} (h : mayResume (measure s d) r d = true) :
    execResumeRegion r d s = .next (serveAllHeld (applyHeld (noteThrottled
      (restartTargets (runsAgain (measure s d) r) r ((measure s d).on (clkStatParkTherm r))) r ((measure s d).on (clkStatParkTherm r))) r)) := by
  unfold execResumeRegion
  generalize measure s d = s at h ⊢
  simp only [h, Bool.not_true, Bool.false_eq_true, if_false, Bool.and_eq_true, Bool.not_eq_true']
  rfl

theorem execParkLimitExpiry_of_hot {r : Fin 32} {s : State} (hparked : s.get (clkStatRstate r) = 3) (hcause : s.on (clkStatParkTherm r) = true)
    (hhot : tooHot s r = true) : execParkLimitExpiry r s = .next (tripRegion (s.put (thermStatOffThermal r) 1) r 0x0503 0 (s.get (thermStatTj r)) 0
      ((s.plant r).parkInj || anyForced s r)) := by
  simp only [execParkLimitExpiry, hparked, hcause, hhot, ne_eq, not_true_eq_false, Bool.not_true, Bool.false_eq_true, or_self, if_false]

/-- Settles O25: a park that is quiet, a resumption, a park past its limit, a trip. -/
theorem regionsParkResumeAndTrip : Obligations.RegionsParkResumeAndTrip := by
  unfold Obligations.RegionsParkResumeAndTrip
  refine ⟨?park, ?resume, ?limit, ?trip⟩
  case park => exact fun r thermal s hparking hcause hquiet => (exec_park r thermal s).trans (execPark_of_quiet hparking hcause hquiet)
  case resume =>
    intro r d s t u v hmay ht hu hv
    have hruns : runsAgain (measure s d) r = t := ht.symm
    have htargets : restartTargets t r ((measure s d).on (clkStatParkTherm r)) = u := hu.symm
    have hnoted : noteThrottled u r ((measure s d).on (clkStatParkTherm r)) = v := hv.symm
    rw [exec_resumeRegion, execResumeRegion_of_mayResume hmay, hruns, htargets, hnoted]
    rfl
  case limit => exact fun r s hparked hcause hhot => (exec_parkLimitExpiry r s).trans (execParkLimitExpiry_of_hot hparked hcause hhot)
  case trip => exact fun r sensor s _ => exec_hwTrip r sensor s

/-! ## Successors of keys (R395) and the idle subnormal path (R356) -/

theorem execTxSwitch_eq (p : Fin 64) (h : Fin 2) (an : Fin 4) (s : State) : execTxSwitch p ⟨h, an⟩ s = .next (if an.val ∈ (s.sec p h).next then
    s.setSec p h { s.sec p h with
      tx := some an.val, next := setDel an.val (s.sec p h).next, old := (s.sec p h).tx.toList.foldl (fun l a => setIns a l) (s.sec p h).old } else s) := by
  simp only [execTxSwitch, List.contains_iff_mem, apply_ite Host.Outcome.next]

theorem execRxKeyErase_eq (p : Fin 64) (h : Fin 2) (an : Fin 4) (s : State) : execRxKeyErase p ⟨h, an⟩ s = .next (if an.val ∈ (s.sec p h).old then
    s.setSec p h { s.sec p h with
      rx := tabErase an.val (s.sec p h).rx, pns := tabErase an.val (s.sec p h).pns, old := setDel an.val (s.sec p h).old } else s) := by
  simp only [execRxKeyErase, List.contains_iff_mem, apply_ite Host.Outcome.next]

theorem execSubnormalPathDown_of_idle {r : Fin 32} {s : State} (hrun : running s r = true) (hmode : modeByte s r 10 = 1) (u : Fin 98) :
    execSubnormalPathDown r u s = .next (if u.val < 96 then s.setCluster r u { s.cluster r u with subDown := true }
      else s.setUpe r (u.val - 96) { s.upe r (u.val - 96) with subDown := true }) := by
  simp only [execSubnormalPathDown, hrun, hmode, ne_eq, not_true_eq_false, decide_false, Bool.not_true, Bool.or_self, Bool.false_eq_true, if_false,
    apply_ite Host.Outcome.next]

/-- Settles O42: an association by whether it is installed or old, a path by its unit. -/
theorem successorKeysTakeOver : Obligations.SuccessorKeysTakeOver := by
  unfold Obligations.SuccessorKeysTakeOver
  refine ⟨?switch, ?erase, ?path⟩
  case switch => rintro p h an s _ rfl; exact (exec_txSwitch p _ s).trans (execTxSwitch_eq p h an s)
  case erase => rintro p h an s _ rfl; exact (exec_rxKeyErase p _ s).trans (execRxKeyErase_eq p h an s)
  case path => exact fun r u s hrun hmode => (exec_subnormalPathDown r u s).trans (execSubnormalPathDown_of_idle hrun hmode u)

end Sys2Proof.Machine
end

section
/-! SUPPORT. Power delivery (R324-R342): the input, failures of the supply, admission, cuffs: the commands by their branches. -/
namespace Sys2Proof.Machine

/-! ## The commands, by their meanings -/

theorem exec_convFail (n : Fin 8) (s : State) : exec (.convFail n) s = .next (convFail s n false) := rfl

theorem exec_segShort (n : Fin 8) (s : State) : exec (.segShort n) s = .next (segShort s n false) := rfl

theorem exec_cellFail (r : Fin 32) (g : Fin 4) (s : State) : exec (.cellFail r g) s = .next (cellFail s r g false) := rfl

theorem exec_s2Fail (r : Fin 32) (i : Fin 2) (s : State) : exec (.s2Fail r i) s = execS2Fail r i s := rfl

theorem exec_s2Trip (r : Fin 32) (c : Fin 3) (s : State) : exec (.s2Trip r c) s = .next (s2Trip s r c false) := rfl

theorem exec_tripProbe (r : Fin 32) (again : Bool) (s : State) : exec (.tripProbe r again) s = execTripProbe r again s := rfl

theorem exec_admissionRetest (g : Fin 8) (d : Draws) (s : State) : exec (.admissionRetest g d) s = execAdmissionRetest g d s := rfl

theorem exec_quarter (g : Fin 8) (d : Draws) (s : State) : exec (.quarter g d) s = execQuarter g d s := rfl

theorem exec_rampEnd (r : Fin 32) (s : State) : exec (.rampEnd r) s = execRampEnd r s := rfl

theorem exec_pwrCuffWrite (v : W64) (s : State) : exec (.pwrCuffWrite v) s = execPwrCuffWrite v s := rfl

theorem exec_pwrRcuffWrite (r : Fin 32) (v : W64) (s : State) : exec (.pwrRcuffWrite r v) s = execPwrRcuffWrite r v s := rfl

theorem exec_cuffEnforce (d : Draws) (s : State) : exec (.cuffEnforce d) s = execCuffEnforce d s := rfl

theorem exec_unpark (d : Draws) (s : State) : exec (.unpark d) s = execUnpark d s := rfl

/-! ## The input (R324) -/

theorem inputReads_eq (s : State) (mv : Nat) (rev inj : Bool) {t : State} (ht : t = s.put pwrInVinCv (mv / 10)) : inputReads s mv rev inj =
    if rev = true ∨ mv < 36000 then loseInput t 2
    else if 60000 < mv then loseInput t 1
    else setAbnormal (if t.inputStop = 1 ∧ mv < 59000 ∨ t.inputStop = 2 ∧ 40500 ≤ mv then { t with inputStop := 0 } else t)
      (decide (mv < 40500 ∨ 57000 < mv)) inj := by
  subst ht
  rfl

/-- Settles O26: a reading beyond the ratings, one that an injection covers, and one by its range. -/
theorem inputVoltageDecidesTheStop : Obligations.InputVoltageDecidesTheStop := by
  unfold Obligations.InputVoltageDecidesTheStop
  refine ⟨?reads, ?covered, ?beyond⟩
  case reads =>
    intro mv rev d s t hmv hfree ht
    have huncovered : ¬ forcedInput { s with inputMv := mv, inputRev := rev } = true := by
      rw [show forcedInput { s with inputMv := mv, inputRev := rev } = false from hfree]; decide
    rw [exec_inputVoltageChange, execInputVoltageChange_of_rated hmv, if_neg huncovered, inputReads_eq _ mv rev false ht]
  case covered =>
    intro mv rev d s hmv hforced
    rw [exec_inputVoltageChange, execInputVoltageChange_of_rated hmv, if_pos (show forcedInput { s with inputMv := mv, inputRev := rev } = true from hforced)]
  case beyond => exact fun mv rev d s hmv => (exec_inputVoltageChange mv rev d s).trans (execInputVoltageChange_of_beyond hmv rev d s)

/-! ## Converters, cells and stage 2 (R325-R335) -/

theorem convFail_of_alive {n : Nat} {s : State} (h : s.convDead.contains n = false) (inj : Bool) : convFail s n inj =
    raiseErr ({ s with convDead := setIns n s.convDead }.put pwrConvConvFail (setBit (s.get pwrConvConvFail) n true)) 0x0405 0 33 (unitOf 10 n) none 0 0 inj := by
  simp only [convFail, h, Bool.false_eq_true, if_false]
  rfl

/-- A region has power or ramps. -/
def hasPower (s : State) (r : Nat) : Prop := s.get (clkStatRstate r) ≠ 0 ∨ s.get (pwrStatPstate r) = 2

theorem not_dark_of_hasPower {s : State} {r : Nat} (h : hasPower s r) : ¬ (s.get (clkStatRstate r) = 0 ∧ s.get (pwrStatPstate r) ≠ 2) := by
  rintro ⟨hdark, hidle⟩
  exact h.elim (fun hup => hup hdark) hidle

/-- One more cell of a group counts as failed. -/
def countCell (s : State) (r g : Nat) : State := s.put (pwrCellsFailed r) (s.get (pwrCellsFailed r) + 2 ^ (8 * g))

theorem cellFail_of_powered {r g : Nat} {s t : State} {f : Nat} (hpower : hasPower s r) (hcells : cellsOf s r g < 48) (hf : f = worstCells (countCell s r g) r)
    (ht : t = raiseErr (countCell s r g) 0x0401 0 r (unitOf 7 g) none 0 f) : cellFail s r g false =
    if 25 ≤ f then tripRegion (t.put fenceNvPerm (setBit (t.get fenceNvPerm) r true)) r 0x0403 (unitOf 7 g) f 0 false
    else if 9 ≤ f then
      (if worstCells s r < 9 then raiseErr (t.put (pwrStatDerated r) 1) 0x0402 1 r (unitOf 7 g) (some ((t.put (pwrStatDerated r) 1).get (hubStepCntStep r))) 0 f
       else t.put (pwrStatDerated r) 1)
    else t := by
  have hcounted : ¬ ((s.get (clkStatRstate r) = 0 ∧ s.get (pwrStatPstate r) ≠ 2) ∨ 48 ≤ cellsOf s r g) :=
    not_or.2 ⟨not_dark_of_hasPower hpower, Nat.not_le.2 hcells⟩
  subst ht hf
  exact if_neg hcounted

theorem s2Trip_of_powered {r : Nat} {s : State} (hpower : hasPower s r) (cause : Nat) : s2Trip s r cause false =
    if (s.plant r).probing.isSome then probeTrip s r
    else updPlant (tripRegion (s.put (pwrStatOcTrip r) 1) r 0x0404 0 cause 5 false) r (fun p => { p with probe := some false }) := by
  simp only [s2Trip, if_neg (not_dark_of_hasPower hpower), Bool.not_false, Bool.and_true]

theorem execS2Fail_of_built {r : Fin 32} {i : Fin 2} {s t : State} (hbuilt : built s r = true)
    (ht : t = s.put (pwrCellsS2Fail r) (setBit (s.get (pwrCellsS2Fail r)) i true)) : execS2Fail r i s =
    .next (if t.get (pwrCellsS2Fail r) = 3 then s2Lost t r else if t.get (clkStatRstate r) = 0 then t else t.put (pwrStatDerated r) 1) := by
  simp only [execS2Fail, hbuilt, Bool.not_true, Bool.false_eq_true, if_false, ← ht, apply_ite Host.Outcome.next]

theorem execTripProbe_of_due {r : Fin 32} {again inj : Bool} {s t : State} (hdue : (s.plant r).probe = some inj)
    (ht : t = updPlant s r (fun p => { p with probe := none })) : execTripProbe r again s = .next (if hasSupply t r then
      updPlant (t.puts [(pwrStatPstate r, 1), (pwrStatQuarter r, 1)]) r (fun p => { p with probing := some (again && !inj), deferred := 0 }) else t) := by
  simp only [execTripProbe, hdue, ← ht]
  cases hasSupply t r <;> rfl

/-- Settles O27: each failure by what it leaves of the supply, a trip by whether a probe made it. -/
theorem supplyFailuresAreRecorded : Obligations.SupplyFailuresAreRecorded := by
  unfold Obligations.SupplyFailuresAreRecorded
  refine ⟨?converter, ?short, ?cell, ?module, ?trip, ?probe⟩
  case converter => exact fun n s h => (exec_convFail n s).trans (congrArg Host.Outcome.next (convFail_of_alive h false))
  case short => exact fun n s => exec_segShort n s
  case cell =>
    exact fun r g s t f hpower hcells hf ht => (exec_cellFail r g s).trans (congrArg Host.Outcome.next (cellFail_of_powered hpower hcells hf ht))
  case module => exact fun r i s t hbuilt ht => (exec_s2Fail r i s).trans (execS2Fail_of_built hbuilt ht)
  case trip => exact fun r c s hpower => (exec_s2Trip r c s).trans (congrArg Host.Outcome.next (s2Trip_of_powered hpower c))
  case probe => exact fun r again s t inj hdue ht => (exec_tripProbe r again s).trans (execTripProbe_of_due hdue ht)

/-! ## Admission (R336-R338) -/

section
variable {g : Fin 8} {d : Draws} {s : State}

section
variable {r : Nat} (hhead : admitHead (measure s d) g = some r)
include hhead

theorem execAdmissionRetest_of_head {t : State} (ht : t = (measure s d).put (pwrAdmitInrushW r) (inrush (softStart (measure s d))))
    (hslope : (measure s d).on (pwrStatQuarter r) = false) : execAdmissionRetest g d s = .next
      (if coversInrush (headroom t g d) (softStart t) then t.put (pwrStatPstate r) 2
       else (updPlant t r (fun p => { p with deferred := (t.plant r).deferred + 1 })).puts
        [(pwrAdmitDeferMs r, ((t.plant r).deferred + 1) / 10), (pwrStatQuarter r, b2n (decide (500 ≤ (t.plant r).deferred + 1)))]) := by
  unfold execAdmissionRetest
  generalize measure s d = m at hhead ht hslope ⊢
  simp only [hhead, hslope, Bool.false_eq_true, if_false, ← ht, apply_ite Host.Outcome.next]

theorem execAdmissionRetest_of_quarter (hslope : (measure s d).on (pwrStatQuarter r) = true) :
    execAdmissionRetest g d s = .next ((measure s d).put (pwrAdmitInrushW r) (inrush (4 * softStart (measure s d)))) := by
  unfold execAdmissionRetest
  generalize measure s d = m at hhead hslope ⊢
  simp only [hhead, hslope, if_true]

/-- A request with the quarter slope: it ramps, waits for cuts that are in force, or has them made (R338). -/
theorem execQuarter_of_head {t : State} {n : Nat} {l : List Nat} (hslope : (measure s d).on (pwrStatQuarter r) = true) (hn : n = 4 * softStart (measure s d))
    (ht : t = (measure s d).put (pwrAdmitInrushW r) (inrush n)) (hl : l = segRunning (measure s d) g) : execQuarter g d s = .next
      (if coversInrush (headroom t g d) n = true ∨ l.isEmpty = true ∨ l.any (fun x => decide ((t.plant x).cut ≠ 0)) = true ∧
          l.all (fun x => (effRegion t x).all (fun c => decide (d.regions.getD x 0 ≤ c))) = true then t.put (pwrStatPstate r) 2
       else if l.any (fun x => decide ((t.plant x).cut ≠ 0)) = true then t
       else l.foldl (fun u x => updPlant u x (fun p => { p with cut := ceilDiv (inrush n + 1 - headroom t g d / 1000) l.length })) t) := by
  unfold execQuarter
  generalize measure s d = m at hhead ht hslope hn hl ⊢
  simp only [hhead, hslope, Bool.not_true, Bool.false_eq_true, if_false, ← hn, ← hl, ← ht, apply_ite Host.Outcome.next]

end

theorem execAdmission_of_none (hhead : admitHead (measure s d) g = none) :
    execAdmissionRetest g d s = .next (measure s d) ∧ execQuarter g d s = .next (measure s d) := by
  unfold execAdmissionRetest execQuarter
  generalize measure s d = m at hhead ⊢
  simp only [hhead, and_self]

end

theorem any_cut_iff {t : State} {l : List Nat} : l.any (fun x => decide ((t.plant x).cut ≠ 0)) = true ↔ ∃ x ∈ l, (t.plant x).cut ≠ 0 := by
  simp only [List.any_eq_true, decide_eq_true_eq]

/-- Every region of a list draws within the cuff in force for it. -/
theorem all_kept_iff {t : State} {d : Draws} {l : List Nat} : l.all (fun x => (effRegion t x).all (fun c => decide (d.regions.getD x 0 ≤ c))) = true ↔
    ∀ x ∈ l, ∀ c, effRegion t x = some c → d.regions.getD x 0 ≤ c := by
  simp only [List.all_eq_true, Option.all_eq_true, decide_eq_true_eq]

theorem execRampEnd_of_ramping {r : Fin 32} {s : State} (h : s.get (pwrStatPstate r) = 2) : execRampEnd r s = .next
    (if (s.plant r).probing = some true then probeTrip s r
     else endCuts (updPlant (powerUp s r) r (fun p => { p with deferred := 0, probing := none })) r) := by
  simp only [execRampEnd, if_neg (not_not_intro h), apply_ite Host.Outcome.next]

/-- Settles O28: the head request by its slope, by the headrooms and by the cuts; a ramp by whether a probe trips again. -/
theorem admissionServesTheHead : Obligations.AdmissionServesTheHead := by
  unfold Obligations.AdmissionServesTheHead
  refine ⟨?retest, ?shown, ?nobody, ?quarter, ?ramp⟩
  case retest =>
    exact fun g d s t r hhead ht hslope => (exec_admissionRetest g d s).trans (execAdmissionRetest_of_head hhead ht hslope)
  case shown => exact fun g d s r hhead hslope => (exec_admissionRetest g d s).trans (execAdmissionRetest_of_quarter hhead hslope)
  case nobody =>
    intro g d s hhead
    rw [exec_admissionRetest, exec_quarter]
    exact execAdmission_of_none hhead
  case quarter =>
    intro g d s t r n l hhead hslope hn ht hl
    rw [exec_quarter, execQuarter_of_head hhead hslope hn ht hl]
    simp only [any_cut_iff, all_kept_iff]
    refine ⟨fun hready => ?_, fun hcut hkept => ?_, fun hshort hcut hover => ?_, fun hshort hsome huncut => ?_⟩
    · rw [if_pos (hready.imp id (fun hnil => .inl (List.isEmpty_iff.2 hnil)))]
    · rw [if_pos (.inr (.inr ⟨hcut, hkept⟩))]
    · obtain ⟨x, hx, c, hc, hdraw⟩ := hover
      have hsome : ¬ l.isEmpty = true := fun hnil => List.ne_nil_of_mem hx (List.isEmpty_iff.1 hnil)
      rw [if_neg, if_pos hcut]
      rintro (hcovers | hnil | ⟨-, hkept⟩)
      · exact absurd (hshort.symm.trans hcovers) (by decide)
      · exact hsome hnil
      · exact Nat.not_le.2 hdraw (hkept x hx c hc)
    · have hnone : ¬ ∃ x ∈ l, (t.plant x).cut ≠ 0 := fun ⟨x, hx, hcut⟩ => hcut (huncut x hx)
      rw [if_neg, if_neg hnone]
      rintro (hcovers | hnil | ⟨hcut, -⟩)
      · exact absurd (hshort.symm.trans hcovers) (by decide)
      · exact hsome (List.isEmpty_iff.1 hnil)
      · exact hnone hcut
  case ramp => exact fun r s h => (exec_rampEnd r s).trans (execRampEnd_of_ramping h)

/-! ## Cuffs (R339-R342) -/

/-- The module's cuff is enforced: equal steps down, or parks (R340, R341). -/
def enforceModule (m : State) (d : Draws) : State :=
  if cuffDraw m d ≤ effModule m * 975 then m
  else if (cuffable m).any (canThrottle m) then (cuffable m).foldl throttleStep m
  else (coverExcess (fun r => (d.regions.getD r 0 - 25) * 1000) (cuffDraw m d - effModule m * 975) (parkSorted m (cuffable m)) 0).foldl
    (fun u r => decidePark u d false r) m

/-- A region's own cuff is enforced (R340, R341). -/
def enforceRegion (d : Draws) (u : State) (r : Nat) : State :=
  match effRegion u r with
  | none => u
  | some c => if d.regions.getD r 0 ≤ c then u else if canThrottle u r then throttleStep u r else decidePark u d true r

theorem execCuffEnforce_eq (d : Draws) (s : State) : execCuffEnforce d s = .next ((cuffable (enforceModule (measure s d) d)).foldl (enforceRegion d)
    (enforceModule (measure s d) d)) := by
  unfold execCuffEnforce
  generalize measure s d = m
  rfl

theorem enforceRegion_of_within {d : Draws} {u : State} {r : Nat} (h : ∀ c, effRegion u r = some c → d.regions.getD r 0 ≤ c) : enforceRegion d u r = u := by
  unfold enforceRegion
  split
  · rfl
  next c hc => exact if_pos (h c hc)

theorem foldl_enforceRegion_of_within {d : Draws} {t : State} {l : List Nat} (h : ∀ r ∈ l, ∀ c, effRegion t r = some c → d.regions.getD r 0 ≤ c) :
    l.foldl (enforceRegion d) t = t := by
  induction l with
  | nil => rfl
  | cons r l ih =>
    rw [List.foldl_cons, enforceRegion_of_within (h r List.mem_cons_self)]
    exact ih (fun x hx => h x (List.mem_cons_of_mem _ hx))

section
variable {d : Draws} {s t : State} (ht : t = measure s d)
include ht

theorem execUnpark_of_parked {r : Nat} {rest : List Nat} (horder : t.parkOrder = r :: rest) : execUnpark d s = .next (if unparkFits t d r then
      (updPlant { t with parkOrder := rest } r (fun p => { p with unparked := true })).puts
        [(clkStatParkCuff r, 0), (pwrParkedParked, setBit ((updPlant { t with parkOrder := rest } r (fun p => { p with unparked := true })).get pwrParkedParked) r false)]
      else liftThrottles t d) := by
  unfold execUnpark
  generalize measure s d = m at ht
  subst ht
  simp only [horder, apply_ite Host.Outcome.next]

theorem execUnpark_of_none (horder : t.parkOrder = []) : execUnpark d s = .next (liftThrottles t d) := by
  unfold execUnpark
  generalize measure s d = m at ht
  subst ht
  simp only [horder]

end

/-- Settles O29: cuffs written, enforced for the module and then for each region, and the last park undone where the draw allows it. -/
theorem cuffsHoldTheDraw : Obligations.CuffsHoldTheDraw := by
  unfold Obligations.CuffsHoldTheDraw
  refine ⟨?module, ?region, ?enforce, ?unpark, ?fits, ?lift, ?throttles⟩
  case module =>
    intro v s
    simp only [exec_pwrCuffWrite, execPwrCuffWrite, apply_ite Host.Outcome.next]
  case region =>
    intro r v s
    simp only [exec_pwrRcuffWrite, execPwrRcuffWrite, apply_ite Host.Outcome.next]
  case enforce =>
    rintro d s m t exc hm rfl ht
    have henforced : enforceModule (measure s d) d = t := by rw [← hm, ht]; rfl
    rw [exec_cuffEnforce, execCuffEnforce_eq, henforced]
    exact ⟨rfl, fun hwithin => by rw [foldl_enforceRegion_of_within hwithin]⟩
  case unpark =>
    intro d s t r rest ht horder
    rw [exec_unpark, execUnpark_of_parked ht horder]
  case fits =>
    intro s d r
    refine ⟨fun hown => ?_, fun hown => ?_⟩
    · simp only [unparkFits, hown, Bool.false_eq_true, if_false, decide_eq_true_eq]
    · simp only [unparkFits, hown, if_true, Option.all_eq_true, decide_eq_true_eq]
  case lift =>
    intro d s t ht horder
    rw [exec_unpark, execUnpark_of_none ht horder]
  case throttles => exact fun d t => rfl

end Sys2Proof.Machine
end

section
/-! SUPPORT. The Tvedot meter (R399-R418): requests, events, commands, epochs, power and the mirror: the commands by their branches. -/
namespace Sys2Proof.Machine

/-! ## Requests and events (R401-R404, R411, R416) -/

section
variable {s : State} (hon : meterOn s = true)
include hon

theorem exec_meterRead_of_on (n : List Byte) : exec (.meterRead n) s = .next (meterAnswer s 1 (readingOf s.meter n)) := if_pos hon

theorem exec_logRead_of_count {n : Nat} (hlow : 1 ≤ n) (hhigh : n ≤ 256) (a : Nat) : exec (.logRead a n) s = .next
    (meterAnswer s 2 ((range' a n).flatMap (fun k => (tabFind k s.meter.log).getD []) ++ readingOf s.meter [])) :=
  if_neg (by simp only [hon, Bool.not_true, Bool.false_eq_true, false_or]; omega)

theorem exec_swid_of_on : exec .swid s = .next (meterAnswer s 3 (swidRecord s.meter)) := if_pos hon

theorem exec_cert_of_on : exec .cert s = .next (meterAnswer s 4 (padTo 832 s.meter.cert)) := if_pos hon

theorem exec_buttonPress_of_on : exec .buttonPress s = .next { s with meter := refresh { s.meter with page := s.meter.page % 4 + 1 } } := if_pos hon

theorem exec_pageReturn_of_on : exec .pageReturn s = .next { s with meter := refresh { s.meter with page := 1 } } := if_pos hon

/-- What a tamper event sets in the meter, and its entry (R403, R411). -/
def tampered (m : Meter) (event : Nat) : Meter :=
  match event with
  | 0 => logPlain { m with housing := true } 5 4 []
  | 1 => logPlain { m with cover := true } 5 3 []
  | 2 => logPlain { m with magnetic := true } 5 5 []
  | _ => logPlain { m with service := true } 5 6 []

theorem exec_tamper_of_on (event : Fin 4) : exec (.tamper event) s = .next { s with meter := tampered s.meter event.val } :=
  if_neg (by rw [hon]; decide)

theorem exec_tamperClear_of_open (hopen : s.meter.service = true) :
    exec .tamperClear s = .next { s with meter := logPlain { s.meter with service := false, housing := false, cover := false, magnetic := false } 6 0 [] } := by
  have hclose : setService s.meter false = logPlain { s.meter with service := false, housing := false, cover := false, magnetic := false } 6 0 [] := by
    simp [setService, hopen]
  rw [← hclose]
  exact if_neg (by rw [hon, hopen]; decide)

theorem exec_meterFault_of_good (hgood : s.meter.fault = false) :
    exec .meterFault s = .next { s with meter := logPlain { s.meter with fault := true } 10 0 [] } :=
  if_neg (by rw [hon, hgood]; decide)

section
variable (lr par : List Byte) (v : W64)

/-- The meter under other legally relevant software (R404). -/
def Meter.withSoftware (m : Meter) (lr par : List Byte) (v : Nat) : Meter := { m with lrDigest := lr, paramDigest := par, version := v % 2 ^ 48 }

theorem exec_swChange_of_open (hopen : s.meter.service = true) : exec (.swChange lr par v) s = .next { s with
    meter := sendIdentity (logPlain (s.meter.withSoftware lr par v.toNat) 9 0 (sha256 (swidRecord (s.meter.withSoftware lr par v.toNat)))) } :=
  if_neg (by rw [hon, hopen]; decide)

end

end

theorem exec_swChange_of_closed {s : State} (hclosed : s.meter.service = false) (lr par : List Byte) (v : W64) :
    exec (.swChange lr par v) s = .next s := if_pos (by rw [hclosed]; simp)

/-- Settles O43: each request and event of a meter under power. -/
theorem theMeterAnswersAndIsWatched : Obligations.TheMeterAnswersAndIsWatched := by
  unfold Obligations.TheMeterAnswersAndIsWatched
  refine ⟨fun n s hon => exec_meterRead_of_on hon n, fun a n s hon hlow hhigh => exec_logRead_of_count hon hlow hhigh a, fun s hon => ?_⟩
  refine ⟨exec_swid_of_on hon, exec_cert_of_on hon, exec_buttonPress_of_on hon, exec_pageReturn_of_on hon, exec_tamper_of_on hon 0, exec_tamper_of_on hon 1,
    exec_tamper_of_on hon 2, exec_tamper_of_on hon 3, exec_tamperClear_of_open hon, exec_meterFault_of_good hon, ?_⟩
  rintro lr par v _ rfl
  exact ⟨exec_swChange_of_open hon lr par v, fun hclosed => exec_swChange_of_closed hclosed lr par v⟩

/-! ## Commands (R407-R409) -/

section
variable {s : State} (hon : meterOn s = true)
include hon

theorem meterCommand_of_on {op k : Nat} {c : List Byte} (hk : k = mcCheck s.meter op c) (act : Meter → Meter) : meterCommand s op c act =
    if k ≠ 1 then commandAnswer s k else commandAnswer { s with meter := act { s.meter with cSeq := some (mcSeq c) } } 1 := by
  subst hk
  exact if_neg (by rw [hon]; decide)

theorem meterSchedule_of_epoch {op k : Nat} {c : List Byte} (hk : k = mcCheck s.meter op c) (hat : mcAt c ≠ 0) (account : Nat) : meterSchedule s op c account =
    if k ≠ 1 then commandAnswer s k else
      { s with meter := { s.meter with cSeq := some (mcSeq c), sched := some { epoch := mcAt c, account := account } } } := by
  simp only [meterSchedule, hon, Bool.not_true, Bool.false_eq_true, if_false, ← hk, if_neg hat]
  rfl

theorem meterSchedule_of_next {op k : Nat} {c : List Byte} (hk : k = mcCheck s.meter op c) (hat : mcAt c = 0) {late : Bool} {t : State}
    (hlate : s.choose = (late, t)) (account : Nat) : meterSchedule s op c account =
    if k ≠ 1 then commandAnswer s k else
      { t with meter := { s.meter with cSeq := some (mcSeq c), sched := some { epoch := s.meter.epoch + 1 + b2n late, account := account } } } := by
  obtain ⟨rfl, rfl⟩ := Prod.mk.inj hlate
  simp only [meterSchedule, hon, Bool.not_true, Bool.false_eq_true, if_false, ← hk, if_pos hat]
  rfl

end

/-- Settles O44: each command by the status of its checks, OPEN and CLOSE by their epoch. -/
theorem meterCommandsRunTheirChecks : Obligations.MeterCommandsRunTheirChecks := by
  unfold Obligations.MeterCommandsRunTheirChecks
  rintro s c k _ hon rfl
  refine ⟨fun hk => ?_, fun hk => ?_, fun hk => ?_, fun hk => ?_, fun hk hat => ?_, fun hk hat => ?_,
    fun late t hlate hat => ⟨fun hk => ?_, fun hk => ?_⟩⟩
  · exact congrArg Host.Outcome.next (meterCommand_of_on hon hk _)
  · exact congrArg Host.Outcome.next (meterCommand_of_on hon hk _)
  · exact congrArg Host.Outcome.next (meterCommand_of_on hon hk _)
  · exact congrArg Host.Outcome.next (meterCommand_of_on hon hk _)
  · exact congrArg Host.Outcome.next (meterSchedule_of_epoch hon hk hat _)
  · exact congrArg Host.Outcome.next (meterSchedule_of_epoch hon hk hat _)
  · exact congrArg Host.Outcome.next (meterSchedule_of_next hon hk hat hlate _)
  · exact congrArg Host.Outcome.next (meterSchedule_of_next hon hk hat hlate _)

/-! ## Epochs, power and the mirror (R400, R409, R410, R415, R417, R418) -/

/-- An epoch's energy in the accounts of a meter that is not at fault, and its clock (R400). -/
def epochTaken (e : Nat) (o : Bool) (m : Meter) : Meter :=
  if m.account = 0 then { m with total := m.total + e, idle := m.idle + e, epoch := m.epoch + 1, utc := m.utc + 10, range := o }
  else { m with total := m.total + e, acct := m.acct + e, epoch := m.epoch + 1, utc := m.utc + 10, range := o }

theorem meterEpoch_of_good {m : Meter} (hgood : m.fault = false) (e : Nat) (o : Bool) : meterEpoch e o m = epochTaken e o m := by
  simp only [meterEpoch, hgood, Bool.false_eq_true, if_false, epochTaken]
  split <;> rfl

/-- One pulse for each 0.1 Wh that the total has passed (R399). -/
def pulse (t : State) (n : Nat) : State := if n = 0 then t else emit t (.pulses n)

/-- The window at every whole minute, and a reading at every whole second (R402, R417). -/
def minuteShown (u : State) : State := if u.meter.epoch % 6000 = 0 then { u with meter := refresh u.meter } else u

def secondSent (w : State) : State :=
  if w.meter.epoch % 100 = 0 then { w with meter := { w.meter with tx := w.meter.tx ++ [(0, readingOf w.meter [])] } } else w

theorem exec_epochBoundary_of_good {s : State} (hon : meterOn s = true) (hgood : s.meter.fault = false) (e : Nat) (o : Bool) {t : State}
    (ht : t = { s with meter := epochTaken e o s.meter }) : exec (.epochBoundary e o) s =
    .next (secondSent (minuteShown (dueCommand (pulse t (t.meter.total / tenthWh - s.meter.total / tenthWh))))) := by
  have htaken : updMeter s (meterEpoch e o) = t := by rw [ht, updMeter, meterEpoch_of_good hgood]
  show execEpochBoundary e o s = _
  simp only [execEpochBoundary, hon, Bool.not_true, Bool.false_eq_true, if_false, htaken, pulse]
  generalize dueCommand _ = u
  exact (apply_ite Host.Outcome.next _ _ _).symm

theorem dueCommand_of_due {s : State} {x : Sched} (hx : s.meter.sched = some x) (hdue : x.epoch ≤ s.meter.epoch) :
    dueCommand s = commandAnswer { s with meter := applySched s.meter x } 1 := by
  simp only [dueCommand, hx, if_pos hdue]
  rfl

theorem dueCommand_of_notDue {s : State} (h : ∀ x, s.meter.sched = some x → s.meter.epoch < x.epoch) : dueCommand s = s := by
  unfold dueCommand
  split
  next x hx => exact if_neg (Nat.not_le.2 (h x hx))
  · rfl

@[simp] theorem pulse_meter (t : State) (n : Nat) : (pulse t n).meter = t.meter := by
  unfold pulse
  split <;> rfl

theorem epochTaken_sched_epoch (e : Nat) (o : Bool) (m : Meter) : (epochTaken e o m).sched = m.sched ∧ (epochTaken e o m).epoch = m.epoch + 1 := by
  unfold epochTaken
  split <;> exact ⟨rfl, rfl⟩

theorem exec_powerDown_of_on {s : State} (hon : meterOn s = true) :
    exec .powerDown s = .next { s with meter := refresh { logPlain s.meter 3 0 [] with on := false, page := 4, downShown := true } } :=
  if_neg (by rw [hon]; decide)

/-- A command that is still scheduled when power returns is cancelled, with its entry (R410). -/
def cancelSched (m : Meter) : Meter := if m.sched.isSome then logPlain { m with sched := none } 11 0 [] else m

section
variable {s : State} (hfitted : meterFitted s = true) (hoff : s.meter.on = false)
include hfitted hoff

theorem exec_powerUp_of_same (n : Nat) (sw : Bool) : exec (.powerUp ⟨n, sw, none⟩) s = .next { s with meter := refresh (sendIdentity (setService
    (cancelSched (logPlain { s.meter with on := true, utc := s.meter.utc + n, downShown := false, range := false } 4 0 [])) sw)) } :=
  if_neg (by rw [hfitted, hoff]; decide)

theorem exec_powerUp_of_incoming (n : Nat) (sw : Bool) (x : NewMeter) : exec (.powerUp ⟨n, sw, some x⟩) s = .next { s with
    meter := refresh (sendIdentity (setService (cancelSched (logPlain { newMeter s.vendorHash x with on := true, downShown := false, range := false } 4 0 [])) sw)) } :=
  if_neg (by rw [hfitted, hoff]; decide)

end

theorem logEvent_frame (m : Meter) (ty arg account acct : Nat) (d : List Byte) : ∃ lost log logNext tx,
    logEvent m ty arg account acct d = { m with lost := lost, log := log, logNext := logNext, tx := tx } := by
  unfold logEvent
  split <;> exact ⟨_, _, _, _, rfl⟩

theorem logPlain_frame (m : Meter) (ty arg : Nat) (d : List Byte) : ∃ lost log logNext tx,
    logPlain m ty arg d = { m with lost := lost, log := log, logNext := logNext, tx := tx } := logEvent_frame ..

theorem cancelSched_of_none {m : Meter} (h : m.sched = none) : cancelSched m = m := if_neg (by rw [h]; decide)

section
variable {s : State} {ty : Nat} {b : List Byte} {rest : List (Nat × List Byte)} (htx : s.meter.tx = (ty, b) :: rest) (hinj : s.inj = none)
include htx hinj

theorem exec_meterTransmission_of_oldest (arrived : Bool) : exec (.meterTransmission arrived) s = .next
    (if arrived = true ∧ cpcRuns s = true then mirrorTake { s with meter := { s.meter with tx := rest } } ty b
     else { s with meter := { s.meter with tx := rest } }) := by
  have hfree : (updMeter s (fun m => { m with tx := rest })).inj = none := hinj
  have hruns : cpcRuns (updMeter s (fun m => { m with tx := rest })) = cpcRuns s := rfl
  show execMeterTransmission arrived s = _
  simp only [execMeterTransmission, htx, hruns, injectedFail_of_unarmed hfree, Bool.false_eq_true, if_false, Bool.or_false]
  cases cpcRuns s <;> cases arrived <;> rfl

end

theorem exec_mLinkLoss_of_up {s : State} (hup : s.on mirrorStatMLink = true) (hclean : (s.stop 33).tainted.contains 900 = false) : exec .mLinkLoss s = .next
    (raiseErr ((s.setStop 33 { s.stop 33 with tainted := setDel 900 (s.stop 33).tainted }).put mirrorStatMLink 0) 0x0901 0 33 0 none 0 0) := by
  show execMLinkLoss s = _
  simp only [execMLinkLoss, hup, hclean, Bool.not_true, Bool.false_eq_true, if_false]

/-- Settles O45: an epoch by the command that is due, power by what was scheduled and by whose meter returns, the oldest transmission. -/
theorem theMeterKeepsItsAccounts : Obligations.TheMeterKeepsItsAccounts := by
  unfold Obligations.TheMeterKeepsItsAccounts
  refine ⟨?epoch, ?down, ?same, ?incoming, ?sent, ?link⟩
  case epoch =>
    intro e o s t u v w n hon hgood ht hn hv hu hw
    have htaken : t = { s with meter := epochTaken e o s.meter } := ht
    have hpulse : pulse t (t.meter.total / tenthWh - s.meter.total / tenthWh) = v := by rw [hv, ← hn]; rfl
    obtain ⟨hsched, hepoch⟩ := epochTaken_sched_epoch e o s.meter
    have hmeter : v.meter = epochTaken e o s.meter := by rw [← hpulse, pulse_meter, htaken]
    have hdue : dueCommand v = u := by
      rcases hu with ⟨x, hx, hle, rfl⟩ | ⟨hlater, rfl⟩
      · exact dueCommand_of_due (by rw [hmeter, hsched, hx]) (by rw [hmeter, hepoch]; exact hle)
      · exact dueCommand_of_notDue (by rw [hmeter, hsched, hepoch]; exact hlater)
    have hshown : minuteShown u = w := hw.symm
    rw [exec_epochBoundary_of_good hon hgood e o htaken, hpulse, hdue, hshown]
    rfl
  case down => exact fun s hon => exec_powerDown_of_on hon
  case same =>
    rintro n sw s _ hfitted hoff rfl
    exact exec_powerUp_of_same hfitted hoff n sw
  case incoming =>
    intro n sw x s hfitted hoff
    refine ⟨?_, rfl, rfl, rfl, rfl⟩
    obtain ⟨lost, log, logNext, tx, hlogged⟩ := logPlain_frame { newMeter s.vendorHash x with on := true, downShown := false, range := false } 4 0 []
    rw [exec_powerUp_of_incoming hfitted hoff, cancelSched_of_none (by rw [hlogged]; rfl)]
    rfl
  case sent =>
    rintro s _ ty b rest htx hinj rfl
    rw [exec_meterTransmission_of_oldest htx hinj, exec_meterTransmission_of_oldest htx hinj]
    refine ⟨?_, ?_⟩
    · rw [if_neg (by simp)]
    · simp only [true_and]
  case link => exact fun s hup hclean => exec_mLinkLoss_of_up hup hclean

/-! ## The log (R413) -/

section
variable {m : Meter} {ty : Nat} (arg account acct : Nat) (d : List Byte)

theorem logEvent_of_full (h : 8192 ≤ unacked m ∨ 8064 ≤ unacked m ∧ (ty < 3 ∨ 11 < ty)) :
    logEvent m ty arg account acct d = { m with lost := satAdd 16 m.lost 1 } := if_pos h

/-- The log after the entry that takes the place of the one 8192 numbers before it. -/
def joined (m : Meter) (e : List Byte) : Tab (List Byte) :=
  tabPut m.logNext e (if 8192 ≤ m.logNext then tabErase (m.logNext - 8192) m.log else m.log)

theorem logEvent_of_room (h : unacked m < 8064 ∨ unacked m < 8192 ∧ 3 ≤ ty ∧ ty ≤ 11) : ∃ e tx,
    logEvent m ty arg account acct d = { m with log := joined m e, logNext := m.logNext + 1, tx := tx } :=
  ⟨_, _, if_neg (by omega)⟩

end

section
variable {m : Meter} {e : List Byte} {k : Nat}

@[simp] theorem tabFind_joined_new : tabFind m.logNext (joined m e) = some e := tabFind_put_same

theorem tabFind_joined_other (hk : k ≠ m.logNext) (hplace : k + 8192 ≠ m.logNext) : tabFind k (joined m e) = tabFind k m.log := by
  unfold joined
  rw [tabFind_put_other hk]
  split
  · exact tabFind_erase_other (by omega)
  · rfl

theorem tabFind_joined_place (hplace : k + 8192 = m.logNext) : tabFind k (joined m e) = none := by
  have hk : k = m.logNext - 8192 := by omega
  unfold joined
  rw [tabFind_put_other (by omega), if_pos (by omega), hk, tabFind_erase_same]

end

theorem mcCheck_ne_one_of_full {m : Meter} {op : Nat} (hop : op ≤ 2) (hfull : 8064 ≤ unacked m) (c : List Byte) : mcCheck m op c ≠ 1 := by
  unfold mcCheck
  rw [if_pos (⟨hop, hfull⟩ : op ≤ 2 ∧ 8064 ≤ unacked m)]
  repeat' first | decide | split

/-! ## What a power failure leaves (R410) -/

/-- The account in force and its energy, and whether the meter measures, stand. -/
structure SameAccount (m n : Meter) : Prop where
  account : n.account = m.account
  acct : n.acct = m.acct
  fault : n.fault = m.fault
  on : n.on = m.on

theorem SameAccount.trans {l m n : Meter} (h : SameAccount l m) (k : SameAccount m n) : SameAccount l n :=
  ⟨k.account.trans h.account, k.acct.trans h.acct, k.fault.trans h.fault, k.on.trans h.on⟩

theorem logPlain_sameAccount (m : Meter) (ty arg : Nat) (d : List Byte) : SameAccount m (logPlain m ty arg d) := by
  obtain ⟨lost, log, logNext, tx, h⟩ := logPlain_frame m ty arg d
  rw [h]
  exact ⟨rfl, rfl, rfl, rfl⟩

theorem logPlain_sched (m : Meter) (ty arg : Nat) (d : List Byte) : (logPlain m ty arg d).sched = m.sched := by
  obtain ⟨lost, log, logNext, tx, h⟩ := logPlain_frame m ty arg d
  rw [h]

theorem setService_sameAccount (m : Meter) (sw : Bool) : SameAccount m (setService m sw) := by
  unfold setService
  split
  · exact ⟨rfl, rfl, rfl, rfl⟩
  · split
    · exact SameAccount.trans (m := { m with service := true }) ⟨rfl, rfl, rfl, rfl⟩ (logPlain_sameAccount ..)
    · exact SameAccount.trans (m := { m with service := false, housing := false, cover := false, magnetic := false }) ⟨rfl, rfl, rfl, rfl⟩
        (logPlain_sameAccount ..)

theorem setService_sched (m : Meter) (sw : Bool) : (setService m sw).sched = m.sched := by
  unfold setService
  split
  · rfl
  · split <;> exact logPlain_sched ..

theorem cancelSched_sameAccount (m : Meter) : SameAccount m (cancelSched m) := by
  unfold cancelSched
  split
  · exact SameAccount.trans (m := { m with sched := none }) ⟨rfl, rfl, rfl, rfl⟩ (logPlain_sameAccount ..)
  · exact ⟨rfl, rfl, rfl, rfl⟩

theorem shownIdentity_sameAccount (m : Meter) : SameAccount m (refresh (sendIdentity m)) := ⟨rfl, rfl, rfl, rfl⟩

theorem shownIdentity_sched (m : Meter) : (refresh (sendIdentity m)).sched = m.sched := rfl

theorem cancelSched_sched (m : Meter) : (cancelSched m).sched = none := by
  unfold cancelSched
  split
  · exact logPlain_sched ..
  next h => exact Option.not_isSome_iff_eq_none.1 h

/-- An epoch of a meter with an account in force and nothing scheduled adds its energy to that account. -/
theorem exec_epochBoundary_acct {s : State} (hon : meterOn s = true) (hgood : s.meter.fault = false) (hnone : s.meter.sched = none) {k a : Nat}
    (haccount : s.meter.account = k) (hopen : k ≠ 0) (hacct : s.meter.acct = a) (e : Nat) (o : Bool) :
    ∃ v, exec (.epochBoundary e o) s = .next v ∧ v.meter.account = k ∧ v.meter.acct = a + e := by
  subst haccount hacct
  refine ⟨_, exec_epochBoundary_of_good hon hgood e o rfl, ?_⟩
  rw [dueCommand_of_notDue (by rw [pulse_meter, (epochTaken_sched_epoch e o s.meter).1, hnone]; exact fun x hx => by cases hx)]
  have hminute : ∀ u : State, (minuteShown u).meter.account = u.meter.account ∧ (minuteShown u).meter.acct = u.meter.acct := fun u => by
    unfold minuteShown; split <;> exact ⟨rfl, rfl⟩
  have hsecond : ∀ u : State, (secondSent u).meter.account = u.meter.account ∧ (secondSent u).meter.acct = u.meter.acct := fun u => by
    unfold secondSent; split <;> exact ⟨rfl, rfl⟩
  rw [(hsecond _).1, (hsecond _).2, (hminute _).1, (hminute _).2, pulse_meter, epochTaken, if_neg hopen]
  exact ⟨rfl, rfl⟩

/-- Settles O59: an entry by the room in the log, a command by the check for room, a power failure by what the meter does on its return. -/
theorem meterLogKeepsWhatIsUnacknowledged : Obligations.MeterLogKeepsWhatIsUnacknowledged := by
  unfold Obligations.MeterLogKeepsWhatIsUnacknowledged
  refine ⟨?log, ?refused, ?power⟩
  case log =>
    rintro m _ ty arg account acct d rfl
    refine ⟨fun hfull => logEvent_of_full arg account acct d hfull, fun hroom => ?_, ?_⟩
    · obtain ⟨e, tx, hlogged⟩ := logEvent_of_room arg account acct d hroom
      rw [hlogged]
      refine ⟨rfl, by simp only [tabFind_joined_new, Option.isSome_some], rfl, fun k hk hchanged => ?_, fun hheld k hk => ?_⟩
      · have hplace : k + 8192 = m.logNext := Decidable.byContradiction (fun hother => hchanged (tabFind_joined_other (by omega) hother))
        have hunacked : m.logNext - m.logAcked < 8192 := hroom.elim (fun h => Nat.lt_trans h (by decide)) (fun h => h.1)
        exact ⟨hplace, by omega⟩
      · show k < m.logNext + 1 ∧ m.logNext + 1 ≤ k + 8192
        by_cases hnew : k = m.logNext
        · omega
        · have hplace : k + 8192 ≠ m.logNext := fun hplace => by
            have hsome : (tabFind k (joined m e)).isSome = true := hk
            rw [tabFind_joined_place hplace] at hsome
            cases hsome
          have hold : (tabFind k m.log).isSome = true := by rw [← tabFind_joined_other (e := e) hnew hplace]; exact hk
          have := hheld k hold
          omega
    · obtain ⟨lost, log, logNext, tx, hlogged⟩ := logEvent_frame m ty arg account acct d
      rw [hlogged]
      exact ⟨rfl, rfl, rfl, rfl, rfl, rfl, rfl⟩
  case refused => exact fun m c hfull => ⟨mcCheck_ne_one_of_full (by decide) hfull c, mcCheck_ne_one_of_full (by decide) hfull c⟩
  case power =>
    intro s k sw hon
    obtain ⟨hfitted, -⟩ := Bool.and_eq_true_iff.1 hon
    let m₀ : Meter := refresh { logPlain s.meter 3 0 [] with on := false, page := 4, downShown := true }
    let m₁ : Meter := logPlain { m₀ with on := true, utc := m₀.utc + k, downShown := false, range := false } 4 0 []
    have hup := exec_powerUp_of_same (s := { s with meter := m₀ }) hfitted rfl k sw
    have hsched : m₁.sched = s.meter.sched := (logPlain_sched ..).trans (logPlain_sched ..)
    have hfailed := logPlain_sameAccount s.meter 3 0 []
    have hlogged : SameAccount { s.meter with on := true } m₁ :=
      SameAccount.trans (m := { m₀ with on := true, utc := m₀.utc + k, downShown := false, range := false })
        ⟨hfailed.account, hfailed.acct, hfailed.fault, rfl⟩ (logPlain_sameAccount ..)
    have hnone := ((shownIdentity_sched _).trans (setService_sched (cancelSched m₁) sw)).trans (cancelSched_sched m₁)
    have hsame := ((hlogged.trans (cancelSched_sameAccount m₁)).trans (setService_sameAccount _ sw)).trans (shownIdentity_sameAccount _)
    refine ⟨{ s with meter := m₀ }, _, m₁, exec_powerDown_of_on hon, hup, rfl, ?_, ?_⟩
    · rw [← hsched]; rfl
    generalize refresh (sendIdentity (setService (cancelSched m₁) sw)) = m₂ at hsame hnone ⊢
    exact ⟨hnone, hsame.account, hsame.acct, fun e o hgood hopen => exec_epochBoundary_acct (s := { s with meter := m₂ })
      (Bool.and_eq_true_iff.2 ⟨hfitted, hsame.on⟩) (hsame.fault.trans hgood) hnone hsame.account hopen hsame.acct e o⟩

end Sys2Proof.Machine
end

section
namespace Sys2Proof.Machine

/-! ## Fences, drains and the rerun (R364, R370, R377, R379, R380) -/

theorem exec_fence_of_due {r : Fin 32} {code : BitVec 16} {s : State} {u d1 : Nat} {inj : Bool} (hdue : (s.plant r).due = some (code.toNat, u, d1, inj)) :
    exec (.fence r code) s = .next (fenceRegion (updPlant s r (fun p => { p with due := none })) r code.toNat u d1 inj) := by
  show execFence r code s = _
  simp only [execFence, hdue, if_true]

section
variable {r : Fin 32} {s : State} (hdraining : (s.hub r).draining = true) (hrun : running s r = true) (hopen : s.on (resStatDrained r) = false)
include hdraining hrun hopen

theorem exec_drained_of_done (hstruck : (s.hub r).drainStruck = false) (hdone : updatesDone s r = true) : exec (.drained r) s = .next (drainStrike s r) := by
  show execDrained r s = _
  simp only [execDrained, hdraining, hrun, hopen, hstruck, hdone]
  rfl

theorem exec_drained_of_struck (hstruck : (s.hub r).drainStruck = true) (hlive : ∀ l ∈ (s.hub r).live, l.q < 4)
    (hwrites : ∀ w ∈ (s.hub r).writes, w.q < 4) (hsignals : signalsSettled s r = true) :
    exec (.drained r) s = .next { s.put (resStatDrained r) 1 with gate := { s.gate with drained := setIns r.val s.gate.drained } } := by
  have hl : (s.hub r).live.all (fun l => decide (l.q < 4)) = true := by simpa using hlive
  have hw : (s.hub r).writes.all (fun w => decide (w.q < 4)) = true := by simpa using hwrites
  show execDrained r s = _
  simp only [execDrained, hdraining, hrun, hopen, hstruck, hl, hw, hsignals]
  rfl

end

/-- The gate and what was still on its way start again at step `t` (R377, R380). -/
def rerunFrom (w : State) (t : Nat) : State := settleGate { w with
  ring := w.ring.filter (fun m => !decide (m.cls = 8 ∧ t ≤ m.step) && !decide (m.cls = 4 ∧ 32 ≤ m.dst ∧ t ≤ m.step))
  pages := w.pages.filter (fun p => decide (p.st = 3 ∨ p.step < t))
  streams := w.streams.map (fun e => (e.1, { e.2 with afterFail := false }))
  gate := { w.gate with
    next := t, tally := w.gate.tally.filter (fun e => decide (e.1 < t)), forced := w.gate.forced.filter (fun k => decide (k < t))
    byFence := w.gate.byFence.filter (fun k => decide (k < t)), warned := w.gate.warned.filter (fun k => decide (k < t))
    drained := [], rerun := none, fenceFail := false } }

theorem exec_rerunStart_of_drained {s u v : State} {t : Nat} (hrerun : s.gate.rerun = some t) (hdrained : ∀ r ∈ voters s, r ∈ s.gate.drained)
    (hverdicts : ∀ m ∈ s.ring, m.cls ≠ 9) (hu : s.seamsDue.foldl seamsStep s = u) (hv : ({ u.found.foldl restoreUnit u with found := [] } : State) = v) :
    exec .rerunStart s = .next (rerunFrom ((voters v).foldl (fun s r => rerunHub s r t) v) t) := by
  have hall : (voters s).all (fun r => s.gate.drained.contains r) = true := by simpa using hdrained
  have hnone : s.ring.any (fun m => decide (m.cls = 9)) = false := by simpa using hverdicts
  show execRerunStart s = _
  simp only [execRerunStart, hrerun, hall, hnone, hu, hv, rerunFrom]
  rfl

/-- Settles O30: the detector's report, the two halves of a drain, the rerun step by step, and RESUME. -/
theorem fencesDrainAndRerun : Obligations.FencesDrainAndRerun := by
  unfold Obligations.FencesDrainAndRerun
  refine ⟨fun r code s u d1 inj hdue => exec_fence_of_due hdue, ?drained, ?rerun, fun r s hup => if_pos hup⟩
  case drained =>
    exact fun r s hdraining hrun hopen => ⟨exec_drained_of_done hdraining hrun hopen, exec_drained_of_struck hdraining hrun hopen⟩
  case rerun =>
    intro s u v w t hrerun hdrained hverdicts hu hv hw
    rw [exec_rerunStart_of_drained hrerun hdrained hverdicts hu.symm hv.symm, ← hw]
    rfl

/-! ## Seams (R362, R363, R366, R368, R369) -/

theorem exec_seamRefresh_of_passable {k : Fin 16} {s : State} (h : passable s k = true) :
    exec (.seamRefresh k) s = .next (settleSeams (seamPass { s with refreshing := setDel k.val s.refreshing } k true)) := if_pos h

theorem exec_refreshNow_of_quiet {s : State} (hquiet : quiesced s = false) : exec .refreshNow s = .next
    { s with refreshing := s.seams.foldl (fun l e => if passable s e.1 then setIns e.1 l else l) s.refreshing } :=
  if_neg (by rw [hquiet]; decide)

theorem exec_fold_of_degraded {k : Fin 16} {s : State} (hquiet : quiesced s = false) (hdegraded : (s.seam k).st = 2) :
    exec (.fold k) s = .next (s.setSeam k { (s.seam k) with st := 3, leaving := lostOf s (s.seam k) }) :=
  (if_neg (by rw [hquiet]; decide)).trans (if_pos hdegraded)

/-- The unit at offset `o` folded onto the members `keep` after the units before it: were all bytes of all of them known? -/
def foldStep (m : Seam) (keep : List Nat) (x : Bool × State) (o : Nat) : Bool × State :=
  (x.1 && (foldUnit x.2 m keep o).1, (foldUnit x.2 m keep o).2)

theorem exec_foldDone_of_folding {k : Fin 16} {s t : State} {gone : List Nat} {all : Bool} (hfolding : (s.seam k).st = 3)
    (hgone : (s.seam k).leaving.foldl (fun l n => setIns n l) (s.seam k).folded = gone)
    (hunits : (seamUnits s (s.seam k)).foldl (foldStep (s.seam k) ((s.seam k).members.filter (fun n => !gone.contains n))) (true, s) = (all, t)) :
    exec (.foldDone k) s = .next (settleSeams (t.setSeam k { (t.seam k) with
      st := 1, folded := gone, leaving := [], pbValid := endurance t && all })) := by
  unfold foldStep at hunits
  show execFoldDone k s = _
  simp only [execFoldDone, if_neg (not_not_intro hfolding), hgone, hunits]

/-- May the next chunk of member `n` be written to the target `t` (R368)? -/
theorem rebuild_notHeld {s : State} {n t : Nat} (hen : s.on seamCtrlRbEn = true) (hspare : useOf s t = 2) (hrun : running s t = true)
    (hfree : drlReads s n = false) : ¬(!s.on seamCtrlRbEn ∨ useOf s t ≠ 2 ∨ !running s t ∨ drlReads s n) := by
  simp [hen, hspare, hrun, hfree]

/-- Settles O31: each command under the state of its seam. -/
theorem seamsAreRefreshedAndFolded : Obligations.SeamsAreRefreshedAndFolded := by
  unfold Obligations.SeamsAreRefreshedAndFolded
  refine ⟨fun k s h => exec_seamRefresh_of_passable h, fun s hq => exec_refreshNow_of_quiet hq, fun k s hq hst => exec_fold_of_degraded hq hst, ?folded, ?rebuilt⟩
  case folded => exact fun k s t gone all hst hgone hunits => exec_foldDone_of_folding hst hgone.symm hunits
  case rebuilt =>
    intro s i n o t k hquiet hnext ht hen hspare hrun hfree hk
    show execBackgroundRebuildChunk s = _
    simp only [execBackgroundRebuildChunk, hquiet, hnext, ← ht, ← hk, if_neg (rebuild_notHeld hen hspare hrun hfree), Bool.false_eq_true, if_false]
    generalize writeMem _ _ _ _ = x
    obtain ⟨fault, u⟩ := x
    cases fault <;> rfl

end Sys2Proof.Machine
end

section
namespace Sys2Proof.Machine

/-! ## Snapshots and the journal (R371, R372, R374) -/

theorem exec_snapNow_of_quiet {s : State} (hquiet : quiesced s = false) : exec .snapNow s = .next { s with snaps := { s.snaps with asked := true } } :=
  if_neg (by rw [hquiet]; decide)

/-- The key that waits is taken up by the snapshot that starts (R395). -/
def keyTaken (s : State) : State :=
  match s.ckptNew with
  | some k => { s with ckptOld := s.ckptKey, ckptKey := some k, ckptNew := none }
  | none => s

/-- The next half of the snapshot space begins, with one object out for each region of `rs` (R374). -/
def halfBegun (u : State) (rs : List Nat) : State :=
  { u with snaps := { u.snaps with begun := u.snaps.begun + 1, fill := 0, commits := 0, asked := false, due := false, out := rs.length } }

/-- The snapshot object of region `r` is written (R371, R373). -/
def snapObject (u : State) (r : Nat) : State :=
  writeChainObject (rangeEntries u r (snapSet u r)).2 r 0 ((lastCommit (rangeEntries u r (snapSet u r)).2 r).getD 0) []
    (rangeEntries u r (snapSet u r)).1 (.snapshot r)

theorem exec_snapshot_of_due {s t : State} {rs : List Nat} (hquiet : quiesced s = false) (hkey : s.ckptKey ≠ none ∨ s.ckptNew ≠ none)
    (hrs : (List.range 32).filter (fun r => running s r) = rs) (hready : snapReady s = true) (hdue : s.snaps.due = true) (hout : s.snaps.out = 0)
    (hdone : ∀ r ∈ rs, updatesDone s r = true) (ht : rs.foldl snapObject (halfBegun (keyTaken s) rs) = t) :
    exec .snapshot s = .next (t.put snapStatusBusy (b2n (decide (t.snaps.out ≠ 0)))) := by
  have hkeys : (s.ckptKey.isNone && s.ckptNew.isNone) = false := by
    rcases hkey with h | h <;> simp [Option.isNone_eq_false_iff, Option.isSome_iff_ne_none.2 h, Option.isNone_iff_eq_none, h]
  have hall : rs.all (fun r => updatesDone s r) = true := by simpa using hdone
  subst ht
  show execSnapshot s = _
  simp only [execSnapshot, hquiet, hrs, hready, hkeys, hdue, hout, hall]
  rfl

theorem exec_journalRecord_of_due {r : Fin 32} {s u : State} {t : Nat} {es : List SnapEntry} (hquiet : quiesced s = false)
    (hdue : journalDue s r = some t) (hready : snapReady s = true) (hrun : running s r = true) (hdone : updatesDone s r = true)
    (hkey : s.ckptKey ≠ none) (hes : rangeEntries s r (journalSet s r t) = (es, u)) :
    exec (.journalRecord r) s = .next (updFlow (writeChainObject u r 1 t
      ((((s.chain r).out.getLast?.orElse (fun _ => (s.chain r).objs.getLast?)).map (·.digest)).getD []) es (.journal r)) r
      (fun f => { f with journaled := t + 1 })) := by
  have hk : s.ckptKey.isNone = false := by simpa [Option.isSome_iff_ne_none] using hkey
  show execJournalRecord r s = _
  simp only [execJournalRecord, hquiet, hdue, hready, hrun, hdone, hk, hes]
  rfl

/-! ## Whole-state checkpoints (R378) -/

/-- Every running hub is asked to stall for the checkpoint. -/
def ckptAsked (s : State) : State :=
  (((List.range 32).filter (fun r => running s r)).foldl (fun u r => askStall u 4 r) { s with snaps := { s.snaps with ckpt := 1 } }).put snapStatusBusy 1

theorem exec_ckptGo_of_ready {s t : State} (hnone : s.snaps.ckpt = 0) (hpeer : peerUsable s (s.get snapCtrlSnapPeer) = true)
    (hclass : peerClass (s.peer (s.get snapCtrlSnapPeer)) = 2) (hkey : (s.ckptKey.or s.ckptNew).isSome = true) (hloaded : s.bs.loaded = true)
    (hquiet : quiesced s = false) (ht : ckptAsked s = t) : exec .ckptGo s =
    .next (if t.snaps.ckpt = 1 ∧ allStalled t 4 = true ∧ (List.range 32).all (fun r => !running t r || updatesDone t r) = true
      then writeCheckpoint t else t) := by
  unfold ckptAsked at ht
  show execCkptGo s = _
  simp only [execCkptGo, hnone, hpeer, hclass, hkey, hloaded, hquiet, ht, decide_true, Bool.and_self, Bool.not_false, and_self, and_true,
    if_true, apply_ite Host.Outcome.next]

/-- Settles O32: each command under its conditions. -/
theorem snapshotsAndJournalsAreWritten : Obligations.SnapshotsAndJournalsAreWritten := by
  unfold Obligations.SnapshotsAndJournalsAreWritten
  refine ⟨fun s hq => exec_snapNow_of_quiet hq, ?snapshot, ?journal, ?ckpt⟩
  case snapshot =>
    intro s t u rs hq hkey hrs hready hdue hout hdone hu ht
    have hu' : keyTaken s = u := hu.symm
    exact exec_snapshot_of_due hq hkey hrs.symm hready hdue hout hdone (by rw [hu', ht]; rfl)
  case journal =>
    exact fun r s u t es hq hdue hready hrun hdone hkey hes => exec_journalRecord_of_due hq hdue hready hrun hdone hkey hes
  case ckpt =>
    exact fun s t hnone hpeer hclass hkey hloaded hq ht => exec_ckptGo_of_ready hnone hpeer hclass hkey hloaded hq ht.symm

/-! ## Restores (R375, R376, R377, R378) -/

/-- Has the image a place at the destination (R376, log 34)? The model tests the contrary. -/
theorem imageFits_iff {s : State} {dest : Nat} {img : List Byte} :
    ¬(s.get rsLenLen < img.length ∨ !inStack dest ∨ !running s (regionAt s dest) ∨ !addrOk s dest img.length) ↔
      img.length ≤ s.get rsLenLen ∧ inStack dest = true ∧ running s (regionAt s dest) = true ∧ addrOk s dest img.length = true := by
  simp only [not_or, Nat.not_lt, Bool.not_eq_true', Bool.not_eq_false]

/-- Settles O33: both restores by the checks of what storage returns. -/
theorem restoresCheckWhatTheyRead : Obligations.RestoresCheckWhatTheyRead := by
  unfold Obligations.RestoresCheckWhatTheyRead
  refine ⟨?chain, ?checkpoint⟩
  case chain =>
    intro objects s o dest hquiet hdest hlast
    show execRsGo objects s = _
    simp only [execRsGo, hquiet, ← hdest, hlast, Bool.false_eq_true, if_false]
    generalize readChain _ _ _ _ _ _ = chain
    obtain ⟨code, i⟩ | ess := chain
    · rfl
    dsimp only
    generalize entriesBytes _ = img
    by_cases hfits : img.length ≤ s.get rsLenLen ∧ inStack dest = true ∧ running s (regionAt s dest) = true ∧ addrOk s dest img.length = true
    · rw [if_pos hfits, if_neg (imageFits_iff.2 hfits)]
      generalize writeMem _ _ _ _ = x
      obtain ⟨fault, t⟩ := x
      cases fault <;> rfl
    · rw [if_neg hfits, if_pos (Decidable.byContradiction (fun h => hfits (imageFits_iff.1 h)))]
  case checkpoint =>
    intro objects m s hquiet
    show execCkptRestore objects m s = _
    simp only [execCkptRestore, hquiet, Bool.false_eq_true, if_false]
    generalize openObject s m = opened
    cases opened with
    | none => rfl
    | some body =>
      dsimp only
      split
      · rfl
      split
      · rfl
      generalize List.find? _ _ = bad
      rcases bad with _ | ⟨⟨b, code | es⟩, i⟩ <;> rfl

end Sys2Proof.Machine
end

section
namespace Sys2Proof.Machine

/-! ## Owner commands (R390, R391, R392) -/

/-- The command `c` runs the buffered owner command as operation `op` (R392). -/
def RunsOwnerCommand (c : Instr) (op : Nat) : Prop :=
  c = .enroll ∧ op = 1 ∨ c = .ownerSeal ∧ op = 2 ∨ c = .rotate ∧ op = 3 ∨ c = .setSlice ∧ op = 4 ∨ c = .keyInstall ∧ op = 5

theorem exec_of_runsOwnerCommand {c : Instr} {op : Nat} (h : RunsOwnerCommand c op) (s : State) : exec c s = .next (ownerCommand s op) := by
  obtain ⟨rfl, rfl⟩ | ⟨rfl, rfl⟩ | ⟨rfl, rfl⟩ | ⟨rfl, rfl⟩ | ⟨rfl, rfl⟩ := h <;> rfl

/-! ## Effects and burns (R383, R392) -/

section
variable (s : State) {c : List Byte}

theorem ocEffect_enroll (h : ocOp c = 1) : ocEffect s c = burned s (fun u =>
    { u with owners := tabPut 0 (keyHash (ocPayload c)) u.owners }.puts [(secStateOwnState, 1), (secStateOwnerSlot, 0)]) := by
  simp only [ocEffect, h]

theorem ocEffect_seal (h : ocOp c = 2) : ocEffect s c = burned s (fun u => u.put secStateOwnState 2) := by
  simp only [ocEffect, h]

theorem ocEffect_rotate (h : ocOp c = 3) (hfree : s.get secStateOwnerSlot < 3) : ocEffect s c = burned s (fun u =>
    { u with owners := tabPut (s.get secStateOwnerSlot + 1) (keyHash (ocPayload c)) u.owners }.put secStateOwnerSlot (s.get secStateOwnerSlot + 1)) := by
  simp only [ocEffect, h, if_neg (show ¬4 ≤ s.get secStateOwnerSlot + 1 by omega)]

theorem ocEffect_rotate_full (h : ocOp c = 3) (hfull : 3 ≤ s.get secStateOwnerSlot) : ocEffect s c = .error 0x15 := by
  simp only [ocEffect, h, if_pos (show 4 ≤ s.get secStateOwnerSlot + 1 by omega)]

theorem ocEffect_setSlice (h : ocOp c = 4) : ocEffect s c = .ok (s.put sliceSliceId (getLe (ocArg c) 0 4)) := by
  simp only [ocEffect, h]

end

/-- The state after a burn that completes in one root only: with its record (R383). -/
def halfBurnt (s : State) : State := raiseErr s.tock 0x0702 0 (rootSource s) 0 none 0 (Config.freeWord s.tick).toNat

theorem burn_of_both {s : State} (h : Config.burns s.tick = (true, true)) : burn s = some s.tock := by simp only [burn, h]

theorem burn_of_neither {s : State} (h : Config.burns s.tick = (false, false)) : burn s = none := by simp only [burn, h]

theorem burn_of_one {s : State} (h : Config.burns s.tick = (true, false) ∨ Config.burns s.tick = (false, true)) : burn s = some (halfBurnt s) := by
  obtain h | h := h <;> simp only [burn, h] <;> rfl

theorem burned_of_some {s t : State} (h : burn s = some t) (f : State → State) : burned s f = .ok (f t) := by simp only [burned, h]

theorem burned_of_none {s : State} (h : burn s = none) (f : State → State) : burned s f = .error 0x17 := by simp only [burned, h]

/-- Settles O34: each operation by its checks, its effect by its number, a burn by the roots in which it completes. -/
theorem ownerCommandsRunTheirChecks : Obligations.OwnerCommandsRunTheirChecks := by
  unfold Obligations.OwnerCommandsRunTheirChecks
  refine ⟨fun c op s hc hroot hquiet => ?run, fun s c => ⟨?enroll, ?sealed, ?rotate, ?full, ?slice⟩, fun s f => ⟨?both, ?neither, ?one⟩⟩
  case run =>
    rw [exec_of_runsOwnerCommand hc]
    cases hrun : ocRun s (padTo 1024 s.cmdBuf) op <;>
      simp only [ownerCommand, hroot, hquiet, hrun, Bool.or_self, Bool.false_eq_true, if_false]
  case enroll => exact ocEffect_enroll s
  case sealed => exact ocEffect_seal s
  case rotate => exact ocEffect_rotate s
  case full => exact ocEffect_rotate_full s
  case slice => exact ocEffect_setSlice s
  case both => exact fun h => burned_of_some (burn_of_both h) f
  case neither => exact fun h => burned_of_none (burn_of_neither h) f
  case one => exact fun h => burned_of_some (burn_of_one h) f

/-! ## Services of the root (R382, R388, R389, R393, R397, R398) -/

theorem exec_attGo_of_served {s t : State} {time : Nat} (hserved : quotesServed s = true) (hstamp : s.stamp = (time, t)) : exec .attGo s = .next
    ({ t with quote := quoteBody t time ++ padTo 384 (Config.identitySign (quoteBody t time)) }.put secStatusAttDone 1) := by
  show execAttGo s = _
  simp only [execAttGo, hserved, hstamp]
  rfl

/-- The certificate body of a transport key (R393). -/
def ktCertBody (s : State) : List Byte :=
  ascii "HTWTKEY1" ++ natLe 8 (s.get ktId + 1) ++ natLe 8 s.serial ++ natLe 8 0 ++ regWords s attNonceNonce 4 ++ padTo 384 (Config.transportModulus s.tick)

theorem exec_ktReq_of_serving {s : State} (hquiet : quiesced s = false) (hroot : s.rootLost = false) :
    exec .ktReq s = .next ({ s.tock with kt := some (s.tick, 0), ktCert := ktCertBody s ++ padTo 384 (Config.identitySign (ktCertBody s)) }.puts
      [(ktId, s.get ktId + 1), (secStatusKtReady, 1)]) :=
  (if_neg (by rw [hquiet]; decide)).trans (if_neg (by rw [hroot]; decide))

theorem exec_seqCommit_of_serving {s : State} (hquiet : quiesced s = false) (hload : loadBusy s = false) (hroot : s.rootLost = false) :
    exec .seqCommit s = .next (s.put bsSeqFloorFloor (max (s.get bsSeqFloorFloor) s.bs.seq)) :=
  (if_neg (by rw [hquiet]; decide)).trans (if_neg (by rw [hload, hroot]; decide))

/-- The floor of target `i` after SVN_COMMIT (R389). -/
def committedFloor (s : State) (targets : BitVec 3) (i : Nat) : Nat :=
  if bitAt targets.toNat i then max (field (s.get svnSvnFloor) (8 * i) 8) (field (s.get svnSvnRun) (8 * i) 8) else field (s.get svnSvnFloor) (8 * i) 8

theorem exec_svnCommit_of_serving {s : State} (hquiet : quiesced s = false) (hload : loadBusy s = false) (hroot : s.rootLost = false)
    (targets : BitVec 3) {v : Nat → Nat} (hv : ∀ i, v i = committedFloor s targets i) : exec (.svnCommit targets) s =
    .next (if v 0 + 256 * v 1 + 65536 * v 2 = s.get svnSvnFloor then s
      else (burn s).elim s (fun t => t.put svnSvnFloor (v 0 + 256 * v 1 + 65536 * v 2))) := by
  rw [apply_ite Host.Outcome.next, hv 0, hv 1, hv 2]
  exact (if_neg (by rw [hquiet]; decide)).trans (if_neg (by rw [hload, hroot]; decide))

theorem rootFail_of_serving {s : State} (hroot : s.rootLost = false) (p m : Bool) : rootFail s p m false =
    if m = false ∧ (s.on secStateRootOnMirror = true ∨ p = false) then raiseErr { s with rootLost := true } 0x0704 3 (rootSource s) 0 none 0 0
    else if p = false ∧ s.on secStateRootOnMirror = false then raiseErr (s.put secStateRootOnMirror 1) 0x0703 0 34 0 none 0 0
    else s := by
  simp only [rootFail, hroot, Bool.false_eq_true, if_false, Bool.and_eq_true, Bool.or_eq_true, Bool.not_eq_true']

/-- Settles O35: each service of the root while it serves. -/
theorem rootServicesAnswer : Obligations.RootServicesAnswer := by
  unfold Obligations.RootServicesAnswer
  refine ⟨fun s t time hserved hstamp => exec_attGo_of_served hserved hstamp, ?kt, fun s hq hload hroot => exec_seqCommit_of_serving hq hload hroot, ?svn, ?failover⟩
  case kt =>
    rintro s b hquiet hroot hb
    rw [exec_ktReq_of_serving hquiet hroot, show ktCertBody s = b from hb.symm]
  case svn =>
    intro targets s v hquiet hload hroot hv
    rw [exec_svnCommit_of_serving hquiet hload hroot targets hv]
    cases burn s <;> rfl
  case failover =>
    intro p m s hroot
    rw [← rootFail_of_serving hroot]
    rfl

end Sys2Proof.Machine
end

section
namespace Sys2Proof.Machine

/-! ## Start-up (R382, R419, R421, R425) -/

section
variable (rep : BootReport) {s : State}

theorem exec_coldStart_of_ready (hstep : s.get bootStatusStep = 0) (hstop : s.inputStop = 0) (hvolts : 4050 ≤ s.get pwrInVinCv) :
    exec (.coldStart rep) s = .next (bootFrom3 s rep) := if_neg (by simp [hstep, hstop, hvolts])

theorem exec_coldStart_of_unready (h : s.get bootStatusStep ≠ 0 ∨ s.inputStop ≠ 0 ∨ s.get pwrInVinCv < 4050) :
    exec (.coldStart rep) s = .next s := if_pos h

theorem exec_coldReset_of_started (h : s.get bootStatusStep ≠ 0) : exec (.coldReset rep) s = .next (bootFrom3 (coldState s 1) rep) :=
  if_pos (decide_eq_true h)

theorem exec_moduleWarmReset_of_started (h : s.get bootStatusStep ≠ 0) :
    exec (.moduleWarmReset rep) s = .next (bootFrom4 (warmState (writeLives s)) rep) := if_pos (decide_eq_true h)

/-- The module after step 3: the abnormal input shown, and the roots that have failed taken out (R324, R382). -/
def rootsChecked (s : State) (rep : BootReport) : State := rootFail (setAbnormal (s.put bootStatusStep 3)
  (decide ((s.put bootStatusStep 3).get pwrInVinCv < 4050 ∨ 5700 < (s.put bootStatusStep 3).get pwrInVinCv)) false) rep.primaryOk rep.mirrorOk false

theorem bootFrom3_of_rootLost {t : State} (ht : rootsChecked s rep = t) (hroot : t.rootLost = true) : bootFrom3 s rep = t := by
  unfold rootsChecked at ht
  simp only [bootFrom3, ht, hroot, if_true]

theorem bootFrom3_of_root {t u : State} {d : List Byte} (ht : rootsChecked s rep = t) (hroot : t.rootLost = false)
    (hdraw : (drawOwnNonce (t.put capVersion 1)).draw 3 = (d, u)) : bootFrom3 s rep = bootFrom4 (u.put rdmaKeysKeyNonce (leNat d)) rep := by
  unfold rootsChecked at ht
  simp only [bootFrom3, ht, hroot, hdraw, Bool.false_eq_true, if_false]

theorem bootFrom4_of_rootLost (hroot : s.rootLost = true) : bootFrom4 s rep = s.put bootStatusStep 4 := if_pos hroot

/-- What the last step leaves in `BOOT_STATUS` (R419). -/
theorem get_started (t : State) (n : Nat) : (t.puts [(bootStatusStep, 0x1F), (bootStatusElapsedMs, n)]).get bootStatusStep = 0x1F ∧
    (t.puts [(bootStatusStep, 0x1F), (bootStatusElapsedMs, n)]).get bootStatusElapsedMs = n % 2 ^ bootStatusElapsedMs.w :=
  ⟨(State.get_put_other (f := bootStatusElapsedMs) (by decide)).trans (State.get_put_same _ _ _), State.get_put_same _ _ _⟩

end

/-- Settles O46: the commands by their conditions, the sequence step by step. -/
theorem startUpRunsItsSteps : Obligations.StartUpRunsItsSteps := by
  unfold Obligations.StartUpRunsItsSteps
  refine ⟨fun rep s hstep hstop hvolts => exec_coldStart_of_ready rep hstep hstop hvolts, fun rep s h => exec_coldStart_of_unready rep h,
    fun rep s h => ⟨exec_coldReset_of_started rep h, exec_moduleWarmReset_of_started rep h⟩, ?third, ?fourth, fun rep s => get_started _ _⟩
  case third =>
    exact fun rep s t ht => ⟨fun hroot => bootFrom3_of_rootLost rep ht.symm hroot, fun d u hroot hdraw => bootFrom3_of_root rep ht.symm hroot hdraw⟩
  case fourth =>
    refine fun rep s => ⟨fun hroot => bootFrom4_of_rootLost rep hroot, fun hroot => ?_⟩
    simp only [bootFrom4, hroot, Bool.false_eq_true, if_false]
    generalize bootTarget s 0 = x
    obtain ⟨img, t⟩ := x
    cases img <;> rfl

/-! ## Resets of regions and ports (R426, R427) -/

/-- Region `r` with its logic reset, what was in it written back, its open steps failed (R426). -/
def regionCleared (s : State) (r : Nat) : State :=
  (failOpenSteps (resetLogic (endQuiesce (writeBackInv (writeLives s) r)) r) r).put resetCauseLast 3

section
variable {r : Fin 32} {s u : State} (hrun : running s r = true) (hu : resetHub (regionCleared s r) = u)
include hrun hu

theorem exec_regionReset_of_free (hfree : (0x0A01, r.val) ∉ s.bootInj) : exec (.regionReset r) s = .next (disarm u r) := by
  have hforced : forcedAt s 0x0A01 r = false := by simpa [forcedAt] using hfree
  unfold regionCleared at hu
  show execRegionReset r s = _
  simp only [execRegionReset, hrun, hforced, hu, Bool.not_true, Bool.false_eq_true, if_false]

theorem exec_regionReset_of_takeover (hinj : (0x0A01, r.val) ∈ s.bootInj) : exec (.regionReset r) s = .next ((raiseErr
    (fired { u with bootInj := u.bootInj.filter (fun e => decide (e ≠ (0x0A01, r.val))), inj := s.inj }) 0x0A01 0 r 0 none 0 0 true).put (hubStatHubOnB r) 1) := by
  have hforced : forcedAt s 0x0A01 r = true := by simpa [forcedAt] using hinj
  unfold regionCleared at hu
  show execRegionReset r s = _
  simp only [execRegionReset, hrun, hforced, hu, Bool.not_true, Bool.false_eq_true, if_false, if_true]

end

/-- The link of a port or half is taken down (R427). -/
def linkDown (t : State) (p h : Nat) : State :=
  t.put (portStatLink (p / 16) (p % 16)) (setBit (t.get (portStatLink (p / 16) (p % 16))) h false)

/-- The queue pairs of a port or half that are not in error yet. -/
def openPairs (u : State) (p h : Nat) : List Nat :=
  (u.peers.filter (fun e => peerValid e.2 && !e.2.err && decide (peerPort e.1 e.2 = p ∧ peerHalf e.2 = h))).map (·.1)

theorem exec_portReset_of_up {p : Fin 64} {h : Fin 2} {s : State} (hclass : portClass s p ≠ 0) (hhalf : h = 0 ∨ breakout s p = true)
    (hdie : s.pdOff.contains (p.val / 16) = false) : exec (.portReset p h) s =
    .next (((openPairs (linkDown (endQuiesce s) p h) p h).foldl qpError (linkDown (endQuiesce s) p h)).put resetCauseLast 4) := by
  refine if_neg ?_
  rintro (hnone | ⟨hsecond, hwhole⟩ | hoff)
  · exact hclass hnone
  · obtain rfl | hbreak := hhalf
    · exact absurd hsecond (by decide)
    · rw [hbreak] at hwhole
      exact absurd hwhole (by decide)
  · rw [hdie] at hoff
    exact absurd hoff (by decide)

/-! ## The quiesce (R428) -/

/-- Save: caches and life increments are written, and the module is quiesced. -/
def quiesceSaved (s : State) : State := { writeLives ((List.range 32).foldl writeBack s) with quiescing := 0 }.put resetCtrlQuiesced 1

theorem exec_quiesce_of_begun {s t : State} (hquiet : quiesced s = false) (hidle : s.quiescing = 0) (hload : loadBusy s = false)
    (hfw : s.on fwUpdateFwBusy = false) (ht : stallAll { s with quiescing := 1 } 5 = t) (hone : t.quiescing = 1) : exec .quiesce s =
    .next (if quiesceStalled t = true then (if quiesceFlushed t = true then quiesceSaved { t with quiescing := 2 } else { t with quiescing := 2 }) else t) := by
  have hflushed : quiesceFlushed { t with quiescing := 2 } = quiesceFlushed t := rfl
  show execQuiesce s = _
  simp only [execQuiesce, hquiet, hidle, hload, hfw, ht, hone, Bool.or_self, Bool.false_eq_true, and_false, or_self, if_false, if_true, decide_true,
    Bool.true_and, Bool.and_eq_true, decide_eq_true_eq]
  by_cases hstalled : quiesceStalled t = true
  · by_cases hdone : quiesceFlushed t = true
    · simp only [hstalled, hflushed, hdone, if_true, true_and, quiesceSaved]
    · simp only [hstalled, hflushed, hdone, if_true, and_false, Bool.false_eq_true, if_false]
  · simp only [hstalled, hone, Bool.false_eq_true, if_false, Nat.reduceEqDiff, false_and]

theorem exec_quiesce_of_flushed {s : State} (hquiet : quiesced s = false) (htwo : s.quiescing = 2) (hflushed : quiesceFlushed s = true) :
    exec .quiesce s = .next (quiesceSaved s) := by
  show execQuiesce s = _
  simp only [execQuiesce, hquiet, htwo, hflushed, quiesceSaved, Bool.false_eq_true, false_and, or_self, if_false, Nat.reduceEqDiff,
    decide_false, decide_true, Bool.false_and, Bool.true_and, if_true]

/-! ## Firmware updates (R388, R429, R430) -/

/-- The checked image replaces the preferred bank `p` of target `g`, whose image goes to the other bank (R429). -/
def flashWritten (flash : Tab (List Byte)) (g p : Nat) (b : List Byte) : Tab (List Byte) :=
  tabPut (g * 2 + p) b (match tabFind (g * 2 + p) flash with
    | some old => tabPut (g * 2 + (1 - p)) old flash
    | none => tabErase (g * 2 + (1 - p)) flash)

theorem exec_fwWrite_of_free {g : Fin 3} {s t : State} {b : Option (List Byte)} (hload : loadBusy s = false) (hfw : s.on fwUpdateFwBusy = false)
    (hquiet : quiesced s = false) (hroot : s.rootLost = false) (hstep : 13 ≤ s.get bootStatusStep)
    (hstaged : staged (s.put fwUpdateFwTgt g) ((s.put fwUpdateFwTgt g).get bsLenLen) = (b, t)) : exec (.fwWrite g) s =
    .next (if fwCheck t g (b.getD []) ≠ 1 then (fwRefused t g (fwCheck t g (b.getD []))).put fwUpdateFwCode (fwCheck t g (b.getD []))
      else { t with flash := flashWritten t.flash g (t.get secStateBootBank) (b.getD []) }.put fwUpdateFwCode 1) := by
  have hlate : decide (s.get bootStatusStep < 13) = false := by simpa using hstep
  rw [apply_ite Host.Outcome.next]
  show execFwWrite g s = _
  simp only [execFwWrite, hload, hfw, hquiet, hroot, hlate, hstaged, Bool.or_self, Bool.false_eq_true, if_false]
  rfl

theorem exec_fwActivate_of_free {s t : State} (hfw : s.on fwUpdateFwBusy = false) (hquiet : quiesced s = false) (hroot : s.rootLost = false)
    (hstep : 13 ≤ s.get bootStatusStep) (hidle : s.quiescing = 0) (ht : stallAll ({ s with activating := true }.put fwUpdateFwBusy 1) 5 = t) :
    exec .fwActivate s = .next (if t.activating = true ∧ allStalled t 5 = true then rebootCpc t else t) := by
  have hfree : (!s.on fwUpdateFwBusy && !quiesced s && !s.rootLost && decide (13 ≤ s.get bootStatusStep ∧ s.quiescing = 0)) = true := by
    simp only [hfw, hquiet, hroot, hstep, hidle, Bool.not_false, Bool.and_self, and_self, decide_true]
  show execFwActivate s = _
  simp only [execFwActivate, hfree, ht, if_true, Bool.and_eq_true, apply_ite Host.Outcome.next]

theorem exec_fwActivate_of_stalled {s : State} (hfw : s.on fwUpdateFwBusy = true) (hactive : s.activating = true) (hstalled : allStalled s 5 = true) :
    exec .fwActivate s = .next (rebootCpc s) := by
  show execFwActivate s = _
  simp only [execFwActivate, hfw, hactive, hstalled, Bool.not_true, Bool.false_and, Bool.false_eq_true, if_false, Bool.and_self, if_true]

/-- Settles O47: each reset and each half of an update under its conditions. -/
theorem resetsAndUpdatesAct : Obligations.ResetsAndUpdatesAct := by
  unfold Obligations.ResetsAndUpdatesAct
  refine ⟨?region, ?port, ?quiesce, ?write, ?activate, fun s hfw hactive hstalled => exec_fwActivate_of_stalled hfw hactive hstalled⟩
  case region =>
    intro r s t u hrun ht hu
    have hcleared : regionCleared s r = t := ht.symm
    have hhub : resetHub (regionCleared s r) = u := (congrArg resetHub hcleared).trans hu.symm
    exact ⟨fun hfree => exec_regionReset_of_free hrun hhub hfree, fun hinj => exec_regionReset_of_takeover hrun hhub hinj⟩
  case port =>
    intro p h s t u hclass hhalf hdie ht hu
    have hdown : linkDown (endQuiesce s) p h = u := by rw [hu, ht]; rfl
    rw [exec_portReset_of_up hclass hhalf hdie, hdown]
    rfl
  case quiesce =>
    exact fun s hquiet => ⟨fun t hidle hload hfw ht hone => exec_quiesce_of_begun hquiet hidle hload hfw ht.symm hone,
      fun htwo hflushed => exec_quiesce_of_flushed hquiet htwo hflushed⟩
  case write =>
    intro g s t b k p hload hfw hquiet hroot hstep hstaged hk hp
    rw [exec_fwWrite_of_free hload hfw hquiet hroot hstep hstaged, ← hk, ← hp]
    rfl
  case activate =>
    exact fun s t hfw hquiet hroot hstep hidle ht => exec_fwActivate_of_free hfw hquiet hroot hstep hidle ht.symm

end Sys2Proof.Machine
end
